-- ==== Sys2Proof/Word.lean ====
section
/-! DEFINITION. The machine's words and the closed sets of names that instruction fields and outside inputs take their values from.
Only types stand here; the codes of these names in an instruction word are in Sys2Proof/Decode.lean. -/

namespace Sys2Proof

/-- A 32-bit register value or instruction word (02_encoding R25). -/
abbrev Word := BitVec 32
/-- A 64-bit generic address or register pair (01_machine R19). -/
abbrev Addr := BitVec 64

/-- The stream that fetched a word: a warp's lane code or a gang's matrix code (02_encoding R42). -/
inductive Stream where
  | lane
  | matrix
  deriving DecidableEq, Repr

/-- The causes of the illegal-instruction trap (02_encoding R41). -/
inductive Cause where
  | zero
  | maj
  | func
  | stream
  | priv
  | oper
  | chain
  | xword
  | target
  deriving DecidableEq, Repr

/-- An immediate: the short field of the word, or the 32-bit value an extension word completes (02_encoding R29, R32). -/
inductive Imm (n : Nat) where
  | short (v : BitVec n)
  | long (v : BitVec 32)
  deriving DecidableEq, Repr

/-- Rounding modes (07_numbers R169). -/
inductive RoundMode where
  | ne
  | z
  | d
  | u
  deriving DecidableEq, Repr

/-- Integer comparison conditions (02_encoding R44). -/
inductive ICond where
  | eq
  | ne
  | ltI
  | leI
  | gtI
  | geI
  | ltN
  | leN
  | gtN
  | geN
  deriving DecidableEq, Repr

/-- Floating-point comparison conditions (02_encoding R44). -/
inductive FCond where
  | eq
  | ne
  | lt
  | le
  | gt
  | ge
  | un
  | ord
  deriving DecidableEq, Repr

/-- The types that cvt converts between (02_encoding R45). -/
inductive CvtTy where
  | f32
  | f16
  | bf16
  | e4m3
  | i32
  | n32
  | i16
  | n16
  | i8
  | n8
  | i4
  | i2
  | i64
  | n64
  deriving DecidableEq, Repr

/-- Sizes and extensions of ld and st (02_encoding R47). -/
inductive MemSize where
  | n8
  | i8
  | n16
  | i16
  | b32
  | b64
  deriving DecidableEq, Repr

/-- The special registers that movs reads (02_encoding R35). -/
inductive Special where
  | lane
  | warp
  | gang
  | task
  | core
  | stack
  | cluster
  | plvl
  | time
  | cyc
  deriving DecidableEq, Repr

/-- Event kinds (05_events R115). -/
inductive EvKind where
  | dline
  | stamp
  | bar
  | tbr
  | mbox
  | beam
  | tok
  deriving DecidableEq, Repr

/-- What trap.ret asks for (05_events R131). -/
inductive TrapRet where
  | replay
  | next
  | resume
  deriving DecidableEq, Repr

/-- mwait conditions (09_ordering R233). -/
inductive MCond where
  | ne
  | eq
  | ge
  deriving DecidableEq, Repr

/-- Matrix operand formats (02_encoding R46). -/
inductive MmFmt where
  | i2
  | i4
  | i8
  | e4m3
  | bf16
  | q4
  deriving DecidableEq, Repr

/-- Operand row lengths of mm (02_encoding R46). -/
inductive Kb where
  | k512
  | k256
  | k128
  deriving DecidableEq, Repr

/-- Kept elements of 16 in mm.sp (02_encoding R46). -/
inductive Keep where
  | keep8
  | keep4
  | keep2
  deriving DecidableEq, Repr

/-- Reasons of a pre-emption request (05_events R129, R133). -/
inductive PreReason where
  | stacks
  | priority
  | supervisor
  | repair
  deriving DecidableEq, Repr

/-- The tiers of a stack (15_power R340). -/
inductive Tier where
  | base
  | lower
  | upper
  deriving DecidableEq, Repr

/-- A router of a stack's base tier, or a fabric path from a stack to the next (16_stack R355, R364). -/
inductive NetItem where
  | router (stk i : Nat)
  | path (stk i : Nat)
  deriving DecidableEq, Repr

/-- What a host access names (09_ordering R228): a global address of a context, or a mailbox by its target word (05_events R124). -/
inductive HostTarget where
  | global (asid : Nat) (va : BitVec 48)
  | mbox (tgt : BitVec 32)
  deriving DecidableEq, Repr

/-- What a host access does, on the little-endian value of its bytes. -/
inductive HostAct where
  | load
  | store (v : BitVec 64)
  | xchg (v : BitVec 64)
  | cas (old new : BitVec 64)
  | add (v : BitVec 64)
  deriving DecidableEq, Repr

/-- A beat of a vertical bundle (16_stack R353): whether it goes down to the base tier, its number, and its data. -/
structure Beat where
  dn    : Bool
  seqNo : BitVec 8
  data  : BitVec 64
  deriving DecidableEq, Repr

/-- A wire of a core's vertical bundles (16_stack R353): the direction, down or up, and the number. -/
structure BundleWire where
  dn   : Bool
  wire : BitVec 7
  deriving DecidableEq, Repr

/-- What the self-tests of stacks 1 and 2 leave (16_stack R358): the stacks that passed, and the cores that are not placeable, those of stack 1 first. -/
structure SelfTests where
  avail  : BitVec 3
  failed : BitVec 64
  deriving DecidableEq, Repr

/-- One host access (09_ordering R228): the size in bytes is 1 to 8. -/
structure HostOp where
  target : HostTarget
  size   : Nat
  act    : HostAct
  deriving DecidableEq, Repr

/-- A request at the IEEE 1149.7 port (16_stack R357, 17_debug): identity, the bring-up status word, or an instruction of
major 0x37 issued as a supervisor, with its word and the uniform registers it reads. -/
inductive DebugReq where
  | identity
  | status
  | issue (w : BitVec 32) (regs : List (BitVec 32))
  deriving DecidableEq, Repr

end Sys2Proof
end

