-- ==== Sys2Proof/Syntax.lean ====
section
/-! DEFINITION. The instructions and machine events of the Q3: one constructor for each row of the opcode table, in its order.
The first 282 are the encoded instructions (02_encoding R43), with the operand fields of their words; the chain bit belongs to the packet,
not to the instruction. The other 81 are the steps that the spec describes without an encoding (95_what_each_step_holds); an outside
outcome (a failed test, a temperature) is an operand of its event. -/

namespace Sys2Proof

/-- The rows of the opcode table. Field names are those of the word's fields. -/
inductive Instr where
  /-- BRA (R99). Lane branch: each active lane whose predicate (xor N) holds goes to the target packet, and the path splits when the lanes disagree. -/
  | bra (p : BitVec 3) (n : Bool) (t : BitVec 20)
  /-- CALL (R105). Pushes the next packet's address on each taking lane's return area and sends those lanes to the target. -/
  | call (p : BitVec 3) (n : Bool) (t : BitVec 20)
  /-- BRP (R100). Path branch: the whole path moves to the target if the predicate holds in any active lane, and otherwise continues. -/
  | brp (p : BitVec 3) (n : Bool) (t : BitVec 20)
  /-- BRX (R102). Indirect branch to a uniform base plus 12 times a per-lane index, splitting by target after the checks of R103. -/
  | brx (a : BitVec 7) (s : BitVec 6)
  /-- CALLX (R105). Indirect call: checks the per-lane targets, pushes return addresses and moves the lanes. -/
  | callx (a : BitVec 7) (s : BitVec 6)
  /-- RET (R106). Pops one return address per lane from the return area and sends each lane there, splitting by target. -/
  | ret
  /-- JOIN (R107). Puts the path in JOIN and merges it with any path of its class already in JOIN at the same place. -/
  | join
  /-- EXIT (R110). Ends the active lanes of the path; the warp exits when no live path remains. -/
  | exit
  /-- NOP (R111). No architected effect. -/
  | nop
  /-- PYIELD (R112). Marks the path and its warp as the most recent issuers, so that other paths and warps go first. -/
  | pyield
  /-- EV_ARM (R119). Arms event register eN from a six-register arm block and evaluates its condition once, in the memory order. -/
  | evArm (k : EvKind) (n : BitVec 3) (s : BitVec 6)
  /-- EV_DISARM (R119). Clears ARMED, PEND and VAL of an event register. -/
  | evDisarm (n : BitVec 3)
  /-- WAIT_ANY (R120). Holds the path on a mask of armed event registers until one is pending. -/
  | waitAny (s : BitVec 6)
  /-- EV_PEND (R119). Writes the PEND and ARMED bits of all eight registers, and the VAL of eA, to every active lane. -/
  | evPend (d : BitVec 7) (a : BitVec 3)
  /-- MBOX_SEND (R125). Compare-and-swaps a token into an empty mailbox and writes a status to every active lane. -/
  | mboxSend (d : BitVec 7) (s : BitVec 6)
  /-- MBOX_RECV (R125). Exchanges a mailbox word with 0 and writes the token to every active lane. -/
  | mboxRecv (d : BitVec 7) (s : BitVec 6)
  /-- TRAP (R131). Raises trap class SOFT with CODE n and INFO pair(sA). -/
  | trap (a : BitVec 6) (i : BitVec 8)
  /-- TRAP_RET (R131). Ends handler mode for the path: replays the trapped group, skips it, or ends a pre-emption handler path. -/
  | trapRet (k : TrapRet)
  /-- PRE_DONE (R135). Marks a pre-emption handler path done with its resume address; once all handler paths are done and stores drain, the warp is saved. -/
  | preDone (a : BitVec 6)
  /-- PRE_MASK (R133). Sets or clears the warp's pre-emption mask; clearing it enters the handler for a pending request. -/
  | preMask (k : Bool)
  /-- IADD (R146). Lane 32-bit wrapping addition. -/
  | iadd (d a b : BitVec 7)
  /-- ISUB (R146). Lane 32-bit wrapping subtraction. -/
  | isub (d a b : BitVec 7)
  /-- IMUL (R146). Lane low 32 bits of a product. -/
  | imul (d a b : BitVec 7)
  /-- IMULH_I32 (R146). Lane high 32 bits of a signed product. -/
  | imulhI32 (d a b : BitVec 7)
  /-- IMULH_N32 (R146). Lane high 32 bits of an unsigned product. -/
  | imulhN32 (d a b : BitVec 7)
  /-- IMAD (R146). Lane multiply-add into vD, wrapping. -/
  | imad (d a b : BitVec 7)
  /-- IMIN_I32 (R146). Lane signed minimum. -/
  | iminI32 (d a b : BitVec 7)
  /-- IMIN_N32 (R146). Lane unsigned minimum. -/
  | iminN32 (d a b : BitVec 7)
  /-- IMAX_I32 (R146). Lane signed maximum. -/
  | imaxI32 (d a b : BitVec 7)
  /-- IMAX_N32 (R146). Lane unsigned maximum. -/
  | imaxN32 (d a b : BitVec 7)
  /-- IABS (R146). Lane wrapping absolute value. -/
  | iabs (d a : BitVec 7)
  /-- INEG (R146). Lane wrapping negation. -/
  | ineg (d a : BitVec 7)
  /-- LEA (R146). Lane 64-bit address plus a signed 32-bit index. -/
  | lea (d a b : BitVec 7)
  /-- IADD64 (R146). Lane 64-bit pair addition. -/
  | iadd64 (d a b : BitVec 7)
  /-- AND (R148). Lane bitwise and. -/
  | and (d a b : BitVec 7)
  /-- OR (R148). Lane bitwise or. -/
  | or (d a b : BitVec 7)
  /-- XOR (R148). Lane bitwise exclusive-or. -/
  | xor (d a b : BitVec 7)
  /-- ANDN (R148). Lane and with the complement of vB. -/
  | andn (d a b : BitVec 7)
  /-- SHL (R143). Lane left shift; a count of 32 or more gives 0. -/
  | shl (d a b : BitVec 7)
  /-- SHR (R143). Lane logical right shift. -/
  | shr (d a b : BitVec 7)
  /-- SAR (R143). Lane arithmetic right shift. -/
  | sar (d a b : BitVec 7)
  /-- ROT (R143). Lane rotate left by the count mod 32. -/
  | rot (d a b : BitVec 7)
  /-- CLZ (R148). Lane count of leading zeros. -/
  | clz (d a : BitVec 7)
  /-- POPC (R148). Lane population count. -/
  | popc (d a : BitVec 7)
  /-- BREV (R148). Lane bit reversal. -/
  | brev (d a : BitVec 7)
  /-- BFE_N32 (R149). Lane unsigned bit-field extract. -/
  | bfeN32 (d a b : BitVec 7)
  /-- BFE_I32 (R149). Lane signed bit-field extract. -/
  | bfeI32 (d a b : BitVec 7)
  /-- BFI (R149). Lane bit-field insert into vD. -/
  | bfi (d a b : BitVec 7)
  /-- BILV (R150). Lane bit interleave by stride and offset. -/
  | bilv (d a b : BitVec 7)
  /-- BDLV (R150). Lane bit de-interleave by stride and offset. -/
  | bdlv (d a b : BitVec 7)
  /-- IADD_IMM (R151). Lane addition of a sign-extended immediate. -/
  | iaddImm (d a : BitVec 7) (i : Imm 8)
  /-- AND_IMM (R151). Lane and with a zero-extended immediate. -/
  | andImm (d a : BitVec 7) (i : Imm 8)
  /-- OR_IMM (R151). Lane or with an immediate. -/
  | orImm (d a : BitVec 7) (i : Imm 8)
  /-- XOR_IMM (R151). Lane exclusive-or with an immediate. -/
  | xorImm (d a : BitVec 7) (i : Imm 8)
  /-- SHL_IMM (R151). Lane left shift by an immediate. -/
  | shlImm (d a : BitVec 7) (i : Imm 8)
  /-- SHR_IMM (R151). Lane logical right shift by an immediate. -/
  | shrImm (d a : BitVec 7) (i : Imm 8)
  /-- SAR_IMM (R151). Lane arithmetic right shift by an immediate. -/
  | sarImm (d a : BitVec 7) (i : Imm 8)
  /-- MOVI (R151). Writes a sign-extended immediate to every active lane. -/
  | movi (d : BitVec 7) (i : Imm 8)
  /-- ICMP (R152). Lane integer compare writing a lane predicate. -/
  | icmp (k : ICond) (p : BitVec 3) (a b : BitVec 7)
  /-- MIX32 (R154). Lane mix32 hash of vA keyed by vB. -/
  | mix32 (d a b : BitVec 7)
  /-- SHFL (R160). Each active lane reads vA from the lane named by its index, or keeps its own value when that lane is inactive. -/
  | shfl (d a b : BitVec 7)
  /-- LSCAN_ADD (R160). Segmented inclusive add scan over the path's active lanes. -/
  | lscanAdd (d a : BitVec 7) (n : Bool) (p : BitVec 3)
  /-- LSCAN_AND (R160). Segmented inclusive and scan over the path's active lanes. -/
  | lscanAnd (d a : BitVec 7) (n : Bool) (p : BitVec 3)
  /-- LSCAN_OR (R160). Segmented inclusive or scan over the path's active lanes. -/
  | lscanOr (d a : BitVec 7) (n : Bool) (p : BitVec 3)
  /-- LSCAN_XOR (R160). Segmented inclusive exclusive-or scan over the path's active lanes. -/
  | lscanXor (d a : BitVec 7) (n : Bool) (p : BitVec 3)
  /-- LSCAN_MIN_I32 (R160). Segmented inclusive signed-minimum scan over the path's active lanes. -/
  | lscanMinI32 (d a : BitVec 7) (n : Bool) (p : BitVec 3)
  /-- LSCAN_MAX_I32 (R160). Segmented inclusive signed-maximum scan over the path's active lanes. -/
  | lscanMaxI32 (d a : BitVec 7) (n : Bool) (p : BitVec 3)
  /-- REGROUP (R161). Holds the path at a rendezvous of the member warps, which then move lanes between them sorted by key. -/
  | regroup (d a b : BitVec 7)
  /-- SEL (R153). Lane select of vA or vB by a predicate. -/
  | sel (d a b : BitVec 7) (p : BitVec 3)
  /-- MOV (R153). Lane register move. -/
  | mov (d a : BitVec 7)
  /-- MOVS (R153). Lane read of a special register. -/
  | movs (d : BitVec 7) (x : Special)
  /-- VOTE_ANY (R160). Writes to every active lane whether the predicate holds in any active lane. -/
  | voteAny (d a : BitVec 3)
  /-- VOTE_ALL (R160). Writes to every active lane whether the predicate holds in all active lanes. -/
  | voteAll (d a : BitVec 3)
  /-- VOTE_BALL (R160). Writes the ballot mask of the predicate to every active lane. -/
  | voteBall (d : BitVec 7) (a : BitVec 3)
  /-- V2S (R160). Copies vA of the lowest active lane into a uniform register. -/
  | v2s (a : BitVec 7) (s : BitVec 6)
  /-- S2V (R160). Copies a uniform register into every active lane. -/
  | s2v (d : BitVec 7) (s : BitVec 6)
  /-- LBCAST (R160). Broadcasts vA of the lane named by sS to the active lanes. -/
  | lbcast (d a : BitVec 7) (s : BitVec 6)
  /-- LRED_ADD (R160). Add reduction over the active lanes, written to each of them. -/
  | lredAdd (d a : BitVec 7)
  /-- LRED_AND (R160). And reduction over the active lanes. -/
  | lredAnd (d a : BitVec 7)
  /-- LRED_OR (R160). Or reduction over the active lanes. -/
  | lredOr (d a : BitVec 7)
  /-- LRED_XOR (R160). Exclusive-or reduction over the active lanes. -/
  | lredXor (d a : BitVec 7)
  /-- LRED_MIN_I32 (R160). Signed-minimum reduction over the active lanes. -/
  | lredMinI32 (d a : BitVec 7)
  /-- LRED_MAX_I32 (R160). Signed-maximum reduction over the active lanes. -/
  | lredMaxI32 (d a : BitVec 7)
  /-- IADD_U (R155). Uniform 32-bit addition. -/
  | iaddU (d a b : BitVec 6)
  /-- ISUB_U (R155). Uniform subtraction. -/
  | isubU (d a b : BitVec 6)
  /-- IMUL_U (R155). Uniform low product. -/
  | imulU (d a b : BitVec 6)
  /-- IMULH_I32_U (R155). Uniform signed high product. -/
  | imulhI32U (d a b : BitVec 6)
  /-- IMULH_N32_U (R155). Uniform unsigned high product. -/
  | imulhN32U (d a b : BitVec 6)
  /-- IMAD_U (R155). Uniform multiply-add into sD. -/
  | imadU (d a b : BitVec 6)
  /-- IMIN_I32_U (R155). Uniform signed minimum. -/
  | iminI32U (d a b : BitVec 6)
  /-- IMIN_N32_U (R155). Uniform unsigned minimum. -/
  | iminN32U (d a b : BitVec 6)
  /-- IMAX_I32_U (R155). Uniform signed maximum. -/
  | imaxI32U (d a b : BitVec 6)
  /-- IMAX_N32_U (R155). Uniform unsigned maximum. -/
  | imaxN32U (d a b : BitVec 6)
  /-- IABS_U (R155). Uniform absolute value. -/
  | iabsU (d a : BitVec 6)
  /-- INEG_U (R155). Uniform negation. -/
  | inegU (d a : BitVec 6)
  /-- LEA_U (R155). Uniform 64-bit address plus a signed index. -/
  | leaU (d a b : BitVec 6)
  /-- IADD64_U (R155). Uniform 64-bit pair addition. -/
  | iadd64U (d a b : BitVec 6)
  /-- AND_U (R155). Uniform and. -/
  | andU (d a b : BitVec 6)
  /-- OR_U (R155). Uniform or. -/
  | orU (d a b : BitVec 6)
  /-- XOR_U (R155). Uniform exclusive-or. -/
  | xorU (d a b : BitVec 6)
  /-- ANDN_U (R155). Uniform and-not. -/
  | andnU (d a b : BitVec 6)
  /-- SHL_U (R155). Uniform left shift. -/
  | shlU (d a b : BitVec 6)
  /-- SHR_U (R155). Uniform logical right shift. -/
  | shrU (d a b : BitVec 6)
  /-- SAR_U (R155). Uniform arithmetic right shift. -/
  | sarU (d a b : BitVec 6)
  /-- ROT_U (R155). Uniform rotate. -/
  | rotU (d a b : BitVec 6)
  /-- CLZ_U (R155). Uniform count of leading zeros. -/
  | clzU (d a : BitVec 6)
  /-- POPC_U (R155). Uniform population count. -/
  | popcU (d a : BitVec 6)
  /-- BREV_U (R155). Uniform bit reversal. -/
  | brevU (d a : BitVec 6)
  /-- BFE_N32_U (R155). Uniform unsigned field extract. -/
  | bfeN32U (d a b : BitVec 6)
  /-- BFE_I32_U (R155). Uniform signed field extract. -/
  | bfeI32U (d a b : BitVec 6)
  /-- BFI_U (R155). Uniform field insert into sD. -/
  | bfiU (d a b : BitVec 6)
  /-- BILV_U (R155). Uniform bit interleave. -/
  | bilvU (d a b : BitVec 6)
  /-- BDLV_U (R155). Uniform bit de-interleave. -/
  | bdlvU (d a b : BitVec 6)
  /-- ICMP_U (R155). Uniform compare writing 1 or 0 to sD. -/
  | icmpU (d a b : BitVec 6) (k : ICond)
  /-- MOVS_U (R155). Uniform read of a special register. -/
  | movsU (d : BitVec 6) (x : Special)
  /-- MOV_U (R155). Uniform register move. -/
  | movU (d a : BitVec 6)
  /-- MIX32_U (R154). Uniform mix32 hash. -/
  | mix32U (d a b : BitVec 6)
  /-- IADD_UIMM (R156). Uniform addition of a sign-extended 10-bit immediate. -/
  | iaddUimm (d a : BitVec 6) (i : Imm 10)
  /-- AND_UIMM (R156). Uniform and with an immediate. -/
  | andUimm (d a : BitVec 6) (i : Imm 10)
  /-- OR_UIMM (R156). Uniform or with an immediate. -/
  | orUimm (d a : BitVec 6) (i : Imm 10)
  /-- XOR_UIMM (R156). Uniform exclusive-or with an immediate. -/
  | xorUimm (d a : BitVec 6) (i : Imm 10)
  /-- SHL_UIMM (R156). Uniform left shift by an immediate. -/
  | shlUimm (d a : BitVec 6) (i : Imm 10)
  /-- SHR_UIMM (R156). Uniform logical right shift by an immediate. -/
  | shrUimm (d a : BitVec 6) (i : Imm 10)
  /-- SAR_UIMM (R156). Uniform arithmetic right shift by an immediate. -/
  | sarUimm (d a : BitVec 6) (i : Imm 10)
  /-- MOVI_U (R156). Writes a sign-extended immediate to a uniform register. -/
  | moviU (d : BitVec 6) (i : Imm 10)
  /-- FADD (R175). Lane FP32 addition rounded in the mode that RM selects. -/
  | fadd (d a b : BitVec 7) (r : RoundMode)
  /-- FMUL (R175). Lane FP32 multiplication. -/
  | fmul (d a b : BitVec 7) (r : RoundMode)
  /-- FFMA (R175). Lane FP32 fused multiply-add into vD, with one rounding. -/
  | ffma (d a b : BitVec 7) (r : RoundMode)
  /-- FSUB (R175). Lane FP32 subtraction, rounded to nearest even. -/
  | fsub (d a b : BitVec 7)
  /-- FMIN (R175). Lane FP32 minimum. -/
  | fmin (d a b : BitVec 7)
  /-- FMAX (R175). Lane FP32 maximum. -/
  | fmax (d a b : BitVec 7)
  /-- FCMP (R178). Lane FP32 compare writing a predicate. -/
  | fcmp (k : FCond) (p : BitVec 3) (a b : BitVec 7)
  /-- FCLASS (R179). Lane one-hot class of an FP32 value. -/
  | fclass (d a : BitVec 7)
  /-- FCLASS_FLG (R179). Reads the lane's sticky flags. -/
  | fclassFlg (d : BitVec 7)
  /-- FCLASS_FLGCLR (R179). Reads and then clears the lane's sticky flags. -/
  | fclassFlgclr (d : BitVec 7)
  /-- FRND (R180). Lane FP32 round to integral, to nearest even. -/
  | frnd (d a : BitVec 7)
  /-- FRND_RZ (R180). Lane FP32 round to integral, toward zero. -/
  | frndRz (d a : BitVec 7)
  /-- FRND_RD (R180). Lane FP32 round to integral, downward. -/
  | frndRd (d a : BitVec 7)
  /-- FRND_RU (R180). Lane FP32 round to integral, upward. -/
  | frndRu (d a : BitVec 7)
  /-- HADD2_F16 (R181). Packed FP16 addition. -/
  | hadd2F16 (d a b : BitVec 7)
  /-- HADD2_BF16 (R181). Packed BF16 addition. -/
  | hadd2Bf16 (d a b : BitVec 7)
  /-- HMUL2_F16 (R181). Packed FP16 multiplication. -/
  | hmul2F16 (d a b : BitVec 7)
  /-- HMUL2_BF16 (R181). Packed BF16 multiplication. -/
  | hmul2Bf16 (d a b : BitVec 7)
  /-- HFMA2_F16 (R181). Packed FP16 fused multiply-add. -/
  | hfma2F16 (d a b : BitVec 7)
  /-- HFMA2_BF16 (R181). Packed BF16 fused multiply-add. -/
  | hfma2Bf16 (d a b : BitVec 7)
  /-- RCP (R183). Correctly rounded reciprocal. -/
  | rcp (d a : BitVec 7)
  /-- RSQ (R183). Correctly rounded reciprocal square root. -/
  | rsq (d a : BitVec 7)
  /-- SQRT (R183). Correctly rounded square root. -/
  | sqrt (d a : BitVec 7)
  /-- EXP2 (R183). Correctly rounded 2 to the power a. -/
  | exp2 (d a : BitVec 7)
  /-- LOG2 (R183). Correctly rounded base-2 logarithm. -/
  | log2 (d a : BitVec 7)
  /-- SIN (R183). Correctly rounded sin(pi × a). -/
  | sin (d a : BitVec 7)
  /-- COS (R183). Correctly rounded cos(pi × a). -/
  | cos (d a : BitVec 7)
  /-- CVT (R185). Converts between the types that the control word selects, with rounding and saturation. -/
  | cvt (d a : BitVec 7) (dty sty : CvtTy) (r : RoundMode) (ns : Bool)
  /-- QHIST (R188). Adds exponent counts of the active lanes into a histogram held across the lanes of vD. -/
  | qhist (d a b : BitVec 7)
  /-- QSCALE (R189). Chooses an E8M0 scale per segment from a histogram by a percentile rule. -/
  | qscale (d a b : BitVec 7)
  /-- QPACK (R190). Packs FP32 lanes into E2M1 nibbles by a scale, or unpacks them. -/
  | qpack (d a b : BitVec 7)
  /-- LD (R207). Lane load from a generic address with the size and extension of Z. -/
  | ld (d a : BitVec 7) (o : Imm 8) (z : MemSize)
  /-- ST (R207). Lane store to a generic address. -/
  | st (d a : BitVec 7) (o : Imm 8) (z : MemSize)
  /-- ATOM_ADD (R209). Atomic 32-bit add, returning the old value. -/
  | atomAdd (d a b : BitVec 7)
  /-- ATOM_AND (R209). Atomic and. -/
  | atomAnd (d a b : BitVec 7)
  /-- ATOM_OR (R209). Atomic or. -/
  | atomOr (d a b : BitVec 7)
  /-- ATOM_XOR (R209). Atomic exclusive-or. -/
  | atomXor (d a b : BitVec 7)
  /-- ATOM_MIN_I32 (R209). Atomic signed minimum. -/
  | atomMinI32 (d a b : BitVec 7)
  /-- ATOM_MAX_I32 (R209). Atomic signed maximum. -/
  | atomMaxI32 (d a b : BitVec 7)
  /-- ATOM_MIN_N32 (R209). Atomic unsigned minimum. -/
  | atomMinN32 (d a b : BitVec 7)
  /-- ATOM_MAX_N32 (R209). Atomic unsigned maximum. -/
  | atomMaxN32 (d a b : BitVec 7)
  /-- ATOM_XCHG (R209). Atomic exchange. -/
  | atomXchg (d a b : BitVec 7)
  /-- ATOM_CAS (R209). Atomic 32-bit compare-and-swap. -/
  | atomCas (d a b : BitVec 7)
  /-- ATOM_FADD (R210). Atomic FP32 add, rounded at the location. -/
  | atomFadd (d a b : BitVec 7)
  /-- ATOM_XACC (R211). Exact addition of an FP32 value into a commons accumulation cell. -/
  | atomXacc (a b : BitVec 7)
  /-- XACC_RD (R211). Reads an accumulation cell rounded to FP32. -/
  | xaccRd (d a : BitVec 7)
  /-- XACC_RD_CLR (R211). Reads an accumulation cell and clears it in the same event. -/
  | xaccRdClr (d a : BitVec 7)
  /-- PREF (R213). Prefetches a global line into L1, with no architected effect. -/
  | pref (a : BitVec 7)
  /-- PREF_SC (R213). Prefetches a global line into the stacked cache only. -/
  | prefSc (a : BitVec 7)
  /-- ATOM_ADD_N64 (R209). Atomic 64-bit add. -/
  | atomAddN64 (d a b : BitVec 7)
  /-- ATOM_CAS_B64 (R209). Atomic 64-bit compare-and-swap. -/
  | atomCasB64 (d a b : BitVec 7)
  /-- LD_S_B32 (R208). 4-byte load from the lane's own stack by offset. -/
  | ldSB32 (d a b : BitVec 7)
  /-- LD_S_B64 (R208). 8-byte load from the lane's own stack. -/
  | ldSB64 (d a b : BitVec 7)
  /-- ST_S_B32 (R208). 4-byte store to the lane's own stack. -/
  | stSB32 (d a b : BitVec 7)
  /-- ST_S_B64 (R208). 8-byte store to the lane's own stack. -/
  | stSB64 (d a b : BitVec 7)
  /-- CMN_EW_ADD_I32 (R212). Element-wise integer add of the lanes' values into a commons row, as one bank event. -/
  | cmnEwAddI32 (a b : BitVec 7)
  /-- CMN_EW_ADD_F32 (R212). Element-wise FP32 add into a commons row. -/
  | cmnEwAddF32 (a b : BitVec 7)
  /-- CMN_EW_MAX_F32 (R212). Element-wise FP32 maximum into a commons row. -/
  | cmnEwMaxF32 (a b : BitVec 7)
  /-- CMN_RED_ADD_I32 (R212). Adds the integer sum of the lanes into one commons word, returning the old value. -/
  | cmnRedAddI32 (d a b : BitVec 7)
  /-- CMN_RED_ADD_F32 (R212). Adds the exact FP32 sum of the lanes into one word, with one rounding. -/
  | cmnRedAddF32 (d a b : BitVec 7)
  /-- CMN_RED_MAX_F32 (R212). FP32 maximum reduction into one commons word. -/
  | cmnRedMaxF32 (d a b : BitVec 7)
  /-- FENCE_E (R232). Holds the path until the warp's selected engine operations registered before it have completed. -/
  | fenceE (m : BitVec 3)
  /-- MWAIT (R234). Holds the path until a location takes a value that satisfies the condition. -/
  | mwait (g : Bool) (k : MCond) (a b : BitVec 7)
  /-- FENCE_T (R251). Makes the path's later accesses and fetches use translations and code no older than the fence. -/
  | fenceT
  /-- TLB_INV (R252). Issues a shootdown of the scope given by the control word and VA. -/
  | tlbInv (a b : BitVec 6)
  /-- TLB_SYNC (R252). Holds the path until the warp's earlier shootdowns are DONE. -/
  | tlbSync
  /-- ASID_BIND (R253). Binds a FREE ASID to a root and privilege. -/
  | asidBind (d a b : BitVec 6)
  /-- ASID_FREE (R253). Starts the purge of a BOUND ASID that has no work. -/
  | asidFree (d a : BitVec 6)
  /-- ASID_STAT (R253). Reads the state of an ASID. -/
  | asidStat (d a : BitVec 6)
  /-- PG_MIG (R249). Starts moving one page to a new frame under locks. -/
  | pgMig (d a b : BitVec 6)
  /-- PF_RESUME (R256). Resolves a parked fault by replay, lane switch-off or ACCESS trap. -/
  | pfResume (d a b : BitVec 6)
  /-- BB_MOVE (R256). Copies a bounce slot's marked bytes into a frame and frees the slot. -/
  | bbMove (d a b : BitVec 6)
  /-- CPY (R264). Registers a bulk copy of a box between two tensors. -/
  | cpy (a b : BitVec 6)
  /-- CPY_FILL (R264). Registers a fill of a destination box with FILL. -/
  | cpyFill (a b : BitVec 6)
  /-- TBR_INIT (R271). Initialises a transaction-barrier slot with an arrival count. -/
  | tbrInit (a b : BitVec 6)
  /-- TBR_ARRIVE (R271). Arrives at a slot and returns the phase. -/
  | tbrArrive (d a : BitVec 6)
  /-- TBR_OWE (R271). Adds n owed copy completions to a slot's phase. -/
  | tbrOwe (a b : BitVec 6)
  /-- TBR_RETIRE (R272). Holds the path until the slot's copies complete, then advances PHASE and clears the slot. -/
  | tbrRetire (a : BitVec 6)
  /-- STR_OPEN (R276). Opens an affine load or store stream. -/
  | strOpen (n : BitVec 3) (s : BitVec 6)
  /-- STR_OPENI (R276). Opens an indirect load stream. -/
  | strOpeni (n : BitVec 3) (s : BitVec 6)
  /-- STR_ADV (R281). Advances a stream's POS without access. -/
  | strAdv (n : BitVec 3) (s : BitVec 6)
  /-- STR_POP (R279). Loads each active lane's next element of a load stream. -/
  | strPop (d : BitVec 7) (n : BitVec 3)
  /-- STR_PUSH (R279). Writes each active lane's next element of a store stream. -/
  | strPush (n : BitVec 3) (a : BitVec 7)
  /-- STR_TEND (R281). Writes whether the stream has ended to a predicate. -/
  | strTend (p n : BitVec 3)
  /-- STR_CLOSE (R281). Closes a load stream, or starts closing a store stream. -/
  | strClose (n : BitVec 3)
  /-- FIB_OPEN (R282). Opens a compressed sparse fibre. -/
  | fibOpen (n : BitVec 2) (s : BitVec 6)
  /-- FIB_ADV (R283). Gives the active lanes consecutive fibre coordinates and values. -/
  | fibAdv (d a : BitVec 7) (n : BitVec 2)
  /-- FIB_TEND (R283). Writes whether the fibre has ended to a predicate. -/
  | fibTend (p : BitVec 3) (n : BitVec 2)
  /-- FIB_CLOSE (R283). Closes a fibre register. -/
  | fibClose (n : BitVec 2)
  /-- XR_CAP (R286). Writes the capacity and a zero FILL to every expert word. -/
  | xrCap (s : BitVec 6)
  /-- XR_ROUTE (R286). Routes each lane's token to an expert slot by an atomic at the bank, flagging overflow. -/
  | xrRoute (d a : BitVec 7) (s : BitVec 6)
  /-- TASK_POST (R89). Moves a task entry from IDLE to ARMED. -/
  | taskPost (d a : BitVec 6)
  /-- TASK_SPAWN (R89). Arms a task entry and writes its ARG in the same event. -/
  | taskSpawn (d a b : BitVec 6)
  /-- TBUF_FULL (R89). Moves a tile-buffer word from EMPTY to FULL, incrementing GEN. -/
  | tbufFull (d a : BitVec 6)
  /-- TBUF_EMPTY (R89). Moves a tile-buffer word from FULL to EMPTY. -/
  | tbufEmpty (d a : BitVec 6)
  /-- TBUF_STAT (R89). Reads a tile-buffer state word. -/
  | tbufStat (d a : BitVec 6)
  /-- GRP_MEET (R90). Arrives at a group barrier and waits for the phase to complete. -/
  | grpMeet (g : BitVec 8)
  /-- GRP_MARK (R90). Arrives at a group barrier without waiting. -/
  | grpMark (g : BitVec 8)
  /-- GRP_HOLD (R90). Waits for the phase of the warp's latest arrival to complete. -/
  | grpHold (g : BitVec 8)
  /-- MM (R301). Queues a dense 64 × 64 tile product of two local-memory plane operands into tD. -/
  | mm (t : BitVec 4) (a b : BitVec 6) (f : MmFmt) (g : Bool) (k : Kb)
  /-- MM_SP (R301). Queues a structured-sparse tile product into tD. -/
  | mmSp (t : BitVec 4) (a b : BitVec 6) (f : MmFmt) (g : Bool) (k : Keep)
  /-- MM_XPOSE (R302). Transposes a tile into tD. -/
  | mmXpose (t u : BitVec 4)
  /-- MM_PERM (R302). Permutes the rows of a tile by a local vector. -/
  | mmPerm (t u : BitVec 4) (b : BitVec 6)
  /-- MM_RSUM_F32 (R302). Writes FP32 row sums of a tile across each row. -/
  | mmRsumF32 (t u : BitVec 4)
  /-- MM_RSUM_I32 (R302). Writes saturated INT32 row sums of a tile. -/
  | mmRsumI32 (t u : BitVec 4)
  /-- MM_ZERO (R302). Zeroes a tile and its TFLAGS. -/
  | mmZero (t : BitVec 4)
  /-- MM_SCACC (R302). Adds a tile scaled by row and column scales into tD, with one outer rounding. -/
  | mmScacc (t u : BitVec 4) (b : BitVec 6)
  /-- MM_CVT_F32_I32 (R302). Converts an INT32 tile to FP32. -/
  | mmCvtF32I32 (t u : BitVec 4)
  /-- MM_CVT_I32_F32 (R302). Converts an FP32 tile to saturated INT32. -/
  | mmCvtI32F32 (t u : BitVec 4)
  /-- SEQ_LOOP (R303). Opens a counted sequencer loop with a counter register. -/
  | seqLoop (d a : BitVec 6)
  /-- SEQ_END (R303). Closes a loop trip, or ends the sequencer when no loop is open. -/
  | seqEnd
  /-- TOK_GIVE (R294). Passes a tile's token to a warp or to the matrix side. -/
  | tokGive (t : BitVec 4) (a : BitVec 6)
  /-- TOK_TAKE (R294). Holds the party until it owns the tile's token. -/
  | tokTake (t : BitVec 4)
  /-- SEQ_BAR (R292). Lane arrival at a sequencer barrier, holding the path until the phase completes. -/
  | seqBar (b : BitVec 4)
  /-- SEQ_BAR_MATRIX (R292). Sequencer arrival at a barrier with a warp mask, holding the sequencer. -/
  | seqBarMatrix (b : BitVec 4) (a : BitVec 6)
  /-- ACC_LD (R305). Reads tile elements or TFLAGS into the lanes, under the token and interlock. -/
  | accLd (d : BitVec 7) (t : BitVec 4) (b : BitVec 7)
  /-- ACC_ST (R305). Writes tile elements or TFLAGS from the lanes. -/
  | accSt (d : BitVec 7) (t : BitVec 4) (b : BitVec 7)
  /-- PLANE_PACK (R306). Transposes a 128-byte chunk across the lanes into bit planes. -/
  | planePack (d a b : BitVec 7)
  /-- PLANE_UNPACK (R306). Transposes bit planes back to elements. -/
  | planeUnpack (d a b : BitVec 7)
  /-- BPOOL_INIT (R316). Clears and holds the gang's beam pool. -/
  | bpoolInit
  /-- BEAM_MAKE (R316). Allocates a made pool entry from a beam description. -/
  | beamMake (d a : BitVec 7)
  /-- BEAM_CAST (R321). Starts a beam cast of a made entry against a scene, writing FRAG and RAY records. -/
  | beamCast (d a : BitVec 7) (s : BitVec 6)
  /-- BEAM_NEXT (R321). Continues the pending children of a made entry. -/
  | beamNext (d a : BitVec 7) (s : BitVec 6)
  /-- BEAM_FREE (R316). Frees a made entry and its pending children. -/
  | beamFree (d a : BitVec 7)
  /-- BEAM_STAT (R316). Reads a pool header or entry word. -/
  | beamStat (d a : BitVec 7)
  /-- RAY_CAST (R325). Traces each lane's ray slot for its best or any hit. -/
  | rayCast (d a : BitVec 7) (s : BitVec 6)
  /-- RAY_NEXT (R325). Traces for the next hit after the slot's stored hit. -/
  | rayNext (d a : BitVec 7) (s : BitVec 6)
  /-- RAY_RESUME (R325). Continues a suspended ray along its trail. -/
  | rayResume (d a : BitVec 7) (s : BitVec 6)
  /-- TEX_SAMP (R327). Bilinear texture sample at a level. -/
  | texSamp (d a b : BitVec 7)
  /-- TEX_FOOT (R327). Anisotropic footprint sample along the major axis. -/
  | texFoot (d a b : BitVec 7)
  /-- TEX_LOD (R327). Computes the level of detail of a footprint. -/
  | texLod (d a b : BitVec 7)
  /-- RAST_TRI (R329). Finds the first covered tile of a triangle and writes its coverage mask. -/
  | rastTri (d a : BitVec 7) (s : BitVec 6)
  /-- RAST_NEXT (R329). Finds the next covered tile of a raster record. -/
  | rastNext (d a : BitVec 7) (s : BitVec 6)
  /-- PLVL (R347). Sets the activity's level request on the cluster and returns the grant. -/
  | plvl (d a : BitVec 6)
  /-- PLVL_RD (R347). Reads the cluster's level state and the grant. -/
  | plvlRd (d : BitVec 6)
  /-- TIME (R347). Reads %time into a pair. -/
  | time (d : BitVec 6)
  /-- CYC (R347). Reads %cyc into a pair. -/
  | cyc (d : BitVec 6)
  /-- DLINE (R347). Computes a deadline of %time plus a duration. -/
  | dline (d a : BitVec 6)
  /-- CNT_RD (R347). Reads a performance counter of the core. -/
  | cntRd (d a : BitVec 6)
  /-- SYS_RD (R348). Reads a system register by number and selector, clearing RC fields. -/
  | sysRd (d a : BitVec 6) (n : BitVec 10)
  /-- SYS_WR (R348). Writes a system register that has no row of its own, returning a status. -/
  | sysWr (d a : BitVec 6) (n : BitVec 10)
  /-- ALM_SET (R348). Writes an almanac entry, in force from the next period start. -/
  | almSet (d a : BitVec 6) (e : BitVec 5)
  /-- YOKE (R363). Records the independent or yoked choice of a context. -/
  | yoke (d a : BitVec 6)
  /-- MODE_STACKS (R363). Begins a change to one or three powered stacks. -/
  | modeStacks (d a : BitVec 6)
  /-- MCLK_SW (R363). Requests a GDDR rate switch at a period start. -/
  | mclkSw (d a : BitVec 6)
  /-- REP_STAT (R364). Reads a mode, identity, repair or life-record item. -/
  | repStat (d a : BitVec 6)
  /-- WP_SET (R375). Sets and enables a watch predicate of a core. -/
  | wpSet (d a : BitVec 6) (n : BitVec 3)
  /-- WP_CLR (R375). Clears a watch predicate. -/
  | wpClr (d a : BitVec 6) (n : BitVec 3)
  /-- DBG_HALT (R375). Halts a lane, path, warp or gang. -/
  | dbgHalt (d a : BitVec 6)
  /-- DBG_RES (R375). Resumes stopped paths of a path, warp or gang scope. -/
  | dbgRes (d a : BitVec 6)
  /-- DBG_STEP (R375). Issues the next chain group of a stopped path or lane once. -/
  | dbgStep (d a : BitVec 6)
  /-- DBG_RDV (R376). Reads an inspection item of a stopped warp. -/
  | dbgRdv (d a : BitVec 6)
  /-- DBG_WRV (R376). Writes an inspection item of a stopped warp. -/
  | dbgWrv (d a : BitVec 6)
  /-- DBG_PATHS (R376). Reads a path's record. -/
  | dbgPaths (d a : BitVec 6)
  /-- TRC_ON (R377). Starts per-warp trace into a ring and writes SYNC packets. -/
  | trcOn (d a : BitVec 6)
  /-- TRC_OFF (R377). Writes EXIT packets and stops trace. -/
  | trcOff (d a : BitVec 6)
  /-- TRC_MARK (R379). Writes a MARK trace packet when the warp is traced. -/
  | trcMark (a : BitVec 6)
  /-- WARP_SCHEDULE (R81). A free track chooses a ready warp bound to it and issues one chain group. -/
  | warpSchedule (core track : Nat)
  /-- PATH_BRING_IN (R109). A path of the overflow list is brought into the path table, moving another out if needed. -/
  | pathBringIn (gid w : Nat)
  /-- REGISTER_BRING_IN (R204). A warp's lane registers are moved from the backing tier to the top tier. -/
  | registerBringIn (gid w : Nat)
  /-- ICACHE_FILL (R230). A path's or sequencer's packet arrives from a translated global read after an instruction-cache miss. -/
  | icacheFill (gid w path : Nat)
  /-- ELIGIBILITY_EVALUATION (R66). The distributor sees a write to a watched word and re-evaluates the entries. -/
  | eligibilityEvaluation (asid task : Nat)
  /-- GANG_PLACEMENT (R70). The distributor places a queued gang whole on a chosen core once resources are free. -/
  | gangPlacement
  /-- CARVE_OUT_GROW_DONE (R202). The last line of the draining ways is written back; LW grows and the reserved gang is placed. -/
  | carveOutGrowDone (core : Nat)
  /-- CARVE_OUT_SHRINK_DONE (R202). No allocation remains in the shrinking ways; LW shrinks. -/
  | carveOutShrinkDone (core : Nat)
  /-- CORESIDENCY_RESERVATION (R72). After a whole period of waiting, freed resources are reserved for a co-residency set. -/
  | coresidencyReservation (inst : Nat)
  /-- PRIORITY_PREEMPTION (R74). The distributor pre-empts low-priority gangs for a waiting PRIO-3 gang. -/
  | priorityPreemption
  /-- INSTANCE_COMPLETION (R67). After all exits and drains, result words turn FULL, inputs turn EMPTY and CTL is written. -/
  | instanceCompletion (inst : Nat)
  /-- PERIOD_START (R83). An almanac period starts by programmed length or fallback, resetting the budget counts. -/
  | periodStart
  /-- FRAME_TICK (R84). The display's frame pulse arrives and starts a period when SRC is 1. -/
  | frameTick
  /-- ALMPER_WRITE (R83). An accepted write to ALMPER starts a period at its event unless it disables the almanac. -/
  | almperWrite (v : BitVec 64)
  /-- ENGINE_QUEUE_START (R85). A queued engine operation starts when its activity is not over budget, floor-first. -/
  | engineQueueStart (op : Nat)
  /-- PEND_SET (R116). An armed event register's condition becomes true and PEND is set with VAL. -/
  | pendSet (gid w : Nat) (e : BitVec 3)
  /-- DEADLINE_EXPIRY (R115). %time reaches a .dline register's ARG. -/
  | deadlineExpiry (gid w : Nat) (e : BitVec 3)
  /-- EVENT_DELIVERY (R120). A pending register in a waiting path's mask is delivered, disarmed, and sends the path to its handler. -/
  | eventDelivery (gid w : Nat)
  /-- CONTEXT_FAULT_RECORD (R132). After drains, the context fault record is written, entries go to ERROR, and a token is queued. -/
  | contextFaultRecord (asid : Nat)
  /-- SUPMBX_TOKEN_SEND (R132). A queued Q3 token is sent once SUPMBX names a valid, empty mailbox. -/
  | supmbxTokenSend
  /-- RANGE_REPLAY (R126). A path held on a locked range replays its chain group after the release. -/
  | rangeReplay (gid w path : Nat)
  /-- PREEMPTION_REQUEST (R133). A pre-emption request reaches each warp of a gang and fixes the hard-save time. -/
  | preemptionRequest (gid : Nat) (reason : PreReason)
  /-- HARD_SAVE_TIME (R133). The hard-save time is reached for a warp in HND or PENDING. -/
  | hardSaveTime (gid w : Nat)
  /-- WARP_SAVE (R135). With every handler path at pre.done and every store performed, the warp is saved. -/
  | warpSave (gid w : Nat)
  /-- HARD_SAVE (R136). Once stores have performed, the whole warp state is saved. -/
  | hardSave (gid w : Nat)
  /-- GANG_SAVE (R138). With every warp saved and engines drained, local memory, tiles and stacks are saved. -/
  | gangSave (gid : Nat)
  /-- REGROUP_MOVE (R162). After the drains, lanes of the participants are moved sorted by key. -/
  | regroupMove (gid : Nat) (m : BitVec 32)
  /-- REMOTE_LOCAL_TARGET (R200). A remote-local access arrives at its target, which performs it or refuses it and logs RLLOG. -/
  | remoteLocalTarget (acc : Nat)
  /-- REMOTE_FAULT_RETURN (R200). A refusal reaches the initiator and the lane is switched off with RFAULT. -/
  | remoteFaultReturn (acc : Nat)
  /-- REMOTE_TIMEOUT (R200). No answer within 65,536 ticks, so the lane is switched off with RTIME. -/
  | remoteTimeout (acc : Nat)
  /-- RANGE_ENTRY_GRANT (R223). Freed lock-table entries go to the earliest waiting operation, which then registers. -/
  | rangeEntryGrant
  /-- ENGINE_COMPLETION (R221). An engine operation's completion event releases its locks and writes its stamp. -/
  | engineCompletion (op : Nat)
  /-- TBR_RETIRE_DONE (R272). After the slot's copies complete, PHASE advances and the slot is cleared. -/
  | tbrRetireDone (gid w path : Nat)
  /-- COPY_QUEUE_ADMIT (R267). A freed copy-queue place goes to the earliest waiting operation. -/
  | copyQueueAdmit (core : Nat)
  /-- MWAIT_RELEASE (R234). A write satisfying the condition releases the held mwait path. -/
  | mwaitRelease (gid w path : Nat)
  /-- HOST_ACCESS (R228). A host access to global memory or a mailbox performs as one event, translated under the context. -/
  | hostAccess (h : HostOp)
  /-- FAULT_RECORD_WRITE (R245). A fault takes a free queue slot, its record is written and its token sent. -/
  | faultRecordWrite (gid w path : Nat)
  /-- SHOOTDOWN_ACKNOWLEDGED (R243). Every powered stack acknowledges removal; the set E is fixed and the shootdown drains. -/
  | shootdownAcknowledged (k : Nat)
  /-- SHOOTDOWN_DONE (R243). Every member of E has performed; the completion event is placed. -/
  | shootdownDone (k : Nat)
  /-- ASID_PURGE_DONE (R253). Purge acknowledgements are gathered and the ASID becomes FREE. -/
  | asidPurgeDone (asid : Nat)
  /-- PG_MIG_COMPLETION (R249). After copy, leaf CAS and shootdown drain, the locks release and the status is written. -/
  | pgMigCompletion (k : Nat)
  /-- ADDRESS_ENGINE_RUN_AHEAD (R284). The address engine reads ahead into open streams' FIFOs without memory events. -/
  | addressEngineRunAhead (gid w : Nat) (q : BitVec 4)
  /-- MATRIX_OP_START (R296). A queued matrix operation starts in the array and reads its sources. -/
  | matrixOpStart (core : Nat)
  /-- MATRIX_OP_RETIRE (R295). A matrix operation retires, writing its tile and freeing interlocked lane accesses. -/
  | matrixOpRetire (core : Nat)
  /-- TOKEN_PASS (R294). A token given by a warp passes once its acc.st writes and covering copies are done. -/
  | tokenPass (gid : Nat) (t : BitVec 4)
  /-- LEVEL_CHANGE_START (R334). A cluster off its target starts a change toward it. -/
  | levelChangeStart (cl : Nat)
  /-- LEVEL_CHANGE_COMPLETE (R334). A level change ends with its frequency switch. -/
  | levelChangeComplete (cl : Nat)
  /-- DROOP_DETECT (R335). The droop detector sees the voltage below 94 % and stretches the cluster clock. -/
  | droopDetect (cl : Nat)
  /-- STRETCH_END (R335). After 16 stretched cycles above 97 %, the stretch ends and a calm window starts. -/
  | stretchEnd (cl : Nat)
  /-- STRETCH_LIMIT (R335). A stretch reaching 4,096 cycles ends whatever the voltage. -/
  | stretchLimit (cl : Nat)
  /-- CALM_WINDOW_END (R337). The calm window ends and deferred upward changes may start. -/
  | calmWindowEnd (cl : Nat)
  /-- DROOPTST_WRITE (R338). A write to DROOPTST injects a stretch of N cycles. -/
  | drooptstWrite (cl n : Nat)
  /-- PREREQ_WRITE (R345). A write to PREREQ requests pre-emption of a gang or instance with reason 3. -/
  | prereqWrite (v : BitVec 64)
  /-- TSCTL_WRITE (R343). A write to TSCTL sets the time series up; setting EN restarts SEQ. -/
  | tsctlWrite (v : BitVec 64)
  /-- TIME_SERIES_LATCH (R343). Every counter is latched at a 2^K tick into a ring sample, or dropped. -/
  | timeSeriesLatch (written : Bool)
  /-- THERMAL_WARNING (R340). A tier passes 105 °C; its stack is capped at level 2 and SUPSTAT.THW is set. -/
  | thermalWarning (stk : Nat) (tj : BitVec 30)
  /-- THERMAL_WARNING_END (R340). Every tier has been below 100 °C for 1,000,000 ticks, so the warning ends. -/
  | thermalWarningEnd (stk : Nat) (tj : BitVec 30)
  /-- THERMAL_TRIP (R340). A tier passes 115 °C; package power is cut and THCAUSE and THTIME are recorded. -/
  | thermalTrip (stk : Nat) (tier : Tier)
  /-- TIME_PERSIST (R341). Every 2^30 ticks the %time value is written to non-volatile storage. -/
  | timePersist
  /-- LIFE_RECORD_HOUR (R356). A whole hour completes and POH and TJHIST take it in. -/
  | lifeRecordHour (u : Unit)
  /-- YOKED_MISCOMPARE (R351). A yoked pair's results differ at retire and are replayed, or the context ends. -/
  | yokedMiscompare (stk k : Nat) (agree : Bool)
  /-- TRACK_RETIRE (R352). A failing physical track is retired, its gangs pre-empted and a spare mapped in. -/
  | trackRetire (core track : Nat)
  /-- BEAT_RECEIVE (R354). A bundle beat arrives and is delivered, discarded, or triggers HOLD and a re-send. -/
  | beatReceive (core : Nat) (beat : Beat) (good : Bool) (wire : BitVec 7)
  /-- STITCH_MAP_UPDATE (R354). A failed wire is mapped to a spare and the re-send proceeds. -/
  | stitchMapUpdate (core : Nat) (w : BundleWire)
  /-- RETIREMENT_BEGIN (R355). A router or fabric path starts CLOSING. -/
  | retirementBegin (r : NetItem)
  /-- ROUTER_DRAINED (R355). A closing router or path is empty; routing tables are rewritten. -/
  | routerDrained (r : NetItem)
  /-- ROUTING_ACKNOWLEDGED (R355). Every node acknowledges; the router or path is RETIRED and a token sent. -/
  | routingAcknowledged (r : NetItem)
  /-- POWER_UP (R357). The package powers up and the always-on domain comes up. -/
  | powerUp
  /-- FIRMWARE_VERIFY (R357). The Shoram firmware's signature check passes, or the package locks. -/
  | firmwareVerify (good : Bool)
  /-- GDDR_TRAIN (R357). GDDR trainings finish on every channel, or the package locks. -/
  | gddrTrain (failed : BitVec 6)
  /-- STACK0_SELF_TEST (R357). Stack 0 finishes self-test with repairs applied; ASID 0 is bound and SERVE begins. -/
  | stack0SelfTest (failed : BitVec 32) (root : BitVec 64)
  /-- SATELLITES_IN_SERVICE (R359). Stacks 1 and 2 are in service; homes are recomputed for three stacks and a token sent. -/
  | satellitesInService (tests : SelfTests)
  /-- SHRINK_GANGS_SAVED (R359). Every gang on stacks 1 and 2 is saved; caches are written back and homes recomputed. -/
  | shrinkGangsSaved
  /-- SHRINK_WRITEBACK_DONE (R359). Write-back is done; stacks 1 and 2 power off and a token is sent. -/
  | shrinkWritebackDone
  /-- MCLK_WINDOW_END (R360). The memory-clock window ends and held GDDR accesses perform. -/
  | mclkWindowEnd
  /-- ATTESTATION_REQUEST (R361). The host's request returns the identity and a signed attestation. -/
  | attestationRequest (nonce : BitVec 384)
  /-- DEBUG_PORT_ACCESS (R357). The IEEE 1149.7 port serves identity read-out and status, or debug as a supervisor. -/
  | debugPortAccess (d : DebugReq)
  /-- STEP_COMPLETE (R375). A stepped chain group's register writes are done; its paths are STOPPED and a token sent. -/
  | stepComplete (gid w path : Nat)
  /-- ACCESS_PERFORM (R214). A lane load, store or atomic that is in flight performs at the place that owns its location, and its data or old value arrives at the warp and is written to vD. -/
  | accessPerform (acc : Nat)
  /-- LOSS_OF_POWER (R341). The package, or its always-on domain itself, loses power without an orderly power-down. -/
  | lossOfPower (aon : Bool)
  /-- SUSPECT_PAIR_SELF_TEST (R351). The Shoram controller's self-test of a vertical pair marked suspect completes and clears the pair for placement. -/
  | suspectPairSelfTest (stk k : Nat)
  deriving DecidableEq, Repr

end Sys2Proof
end

