-- ==== Sys2Proof/WellFormed.lean ====
section
/-! DEFINITION. Well-formed instructions: the operand limits that 02_encoding R33 and the encoding tables state (even and aligned
indices, groups that end inside their file, the limits of cvt). A word that breaks one raises cause OPER. -/

namespace Sys2Proof

/-- An even register index (02_encoding R33). -/
def even {n : Nat} (x : BitVec n) : Bool := x.toNat % 2 == 0

/-- A group of `k` registers that starts at a multiple of `al` and ends inside its file (02_encoding R33). -/
def group {n : Nat} (x : BitVec n) (k al : Nat) : Bool := x.toNat % al == 0 && x.toNat + k ≤ 2 ^ n

/-- Registers that a special register's value takes (02_encoding R35). -/
def Special.regs : Special → Nat
  | .time => 2
  | .cyc => 2
  | _ => 1

/-- Registers that a value of a conversion type takes (07_numbers R168). -/
def CvtTy.regs : CvtTy → Nat
  | .i64 => 2
  | .n64 => 2
  | _ => 1

/-- Whether a conversion type is an integer type (07_numbers R167). -/
def CvtTy.isInt : CvtTy → Bool
  | .f32 => false
  | .f16 => false
  | .bf16 => false
  | .e4m3 => false
  | _ => true

/-- Registers that a loaded or stored value takes (02_encoding R47). -/
def MemSize.regs : MemSize → Nat
  | .b64 => 2
  | _ => 1

/-- Well-formed instructions. An instruction not listed has no limit beyond the widths of its fields. -/
def Instr.wf : Instr → Bool
  | .brx _ s => even s
  | .callx _ s => even s
  | .evArm _ _ s => group s 6 2
  | .evPend d _ => even d
  | .mboxSend _ s => group s 3 2
  | .mboxRecv d _ => even d
  | .trap a _ => even a
  | .preDone a => even a
  | .lea d a _ => even d && even a
  | .iadd64 d a b => even d && even a && even b
  | .movs d x => group d x.regs x.regs
  | .leaU d a _ => even d && even a
  | .iadd64U d a b => even d && even a && even b
  | .movsU d x => group d x.regs x.regs && decide (x ≠ .lane)
  | .cvt d a dty sty r ns => group d dty.regs dty.regs && group a sty.regs sty.regs && decide (dty ≠ sty ∧ (ns = true → dty = .e4m3) ∧ (dty.isInt = true ∧ sty.isInt = true → r = .ne))
  | .ld d a _ z => group d z.regs z.regs && even a
  | .st d a _ z => group d z.regs z.regs && even a
  | .atomAdd _ a _ => even a
  | .atomAnd _ a _ => even a
  | .atomOr _ a _ => even a
  | .atomXor _ a _ => even a
  | .atomMinI32 _ a _ => even a
  | .atomMaxI32 _ a _ => even a
  | .atomMinN32 _ a _ => even a
  | .atomMaxN32 _ a _ => even a
  | .atomXchg _ a _ => even a
  | .atomCas _ a _ => even a
  | .atomFadd _ a _ => even a
  | .atomXacc a _ => even a
  | .xaccRd _ a => even a
  | .xaccRdClr _ a => even a
  | .pref a => even a
  | .prefSc a => even a
  | .atomAddN64 d a b => even d && even a && even b
  | .atomCasB64 d a b => even d && even a && even b
  | .ldSB64 d _ _ => even d
  | .stSB64 d _ _ => even d
  | .cmnEwAddI32 a _ => even a
  | .cmnEwAddF32 a _ => even a
  | .cmnEwMaxF32 a _ => even a
  | .cmnRedAddI32 _ a _ => even a
  | .cmnRedAddF32 _ a _ => even a
  | .cmnRedMaxF32 _ a _ => even a
  | .mwait g _ a b => even a && group b (1 + g.toNat) (1 + g.toNat)
  | .tlbInv _ b => even b
  | .asidBind _ _ b => even b
  | .pgMig _ a b => even a && even b
  | .bbMove _ _ b => even b
  | .cpy a b => group a 8 2 && group b (if b = 0 then 0 else 4) 2
  | .cpyFill a b => group a 8 2 && group b (if b = 0 then 0 else 4) 2
  | .tbrInit a _ => even a
  | .tbrArrive _ a => even a
  | .tbrOwe a _ => even a
  | .tbrRetire a => even a
  | .strOpen _ s => group s 6 2
  | .strOpeni _ s => group s 8 2
  | .fibOpen _ s => group s 7 2
  | .xrCap s => group s 4 2
  | .xrRoute _ _ s => group s 3 2
  | .taskSpawn _ _ b => even b
  | .tbufStat d _ => even d
  | .mm _ a b _ _ _ => even a && even b
  | .mmSp _ a b _ _ _ => even a && even b
  | .mmPerm _ _ b => even b
  | .mmScacc _ _ b => even b
  | .beamMake _ a => even a
  | .beamCast d _ s => even d && group s 5 2
  | .beamNext d _ s => even d && group s 5 2
  | .rayCast _ a s => even a && even s
  | .rayNext _ a s => even a && even s
  | .rayResume _ a s => even a && even s
  | .texSamp d a b => group d 4 4 && even a && group b 3 2
  | .texFoot d a b => group d 4 4 && even a && group b 6 2
  | .texLod _ a b => even a && group b 6 2
  | .rastTri _ a s => even a && even s
  | .rastNext _ a s => even a && even s
  | .time d => even d
  | .cyc d => even d
  | .dline d a => even d && even a
  | .cntRd d _ => even d
  | .sysRd d _ _ => even d
  | .sysWr _ a _ => group a 3 2
  | .almSet _ a _ => even a
  | .repStat d _ => even d
  | .wpSet _ a _ => group a 8 2
  | .dbgStep _ a => even a
  | .dbgRdv d a => group d 3 2 && even a
  | .dbgWrv _ a => group a 4 2
  | .dbgPaths d _ => group d 4 4
  | .trcOn _ a => group a 4 2
  | _ => true

end Sys2Proof
end

