-- ==== Sys2Proof/Decode.lean ====
section
/-! DEFINITION. Decoding of instruction words and, after it, the encoder (02_encoding, and the encoding table of each chapter).
`decodeWord` is total on any word and rejects by the cause that 02_encoding R41 names.
The definitions marked noncomputable name constructors beyond the 245 that Lean compiles code for; the kernel evaluates them as any other. -/

namespace Sys2Proof

/-- The code of a RoundMode in its field (02_encoding R43, R45). -/
def RoundMode.code : RoundMode → Nat
  | .ne => 0
  | .z => 1
  | .d => 2
  | .u => 3

/-- The RoundMode that a field names, none for a reserved code (02_encoding R43, R45). -/
def RoundMode.ofCode? : Nat → Option RoundMode
  | 0 => some .ne
  | 1 => some .z
  | 2 => some .d
  | 3 => some .u
  | _ => none

@[simp] theorem RoundMode.ofCode?_code (x : RoundMode) : RoundMode.ofCode? x.code = some x := by cases x <;> rfl
theorem RoundMode.code_lt (x : RoundMode) : x.code < 4 := by cases x <;> decide

/-- The code of a ICond in its field (02_encoding R44). -/
def ICond.code : ICond → Nat
  | .eq => 0
  | .ne => 1
  | .ltI => 2
  | .leI => 3
  | .gtI => 4
  | .geI => 5
  | .ltN => 6
  | .leN => 7
  | .gtN => 8
  | .geN => 9

/-- The ICond that a field names, none for a reserved code (02_encoding R44). -/
def ICond.ofCode? : Nat → Option ICond
  | 0 => some .eq
  | 1 => some .ne
  | 2 => some .ltI
  | 3 => some .leI
  | 4 => some .gtI
  | 5 => some .geI
  | 6 => some .ltN
  | 7 => some .leN
  | 8 => some .gtN
  | 9 => some .geN
  | _ => none

@[simp] theorem ICond.ofCode?_code (x : ICond) : ICond.ofCode? x.code = some x := by cases x <;> rfl
theorem ICond.code_lt (x : ICond) : x.code < 16 := by cases x <;> decide

/-- The code of a FCond in its field (02_encoding R44). -/
def FCond.code : FCond → Nat
  | .eq => 0
  | .ne => 1
  | .lt => 2
  | .le => 3
  | .gt => 4
  | .ge => 5
  | .un => 6
  | .ord => 7

/-- The FCond that a field names, none for a reserved code (02_encoding R44). -/
def FCond.ofCode? : Nat → Option FCond
  | 0 => some .eq
  | 1 => some .ne
  | 2 => some .lt
  | 3 => some .le
  | 4 => some .gt
  | 5 => some .ge
  | 6 => some .un
  | 7 => some .ord
  | _ => none

@[simp] theorem FCond.ofCode?_code (x : FCond) : FCond.ofCode? x.code = some x := by cases x <;> rfl
theorem FCond.code_lt (x : FCond) : x.code < 8 := by cases x <;> decide

/-- The code of a CvtTy in its field (02_encoding R45). -/
def CvtTy.code : CvtTy → Nat
  | .f32 => 0
  | .f16 => 1
  | .bf16 => 2
  | .e4m3 => 3
  | .i32 => 4
  | .n32 => 5
  | .i16 => 6
  | .n16 => 7
  | .i8 => 8
  | .n8 => 9
  | .i4 => 10
  | .i2 => 11
  | .i64 => 12
  | .n64 => 13

/-- The CvtTy that a field names, none for a reserved code (02_encoding R45). -/
def CvtTy.ofCode? : Nat → Option CvtTy
  | 0 => some .f32
  | 1 => some .f16
  | 2 => some .bf16
  | 3 => some .e4m3
  | 4 => some .i32
  | 5 => some .n32
  | 6 => some .i16
  | 7 => some .n16
  | 8 => some .i8
  | 9 => some .n8
  | 10 => some .i4
  | 11 => some .i2
  | 12 => some .i64
  | 13 => some .n64
  | _ => none

@[simp] theorem CvtTy.ofCode?_code (x : CvtTy) : CvtTy.ofCode? x.code = some x := by cases x <;> rfl
theorem CvtTy.code_lt (x : CvtTy) : x.code < 16 := by cases x <;> decide

/-- The code of a MemSize in its field (02_encoding R47). -/
def MemSize.code : MemSize → Nat
  | .n8 => 0
  | .i8 => 1
  | .n16 => 2
  | .i16 => 3
  | .b32 => 4
  | .b64 => 5

/-- The MemSize that a field names, none for a reserved code (02_encoding R47). -/
def MemSize.ofCode? : Nat → Option MemSize
  | 0 => some .n8
  | 1 => some .i8
  | 2 => some .n16
  | 3 => some .i16
  | 4 => some .b32
  | 5 => some .b64
  | _ => none

@[simp] theorem MemSize.ofCode?_code (x : MemSize) : MemSize.ofCode? x.code = some x := by cases x <;> rfl
theorem MemSize.code_lt (x : MemSize) : x.code < 8 := by cases x <;> decide

/-- The code of a Special in its field (02_encoding R35). -/
def Special.code : Special → Nat
  | .lane => 0
  | .warp => 1
  | .gang => 2
  | .task => 3
  | .core => 4
  | .stack => 5
  | .cluster => 6
  | .plvl => 7
  | .time => 8
  | .cyc => 9

/-- The Special that a field names, none for a reserved code (02_encoding R35). -/
def Special.ofCode? : Nat → Option Special
  | 0 => some .lane
  | 1 => some .warp
  | 2 => some .gang
  | 3 => some .task
  | 4 => some .core
  | 5 => some .stack
  | 6 => some .cluster
  | 7 => some .plvl
  | 8 => some .time
  | 9 => some .cyc
  | _ => none

@[simp] theorem Special.ofCode?_code (x : Special) : Special.ofCode? x.code = some x := by cases x <;> rfl
theorem Special.code_lt (x : Special) : x.code < 16 := by cases x <;> decide

/-- The code of a EvKind in its field (05_events R115). -/
def EvKind.code : EvKind → Nat
  | .dline => 0
  | .stamp => 1
  | .bar => 2
  | .tbr => 3
  | .mbox => 4
  | .beam => 5
  | .tok => 6

/-- The EvKind that a field names, none for a reserved code (05_events R115). -/
def EvKind.ofCode? : Nat → Option EvKind
  | 0 => some .dline
  | 1 => some .stamp
  | 2 => some .bar
  | 3 => some .tbr
  | 4 => some .mbox
  | 5 => some .beam
  | 6 => some .tok
  | _ => none

@[simp] theorem EvKind.ofCode?_code (x : EvKind) : EvKind.ofCode? x.code = some x := by cases x <;> rfl
theorem EvKind.code_lt (x : EvKind) : x.code < 8 := by cases x <;> decide

/-- The code of a TrapRet in its field (05_events R131). -/
def TrapRet.code : TrapRet → Nat
  | .replay => 0
  | .next => 1
  | .resume => 2

/-- The TrapRet that a field names, none for a reserved code (05_events R131). -/
def TrapRet.ofCode? : Nat → Option TrapRet
  | 0 => some .replay
  | 1 => some .next
  | 2 => some .resume
  | _ => none

@[simp] theorem TrapRet.ofCode?_code (x : TrapRet) : TrapRet.ofCode? x.code = some x := by cases x <;> rfl
theorem TrapRet.code_lt (x : TrapRet) : x.code < 4 := by cases x <;> decide

/-- The code of a MCond in its field (09_ordering R233). -/
def MCond.code : MCond → Nat
  | .ne => 0
  | .eq => 1
  | .ge => 2

/-- The MCond that a field names, none for a reserved code (09_ordering R233). -/
def MCond.ofCode? : Nat → Option MCond
  | 0 => some .ne
  | 1 => some .eq
  | 2 => some .ge
  | _ => none

@[simp] theorem MCond.ofCode?_code (x : MCond) : MCond.ofCode? x.code = some x := by cases x <;> rfl
theorem MCond.code_lt (x : MCond) : x.code < 4 := by cases x <;> decide

/-- The code of a MmFmt in its field (02_encoding R46). -/
def MmFmt.code : MmFmt → Nat
  | .i2 => 0
  | .i4 => 1
  | .i8 => 2
  | .e4m3 => 3
  | .bf16 => 4
  | .q4 => 5

/-- The MmFmt that a field names, none for a reserved code (02_encoding R46). -/
def MmFmt.ofCode? : Nat → Option MmFmt
  | 0 => some .i2
  | 1 => some .i4
  | 2 => some .i8
  | 3 => some .e4m3
  | 4 => some .bf16
  | 5 => some .q4
  | _ => none

@[simp] theorem MmFmt.ofCode?_code (x : MmFmt) : MmFmt.ofCode? x.code = some x := by cases x <;> rfl
theorem MmFmt.code_lt (x : MmFmt) : x.code < 8 := by cases x <;> decide

/-- The code of a Kb in its field (02_encoding R46). -/
def Kb.code : Kb → Nat
  | .k512 => 0
  | .k256 => 1
  | .k128 => 2

/-- The Kb that a field names, none for a reserved code (02_encoding R46). -/
def Kb.ofCode? : Nat → Option Kb
  | 0 => some .k512
  | 1 => some .k256
  | 2 => some .k128
  | _ => none

@[simp] theorem Kb.ofCode?_code (x : Kb) : Kb.ofCode? x.code = some x := by cases x <;> rfl
theorem Kb.code_lt (x : Kb) : x.code < 4 := by cases x <;> decide

/-- The code of a Keep in its field (02_encoding R46). -/
def Keep.code : Keep → Nat
  | .keep8 => 1
  | .keep4 => 2
  | .keep2 => 3

/-- The Keep that a field names, none for a reserved code (02_encoding R46). -/
def Keep.ofCode? : Nat → Option Keep
  | 1 => some .keep8
  | 2 => some .keep4
  | 3 => some .keep2
  | _ => none

@[simp] theorem Keep.ofCode?_code (x : Keep) : Keep.ofCode? x.code = some x := by cases x <;> rfl
theorem Keep.code_lt (x : Keep) : x.code < 4 := by cases x <;> decide

/-- The four rounding codes all name a mode (02_encoding R43). -/
def RoundMode.ofCode (n : Nat) : RoundMode := (RoundMode.ofCode? (n % 4)).getD .ne

@[simp] theorem RoundMode.ofCode_code (x : RoundMode) : RoundMode.ofCode x.code = x := by cases x <;> rfl

/-- The cause codes of the illegal-instruction trap (02_encoding R41). -/
def Cause.code : Cause → Nat
  | .zero => 1
  | .maj => 2
  | .func => 3
  | .stream => 4
  | .priv => 5
  | .oper => 6
  | .chain => 7
  | .xword => 8
  | .target => 9

/-- Bits lo to lo + n - 1 of a word (00_scope R3). -/
def fld (w lo n : Nat) : Nat := w / 2 ^ lo % 2 ^ n

/-- A one-bit field. -/
def bit (n : Nat) : Bool := n % 2 == 1

/-- A word of the formats V3, VU, VI and M: MAJ, D, A and the low eleven bits (02_encoding R28). -/
def laneWord (maj d a k : Nat) : BitVec 32 := .ofNat 32 (maj * 2 ^ 25 + d * 2 ^ 18 + a * 2 ^ 11 + k)

/-- A word of the formats S3 and SI: MAJ, D, A and the low thirteen bits (02_encoding R28). -/
def uniWord (maj d a k : Nat) : BitVec 32 := .ofNat 32 (maj * 2 ^ 25 + d * 2 ^ 19 + a * 2 ^ 13 + k)

/-- A word of format B (02_encoding R30). -/
def branchWord (maj p n k t : Nat) : BitVec 32 := .ofNat 32 (maj * 2 ^ 25 + p * 2 ^ 22 + n * 2 ^ 21 + k * 2 ^ 20 + t)

/-- The part of an immediate that its owner's word holds (02_encoding R32). -/
def Imm.low {n : Nat} : Imm n → Nat
  | .short v => v.toNat
  | .long v => v.toNat % 2 ^ n

/-- The payload of the extension word of a long immediate whose owner holds `m` values (02_encoding R32). -/
def Imm.extWord {n : Nat} (i : Imm n) (m : Nat) : Option (BitVec 32) :=
  match i with
  | .short _ => none
  | .long v => some (.ofNat 32 (0x3F * 2 ^ 25 + v.toNat / m))

/-- The immediate of an owner field and the payload of its extension word, if there is one (02_encoding R29, R32). -/
def Imm.join {n : Nat} (m i : Nat) : Option Nat → Imm n
  | none => .short (.ofNat n i)
  | some x => .long (.ofNat 32 (x * m + i))

/-- A coded field: a reserved code is the given cause. -/
def pick {α : Type} (e : Cause) : Option α → (α → Except Cause Instr) → Except Cause Instr
  | none, _ => .error e
  | some x, f => f x

/-- The owner's word of an instruction, chain bit 0 (02_encoding R28, R43); an event has none. -/
def encodeOwner : Instr → Option (BitVec 32)
  | .bra p n t => some (branchWord 1 p.toNat n.toNat 0 t.toNat)
  | .call p n t => some (branchWord 1 p.toNat n.toNat 1 t.toNat)
  | .brp p n t => some (branchWord 2 p.toNat n.toNat 0 t.toNat)
  | .brx a s => some (laneWord 3 0 a.toNat (s.toNat * 32 + 0))
  | .callx a s => some (laneWord 3 0 a.toNat (s.toNat * 32 + 1))
  | .ret => some (laneWord 3 0 0 (0 * 32 + 2))
  | .join => some (laneWord 3 0 0 (0 * 32 + 3))
  | .exit => some (laneWord 3 0 0 (0 * 32 + 4))
  | .nop => some (laneWord 3 0 0 (0 * 32 + 5))
  | .pyield => some (laneWord 3 0 0 (0 * 32 + 6))
  | .evArm k n s => some (laneWord 4 (k.code * 8 + n.toNat) 0 (s.toNat * 32 + 0))
  | .evDisarm n => some (laneWord 4 n.toNat 0 (0 * 32 + 1))
  | .waitAny s => some (laneWord 4 0 0 (s.toNat * 32 + 2))
  | .evPend d a => some (laneWord 4 d.toNat a.toNat (0 * 32 + 3))
  | .mboxSend d s => some (laneWord 4 d.toNat 0 (s.toNat * 32 + 4))
  | .mboxRecv d s => some (laneWord 4 d.toNat 0 (s.toNat * 32 + 5))
  | .trap a i => some (uniWord 5 0 a.toNat (0 * 1024 + i.toNat))
  | .trapRet k => some (uniWord 5 0 0 (1 * 1024 + k.code))
  | .preDone a => some (uniWord 5 0 a.toNat (2 * 1024 + 0))
  | .preMask k => some (uniWord 5 0 0 (3 * 1024 + k.toNat))
  | .iadd d a b => some (laneWord 6 d.toNat a.toNat (b.toNat * 16 + 0))
  | .isub d a b => some (laneWord 6 d.toNat a.toNat (b.toNat * 16 + 1))
  | .imul d a b => some (laneWord 6 d.toNat a.toNat (b.toNat * 16 + 2))
  | .imulhI32 d a b => some (laneWord 6 d.toNat a.toNat (b.toNat * 16 + 3))
  | .imulhN32 d a b => some (laneWord 6 d.toNat a.toNat (b.toNat * 16 + 4))
  | .imad d a b => some (laneWord 6 d.toNat a.toNat (b.toNat * 16 + 5))
  | .iminI32 d a b => some (laneWord 6 d.toNat a.toNat (b.toNat * 16 + 6))
  | .iminN32 d a b => some (laneWord 6 d.toNat a.toNat (b.toNat * 16 + 7))
  | .imaxI32 d a b => some (laneWord 6 d.toNat a.toNat (b.toNat * 16 + 8))
  | .imaxN32 d a b => some (laneWord 6 d.toNat a.toNat (b.toNat * 16 + 9))
  | .iabs d a => some (laneWord 6 d.toNat a.toNat (0 * 16 + 10))
  | .ineg d a => some (laneWord 6 d.toNat a.toNat (0 * 16 + 11))
  | .lea d a b => some (laneWord 6 d.toNat a.toNat (b.toNat * 16 + 12))
  | .iadd64 d a b => some (laneWord 6 d.toNat a.toNat (b.toNat * 16 + 13))
  | .and d a b => some (laneWord 7 d.toNat a.toNat (b.toNat * 16 + 0))
  | .or d a b => some (laneWord 7 d.toNat a.toNat (b.toNat * 16 + 1))
  | .xor d a b => some (laneWord 7 d.toNat a.toNat (b.toNat * 16 + 2))
  | .andn d a b => some (laneWord 7 d.toNat a.toNat (b.toNat * 16 + 3))
  | .shl d a b => some (laneWord 7 d.toNat a.toNat (b.toNat * 16 + 4))
  | .shr d a b => some (laneWord 7 d.toNat a.toNat (b.toNat * 16 + 5))
  | .sar d a b => some (laneWord 7 d.toNat a.toNat (b.toNat * 16 + 6))
  | .rot d a b => some (laneWord 7 d.toNat a.toNat (b.toNat * 16 + 7))
  | .clz d a => some (laneWord 7 d.toNat a.toNat (0 * 16 + 8))
  | .popc d a => some (laneWord 7 d.toNat a.toNat (0 * 16 + 9))
  | .brev d a => some (laneWord 7 d.toNat a.toNat (0 * 16 + 10))
  | .bfeN32 d a b => some (laneWord 7 d.toNat a.toNat (b.toNat * 16 + 11))
  | .bfeI32 d a b => some (laneWord 7 d.toNat a.toNat (b.toNat * 16 + 12))
  | .bfi d a b => some (laneWord 7 d.toNat a.toNat (b.toNat * 16 + 13))
  | .bilv d a b => some (laneWord 7 d.toNat a.toNat (b.toNat * 16 + 14))
  | .bdlv d a b => some (laneWord 7 d.toNat a.toNat (b.toNat * 16 + 15))
  | .iaddImm d a i => some (laneWord 8 d.toNat a.toNat (0 * 256 + i.low))
  | .andImm d a i => some (laneWord 8 d.toNat a.toNat (1 * 256 + i.low))
  | .orImm d a i => some (laneWord 8 d.toNat a.toNat (2 * 256 + i.low))
  | .xorImm d a i => some (laneWord 8 d.toNat a.toNat (3 * 256 + i.low))
  | .shlImm d a i => some (laneWord 8 d.toNat a.toNat (4 * 256 + i.low))
  | .shrImm d a i => some (laneWord 8 d.toNat a.toNat (5 * 256 + i.low))
  | .sarImm d a i => some (laneWord 8 d.toNat a.toNat (6 * 256 + i.low))
  | .movi d i => some (laneWord 8 d.toNat 0 (7 * 256 + i.low))
  | .icmp k p a b => some (laneWord 9 (k.code * 8 + p.toNat) a.toNat (b.toNat * 16 + 0))
  | .mix32 d a b => some (laneWord 9 d.toNat a.toNat (b.toNat * 16 + 1))
  | .shfl d a b => some (laneWord 9 d.toNat a.toNat (b.toNat * 16 + 2))
  | .lscanAdd d a n p => some (laneWord 9 d.toNat a.toNat ((n.toNat * 8 + p.toNat) * 16 + 3))
  | .lscanAnd d a n p => some (laneWord 9 d.toNat a.toNat ((n.toNat * 8 + p.toNat) * 16 + 4))
  | .lscanOr d a n p => some (laneWord 9 d.toNat a.toNat ((n.toNat * 8 + p.toNat) * 16 + 5))
  | .lscanXor d a n p => some (laneWord 9 d.toNat a.toNat ((n.toNat * 8 + p.toNat) * 16 + 6))
  | .lscanMinI32 d a n p => some (laneWord 9 d.toNat a.toNat ((n.toNat * 8 + p.toNat) * 16 + 7))
  | .lscanMaxI32 d a n p => some (laneWord 9 d.toNat a.toNat ((n.toNat * 8 + p.toNat) * 16 + 8))
  | .regroup d a b => some (laneWord 9 d.toNat a.toNat (b.toNat * 16 + 9))
  | .sel d a b p => some (laneWord 10 d.toNat a.toNat (b.toNat * 16 + p.toNat))
  | .mov d a => some (laneWord 10 d.toNat a.toNat (0 * 16 + 8))
  | .movs d x => some (laneWord 10 d.toNat x.code (0 * 16 + 9))
  | .voteAny d a => some (laneWord 11 d.toNat a.toNat (0 * 32 + 0))
  | .voteAll d a => some (laneWord 11 d.toNat a.toNat (0 * 32 + 1))
  | .voteBall d a => some (laneWord 11 d.toNat a.toNat (0 * 32 + 2))
  | .v2s a s => some (laneWord 11 0 a.toNat (s.toNat * 32 + 3))
  | .s2v d s => some (laneWord 11 d.toNat 0 (s.toNat * 32 + 4))
  | .lbcast d a s => some (laneWord 11 d.toNat a.toNat (s.toNat * 32 + 5))
  | .lredAdd d a => some (laneWord 11 d.toNat a.toNat (0 * 32 + 6))
  | .lredAnd d a => some (laneWord 11 d.toNat a.toNat (0 * 32 + 7))
  | .lredOr d a => some (laneWord 11 d.toNat a.toNat (0 * 32 + 8))
  | .lredXor d a => some (laneWord 11 d.toNat a.toNat (0 * 32 + 9))
  | .lredMinI32 d a => some (laneWord 11 d.toNat a.toNat (0 * 32 + 10))
  | .lredMaxI32 d a => some (laneWord 11 d.toNat a.toNat (0 * 32 + 11))
  | .iaddU d a b => some (uniWord 12 d.toNat a.toNat (b.toNat * 128 + 0))
  | .isubU d a b => some (uniWord 12 d.toNat a.toNat (b.toNat * 128 + 1))
  | .imulU d a b => some (uniWord 12 d.toNat a.toNat (b.toNat * 128 + 2))
  | .imulhI32U d a b => some (uniWord 12 d.toNat a.toNat (b.toNat * 128 + 3))
  | .imulhN32U d a b => some (uniWord 12 d.toNat a.toNat (b.toNat * 128 + 4))
  | .imadU d a b => some (uniWord 12 d.toNat a.toNat (b.toNat * 128 + 5))
  | .iminI32U d a b => some (uniWord 12 d.toNat a.toNat (b.toNat * 128 + 6))
  | .iminN32U d a b => some (uniWord 12 d.toNat a.toNat (b.toNat * 128 + 7))
  | .imaxI32U d a b => some (uniWord 12 d.toNat a.toNat (b.toNat * 128 + 8))
  | .imaxN32U d a b => some (uniWord 12 d.toNat a.toNat (b.toNat * 128 + 9))
  | .iabsU d a => some (uniWord 12 d.toNat a.toNat (0 * 128 + 10))
  | .inegU d a => some (uniWord 12 d.toNat a.toNat (0 * 128 + 11))
  | .leaU d a b => some (uniWord 12 d.toNat a.toNat (b.toNat * 128 + 12))
  | .iadd64U d a b => some (uniWord 12 d.toNat a.toNat (b.toNat * 128 + 13))
  | .andU d a b => some (uniWord 12 d.toNat a.toNat (b.toNat * 128 + 16))
  | .orU d a b => some (uniWord 12 d.toNat a.toNat (b.toNat * 128 + 17))
  | .xorU d a b => some (uniWord 12 d.toNat a.toNat (b.toNat * 128 + 18))
  | .andnU d a b => some (uniWord 12 d.toNat a.toNat (b.toNat * 128 + 19))
  | .shlU d a b => some (uniWord 12 d.toNat a.toNat (b.toNat * 128 + 20))
  | .shrU d a b => some (uniWord 12 d.toNat a.toNat (b.toNat * 128 + 21))
  | .sarU d a b => some (uniWord 12 d.toNat a.toNat (b.toNat * 128 + 22))
  | .rotU d a b => some (uniWord 12 d.toNat a.toNat (b.toNat * 128 + 23))
  | .clzU d a => some (uniWord 12 d.toNat a.toNat (0 * 128 + 24))
  | .popcU d a => some (uniWord 12 d.toNat a.toNat (0 * 128 + 25))
  | .brevU d a => some (uniWord 12 d.toNat a.toNat (0 * 128 + 26))
  | .bfeN32U d a b => some (uniWord 12 d.toNat a.toNat (b.toNat * 128 + 27))
  | .bfeI32U d a b => some (uniWord 12 d.toNat a.toNat (b.toNat * 128 + 28))
  | .bfiU d a b => some (uniWord 12 d.toNat a.toNat (b.toNat * 128 + 29))
  | .bilvU d a b => some (uniWord 12 d.toNat a.toNat (b.toNat * 128 + 30))
  | .bdlvU d a b => some (uniWord 12 d.toNat a.toNat (b.toNat * 128 + 31))
  | .icmpU d a b k => some (uniWord 12 d.toNat a.toNat (b.toNat * 128 + (32 + k.code)))
  | .movsU d x => some (uniWord 12 d.toNat x.code (0 * 128 + 48))
  | .movU d a => some (uniWord 12 d.toNat a.toNat (0 * 128 + 49))
  | .mix32U d a b => some (uniWord 12 d.toNat a.toNat (b.toNat * 128 + 50))
  | .iaddUimm d a i => some (uniWord 13 d.toNat a.toNat (0 * 1024 + i.low))
  | .andUimm d a i => some (uniWord 13 d.toNat a.toNat (1 * 1024 + i.low))
  | .orUimm d a i => some (uniWord 13 d.toNat a.toNat (2 * 1024 + i.low))
  | .xorUimm d a i => some (uniWord 13 d.toNat a.toNat (3 * 1024 + i.low))
  | .shlUimm d a i => some (uniWord 13 d.toNat a.toNat (4 * 1024 + i.low))
  | .shrUimm d a i => some (uniWord 13 d.toNat a.toNat (5 * 1024 + i.low))
  | .sarUimm d a i => some (uniWord 13 d.toNat a.toNat (6 * 1024 + i.low))
  | .moviU d i => some (uniWord 13 d.toNat 0 (7 * 1024 + i.low))
  | .fadd d a b r => some (laneWord 16 d.toNat a.toNat (b.toNat * 16 + (0 + r.code)))
  | .fmul d a b r => some (laneWord 16 d.toNat a.toNat (b.toNat * 16 + (4 + r.code)))
  | .ffma d a b r => some (laneWord 16 d.toNat a.toNat (b.toNat * 16 + (8 + r.code)))
  | .fsub d a b => some (laneWord 16 d.toNat a.toNat (b.toNat * 16 + 12))
  | .fmin d a b => some (laneWord 16 d.toNat a.toNat (b.toNat * 16 + 13))
  | .fmax d a b => some (laneWord 16 d.toNat a.toNat (b.toNat * 16 + 14))
  | .fcmp k p a b => some (laneWord 17 (k.code * 8 + p.toNat) a.toNat (b.toNat * 16 + 0))
  | .fclass d a => some (laneWord 17 d.toNat a.toNat (0 * 16 + 1))
  | .fclassFlg d => some (laneWord 17 d.toNat 0 (1 * 16 + 1))
  | .fclassFlgclr d => some (laneWord 17 d.toNat 0 (2 * 16 + 1))
  | .frnd d a => some (laneWord 17 d.toNat a.toNat (0 * 16 + 2))
  | .frndRz d a => some (laneWord 17 d.toNat a.toNat (0 * 16 + 3))
  | .frndRd d a => some (laneWord 17 d.toNat a.toNat (0 * 16 + 4))
  | .frndRu d a => some (laneWord 17 d.toNat a.toNat (0 * 16 + 5))
  | .hadd2F16 d a b => some (laneWord 17 d.toNat a.toNat (b.toNat * 16 + 6))
  | .hadd2Bf16 d a b => some (laneWord 17 d.toNat a.toNat (b.toNat * 16 + 7))
  | .hmul2F16 d a b => some (laneWord 17 d.toNat a.toNat (b.toNat * 16 + 8))
  | .hmul2Bf16 d a b => some (laneWord 17 d.toNat a.toNat (b.toNat * 16 + 9))
  | .hfma2F16 d a b => some (laneWord 17 d.toNat a.toNat (b.toNat * 16 + 10))
  | .hfma2Bf16 d a b => some (laneWord 17 d.toNat a.toNat (b.toNat * 16 + 11))
  | .rcp d a => some (laneWord 18 d.toNat a.toNat (0 * 16 + 0))
  | .rsq d a => some (laneWord 18 d.toNat a.toNat (0 * 16 + 1))
  | .sqrt d a => some (laneWord 18 d.toNat a.toNat (0 * 16 + 2))
  | .exp2 d a => some (laneWord 18 d.toNat a.toNat (0 * 16 + 3))
  | .log2 d a => some (laneWord 18 d.toNat a.toNat (0 * 16 + 4))
  | .sin d a => some (laneWord 18 d.toNat a.toNat (0 * 16 + 5))
  | .cos d a => some (laneWord 18 d.toNat a.toNat (0 * 16 + 6))
  | .cvt d a dty sty r ns => some (laneWord 19 d.toNat a.toNat (dty.code * 128 + sty.code * 8 + r.code * 2 + ns.toNat))
  | .qhist d a b => some (laneWord 20 d.toNat a.toNat (b.toNat * 16 + 0))
  | .qscale d a b => some (laneWord 20 d.toNat a.toNat (b.toNat * 16 + 1))
  | .qpack d a b => some (laneWord 20 d.toNat a.toNat (b.toNat * 16 + 2))
  | .ld d a o z => some (laneWord 24 d.toNat a.toNat (o.low * 8 + z.code))
  | .st d a o z => some (laneWord 25 d.toNat a.toNat (o.low * 8 + z.code))
  | .atomAdd d a b => some (laneWord 26 d.toNat a.toNat (b.toNat * 16 + 0))
  | .atomAnd d a b => some (laneWord 26 d.toNat a.toNat (b.toNat * 16 + 1))
  | .atomOr d a b => some (laneWord 26 d.toNat a.toNat (b.toNat * 16 + 2))
  | .atomXor d a b => some (laneWord 26 d.toNat a.toNat (b.toNat * 16 + 3))
  | .atomMinI32 d a b => some (laneWord 26 d.toNat a.toNat (b.toNat * 16 + 4))
  | .atomMaxI32 d a b => some (laneWord 26 d.toNat a.toNat (b.toNat * 16 + 5))
  | .atomMinN32 d a b => some (laneWord 26 d.toNat a.toNat (b.toNat * 16 + 6))
  | .atomMaxN32 d a b => some (laneWord 26 d.toNat a.toNat (b.toNat * 16 + 7))
  | .atomXchg d a b => some (laneWord 26 d.toNat a.toNat (b.toNat * 16 + 8))
  | .atomCas d a b => some (laneWord 26 d.toNat a.toNat (b.toNat * 16 + 9))
  | .atomFadd d a b => some (laneWord 26 d.toNat a.toNat (b.toNat * 16 + 10))
  | .atomXacc a b => some (laneWord 26 0 a.toNat (b.toNat * 16 + 11))
  | .xaccRd d a => some (laneWord 26 d.toNat a.toNat (0 * 16 + 12))
  | .xaccRdClr d a => some (laneWord 26 d.toNat a.toNat (1 * 16 + 12))
  | .pref a => some (laneWord 26 0 a.toNat (0 * 16 + 13))
  | .prefSc a => some (laneWord 26 0 a.toNat (1 * 16 + 13))
  | .atomAddN64 d a b => some (laneWord 26 d.toNat a.toNat (b.toNat * 16 + 14))
  | .atomCasB64 d a b => some (laneWord 26 d.toNat a.toNat (b.toNat * 16 + 15))
  | .ldSB32 d a b => some (laneWord 27 d.toNat a.toNat (b.toNat * 16 + 0))
  | .ldSB64 d a b => some (laneWord 27 d.toNat a.toNat (b.toNat * 16 + 1))
  | .stSB32 d a b => some (laneWord 27 d.toNat a.toNat (b.toNat * 16 + 2))
  | .stSB64 d a b => some (laneWord 27 d.toNat a.toNat (b.toNat * 16 + 3))
  | .cmnEwAddI32 a b => some (laneWord 27 0 a.toNat (b.toNat * 16 + 4))
  | .cmnEwAddF32 a b => some (laneWord 27 0 a.toNat (b.toNat * 16 + 5))
  | .cmnEwMaxF32 a b => some (laneWord 27 0 a.toNat (b.toNat * 16 + 6))
  | .cmnRedAddI32 d a b => some (laneWord 27 d.toNat a.toNat (b.toNat * 16 + 7))
  | .cmnRedAddF32 d a b => some (laneWord 27 d.toNat a.toNat (b.toNat * 16 + 8))
  | .cmnRedMaxF32 d a b => some (laneWord 27 d.toNat a.toNat (b.toNat * 16 + 9))
  | .fenceE m => some (laneWord 28 0 0 (m.toNat * 16 + 0))
  | .mwait g k a b => some (laneWord 28 (g.toNat * 4 + k.code) a.toNat (b.toNat * 16 + 1))
  | .fenceT => some (uniWord 29 0 0 (0 * 128 + 0))
  | .tlbInv a b => some (uniWord 29 0 a.toNat (b.toNat * 128 + 1))
  | .tlbSync => some (uniWord 29 0 0 (0 * 128 + 2))
  | .asidBind d a b => some (uniWord 29 d.toNat a.toNat (b.toNat * 128 + 3))
  | .asidFree d a => some (uniWord 29 d.toNat a.toNat (0 * 128 + 4))
  | .asidStat d a => some (uniWord 29 d.toNat a.toNat (0 * 128 + 5))
  | .pgMig d a b => some (uniWord 29 d.toNat a.toNat (b.toNat * 128 + 6))
  | .pfResume d a b => some (uniWord 29 d.toNat a.toNat (b.toNat * 128 + 7))
  | .bbMove d a b => some (uniWord 29 d.toNat a.toNat (b.toNat * 128 + 8))
  | .cpy a b => some (uniWord 32 0 a.toNat (b.toNat * 128 + 0))
  | .cpyFill a b => some (uniWord 32 0 a.toNat (b.toNat * 128 + 1))
  | .tbrInit a b => some (uniWord 32 0 a.toNat (b.toNat * 128 + 2))
  | .tbrArrive d a => some (uniWord 32 d.toNat a.toNat (0 * 128 + 3))
  | .tbrOwe a b => some (uniWord 32 0 a.toNat (b.toNat * 128 + 4))
  | .tbrRetire a => some (uniWord 32 0 a.toNat (0 * 128 + 5))
  | .strOpen n s => some (laneWord 34 n.toNat 0 (s.toNat * 32 + 0))
  | .strOpeni n s => some (laneWord 34 n.toNat 0 (s.toNat * 32 + 1))
  | .strAdv n s => some (laneWord 34 n.toNat 0 (s.toNat * 32 + 2))
  | .strPop d n => some (laneWord 34 d.toNat n.toNat (0 * 32 + 3))
  | .strPush n a => some (laneWord 34 n.toNat a.toNat (0 * 32 + 4))
  | .strTend p n => some (laneWord 34 p.toNat n.toNat (0 * 32 + 5))
  | .strClose n => some (laneWord 34 n.toNat 0 (0 * 32 + 6))
  | .fibOpen n s => some (laneWord 34 n.toNat 0 (s.toNat * 32 + 7))
  | .fibAdv d a n => some (laneWord 34 d.toNat a.toNat (n.toNat * 32 + 8))
  | .fibTend p n => some (laneWord 34 p.toNat n.toNat (0 * 32 + 9))
  | .fibClose n => some (laneWord 34 n.toNat 0 (0 * 32 + 10))
  | .xrCap s => some (laneWord 34 0 0 (s.toNat * 32 + 11))
  | .xrRoute d a s => some (laneWord 34 d.toNat a.toNat (s.toNat * 32 + 12))
  | .taskPost d a => some (uniWord 36 d.toNat a.toNat (0 * 128 + 0))
  | .taskSpawn d a b => some (uniWord 36 d.toNat a.toNat (b.toNat * 128 + 1))
  | .tbufFull d a => some (uniWord 36 d.toNat a.toNat (0 * 128 + 2))
  | .tbufEmpty d a => some (uniWord 36 d.toNat a.toNat (0 * 128 + 3))
  | .tbufStat d a => some (uniWord 36 d.toNat a.toNat (0 * 128 + 4))
  | .grpMeet g => some (uniWord 37 0 0 (0 * 1024 + g.toNat))
  | .grpMark g => some (uniWord 37 0 0 (1 * 1024 + g.toNat))
  | .grpHold g => some (uniWord 37 0 0 (2 * 1024 + g.toNat))
  | .mm t a b f g k => some (uniWord 40 t.toNat a.toNat (b.toNat * 128 + (f.code * 16 + g.toNat * 8 + k.code * 2)))
  | .mmSp t a b f g k => some (uniWord 41 t.toNat a.toNat (b.toNat * 128 + (f.code * 16 + g.toNat * 8 + k.code * 2)))
  | .mmXpose t u => some (uniWord 42 t.toNat u.toNat (0 * 128 + 0))
  | .mmPerm t u b => some (uniWord 42 t.toNat u.toNat (b.toNat * 128 + 1))
  | .mmRsumF32 t u => some (uniWord 42 t.toNat u.toNat (0 * 128 + 2))
  | .mmRsumI32 t u => some (uniWord 42 t.toNat u.toNat (1 * 128 + 2))
  | .mmZero t => some (uniWord 42 t.toNat 0 (0 * 128 + 3))
  | .mmScacc t u b => some (uniWord 42 t.toNat u.toNat (b.toNat * 128 + 4))
  | .mmCvtF32I32 t u => some (uniWord 42 t.toNat u.toNat (0 * 128 + 5))
  | .mmCvtI32F32 t u => some (uniWord 42 t.toNat u.toNat (1 * 128 + 5))
  | .seqLoop d a => some (uniWord 43 d.toNat a.toNat (0 * 128 + 0))
  | .seqEnd => some (uniWord 43 0 0 (0 * 128 + 1))
  | .tokGive t a => some (uniWord 46 t.toNat a.toNat (0 * 128 + 0))
  | .tokTake t => some (uniWord 46 t.toNat 0 (0 * 128 + 1))
  | .seqBar b => some (uniWord 46 b.toNat 0 (0 * 128 + 2))
  | .seqBarMatrix b a => some (uniWord 46 b.toNat a.toNat (0 * 128 + 2))
  | .accLd d t b => some (laneWord 47 d.toNat t.toNat (b.toNat * 16 + 0))
  | .accSt d t b => some (laneWord 47 d.toNat t.toNat (b.toNat * 16 + 1))
  | .planePack d a b => some (laneWord 47 d.toNat a.toNat (b.toNat * 16 + 2))
  | .planeUnpack d a b => some (laneWord 47 d.toNat a.toNat (b.toNat * 16 + 3))
  | .bpoolInit => some (laneWord 48 0 0 (0 * 32 + 0))
  | .beamMake d a => some (laneWord 48 d.toNat a.toNat (0 * 32 + 1))
  | .beamCast d a s => some (laneWord 48 d.toNat a.toNat (s.toNat * 32 + 2))
  | .beamNext d a s => some (laneWord 48 d.toNat a.toNat (s.toNat * 32 + 3))
  | .beamFree d a => some (laneWord 48 d.toNat a.toNat (0 * 32 + 4))
  | .beamStat d a => some (laneWord 48 d.toNat a.toNat (0 * 32 + 5))
  | .rayCast d a s => some (laneWord 49 d.toNat a.toNat (s.toNat * 32 + 0))
  | .rayNext d a s => some (laneWord 49 d.toNat a.toNat (s.toNat * 32 + 1))
  | .rayResume d a s => some (laneWord 49 d.toNat a.toNat (s.toNat * 32 + 2))
  | .texSamp d a b => some (laneWord 50 d.toNat a.toNat (b.toNat * 16 + 0))
  | .texFoot d a b => some (laneWord 50 d.toNat a.toNat (b.toNat * 16 + 1))
  | .texLod d a b => some (laneWord 50 d.toNat a.toNat (b.toNat * 16 + 2))
  | .rastTri d a s => some (laneWord 51 d.toNat a.toNat (s.toNat * 32 + 0))
  | .rastNext d a s => some (laneWord 51 d.toNat a.toNat (s.toNat * 32 + 1))
  | .plvl d a => some (uniWord 52 d.toNat a.toNat (0 * 128 + 0))
  | .plvlRd d => some (uniWord 52 d.toNat 0 (0 * 128 + 1))
  | .time d => some (uniWord 52 d.toNat 0 (0 * 128 + 2))
  | .cyc d => some (uniWord 52 d.toNat 0 (0 * 128 + 3))
  | .dline d a => some (uniWord 52 d.toNat a.toNat (0 * 128 + 4))
  | .cntRd d a => some (uniWord 52 d.toNat a.toNat (0 * 128 + 5))
  | .sysRd d a n => some (uniWord 53 d.toNat a.toNat (0 * 1024 + n.toNat))
  | .sysWr d a n => some (uniWord 53 d.toNat a.toNat (1 * 1024 + n.toNat))
  | .almSet d a e => some (uniWord 53 d.toNat a.toNat (2 * 1024 + e.toNat))
  | .yoke d a => some (uniWord 54 d.toNat a.toNat (0 * 128 + 0))
  | .modeStacks d a => some (uniWord 54 d.toNat a.toNat (0 * 128 + 1))
  | .mclkSw d a => some (uniWord 54 d.toNat a.toNat (0 * 128 + 2))
  | .repStat d a => some (uniWord 54 d.toNat a.toNat (0 * 128 + 3))
  | .wpSet d a n => some (uniWord 55 d.toNat a.toNat (n.toNat * 128 + 0))
  | .wpClr d a n => some (uniWord 55 d.toNat a.toNat (n.toNat * 128 + 1))
  | .dbgHalt d a => some (uniWord 55 d.toNat a.toNat (0 * 128 + 2))
  | .dbgRes d a => some (uniWord 55 d.toNat a.toNat (0 * 128 + 3))
  | .dbgStep d a => some (uniWord 55 d.toNat a.toNat (0 * 128 + 4))
  | .dbgRdv d a => some (uniWord 55 d.toNat a.toNat (0 * 128 + 5))
  | .dbgWrv d a => some (uniWord 55 d.toNat a.toNat (0 * 128 + 6))
  | .dbgPaths d a => some (uniWord 55 d.toNat a.toNat (0 * 128 + 7))
  | .trcOn d a => some (uniWord 55 d.toNat a.toNat (0 * 128 + 8))
  | .trcOff d a => some (uniWord 55 d.toNat a.toNat (0 * 128 + 9))
  | .trcMark a => some (uniWord 55 0 a.toNat (0 * 128 + 10))
  | .warpSchedule _ _ => none
  | .pathBringIn _ _ => none
  | .registerBringIn _ _ => none
  | .icacheFill _ _ _ => none
  | .eligibilityEvaluation _ _ => none
  | .gangPlacement => none
  | .carveOutGrowDone _ => none
  | .carveOutShrinkDone _ => none
  | .coresidencyReservation _ => none
  | .priorityPreemption => none
  | .instanceCompletion _ => none
  | .periodStart => none
  | .frameTick => none
  | .almperWrite _ => none
  | .engineQueueStart _ => none
  | .pendSet _ _ _ => none
  | .deadlineExpiry _ _ _ => none
  | .eventDelivery _ _ => none
  | .contextFaultRecord _ => none
  | .supmbxTokenSend => none
  | .rangeReplay _ _ _ => none
  | .preemptionRequest _ _ => none
  | .hardSaveTime _ _ => none
  | .warpSave _ _ => none
  | .hardSave _ _ => none
  | .gangSave _ => none
  | .regroupMove _ _ => none
  | .remoteLocalTarget _ => none
  | .remoteFaultReturn _ => none
  | .remoteTimeout _ => none
  | .rangeEntryGrant => none
  | .engineCompletion _ => none
  | .tbrRetireDone _ _ _ => none
  | .copyQueueAdmit _ => none
  | .mwaitRelease _ _ _ => none
  | .hostAccess _ => none
  | .faultRecordWrite _ _ _ => none
  | .shootdownAcknowledged _ => none
  | .shootdownDone _ => none
  | .asidPurgeDone _ => none
  | .pgMigCompletion _ => none
  | .addressEngineRunAhead _ _ _ => none
  | .matrixOpStart _ => none
  | .matrixOpRetire _ => none
  | .tokenPass _ _ => none
  | .levelChangeStart _ => none
  | .levelChangeComplete _ => none
  | .droopDetect _ => none
  | .stretchEnd _ => none
  | .stretchLimit _ => none
  | .calmWindowEnd _ => none
  | .drooptstWrite _ _ => none
  | .prereqWrite _ => none
  | .tsctlWrite _ => none
  | .timeSeriesLatch _ => none
  | .thermalWarning _ _ => none
  | .thermalWarningEnd _ _ => none
  | .thermalTrip _ _ => none
  | .timePersist => none
  | .lifeRecordHour _ => none
  | .yokedMiscompare _ _ _ => none
  | .trackRetire _ _ => none
  | .beatReceive _ _ _ _ => none
  | .stitchMapUpdate _ _ => none
  | .retirementBegin _ => none
  | .routerDrained _ => none
  | .routingAcknowledged _ => none
  | .powerUp => none
  | .firmwareVerify _ => none
  | .gddrTrain _ => none
  | .stack0SelfTest _ _ => none
  | .satellitesInService _ => none
  | .shrinkGangsSaved => none
  | .shrinkWritebackDone => none
  | .mclkWindowEnd => none
  | .attestationRequest _ => none
  | .debugPortAccess _ => none
  | .stepComplete _ _ _ => none
  | .accessPerform _ => none
  | .lossOfPower _ => none
  | .suspectPairSelfTest _ _ => none

/-- The extension word's payload of an instruction whose immediate is long (02_encoding R32). -/
def encodeExt : Instr → Option (BitVec 32)
  | .iaddImm _ _ i => i.extWord 256
  | .andImm _ _ i => i.extWord 256
  | .orImm _ _ i => i.extWord 256
  | .xorImm _ _ i => i.extWord 256
  | .shlImm _ _ i => i.extWord 256
  | .shrImm _ _ i => i.extWord 256
  | .sarImm _ _ i => i.extWord 256
  | .movi _ i => i.extWord 256
  | .iaddUimm _ _ i => i.extWord 1024
  | .andUimm _ _ i => i.extWord 1024
  | .orUimm _ _ i => i.extWord 1024
  | .xorUimm _ _ i => i.extWord 1024
  | .shlUimm _ _ i => i.extWord 1024
  | .shrUimm _ _ i => i.extWord 1024
  | .sarUimm _ _ i => i.extWord 1024
  | .moviU _ i => i.extWord 1024
  | .ld _ _ o _ => o.extWord 256
  | .st _ _ o _ => o.extWord 256
  | _ => none

/-- Major 0x01 (02_encoding R43), format B: K selects. -/
def cand01 (p n k t : Nat) : Except Cause Instr :=
  match k with
  | 0 => .ok (.bra (.ofNat 3 p) (bit n) (.ofNat 20 t))
  | 1 => .ok (.call (.ofNat 3 p) (bit n) (.ofNat 20 t))
  | _ => .error .func

/-- Major 0x02 (02_encoding R43), format B: K selects. -/
def cand02 (p n k t : Nat) : Except Cause Instr :=
  match k with
  | 0 => .ok (.brp (.ofNat 3 p) (bit n) (.ofNat 20 t))
  | _ => .error .func

/-- Major 0x03 (02_encoding R43), format VU. -/
def cand03 (_d a k : Nat) : Except Cause Instr :=
  match k % 32 with
  | 0 => .ok (.brx (.ofNat 7 a) (.ofNat 6 (k / 32)))
  | 1 => .ok (.callx (.ofNat 7 a) (.ofNat 6 (k / 32)))
  | 2 => .ok .ret
  | 3 => .ok .join
  | 4 => .ok .exit
  | 5 => .ok .nop
  | 6 => .ok .pyield
  | _ => .error .func

/-- Major 0x04 (02_encoding R43), format VU. -/
def cand04 (d a k : Nat) : Except Cause Instr :=
  match k % 32 with
  | 0 => pick .oper (EvKind.ofCode? (d / 8)) fun k' => .ok (.evArm k' (.ofNat 3 d) (.ofNat 6 (k / 32)))
  | 1 => .ok (.evDisarm (.ofNat 3 d))
  | 2 => .ok (.waitAny (.ofNat 6 (k / 32)))
  | 3 => .ok (.evPend (.ofNat 7 d) (.ofNat 3 a))
  | 4 => .ok (.mboxSend (.ofNat 7 d) (.ofNat 6 (k / 32)))
  | 5 => .ok (.mboxRecv (.ofNat 7 d) (.ofNat 6 (k / 32)))
  | _ => .error .func

/-- Major 0x05 (02_encoding R43), format SI. -/
def cand05 (_d a k : Nat) : Except Cause Instr :=
  match k / 1024 with
  | 0 => .ok (.trap (.ofNat 6 a) (.ofNat 8 (k % 1024)))
  | 1 => pick .oper (TrapRet.ofCode? (k % 1024)) fun k' => .ok (.trapRet k')
  | 2 => .ok (.preDone (.ofNat 6 a))
  | 3 => .ok (.preMask (bit (k % 1024)))
  | _ => .error .func

/-- Major 0x06 (02_encoding R43), format V3. -/
def cand06 (d a k : Nat) : Except Cause Instr :=
  match k % 16 with
  | 0 => .ok (.iadd (.ofNat 7 d) (.ofNat 7 a) (.ofNat 7 (k / 16)))
  | 1 => .ok (.isub (.ofNat 7 d) (.ofNat 7 a) (.ofNat 7 (k / 16)))
  | 2 => .ok (.imul (.ofNat 7 d) (.ofNat 7 a) (.ofNat 7 (k / 16)))
  | 3 => .ok (.imulhI32 (.ofNat 7 d) (.ofNat 7 a) (.ofNat 7 (k / 16)))
  | 4 => .ok (.imulhN32 (.ofNat 7 d) (.ofNat 7 a) (.ofNat 7 (k / 16)))
  | 5 => .ok (.imad (.ofNat 7 d) (.ofNat 7 a) (.ofNat 7 (k / 16)))
  | 6 => .ok (.iminI32 (.ofNat 7 d) (.ofNat 7 a) (.ofNat 7 (k / 16)))
  | 7 => .ok (.iminN32 (.ofNat 7 d) (.ofNat 7 a) (.ofNat 7 (k / 16)))
  | 8 => .ok (.imaxI32 (.ofNat 7 d) (.ofNat 7 a) (.ofNat 7 (k / 16)))
  | 9 => .ok (.imaxN32 (.ofNat 7 d) (.ofNat 7 a) (.ofNat 7 (k / 16)))
  | 10 => .ok (.iabs (.ofNat 7 d) (.ofNat 7 a))
  | 11 => .ok (.ineg (.ofNat 7 d) (.ofNat 7 a))
  | 12 => .ok (.lea (.ofNat 7 d) (.ofNat 7 a) (.ofNat 7 (k / 16)))
  | 13 => .ok (.iadd64 (.ofNat 7 d) (.ofNat 7 a) (.ofNat 7 (k / 16)))
  | _ => .error .func

/-- Major 0x07 (02_encoding R43), format V3. -/
def cand07 (d a k : Nat) : Except Cause Instr :=
  match k % 16 with
  | 0 => .ok (.and (.ofNat 7 d) (.ofNat 7 a) (.ofNat 7 (k / 16)))
  | 1 => .ok (.or (.ofNat 7 d) (.ofNat 7 a) (.ofNat 7 (k / 16)))
  | 2 => .ok (.xor (.ofNat 7 d) (.ofNat 7 a) (.ofNat 7 (k / 16)))
  | 3 => .ok (.andn (.ofNat 7 d) (.ofNat 7 a) (.ofNat 7 (k / 16)))
  | 4 => .ok (.shl (.ofNat 7 d) (.ofNat 7 a) (.ofNat 7 (k / 16)))
  | 5 => .ok (.shr (.ofNat 7 d) (.ofNat 7 a) (.ofNat 7 (k / 16)))
  | 6 => .ok (.sar (.ofNat 7 d) (.ofNat 7 a) (.ofNat 7 (k / 16)))
  | 7 => .ok (.rot (.ofNat 7 d) (.ofNat 7 a) (.ofNat 7 (k / 16)))
  | 8 => .ok (.clz (.ofNat 7 d) (.ofNat 7 a))
  | 9 => .ok (.popc (.ofNat 7 d) (.ofNat 7 a))
  | 10 => .ok (.brev (.ofNat 7 d) (.ofNat 7 a))
  | 11 => .ok (.bfeN32 (.ofNat 7 d) (.ofNat 7 a) (.ofNat 7 (k / 16)))
  | 12 => .ok (.bfeI32 (.ofNat 7 d) (.ofNat 7 a) (.ofNat 7 (k / 16)))
  | 13 => .ok (.bfi (.ofNat 7 d) (.ofNat 7 a) (.ofNat 7 (k / 16)))
  | 14 => .ok (.bilv (.ofNat 7 d) (.ofNat 7 a) (.ofNat 7 (k / 16)))
  | 15 => .ok (.bdlv (.ofNat 7 d) (.ofNat 7 a) (.ofNat 7 (k / 16)))
  | _ => .error .func

/-- Major 0x08 (02_encoding R43), format VI. -/
def cand08 (d a k : Nat) (x : Option Nat) : Except Cause Instr :=
  match k / 256 with
  | 0 => .ok (.iaddImm (.ofNat 7 d) (.ofNat 7 a) (Imm.join 256 (k % 256) x))
  | 1 => .ok (.andImm (.ofNat 7 d) (.ofNat 7 a) (Imm.join 256 (k % 256) x))
  | 2 => .ok (.orImm (.ofNat 7 d) (.ofNat 7 a) (Imm.join 256 (k % 256) x))
  | 3 => .ok (.xorImm (.ofNat 7 d) (.ofNat 7 a) (Imm.join 256 (k % 256) x))
  | 4 => .ok (.shlImm (.ofNat 7 d) (.ofNat 7 a) (Imm.join 256 (k % 256) x))
  | 5 => .ok (.shrImm (.ofNat 7 d) (.ofNat 7 a) (Imm.join 256 (k % 256) x))
  | 6 => .ok (.sarImm (.ofNat 7 d) (.ofNat 7 a) (Imm.join 256 (k % 256) x))
  | 7 => .ok (.movi (.ofNat 7 d) (Imm.join 256 (k % 256) x))
  | _ => .error .func

/-- Major 0x09 (02_encoding R43), format V3. -/
def cand09 (d a k : Nat) : Except Cause Instr :=
  match k % 16 with
  | 0 => pick .func (ICond.ofCode? (d / 8)) fun k' => .ok (.icmp k' (.ofNat 3 d) (.ofNat 7 a) (.ofNat 7 (k / 16)))
  | 1 => .ok (.mix32 (.ofNat 7 d) (.ofNat 7 a) (.ofNat 7 (k / 16)))
  | 2 => .ok (.shfl (.ofNat 7 d) (.ofNat 7 a) (.ofNat 7 (k / 16)))
  | 3 => .ok (.lscanAdd (.ofNat 7 d) (.ofNat 7 a) (bit (k / 128 % 2)) (.ofNat 3 (k / 16)))
  | 4 => .ok (.lscanAnd (.ofNat 7 d) (.ofNat 7 a) (bit (k / 128 % 2)) (.ofNat 3 (k / 16)))
  | 5 => .ok (.lscanOr (.ofNat 7 d) (.ofNat 7 a) (bit (k / 128 % 2)) (.ofNat 3 (k / 16)))
  | 6 => .ok (.lscanXor (.ofNat 7 d) (.ofNat 7 a) (bit (k / 128 % 2)) (.ofNat 3 (k / 16)))
  | 7 => .ok (.lscanMinI32 (.ofNat 7 d) (.ofNat 7 a) (bit (k / 128 % 2)) (.ofNat 3 (k / 16)))
  | 8 => .ok (.lscanMaxI32 (.ofNat 7 d) (.ofNat 7 a) (bit (k / 128 % 2)) (.ofNat 3 (k / 16)))
  | 9 => .ok (.regroup (.ofNat 7 d) (.ofNat 7 a) (.ofNat 7 (k / 16)))
  | _ => .error .func

/-- Major 0x0A (02_encoding R43), format V3. -/
def cand0A (d a k : Nat) : Except Cause Instr :=
  match k % 16 with
  | 0 => .ok (.sel (.ofNat 7 d) (.ofNat 7 a) (.ofNat 7 (k / 16)) (.ofNat 3 (k % 16)))
  | 1 => .ok (.sel (.ofNat 7 d) (.ofNat 7 a) (.ofNat 7 (k / 16)) (.ofNat 3 (k % 16)))
  | 2 => .ok (.sel (.ofNat 7 d) (.ofNat 7 a) (.ofNat 7 (k / 16)) (.ofNat 3 (k % 16)))
  | 3 => .ok (.sel (.ofNat 7 d) (.ofNat 7 a) (.ofNat 7 (k / 16)) (.ofNat 3 (k % 16)))
  | 4 => .ok (.sel (.ofNat 7 d) (.ofNat 7 a) (.ofNat 7 (k / 16)) (.ofNat 3 (k % 16)))
  | 5 => .ok (.sel (.ofNat 7 d) (.ofNat 7 a) (.ofNat 7 (k / 16)) (.ofNat 3 (k % 16)))
  | 6 => .ok (.sel (.ofNat 7 d) (.ofNat 7 a) (.ofNat 7 (k / 16)) (.ofNat 3 (k % 16)))
  | 7 => .ok (.sel (.ofNat 7 d) (.ofNat 7 a) (.ofNat 7 (k / 16)) (.ofNat 3 (k % 16)))
  | 8 => .ok (.mov (.ofNat 7 d) (.ofNat 7 a))
  | 9 => pick .oper (Special.ofCode? a) fun x' => .ok (.movs (.ofNat 7 d) x')
  | _ => .error .func

/-- Major 0x0B (02_encoding R43), format VU. -/
def cand0B (d a k : Nat) : Except Cause Instr :=
  match k % 32 with
  | 0 => .ok (.voteAny (.ofNat 3 d) (.ofNat 3 a))
  | 1 => .ok (.voteAll (.ofNat 3 d) (.ofNat 3 a))
  | 2 => .ok (.voteBall (.ofNat 7 d) (.ofNat 3 a))
  | 3 => .ok (.v2s (.ofNat 7 a) (.ofNat 6 (k / 32)))
  | 4 => .ok (.s2v (.ofNat 7 d) (.ofNat 6 (k / 32)))
  | 5 => .ok (.lbcast (.ofNat 7 d) (.ofNat 7 a) (.ofNat 6 (k / 32)))
  | 6 => .ok (.lredAdd (.ofNat 7 d) (.ofNat 7 a))
  | 7 => .ok (.lredAnd (.ofNat 7 d) (.ofNat 7 a))
  | 8 => .ok (.lredOr (.ofNat 7 d) (.ofNat 7 a))
  | 9 => .ok (.lredXor (.ofNat 7 d) (.ofNat 7 a))
  | 10 => .ok (.lredMinI32 (.ofNat 7 d) (.ofNat 7 a))
  | 11 => .ok (.lredMaxI32 (.ofNat 7 d) (.ofNat 7 a))
  | _ => .error .func

/-- Major 0x0C (02_encoding R43), format S3. -/
def cand0C (d a k : Nat) : Except Cause Instr :=
  match k % 128 with
  | 0 => .ok (.iaddU (.ofNat 6 d) (.ofNat 6 a) (.ofNat 6 (k / 128)))
  | 1 => .ok (.isubU (.ofNat 6 d) (.ofNat 6 a) (.ofNat 6 (k / 128)))
  | 2 => .ok (.imulU (.ofNat 6 d) (.ofNat 6 a) (.ofNat 6 (k / 128)))
  | 3 => .ok (.imulhI32U (.ofNat 6 d) (.ofNat 6 a) (.ofNat 6 (k / 128)))
  | 4 => .ok (.imulhN32U (.ofNat 6 d) (.ofNat 6 a) (.ofNat 6 (k / 128)))
  | 5 => .ok (.imadU (.ofNat 6 d) (.ofNat 6 a) (.ofNat 6 (k / 128)))
  | 6 => .ok (.iminI32U (.ofNat 6 d) (.ofNat 6 a) (.ofNat 6 (k / 128)))
  | 7 => .ok (.iminN32U (.ofNat 6 d) (.ofNat 6 a) (.ofNat 6 (k / 128)))
  | 8 => .ok (.imaxI32U (.ofNat 6 d) (.ofNat 6 a) (.ofNat 6 (k / 128)))
  | 9 => .ok (.imaxN32U (.ofNat 6 d) (.ofNat 6 a) (.ofNat 6 (k / 128)))
  | 10 => .ok (.iabsU (.ofNat 6 d) (.ofNat 6 a))
  | 11 => .ok (.inegU (.ofNat 6 d) (.ofNat 6 a))
  | 12 => .ok (.leaU (.ofNat 6 d) (.ofNat 6 a) (.ofNat 6 (k / 128)))
  | 13 => .ok (.iadd64U (.ofNat 6 d) (.ofNat 6 a) (.ofNat 6 (k / 128)))
  | 16 => .ok (.andU (.ofNat 6 d) (.ofNat 6 a) (.ofNat 6 (k / 128)))
  | 17 => .ok (.orU (.ofNat 6 d) (.ofNat 6 a) (.ofNat 6 (k / 128)))
  | 18 => .ok (.xorU (.ofNat 6 d) (.ofNat 6 a) (.ofNat 6 (k / 128)))
  | 19 => .ok (.andnU (.ofNat 6 d) (.ofNat 6 a) (.ofNat 6 (k / 128)))
  | 20 => .ok (.shlU (.ofNat 6 d) (.ofNat 6 a) (.ofNat 6 (k / 128)))
  | 21 => .ok (.shrU (.ofNat 6 d) (.ofNat 6 a) (.ofNat 6 (k / 128)))
  | 22 => .ok (.sarU (.ofNat 6 d) (.ofNat 6 a) (.ofNat 6 (k / 128)))
  | 23 => .ok (.rotU (.ofNat 6 d) (.ofNat 6 a) (.ofNat 6 (k / 128)))
  | 24 => .ok (.clzU (.ofNat 6 d) (.ofNat 6 a))
  | 25 => .ok (.popcU (.ofNat 6 d) (.ofNat 6 a))
  | 26 => .ok (.brevU (.ofNat 6 d) (.ofNat 6 a))
  | 27 => .ok (.bfeN32U (.ofNat 6 d) (.ofNat 6 a) (.ofNat 6 (k / 128)))
  | 28 => .ok (.bfeI32U (.ofNat 6 d) (.ofNat 6 a) (.ofNat 6 (k / 128)))
  | 29 => .ok (.bfiU (.ofNat 6 d) (.ofNat 6 a) (.ofNat 6 (k / 128)))
  | 30 => .ok (.bilvU (.ofNat 6 d) (.ofNat 6 a) (.ofNat 6 (k / 128)))
  | 31 => .ok (.bdlvU (.ofNat 6 d) (.ofNat 6 a) (.ofNat 6 (k / 128)))
  | 48 => pick .oper (Special.ofCode? a) fun x' => .ok (.movsU (.ofNat 6 d) x')
  | 49 => .ok (.movU (.ofNat 6 d) (.ofNat 6 a))
  | 50 => .ok (.mix32U (.ofNat 6 d) (.ofNat 6 a) (.ofNat 6 (k / 128)))
  | f => if f / 16 = 2 then pick .func (ICond.ofCode? (k % 16)) fun k' => .ok (.icmpU (.ofNat 6 d) (.ofNat 6 a) (.ofNat 6 (k / 128)) k') else .error .func

/-- Major 0x0D (02_encoding R43), format SI. -/
def cand0D (d a k : Nat) (x : Option Nat) : Except Cause Instr :=
  match k / 1024 with
  | 0 => .ok (.iaddUimm (.ofNat 6 d) (.ofNat 6 a) (Imm.join 1024 (k % 1024) x))
  | 1 => .ok (.andUimm (.ofNat 6 d) (.ofNat 6 a) (Imm.join 1024 (k % 1024) x))
  | 2 => .ok (.orUimm (.ofNat 6 d) (.ofNat 6 a) (Imm.join 1024 (k % 1024) x))
  | 3 => .ok (.xorUimm (.ofNat 6 d) (.ofNat 6 a) (Imm.join 1024 (k % 1024) x))
  | 4 => .ok (.shlUimm (.ofNat 6 d) (.ofNat 6 a) (Imm.join 1024 (k % 1024) x))
  | 5 => .ok (.shrUimm (.ofNat 6 d) (.ofNat 6 a) (Imm.join 1024 (k % 1024) x))
  | 6 => .ok (.sarUimm (.ofNat 6 d) (.ofNat 6 a) (Imm.join 1024 (k % 1024) x))
  | 7 => .ok (.moviU (.ofNat 6 d) (Imm.join 1024 (k % 1024) x))
  | _ => .error .func

/-- Major 0x10 (02_encoding R43), format V3. -/
def cand10 (d a k : Nat) : Except Cause Instr :=
  match k % 16 with
  | 0 => .ok (.fadd (.ofNat 7 d) (.ofNat 7 a) (.ofNat 7 (k / 16)) (RoundMode.ofCode (k % 4)))
  | 1 => .ok (.fadd (.ofNat 7 d) (.ofNat 7 a) (.ofNat 7 (k / 16)) (RoundMode.ofCode (k % 4)))
  | 2 => .ok (.fadd (.ofNat 7 d) (.ofNat 7 a) (.ofNat 7 (k / 16)) (RoundMode.ofCode (k % 4)))
  | 3 => .ok (.fadd (.ofNat 7 d) (.ofNat 7 a) (.ofNat 7 (k / 16)) (RoundMode.ofCode (k % 4)))
  | 4 => .ok (.fmul (.ofNat 7 d) (.ofNat 7 a) (.ofNat 7 (k / 16)) (RoundMode.ofCode (k % 4)))
  | 5 => .ok (.fmul (.ofNat 7 d) (.ofNat 7 a) (.ofNat 7 (k / 16)) (RoundMode.ofCode (k % 4)))
  | 6 => .ok (.fmul (.ofNat 7 d) (.ofNat 7 a) (.ofNat 7 (k / 16)) (RoundMode.ofCode (k % 4)))
  | 7 => .ok (.fmul (.ofNat 7 d) (.ofNat 7 a) (.ofNat 7 (k / 16)) (RoundMode.ofCode (k % 4)))
  | 8 => .ok (.ffma (.ofNat 7 d) (.ofNat 7 a) (.ofNat 7 (k / 16)) (RoundMode.ofCode (k % 4)))
  | 9 => .ok (.ffma (.ofNat 7 d) (.ofNat 7 a) (.ofNat 7 (k / 16)) (RoundMode.ofCode (k % 4)))
  | 10 => .ok (.ffma (.ofNat 7 d) (.ofNat 7 a) (.ofNat 7 (k / 16)) (RoundMode.ofCode (k % 4)))
  | 11 => .ok (.ffma (.ofNat 7 d) (.ofNat 7 a) (.ofNat 7 (k / 16)) (RoundMode.ofCode (k % 4)))
  | 12 => .ok (.fsub (.ofNat 7 d) (.ofNat 7 a) (.ofNat 7 (k / 16)))
  | 13 => .ok (.fmin (.ofNat 7 d) (.ofNat 7 a) (.ofNat 7 (k / 16)))
  | 14 => .ok (.fmax (.ofNat 7 d) (.ofNat 7 a) (.ofNat 7 (k / 16)))
  | _ => .error .func

/-- Major 0x11 (02_encoding R43), format V3. -/
def cand11 (d a k : Nat) : Except Cause Instr :=
  match k % 16 with
  | 0 => pick .func (FCond.ofCode? (d / 8)) fun k' => .ok (.fcmp k' (.ofNat 3 d) (.ofNat 7 a) (.ofNat 7 (k / 16)))
  | 1 => match k / 16 with
    | 0 => .ok (.fclass (.ofNat 7 d) (.ofNat 7 a))
    | 1 => .ok (.fclassFlg (.ofNat 7 d))
    | 2 => .ok (.fclassFlgclr (.ofNat 7 d))
    | _ => .error .oper
  | 2 => .ok (.frnd (.ofNat 7 d) (.ofNat 7 a))
  | 3 => .ok (.frndRz (.ofNat 7 d) (.ofNat 7 a))
  | 4 => .ok (.frndRd (.ofNat 7 d) (.ofNat 7 a))
  | 5 => .ok (.frndRu (.ofNat 7 d) (.ofNat 7 a))
  | 6 => .ok (.hadd2F16 (.ofNat 7 d) (.ofNat 7 a) (.ofNat 7 (k / 16)))
  | 7 => .ok (.hadd2Bf16 (.ofNat 7 d) (.ofNat 7 a) (.ofNat 7 (k / 16)))
  | 8 => .ok (.hmul2F16 (.ofNat 7 d) (.ofNat 7 a) (.ofNat 7 (k / 16)))
  | 9 => .ok (.hmul2Bf16 (.ofNat 7 d) (.ofNat 7 a) (.ofNat 7 (k / 16)))
  | 10 => .ok (.hfma2F16 (.ofNat 7 d) (.ofNat 7 a) (.ofNat 7 (k / 16)))
  | 11 => .ok (.hfma2Bf16 (.ofNat 7 d) (.ofNat 7 a) (.ofNat 7 (k / 16)))
  | _ => .error .func

/-- Major 0x12 (02_encoding R43), format V3. -/
def cand12 (d a k : Nat) : Except Cause Instr :=
  match k % 16 with
  | 0 => .ok (.rcp (.ofNat 7 d) (.ofNat 7 a))
  | 1 => .ok (.rsq (.ofNat 7 d) (.ofNat 7 a))
  | 2 => .ok (.sqrt (.ofNat 7 d) (.ofNat 7 a))
  | 3 => .ok (.exp2 (.ofNat 7 d) (.ofNat 7 a))
  | 4 => .ok (.log2 (.ofNat 7 d) (.ofNat 7 a))
  | 5 => .ok (.sin (.ofNat 7 d) (.ofNat 7 a))
  | 6 => .ok (.cos (.ofNat 7 d) (.ofNat 7 a))
  | _ => .error .func

/-- Major 0x13 (02_encoding R43), format V3. -/
def cand13 (d a k : Nat) : Except Cause Instr :=
  pick .func (CvtTy.ofCode? (k / 128)) fun dty' => pick .func (CvtTy.ofCode? (k / 8 % 16)) fun sty' => .ok (.cvt (.ofNat 7 d) (.ofNat 7 a) dty' sty' (RoundMode.ofCode (k / 2 % 4)) (bit (k % 2)))

/-- Major 0x14 (02_encoding R43), format V3. -/
def cand14 (d a k : Nat) : Except Cause Instr :=
  match k % 16 with
  | 0 => .ok (.qhist (.ofNat 7 d) (.ofNat 7 a) (.ofNat 7 (k / 16)))
  | 1 => .ok (.qscale (.ofNat 7 d) (.ofNat 7 a) (.ofNat 7 (k / 16)))
  | 2 => .ok (.qpack (.ofNat 7 d) (.ofNat 7 a) (.ofNat 7 (k / 16)))
  | _ => .error .func

/-- Major 0x18 (02_encoding R43), format M. -/
def cand18 (d a k : Nat) (x : Option Nat) : Except Cause Instr :=
  pick .oper (MemSize.ofCode? (k % 8)) fun z' => .ok (.ld (.ofNat 7 d) (.ofNat 7 a) (Imm.join 256 (k / 8) x) z')

/-- Major 0x19 (02_encoding R43), format M. -/
def cand19 (d a k : Nat) (x : Option Nat) : Except Cause Instr :=
  pick .oper (MemSize.ofCode? (k % 8)) fun z' => .ok (.st (.ofNat 7 d) (.ofNat 7 a) (Imm.join 256 (k / 8) x) z')

/-- Major 0x1A (02_encoding R43), format V3. -/
def cand1A (d a k : Nat) : Except Cause Instr :=
  match k % 16 with
  | 0 => .ok (.atomAdd (.ofNat 7 d) (.ofNat 7 a) (.ofNat 7 (k / 16)))
  | 1 => .ok (.atomAnd (.ofNat 7 d) (.ofNat 7 a) (.ofNat 7 (k / 16)))
  | 2 => .ok (.atomOr (.ofNat 7 d) (.ofNat 7 a) (.ofNat 7 (k / 16)))
  | 3 => .ok (.atomXor (.ofNat 7 d) (.ofNat 7 a) (.ofNat 7 (k / 16)))
  | 4 => .ok (.atomMinI32 (.ofNat 7 d) (.ofNat 7 a) (.ofNat 7 (k / 16)))
  | 5 => .ok (.atomMaxI32 (.ofNat 7 d) (.ofNat 7 a) (.ofNat 7 (k / 16)))
  | 6 => .ok (.atomMinN32 (.ofNat 7 d) (.ofNat 7 a) (.ofNat 7 (k / 16)))
  | 7 => .ok (.atomMaxN32 (.ofNat 7 d) (.ofNat 7 a) (.ofNat 7 (k / 16)))
  | 8 => .ok (.atomXchg (.ofNat 7 d) (.ofNat 7 a) (.ofNat 7 (k / 16)))
  | 9 => .ok (.atomCas (.ofNat 7 d) (.ofNat 7 a) (.ofNat 7 (k / 16)))
  | 10 => .ok (.atomFadd (.ofNat 7 d) (.ofNat 7 a) (.ofNat 7 (k / 16)))
  | 11 => .ok (.atomXacc (.ofNat 7 a) (.ofNat 7 (k / 16)))
  | 12 => match k / 16 with
    | 0 => .ok (.xaccRd (.ofNat 7 d) (.ofNat 7 a))
    | 1 => .ok (.xaccRdClr (.ofNat 7 d) (.ofNat 7 a))
    | _ => .error .oper
  | 13 => match k / 16 with
    | 0 => .ok (.pref (.ofNat 7 a))
    | 1 => .ok (.prefSc (.ofNat 7 a))
    | _ => .error .oper
  | 14 => .ok (.atomAddN64 (.ofNat 7 d) (.ofNat 7 a) (.ofNat 7 (k / 16)))
  | 15 => .ok (.atomCasB64 (.ofNat 7 d) (.ofNat 7 a) (.ofNat 7 (k / 16)))
  | _ => .error .func

/-- Major 0x1B (02_encoding R43), format V3. -/
def cand1B (d a k : Nat) : Except Cause Instr :=
  match k % 16 with
  | 0 => .ok (.ldSB32 (.ofNat 7 d) (.ofNat 7 a) (.ofNat 7 (k / 16)))
  | 1 => .ok (.ldSB64 (.ofNat 7 d) (.ofNat 7 a) (.ofNat 7 (k / 16)))
  | 2 => .ok (.stSB32 (.ofNat 7 d) (.ofNat 7 a) (.ofNat 7 (k / 16)))
  | 3 => .ok (.stSB64 (.ofNat 7 d) (.ofNat 7 a) (.ofNat 7 (k / 16)))
  | 4 => .ok (.cmnEwAddI32 (.ofNat 7 a) (.ofNat 7 (k / 16)))
  | 5 => .ok (.cmnEwAddF32 (.ofNat 7 a) (.ofNat 7 (k / 16)))
  | 6 => .ok (.cmnEwMaxF32 (.ofNat 7 a) (.ofNat 7 (k / 16)))
  | 7 => .ok (.cmnRedAddI32 (.ofNat 7 d) (.ofNat 7 a) (.ofNat 7 (k / 16)))
  | 8 => .ok (.cmnRedAddF32 (.ofNat 7 d) (.ofNat 7 a) (.ofNat 7 (k / 16)))
  | 9 => .ok (.cmnRedMaxF32 (.ofNat 7 d) (.ofNat 7 a) (.ofNat 7 (k / 16)))
  | _ => .error .func

/-- Major 0x1C (02_encoding R43), format V3. -/
def cand1C (d a k : Nat) : Except Cause Instr :=
  match k % 16 with
  | 0 => .ok (.fenceE (.ofNat 3 (k / 16)))
  | 1 => pick .oper (MCond.ofCode? (d % 4)) fun k' => .ok (.mwait (bit (d / 4 % 2)) k' (.ofNat 7 a) (.ofNat 7 (k / 16)))
  | _ => .error .func

/-- Major 0x1D (02_encoding R43), format S3. -/
def cand1D (d a k : Nat) : Except Cause Instr :=
  match k % 128 with
  | 0 => .ok .fenceT
  | 1 => .ok (.tlbInv (.ofNat 6 a) (.ofNat 6 (k / 128)))
  | 2 => .ok .tlbSync
  | 3 => .ok (.asidBind (.ofNat 6 d) (.ofNat 6 a) (.ofNat 6 (k / 128)))
  | 4 => .ok (.asidFree (.ofNat 6 d) (.ofNat 6 a))
  | 5 => .ok (.asidStat (.ofNat 6 d) (.ofNat 6 a))
  | 6 => .ok (.pgMig (.ofNat 6 d) (.ofNat 6 a) (.ofNat 6 (k / 128)))
  | 7 => .ok (.pfResume (.ofNat 6 d) (.ofNat 6 a) (.ofNat 6 (k / 128)))
  | 8 => .ok (.bbMove (.ofNat 6 d) (.ofNat 6 a) (.ofNat 6 (k / 128)))
  | _ => .error .func

/-- Major 0x20 (02_encoding R43), format S3. -/
def cand20 (d a k : Nat) : Except Cause Instr :=
  match k % 128 with
  | 0 => .ok (.cpy (.ofNat 6 a) (.ofNat 6 (k / 128)))
  | 1 => .ok (.cpyFill (.ofNat 6 a) (.ofNat 6 (k / 128)))
  | 2 => .ok (.tbrInit (.ofNat 6 a) (.ofNat 6 (k / 128)))
  | 3 => .ok (.tbrArrive (.ofNat 6 d) (.ofNat 6 a))
  | 4 => .ok (.tbrOwe (.ofNat 6 a) (.ofNat 6 (k / 128)))
  | 5 => .ok (.tbrRetire (.ofNat 6 a))
  | _ => .error .func

/-- Major 0x22 (02_encoding R43), format VU. -/
def cand22 (d a k : Nat) : Except Cause Instr :=
  match k % 32 with
  | 0 => .ok (.strOpen (.ofNat 3 d) (.ofNat 6 (k / 32)))
  | 1 => .ok (.strOpeni (.ofNat 3 d) (.ofNat 6 (k / 32)))
  | 2 => .ok (.strAdv (.ofNat 3 d) (.ofNat 6 (k / 32)))
  | 3 => .ok (.strPop (.ofNat 7 d) (.ofNat 3 a))
  | 4 => .ok (.strPush (.ofNat 3 d) (.ofNat 7 a))
  | 5 => .ok (.strTend (.ofNat 3 d) (.ofNat 3 a))
  | 6 => .ok (.strClose (.ofNat 3 d))
  | 7 => .ok (.fibOpen (.ofNat 2 d) (.ofNat 6 (k / 32)))
  | 8 => .ok (.fibAdv (.ofNat 7 d) (.ofNat 7 a) (.ofNat 2 (k / 32)))
  | 9 => .ok (.fibTend (.ofNat 3 d) (.ofNat 2 a))
  | 10 => .ok (.fibClose (.ofNat 2 d))
  | 11 => .ok (.xrCap (.ofNat 6 (k / 32)))
  | 12 => .ok (.xrRoute (.ofNat 7 d) (.ofNat 7 a) (.ofNat 6 (k / 32)))
  | _ => .error .func

/-- Major 0x24 (02_encoding R43), format S3. -/
def cand24 (d a k : Nat) : Except Cause Instr :=
  match k % 128 with
  | 0 => .ok (.taskPost (.ofNat 6 d) (.ofNat 6 a))
  | 1 => .ok (.taskSpawn (.ofNat 6 d) (.ofNat 6 a) (.ofNat 6 (k / 128)))
  | 2 => .ok (.tbufFull (.ofNat 6 d) (.ofNat 6 a))
  | 3 => .ok (.tbufEmpty (.ofNat 6 d) (.ofNat 6 a))
  | 4 => .ok (.tbufStat (.ofNat 6 d) (.ofNat 6 a))
  | _ => .error .func

/-- Major 0x25 (02_encoding R43), format SI. -/
def cand25 (_d _a k : Nat) : Except Cause Instr :=
  match k / 1024 with
  | 0 => .ok (.grpMeet (.ofNat 8 (k % 1024)))
  | 1 => .ok (.grpMark (.ofNat 8 (k % 1024)))
  | 2 => .ok (.grpHold (.ofNat 8 (k % 1024)))
  | _ => .error .func

/-- Major 0x28 (02_encoding R43), format S3. -/
def cand28 (d a k : Nat) : Except Cause Instr :=
  pick .func (MmFmt.ofCode? (k % 128 / 16)) fun f' => pick .func (Kb.ofCode? (k / 2 % 4)) fun k' => .ok (.mm (.ofNat 4 d) (.ofNat 6 a) (.ofNat 6 (k / 128)) f' (bit (k / 8 % 2)) k')

/-- Major 0x29 (02_encoding R43), format S3. -/
def cand29 (d a k : Nat) : Except Cause Instr :=
  pick .func (MmFmt.ofCode? (k % 128 / 16)) fun f' => pick .func (Keep.ofCode? (k / 2 % 4)) fun k' => .ok (.mmSp (.ofNat 4 d) (.ofNat 6 a) (.ofNat 6 (k / 128)) f' (bit (k / 8 % 2)) k')

/-- Major 0x2A (02_encoding R43), format S3. -/
def cand2A (d a k : Nat) : Except Cause Instr :=
  match k % 128 with
  | 0 => .ok (.mmXpose (.ofNat 4 d) (.ofNat 4 a))
  | 1 => .ok (.mmPerm (.ofNat 4 d) (.ofNat 4 a) (.ofNat 6 (k / 128)))
  | 2 => match k / 128 with
    | 0 => .ok (.mmRsumF32 (.ofNat 4 d) (.ofNat 4 a))
    | 1 => .ok (.mmRsumI32 (.ofNat 4 d) (.ofNat 4 a))
    | _ => .error .oper
  | 3 => .ok (.mmZero (.ofNat 4 d))
  | 4 => .ok (.mmScacc (.ofNat 4 d) (.ofNat 4 a) (.ofNat 6 (k / 128)))
  | 5 => match k / 128 with
    | 0 => .ok (.mmCvtF32I32 (.ofNat 4 d) (.ofNat 4 a))
    | 1 => .ok (.mmCvtI32F32 (.ofNat 4 d) (.ofNat 4 a))
    | _ => .error .oper
  | _ => .error .func

/-- Major 0x2B (02_encoding R43), format S3. -/
def cand2B (d a k : Nat) : Except Cause Instr :=
  match k % 128 with
  | 0 => .ok (.seqLoop (.ofNat 6 d) (.ofNat 6 a))
  | 1 => .ok .seqEnd
  | _ => .error .func

/-- Major 0x2F (02_encoding R43), format V3. -/
def cand2F (d a k : Nat) : Except Cause Instr :=
  match k % 16 with
  | 0 => .ok (.accLd (.ofNat 7 d) (.ofNat 4 a) (.ofNat 7 (k / 16)))
  | 1 => .ok (.accSt (.ofNat 7 d) (.ofNat 4 a) (.ofNat 7 (k / 16)))
  | 2 => .ok (.planePack (.ofNat 7 d) (.ofNat 7 a) (.ofNat 7 (k / 16)))
  | 3 => .ok (.planeUnpack (.ofNat 7 d) (.ofNat 7 a) (.ofNat 7 (k / 16)))
  | _ => .error .func

/-- Major 0x30 (02_encoding R43), format VU. -/
noncomputable def cand30 (d a k : Nat) : Except Cause Instr :=
  match k % 32 with
  | 0 => .ok .bpoolInit
  | 1 => .ok (.beamMake (.ofNat 7 d) (.ofNat 7 a))
  | 2 => .ok (.beamCast (.ofNat 7 d) (.ofNat 7 a) (.ofNat 6 (k / 32)))
  | 3 => .ok (.beamNext (.ofNat 7 d) (.ofNat 7 a) (.ofNat 6 (k / 32)))
  | 4 => .ok (.beamFree (.ofNat 7 d) (.ofNat 7 a))
  | 5 => .ok (.beamStat (.ofNat 7 d) (.ofNat 7 a))
  | _ => .error .func

/-- Major 0x31 (02_encoding R43), format VU. -/
noncomputable def cand31 (d a k : Nat) : Except Cause Instr :=
  match k % 32 with
  | 0 => .ok (.rayCast (.ofNat 7 d) (.ofNat 7 a) (.ofNat 6 (k / 32)))
  | 1 => .ok (.rayNext (.ofNat 7 d) (.ofNat 7 a) (.ofNat 6 (k / 32)))
  | 2 => .ok (.rayResume (.ofNat 7 d) (.ofNat 7 a) (.ofNat 6 (k / 32)))
  | _ => .error .func

/-- Major 0x32 (02_encoding R43), format V3. -/
noncomputable def cand32 (d a k : Nat) : Except Cause Instr :=
  match k % 16 with
  | 0 => .ok (.texSamp (.ofNat 7 d) (.ofNat 7 a) (.ofNat 7 (k / 16)))
  | 1 => .ok (.texFoot (.ofNat 7 d) (.ofNat 7 a) (.ofNat 7 (k / 16)))
  | 2 => .ok (.texLod (.ofNat 7 d) (.ofNat 7 a) (.ofNat 7 (k / 16)))
  | _ => .error .func

/-- Major 0x33 (02_encoding R43), format VU. -/
noncomputable def cand33 (d a k : Nat) : Except Cause Instr :=
  match k % 32 with
  | 0 => .ok (.rastTri (.ofNat 7 d) (.ofNat 7 a) (.ofNat 6 (k / 32)))
  | 1 => .ok (.rastNext (.ofNat 7 d) (.ofNat 7 a) (.ofNat 6 (k / 32)))
  | _ => .error .func

/-- Major 0x34 (02_encoding R43), format S3. -/
noncomputable def cand34 (d a k : Nat) : Except Cause Instr :=
  match k % 128 with
  | 0 => .ok (.plvl (.ofNat 6 d) (.ofNat 6 a))
  | 1 => .ok (.plvlRd (.ofNat 6 d))
  | 2 => .ok (.time (.ofNat 6 d))
  | 3 => .ok (.cyc (.ofNat 6 d))
  | 4 => .ok (.dline (.ofNat 6 d) (.ofNat 6 a))
  | 5 => .ok (.cntRd (.ofNat 6 d) (.ofNat 6 a))
  | _ => .error .func

/-- Major 0x35 (02_encoding R43), format SI. -/
noncomputable def cand35 (d a k : Nat) : Except Cause Instr :=
  match k / 1024 with
  | 0 => .ok (.sysRd (.ofNat 6 d) (.ofNat 6 a) (.ofNat 10 (k % 1024)))
  | 1 => .ok (.sysWr (.ofNat 6 d) (.ofNat 6 a) (.ofNat 10 (k % 1024)))
  | 2 => .ok (.almSet (.ofNat 6 d) (.ofNat 6 a) (.ofNat 5 (k % 1024)))
  | _ => .error .func

/-- Major 0x36 (02_encoding R43), format S3. -/
noncomputable def cand36 (d a k : Nat) : Except Cause Instr :=
  match k % 128 with
  | 0 => .ok (.yoke (.ofNat 6 d) (.ofNat 6 a))
  | 1 => .ok (.modeStacks (.ofNat 6 d) (.ofNat 6 a))
  | 2 => .ok (.mclkSw (.ofNat 6 d) (.ofNat 6 a))
  | 3 => .ok (.repStat (.ofNat 6 d) (.ofNat 6 a))
  | _ => .error .func

/-- Major 0x37 (02_encoding R43), format S3. -/
noncomputable def cand37 (d a k : Nat) : Except Cause Instr :=
  match k % 128 with
  | 0 => .ok (.wpSet (.ofNat 6 d) (.ofNat 6 a) (.ofNat 3 (k / 128)))
  | 1 => .ok (.wpClr (.ofNat 6 d) (.ofNat 6 a) (.ofNat 3 (k / 128)))
  | 2 => .ok (.dbgHalt (.ofNat 6 d) (.ofNat 6 a))
  | 3 => .ok (.dbgRes (.ofNat 6 d) (.ofNat 6 a))
  | 4 => .ok (.dbgStep (.ofNat 6 d) (.ofNat 6 a))
  | 5 => .ok (.dbgRdv (.ofNat 6 d) (.ofNat 6 a))
  | 6 => .ok (.dbgWrv (.ofNat 6 d) (.ofNat 6 a))
  | 7 => .ok (.dbgPaths (.ofNat 6 d) (.ofNat 6 a))
  | 8 => .ok (.trcOn (.ofNat 6 d) (.ofNat 6 a))
  | 9 => .ok (.trcOff (.ofNat 6 d) (.ofNat 6 a))
  | 10 => .ok (.trcMark (.ofNat 6 a))
  | _ => .error .func

/-- Major 0x2E (13_matrix R292), format S3: code 2 is the lane or the matrix form by the stream that fetched it. -/
def cand2E (st : Stream) (d a k : Nat) : Except Cause Instr :=
  match k % 128 with
  | 0 => .ok (.tokGive (.ofNat 4 d) (.ofNat 6 a))
  | 1 => .ok (.tokTake (.ofNat 4 d))
  | 2 => match st with
    | .lane => .ok (.seqBar (.ofNat 4 d))
    | .matrix => .ok (.seqBarMatrix (.ofNat 4 d) (.ofNat 6 a))
  | _ => .error .func

/-- What a word stands for, before its operands are checked: an instruction, or FUNC, or OPER (02_encoding R41, R43). `x` is the
payload of the extension word the word owns, if any. -/
noncomputable def candidate (st : Stream) (w : Nat) (x : Option Nat) : Except Cause Instr :=
  let d := fld w 18 7; let a := fld w 11 7; let k := fld w 0 11
  let ud := fld w 19 6; let ua := fld w 13 6; let uk := fld w 0 13
  match fld w 25 6 with
  | 1 => cand01 (fld w 22 3) (fld w 21 1) (fld w 20 1) (fld w 0 20)
  | 2 => cand02 (fld w 22 3) (fld w 21 1) (fld w 20 1) (fld w 0 20)
  | 3 => cand03 d a k
  | 4 => cand04 d a k
  | 5 => cand05 ud ua uk
  | 6 => cand06 d a k
  | 7 => cand07 d a k
  | 8 => cand08 d a k x
  | 9 => cand09 d a k
  | 10 => cand0A d a k
  | 11 => cand0B d a k
  | 12 => cand0C ud ua uk
  | 13 => cand0D ud ua uk x
  | 16 => cand10 d a k
  | 17 => cand11 d a k
  | 18 => cand12 d a k
  | 19 => cand13 d a k
  | 20 => cand14 d a k
  | 24 => cand18 d a k x
  | 25 => cand19 d a k x
  | 26 => cand1A d a k
  | 27 => cand1B d a k
  | 28 => cand1C d a k
  | 29 => cand1D ud ua uk
  | 32 => cand20 ud ua uk
  | 34 => cand22 d a k
  | 36 => cand24 ud ua uk
  | 37 => cand25 ud ua uk
  | 40 => cand28 ud ua uk
  | 41 => cand29 ud ua uk
  | 42 => cand2A ud ua uk
  | 43 => cand2B ud ua uk
  | 46 => cand2E st ud ua uk
  | 47 => cand2F d a k
  | 48 => cand30 d a k
  | 49 => cand31 d a k
  | 50 => cand32 d a k
  | 51 => cand33 d a k
  | 52 => cand34 ud ua uk
  | 53 => cand35 ud ua uk
  | 54 => cand36 ud ua uk
  | 55 => cand37 ud ua uk
  | _ => .error .func
/-- Majors reserved to the illegal-instruction trap (02_encoding R41 code 2). -/
def reservedMajor (m : Nat) : Bool :=
  m == 0 || m == 0x17 || m == 0x1F || m == 0x26 || m == 0x27 || (0x38 ≤ m && m ≤ 0x3E)

/-- Majors that a stream accepts (02_encoding R42). -/
def majorAllowed (st : Stream) (m : Nat) : Bool :=
  match st with
  | .lane => !(0x28 ≤ m && m ≤ 0x2B)
  | .matrix => (0x28 ≤ m && m ≤ 0x2B) || m == 0x2E || m == 0x0C || m == 0x0D || m == 0x01 || m == 0x3F

/-- Supervisor-only words (02_encoding R43, "sup"). -/
def supervisorWord (w : Nat) : Bool :=
  let m := fld w 25 6
  (m == 0x1D && 1 ≤ fld w 0 7 && fld w 0 7 ≤ 8) || m == 0x35 || m == 0x36 || (m == 0x37 && fld w 0 7 ≤ 9)

/-- Majors whose words can own an extension word (02_encoding R32). -/
def canOwnExt (m : Nat) : Bool := m == 0x08 || m == 0x0D || m == 0x18 || m == 0x19

/-- Payload bits of an extension word that its owner leaves reserved (02_encoding R32). -/
def extReserved (ownerMaj x : Nat) : Bool :=
  if ownerMaj == 0x0D then 2 ^ 22 ≤ x else 2 ^ 24 ≤ x

/-- The branch that a matrix stream accepts (02_encoding R42). -/
def matrixBranchOk (st : Stream) (i : Instr) : Bool :=
  match st, i with
  | .matrix, .bra p n _ => p == 7 && !n
  | .matrix, .call _ _ _ => false
  | _, _ => true

/-- The checks of 02_encoding R41 that concern one word other than an extension word, in order: ZERO, MAJ, FUNC, STREAM, PRIV, OPER. `x` is the payload
of the extension word it owns. An unused field that is not 0 shows as a word that the encoder does not give back (R34). -/
noncomputable def decodeWord (st : Stream) (priv : Bool) (w : BitVec 32) (x : Option Nat) : Except Cause Instr :=
  let n := w.toNat % 2 ^ 31
  let m := fld n 25 6
  if w = 0 then .error .zero
  else if reservedMajor m then .error .maj
  else match candidate st n x with
    | .error .func => .error .func
    | r =>
      if !majorAllowed st m || (st == .matrix && w.toNat / 2 ^ 31 == 1) then .error .stream
      else if supervisorWord n && !priv then .error .priv
      else match r with
        | .error e => .error e
        | .ok i => if i.wf && matrixBranchOk st i && encodeOwner i == some (.ofNat 32 n) then .ok i else .error .oper

/-- The words of an instruction, its own and the extension word it owns, chain bits 0; none for an event, which has no encoding. -/
def encode (i : Instr) : List (BitVec 32) :=
  match encodeOwner i with
  | none => []
  | some w => w :: (encodeExt i).toList

/-- The instruction that words stand for in a stream, at supervisor privilege: the reverse of `encode`. -/
noncomputable def decodeWords (st : Stream) : List (BitVec 32) → Except Cause Instr
  | [w] => decodeWord st true w none
  | [w, e] =>
    let m := fld w.toNat 25 6
    let x := e.toNat % 2 ^ 25
    if canOwnExt m && e.toNat / 2 ^ 25 == 0x3F && !extReserved m x then decodeWord st true w (some x) else .error .xword
  | _ => .error .zero

/-- The stream that an instruction's words belong to: the matrix stream for majors 0x28 to 0x2B and for the sequencer's own form of
seq.bar, otherwise the lane stream (02_encoding R42). -/
def streamOf : Instr → Stream
  | .mm .. => .matrix
  | .mmSp .. => .matrix
  | .mmXpose .. => .matrix
  | .mmPerm .. => .matrix
  | .mmRsumF32 .. => .matrix
  | .mmRsumI32 .. => .matrix
  | .mmZero .. => .matrix
  | .mmScacc .. => .matrix
  | .mmCvtF32I32 .. => .matrix
  | .mmCvtI32F32 .. => .matrix
  | .seqLoop .. => .matrix
  | .seqEnd => .matrix
  | .seqBarMatrix .. => .matrix
  | _ => .lane

/-- The little-endian bytes of a word (00_scope R3, 02_encoding R25). -/
def wordBytes (w : BitVec 32) : List (BitVec 8) :=
  [w.extractLsb' 0 8, w.extractLsb' 8 8, w.extractLsb' 16 8, w.extractLsb' 24 8]

/-- The little-endian word of four bytes. -/
def bytesWord (b0 b1 b2 b3 : BitVec 8) : BitVec 32 := b3 ++ b2 ++ b1 ++ b0

/-- The words that bytes in memory hold, whole words only. -/
def bytesWords : List (BitVec 8) → List (BitVec 32)
  | b0 :: b1 :: b2 :: b3 :: t => bytesWord b0 b1 b2 b3 :: bytesWords t
  | _ => []

/-- The instruction read from a table word of `nbits` bits whose bits count on from the first word's least significant bit: laid out in
memory byte by byte, read back and decoded, by the lane stream and, where that refuses it, by the matrix stream. -/
noncomputable def decodeTableWord (_nbits w : Nat) : Option Instr :=
  match bytesWords (wordBytes (.ofNat 32 w)) with
  | [v] =>
    match decodeWord .lane true v none with
    | .ok i => some i
    | .error _ => (decodeWord .matrix true v none).toOption
  | _ => none

end Sys2Proof
end

