-- ==== Sys2Proof/Config.lean ====
section
/-! DEFINITION. What a part fixes and the spec does not, as constants without a body: nothing in Lean can evaluate them, so a claim holds
whatever they are (notes/assumptions/3.md and 5.md). -/

namespace Sys2Proof.Config

/-- Ticks (reference) that pass in a step, by the number of steps made so far. -/
opaque ticks : Nat → BitVec 16

/-- Cycles (base) for which an engine is busy with an operation, by the operation's identifier (03_tasks R85). -/
opaque engineCycles : Nat → BitVec 32

/-- By how much a counter of a core whose increments hang on timing (15_power R342) grows in a step, within the bound that the model sets: step, core,
counter. -/
opaque counts : Nat → Nat → Nat → BitVec 32

/-- Which of the routers or paths that are open a packet is routed to, by its number (16_stack R355). -/
opaque route : Nat → Nat

/-- For how many cycles beyond 16 a droop that is detected in a given step lasts, modulo 4,081 (15_power R335). -/
opaque droop : Nat → BitVec 12

/-- Whether a global access made in a given step needs GDDR, that is, misses the stacked cache (16_stack R360). -/
opaque missesCache : Nat → Bool

/-- The functions of FIPS 180-4 and FIPS 186-5 that 16_stack R361 names: the SHA-384 digest of bytes, the uncompressed public key of a P-384 private
key, as 97 bytes, and the ECDSA P-384 signature, r then s, of a digest. -/
opaque sha384 : List (BitVec 8) → BitVec 384
opaque publicOf : BitVec 384 → List (BitVec 8)
opaque ecdsa : BitVec 384 → BitVec 384 → BitVec 768

/-- The private key in the part's fuses: nothing but signatures and the public key comes of it (16_stack R361). -/
opaque privateKey : BitVec 384

/-- Whether the beam engine prunes a node below which no item overlaps: the hierarchy's nodes, the node, the position, the piece (14_beams R313). -/
opaque prunes : List Nat → Bool

/-- How many samples a footprint has, less one and modulo 16, where both its lengths overflow, by descriptor and operands (14_beams R327). -/
opaque footprint : List Nat → Nat

/-- Device identity: the SHA-384 digest of the uncompressed public key (16_stack R361). -/
def identity : BitVec 384 := sha384 (publicOf privateKey)

/-- Stepping in fuses: whether the part is B1, not B0 (00_scope R1, 16_stack R364). -/
opaque isB1 : Bool

/-- The digest of the running Shoram firmware (16_stack R361). -/
opaque firmwareDigest : BitVec 384

/-- The signature that the part's key makes, with SHA-384, over the bytes of a reply's fields (16_stack R361). -/
def sign (fields : List (BitVec 8)) : BitVec 768 := ecdsa privateKey (sha384 fields)

/-- Outcomes of bring-up that the outside has not put on the agenda (16_stack R357, R358). -/
opaque firmwareGenuine : Bool
opaque untrainedChannels : BitVec 6
opaque failedCores : BitVec 32
opaque failedSatelliteCores : BitVec 64
opaque availableStacks : BitVec 3

/-- The root that the host gives for ASID 0 (10_translation R254). -/
opaque bootRoot : BitVec 64

/-- Contents of an old word or a value that the spec leaves unspecified, drawn by step. -/
opaque freeWord : Nat → BitVec 64

end Sys2Proof.Config
end

