-- ==== Sys2Proof/Machine/Float.lean ====
section
/-! DEFINITION. Number formats, exact values and the one rounding procedure (07_numbers R165 to R171), and the exact reals of the special
functions to 512 fractional bits (R183; log 7). A finite value is a sign, a natural number and a power of two; nothing rounds but `rnd`. -/

namespace Sys2Proof.Machine

/-- Sticky flags (07_numbers R173). -/
abbrev Flags := BitVec 6
def flagNV : Flags := 1
def flagDZ : Flags := 2
def flagOF : Flags := 4
def flagUF : Flags := 8
def flagNX : Flags := 16
def flagST : Flags := 32

/-- A binary format (07_numbers R165, R169): width, significand bits, least exponent, largest finite value as `maxN × 2^maxQ`, the
canonical NaN, and whether it has infinities. -/
structure Fmt where
  w    : Nat
  p    : Nat
  emin : Int
  maxN : Nat
  maxQ : Int
  nan  : Nat
  infs : Bool
  deriving DecidableEq, Repr

def fmtF32 : Fmt := ⟨32, 24, -126, 0xFFFFFF, 104, 0x7FC00000, true⟩
def fmtF16 : Fmt := ⟨16, 11, -14, 2047, 5, 0x7E00, true⟩
def fmtBf16 : Fmt := ⟨16, 8, -126, 255, 120, 0x7FC0, true⟩
def fmtE4m3 : Fmt := ⟨8, 4, -6, 14, 5, 0x7F, false⟩
def fmtE2m1 : Fmt := ⟨4, 2, 0, 3, 1, 0, false⟩

/-- A value: NaN (signalling or not), an infinity, or (−1)^neg × m × 2^e exactly. -/
inductive FVal where
  | nan (sig : Bool)
  | inf (neg : Bool)
  | fin (neg : Bool) (m : Nat) (e : Int)
  deriving DecidableEq, Repr

/-- The value of an encoding (07_numbers R165). -/
def Fmt.decode (f : Fmt) (x : Nat) : FVal :=
  let mb := f.p - 1
  let neg := x / 2 ^ (f.w - 1) % 2 == 1
  let mag := x % 2 ^ (f.w - 1)
  let ex := mag / 2 ^ mb
  let m := mag % 2 ^ mb
  let top := 2 ^ (f.w - f.p) - 1
  if f.infs && ex == top then
    if m = 0 then .inf neg else .nan (m / 2 ^ (mb - 1) % 2 == 0)
  else if f.nan != 0 && !f.infs && mag == f.nan then .nan false
  else if ex = 0 then .fin neg m (f.emin - mb)
  else .fin neg (2 ^ mb + m) (f.emin - mb + (ex - 1 : Nat))

/-- `m × 2^k` rounded to an integer for a value of the given sign (07_numbers R169), and whether it was inexact. -/
def roundNat (mode : RoundMode) (neg : Bool) (m : Nat) (k : Int) : Nat × Bool :=
  match k with
  | .ofNat k => (m * 2 ^ k, false)
  | .negSucc k =>
    let d := 2 ^ (k + 1)
    let q := m / d
    let r := m % d
    let up := match mode with
      | .ne => decide (d < 2 * r) || (2 * r == d && q % 2 == 1)
      | .z => false
      | .d => neg && r != 0
      | .u => !neg && r != 0
    (if up then q + 1 else q, r != 0)

/-- Compares `m × 2^a` with `n × 2^b`. -/
def dyLt (m : Nat) (a : Int) (n : Nat) (b : Int) : Bool :=
  let e := min a b
  decide (m * 2 ^ (a - e).toNat < n * 2 ^ (b - e).toNat)

/-- What `rnd` answers: the significand and its weight, the flags, and whether the magnitude lies above the largest finite value. -/
structure Rounded where
  n   : Nat
  q   : Int
  fl  : Flags
  ovf : Bool
  deriving DecidableEq, Repr

/-- The rounding procedure of 07_numbers R169 on a finite non-zero value. -/
def Fmt.rnd (f : Fmt) (mode : RoundMode) (neg : Bool) (m : Nat) (e : Int) : Rounded :=
  let ex : Int := e + Nat.log2 m
  let q : Int := max ex f.emin - (f.p - 1 : Nat)
  let (n, inexact) := roundNat mode neg m (e - q)
  let qt : Int := ex - (f.p - 1 : Nat)
  let (t, _) := roundNat mode neg m (e - qt)
  let tiny := dyLt t qt 1 f.emin
  { n := n, q := q, ovf := dyLt f.maxN f.maxQ n q,
    fl := (if inexact then flagNX else 0) ||| (if inexact && tiny then flagUF else 0) }

/-- The encoding of `(−1)^neg × n × 2^q` with `q` at or above the weight of the least subnormal and `n ≤ 2^p`. -/
def Fmt.enc (f : Fmt) (neg : Bool) (n : Nat) (q : Int) : Nat :=
  (if neg then 2 ^ (f.w - 1) else 0) + ((q - (f.emin - (f.p - 1 : Nat))).toNat * 2 ^ (f.p - 1) + n) 

/-- The encoding of an infinity of a format that has them. -/
def Fmt.infBits (f : Fmt) (neg : Bool) : Nat :=
  (if neg then 2 ^ (f.w - 1) else 0) + (2 ^ (f.w - f.p) - 1) * 2 ^ (f.p - 1)

/-- The encoding of the largest finite value. -/
def Fmt.maxBits (f : Fmt) (neg : Bool) : Nat := f.enc neg f.maxN f.maxQ

/-- What overflow returns in a format with infinities (07_numbers R170). -/
def Fmt.overflow (f : Fmt) (mode : RoundMode) (neg : Bool) : Nat :=
  match mode, neg with
  | .ne, _ => f.infBits neg
  | .z, _ => f.maxBits neg
  | .d, false => f.maxBits neg
  | .d, true => f.infBits neg
  | .u, false => f.infBits neg
  | .u, true => f.maxBits neg

/-- A result: its encoding and the flags it sets. -/
structure FRes where
  bits : Nat := 0
  fl   : Flags := 0
  deriving DecidableEq, Repr

/-- The encoding of a value in a format with infinities: rounded once, NaN canonical (07_numbers R169 to R171). -/
def Fmt.put (f : Fmt) (mode : RoundMode) (v : FVal) : FRes :=
  match v with
  | .nan _ => ⟨f.nan, 0⟩
  | .inf neg => ⟨f.infBits neg, 0⟩
  | .fin neg m e =>
    if m = 0 then ⟨if neg then 2 ^ (f.w - 1) else 0, 0⟩
    else
      let r := f.rnd mode neg m e
      if r.ovf then ⟨f.overflow mode neg, flagOF ||| flagNX⟩ else ⟨f.enc neg r.n r.q, r.fl⟩

def FVal.isNan : FVal → Bool
  | .nan _ => true
  | _ => false

/-- NV for a signalling NaN operand (07_numbers R171). -/
def FVal.nv : FVal → Flags
  | .nan true => flagNV
  | _ => 0

def FVal.neg : FVal → FVal
  | .nan s => .nan s
  | .inf n => .inf (!n)
  | .fin n m e => .fin (!n) m e

/-- The exact sum (07_numbers R171), and whether it is an invalid operation. -/
def FVal.add (mode : RoundMode) (a b : FVal) : FVal × Bool :=
  match a, b with
  | .nan _, _ => (.nan false, false)
  | _, .nan _ => (.nan false, false)
  | .inf s, .inf t => if s == t then (.inf s, false) else (.nan false, true)
  | .inf s, _ => (.inf s, false)
  | _, .inf t => (.inf t, false)
  | .fin s m e, .fin t n f =>
    if m = 0 && n = 0 then (.fin (if s == t then s else mode == .d) 0 0, false)
    else
      let g := min e f
      let x : Int := (if s then -1 else 1) * (m * 2 ^ (e - g).toNat : Nat) + (if t then -1 else 1) * (n * 2 ^ (f - g).toNat : Nat)
      if x = 0 then (.fin (mode == .d) 0 0, false) else (.fin (decide (x < 0)) x.natAbs g, false)

/-- The exact product (07_numbers R171), and whether it is an invalid operation. -/
def FVal.mul (a b : FVal) : FVal × Bool :=
  match a, b with
  | .nan _, _ => (.nan false, false)
  | _, .nan _ => (.nan false, false)
  | .inf s, .inf t => (.inf (s != t), false)
  | .inf s, .fin t m _ => if m = 0 then (.nan false, true) else (.inf (s != t), false)
  | .fin s m _, .inf t => if m = 0 then (.nan false, true) else (.inf (s != t), false)
  | .fin s m e, .fin t n f => (.fin (s != t) (m * n) (if m = 0 || n = 0 then 0 else e + f), false)

def nvIf (b : Bool) : Flags := if b then flagNV else 0

/-- a + b, rounded once. -/
def Fmt.addBits (f : Fmt) (mode : RoundMode) (a b : Nat) : FRes :=
  let x := f.decode a
  let y := f.decode b
  let (v, iv) := x.add mode y
  let r := f.put mode v
  ⟨r.bits, r.fl ||| x.nv ||| y.nv ||| nvIf iv⟩

/-- a − b, rounded once to nearest even. -/
def Fmt.subBits (f : Fmt) (a b : Nat) : FRes :=
  let x := f.decode a
  let y := f.decode b
  let (v, iv) := x.add .ne y.neg
  let r := f.put .ne v
  ⟨r.bits, r.fl ||| x.nv ||| y.nv ||| nvIf iv⟩

/-- a × b, rounded once. -/
def Fmt.mulBits (f : Fmt) (mode : RoundMode) (a b : Nat) : FRes :=
  let x := f.decode a
  let y := f.decode b
  let (v, iv) := x.mul y
  let r := f.put mode v
  ⟨r.bits, r.fl ||| x.nv ||| y.nv ||| nvIf iv⟩

/-- a × b + c, rounded once. -/
def Fmt.fmaBits (f : Fmt) (mode : RoundMode) (a b c : Nat) : FRes :=
  let x := f.decode a
  let y := f.decode b
  let z := f.decode c
  let (p, iv) := x.mul y
  let (v, iw) := p.add mode z
  let r := f.put mode v
  ⟨r.bits, r.fl ||| x.nv ||| y.nv ||| z.nv ||| nvIf (iv || iw)⟩

/-- FP32 encodings in the order of fmin and fmax, −0 below +0 (07_numbers R175). -/
def f32Key (x : Nat) : Int := if x / 2 ^ 31 % 2 = 1 then -(x % 2 ^ 31 : Nat) - 1 else (x % 2 ^ 31 : Nat)
/-- FP32 encodings in the order of their values, −0 equal to +0. -/
def f32Val (x : Nat) : Int := if x / 2 ^ 31 % 2 = 1 then -(x % 2 ^ 31 : Nat) else (x % 2 ^ 31 : Nat)

def isNanF32 (x : Nat) : Bool := (fmtF32.decode x).isNan

/-- fmin (`max` false) and fmax (`max` true) of 07_numbers R175. -/
def fminmax (max : Bool) (a b : Nat) : FRes :=
  let fl := (fmtF32.decode a).nv ||| (fmtF32.decode b).nv
  match isNanF32 a, isNanF32 b with
  | true, true => ⟨0x7FC00000, fl⟩
  | true, false => ⟨b, fl⟩
  | false, true => ⟨a, fl⟩
  | false, false => ⟨if max then (if f32Key a < f32Key b then b else a) else (if f32Key b < f32Key a then b else a), fl⟩

/-- fcmp (07_numbers R178). -/
def fcmpBits (k : FCond) (a b : Nat) : Bool × Flags :=
  let x := fmtF32.decode a
  let y := fmtF32.decode b
  let un := x.isNan || y.isNan
  let q := x.nv ||| y.nv
  let ord := nvIf un
  match k with
  | .eq => (!un && f32Val a == f32Val b, q)
  | .ne => (un || f32Val a != f32Val b, q)
  | .lt => (!un && decide (f32Val a < f32Val b), ord)
  | .le => (!un && decide (f32Val a ≤ f32Val b), ord)
  | .gt => (!un && decide (f32Val a > f32Val b), ord)
  | .ge => (!un && decide (f32Val a ≥ f32Val b), ord)
  | .un => (un, q)
  | .ord => (!un, q)

/-- fclass (07_numbers R179). -/
def fclassBits (a : Nat) : Nat :=
  match fmtF32.decode a with
  | .nan true => 1
  | .nan false => 2
  | .inf true => 4
  | .inf false => 512
  | .fin s m _ =>
    if m = 0 then (if s then 32 else 64)
    else if m < 2 ^ 23 then (if s then 16 else 128)
    else (if s then 8 else 256)

/-- frnd (07_numbers R180). -/
def frndBits (mode : RoundMode) (a : Nat) : FRes :=
  match fmtF32.decode a with
  | .nan s => ⟨0x7FC00000, nvIf s⟩
  | .inf _ => ⟨a, 0⟩
  | .fin s m e =>
    if m = 0 then ⟨a, 0⟩
    else
      let (n, _) := roundNat mode s m e
      ⟨(fmtF32.put .z (.fin s n 0)).bits, 0⟩

/-- Both elements of a packed 16-bit operation (07_numbers R181). -/
def packed2 (f : Nat → Nat → Nat → FRes) (a b c : Nat) : FRes :=
  let lo := f (a % 2 ^ 16) (b % 2 ^ 16) (c % 2 ^ 16)
  let hi := f (a / 2 ^ 16 % 2 ^ 16) (b / 2 ^ 16 % 2 ^ 16) (c / 2 ^ 16 % 2 ^ 16)
  ⟨lo.bits + 2 ^ 16 * hi.bits, lo.fl ||| hi.fl⟩

/-! Special functions (07_numbers R183). A value that is not exact is given as `2 × floor + 1` at half the weight, so that `rnd` rounds it
as it would the exact real. -/

/-- Fractional bits of the working precision. -/
def fxB : Nat := 512

/-- The integer square root, by its bits from `2^(i − 1)` down. -/
def isqrt (x : Nat) : Nat → Nat → Nat
  | 0, r => r
  | i + 1, r => if (r + 2 ^ i) * (r + 2 ^ i) ≤ x then isqrt x i (r + 2 ^ i) else isqrt x i r

/-- Σ z^(2j+1) / (2j+1), alternating or not, for z = n/d, to `fxB` bits: atanh or atan. -/
def atanSeries (alt : Bool) (n2 d2 : Nat) : Nat → Nat → Nat → Int
  | 0, _, _ => 0
  | k + 1, j, t =>
    let term : Int := (t / (2 * j + 1) : Nat)
    (if alt && j % 2 == 1 then -term else term) + atanSeries alt n2 d2 k (j + 1) (t * n2 / d2)

/-- ln 2 × 2^fxB. -/
def fxLn2 : Nat := (2 * atanSeries false 1 9 170 0 (2 ^ fxB / 3)).toNat
/-- π × 2^fxB. -/
def fxPi : Nat := (16 * atanSeries true 1 25 120 0 (2 ^ fxB / 5) - 4 * atanSeries true 1 (239 * 239) 40 0 (2 ^ fxB / 239)).toNat

/-- Σ x^j / j! from j on, with the running term. -/
def expSeries (x : Nat) : Nat → Nat → Nat → Nat
  | 0, _, _ => 0
  | k + 1, j, t => t + expSeries x k (j + 1) (t * x / 2 ^ fxB / (j + 1))

/-- The alternating series of the sine, with the running term. -/
def sinSeries (x2 : Nat) : Nat → Nat → Nat → Int
  | 0, _, _ => 0
  | k + 1, j, t => (if j % 2 == 1 then -(t : Int) else t) + sinSeries x2 k (j + 1) (t * x2 / 2 ^ fxB / ((2 * j + 2) * (2 * j + 3)))

/-- An inexact magnitude `r × 2^e`, marked so. -/
def inexactFin (neg : Bool) (r : Nat) (e : Int) : FVal := .fin neg (2 * r + 1) (e - 1)

/-- 1 / (m × 2^e). -/
def rcpVal (neg : Bool) (m : Nat) (e : Int) : FVal :=
  let k := 64 + Nat.log2 m
  let r := 2 ^ k / m
  .fin neg (2 * r + (if 2 ^ k % m = 0 then 0 else 1)) (-(k : Int) - e - 1)

/-- √(m × 2^e). -/
def sqrtVal (m : Nat) (e : Int) : FVal :=
  let odd := e % 2 == 1
  let m' := (if odd then 2 * m else m) * 2 ^ 80
  let e' := (if odd then e - 1 else e) - 80
  let r := isqrt m' 64 0
  .fin false (2 * r + (if r * r = m' then 0 else 1)) (e' / 2 - 1)

/-- 1 / √(m × 2^e). -/
def rsqVal (m : Nat) (e : Int) : FVal :=
  let odd := e % 2 == 1
  let m' := if odd then 2 * m else m
  let e' := if odd then e - 1 else e
  let r := isqrt (2 ^ 160 / m') 81 0
  .fin false (2 * r + (if r * r * m' = 2 ^ 160 then 0 else 1)) (-80 - e' / 2 - 1)

/-- 2^(±m × 2^e). -/
def exp2Val (neg : Bool) (m : Nat) (e : Int) : FVal :=
  if m = 0 then .fin false 1 0
  else if (7 : Int) < e + Nat.log2 m then (if neg then inexactFin false 1 (-400) else .fin false 1 400)
  else
    let a : Int := (if neg then -1 else 1) * (m * 2 ^ (e + fxB).toNat : Nat)
    let n := a / (2 ^ fxB : Nat)
    let f := (a % (2 ^ fxB : Nat)).toNat
    if f = 0 then .fin false 1 n
    else inexactFin false (expSeries (f * fxLn2 / 2 ^ fxB) 130 0 (2 ^ fxB)) (n - fxB)

/-- log₂ (m × 2^e). The zero that log₂ 1 gives is +0: 07_numbers R183 fixes the sign of a zero result for sin and cos only, and R169 rounds values that are
not 0 (the model's choice, log 48). -/
def log2Val (m : Nat) (e : Int) : FVal :=
  let l := Nat.log2 m
  let n : Int := e + l
  if m = 2 ^ l then .fin (decide (n < 0)) n.natAbs 0
  else
    let a := m - 2 ^ l
    let b := m + 2 ^ l
    let ln := 2 * atanSeries false (a * a) (b * b) 170 0 (2 ^ fxB * a / b)
    let y := n * (2 ^ fxB : Nat) + ln * (2 ^ fxB : Nat) / fxLn2
    inexactFin (decide (y < 0)) y.natAbs (-(fxB : Int))

/-- The sine of π × t / 2^fxB, 0 ≤ t, with the sign the turn gives; none where it is zero. -/
def sinPi (t : Nat) : Option (Bool × FVal) :=
  let one := 2 ^ fxB
  let u := t % one
  let neg := t / one % 2 == 1
  if u = 0 then none
  else
    let w := min u (one - u)
    if 2 * w = one then some (neg, .fin neg 1 0)
    else
      let x := w * fxPi / one
      some (neg, inexactFin neg (sinSeries (x * x / one) 70 0 x).toNat (-(fxB : Int)))

/-- sin(π × ±m × 2^e). -/
def sinVal (neg : Bool) (m : Nat) (e : Int) : FVal :=
  let t := m * 2 ^ (e + fxB).toNat
  match sinPi t with
  | none => .fin neg 0 0
  | some (_, v) => if neg then v.neg else v

/-- cos(π × ±m × 2^e). -/
def cosVal (m : Nat) (e : Int) : FVal :=
  let t := m * 2 ^ (e + fxB).toNat
  match sinPi (t + 2 ^ (fxB - 1)) with
  | none => .fin false 0 0
  | some (_, v) => v

/-- A special function of an FP32 encoding: its table of special operands, else the procedure (07_numbers R183). -/
def specialBits (nan : Flags → FRes) (inf : Bool → FRes) (zero : Bool → FRes) (f : Bool → Nat → Int → Option FVal) (a : Nat) : FRes :=
  match fmtF32.decode a with
  | .nan s => nan (nvIf s)
  | .inf s => inf s
  | .fin s m e =>
    if m = 0 then zero s
    else match f s m e with
      | some v => fmtF32.put .ne v
      | none => nan flagNV

def nanRes (fl : Flags) : FRes := ⟨0x7FC00000, fl⟩
def infRes (neg : Bool) (fl : Flags) : FRes := ⟨fmtF32.infBits neg, fl⟩
def zeroRes (neg : Bool) : FRes := ⟨if neg then 0x80000000 else 0, 0⟩
def oneRes : FRes := ⟨0x3F800000, 0⟩

def rcpBits : Nat → FRes :=
  specialBits nanRes zeroRes (fun s => infRes s flagDZ) (fun s m e => some (rcpVal s m e))
def rsqBits : Nat → FRes :=
  specialBits nanRes (fun s => if s then nanRes flagNV else zeroRes false) (fun s => infRes s flagDZ)
    (fun s m e => if s then none else some (rsqVal m e))
def sqrtBits : Nat → FRes :=
  specialBits nanRes (fun s => if s then nanRes flagNV else infRes false 0) zeroRes
    (fun s m e => if s then none else some (sqrtVal m e))
def exp2Bits : Nat → FRes :=
  specialBits nanRes (fun s => if s then zeroRes false else infRes false 0) (fun _ => oneRes) (fun s m e => some (exp2Val s m e))
def log2Bits : Nat → FRes :=
  specialBits nanRes (fun s => if s then nanRes flagNV else infRes false 0) (fun _ => infRes true flagDZ)
    (fun s m e => if s then none else some (log2Val m e))
def sinBits : Nat → FRes :=
  specialBits nanRes (fun _ => nanRes flagNV) zeroRes (fun s m e => some (sinVal s m e))
def cosBits : Nat → FRes :=
  specialBits nanRes (fun _ => nanRes flagNV) (fun _ => oneRes) (fun _ m e => some (cosVal m e))

/-! Conversions (07_numbers R184, R185). -/

/-- The format of a floating-point type of cvt. -/
def cvtFmt? : CvtTy → Option Fmt
  | .f32 => some fmtF32
  | .f16 => some fmtF16
  | .bf16 => some fmtBf16
  | .e4m3 => some fmtE4m3
  | _ => none

/-- Width and signedness of an integer type of cvt. -/
def cvtInt : CvtTy → Nat × Bool
  | .i32 => (32, true)
  | .n32 => (32, false)
  | .i16 => (16, true)
  | .n16 => (16, false)
  | .i8 => (8, true)
  | .n8 => (8, false)
  | .i4 => (4, true)
  | .i2 => (2, true)
  | .i64 => (64, true)
  | .n64 => (64, false)
  | _ => (32, false)

/-- The signed or unsigned value of the low bits of a word. -/
def intOf (w : Nat) (signed : Bool) (x : Nat) : Int :=
  let y := x % 2 ^ w
  if signed && decide (2 ^ (w - 1) ≤ y) then (y : Int) - (2 ^ w : Nat) else y

/-- The exact value of a source of cvt, whose bits are the low bits of `x` (07_numbers R168). -/
def cvtValue (t : CvtTy) (x : Nat) : FVal :=
  match cvtFmt? t with
  | some f => f.decode (x % 2 ^ f.w)
  | none => let y := intOf (cvtInt t).1 (cvtInt t).2 x; .fin (decide (y < 0)) y.natAbs 0

/-- An integer saturated to lo..hi, and whether it was. -/
def satInt (lo hi y : Int) : Int × Bool := if y < lo then (lo, true) else if hi < y then (hi, true) else (y, false)

/-- The conversion of an exact value to a type: the 64-bit register value (07_numbers R168) and the flags. -/
def cvtConvert (t : CvtTy) (mode : RoundMode) (ns : Bool) (v : FVal) : FRes :=
  match cvtFmt? t with
  | some f =>
    if f.infs then let r := f.put mode v; ⟨r.bits, r.fl ||| v.nv⟩
    else
      let sat (neg finite : Bool) : FRes :=
        let nx := if finite then flagNX else 0
        if ns then ⟨0x7F, flagOF ||| nx⟩ else ⟨f.maxBits neg, flagST ||| nx⟩
      match v with
      | .nan s => ⟨0x7F, nvIf s⟩
      | .inf s => sat s false
      | .fin s m e =>
        if m = 0 then ⟨if s then 0x80 else 0, 0⟩
        else let r := f.rnd mode s m e; if r.ovf then sat s true else ⟨f.enc s r.n r.q, r.fl⟩
  | none =>
    let (w, signed) := cvtInt t
    let lo : Int := if signed then -(2 ^ (w - 1) : Nat) else 0
    let hi : Int := if signed then (2 ^ (w - 1) : Nat) - 1 else (2 ^ w : Nat) - 1
    let out (y : Int) : Nat := (y % (2 ^ 64 : Nat)).toNat
    match v with
    | .nan _ => ⟨0, flagNV⟩
    | .inf s => ⟨out (if s then lo else hi), flagST⟩
    | .fin s m e =>
      let (n, inexact) := roundNat mode s m e
      let y : Int := if s then -(n : Int) else n
      let (r, sat) := satInt lo hi y
      ⟨out r, (if sat then flagST else 0) ||| (if inexact then flagNX else 0)⟩

end Sys2Proof.Machine
end

