-- ==== Sys2Proof/Machine/Flags.lean ====
section
/-! DEFINITION. What integer instructions compute (06_integer R143 to R154): shifts, fields, interleaving, comparisons, the hash, and the
operations of scans. No integer instruction sets a sticky flag (R141); those of floating point are in Sys2Proof/Machine/Float.lean. -/

namespace Sys2Proof.Machine

/-- A mask of 32 lanes from a test. -/
def maskNat (f : Nat → Bool) : Nat → Nat
  | 0 => 0
  | n + 1 => maskNat f n + (if f n then 2 ^ n else 0)
def maskOf (f : Nat → Bool) : BitVec 32 := BitVec.ofNat 32 (maskNat f 32)

/-- sar: a count of 32 or more gives copies of bit 31 (R143). -/
def sarW (a c : Word) : Word := a.sshiftRight c.toNat
/-- rot (R143). -/
def rotW (a c : Word) : Word := a.rotateLeft (c.toNat % 32)
/-- High half of a signed product (R146). -/
def mulhI (a b : Word) : Word := ((a.signExtend 64 * b.signExtend 64) >>> 32).setWidth 32
/-- High half of an unsigned product (R146). -/
def mulhN (a b : Word) : Word := ((a.setWidth 64 * b.setWidth 64) >>> 32).setWidth 32
/-- iabs (R146). -/
def absW (a : Word) : Word := if a.slt 0 then -a else a
def minI (a b : Word) : Word := if a.sle b then a else b
def minN (a b : Word) : Word := if a ≤ b then a else b
def maxI (a b : Word) : Word := if b.sle a then a else b
def maxN (a b : Word) : Word := if b ≤ a then a else b

/-- Leading zero bits among the low n bits (R148). -/
def clzNat (a : Word) : Nat → Nat
  | 0 => 0
  | n + 1 => if a.getLsbD n then 0 else 1 + clzNat a n
def clzW (a : Word) : Word := BitVec.ofNat 32 (clzNat a 32)
/-- Set bits among the low n bits (R148). -/
def popNat (a : Word) : Nat → Nat
  | 0 => 0
  | n + 1 => (if a.getLsbD n then 1 else 0) + popNat a n
def popW (a : Word) : Word := BitVec.ofNat 32 (popNat a 32)
/-- brev (R148). -/
def brevW (a : Word) : Word := maskOf fun i => a.getLsbD (31 - i)

/-- POS and LEN of a field control (R149). -/
def fieldPos (b : Word) : Nat := b.toNat % 256
def fieldLen (b : Word) : Nat := min (b.toNat / 256 % 256) 32
/-- bfe.n32 (R149). -/
def bfeN (a b : Word) : Word := BitVec.ofNat 32 (a.toNat / 2 ^ fieldPos b % 2 ^ fieldLen b)
/-- bfe.i32 (R149). -/
def bfeI (a b : Word) : Word := if fieldLen b = 0 then 0 else BitVec.ofInt 32 (intOf (fieldLen b) true (a.toNat / 2 ^ fieldPos b))
/-- bfi (R149). -/
def bfiW (d a b : Word) : Word :=
  let m : Word := BitVec.ofNat 32 ((2 ^ fieldLen b - 1) * 2 ^ fieldPos b)
  (d &&& ~~~m) ||| (BitVec.ofNat 32 (a.toNat * 2 ^ fieldPos b) &&& m)

/-- Stride and offset of an interleave control (R150). -/
def ilvStr (b : Word) : Nat := b.toNat % 4 + 1
def ilvOfs (b : Word) : Nat := b.toNat / 256 % 32
/-- bilv (R150): bit i of a goes to bit stride × i + offset. -/
def bilvW (a b : Word) : Word :=
  maskOf fun k => decide (ilvOfs b ≤ k) && (k - ilvOfs b) % ilvStr b == 0 && a.getLsbD ((k - ilvOfs b) / ilvStr b)
/-- bdlv (R150). -/
def bdlvW (a b : Word) : Word := maskOf fun i => decide (ilvStr b * i + ilvOfs b ≤ 31) && a.getLsbD (ilvStr b * i + ilvOfs b)

/-- Integer conditions (02_encoding R44). -/
def icond (k : ICond) (a b : Word) : Bool :=
  match k with
  | .eq => a == b
  | .ne => a != b
  | .ltI => a.slt b
  | .leI => a.sle b
  | .gtI => b.slt a
  | .geI => b.sle a
  | .ltN => decide (a < b)
  | .leN => decide (a ≤ b)
  | .gtN => decide (b < a)
  | .geN => decide (b ≤ a)

/-- mix32 (R154). -/
def mix32 (a b : Word) : Word :=
  let x := a ^^^ (b * 0x9E3B71A5)
  let x := x + 0x3C6EF372
  let x := x ^^^ (x >>> 16)
  let x := x * 0x6A5D39C3
  let x := x ^^^ (x >>> 15)
  let x := x * 0xB45F2E1B
  x ^^^ (x >>> 16)

/-- lred (R160): the operation over the lanes of a list. -/
def lred (op : Word → Word → Word) (f : Nat → Word) : List Nat → Word
  | [] => 0
  | l :: ls => ls.foldl (fun r m => op r (f m)) (f l)

/-- lscan (R160): the running value at lane `l`, over the lanes of a list in order; a head starts a new segment. -/
def lscan (op : Word → Word → Word) (f : Nat → Word) (head : Nat → Bool) (l : Nat) (acc : Option Word) : List Nat → Word
  | [] => acc.getD 0
  | m :: ms =>
    let x := match acc with
      | none => f m
      | some r => if head m then f m else op r (f m)
    if m = l then x else lscan op f head l (some x) ms

end Sys2Proof.Machine
end

