-- ==== Sys2Proof/Machine/SMap.lean ====
section
/-! DEFINITION. Sparse data by key in one canonical form: a list of key and value pairs, keys strictly rising, no value equal to the
default that an unlisted key reads as. Equal contents are therefore equal lists. Memories, register files and tables are all of this form. -/

namespace Sys2Proof

/-- The value at a key, or the default. -/
def smGet {α : Type} (d : α) (m : List (Nat × α)) (k : Nat) : α :=
  match m with
  | [] => d
  | (a, v) :: t => if a = k then v else smGet d t k

/-- Values from key `a` on, as pairs, leaving out those equal to the default. -/
def smRun {α : Type} [DecidableEq α] (d : α) (a : Nat) : List α → List (Nat × α)
  | [] => []
  | v :: t => if v = d then smRun d (a + 1) t else (a, v) :: smRun d (a + 1) t

/-- Writes a run of values at consecutive keys from `a` on. -/
def smPuts {α : Type} [DecidableEq α] (d : α) (m : List (Nat × α)) (a : Nat) (vs : List α) : List (Nat × α) :=
  m.filter (fun x => x.1 < a) ++ smRun d a vs ++ m.filter (fun x => a + vs.length ≤ x.1)

/-- Writes one value. -/
def smPut {α : Type} [DecidableEq α] (d : α) (m : List (Nat × α)) (k : Nat) (v : α) : List (Nat × α) :=
  smPuts d m k [v]

/-- The values at `n` consecutive keys from `a` on. -/
def smGets {α : Type} (d : α) (m : List (Nat × α)) (a n : Nat) : List α :=
  (List.range n).map fun i => smGet d m (a + i)

/-- Sets `n` consecutive keys from `a` on back to the default. -/
def smClear {α : Type} (m : List (Nat × α)) (a n : Nat) : List (Nat × α) :=
  m.filter fun x => x.1 < a || a + n ≤ x.1

/-- Gives `n` consecutive keys from `a` on the entries of another map. -/
def smTake {α : Type} (m w : List (Nat × α)) (a n : Nat) : List (Nat × α) :=
  m.filter (fun x => x.1 < a) ++ w.filter (fun x => a ≤ x.1 && x.1 < a + n) ++ m.filter (fun x => a + n ≤ x.1)

/-- Keys strictly rising, every key at or above `lo`, no default value listed. -/
def smWf {α : Type} [DecidableEq α] (d : α) (lo : Nat) : List (Nat × α) → Bool
  | [] => true
  | (a, v) :: t => decide (lo ≤ a) && decide (v ≠ d) && smWf d (a + 1) t

end Sys2Proof
end

