-- ==== Sys2Proof/Machine/State.lean ====
section
/-! DEFINITION. The state of the package as plain data: everything the spec gives the machine, under the names the spec uses, and the few
fields of the model's own (the issue cursor, the agenda, the journal of values, counters of identifiers), which say so. Sparse tables are
the canonical lists of Sys2Proof/Machine/SMap.lean. `State.reset` is the package before its power-up (16_stack R357, stage AON). -/

namespace Sys2Proof.Machine

/-- Handler mode of a path (05_events R128, R134). -/
inductive Hmode where
  | none
  | trap
  | pre
  deriving DecidableEq, Repr, Inhabited

/-- What a HELD path waits for (04_control R91). Operations and shootdowns are named by their identifiers; `since` is a length of the
journal; `frame` is where a location in global memory lay at its read; `keys` are the keys of a regroup by lane, as they stood before its group issued;
`npc` and `nwpos` are the place after a word at which the path is held in its own place; `past` are the places where a watched location lay before, each
with the lengths of the journal between which it lay there; `trapBusy` waits to issue its trapping group again, `trapKept` to take a trap, of a class, CODE
and INFO, that its group would not raise again. -/
inductive Wait where
  | grp (g : Nat)
  | events (mask : BitVec 8) (start : Nat)
  | mwait (cond : MCond) (wide : Bool) (addr : BitVec 64) (c : BitVec 64) (since : Nat) (frame : Nat) (past : List (Nat × Nat × Nat))
  | fenceE (ops : List Nat)
  | tlbSync (ks : List Nat)
  | tbrRetire (slot : Nat)
  | regroup (m : BitVec 32) (d : BitVec 7) (keys : List (BitVec 32)) (npc : BitVec 48) (nwpos : Nat)
  | seqBar (b : BitVec 4) (npc : BitVec 48) (nwpos : Nat)
  | tokTake (t : BitVec 4)
  | range (ops : List Nat)
  | trapBusy
  | trapKept (trap : Nat × Nat × BitVec 64) (npc : BitVec 48) (nwpos : Nat)
  | preDone (resume : BitVec 64)
  deriving DecidableEq, Repr

/-- A parked path's or sequencer's fault (10_translation R244, R245): KIND, CODE, the faulting VA, the access, the unfinished mask,
its fault identifier once it has one, its time, a pf.resume action taken while the warp is saved, the place after the chain group, and the trap that the
path takes once it resumes, by class, CODE and INFO (05_events R127). -/
structure Park where
  kind   : Nat := 1
  code   : Nat := 0
  va     : BitVec 64 := 0
  access : Nat := 0
  mask   : BitVec 32 := 0
  fid    : Option Nat := none
  time   : BitVec 64 := 0
  action : Option Nat := none
  npc    : BitVec 48 := 0
  nwpos  : Nat := 0
  trap   : Option (Nat × Nat × BitVec 64) := none
  deriving DecidableEq, Repr, Inhabited

/-- Path states (04_control R91); a JOIN path keeps the place after its join, and a STOPPED path whether it left READY or JOIN
(17_debug R368). -/
inductive PState where
  | ready
  | join (npc : BitVec 48) (nwpos : Nat)
  | held (w : Wait)
  | parked (k : Park)
  | stopped (join : Option (BitVec 48 × Nat))
  deriving DecidableEq, Repr, Inhabited

/-- A warp's register files (01_machine R14): lane registers by 32 × register + lane, uniform registers, lane predicates as lane masks,
sticky flags and return depths by lane. -/
structure Regs where
  v     : List (Nat × BitVec 32) := []
  u     : List (Nat × BitVec 32) := []
  p     : List (Nat × BitVec 32) := []
  flags : List (Nat × BitVec 6) := []
  rdep  : List (Nat × BitVec 7) := []
  deriving DecidableEq, Repr, Inhabited

/-- A path (04_control R91). A path is live while its mask holds a lane. `tpc` to `tnwpos` are the trapped place and the chain group
after it, of a path in trap handler mode (05_events R131); `issued` is the step of its latest issue; `fenced` the order point of its
latest fence.t; `replay` the lanes that a replayed chain group is for (10_translation R244), `snap`
the registers as they stood before that group issued (02_encoding R38), `whole` the lanes it issued for first, `rpos` the place in a stream or fibre that a parked pop read at (12_streams R279) and `phase` how far a group of
several words has come: 0 while its memory word is not complete, then one more than the number of its last words done; `after` the place after such a
group while one of its last words but the very last acts; `groups` the chain groups since its latest
trace packet (17_debug R379); `step` is 1 when a debugger steps it and 2 once the chain group at `spc` and `swpos` issued (17_debug R375). -/
structure Path where
  id     : Nat := 0
  pc     : BitVec 48 := 0
  wpos   : Nat := 0
  mask   : BitVec 32 := 0
  st     : PState := .ready
  hmode  : Hmode := .none
  tpc    : BitVec 48 := 0
  twpos  : Nat := 0
  tnpc   : BitVec 48 := 0
  tnwpos : Nat := 0
  issued : Nat := 0
  fenced : Nat := 0
  replay : Option (BitVec 32) := none
  snap   : Option Regs := none
  whole  : BitVec 32 := 0
  rpos   : Option (BitVec 32) := none
  phase  : Nat := 0
  after  : Option (BitVec 48 × Nat) := none
  groups : Nat := 0
  step   : Nat := 0
  spc    : BitVec 48 := 0
  swpos  : Nat := 0
  deriving DecidableEq, Repr, Inhabited

/-- An event register (05_events R114); `since` is the journal's length at its arm, and `frame` where an object in global memory lay at the arm's
ordered read (R116). `past` are the places where the object lay before, each with the lengths of the journal between which it lay there. -/
structure EvReg where
  kind    : EvKind := .dline
  armed   : Bool := false
  pend    : Bool := false
  val     : BitVec 32 := 0
  obj     : BitVec 64 := 0
  arg     : BitVec 64 := 0
  handler : BitVec 64 := 0
  since   : Nat := 0
  frame   : Nat := 0
  past    : List (Nat × Nat × Nat) := []
  deriving DecidableEq, Repr, Inhabited

/-- States of a stream register (12_streams R274). -/
inductive StreamSt where
  | closed
  | affine
  | indirect
  | closing
  deriving DecidableEq, Repr, Inhabited

/-- A stream register (12_streams R274); `op` is the engine operation of a store stream's hull, `ahead` how far the FIFO is filled. -/
structure StreamReg where
  abase : BitVec 64 := 0
  ibase : BitVec 64 := 0
  istr  : BitVec 32 := 0
  lstr  : BitVec 32 := 0
  count : BitVec 32 := 0
  pos   : BitVec 32 := 0
  isgn  : Bool := false
  sext  : Bool := false
  dir   : Bool := false
  size  : BitVec 2 := 0
  st    : StreamSt := .closed
  op    : Option Nat := none
  ahead : Nat := 0
  deriving DecidableEq, Repr, Inhabited

/-- A fibre register (12_streams R282). -/
structure FibreReg where
  val    : BitVec 64 := 0
  crd    : BitVec 64 := 0
  cur    : BitVec 32 := 0
  fin    : BitVec 32 := 0
  size   : BitVec 2 := 0
  sext   : Bool := false
  isOpen : Bool := false
  ahead  : Nat := 0
  deriving DecidableEq, Repr, Inhabited

/-- The fault mask record of a warp (08_memory R197); `seen` says that the warp had a lane fault, whose address and time it holds. -/
structure FaultMask where
  seen  : Bool := false
  codes : List (Nat × BitVec 8) := []
  addr  : BitVec 64 := 0
  time  : BitVec 64 := 0
  deriving DecidableEq, Repr, Inhabited

/-- States of a warp's pre-emption machine (05_events R133). -/
inductive PreSt where
  | run
  | pending
  | hnd
  | drain
  | hard
  | saved
  | resumed
  deriving DecidableEq, Repr, Inhabited

/-- A warp's pre-emption machine: its state, its mask, the hard-save time, the reason, a second request held for RUN with its own hard-save time, and whether the
warp was saved by pre.done. -/
structure Preempt where
  st     : PreSt := .run
  mask   : Bool := false
  hard   : BitVec 64 := 0
  reason : PreReason := .stacks
  second : Option (PreReason × BitVec 64) := none
  byDone : Bool := false
  hnd    : Bool := false
  deriving DecidableEq, Repr, Inhabited

/-- The halt record (17_debug R376). -/
structure HaltRec where
  cause : Nat := 0
  w     : Nat := 0
  lane  : Nat := 0
  path  : Nat := 0
  word1 : BitVec 64 := 0
  time  : BitVec 64 := 0
  pc    : BitVec 48 := 0
  wpos  : Nat := 0
  deriving DecidableEq, Repr, Inhabited

/-- Trace state of a warp (17_debug R377 to R379); the ring's WPTR, RPTR and DROPS are in memory. -/
structure Trace where
  on      : Bool := false
  base    : BitVec 64 := 0
  logn    : Nat := 0
  ev      : Bool := false
  last    : BitVec 64 := 0
  dropped : Bool := false
  deriving DecidableEq, Repr, Inhabited

/-- Kinds of access that a watch predicate tells apart (17_debug R366). -/
inductive AccKind where
  | read
  | write
  | atomic
  deriving DecidableEq, Repr, Inhabited

/-- What the chain group in progress did that watch predicates look at (17_debug R366): the lane accesses that passed their checks,
the registers written with their lanes, and the flags set in each lane. The model's own. -/
structure Obs where
  accs  : List (Nat × BitVec 64 × Nat × AccKind × BitVec 64) := []
  regs  : List (Nat × BitVec 32) := []
  data  : List (Nat × BitVec 32) := []
  flags : List (Nat × BitVec 6) := []
  deriving DecidableEq, Repr, Inhabited

/-- A warp. `stack` is the key of its lanes' stacks (08_memory R203), `cur` is the path that is issuing, `paths` the others; `overflow` lists the identifiers that are not resident, in order; `stops`
the lanes that leave their held path as STOPPED ones once it is at a chain-group boundary, and the paths that are STOPPED then, as 32 more than their
identifiers, with their halt records (17_debug R368); `leaves` says that it
exited and has still to leave its groups (03_tasks R77). `board` is
what its scoreboard says in this step: the paths whose next chain group is fetched and has its operands ready (01_machine R16). -/
structure Warp where
  gid      : Nat := 0
  w        : Nat := 0
  slot     : Nat := 0
  stack    : Nat := 0
  track    : Nat := 0
  regs     : Regs := {}
  cur      : Path := {}
  paths    : List Path := []
  overflow : List Nat := []
  ev       : List (Nat × EvReg) := []
  streams  : List (Nat × StreamReg) := []
  fibres   : List (Nat × FibreReg) := []
  fm       : FaultMask := {}
  pre      : Preempt := {}
  beams    : BitVec 64 := 0
  halt     : HaltRec := {}
  halted   : Bool := false
  trc      : Trace := {}
  top      : Bool := true
  issued   : Nat := 0
  age      : Nat := 0
  exited   : Bool := false
  obs      : Obs := {}
  stops    : List (Nat × HaltRec) := []
  leaves   : Bool := false
  board    : List Nat := []
  deriving DecidableEq, Repr, Inhabited

/-- A matrix operation (13_matrix R301, R302). -/
inductive MxKind where
  | mm (f : MmFmt) (acc : Bool) (k : Kb)
  | sp (f : MmFmt) (acc : Bool) (k : Keep)
  | xpose
  | perm
  | rsumF32
  | rsumI32
  | zero
  | scacc
  | cvtF32I32
  | cvtI32F32
  deriving DecidableEq, Repr, Inhabited

/-- A matrix operation in the array queue: its kind, destination and source tile, the operand addresses read at issue, and its source
bytes as offsets and lengths in the gang's allocation, with what they held at its start event (R296). -/
structure MxOp where
  kind : MxKind := .zero
  d    : Nat := 0
  a    : Nat := 0
  pa   : BitVec 64 := 0
  pb   : BitVec 64 := 0
  pc   : BitVec 48 := 0
  srcs : List (Nat × Nat) := []
  snap : List Host.Cell := []
  deriving DecidableEq, Repr, Inhabited

/-- A sequencer barrier (13_matrix R292): PHASE, SEQ, MASK, the arrived warps and each warp's arrival phase. -/
structure Bar where
  phase   : BitVec 32 := 0
  arrived : BitVec 32 := 0
  aphase  : List (Nat × BitVec 32) := []
  seq     : Bool := false
  mask    : BitVec 32 := 0
  deriving DecidableEq, Repr, Inhabited

/-- An open loop of the sequencer (13_matrix R303). -/
structure Loop where
  pc    : BitVec 48 := 0
  wpos  : Nat := 0
  count : BitVec 32 := 0
  trip  : BitVec 32 := 0
  reg   : BitVec 6 := 0
  deriving DecidableEq, Repr, Inhabited

/-- What the sequencer is doing (13_matrix R288 to R292, R410). -/
inductive SeqSt where
  | absent
  | running
  | atBar (b : Nat)
  | atTok (t : Nat)
  | parked (k : Park)
  | ended
  deriving DecidableEq, Repr, Inhabited

/-- The matrix sequencer of a gang (13_matrix R288); `stop` marks a stop at the next word boundary (pre-emption, R291), `lead` that it issues
before the warps of its resumed gang (R291), `halted` a debugger's halt (17_debug R369). -/
structure Seqr where
  st     : SeqSt := .absent
  pc     : BitVec 48 := 0
  wpos   : Nat := 0
  u      : List (Nat × BitVec 32) := []
  loops  : List Loop := []
  stop   : Bool := false
  lead   : Bool := false
  halted : Bool := false
  deriving DecidableEq, Repr, Inhabited

/-- Where a gang stands. -/
inductive GangSt where
  | queued
  | resident
  | saved
  | exited
  deriving DecidableEq, Repr, Inhabited

/-- A gang: identity, place, beam pool, sequencer, tokens (0 the matrix side, w + 1 warp w; `passing` those given and not yet passed),
barriers, the array queue and the operation in the array. `since` and `sinceP` are the time and period of its claim or latest save, `saves` whether it
was saved before, and `held` the period in which its activity was over budget on every core that could take it, so that it waits for the next (R69). -/
structure Gang where
  gid      : Nat := 0
  asid     : Nat := 0
  task     : Nat := 0
  index    : Nat := 0
  inst     : Nat := 0
  claim    : Nat := 0
  prio     : Nat := 0
  alm      : Nat := 0
  aff      : Nat := 0
  st       : GangSt := .queued
  stk      : Nat := 0
  core     : Nat := 0
  base     : Nat := 0
  localk   : Nat := 0
  half     : Nat := 0
  yoked    : Bool := false
  pool     : Nat := 0
  poolHeld : Bool := false
  regsN    : Nat := 0
  warpsN   : Nat := 0
  mx       : Bool := false
  seq      : Seqr := {}
  tokens   : List (Nat × Nat) := []
  passing  : List (Nat × Nat) := []
  bars     : List (Nat × Bar) := []
  queue    : List MxOp := []
  array    : Option MxOp := none
  since    : BitVec 64 := 0
  sinceP   : Nat := 0
  saves    : Bool := false
  held     : Option Nat := none
  halted   : Bool := false
  deriving DecidableEq, Repr, Inhabited

/-- A group of an instance (03_tasks R75 to R77): members, arrivals and gone warps by 32 × gang index + warp, the phase and each
member's arrival phase. -/
structure Group where
  members : List Nat := []
  arrived : List Nat := []
  gone    : List Nat := []
  phase   : BitVec 32 := 0
  aphase  : List (Nat × BitVec 32) := []
  deriving DecidableEq, Repr, Inhabited

/-- The fields of a task entry that the claim reads (03_tasks R60, R61). -/
structure Entry where
  code    : BitVec 64 := 0
  mcode   : BitVec 64 := 0
  arg     : BitVec 64 := 0
  grec    : BitVec 64 := 0
  tblist  : BitVec 64 := 0
  gangs   : Nat := 0
  ngrec   : Nat := 0
  warps   : Nat := 0
  regs    : Nat := 0
  localk  : Nat := 0
  pool    : Nat := 0
  ngroups : Nat := 0
  nin     : Nat := 0
  nout    : Nat := 0
  prio    : Nat := 0
  alm     : Nat := 0
  aff     : Nat := 0
  ctl     : BitVec 16 := 0
  resv    : Bool := false
  deriving DecidableEq, Repr, Inhabited

/-- A running instance of a task entry (03_tasks R65 to R67). `order` is the point of its claim in the order, `time` and `period` its time and
the number of the period then; `cosets` lists the co-residency sets of its gangs by index (R72). -/
structure Inst where
  id     : Nat := 0
  asid   : Nat := 0
  task   : Nat := 0
  entry  : Entry := {}
  ins    : List Nat := []
  outs   : List Nat := []
  groups : List (Nat × Group) := []
  order  : Nat := 0
  time   : BitVec 64 := 0
  period : Nat := 0
  cosets : List (List Nat) := []
  ended  : Bool := false
  deriving DecidableEq, Repr, Inhabited

/-- ASID states (10_translation R253). -/
inductive AsidSt where
  | free
  | bound
  | purging
  deriving DecidableEq, Repr, Inhabited

/-- What the fault record of a context's end holds (05_events R132). -/
structure EndRec where
  cls   : Nat := 0
  code  : Nat := 0
  hmode : Nat := 0
  path  : Nat := 0
  task  : Nat := 0
  gang  : Nat := 0
  warp  : BitVec 32 := 0
  tmask : BitVec 32 := 0
  tpc   : BitVec 64 := 0
  info  : BitVec 64 := 0
  time  : BitVec 64 := 0
  deriving DecidableEq, Repr, Inhabited

/-- A context, by ASID (10_translation R253; 15_power R344; 16_stack R351). -/
structure Ctx where
  st     : AsidSt := .free
  priv   : Bool := false
  root   : BitVec 64 := 0
  acks   : BitVec 3 := 0
  yoked  : Bool := false
  ttbase : BitVec 64 := 0
  tbbase : BitVec 64 := 0
  tvbase : BitVec 64 := 0
  ctxfr  : BitVec 64 := 0
  fmbase : BitVec 64 := 0
  ending : Option EndRec := none
  deriving DecidableEq, Repr, Inhabited

/-- A cached translation (10_translation R239): tag, page, rights of the leaf, and the point of its source read. -/
structure TlbEntry where
  asid : Nat := 0
  page : Nat := 0
  big  : Bool := false
  pa   : Nat := 0
  w    : Bool := false
  x    : Bool := false
  sup  : Bool := false
  d    : Bool := false
  at_  : Nat := 0
  deriving DecidableEq, Repr, Inhabited

/-- A walk-cache entry (10_translation R239): the pointer entry read at a level for the VA bits above it, and the point of the read. -/
structure WEntry where
  asid  : Nat := 0
  level : Nat := 0
  pre   : Nat := 0
  val   : BitVec 64 := 0
  at_   : Nat := 0
  deriving DecidableEq, Repr, Inhabited

/-- A cached packet (09_ordering R230) with its fill point. -/
structure ILine where
  asid : Nat := 0
  pc   : BitVec 48 := 0
  w0   : BitVec 32 := 0
  w1   : BitVec 32 := 0
  w2   : BitVec 32 := 0
  at_  : Nat := 0
  deriving DecidableEq, Repr, Inhabited

/-- A watch predicate (17_debug R365). -/
structure Wp where
  kind  : Nat := 0
  acc   : BitVec 3 := 0
  neg   : Bool := false
  en    : Bool := false
  act   : Nat := 0
  trc   : Bool := false
  asid  : BitVec 12 := 0
  any   : Bool := false
  lo    : BitVec 64 := 0
  hi    : BitVec 64 := 0
  vmask : BitVec 32 := 0
  hits  : BitVec 32 := 0
  since : Nat := 0
  deriving DecidableEq, Repr, Inhabited

/-- The carve-out machine (08_memory R202). -/
inductive Carve where
  | stable
  | growing (n : Nat)
  | shrinking (n : Nat)
  deriving DecidableEq, Repr, Inhabited

/-- A vertical bundle of one direction (16_stack R353, R354): whether its receiver HOLDs, the number it asked to have re-sent, the wire that the check
blamed, and whether the stitch map was updated since; how many beats the sender has still to send again; the expected number; the data of the beats sent and not yet delivered, the expected one first; failed wires (0 to 63 data, 64 to
79 sequence and check, 80 to 83 spares); the stitch map, from a failed wire to its spare; bursts re-sent; the beats delivered and the latest one's data. -/
structure Bundle where
  hold     : Bool := false
  ask      : Option (BitVec 8) := none
  blame    : Nat := 0
  fixed    : Bool := false
  again    : Nat := 0
  expect   : BitVec 8 := 0
  out      : List (BitVec 64) := []
  failed   : List Nat := []
  map      : List (Nat × Nat) := []
  resent   : BitVec 40 := 0
  got      : BitVec 64 := 0
  last     : BitVec 64 := 0
  deriving DecidableEq, Repr, Inhabited

/-- What a core keeps for a co-residency set that has waited a period (03_tasks R72): a gang of the set; how many gangs of it the core could take, and what
each of them needs; and what gangs of others may still take there, which was free when the Q3 began to keep what frees. -/
structure Kept where
  gid    : Nat := 0
  n      : Nat := 0
  warps  : Nat := 0
  localk : Nat := 0
  mx     : Bool := false
  gangsFree : Nat := 0
  warpsFree : Nat := 0
  mxFree    : Nat := 0
  spans     : List (Nat × Nat) := []
  deriving DecidableEq, Repr, Inhabited

/-- A chain group or sequencer word that issued on a core lately: the cycle (%cyc) of its issue, the cycles that its lane word takes for each lane, 0 where it
has none, the lanes in which that acts, and whether it has a uniform word (01_machine R16, 07_numbers R191, 15_power R336, R342). -/
structure Made where
  cyc  : Nat := 0
  slow : Nat := 0
  mask : BitVec 32 := 0
  uni  : Bool := false
  deriving DecidableEq, Repr, Inhabited

/-- A core. `bundle` brings data up to it, `bundleDn` takes its own down to the base tier (16_stack R353); `mxlast` is the gang whose matrix operation started last in its array (13_matrix R289), `used` the cycles charged in the period
by activity, and by 64 + engine class (03_tasks R82); `made` what issued lately, oldest first. -/
structure Core where
  lsarea    : BitVec 64 := 0
  lw        : Nat := 0
  carve     : Carve := .stable
  rlcount   : BitVec 16 := 0
  rlwho     : BitVec 48 := 0
  tlb       : List TlbEntry := []
  icache    : List ILine := []
  wps       : List (Nat × Wp) := []
  cnt       : List (Nat × BitVec 64) := []
  cyc       : BitVec 64 := 0
  active    : Nat := 64
  spares    : Nat := 2
  retired   : List Nat := []
  placeable : Bool := true
  suspect   : Bool := false
  bundle    : Bundle := {}
  bundleDn  : Bundle := {}
  used      : List (Nat × Nat) := []
  pcyc      : Nat := 0
  reserved  : Option Nat := none
  evicting  : Option Nat := none
  kept      : Option Kept := none
  mxlast    : Nat := 0
  made      : List Made := []
  deriving DecidableEq, Repr, Inhabited

/-- A level change under way (15_power R334): the level aimed at, when it ends, and whether the new level is already read. -/
structure Chg where
  goal  : Nat := 0
  ends  : BitVec 64 := 0
  early : Bool := false
  deriving DecidableEq, Repr, Inhabited

/-- A stretch of a cluster's clock (15_power R335, R338): cycles that end before its first stretched one, stretched cycles so far, and the length that
it must reach. -/
structure Stretch where
  lead : Nat := 0
  len  : Nat := 0
  need : Nat := 0
  deriving DecidableEq, Repr, Inhabited

/-- A cluster (15_power R332 to R339). `reqs` holds, by almanac entry, a request plus one, `asked` the cycle (core) of that plvl and its place in the order of
cores and warp slots; `phase` is how far its clock is into the present cycle, in tenths of an unstretched cycle. -/
structure Cluster where
  cur    : Nat := 0
  tgt    : Nat := 0
  chg    : Option Chg := none
  calm   : Option (BitVec 64) := none
  str    : Option Stretch := none
  phase  : Nat := 0
  reqs   : List (Nat × Nat) := []
  asked  : List (Nat × (Nat × Nat)) := []
  strcyc : BitVec 64 := 0
  strev  : BitVec 64 := 0
  deriving DecidableEq, Repr, Inhabited

/-- A router or fabric path (16_stack R355, R364). -/
inductive NetSt where
  | active
  | spare
  | closing
  | switching
  | retired
  deriving DecidableEq, Repr, Inhabited

/-- A taken bounce slot (10_translation R247): page, fault identifier, the operations that use it with the bytes they write, and the offset and the time of
the fault that took it (R245). -/
structure BSlot where
  asid  : Nat := 0
  va    : Nat := 0
  fid   : Option Nat := none
  users : List Nat := []
  marks : List (Nat × Nat) := []
  taken : Bool := false
  off   : Nat := 0
  time  : BitVec 64 := 0
  deriving DecidableEq, Repr, Inhabited

/-- A stack. -/
structure Stk where
  powered : Bool := false
  avail   : Bool := true
  tj      : BitVec 30 := 0
  warn    : Bool := false
  cool    : Option (BitVec 64) := none
  bbbase  : BitVec 64 := 0
  bslots  : List (Nat × BSlot) := []
  tlb     : List TlbEntry := []
  wcache  : List WEntry := []
  routers : List (Nat × NetSt) := []
  paths   : List (Nat × NetSt) := []
  deriving DecidableEq, Repr, Inhabited

/-- Range-lock entries (09_ordering R223, R224): the table, the bytes by their keys in memory, whether FULL-LOCK, and for a frame that a bounced page was
moved to the marked bytes alone (10_translation R256). -/
structure Lock where
  tbl  : Nat := 0
  stk  : Nat := 0
  core : Nat := 0
  slc  : Nat := 0
  idx  : Nat := 0
  base : Nat := 0
  len  : Nat := 0
  full : Bool := false
  only : Option (List (Nat × Nat)) := none
  deriving DecidableEq, Repr, Inhabited

/-- The kinds of graphics operation (14_beams R310). -/
inductive GfxKind where
  | bpoolInit
  | beamMake
  | beamCast
  | beamNext
  | beamFree
  | beamStat
  | rayCast
  | rayNext
  | rayResume
  | texSamp
  | texFoot
  | texLod
  | rastTri
  | rastNext
  deriving DecidableEq, Repr, Inhabited

/-- A layout record as a copy's registration read it, with its box origin (11_copy R259, R260). `w` is the element width in bits. -/
structure LRec where
  base    : Nat := 0
  stride1 : Nat := 0
  stride2 : Nat := 0
  dim0    : Nat := 0
  dim1    : Nat := 0
  dim2    : Nat := 0
  box0    : Nat := 0
  box1    : Nat := 0
  box2    : Nat := 0
  space   : Nat := 0
  w       : Nat := 8
  plane   : Bool := false
  fill    : BitVec 32 := 0
  x       : Int := 0
  y       : Int := 0
  z       : Int := 0
  deriving DecidableEq, Repr, Inhabited

/-- Bytes of an operation's range as registration found them (09_ordering R223): a generic address, how many, and the key of the first. -/
structure Seg where
  addr : Nat := 0
  len  : Nat := 0
  key  : Nat := 0
  deriving DecidableEq, Repr, Inhabited

/-- What an engine operation is: a copy or fill with the registers and records it read, a store stream
with the register it opens, or a graphics operation with each lane's operand words and the uniform block it read. -/
inductive OpBody where
  | copy (fill : Bool) (regs : List (BitVec 32)) (src dst : LRec)
  | stream (q : Nat) (reg : StreamReg)
  | gfx (k : GfxKind) (d : Nat) (lanes : List (Nat × List (BitVec 32))) (block : List (BitVec 64))
  deriving DecidableEq, Repr, Inhabited

/-- The phases of an engine operation (09_ordering R221, R223; 11_copy R267; 03_tasks R85): waiting for a queue place, waiting for lock
entries, registered, started. -/
inductive OpPhase where
  | waitPlace
  | waitEntries
  | registered
  | started
  deriving DecidableEq, Repr, Inhabited

/-- A range an operation registers: its bytes' keys, whether it is a destination, and the pieces that are locked where that is not all of it. -/
structure Rng where
  base : Nat := 0
  len  : Nat := 0
  full : Bool := false
  only : Option (List (Nat × Nat)) := none
  deriving DecidableEq, Repr, Inhabited

/-- An engine operation (09_ordering R220, R221). Identifiers rise in the order of arrival of waiting operations and in the order of
registration of registered ones. `cls` is its almanac engine class (03_tasks R82), 5 for a stream; `fence` the bit of fence.e's mask;
`pc` and `wpos` the place of its chain group, `npc` and `nwpos` the place after it; `segs` the bytes of its ranges; `stamp` and `slot` where completion reports; `writes` the destination
bytes and `results` the lane registers (register, lane, value) that completion writes, in `dmask`'s lanes of registers `dregs`; `bounced` the
bounce slots it waits for, as 256 × stack + slot, each with the page and the marked bytes' offset and length; `pages` the translations it
used; `pool` whether it touches the beam pool; `fenced` the order point of the issuing path's latest fence.t; `closing` is false for an open stream. `arr` is
when and where a waiting operation arrived (09_ordering R223, 11_copy R267); `snap` lists the bytes of its source ranges as they stood at its
registration (09_ordering R221), `birth` is the order point of its issue. A graphics operation that has started keeps on `tape` what it read of records
and texels, by address and length, none where the translation faulted, and has `more` to read (14_beams R309). -/
structure EngOp where
  id      : Nat := 0
  gid     : Nat := 0
  w       : Nat := 0
  path    : Nat := 0
  asid    : Nat := 0
  stk     : Nat := 0
  core    : Nat := 0
  cls     : Nat := 4
  fence   : Nat := 0
  alm     : Nat := 0
  phase   : OpPhase := .registered
  pc      : BitVec 48 := 0
  wpos    : Nat := 0
  npc     : BitVec 48 := 0
  nwpos   : Nat := 0
  ranges  : List Rng := []
  segs    : List Seg := []
  locks   : List Lock := []
  stamp   : Option (Nat × BitVec 64) := none
  slot    : Option Nat := none
  body    : OpBody := .copy false [] {} {}
  writes  : List (Nat × BitVec 8) := []
  results : List (Nat × Nat × BitVec 32) := []
  dmask   : BitVec 32 := 0
  dregs   : List Nat := []
  bounced : List (Nat × Nat × Nat × Nat) := []
  pages   : List (Nat × Nat) := []
  pool    : Bool := false
  fenced  : Nat := 0
  closing : Bool := true
  arr     : List Nat := []
  snap    : List Host.Cell := []
  birth   : Nat := 0
  more    : Bool := false
  tape    : Option (List ((Nat × Nat) × Option (List (BitVec 8)))) := some []
  placed  : Bool := false
  deriving DecidableEq, Repr, Inhabited

/-- The atomic operations of 08_memory R209. -/
inductive AtomKind where
  | add
  | and
  | or
  | xor
  | minI
  | maxI
  | minN
  | maxN
  | xchg
  | cas
  | fadd
  | add64
  | cas64
  deriving DecidableEq, Repr, Inhabited

/-- What one lane's access does at its location. -/
inductive AccOp where
  | load (z : MemSize)
  | store (n : Nat)
  | atom (k : AtomKind)
  | accLd
  | accSt
  | half (hi : Bool)
  deriving DecidableEq, Repr, Inhabited

/-- How far an access in flight has come (08_memory R200): on its way, performed at another core with its answer on the way back, or refused there. -/
inductive AccSt where
  | waiting
  | sent
  | refused
  deriving DecidableEq, Repr, Inhabited

/-- A lane access in flight (step ACCESS_PERFORM): where it acts, what it does, the destination register, for a remote-local access
its target core and its time, and the place of its chain group. `heirs` are the paths that came out of splits of its path since (09_ordering R216),
`code` the lane code of a refusal, `ret` what a remote access that performed returns with its answer. `birth` is the order point of its issue, `via` the
routers and paths that a remote one goes through (16_stack R355). -/
structure Acc where
  id     : Nat := 0
  gid    : Nat := 0
  w      : Nat := 0
  path   : Nat := 0
  lane   : Nat := 0
  op     : AccOp := .load .b32
  addr   : BitVec 64 := 0
  key    : Nat := 0
  size   : Nat := 4
  dreg   : Option Nat := none
  val    : BitVec 64 := 0
  old    : BitVec 64 := 0
  remote : Option (Nat × Nat) := none
  gddr   : Bool := false
  st     : AccSt := .waiting
  time   : BitVec 64 := 0
  page   : Option (Nat × Nat) := none
  pc     : BitVec 48 := 0
  wpos   : Nat := 0
  heirs  : List Nat := []
  asid   : Nat := 0
  code   : Nat := 8
  ret    : BitVec 64 := 0
  birth  : Nat := 0
  via    : List NetItem := []
  deriving DecidableEq, Repr, Inhabited

/-- A shootdown (10_translation R243): scope, its issuer, the stacks that must acknowledge, and the accesses and operations of E. -/
structure Shoot where
  id    : Nat := 0
  scope : Nat := 0
  asid  : Nat := 0
  va    : Nat := 0
  gid   : Nat := 0
  w     : Nat := 0
  acked : Bool := false
  accs  : List Nat := []
  ops   : List Nat := []
  deriving DecidableEq, Repr, Inhabited

/-- A migration in progress (10_translation R249, R255), or one that waits for lock entries since `arr`, with the ranges it needs (09_ordering R223). -/
structure Mig where
  id    : Nat := 0
  gid   : Nat := 0
  w     : Nat := 0
  dreg  : Nat := 0
  asid  : Nat := 0
  va    : Nat := 0
  big   : Bool := false
  leaf  : Nat := 0
  old   : BitVec 64 := 0
  from_ : Nat := 0
  dest  : Nat := 0
  locks : List Lock := []
  shoot : Option Nat := none
  good  : Bool := true
  path  : Nat := 0
  rngs  : List Rng := []
  arr   : List Nat := []
  deriving DecidableEq, Repr, Inhabited

/-- Whom a fault slot's fault belongs to (10_translation R245): a path, a sequencer, or a bounced page. -/
inductive FaultOwner where
  | path (gid w path : Nat)
  | seq (gid : Nat)
  | bounce (stk slot : Nat)
  deriving DecidableEq, Repr, Inhabited

/-- Bring-up stages (16_stack R357). -/
inductive Stage where
  | aon
  | verify
  | train
  | stack0
  | serve
  | locked
  deriving DecidableEq, Repr, Inhabited

/-- The stack-count machine (16_stack R359). -/
inductive ModeSt where
  | one
  | growing
  | three
  | shrinking (saved : Bool)
  deriving DecidableEq, Repr, Inhabited

/-- Answers the package gives to the outside (09_ordering R228, 16_stack R357, R361). The model's own record of them. -/
inductive Reply where
  | host (v : BitVec 64)
  | hostFault (code : Nat)
  | identity (v : BitVec 384)
  | status (v : BitVec 64)
  | debug (regs : List (Nat × BitVec 32))
  | attest (ident : BitVec 384) (stepping : BitVec 8) (digest : BitVec 384) (life : List (BitVec 64)) (nonce : BitVec 384)
      (sig : BitVec 768)
  deriving DecidableEq, Repr

/-- A sys.wr whose effect beyond the register is a step of its own (ALMPER_WRITE, DROOPTST_WRITE, PREREQ_WRITE, TSCTL_WRITE). -/
inductive SysEff where
  | almper (v : BitVec 64)
  | drooptst (cl n : Nat)
  | prereq (v : BitVec 64)
  | tsctl (v : BitVec 64)
  deriving DecidableEq, Repr

/-- A latch of the time series that is still to be written (15_power R343): the ring slot's key, the latch tick, its SEQ, and the sample's other bytes until
they are written; its SEQ is written after them. -/
structure Latch where
  key   : Nat := 0
  tick  : Nat := 0
  seq   : Nat := 0
  bytes : Option (List (BitVec 8)) := none
  deriving DecidableEq, Repr, Inhabited

/-- Package registers and machines. `alm`, `lvl` and `pkgcap` are in force, `almN`, `lvlN` and `pkgcapN` as last written (15_power R333,
R348); `hour` counts ticks towards the next whole hour of the life record (16_stack R356). The model's own fields are `seq` (steps so far, from which free values are drawn), the counters of
identifiers and the replies. -/
structure Pkg where
  stage   : Stage := .aon
  why     : BitVec 64 := 0
  time    : BitVec 64 := 0
  ptime   : BitVec 64 := 0
  norec   : Bool := false
  tsdrop  : Bool := false
  tokdrop : Bool := false
  supmbx  : BitVec 64 := 0
  pfqbase : BitVec 64 := 0
  almSrc  : Bool := false
  almLen  : BitVec 32 := 0
  pstart  : BitVec 64 := 0
  periods : Nat := 0
  pkgcap  : Nat := 2
  pkgcapN : Option Nat := none
  tsEn    : Bool := false
  tsLogn  : Nat := 0
  tsK     : Nat := 10
  tsBase  : BitVec 64 := 0
  tsSeq   : BitVec 64 := 0
  tsLast  : BitVec 64 := 0
  latch   : Option Latch := none
  trip    : Bool := false
  trips   : BitVec 8 := 0
  tripStk : Nat := 0
  tripTier : Nat := 0
  thtime  : BitVec 64 := 0
  hour    : BitVec 64 := 0
  alm     : List (Nat × BitVec 64) := []
  almN    : List (Nat × BitVec 64) := []
  lvl     : List (Nat × BitVec 64) := []
  lvlN    : List (Nat × BitVec 64) := []
  deriving DecidableEq, Repr, Inhabited

/-- Package queues, tables and machines. `hosts` are the host accesses that are held at their slices, each with the
keys and lengths of its bytes, none before its translation (09_ordering R222, 16_stack R360). -/
structure Sys where
  toks    : List (BitVec 64) := []
  faults  : List (Nat × FaultOwner × Nat) := []
  shoots  : List Shoot := []
  migs    : List Mig := []
  mode    : ModeSt := .one
  rate    : Bool := false
  mclk    : Bool := false
  mclkEnd : Option (BitVec 64) := none
  mclkUsed : List (Nat × Nat) := []
  life    : List (Nat × BitVec 64) := []
  effs    : List SysEff := []
  hosts   : List (HostOp × List (Nat × Nat)) := []
  replies : List Reply := []
  seq     : Nat := 0
  nextGid : Nat := 1
  nextOp  : Nat := 1
  claims  : Nat := 0
  deriving DecidableEq, Repr, Inhabited

/-- The place of the chain group being executed, the place after it (02_encoding R39), the position of the word being executed, whether
the group trapped, whether it does not issue yet, and the warp that issues it. -/
structure Here where
  pc    : BitVec 48 := 0
  wpos  : Nat := 0
  word  : Nat := 0
  npc   : BitVec 48 := 0
  nwpos : Nat := 0
  trapped : Bool := false
  retry   : Bool := false
  gid     : Nat := 0
  w       : Nat := 0
  deriving DecidableEq, Repr, Inhabited

/-- What the next step issues: nothing, a chain group of the focused path, or a word of the focused gang's sequencer. -/
inductive Issue where
  | none
  | lane
  | seq
  deriving DecidableEq, Repr, Inhabited

/-- The package. `gang` and `me` are the gang and warp in focus (the ones that issue); `gangs` and `warps` the others. `mem` holds every
memory of the package under the keys of Sys2Proof/Machine/Mem.lean, `journal` the values that 8-byte locations took, newest first. -/
structure State where
  issue   : Issue := .none
  here    : Here := {}
  me      : Warp := {}
  gang    : Gang := {}
  warps   : List Warp := []
  gangs   : List Gang := []
  insts   : List Inst := []
  ctxs    : List (Nat × Ctx) := []
  cores   : List (Nat × Core) := []
  clus    : List (Nat × Cluster) := []
  stks    : List (Nat × Stk) := []
  mem     : List Host.Cell := []
  journal : List (Nat × BitVec 64) := []
  ops     : List EngOp := []
  accs    : List Acc := []
  pkg     : Pkg := {}
  sys     : Sys := {}
  agenda  : List Instr := []
  deriving DecidableEq, Repr

/-- Why a step stops with a fault. -/
inductive Fault where
  /-- The issue cursor says to issue, but the warp or gang in focus has nothing to issue from. Raised by `step` alone, in states that no
  run reaches: safe, because the hardware has no such state. -/
  | noIssuer
  deriving DecidableEq, Repr

/-- Why a step is refused. -/
inductive Refusal where
  /-- The instruction has no meaning in the model yet. Raised by `exec` for the arms that say so: safe, nothing is claimed of it. -/
  | notModelled (mnemonic : String)
  deriving DecidableEq, Repr

/-- What a step of this machine answers. -/
abbrev Out := Host.Outcome State Fault Refusal

/-- The package right after the reset of its always-on domain, before power-up (16_stack R357): every register at the value the spec
gives it, nothing powered, nothing listed in memory, time 0. Structure defaults hold the reset values (log 1). -/
def State.reset : State := {}

end Sys2Proof.Machine
end

