-- ==== Sys2Proof/Machine/Mem.lean ====
section
/-! DEFINITION. Memory: the keys under which every memory of the package stands in one canonical list, little-endian reads and writes,
the journal of values, and the accessors of contexts, cores, clusters and stacks. Keys (log 2): GDDR at its physical address; local memory of
core c (32 × stack + number) at 2^40 + c × 2^20; commons of a stack at 2^41 + stack × 2^24; per gang a region of 2^23 bytes from 2^50 on,
with the area its warps' stacks are saved to first, then the accumulator tiles, then the area its local memory is saved to. The stacks of a resident warp
lie in GDDR, in the region of its core's LSAREA. -/

namespace Sys2Proof.Machine

/-- The memory of the package is in canonical form (keys strictly rising, no byte equal to what an unlisted key reads as). -/
abbrev Memory.wf (m : List Host.Cell) : Prop := smWf (0 : BitVec 8) 0 m = true

/-- What a byte of memory that nothing has written reads as (log 1). -/
def unwritten : BitVec 8 := 0

/-- First physical address with no memory behind it (16_stack R350). -/
def gddrTop : Nat := 0x600000000

/-- Local memory of core `c`, byte `off` (08_memory R199). -/
def localKey (c off : Nat) : Nat := 2 ^ 40 + c * 2 ^ 20 + off
/-- Commons of a stack (08_memory R205). -/
def commonsKey (stk off : Nat) : Nat := 2 ^ 41 + stk * 2 ^ 24 + off
/-- Bytes of a warp's stacks (08_memory R203). -/
def stackBytes : Nat := 65536
/-- Byte `off` of the stack of lane `l` of a warp (08_memory R203). -/
def Warp.stackAt (x : Warp) (l off : Nat) : Nat := x.stack + l * 2048 + off
/-- Where the stacks of a warp lie that is bound to a slot of a core with that LSAREA (08_memory R203, log 2). -/
def slotStack (lsarea : BitVec 64) (slot : Nat) : Nat := lsarea.toNat + slot * stackBytes
/-- The area to which the stacks of a warp are saved with its gang (05_events R138). -/
def savedStack (gid w : Nat) : Nat := 2 ^ 50 + gid * 2 ^ 23 + w * stackBytes
/-- Byte `off` of tile `t` of a gang (08_memory R192). -/
def tileKey (gid t off : Nat) : Nat := 2 ^ 50 + gid * 2 ^ 23 + 2 ^ 21 + t * 2 ^ 14 + off
/-- The area to which a gang's local memory is saved (05_events R138). -/
def savedKey (gid off : Nat) : Nat := 2 ^ 50 + gid * 2 ^ 23 + 2 ^ 22 + off

/-- The little-endian value of bytes (00_scope R3). -/
def leNat : List (BitVec 8) → Nat
  | [] => 0
  | b :: t => b.toNat + 256 * leNat t

/-- The `n` little-endian bytes of a value (00_scope R3). -/
def leBytes : Nat → Nat → List (BitVec 8)
  | 0, _ => []
  | n + 1, v => .ofNat 8 v :: leBytes n (v / 256)

/-- One byte. -/
def State.byte (s : State) (k : Nat) : BitVec 8 := smGet unwritten s.mem k
/-- The bytes at `n` keys. -/
def State.bytes (s : State) (k n : Nat) : List (BitVec 8) := smGets unwritten s.mem k n
/-- The little-endian value of `n` bytes. -/
def State.rd (s : State) (k n : Nat) : Nat := leNat (s.bytes k n)
/-- A 32-bit word. -/
def State.rd32 (s : State) (k : Nat) : BitVec 32 := .ofNat 32 (s.rd k 4)
/-- A 64-bit word. -/
def State.rd64 (s : State) (k : Nat) : BitVec 64 := .ofNat 64 (s.rd k 8)

/-- The values that the 8-byte locations from location `b` on hold, newest first. -/
def journalRun (m : List Host.Cell) (b : Nat) : Nat → List (Nat × BitVec 64)
  | 0 => []
  | n + 1 => journalRun m (b + 1) n ++ [(b, BitVec.ofNat 64 (leNat (smGets unwritten m (b * 8) 8)))]

/-- Writes bytes: one event in the memory order (09_ordering R217). The journal takes the new values of the 8-byte locations touched. -/
def State.put (s : State) (k : Nat) (bs : List (BitVec 8)) : State :=
  match bs with
  | [] => s
  | _ =>
    let m := smPuts unwritten s.mem k bs
    { s with mem := m, journal := journalRun m (k / 8) ((k + bs.length - 1) / 8 - k / 8 + 1) ++ s.journal }

/-- Writes the little-endian bytes of a value. -/
def State.wr (s : State) (k n v : Nat) : State := s.put k (leBytes n v)

/-- Sets bytes back to 0 (zeroing at placement, R66; contents lost, R205) without an event. -/
def State.clear (s : State) (k n : Nat) : State := { s with mem := smClear s.mem k n }

/-- Moves bytes from one region to another, which is cleared first, and clears the source (a gang saved or restored, R138). It is no event. -/
def State.move (s : State) (src dst n : Nat) : State :=
  let run := s.mem.filter fun x => src ≤ x.1 && x.1 < src + n
  let m := smClear (smClear s.mem dst n) src n
  { s with mem := m.filter (fun x => x.1 < dst) ++ run.map (fun x => (x.1 - src + dst, x.2)) ++ m.filter (fun x => dst ≤ x.1) }

/-- Values that the 8-byte location of a key took since a length of the journal, oldest first. -/
def State.valuesSince (s : State) (key since : Nat) : List (BitVec 64) :=
  ((s.journal.take (s.journal.length - since)).filter fun x => x.1 == key / 8).reverse.map Prod.snd

/-- Values that the 8-byte locations of `past` keys took, each between two lengths of the journal, oldest first. -/
def State.valuesPast (s : State) (past : List (Nat × Nat × Nat)) : List (BitVec 64) :=
  past.flatMap fun p => (((s.journal.drop (s.journal.length - p.2.2)).take (p.2.2 - p.2.1)).filter fun x => x.1 == p.1 / 8).reverse.map Prod.snd

/-- Records a value of something that is no memory (a barrier phase, a token owner) under a key of its own, for event registers. -/
def State.note (s : State) (key : Nat) (v : BitVec 64) : State := { s with journal := (key, v) :: s.journal }

/-- Journal key of the phase of group g of an instance. -/
def grpNote (inst g : Nat) : Nat := 2 ^ 200 + inst * 256 + g
/-- Journal key of the owner of tile t of a gang. -/
def tokNote (gid t : Nat) : Nat := 2 ^ 300 + gid * 16 + t

def State.ctx (s : State) (asid : Nat) : Ctx := smGet {} s.ctxs asid
def State.setCtx (s : State) (asid : Nat) (c : Ctx) : State := { s with ctxs := smPut {} s.ctxs asid c }
def State.core (s : State) (c : Nat) : Core := smGet {} s.cores c
def State.setCore (s : State) (c : Nat) (x : Core) : State := { s with cores := smPut {} s.cores c x }
def State.clu (s : State) (c : Nat) : Cluster := smGet {} s.clus c
def State.setClu (s : State) (c : Nat) (x : Cluster) : State := { s with clus := smPut {} s.clus c x }
def State.stk (s : State) (c : Nat) : Stk := smGet {} s.stks c
def State.setStk (s : State) (c : Nat) (x : Stk) : State := { s with stks := smPut {} s.stks c x }

/-- A stack exists and is powered (16_stack R359). -/
def State.powered (s : State) (k : Nat) : Bool := k < 3 && (s.stk k).powered

/-- The powered stacks, lowest first (16_stack R350). -/
def State.poweredList (s : State) : List Nat := [0, 1, 2].filter s.powered

/-- The cluster of core c of the package (01_machine R12). -/
def clusterOf (c : Nat) : Nat := 4 * (c / 32) + c % 16 / 4

/-- The stacks that lines have homes on: homes move only where R359 says so (16_stack R350, R359). -/
def State.homeList (s : State) : List Nat :=
  match s.sys.mode with
  | .three => [0, 1, 2]
  | .shrinking false => [0, 1, 2]
  | _ => [0]

/-- Home stack and slice of a byte of GDDR or commons (16_stack R350, 09_ordering R223). -/
def State.home (s : State) (k : Nat) : Nat × Nat :=
  if k < gddrTop then
    let l := k / 128
    let ps := s.homeList
    (ps.getD (l / 16 % max ps.length 1) 0, l % 16)
  else ((k - 2 ^ 41) / 2 ^ 24, (k % 2 ^ 24) / 2 ^ 7 % 256 / 16)

/-- The order point of the present step: source reads and fills of this step are at it, fences after it (10_translation R242, R251). -/
def State.point (s : State) : Nat := s.sys.seq + 1

def State.now (s : State) : BitVec 64 := s.pkg.time

/-- A system-register write by the model: package registers and package machines. -/
def State.setPkg (s : State) (p : Pkg) : State := { s with pkg := p }
def State.setSys (s : State) (p : Sys) : State := { s with sys := p }

/-- Byte offset in a stack's commons of mailbox m of core c (05_events R123). -/
def mboxOff (c m : Nat) : Nat := 0xFFC000 + 512 * c + 8 * m

/-- The key of the mailbox that a target word names, none where it breaks 05_events R124. -/
def State.mboxKey (s : State) (t : BitVec 32) : Option Nat :=
  let stk := t.toNat / 2 ^ 11 % 8
  if t.toNat / 2 ^ 14 ≠ 0 || 2 < stk || !s.powered stk then none
  else some (commonsKey stk (mboxOff (t.toNat / 2 ^ 6 % 32) (t.toNat % 64)))

/-- Sends a token to the mailbox in SUPMBX, or queues it, or drops it (05_events R132). -/
def State.sendToken (s : State) (t : BitVec 64) : State :=
  let direct := if s.pkg.supmbx.toNat < 2 ^ 32 then s.mboxKey (s.pkg.supmbx.setWidth 32) else none
  match s.sys.toks, direct with
  | [], some k => if s.rd k 8 = 0 then s.wr k 8 t.toNat else s.setSys { s.sys with toks := [t] }
  | q, _ => if q.length < 16 then s.setSys { s.sys with toks := q ++ [t] } else s.setPkg { s.pkg with tokdrop := true }

/-- The warps of the package, the one in focus first. -/
def State.allWarps (s : State) : List Warp := s.me :: s.warps
/-- The gangs of the package, the one in focus first. -/
def State.allGangs (s : State) : List Gang := s.gang :: s.gangs

def State.gangOf? (s : State) (gid : Nat) : Option Gang := s.allGangs.find? fun g => g.gid == gid && gid != 0
def State.warpOf? (s : State) (gid w : Nat) : Option Warp := s.allWarps.find? fun x => x.gid == gid && gid != 0 && x.w == w

/-- Applies a change to every warp. -/
def State.mapWarps (s : State) (f : Warp → Warp) : State := { s with me := f s.me, warps := s.warps.map f }
/-- Applies a change to every gang. -/
def State.mapGangs (s : State) (f : Gang → Gang) : State := { s with gang := f s.gang, gangs := s.gangs.map f }
def State.setWarp (s : State) (x : Warp) : State := s.mapWarps fun y => if y.gid == x.gid && y.w == x.w then x else y
def State.setGang (s : State) (x : Gang) : State := s.mapGangs fun y => if y.gid == x.gid then x else y

/-- Puts the warp and its gang in focus; the ones in focus before return to the others. Nothing happens when there is no such warp. -/
def State.focus (s : State) (gid w : Nat) : State :=
  if s.me.gid == gid && s.me.w == w && s.gang.gid == gid then s
  else
    match s.warpOf? gid w, s.gangOf? gid with
    | some x, some g =>
      let ws := (s.allWarps.filter fun y => y.gid != 0 && !(y.gid == gid && y.w == w))
      let gs := (s.allGangs.filter fun y => y.gid != 0 && y.gid != gid)
      { s with me := x, warps := ws, gang := g, gangs := gs }
    | _, _ => s

/-- Puts a gang in focus, with no warp. -/
def State.focusGang (s : State) (gid : Nat) : State :=
  match s.gangOf? gid with
  | some g => { s with gang := g, gangs := s.allGangs.filter fun y => y.gid != 0 && y.gid != gid,
                       me := {}, warps := s.allWarps.filter fun y => y.gid != 0 }
  | none => s

/-- Puts back what was in focus before: a warp, a gang, or an issuer of its own. -/
def State.refocus (s : State) (g : Gang) (x : Warp) : State :=
  if x.gid != 0 then s.focus g.gid x.w
  else if g.gid != 0 then s.focusGang g.gid
  else { s with me := x, gang := g, warps := s.allWarps.filter fun y => y.gid != 0, gangs := s.allGangs.filter fun y => y.gid != 0 }

/-- The live paths of a warp, the one in focus first (04_control R91). -/
def Warp.live (x : Warp) : List Path := (x.cur :: x.paths).filter fun p => p.mask != 0
/-- The live path of an identifier. -/
def Warp.path? (x : Warp) (i : Nat) : Option Path := x.live.find? fun p => p.id == i
/-- Applies a change to every path of a warp. -/
def Warp.mapPaths (x : Warp) (f : Path → Path) : Warp := { x with cur := f x.cur, paths := x.paths.map f }
/-- Puts a live path in focus; an ended path in focus is forgotten. -/
def Warp.select (x : Warp) (i : Nat) : Warp :=
  if x.cur.id == i && x.cur.mask != 0 then x
  else match x.path? i with
    | some p => { x with cur := p, paths := x.live.filter fun q => q.id != i }
    | none => x

/-- Live lanes of a warp: those of its ordinary paths, or of its handler paths where only those are left (05_events R134). -/
def Warp.lanes (x : Warp) : BitVec 32 := x.live.foldl (fun m p => m ||| p.mask) 0

/-- Watched objects of warps that `f` picks go on elsewhere: `go` gives, of an object's generic address and frame, the key where its values were taken until
now and the frame from now on. Values taken before count as before (05_events R116, 09_ordering R234). -/
def State.rewatch (s : State) (f : Warp → Bool) (go : BitVec 64 → Nat → Option (Nat × Nat)) : State :=
  let n := s.journal.length
  s.mapWarps fun x => if !f x then x
    else ({ x with ev := x.ev.map fun e => (e.1, match go e.2.obj e.2.frame with
        | some (k, f) => if e.2.armed && (e.2.kind == .stamp || e.2.kind == .tbr) then { e.2 with frame := f, since := n, past := e.2.past ++ [(k, e.2.since, n)] }
          else e.2
        | none => e.2) } : Warp).mapPaths fun p => match p.st with
      | .held (.mwait c wide a v since f past) => match go a f with
        | some (k, f') => { p with st := .held (.mwait c wide a v n f' (past ++ [(k, since, n)])) }
        | none => p
      | _ => p

end Sys2Proof.Machine
end

