-- ==== Sys2Proof/Machine/Walk.lean ====
section
/-! DEFINITION. Address translation (10_translation R236 to R242): page-table entries, the walk, the TLBs and the walk cache. -/

namespace Sys2Proof.Machine

/-- What an access wants of its translation. -/
inductive Want where
  | read
  | write
  | fetch
  deriving DecidableEq, Repr

/-- Bit shift of the VA field that indexes a level's table (R236). -/
def vaShift : Nat → Nat
  | 0 => 16
  | 1 => 21
  | 2 => 30
  | _ => 39

/-- Index into a level's table (R236). -/
def vaIndex (level va : Nat) : Nat := va / 2 ^ vaShift level % (if level = 0 then 32 else 512)

/-- PA of the next table or of the page (R237). -/
def pteAddr (e : BitVec 64) : Nat := e.toNat / 2 ^ 8 % 2 ^ 32 * 2 ^ 8

/-- A valid entry is malformed at a level (R237). -/
def pteMalformed (level : Nat) (e : BitVec 64) : Bool :=
  let n := e.toNat
  let leaf := e.getLsbD 1
  n / 2 ^ 52 != 0 || n / 2 ^ 40 % 2 ^ 8 != 0 || e.getLsbD 2
    || (leaf && decide (2 ≤ level)) || (!leaf && level == 0)
    || (!leaf && n / 2 ^ 3 % 2 ^ 5 != 0)
    || (!leaf && decide (2 ≤ level) && n / 2 ^ 8 % 2 ^ 4 != 0)
    || (leaf && level == 0 && n / 2 ^ 8 % 2 ^ 8 != 0)
    || (leaf && level == 1 && n / 2 ^ 8 % 2 ^ 13 != 0)

/-- The leaf a walk ends in: its level, the address of the entry and its value. -/
structure Leaf where
  level : Nat
  addr  : Nat
  val   : BitVec 64
  deriving DecidableEq, Repr

/-- A walk of `n` levels from a table; `cached` answers pointer entries of the walk cache. Codes 1 to 3 of R238, or the leaf and the
pointer entries used. -/
def State.walkFrom (s : State) (cached : Nat → Option (BitVec 64)) (va : Nat) :
    Nat → Nat → Except Nat (Leaf × List (Nat × BitVec 64))
  | 0, _ => .error 2
  | l + 1, tbl =>
    let a := tbl + 8 * vaIndex l va
    let go (e : BitVec 64) : Except Nat (Leaf × List (Nat × BitVec 64)) :=
      if !e.getLsbD 0 then .error 1
      else if pteMalformed l e then .error 2
      else if e.getLsbD 1 then .ok (⟨l, a, e⟩, [])
      else match s.walkFrom cached va l (pteAddr e) with
        | .ok (f, ps) => .ok (f, (l, e) :: ps)
        | .error c => .error c
    match cached l with
    | some e => go e
    | none => if gddrTop < a + 8 then .error 3 else go (s.rd64 a)

/-- Codes 3 to 6 of R238 at the leaf. -/
def leafFault (sup : Bool) (want : Want) (f : Leaf) : Option Nat :=
  if gddrTop ≤ pteAddr f.val then some 3
  else if f.val.getLsbD 5 && !sup then some 4
  else match want with
    | .write => if f.val.getLsbD 3 then none else some 5
    | .fetch => if f.val.getLsbD 4 then none else some 6
    | .read => none

/-- The leaf after the accessed and dirty update (R241). -/
def leafTouched (want : Want) (v : BitVec 64) : BitVec 64 :=
  v ||| 0x40 ||| (if want = .write then 0x80 else 0)

def Leaf.big (f : Leaf) : Bool := f.level == 1
/-- Offset of a VA in its page. -/
def pageOff (big : Bool) (va : Nat) : Nat := if big then va % 2 ^ 21 else va % 2 ^ 16
/-- Number of the page of a VA. -/
def pageNo (big : Bool) (va : Nat) : Nat := if big then va / 2 ^ 21 else va / 2 ^ 16

/-- A cached entry serves an access: it matches, its source read is after the path's latest fence.t (R251), and it grants the access; a
write needs D = 1 (R242). -/
def TlbEntry.serves (e : TlbEntry) (asid : Nat) (sup : Bool) (fenced : Nat) (want : Want) (va : Nat) : Bool :=
  e.asid == asid && pageNo e.big va == e.page && decide (fenced < e.at_) && (sup || !e.sup)
    && (match want with
        | .read => true
        | .write => e.w && e.d
        | .fetch => e.x)

def TlbEntry.target (e : TlbEntry) (va : Nat) : Nat := e.pa + pageOff e.big va

/-- Puts an entry into a TLB of a size, in place of one for the same page; the oldest goes where it is full. -/
def tlbInsert (cap : Nat) (t : List TlbEntry) (e : TlbEntry) : List TlbEntry :=
  let t := (t.filter fun x => !(x.asid == e.asid && x.page == e.page && x.big == e.big)) ++ [e]
  t.drop (t.length - cap)

def wcInsert (t : List WEntry) (e : WEntry) : List WEntry :=
  let t := (t.filter fun x => !(x.asid == e.asid && x.level == e.level && x.pre == e.pre)) ++ [e]
  t.drop (t.length - 512)

/-- A TLB entry made from a leaf. -/
def Leaf.entry (f : Leaf) (asid at_ va : Nat) : TlbEntry :=
  { asid := asid, page := pageNo f.big va, big := f.big, pa := pteAddr f.val, w := f.val.getLsbD 3, x := f.val.getLsbD 4,
    sup := f.val.getLsbD 5, d := f.val.getLsbD 7, at_ := at_ }

/-- A walk for an access, with the accessed and dirty update (R236 to R241): on core `c`'s stack, with the walk cache, filling both TLBs;
or, for the host, none of these. -/
def State.walk (s : State) (c : Option Nat) (asid : Nat) (sup : Bool) (fenced : Nat) (want : Want) (va : Nat) : State × Except Nat Nat :=
  let ctx := s.ctx asid
  if ctx.st ≠ .bound then (s, .error 1)
  else
    let cached (l : Nat) : Option (BitVec 64) :=
      match c with
      | none => none
      | some c => ((s.stk (c / 32)).wcache.find? fun e =>
          e.asid == asid && e.level == l && e.pre == va / 2 ^ vaShift l && decide (fenced < e.at_)).map WEntry.val
    match s.walkFrom cached va 4 ctx.root.toNat with
    | .error k => (s, .error k)
    | .ok (f, ps) =>
      match leafFault sup want f with
      | some k => (s, .error k)
      | none =>
        let v := leafTouched want f.val
        let s1 := if v = f.val then s else s.wr f.addr 8 v.toNat
        let e := ({ f with val := v } : Leaf).entry asid s.point va
        let s2 := match c with
          | none => s1
          | some c =>
            let k := s1.stk (c / 32)
            let wc := ps.foldl (fun t p =>
              if (cached p.1).isSome then t else wcInsert t ⟨asid, p.1, va / 2 ^ vaShift p.1, p.2, s.point⟩) k.wcache
            let s1 := s1.setStk (c / 32) { k with wcache := wc, tlb := tlbInsert 8192 k.tlb e }
            let x := s1.core c
            s1.setCore c { x with tlb := tlbInsert 256 x.tlb e }
        (s2, .ok (pteAddr f.val + pageOff f.big va))

/-- The translation of an access by core `c` under an ASID (R239): core TLB, shared TLB, walk. -/
def State.translateAs (s : State) (c asid : Nat) (sup : Bool) (fenced : Nat) (want : Want) (va : Nat) : State × Except Nat Nat :=
  match (s.core c).tlb.find? (fun e => e.serves asid sup fenced want va) with
  | some e => (s, .ok (e.target va))
  | none =>
    match (s.stk (c / 32)).tlb.find? (fun e => e.serves asid sup fenced want va) with
    | some e =>
      let x := s.core c
      (s.setCore c { x with tlb := tlbInsert 256 x.tlb e }, .ok (e.target va))
    | none => s.walk (some c) asid sup fenced want va

/-- The core of the gang in focus, over the whole package. -/
def State.coreNo (s : State) : Nat := 32 * s.gang.stk + s.gang.core
/-- The context of the gang in focus is a supervisor context (R254). -/
def State.priv (s : State) : Bool := (s.ctx s.gang.asid).priv

/-- The translation of an access by the path in focus. -/
def State.translate (s : State) (want : Want) (va : Nat) : State × Except Nat Nat :=
  s.translateAs s.coreNo s.gang.asid s.priv s.me.cur.fenced want va

end Sys2Proof.Machine
end

