-- ==== Sys2Proof/Machine/Operands.lean ====
section
/-! DEFINITION. Operands: reads and writes of lane, uniform and predicate registers by the path in focus (02_encoding R33, R38), and the
registers that each instruction reads and writes (R37). -/

namespace Sys2Proof.Machine

/-- The lanes of a mask, lowest first. -/
def lanesOf (m : BitVec 32) : List Nat := (List.range 32).filter fun l => m.getLsbD l
/-- The lowest lane of a mask (0 where it is empty). -/
def firstOf (m : BitVec 32) : Nat := (lanesOf m).headD 0
/-- The mask of one lane. -/
def laneBit (l : Nat) : BitVec 32 := BitVec.ofNat 32 (2 ^ l)
/-- The mask of a list of lanes. -/
def maskOfLanes (ls : List Nat) : BitVec 32 := maskOf fun l => ls.contains l

def Regs.getV (r : Regs) (n l : Nat) : Word := smGet 0 r.v (32 * n + l)
/-- Writes register `n` in the lanes of a mask. -/
def Regs.putV (r : Regs) (n : Nat) (m : BitVec 32) (f : Nat → Word) : Regs :=
  { r with v := smPuts 0 r.v (32 * n) ((List.range 32).map fun l => if m.getLsbD l then f l else r.getV n l) }
/-- s0 reads 0 (R33). -/
def uniGet (u : List (Nat × Word)) (n : Nat) : Word := if n = 0 then 0 else smGet 0 u n
/-- Writes to s0 are discarded (R33). -/
def uniPut (u : List (Nat × Word)) (n : Nat) (x : Word) : List (Nat × Word) := if n = 0 then u else smPut 0 u n x
/-- p7 reads true (R33). -/
def Regs.getP (r : Regs) (n : Nat) : BitVec 32 := if n = 7 then 0xFFFFFFFF else smGet 0 r.p n
/-- Writes to p7 are discarded (R33). -/
def Regs.putP (r : Regs) (n : Nat) (m x : BitVec 32) : Regs :=
  if n = 7 then r else { r with p := smPut 0 r.p n ((r.getP n &&& ~~~m) ||| (x &&& m)) }
def Regs.getF (r : Regs) (l : Nat) : Flags := smGet 0 r.flags l
def Regs.getD (r : Regs) (l : Nat) : Nat := (smGet 0 r.rdep l).toNat
def Regs.putD (r : Regs) (l d : Nat) : Regs := { r with rdep := smPut 0 r.rdep l (BitVec.ofNat 7 d) }

/-- Lane `l` is active in the path in focus. -/
def State.act (s : State) (l : Nat) : Bool := s.me.cur.mask.getLsbD l
/-- The active lanes, lowest first. -/
def State.lanes (s : State) : List Nat := lanesOf s.me.cur.mask
/-- The lowest active lane. -/
def State.first (s : State) : Nat := firstOf s.me.cur.mask

/-- vN in a lane. -/
def State.v (s : State) (n : BitVec 7) (l : Nat) : Word := s.me.regs.getV n.toNat l
/-- vN:vN+1 in a lane (R33). -/
def State.vv (s : State) (n : BitVec 7) (l : Nat) : BitVec 64 := s.me.regs.getV (n.toNat + 1) l ++ s.me.regs.getV n.toNat l
/-- The uniform registers of whoever issues: the warp's, or the sequencer's own (13_matrix R288). -/
def State.uni (s : State) : List (Nat × Word) :=
  match s.issue with
  | .seq => s.gang.seq.u
  | _ => s.me.regs.u
/-- sN. -/
def State.un (s : State) (n : Nat) : Word := uniGet s.uni n
def State.u (s : State) (n : BitVec 6) : Word := s.un n.toNat
/-- sN:sN+1. -/
def State.uu (s : State) (n : BitVec 6) : BitVec 64 := s.un (n.toNat + 1) ++ s.un n.toNat
/-- The pair that begins `k` registers after sN. -/
def State.uuAt (s : State) (n : BitVec 6) (k : Nat) : BitVec 64 := s.un (n.toNat + k + 1) ++ s.un (n.toNat + k)
/-- pN in a lane. -/
def State.p (s : State) (n : BitVec 3) (l : Nat) : Bool := (s.me.regs.getP n.toNat).getLsbD l

/-- Changes the register files of the warp in focus. -/
def State.setRegs (s : State) (r : Regs) : State := { s with me := { s.me with regs := r } }
/-- Notes which registers a lane instruction wrote, for watch predicates (17_debug R366). -/
def State.sawRegs (s : State) (rs : List (Nat × BitVec 32)) : State :=
  { s with me := { s.me with obs := { s.me.obs with regs := s.me.obs.regs ++ rs } } }

/-- vN := f in the active lanes. -/
def State.setV (s : State) (n : BitVec 7) (f : Nat → Word) : State :=
  (s.setRegs (s.me.regs.putV n.toNat s.me.cur.mask f)).sawRegs [(n.toNat, s.me.cur.mask)]
/-- vN:vN+1 := f in the active lanes. -/
def State.setVV (s : State) (n : BitVec 7) (f : Nat → BitVec 64) : State :=
  let m := s.me.cur.mask
  (s.setRegs ((s.me.regs.putV n.toNat m fun l => (f l).setWidth 32).putV (n.toNat + 1) m fun l => (f l >>> 32).setWidth 32)).sawRegs
    [(n.toNat, m), (n.toNat + 1, m)]
/-- Changes the uniform registers of whoever issues. -/
def State.setUni (s : State) (u : List (Nat × Word)) : State :=
  match s.issue with
  | .seq => { s with gang := { s.gang with seq := { s.gang.seq with u := u } } }
  | _ => s.setRegs { s.me.regs with u := u }
def State.setUn (s : State) (n : Nat) (x : Word) : State := s.setUni (uniPut s.uni n x)
/-- sN := x. -/
def State.setU (s : State) (n : BitVec 6) (x : Word) : State := s.setUn n.toNat x
/-- sN:sN+1 := x. -/
def State.setUU (s : State) (n : BitVec 6) (x : BitVec 64) : State :=
  (s.setUn n.toNat (x.setWidth 32)).setUn (n.toNat + 1) ((x >>> 32).setWidth 32)
/-- pN := f in the active lanes. -/
def State.setP (s : State) (n : BitVec 3) (f : Nat → Bool) : State :=
  s.setRegs (s.me.regs.putP n.toNat s.me.cur.mask (maskOf f))
/-- Sets sticky flags in the active lanes (07_numbers R173). -/
def State.flag (s : State) (f : Nat → Flags) : State :=
  let r := s.me.regs
  let m := s.me.cur.mask
  { s with me := { s.me with
      regs := { r with flags := smPuts 0 r.flags 0 ((List.range 32).map fun l => if m.getLsbD l then r.getF l ||| f l else r.getF l) },
      obs := { s.me.obs with flags := s.me.obs.flags ++ (lanesOf m).map fun l => (l, f l) } } }

/-- Registers an instruction reads and writes, as runs of a first register and a count (R37). -/
structure Uses where
  vr : List (Nat × Nat) := []
  vw : List (Nat × Nat) := []
  sr : List (Nat × Nat) := []
  sw : List (Nat × Nat) := []
  pr : List (Nat × Nat) := []
  pw : List (Nat × Nat) := []
  deriving DecidableEq, Repr

def runOf (l : List (Nat × Nat)) : List Nat := l.flatMap fun x => (List.range x.2).map (x.1 + ·)

/-- The registers of each encoded instruction. -/
def usesOf : Instr → Uses
  | .bra p _ _ => { pr := [(p.toNat, 1)] }
  | .call p _ _ => { pr := [(p.toNat, 1)] }
  | .brp p _ _ => { pr := [(p.toNat, 1)] }
  | .brx a s => { vr := [(a.toNat, 1)], sr := [(s.toNat, 2)] }
  | .callx a s => { vr := [(a.toNat, 1)], sr := [(s.toNat, 2)] }
  | .evArm _ _ s => { sr := [(s.toNat, 6)] }
  | .waitAny s => { sr := [(s.toNat, 1)] }
  | .evPend d _ => { vw := [(d.toNat, 2)] }
  | .mboxSend d s => { vw := [(d.toNat, 1)], sr := [(s.toNat, 3)] }
  | .mboxRecv d s => { vw := [(d.toNat, 2)], sr := [(s.toNat, 1)] }
  | .trap a _ => { sr := [(a.toNat, 2)] }
  | .preDone a => { sr := [(a.toNat, 2)] }
  | .iadd d a b => { vr := [(a.toNat, 1), (b.toNat, 1)], vw := [(d.toNat, 1)] }
  | .isub d a b => { vr := [(a.toNat, 1), (b.toNat, 1)], vw := [(d.toNat, 1)] }
  | .imul d a b => { vr := [(a.toNat, 1), (b.toNat, 1)], vw := [(d.toNat, 1)] }
  | .imulhI32 d a b => { vr := [(a.toNat, 1), (b.toNat, 1)], vw := [(d.toNat, 1)] }
  | .imulhN32 d a b => { vr := [(a.toNat, 1), (b.toNat, 1)], vw := [(d.toNat, 1)] }
  | .imad d a b => { vr := [(d.toNat, 1), (a.toNat, 1), (b.toNat, 1)], vw := [(d.toNat, 1)] }
  | .iminI32 d a b => { vr := [(a.toNat, 1), (b.toNat, 1)], vw := [(d.toNat, 1)] }
  | .iminN32 d a b => { vr := [(a.toNat, 1), (b.toNat, 1)], vw := [(d.toNat, 1)] }
  | .imaxI32 d a b => { vr := [(a.toNat, 1), (b.toNat, 1)], vw := [(d.toNat, 1)] }
  | .imaxN32 d a b => { vr := [(a.toNat, 1), (b.toNat, 1)], vw := [(d.toNat, 1)] }
  | .iabs d a => { vr := [(a.toNat, 1)], vw := [(d.toNat, 1)] }
  | .ineg d a => { vr := [(a.toNat, 1)], vw := [(d.toNat, 1)] }
  | .lea d a b => { vr := [(a.toNat, 2), (b.toNat, 1)], vw := [(d.toNat, 2)] }
  | .iadd64 d a b => { vr := [(a.toNat, 2), (b.toNat, 2)], vw := [(d.toNat, 2)] }
  | .and d a b => { vr := [(a.toNat, 1), (b.toNat, 1)], vw := [(d.toNat, 1)] }
  | .or d a b => { vr := [(a.toNat, 1), (b.toNat, 1)], vw := [(d.toNat, 1)] }
  | .xor d a b => { vr := [(a.toNat, 1), (b.toNat, 1)], vw := [(d.toNat, 1)] }
  | .andn d a b => { vr := [(a.toNat, 1), (b.toNat, 1)], vw := [(d.toNat, 1)] }
  | .shl d a b => { vr := [(a.toNat, 1), (b.toNat, 1)], vw := [(d.toNat, 1)] }
  | .shr d a b => { vr := [(a.toNat, 1), (b.toNat, 1)], vw := [(d.toNat, 1)] }
  | .sar d a b => { vr := [(a.toNat, 1), (b.toNat, 1)], vw := [(d.toNat, 1)] }
  | .rot d a b => { vr := [(a.toNat, 1), (b.toNat, 1)], vw := [(d.toNat, 1)] }
  | .clz d a => { vr := [(a.toNat, 1)], vw := [(d.toNat, 1)] }
  | .popc d a => { vr := [(a.toNat, 1)], vw := [(d.toNat, 1)] }
  | .brev d a => { vr := [(a.toNat, 1)], vw := [(d.toNat, 1)] }
  | .bfeN32 d a b => { vr := [(a.toNat, 1), (b.toNat, 1)], vw := [(d.toNat, 1)] }
  | .bfeI32 d a b => { vr := [(a.toNat, 1), (b.toNat, 1)], vw := [(d.toNat, 1)] }
  | .bfi d a b => { vr := [(d.toNat, 1), (a.toNat, 1), (b.toNat, 1)], vw := [(d.toNat, 1)] }
  | .bilv d a b => { vr := [(a.toNat, 1), (b.toNat, 1)], vw := [(d.toNat, 1)] }
  | .bdlv d a b => { vr := [(a.toNat, 1), (b.toNat, 1)], vw := [(d.toNat, 1)] }
  | .iaddImm d a _ => { vr := [(a.toNat, 1)], vw := [(d.toNat, 1)] }
  | .andImm d a _ => { vr := [(a.toNat, 1)], vw := [(d.toNat, 1)] }
  | .orImm d a _ => { vr := [(a.toNat, 1)], vw := [(d.toNat, 1)] }
  | .xorImm d a _ => { vr := [(a.toNat, 1)], vw := [(d.toNat, 1)] }
  | .shlImm d a _ => { vr := [(a.toNat, 1)], vw := [(d.toNat, 1)] }
  | .shrImm d a _ => { vr := [(a.toNat, 1)], vw := [(d.toNat, 1)] }
  | .sarImm d a _ => { vr := [(a.toNat, 1)], vw := [(d.toNat, 1)] }
  | .movi d _ => { vw := [(d.toNat, 1)] }
  | .icmp _ p a b => { vr := [(a.toNat, 1), (b.toNat, 1)], pw := [(p.toNat, 1)] }
  | .mix32 d a b => { vr := [(a.toNat, 1), (b.toNat, 1)], vw := [(d.toNat, 1)] }
  | .shfl d a b => { vr := [(a.toNat, 1), (b.toNat, 1)], vw := [(d.toNat, 1)] }
  | .lscanAdd d a _ p => { vr := [(a.toNat, 1)], vw := [(d.toNat, 1)], pr := [(p.toNat, 1)] }
  | .lscanAnd d a _ p => { vr := [(a.toNat, 1)], vw := [(d.toNat, 1)], pr := [(p.toNat, 1)] }
  | .lscanOr d a _ p => { vr := [(a.toNat, 1)], vw := [(d.toNat, 1)], pr := [(p.toNat, 1)] }
  | .lscanXor d a _ p => { vr := [(a.toNat, 1)], vw := [(d.toNat, 1)], pr := [(p.toNat, 1)] }
  | .lscanMinI32 d a _ p => { vr := [(a.toNat, 1)], vw := [(d.toNat, 1)], pr := [(p.toNat, 1)] }
  | .lscanMaxI32 d a _ p => { vr := [(a.toNat, 1)], vw := [(d.toNat, 1)], pr := [(p.toNat, 1)] }
  | .regroup d a b => { vr := [(a.toNat, 1), (b.toNat, 1)], vw := [(d.toNat, 1)] }
  | .sel d a b p => { vr := [(a.toNat, 1), (b.toNat, 1)], vw := [(d.toNat, 1)], pr := [(p.toNat, 1)] }
  | .mov d a => { vr := [(a.toNat, 1)], vw := [(d.toNat, 1)] }
  | .movs d x => { vw := [(d.toNat, x.regs)] }
  | .voteAny d a => { pr := [(a.toNat, 1)], pw := [(d.toNat, 1)] }
  | .voteAll d a => { pr := [(a.toNat, 1)], pw := [(d.toNat, 1)] }
  | .voteBall d a => { vw := [(d.toNat, 1)], pr := [(a.toNat, 1)] }
  | .v2s a s => { vr := [(a.toNat, 1)], sw := [(s.toNat, 1)] }
  | .s2v d s => { vw := [(d.toNat, 1)], sr := [(s.toNat, 1)] }
  | .lbcast d a s => { vr := [(a.toNat, 1)], vw := [(d.toNat, 1)], sr := [(s.toNat, 1)] }
  | .lredAdd d a => { vr := [(a.toNat, 1)], vw := [(d.toNat, 1)] }
  | .lredAnd d a => { vr := [(a.toNat, 1)], vw := [(d.toNat, 1)] }
  | .lredOr d a => { vr := [(a.toNat, 1)], vw := [(d.toNat, 1)] }
  | .lredXor d a => { vr := [(a.toNat, 1)], vw := [(d.toNat, 1)] }
  | .lredMinI32 d a => { vr := [(a.toNat, 1)], vw := [(d.toNat, 1)] }
  | .lredMaxI32 d a => { vr := [(a.toNat, 1)], vw := [(d.toNat, 1)] }
  | .iaddU d a b => { sr := [(a.toNat, 1), (b.toNat, 1)], sw := [(d.toNat, 1)] }
  | .isubU d a b => { sr := [(a.toNat, 1), (b.toNat, 1)], sw := [(d.toNat, 1)] }
  | .imulU d a b => { sr := [(a.toNat, 1), (b.toNat, 1)], sw := [(d.toNat, 1)] }
  | .imulhI32U d a b => { sr := [(a.toNat, 1), (b.toNat, 1)], sw := [(d.toNat, 1)] }
  | .imulhN32U d a b => { sr := [(a.toNat, 1), (b.toNat, 1)], sw := [(d.toNat, 1)] }
  | .imadU d a b => { sr := [(d.toNat, 1), (a.toNat, 1), (b.toNat, 1)], sw := [(d.toNat, 1)] }
  | .iminI32U d a b => { sr := [(a.toNat, 1), (b.toNat, 1)], sw := [(d.toNat, 1)] }
  | .iminN32U d a b => { sr := [(a.toNat, 1), (b.toNat, 1)], sw := [(d.toNat, 1)] }
  | .imaxI32U d a b => { sr := [(a.toNat, 1), (b.toNat, 1)], sw := [(d.toNat, 1)] }
  | .imaxN32U d a b => { sr := [(a.toNat, 1), (b.toNat, 1)], sw := [(d.toNat, 1)] }
  | .iabsU d a => { sr := [(a.toNat, 1)], sw := [(d.toNat, 1)] }
  | .inegU d a => { sr := [(a.toNat, 1)], sw := [(d.toNat, 1)] }
  | .leaU d a b => { sr := [(a.toNat, 2), (b.toNat, 1)], sw := [(d.toNat, 2)] }
  | .iadd64U d a b => { sr := [(a.toNat, 2), (b.toNat, 2)], sw := [(d.toNat, 2)] }
  | .andU d a b => { sr := [(a.toNat, 1), (b.toNat, 1)], sw := [(d.toNat, 1)] }
  | .orU d a b => { sr := [(a.toNat, 1), (b.toNat, 1)], sw := [(d.toNat, 1)] }
  | .xorU d a b => { sr := [(a.toNat, 1), (b.toNat, 1)], sw := [(d.toNat, 1)] }
  | .andnU d a b => { sr := [(a.toNat, 1), (b.toNat, 1)], sw := [(d.toNat, 1)] }
  | .shlU d a b => { sr := [(a.toNat, 1), (b.toNat, 1)], sw := [(d.toNat, 1)] }
  | .shrU d a b => { sr := [(a.toNat, 1), (b.toNat, 1)], sw := [(d.toNat, 1)] }
  | .sarU d a b => { sr := [(a.toNat, 1), (b.toNat, 1)], sw := [(d.toNat, 1)] }
  | .rotU d a b => { sr := [(a.toNat, 1), (b.toNat, 1)], sw := [(d.toNat, 1)] }
  | .clzU d a => { sr := [(a.toNat, 1)], sw := [(d.toNat, 1)] }
  | .popcU d a => { sr := [(a.toNat, 1)], sw := [(d.toNat, 1)] }
  | .brevU d a => { sr := [(a.toNat, 1)], sw := [(d.toNat, 1)] }
  | .bfeN32U d a b => { sr := [(a.toNat, 1), (b.toNat, 1)], sw := [(d.toNat, 1)] }
  | .bfeI32U d a b => { sr := [(a.toNat, 1), (b.toNat, 1)], sw := [(d.toNat, 1)] }
  | .bfiU d a b => { sr := [(d.toNat, 1), (a.toNat, 1), (b.toNat, 1)], sw := [(d.toNat, 1)] }
  | .bilvU d a b => { sr := [(a.toNat, 1), (b.toNat, 1)], sw := [(d.toNat, 1)] }
  | .bdlvU d a b => { sr := [(a.toNat, 1), (b.toNat, 1)], sw := [(d.toNat, 1)] }
  | .icmpU d a b _ => { sr := [(a.toNat, 1), (b.toNat, 1)], sw := [(d.toNat, 1)] }
  | .movsU d x => { sw := [(d.toNat, x.regs)] }
  | .movU d a => { sr := [(a.toNat, 1)], sw := [(d.toNat, 1)] }
  | .mix32U d a b => { sr := [(a.toNat, 1), (b.toNat, 1)], sw := [(d.toNat, 1)] }
  | .iaddUimm d a _ => { sr := [(a.toNat, 1)], sw := [(d.toNat, 1)] }
  | .andUimm d a _ => { sr := [(a.toNat, 1)], sw := [(d.toNat, 1)] }
  | .orUimm d a _ => { sr := [(a.toNat, 1)], sw := [(d.toNat, 1)] }
  | .xorUimm d a _ => { sr := [(a.toNat, 1)], sw := [(d.toNat, 1)] }
  | .shlUimm d a _ => { sr := [(a.toNat, 1)], sw := [(d.toNat, 1)] }
  | .shrUimm d a _ => { sr := [(a.toNat, 1)], sw := [(d.toNat, 1)] }
  | .sarUimm d a _ => { sr := [(a.toNat, 1)], sw := [(d.toNat, 1)] }
  | .moviU d _ => { sw := [(d.toNat, 1)] }
  | .fadd d a b _ => { vr := [(a.toNat, 1), (b.toNat, 1)], vw := [(d.toNat, 1)] }
  | .fmul d a b _ => { vr := [(a.toNat, 1), (b.toNat, 1)], vw := [(d.toNat, 1)] }
  | .ffma d a b _ => { vr := [(d.toNat, 1), (a.toNat, 1), (b.toNat, 1)], vw := [(d.toNat, 1)] }
  | .fsub d a b => { vr := [(a.toNat, 1), (b.toNat, 1)], vw := [(d.toNat, 1)] }
  | .fmin d a b => { vr := [(a.toNat, 1), (b.toNat, 1)], vw := [(d.toNat, 1)] }
  | .fmax d a b => { vr := [(a.toNat, 1), (b.toNat, 1)], vw := [(d.toNat, 1)] }
  | .fcmp _ p a b => { vr := [(a.toNat, 1), (b.toNat, 1)], pw := [(p.toNat, 1)] }
  | .fclass d a => { vr := [(a.toNat, 1)], vw := [(d.toNat, 1)] }
  | .fclassFlg d => { vw := [(d.toNat, 1)] }
  | .fclassFlgclr d => { vw := [(d.toNat, 1)] }
  | .frnd d a => { vr := [(a.toNat, 1)], vw := [(d.toNat, 1)] }
  | .frndRz d a => { vr := [(a.toNat, 1)], vw := [(d.toNat, 1)] }
  | .frndRd d a => { vr := [(a.toNat, 1)], vw := [(d.toNat, 1)] }
  | .frndRu d a => { vr := [(a.toNat, 1)], vw := [(d.toNat, 1)] }
  | .hadd2F16 d a b => { vr := [(a.toNat, 1), (b.toNat, 1)], vw := [(d.toNat, 1)] }
  | .hadd2Bf16 d a b => { vr := [(a.toNat, 1), (b.toNat, 1)], vw := [(d.toNat, 1)] }
  | .hmul2F16 d a b => { vr := [(a.toNat, 1), (b.toNat, 1)], vw := [(d.toNat, 1)] }
  | .hmul2Bf16 d a b => { vr := [(a.toNat, 1), (b.toNat, 1)], vw := [(d.toNat, 1)] }
  | .hfma2F16 d a b => { vr := [(d.toNat, 1), (a.toNat, 1), (b.toNat, 1)], vw := [(d.toNat, 1)] }
  | .hfma2Bf16 d a b => { vr := [(d.toNat, 1), (a.toNat, 1), (b.toNat, 1)], vw := [(d.toNat, 1)] }
  | .rcp d a => { vr := [(a.toNat, 1)], vw := [(d.toNat, 1)] }
  | .rsq d a => { vr := [(a.toNat, 1)], vw := [(d.toNat, 1)] }
  | .sqrt d a => { vr := [(a.toNat, 1)], vw := [(d.toNat, 1)] }
  | .exp2 d a => { vr := [(a.toNat, 1)], vw := [(d.toNat, 1)] }
  | .log2 d a => { vr := [(a.toNat, 1)], vw := [(d.toNat, 1)] }
  | .sin d a => { vr := [(a.toNat, 1)], vw := [(d.toNat, 1)] }
  | .cos d a => { vr := [(a.toNat, 1)], vw := [(d.toNat, 1)] }
  | .cvt d a dty sty _ _ => { vr := [(a.toNat, sty.regs)], vw := [(d.toNat, dty.regs)] }
  | .qhist d a b => { vr := [(d.toNat, 1), (a.toNat, 1), (b.toNat, 1)], vw := [(d.toNat, 1)] }
  | .qscale d a b => { vr := [(a.toNat, 1), (b.toNat, 1)], vw := [(d.toNat, 1)] }
  | .qpack d a b => { vr := [(a.toNat, 1), (b.toNat, 1)], vw := [(d.toNat, 1)] }
  | .ld d a _ z => { vr := [(a.toNat, 2)], vw := [(d.toNat, z.regs)] }
  | .st d a _ z => { vr := [(d.toNat, z.regs), (a.toNat, 2)] }
  | .atomAdd d a b => { vr := [(a.toNat, 2), (b.toNat, 1)], vw := [(d.toNat, 1)] }
  | .atomAnd d a b => { vr := [(a.toNat, 2), (b.toNat, 1)], vw := [(d.toNat, 1)] }
  | .atomOr d a b => { vr := [(a.toNat, 2), (b.toNat, 1)], vw := [(d.toNat, 1)] }
  | .atomXor d a b => { vr := [(a.toNat, 2), (b.toNat, 1)], vw := [(d.toNat, 1)] }
  | .atomMinI32 d a b => { vr := [(a.toNat, 2), (b.toNat, 1)], vw := [(d.toNat, 1)] }
  | .atomMaxI32 d a b => { vr := [(a.toNat, 2), (b.toNat, 1)], vw := [(d.toNat, 1)] }
  | .atomMinN32 d a b => { vr := [(a.toNat, 2), (b.toNat, 1)], vw := [(d.toNat, 1)] }
  | .atomMaxN32 d a b => { vr := [(a.toNat, 2), (b.toNat, 1)], vw := [(d.toNat, 1)] }
  | .atomXchg d a b => { vr := [(a.toNat, 2), (b.toNat, 1)], vw := [(d.toNat, 1)] }
  | .atomCas d a b => { vr := [(d.toNat, 1), (a.toNat, 2), (b.toNat, 1)], vw := [(d.toNat, 1)] }
  | .atomFadd d a b => { vr := [(a.toNat, 2), (b.toNat, 1)], vw := [(d.toNat, 1)] }
  | .atomXacc a b => { vr := [(a.toNat, 2), (b.toNat, 1)] }
  | .xaccRd d a => { vr := [(a.toNat, 2)], vw := [(d.toNat, 1)] }
  | .xaccRdClr d a => { vr := [(a.toNat, 2)], vw := [(d.toNat, 1)] }
  | .pref a => { vr := [(a.toNat, 2)] }
  | .prefSc a => { vr := [(a.toNat, 2)] }
  | .atomAddN64 d a b => { vr := [(a.toNat, 2), (b.toNat, 2)], vw := [(d.toNat, 2)] }
  | .atomCasB64 d a b => { vr := [(d.toNat, 2), (a.toNat, 2), (b.toNat, 2)], vw := [(d.toNat, 2)] }
  | .ldSB32 d a b => { vr := [(a.toNat, 1), (b.toNat, 1)], vw := [(d.toNat, 1)] }
  | .ldSB64 d a b => { vr := [(a.toNat, 1), (b.toNat, 1)], vw := [(d.toNat, 2)] }
  | .stSB32 d a b => { vr := [(d.toNat, 1), (a.toNat, 1), (b.toNat, 1)] }
  | .stSB64 d a b => { vr := [(d.toNat, 2), (a.toNat, 1), (b.toNat, 1)] }
  | .cmnEwAddI32 a b => { vr := [(a.toNat, 2), (b.toNat, 1)] }
  | .cmnEwAddF32 a b => { vr := [(a.toNat, 2), (b.toNat, 1)] }
  | .cmnEwMaxF32 a b => { vr := [(a.toNat, 2), (b.toNat, 1)] }
  | .cmnRedAddI32 d a b => { vr := [(a.toNat, 2), (b.toNat, 1)], vw := [(d.toNat, 1)] }
  | .cmnRedAddF32 d a b => { vr := [(a.toNat, 2), (b.toNat, 1)], vw := [(d.toNat, 1)] }
  | .cmnRedMaxF32 d a b => { vr := [(a.toNat, 2), (b.toNat, 1)], vw := [(d.toNat, 1)] }
  | .mwait g _ a b => { vr := [(a.toNat, 2), (b.toNat, (1 + g.toNat))] }
  | .tlbInv a b => { sr := [(a.toNat, 1), (b.toNat, 2)] }
  | .asidBind d a b => { sr := [(a.toNat, 1), (b.toNat, 2)], sw := [(d.toNat, 1)] }
  | .asidFree d a => { sr := [(a.toNat, 1)], sw := [(d.toNat, 1)] }
  | .asidStat d a => { sr := [(a.toNat, 1)], sw := [(d.toNat, 1)] }
  | .pgMig d a b => { sr := [(a.toNat, 2), (b.toNat, 2)], sw := [(d.toNat, 1)] }
  | .pfResume d a b => { sr := [(a.toNat, 1), (b.toNat, 1)], sw := [(d.toNat, 1)] }
  | .bbMove d a b => { sr := [(a.toNat, 1), (b.toNat, 2)], sw := [(d.toNat, 1)] }
  | .cpy a b => { sr := [(a.toNat, 8), (b.toNat, (if b = 0 then 0 else 4))] }
  | .cpyFill a b => { sr := [(a.toNat, 8), (b.toNat, (if b = 0 then 0 else 4))] }
  | .tbrInit a b => { sr := [(a.toNat, 2), (b.toNat, 1)] }
  | .tbrArrive d a => { sr := [(a.toNat, 2)], sw := [(d.toNat, 1)] }
  | .tbrOwe a b => { sr := [(a.toNat, 2), (b.toNat, 1)] }
  | .tbrRetire a => { sr := [(a.toNat, 2)] }
  | .strOpen _ s => { sr := [(s.toNat, 6)] }
  | .strOpeni _ s => { sr := [(s.toNat, 8)] }
  | .strAdv _ s => { sr := [(s.toNat, 1)] }
  | .strPop d _ => { vw := [(d.toNat, 1)] }
  | .strPush _ a => { vr := [(a.toNat, 1)] }
  | .strTend p _ => { pw := [(p.toNat, 1)] }
  | .fibOpen _ s => { sr := [(s.toNat, 7)] }
  | .fibAdv d a _ => { vw := [(d.toNat, 1), (a.toNat, 1)] }
  | .fibTend p _ => { pw := [(p.toNat, 1)] }
  | .xrCap s => { sr := [(s.toNat, 4)] }
  | .xrRoute d a s => { vr := [(a.toNat, 1)], vw := [(d.toNat, 1)], sr := [(s.toNat, 3)] }
  | .taskPost d a => { sr := [(a.toNat, 1)], sw := [(d.toNat, 1)] }
  | .taskSpawn d a b => { sr := [(a.toNat, 1), (b.toNat, 2)], sw := [(d.toNat, 1)] }
  | .tbufFull d a => { sr := [(a.toNat, 1)], sw := [(d.toNat, 1)] }
  | .tbufEmpty d a => { sr := [(a.toNat, 1)], sw := [(d.toNat, 1)] }
  | .tbufStat d a => { sr := [(a.toNat, 1)], sw := [(d.toNat, 2)] }
  | .mm _ a b _ _ _ => { sr := [(a.toNat, 2), (b.toNat, 2)] }
  | .mmSp _ a b _ _ _ => { sr := [(a.toNat, 2), (b.toNat, 2)] }
  | .mmPerm _ _ b => { sr := [(b.toNat, 2)] }
  | .mmScacc _ _ b => { sr := [(b.toNat, 2)] }
  | .seqLoop d a => { sr := [(a.toNat, 1)], sw := [(d.toNat, 1)] }
  | .tokGive _ a => { sr := [(a.toNat, 1)] }
  | .seqBarMatrix _ a => { sr := [(a.toNat, 1)] }
  | .accLd d _ b => { vr := [(b.toNat, 1)], vw := [(d.toNat, 1)] }
  | .accSt d _ b => { vr := [(d.toNat, 1), (b.toNat, 1)] }
  | .planePack d a b => { vr := [(a.toNat, 1), (b.toNat, 1)], vw := [(d.toNat, 1)] }
  | .planeUnpack d a b => { vr := [(a.toNat, 1), (b.toNat, 1)], vw := [(d.toNat, 1)] }
  | .beamMake d a => { vr := [(a.toNat, 2)], vw := [(d.toNat, 1)] }
  | .beamCast d a s => { vr := [(a.toNat, 1)], vw := [(d.toNat, 2)], sr := [(s.toNat, 5)] }
  | .beamNext d a s => { vr := [(a.toNat, 1)], vw := [(d.toNat, 2)], sr := [(s.toNat, 5)] }
  | .beamFree d a => { vr := [(a.toNat, 1)], vw := [(d.toNat, 1)] }
  | .beamStat d a => { vr := [(a.toNat, 1)], vw := [(d.toNat, 1)] }
  | .rayCast d a s => { vr := [(a.toNat, 2)], vw := [(d.toNat, 1)], sr := [(s.toNat, 2)] }
  | .rayNext d a s => { vr := [(a.toNat, 2)], vw := [(d.toNat, 1)], sr := [(s.toNat, 2)] }
  | .rayResume d a s => { vr := [(a.toNat, 2)], vw := [(d.toNat, 1)], sr := [(s.toNat, 2)] }
  | .texSamp d a b => { vr := [(a.toNat, 2), (b.toNat, 3)], vw := [(d.toNat, 4)] }
  | .texFoot d a b => { vr := [(a.toNat, 2), (b.toNat, 6)], vw := [(d.toNat, 4)] }
  | .texLod d a b => { vr := [(a.toNat, 2), (b.toNat, 6)], vw := [(d.toNat, 1)] }
  | .rastTri d a s => { vr := [(a.toNat, 2)], vw := [(d.toNat, 1)], sr := [(s.toNat, 2)] }
  | .rastNext d a s => { vr := [(a.toNat, 2)], vw := [(d.toNat, 1)], sr := [(s.toNat, 2)] }
  | .plvl d a => { sr := [(a.toNat, 1)], sw := [(d.toNat, 1)] }
  | .plvlRd d => { sw := [(d.toNat, 1)] }
  | .time d => { sw := [(d.toNat, 2)] }
  | .cyc d => { sw := [(d.toNat, 2)] }
  | .dline d a => { sr := [(a.toNat, 2)], sw := [(d.toNat, 2)] }
  | .cntRd d a => { sr := [(a.toNat, 1)], sw := [(d.toNat, 2)] }
  | .sysRd d a _ => { sr := [(a.toNat, 1)], sw := [(d.toNat, 2)] }
  | .sysWr d a _ => { sr := [(a.toNat, 3)], sw := [(d.toNat, 1)] }
  | .almSet d a _ => { sr := [(a.toNat, 2)], sw := [(d.toNat, 1)] }
  | .yoke d a => { sr := [(a.toNat, 1)], sw := [(d.toNat, 1)] }
  | .modeStacks d a => { sr := [(a.toNat, 1)], sw := [(d.toNat, 1)] }
  | .mclkSw d a => { sr := [(a.toNat, 1)], sw := [(d.toNat, 1)] }
  | .repStat d a => { sr := [(a.toNat, 1)], sw := [(d.toNat, 2)] }
  | .wpSet d a _ => { sr := [(a.toNat, 8)], sw := [(d.toNat, 1)] }
  | .wpClr d a _ => { sr := [(a.toNat, 1)], sw := [(d.toNat, 1)] }
  | .dbgHalt d a => { sr := [(a.toNat, 1)], sw := [(d.toNat, 1)] }
  | .dbgRes d a => { sr := [(a.toNat, 1)], sw := [(d.toNat, 1)] }
  | .dbgStep d a => { sr := [(a.toNat, 2)], sw := [(d.toNat, 1)] }
  | .dbgRdv d a => { sr := [(a.toNat, 2)], sw := [(d.toNat, 3)] }
  | .dbgWrv d a => { sr := [(a.toNat, 4)], sw := [(d.toNat, 1)] }
  | .dbgPaths d a => { sr := [(a.toNat, 1)], sw := [(d.toNat, 4)] }
  | .trcOn d a => { sr := [(a.toNat, 4)], sw := [(d.toNat, 1)] }
  | .trcOff d a => { sr := [(a.toNat, 1)], sw := [(d.toNat, 1)] }
  | .trcMark a => { sr := [(a.toNat, 1)] }
  | _ => {}

/-- Registers written, as a lane file register or a uniform or predicate one; a write to s0 or p7 counts as none (R37). -/
def Uses.writesV (u : Uses) : List Nat := runOf u.vw
def Uses.writesS (u : Uses) : List Nat := (runOf u.sw).filter (· ≠ 0)
def Uses.writesP (u : Uses) : List Nat := (runOf u.pw).filter (· ≠ 7)

end Sys2Proof.Machine
end

