-- ==== Sys2Proof/Machine/Ops.lean ====
section
/-! DEFINITION. The operations that instructions and events share: trace packets, parking, waking, the end of a context, vectors, trap entry
and return, lane_off, splits, joins, group barriers, level targets, the exit of lanes, warps and gangs, and the pre-emption machine. -/

namespace Sys2Proof.Machine

/-! ### The window of the memory clock (16_stack R360) -/

/-- The window of a switch of the memory clock is running, and what this step reads or writes in GDDR misses the stacked cache (R360). -/
def State.windowMiss (s : State) : Bool := (s.sys.mclkEnd.any fun e => decide (s.now < e)) && Config.missesCache s.sys.seq

/-- An access to GDDR waits for the memory-clock window (R360). -/
def State.windowHolds (s : State) (k : Nat) : Bool := s.windowMiss && decide (k < gddrTop)

/-! ### Trace (17_debug R377 to R379) -/

/-- Bytes of a trace ring with 2^n slots. -/
def ringBytes (n : Nat) : Nat := (64 + 16 * 2 ^ n + 4095) / 4096 * 4096
/-- Physical base of the ring of the warp in focus. -/
def State.ringBase (s : State) : Nat := s.me.trc.base.toNat + s.me.w * ringBytes s.me.trc.logn

def State.setTrc (s : State) (t : Trace) : State := { s with me := { s.me with trc := t } }

/-- Writes one packet to the ring, or counts it as dropped (R378). -/
def State.ringPut (s : State) (ty path : Nat) (a : BitVec 32) (b : BitVec 64) : State :=
  let t := s.me.trc
  let base := s.ringBase
  let wp := s.rd base 8
  let rp := s.rd (base + 8) 8
  let cyc := (s.core s.coreNo).cyc
  if (wp + 2 ^ 64 - rp) % 2 ^ 64 = 2 ^ t.logn then
    (s.wr (base + 16) 8 (s.rd (base + 16) 8 + 1)).setTrc { t with dropped := true }
  else
    let dcyc := min (cyc - t.last).toNat 0xFFFF
    let s := s.put (base + 64 + 16 * (wp % 2 ^ t.logn))
      (leBytes 4 (ty + path % 64 * 16 + dcyc * 2 ^ 16) ++ leBytes 4 a.toNat ++ leBytes 8 b.toNat)
    let s := s.wr base 8 (wp + 1)
    { s with me := { s.me with trc := { t with last := cyc },
                               cur := if s.me.cur.id = path then { s.me.cur with groups := 0 } else s.me.cur,
                               paths := s.me.paths.map fun p => if p.id = path then { p with groups := 0 } else p } }

/-- STATE as dbg.paths and SYNC packets give it (04_control R92). -/
def PState.code : PState → Nat
  | .ready => 1
  | .join _ _ => 2
  | .held _ => 3
  | .parked _ => 4
  | .stopped _ => 5

/-- B of a SYNC packet (R379). -/
def Path.place (p : Path) : BitVec 64 := BitVec.ofNat 64 (p.pc.toNat + p.wpos * 2 ^ 48 + p.st.code * 2 ^ 50)

/-- One SYNC packet for each live path. -/
def State.traceSync (s : State) : State := s.me.live.foldl (fun s p => s.ringPut 1 p.id p.mask p.place) s

/-- The SYNC packets after a loss. A path in the midst of its chain group stands at that group, which then counts among those since its packet (R379). -/
def State.lossSync (s : State) : State :=
  let p := s.me.cur
  if s.here.gid ≠ 0 && s.here.gid == s.me.gid && s.here.w == s.me.w then
    let t := s.me.live.foldl (fun s q => s.ringPut 1 q.id q.mask (if q.id = p.id then { q with pc := s.here.pc, wpos := s.here.wpos } else q).place) s
    { t with me := { t.me with cur := { t.me.cur with groups := min 1 p.groups } } }
  else s.traceSync

/-- After a loss, a DROP packet and SYNC packets go before the next one (R378). -/
def State.traceLoss (s : State) (path : Nat) : State :=
  let base := s.ringBase
  let room := (s.rd base 8 + 2 ^ 64 - s.rd (base + 8) 8) % 2 ^ 64 ≠ 2 ^ s.me.trc.logn
  if s.me.trc.on && s.me.trc.dropped && decide room then
    ((s.setTrc { s.me.trc with dropped := false }).ringPut 14 path (BitVec.ofNat 32 (s.rd (base + 16) 8)) 0).lossSync
  else s

/-- A trace packet where the warp is traced (R378). -/
def State.trace (s : State) (ty path : Nat) (a : BitVec 32) (b : BitVec 64) : State :=
  if !s.me.trc.on then s else (s.traceLoss path).ringPut ty path a b

/-- A packet that EV enables (R377). -/
def State.traceEv (s : State) (ty path : Nat) (a : BitVec 32) (b : BitVec 64) : State :=
  if s.me.trc.ev then s.trace ty path a b else s

/-! ### Paths -/

/-- A place: packet address and word position. -/
abbrev Place := BitVec 48 × Nat

def State.setCur (s : State) (p : Path) : State := { s with me := { s.me with cur := p } }
/-- Changes the state of the path in focus. -/
def State.setSt (s : State) (st : PState) : State := s.setCur { s.me.cur with st := st }
/-- Puts the path in focus at a place. -/
def State.goto (s : State) (pc : BitVec 48) (wpos : Nat) : State := s.setCur { s.me.cur with pc := pc, wpos := wpos }
/-- Puts the path in focus back at the chain group being executed, to be issued again. -/
def State.again (s : State) : State := s.goto s.here.pc s.here.wpos

/-- A path is STOPPED by a halt (17_debug R368). -/
def PState.isStopped : PState → Bool
  | .stopped _ => true
  | _ => false

/-- A warp after a change of its paths from those of `x`: it is halted no more once the last STOPPED path is gone (17_debug R368). -/
def Warp.unhaltedFrom (y x : Warp) : Warp :=
  { y with halted := y.halted && (!(x.live.any fun p => p.st.isStopped) || y.live.any fun p => p.st.isStopped) }

/-- The state of a path whose wait or fault is over: STOPPED in place of READY in a halted warp (17_debug R368). -/
def Warp.woken (x : Warp) : PState := if x.halted then .stopped none else .ready

/-- In a halted warp, STOPPED in place of READY (17_debug R368). -/
def State.stopIfHalted (s : State) : State := if s.me.cur.st = .ready then s.setSt s.me.woken else s

/-- Holds the path in focus; it goes on at the next chain group when it is released. -/
def State.hold (s : State) (w : Wait) : State := s.setSt (.held w)
/-- Holds the path in focus at its chain group, which is issued again when it is released. -/
def State.holdHere (s : State) (w : Wait) : State := s.again.hold w

/-- Parks the path in focus at its chain group (10_translation R244): the unfinished lanes replay. -/
def State.park (s : State) (kind code : Nat) (va : BitVec 64) (access : Nat) (unfinished : BitVec 32) : State :=
  let s := s.again
  s.setCur { s.me.cur with
    st := .parked { kind := kind, code := code, va := va, access := access, mask := unfinished, time := s.now,
                    npc := s.here.npc, nwpos := s.here.nwpos },
    replay := some unfinished }

/-- The chain group does not issue yet: it is tried again from its place, and nothing of it takes effect. -/
def State.retry (s : State) : State := { s.again with here := { s.here with trapped := true, retry := true } }

/-- Lanes that a memory/engine word acts on: those of the path, or the unfinished ones in a replay (R244). -/
def State.memMask (s : State) : BitVec 32 :=
  match s.me.cur.replay with
  | some m => m &&& s.me.cur.mask
  | none => s.me.cur.mask

/-- Marks that the chain group trapped: nothing of it takes effect (05_events R126). -/
def State.trapped (s : State) : State := { s with here := { s.here with trapped := true } }

/-! ### Ends of contexts and traps (05_events R126 to R132) -/

/-- Ends the context of the warp or sequencer in focus (R132); the record is of the first end. -/
def State.endContext (s : State) (cls code : Nat) (info : BitVec 64) : State :=
  let seq := s.issue == .seq
  let p := s.me.cur
  let r : EndRec := {
    cls := cls, code := code
    hmode := if seq then 0 else (match p.hmode with | .none => 0 | .trap => 1 | .pre => 2)
    path := if seq then 0xFE else p.id
    task := s.gang.task, gang := s.gang.index
    warp := if seq then 0xFFFFFFFF else BitVec.ofNat 32 s.me.w
    tmask := if seq then 0 else p.mask
    tpc := s.here.pc.setWidth 64, info := info, time := s.now }
  let c := s.ctx s.gang.asid
  let s := s.setCtx s.gang.asid { c with ending := some (c.ending.getD r) }
  if seq then s.trapped else s.again.trapped

/-- A vector of the context, by class: its address, 0 where no handler is set, or the fault of its read (R127). R127 does not say what an entry beyond the
end of the global addresses is: it acts as 0, with no fault (the model's choice, log 48). -/
def State.vector (s : State) (cls : Nat) : State × Except (Nat × BitVec 64) (BitVec 64) :=
  let base := (s.ctx s.gang.asid).tvbase
  if base = 0 || base.toNat % 64 ≠ 0 then (s, .ok 0)
  else
    let a := base + BitVec.ofNat 64 (8 * cls)
    if a.toNat / 2 ^ 48 ≠ 0 then (s, .ok 0)
    else match s.translate .read a.toNat with
      | (_, .error c) => (s, .error (c, a))
      | (t, .ok pa) =>
        let h := t.rd64 pa
        (t, .ok (if h.toNat % 12 ≠ 0 || h.toNat / 2 ^ 48 ≠ 0 then 0 else h))

/-- The 64 bytes of a frame (R129). -/
def frameBytes (tpc : BitVec 48) (twpos hmode path : Nat) (tmask : BitVec 32) (cls code : Nat) (info time hard : BitVec 64) :
    List (BitVec 8) :=
  leBytes 8 tpc.toNat ++ leBytes 1 twpos ++ leBytes 1 hmode ++ leBytes 1 path ++ leBytes 1 0 ++ leBytes 4 tmask.toNat ++
    leBytes 2 cls ++ leBytes 2 code ++ leBytes 4 0 ++ leBytes 8 info.toNat ++ leBytes 8 time.toNat ++ leBytes 8 hard.toNat ++ leBytes 16 0

/-- Writes a frame to the stack of every lane of a mask (R129). -/
def State.writeFrames (s : State) (m : BitVec 32) (bs : List (BitVec 8)) : State :=
  (lanesOf m).foldl (fun s l => s.put (s.me.stackAt l 512) bs) s

/-- Sends the path in focus to a trap handler (R128). Nothing of a replay of the trapped group is left: trap.ret 0 issues it again in every lane of the path,
also after a trap of class ACCESS that came when other lanes of it had performed, of which R131 and 10_translation R244 do not speak (the model's choice,
log 13). The place after the group is the one behind
its packet's last word of it, whichever of its words trapped. -/
def State.enterHandler (s : State) (h : BitVec 64) (cls code : Nat) (info : BitVec 64) : State :=
  let p := s.me.cur
  let n := p.after.getD (s.here.npc, s.here.nwpos)
  let s := s.writeFrames p.mask (frameBytes s.here.pc s.here.wpos 1 p.id p.mask cls code info s.now 0)
  let s := s.setCur { p with hmode := .trap, tpc := s.here.pc, twpos := s.here.wpos, tnpc := n.1, tnwpos := n.2,
                             pc := h.setWidth 48, wpos := 0, st := .ready, replay := none, snap := none, rpos := none, phase := 0, after := none }
  s.traceEv 9 p.id (BitVec.ofNat 32 (cls * 2 ^ 16 + code)) (s.here.pc.setWidth 64)

/-- Takes a trap (R128). `ops` are the operations whose locks a RANGE trap met. -/
def State.trapOn (s : State) (cls code : Nat) (info : BitVec 64) (ops : List Nat) : State :=
  if s.issue == .seq || s.me.cur.hmode != .none then s.endContext cls code info
  else if s.me.live.any (fun p => p.hmode != .none) then (s.holdHere .trapBusy).trapped
  else match s.vector cls with
    | (_, .error (c, a)) => (s.park 1 c a 0 s.me.cur.mask).trapped
    | (t, .ok h) =>
      if h ≠ 0 then (t.enterHandler h cls code info).trapped
      else if cls = 2 then (t.holdHere (.range ops)).trapped
      else t.endContext cls code info

def State.trap (s : State) (cls code : Nat) (info : BitVec 64) : State := s.trapOn cls code info []
/-- A program error (class 1). -/
def State.progErr (s : State) (code : Nat) (info : BitVec 64) : State := s.trap 1 code info

/-! ### Level targets (15_power R332, R333) -/

/-- Activities with a resident warp on a cluster. -/
def State.clusterActs (s : State) (cl : Nat) : List Nat :=
  ((s.allGangs.filter fun g => g.gid != 0 && g.st == .resident && clusterOf (32 * g.stk + g.core) == cl
      && s.allWarps.any fun x => x.gid == g.gid && !x.exited && x.pre.st != .saved).map Gang.alm).eraseDups

/-- An activity's request on a cluster, DEF where it has issued no plvl there. -/
def State.request (s : State) (cl a : Nat) : Nat :=
  match smGet 0 (s.clu cl).reqs a with
  | 0 => (smGet 0x28 s.pkg.lvl a).toNat / 16 % 16
  | r + 1 => r

/-- A cluster's target (R333). -/
def State.targetOf (s : State) (cl : Nat) : Nat :=
  let cap := if (s.stk (cl / 4)).warn then 2 else 8
  ((s.clusterActs cl).map fun a => min (min (s.request cl a) ((smGet 0x28 s.pkg.lvl a).toNat % 16)) (min s.pkg.pkgcap cap)).foldl max 0

/-- Drops the requests of activities that left a cluster and computes its target again (R332, R333). -/
def State.retarget (s : State) (cl : Nat) : State :=
  let c := s.clu cl
  let acts := s.clusterActs cl
  let s := s.setClu cl { c with reqs := c.reqs.filter (fun r => acts.contains r.1), asked := c.asked.filter fun r => acts.contains r.1 }
  let c := s.clu cl
  s.setClu cl { c with tgt := s.targetOf cl }

/-- Computes a cluster's target again where an activity of those that it had has left it, so that a request dropped (R333). -/
def State.retargetFrom (s : State) (cl : Nat) (before : List Nat) : State :=
  if before.all (s.clusterActs cl).contains then s else s.retarget cl

/-- Recomputes every cluster's target. -/
def State.retargetAll (s : State) : State := (List.range 12).foldl State.retarget s

/-! ### Group barriers (03_tasks R75 to R78) -/

def State.inst? (s : State) (id : Nat) : Option Inst := s.insts.find? fun i => i.id == id
def State.setInst (s : State) (i : Inst) : State := { s with insts := s.insts.map fun x => if x.id == i.id then i else x }
def Inst.group (i : Inst) (g : Nat) : Group := smGet {} i.groups g
/-- The member number of a warp in its instance. -/
def memberNo (gang w : Nat) : Nat := 32 * gang + w

/-- Releases the paths of an instance's warps that wait at a group whose phase their warp's arrival is no longer in (R76). -/
def State.releaseGroup (s : State) (inst g : Nat) : State :=
  match s.inst? inst with
  | none => s
  | some i =>
    let G := i.group g
    s.mapWarps fun x =>
      match s.gangOf? x.gid with
      | none => x
      | some k =>
        if k.inst == inst && G.phase != smGet 0 G.aphase (memberNo k.index x.w) then
          x.mapPaths fun p => if p.st = .held (.grp g) then { p with st := x.woken } else p
        else x

/-- The arrival of a member at a group, or its leave (R76, R77). -/
def State.arrive (s : State) (inst g m : Nat) (leaving : Bool) : State :=
  match s.inst? inst with
  | none => s
  | some i =>
    let G := i.group g
    let gone := if leaving then G.gone ++ [m] else G.gone
    if G.arrived.contains m then s.setInst { i with groups := smPut {} i.groups g { G with gone := gone } }
    else
      let arrived := G.arrived ++ [m]
      let ap := smPut 0 G.aphase m G.phase
      if arrived.length = G.members.length then
        let G' : Group := { members := G.members.filter fun x => !gone.contains x, arrived := [], gone := [], phase := G.phase + 1, aphase := ap }
        ((s.setInst { i with groups := smPut {} i.groups g G' }).note (grpNote inst g) (G.phase.setWidth 64)).releaseGroup inst g
      else s.setInst { i with groups := smPut {} i.groups g { G with arrived := arrived, aphase := ap, gone := gone } }

/-- The warp in focus leaves every group it is in (R77). -/
def State.leaveGroups (s : State) : State :=
  match s.inst? s.gang.inst with
  | none => s
  | some i =>
    let m := memberNo s.gang.index s.me.w
    (i.groups.filter fun x => x.2.members.contains m && !x.2.gone.contains m).foldl (fun s x => s.arrive s.gang.inst x.1 m true) s

/-! ### The fault mask record and lane_off (00_scope R7, 08_memory R197, R198) -/

/-- The fault ring at FMBASE takes records. -/
def ringOk (base : BitVec 64) : Bool :=
  base != 0 && base.toNat % 64 == 0 && decide (base.toNat < 2 ^ 40) && decide (base.toNat + 64 + 1024 * 64 ≤ gddrTop)

/-- Writes the fault mask record of a warp of the gang in focus, where it has one (R197, R198). -/
def State.faultRecord (s : State) (x : Warp) : State :=
  let base := (s.ctx s.gang.asid).fmbase
  if x.fm.codes = [] || !ringOk base then s
  else
    let b := base.toNat
    let n := s.rd b 8
    let s := s.wr b 8 (n + 1)
    let codes := (List.range 32).map fun l => smGet (0 : BitVec 8) x.fm.codes l
    let s := s.put (b + 64 + 64 * (n % 1024))
      (leBytes 4 s.gang.task ++ leBytes 4 s.gang.index ++ leBytes 2 x.w ++ leBytes 2 s.gang.asid ++
        leBytes 4 (maskOf fun l => codes.getD l 0 != 0).toNat ++ codes ++ leBytes 8 x.fm.addr.toNat ++ leBytes 8 x.fm.time.toNat)
    s.sendToken (BitVec.ofNat 64 (s.gang.asid * 2 ^ 16 + 2))

/-- The gang in focus exits: records, sequencer, resources (R197, 13_matrix R291). -/
def State.gangExit (s : State) : State :=
  let ws := (s.allWarps.filter fun x => x.gid == s.gang.gid)
  let s := (List.range 32).foldl (fun s w => (ws.filter fun x => x.w == w).foldl State.faultRecord s) s
  let g := s.gang
  { s with gang := { g with st := .exited, poolHeld := false, seq := if g.mx then { g.seq with st := .ended } else g.seq } }

/-- Closes the open streams of the warp in focus (12_streams R281): a load stream becomes CLOSED, a store stream CLOSING. -/
def State.closeStreams (s : State) : State :=
  let qs := s.me.streams
  let close (q : Nat × StreamReg) : Nat × StreamReg :=
    if q.2.st == .affine || q.2.st == .indirect then (q.1, { q.2 with st := if q.2.dir then .closing else .closed, ahead := 0 }) else q
  let ops := qs.filterMap fun q => if (q.2.st == .affine || q.2.st == .indirect) && q.2.dir then q.2.op else none
  { s with me := { s.me with streams := qs.map close },
           ops := s.ops.map fun o => if ops.contains o.id || (o.cls == 5 && o.gid == s.me.gid && o.w == s.me.w && o.locks == []) then { o with closing := true } else o }

/-- Does something with a path of any warp in focus at a place, and comes back. -/
def State.withPath (s : State) (gid w id : Nat) (h : Here) (f : State → State) : State :=
  let t := s.focus gid w
  let t := f { t with me := t.me.select id, here := h, issue := .lane }
  let t := t.refocus s.gang s.me
  { t with me := t.me.select s.me.cur.id, here := s.here, issue := s.issue }

/-- Takes a trap of the path in focus at its place, of a chain group that is not being issued (R128): one that would not be raised again if the group were.
While another path of the warp is in a handler, the path keeps the trap: PARKED with its answer where a pf.resume gave it, else HELD. Where the vector
table's read faults, it parks on that, and takes the trap once it resumes (R127). -/
def State.keptTrap (s : State) (a : Nat × Nat × BitVec 64) : State :=
  let p := s.me.cur
  if p.hmode != .none then s.endContext a.1 a.2.1 a.2.2
  else if s.me.live.any fun q => q.hmode != .none then
    match p.st with
    | .parked k => s.setSt (.parked { k with fid := none, action := some 2, trap := some a })
    | _ => s.setSt (.held (.trapKept a s.here.npc s.here.nwpos))
  else match s.vector a.1 with
    | (t, .ok h) => if h = 0 then t.endContext a.1 a.2.1 a.2.2 else (t.enterHandler h a.1 a.2.1 a.2.2).stopIfHalted
    | (_, .error (c, v)) =>
      s.setSt (.parked { kind := 1, code := c, va := v, access := 0, mask := p.mask, time := s.now, npc := s.here.npc, nwpos := s.here.nwpos, trap := some a })

/-- The trap that a path keeps until no path of its warp is in a handler, with the place after its chain group. -/
def Path.kept (p : Path) : Option ((Nat × Nat × BitVec 64) × Place) :=
  match p.st with
  | .parked k => if k.action == some 2 then k.trap.map fun a => (a, k.npc, k.nwpos) else none
  | .held (.trapKept a n k) => some (a, n, k)
  | _ => none

/-- Raises a program error in every path of the gang in focus that is held with a wait that `f` picks, at its own place. -/
def State.failHeld (s : State) (code : Nat) (f : Wait → Option Place) : State :=
  (s.allWarps.filter fun x => x.gid == s.gang.gid && !x.exited).foldl (fun s x =>
    x.live.foldl (fun s p => match p.st with
      | .held w => match f w with
        | some n => s.withPath x.gid x.w p.id { pc := p.pc, wpos := p.wpos, npc := n.1, nwpos := n.2 } fun t => t.keptTrap (1, code, 0)
        | none => s
      | _ => s) s) s

/-- A warp's gang is resident and the warp neither saved nor gone. -/
def State.onCore (s : State) (x : Warp) : Bool :=
  !x.exited && x.pre.st != .saved && (match s.gangOf? x.gid with | some g => g.st == .resident | none => false)

/-- An engine operation or migration of a warp's path has not registered yet. -/
def State.opWaits (s : State) (x : Warp) (p : Path) : Bool :=
  (s.ops.any fun o => o.gid == x.gid && o.w == x.w && (o.path == p.id || (o.dmask &&& p.mask) != 0) && (o.phase == .waitPlace || o.phase == .waitEntries)) ||
    s.sys.migs.any fun m => m.gid == x.gid && m.w == x.w && m.path == p.id && m.arr != []

/-- An event of a warp has not performed yet: an access in flight, or the registration of an engine operation or migration (09_ordering R215, R221). -/
def State.outstanding (s : State) (gid w : Nat) : Bool :=
  (s.accs.any fun a => a.gid == gid && a.w == w) ||
    (s.ops.any fun o => o.gid == gid && o.w == w && (o.phase == .waitPlace || o.phase == .waitEntries)) ||
    s.sys.migs.any fun m => m.gid == gid && m.w == w && m.arr != []

/-- Warps that exited leave their groups once each of their events has performed (03_tasks R77). -/
def State.leaveDue (s : State) : State :=
  ((s.allWarps.filter fun x => x.leaves && !s.outstanding x.gid x.w).map fun x => (x.gid, x.w)).foldl
    (fun s k => match s.warpOf? k.1 k.2 with
      | none => s
      | some _ =>
        let t := (s.focus k.1 k.2).leaveGroups
        ({ t with me := { t.me with leaves := false } } : State).refocus s.gang s.me) s

/-- The warp in focus exits (04_control R110): it leaves its groups, once its earlier events have performed, gives its tokens to the matrix side,
closes its streams; the last warp takes the gang with it. -/
def State.warpExit (s : State) : State :=
  let s := (if s.outstanding s.me.gid s.me.w then { s with me := { s.me with leaves := true } } else s.leaveGroups).closeStreams
  let g := s.gang
  let acts := s.clusterActs (clusterOf s.coreNo)
  let mine := (List.range 16).filter fun t => smGet 0 g.tokens t == s.me.w + 1 && !g.passing.any fun p => p.1 == t
  let s := { s with me := { s.me with exited := true, halted := false },
                    gang := { g with passing := g.passing ++ mine.map fun t => (t, 0) } }
  let w := s.me.w
  let s := s.failHeld 0x0604 fun h => match h with
    | .regroup m _ _ a b => if m.getLsbD w then some (a, b) else none
    | _ => none
  (if s.warps.any fun x => x.gid == s.gang.gid && !x.exited then s else s.gangExit).retargetFrom (clusterOf s.coreNo) acts

/-! ### Joins (04_control R107, R108) -/

/-- The JOIN path of a class that is to be released: every live path of the class is in JOIN; for ordinary paths none is away in a
handler. The one at the lowest place; R108 does not say which of two at one place, as dbg.res can leave them: the first in the live list (the model's
choice, log 48). -/
def Warp.toRelease (x : Warp) (h : Hmode) : Option (Path × BitVec 48 × Nat) :=
  let ps := x.live.filter fun p => p.hmode == h
  let js := ps.filterMap fun p => match p.st with | .join a b => some (p, a, b) | _ => none
  if js.length ≠ ps.length || (h == .none && x.live.any fun p => p.hmode != .none) then none
  else js.foldl (fun best c => match best with
    | none => some c
    | some b => if c.1.pc < b.1.pc || (c.1.pc == b.1.pc && decide (c.1.wpos < b.1.wpos)) then some c else some b) none

/-- Makes the release test for one class (R108). -/
def State.release (s : State) (h : Hmode) : State :=
  match s.me.toRelease h with
  | none => s
  | some (p, npc, nw) =>
    let go (q : Path) : Path := if q.mask != 0 && q.id == p.id then { q with st := .ready, pc := npc, wpos := nw } else q
    let s := ({ s with me := s.me.mapPaths go } : State).traceLoss p.id
    s.trace 7 p.id p.mask (BitVec.ofNat 64 (((s.me.path? p.id).map Path.groups).getD 0))

/-- Makes the release test for every class. -/
def State.releaseJoins (s : State) : State := ((s.release .pre).release .trap).release .none

/-! ### Pre-emption of the warp in focus (05_events R133 to R135) -/

def State.setPre (s : State) (p : Preempt) : State := { s with me := { s.me with pre := p } }

/-- The reason's code in the frame (R129). -/
def PreReason.code : PreReason → Nat
  | .stacks => 1
  | .priority => 2
  | .supervisor => 3
  | .repair => 4

/-- Paths that hold a resident entry (04_control R109). -/
def Warp.resident (x : Warp) : List Path := x.live.filter fun p => !x.overflow.contains p.id

/-- Makes room for a handler path: where no entry is free, the interrupted path that issued least recently goes to the list (R134). A free entry that the
head of the list is due to take is not free for it (R109). -/
def Warp.makeRoom (x : Warp) : Warp :=
  if x.live.length < 8 then x
  else
    let x : Warp := { x with overflow := x.overflow.drop (8 - x.resident.length) }
    let rs := x.resident
    match rs.foldl (fun (b : Option Path) p => match b with
      | none => some p
      | some q => if p.issued < q.issued || (p.issued == q.issued && decide (p.id < q.id)) then some p else b) none with
    | none => x
    | some p => { x with overflow := x.overflow ++ [p.id] }

/-- Handler entry for pre-emption at its handler's address (R134). -/
def State.enterPre (s : State) (h : BitVec 64) : State :=
  let m := s.me.lanes
  let pre := s.me.pre
  let s := s.writeFrames m (frameBytes 0 0 2 32 m 7 (PreReason.code pre.reason) 0 s.now pre.hard)
  let x := s.me.makeRoom
  let hp : Path := { id := 32, pc := h.setWidth 48, mask := m, hmode := .pre }
  let s := { s with me := { x with cur := hp, paths := x.live, pre := { pre with st := .hnd, hnd := true } } }
  s.traceEv 10 32 1 s.now

/-- A pending request takes effect as far as it can (R133): the hard save at once where a path is STOPPED (17_debug R370) or vector 7 is 0 or cannot be read
(R127), masked or not; else handler entry, where neither the mask nor trap handling holds it back. -/
def State.tryPre (s : State) : State :=
  if s.me.pre.st != .pending then s
  else if s.me.live.any fun p => match p.st with | .stopped _ => true | _ => false then s.setPre { s.me.pre with st := .hard }
  else match s.vector 7 with
    | (_, .error _) => s.setPre { s.me.pre with st := .hard }
    | (t, .ok h) =>
      if h = 0 then t.setPre { t.me.pre with st := .hard }
      else if t.me.pre.mask || t.me.live.any fun p => p.hmode == .trap then t
      else t.enterPre h

/-- Every live handler path is held at pre.done (R135): HND turns to DRAIN. -/
def State.preCheck (s : State) : State :=
  let hs := s.me.live.filter fun p => p.hmode == .pre
  if s.me.pre.st == .hnd && hs != [] && hs.all (fun p => match p.st with | .held (.preDone _) => true | _ => false) then
    s.setPre { s.me.pre with st := .drain }
  else s

/-- Once no path of the warp is in a handler, the traps that waited for that are taken (R128): by the chain groups that issue again, and by a path that
keeps its trap. R128 does not say which of several goes first: the first in the live list (the model's choice, log 48). -/
def State.retrap (s : State) : State :=
  if s.me.live.any fun p => p.hmode != .none then s
  else
    let s : State := { s with me := s.me.mapPaths fun p => if p.st = .held .trapBusy then { p with st := s.me.woken } else p }
    match s.me.live.findSome? fun p => p.kept.map fun k => (p, k) with
    | none => s
    | some (p, a, n) => s.withPath s.me.gid s.me.w p.id { pc := p.pc, wpos := p.wpos, npc := n.1, nwpos := n.2 } fun t => t.keptTrap a

/-- What follows when paths end, leave a handler or join (R108, R128, R133): the warp's exit, replay of held traps, a pending
pre-emption, releases. -/
def State.settle (s : State) : State :=
  if s.me.exited then s
  else if s.me.live = [] then s.warpExit
  else
    s.retrap.tryPre.preCheck.releaseJoins

/-- Takes lanes out of every path of the warp in focus (00_scope R7, 04_control R110, 05_events R134); paths left with no lane end. -/
def State.dropLanes (s : State) (m : BitVec 32) : State :=
  let dead := s.me.live.filter fun p => (p.mask &&& ~~~m) == 0
  let s := dead.foldl (fun s p => s.trace 13 p.id p.mask 0) s
  let x := s.me.mapPaths fun p => { p with mask := p.mask &&& ~~~m }
  { s with me := ({ x with overflow := x.overflow.filter fun i => !(dead.any fun p => p.id == i) } : Warp).unhaltedFrom s.me }

/-- lane_off for lanes with their codes and addresses (00_scope R7, 08_memory R195, R197). -/
def State.laneOff (s : State) (offs : List (Nat × Nat × BitVec 64)) : State :=
  match offs with
  | [] => s
  | o :: _ =>
    let fm := s.me.fm
    let codes := offs.foldl (fun c x => smPut (0 : BitVec 8) c x.1 (BitVec.ofNat 8 x.2.1)) fm.codes
    let fm' : FaultMask := if !fm.seen then { seen := true, codes := codes, addr := o.2.2, time := s.now } else { fm with codes := codes }
    let m := maskOfLanes (offs.map fun x => x.1)
    let lost := (s.me.live.filter fun p => (p.mask &&& m) != 0).map Path.id
    let s := ({ s with me := { s.me with fm := fm' } } : State).dropLanes m
    s.me.live.foldl (fun s p => if lost.contains p.id then s.trace 5 p.id p.mask 0 else s) s

/-! ### Moves and splits (04_control R97) -/

/-- The lanes of a list by the place they go to, in the order of their lowest lanes. -/
def setsBy (dest : Nat → Place) : List Nat → List (Place × BitVec 32) → List (Place × BitVec 32)
  | [], acc => acc
  | l :: ls, acc =>
    setsBy dest ls (if acc.any fun x => x.1 == dest l then acc.map fun x => if x.1 == dest l then (x.1, x.2 ||| laneBit l) else x
      else acc ++ [(dest l, laneBit l)])

/-- The lowest free path identifier of the range of a path (R91, R97). -/
def Warp.freeId (x : Warp) (like : Nat) : Nat :=
  let base := if like < 32 then 0 else 32
  ((List.range 32).map (base + ·)).find? (fun i => !x.live.any fun p => p.id == i) |>.getD base

/-- Adds a live path to the warp: in a resident entry that is free and due to no path of the overflow list, or at the tail of that list (R97, R109). -/
def Warp.addPath (x : Warp) (p : Path) : Warp :=
  { x with paths := x.paths ++ [p], overflow := if x.live.length < 8 then x.overflow else x.overflow ++ [p.id] }

/-- A path that comes out of a split of a path in focus waits for its accesses in flight (09_ordering R216). -/
def State.inherit (s : State) (parent i : Nat) : State :=
  { s with accs := s.accs.map fun a =>
      if a.gid == s.me.gid && a.w == s.me.w && (a.path == parent || a.heirs.contains parent) then { a with heirs := a.heirs ++ [i] } else a }

/-- Splits the path in focus into sets (R97); `st` is the state of every resulting path. -/
def State.splitInto (s : State) (st : PState) (sets : List (Place × BitVec 32)) : State :=
  match sets with
  | [] => s
  | (pl, m) :: rest =>
    let s := s.setCur { s.me.cur with pc := pl.1, wpos := pl.2, mask := m, st := st }
    let parent := s.me.cur
    rest.foldl (fun s x =>
      let i := s.me.freeId parent.id
      let q : Path := { parent with id := i, pc := x.1.1, wpos := x.1.2, mask := x.2, st := st, issued := 0, groups := 0 }
      let s := ({ s with me := s.me.addPath q } : State).inherit parent.id i
      s.trace 4 parent.id x.2 (BitVec.ofNat 64 (x.1.1.toNat + x.1.2 * 2 ^ 48 + i * 2 ^ 52))) s

/-- BRANCH, and TARGET where the distance does not fit (17_debug R379). -/
def State.traceBranch (s : State) (frm tgt : BitVec 48) : State :=
  let s := s.traceLoss s.me.cur.id
  let d := ((tgt.toNat : Int) - frm.toNat) / 12
  let g := BitVec.ofNat 64 s.me.cur.groups
  if -(2 ^ 31 : Int) < d && d < 2 ^ 31 then s.trace 2 s.me.cur.id (BitVec.ofInt 32 d) g
  else (s.trace 2 s.me.cur.id 0x80000000 g).trace 3 s.me.cur.id 0 (tgt.setWidth 64)

/-- Sends the whole path in focus to a target (R99). -/
def State.jump (s : State) (t : BitVec 48) : State := (s.traceBranch s.here.pc t).goto t 0

/-- The place after the chain group (02_encoding R39). -/
def State.fall (s : State) : Place := (s.here.npc, s.here.nwpos)

/-- Sends each active lane to its place (R97): whole, or split. `taken` says which lanes transfer. -/
def State.moveLanes (s : State) (dest : Nat → Place) (taken : Nat → Bool) : State :=
  match setsBy dest s.lanes [] with
  | [] => s
  | [(pl, _)] => if s.lanes.any taken then s.jump pl.1 else s.goto pl.1 pl.2
  | sets => s.splitInto .ready sets

/-- Puts the path in focus in JOIN and merges it with one of its class at the same place (R107), then makes the release test. R107 does not say whether
a path merged from a resident and a listed one is resident: it is where the one with the lower identifier was; nor when it issued last (R94): at the later
of the two times (the model's choices, log 48). A step
that the path in focus was making is the merged path's (17_debug R375). -/
def State.joinHere (s : State) : State :=
  let s := s.again
  let s := s.setSt (.join s.here.npc s.here.nwpos)
  let p := s.me.cur
  let same (q : Path) : Bool := q.mask != 0 && q.hmode == p.hmode && q.pc == p.pc && q.wpos == p.wpos &&
    (match q.st with | .join _ _ => true | _ => false)
  match s.me.paths.find? same with
  | none => s.settle
  | some q =>
    let (keep, gone) := if p.id < q.id then (p.id, q.id) else (q.id, p.id)
    let base := if p.id < q.id then p else q
    let merged : Path := { base with mask := p.mask ||| q.mask, fenced := max p.fenced q.fenced, issued := max p.issued q.issued,
                                              step := max p.step q.step, spc := if p.step = 0 then q.spc else p.spc, swpos := if p.step = 0 then q.swpos else p.swpos }
    let s := { s with me := { s.me with cur := merged, paths := s.me.paths.filter fun r => r.id != q.id,
                                        overflow := s.me.overflow.filter fun i => i != gone } }
    (s.trace 6 keep merged.mask (BitVec.ofNat 64 gone)).settle

/-- Ends the active lanes of the path in focus (R110). -/
def State.exitLanes (s : State) : State := (s.dropLanes s.me.cur.mask).settle

/-- Returns the path in focus from its trap handler to a place (05_events R131). -/
def State.leaveHandler (s : State) (pl : Place) : State :=
  let s := s.traceBranch s.here.pc pl.1
  (s.setCur { s.me.cur with pc := pl.1, wpos := pl.2, hmode := .none }).settle

/-- Ends the handler path in focus of a RESUMED warp (R131): with the last one the interrupted paths issue again, and a request held for
RUN is taken. -/
def State.endPrePath (s : State) : State :=
  let p := s.me.cur
  let s := s.trace 13 p.id p.mask 0
  let s := { s with me := { s.me with cur := { p with mask := 0 }, overflow := s.me.overflow.filter fun i => i != p.id } }
  if s.me.live.any fun q => q.hmode == .pre then s.settle
  else
    let pre := s.me.pre
    let s := match pre.second with
      | some (r, hard) => s.setPre { pre with st := .pending, reason := r, hard := hard, second := none, hnd := false, byDone := false }
      | none => s.setPre { pre with st := .run, hnd := false, byDone := false }
    s.settle

end Sys2Proof.Machine
end

