-- ==== Sys2Proof/Machine/LaneMem.lean ====
section
/-! DEFINITION. Lane accesses (08_memory R192 to R196): steering, the checks of R194, range locks (09_ordering R222 to R224), the steps of
R195, and what an access does at its location. -/

namespace Sys2Proof.Machine

/-! ### Range locks (09_ordering R222, R224) -/

/-- Every lock entry of the package with the operation or migration that owns it. -/
def State.locks (s : State) : List (Nat × Lock) :=
  s.ops.flatMap (fun o => o.locks.map fun l => (o.id, l)) ++ s.sys.migs.flatMap (fun m => m.locks.map fun l => (m.id, l))

/-- The bytes that a lock entry holds, as keys and lengths. -/
def Lock.pieces (l : Lock) : List (Nat × Nat) := l.only.getD [(l.base, l.len)]

/-- Bytes overlap what a lock entry holds. -/
def Lock.touches (l : Lock) (k n : Nat) : Bool := l.pieces.any fun p => decide (k < p.1 + p.2) && decide (p.1 < k + n) && decide (0 < p.2)

/-- An access of `n` bytes at a key, of one line or two, hits a lock entry: they overlap, and a slice's entry is for lines the slice is home to. -/
def State.hits (s : State) (k n : Nat) (l : Lock) : Bool :=
  l.touches k n && (l.tbl == 0 || s.home k == (l.stk, l.slc) || s.home (k + n - 1) == (l.stk, l.slc))

/-- The lock entries an access conflicts with: every one for a write, FULL-LOCK ones for a load (R222). -/
def State.conflicts (s : State) (k n : Nat) (write : Bool) : List (Nat × Lock) :=
  s.locks.filter fun x => (write || x.2.full) && s.hits k n x.2

/-- CODE of a RANGE trap (R224). -/
def Lock.code (l : Lock) : Nat := l.tbl * 2 ^ 14 + l.stk * 2 ^ 12 + (if l.tbl = 0 then 0 else l.slc) * 2 ^ 8 + l.idx

/-- CODE names the entry with the lowest TBL, STK, SLC, IDX: the least code. -/
def lockCode (ls : List (Nat × Lock)) : Nat := ls.foldl (fun c x => min c x.2.code) 0xFFFF

/-- The operations of the open store streams of the warp in focus (12_streams R280). -/
def State.ownStreams (s : State) : List Nat :=
  s.me.streams.filterMap fun q => if (q.2.st == .affine || q.2.st == .indirect) && q.2.dir then q.2.op else none

/-! ### Steering and checks (08_memory R192 to R194, R196) -/

/-- Where an access goes: global by its VA, memory by key, remote local by core and offset, or the self-address word. -/
inductive Spot where
  | global (va : Nat)
  | mem (key : Nat)
  | remote (c off : Nat)
  | self
  deriving DecidableEq, Repr

/-- The operations a space allows (R196). -/
inductive Allow where
  | plain
  | atomic
  | commons
  deriving DecidableEq, Repr

/-- Bytes of the beam pool at the top of a gang's allocation (14_beams R314). -/
def poolBytes (pool : Nat) : Nat := 64 + 160 * pool

/-- Bytes `off` to `off + n` of a core's local memory lie in its local ways and in one allocation of a gang of a context (R200). -/
def State.inAllocation (s : State) (c asid off n : Nat) : Bool :=
  decide (off + n ≤ (s.core c).lw * 65536) &&
    s.allGangs.any fun g => g.gid != 0 && g.st == .resident && g.asid == asid && 32 * g.stk + g.core == c &&
      decide (g.base ≤ off) && decide (off + n ≤ g.base + g.localk * 1024)

/-- A refusal at a remote-local target is logged there (R201). -/
def State.logRefusal (s : State) (c off : Nat) : State :=
  let x := s.core c
  s.setCore c { x with rlcount := if x.rlcount = 0xFFFF then x.rlcount else x.rlcount + 1
                       rlwho := BitVec.ofNat 48 (s.gang.stk * 2 ^ 45 + s.gang.core * 2 ^ 40 + off % 2 ^ 40) }

/-- Some of the bytes `off` to `off + n` of a core's local memory are part of a beam pool that the engine holds (14_beams R314). -/
def State.poolHit (s : State) (c off n : Nat) : Bool :=
  s.allGangs.any fun g => g.gid != 0 && g.st == .resident && g.poolHeld && 32 * g.stk + g.core == c &&
    decide (g.base + g.localk * 1024 < off + n + poolBytes g.pool) && decide (off < g.base + g.localk * 1024)

/-- Core of the package that a remote-local address names (01_machine R20). -/
def remoteCore (a : BitVec 64) : Nat := 32 * (a.toNat / 2 ^ 45 % 8) + a.toNat / 2 ^ 40 % 32

/-- The key of an 8-byte location that a context's gang names by a generic address; none where it names none. `frame` is the key that the arm's, or
mwait's, ordered read found for a global address: the location is watched where that read found it, whatever the page tables say later. -/
def State.watchKey (_ : State) (g : Gang) (a : BitVec 64) (frame : Nat) : Option Nat :=
  let ap := a.toNat / 2 ^ 48
  let off := a.toNat % 2 ^ 48
  if ap = 0 then some frame
  else if ap = 0xFFF0 then
    if off < g.localk * 1024 then some (if g.st = .saved then savedKey g.gid off else localKey (32 * g.stk + g.core) (g.base + off)) else none
  else if ap = 0xFFF2 then if off % 2 ^ 40 < 2 ^ 20 && decide (off / 2 ^ 45 < 3) then some (localKey (remoteCore a) (off % 2 ^ 40)) else none
  else if ap = 0xFFF3 then if off / 2 ^ 45 < 3 then some (commonsKey (off / 2 ^ 45) (off % 2 ^ 24)) else none
  else none

/-- Watched objects in a gang's own local memory go with it when it is saved or placed; `s` is the state before (05_events R116, 09_ordering R234). -/
def State.rewatchLocal (s : State) (g : Gang) : State :=
  s.rewatch (fun x => x.gid == g.gid) fun a f => if a.toNat / 2 ^ 48 = 0xFFF0 then (s.watchKey g a f).map fun k => (k, f) else none

/-- The self-address word (08_memory R193). -/
def selfAddr : BitVec 64 := 0xFFF0FFFFFFFFFFF8

/-- The checks of R194 with codes 1 to 7, in order, for lane `l` of the warp in focus. -/
def State.steer (s : State) (l : Nat) (allow : Allow) (size align : Nat) (ld8 : Bool) (a : BitVec 64) : Except Nat Spot :=
  let ap := a.toNat / 2 ^ 48
  let off := a.toNat % 2 ^ 48
  let misaligned := a.toNat % align ≠ 0
  if ap = 0 then
    if allow = .commons then .error 2 else if misaligned then .error 3 else .ok (.global off)
  else if ap = 0xFFF0 then
    if allow = .commons then .error 2
    else if a = selfAddr then (if ld8 then .ok .self else .error 2)
    else if misaligned then .error 3
    else if s.gang.localk * 1024 < off + size then .error 4
    else if s.gang.poolHeld && decide (s.gang.localk * 1024 < off + size + poolBytes s.gang.pool) then .error 7
    else .ok (.mem (localKey s.coreNo (s.gang.base + off)))
  else if ap = 0xFFF1 then
    if allow ≠ .plain then .error 2 else if misaligned then .error 3
    else if 2048 < off + size then .error 5 else .ok (.mem (s.me.stackAt l off))
  else if ap = 0xFFF2 then
    if !s.powered (off / 2 ^ 45) then .error 1
    else if allow = .commons then .error 2 else if misaligned then .error 3
    else if s.poolHit (remoteCore a) (off % 2 ^ 40) size then .error 7
    else .ok (.remote (remoteCore a) (off % 2 ^ 40))
  else if ap = 0xFFF3 then
    if misaligned then .error 3
    else if off / 2 ^ 24 % 2 ^ 21 ≠ 0 || !s.powered (off / 2 ^ 45) then .error 6
    else .ok (.mem (commonsKey (off / 2 ^ 45) (off % 2 ^ 24)))
  else .error 1

/-- What the self-address word holds (R193). -/
def State.selfWord (s : State) : BitVec 64 :=
  BitVec.ofNat 64 (0xFFF2 * 2 ^ 48 + s.gang.stk * 2 ^ 45 + s.gang.core * 2 ^ 40 + s.gang.base)

/-! ### What an access does at its location (R207, R209, R210) -/

/-- Bytes of an access of ld or st (02_encoding R47). -/
def sizeOf : MemSize → Nat
  | .n8 | .i8 => 1
  | .n16 | .i16 => 2
  | .b32 => 4
  | .b64 => 8

/-- The register value of loaded bytes (R47). -/
def extendLd (z : MemSize) (x : Nat) : BitVec 64 :=
  match z with
  | .i8 => ((BitVec.ofNat 8 x).signExtend 32).setWidth 64
  | .i16 => ((BitVec.ofNat 16 x).signExtend 32).setWidth 64
  | _ => BitVec.ofNat 64 x

/-- Bytes of an atomic (R209). -/
def AtomKind.size : AtomKind → Nat
  | .add64 | .cas64 => 8
  | _ => 4

/-- The value an atomic leaves at a location that held `m` (R209, R210). -/
def atomNew (k : AtomKind) (m b d : Nat) : Nat :=
  match k with
  | .add => (m + b) % 2 ^ 32
  | .and => m &&& b
  | .or => m ||| b
  | .xor => m ^^^ b
  | .minI => if intOf 32 true m ≤ intOf 32 true b then m else b
  | .maxI => if intOf 32 true b ≤ intOf 32 true m then m else b
  | .minN => min m b
  | .maxN => max m b
  | .xchg => b
  | .cas => if m = d then b else m
  | .fadd => (fmtF32.addBits .ne m b).bits
  | .add64 => (m + b) % 2 ^ 64
  | .cas64 => if m = d then b else m

/-- Half of an 8-byte value. -/
def halfOf (hi : Bool) (x : BitVec 64) : BitVec 64 := if hi then x >>> 32 else x.setWidth 32 |>.setWidth 64

/-- One access at its location: the state after it and what it returns. -/
def State.accessAt (s : State) (op : AccOp) (k : Nat) (val old : BitVec 64) : State × BitVec 64 :=
  match op with
  | .load z => (s, extendLd z (s.rd k (sizeOf z)))
  | .store n => (s.wr k n val.toNat, 0)
  | .atom a =>
    let m := s.rd k a.size
    let x := atomNew a m val.toNat old.toNat
    (if (a == .cas || a == .cas64) && m != old.toNat then s else s.wr k a.size x, BitVec.ofNat 64 m)
  | .accLd => (s, BitVec.ofNat 64 (s.rd k 4))
  | .accSt => (s.wr k 4 val.toNat, 0)
  | .half hi => (s, halfOf hi (BitVec.ofNat 64 (s.rd k 8)))

/-- Destination registers of an access hold 64 bits. -/
def AccOp.wide : AccOp → Bool
  | .load .b64 => true
  | .atom a => a.size == 8
  | _ => false

/-- Writes a returned value to a lane's destination register or pair. -/
def Regs.putLane (r : Regs) (d : Nat) (wide : Bool) (l : Nat) (x : BitVec 64) : Regs :=
  let r := r.putV d (laneBit l) fun _ => x.setWidth 32
  if wide then r.putV (d + 1) (laneBit l) fun _ => (x >>> 32).setWidth 32 else r

/-- The destination of a lane of the warp in focus takes a returned value. -/
def State.arrive1 (s : State) (dreg : Option Nat) (wide : Bool) (l : Nat) (x : BitVec 64) : State :=
  match dreg with
  | none => s
  | some d => (s.setRegs (s.me.regs.putLane d wide l x)).sawRegs
      ((d, laneBit l) :: (if wide then [(d + 1, laneBit l)] else []))

/-! ### The steps of R195 -/

/-- One lane's request: address, operand, and expected value of a compare-and-swap. -/
structure Req where
  lane : Nat
  addr : BitVec 64
  val  : BitVec 64 := 0
  old  : BitVec 64 := 0
  deriving DecidableEq, Repr

/-- The form of a memory instruction. -/
structure MemForm where
  op    : AccOp
  kind  : AccKind
  allow : Allow
  size  : Nat
  dreg  : Option Nat := none
  deriving DecidableEq, Repr

/-- Whether a form writes. -/
def MemForm.writes (f : MemForm) : Bool := f.kind != .read

/-- A lane's outcome before anything is done. -/
inductive Pre where
  | off (code : Nat)
  | fault (code : Nat)
  | ok (spot : Spot) (page : Option (Nat × Nat))
  deriving DecidableEq, Repr

/-- Steering and translation of one request, threading the walks. -/
def State.prepare (s : State) (f : MemForm) (r : Req) : State × Pre :=
  match s.steer r.lane f.allow f.size f.size (f.op == .load .b64) r.addr with
  | .error c => (s, .off c)
  | .ok (.global va) =>
    match s.translate (if f.writes then .write else .read) va with
    | (t, .ok pa) => (t, .ok (.mem pa) (some (s.gang.asid, va / 2 ^ 16)))
    | (t, .error c) => (t, .fault c)
  | .ok x => (s, .ok x none)

def State.prepareAll (s : State) (f : MemForm) : List Req → State × List (Req × Pre)
  | [] => (s, [])
  | r :: rs =>
    let (t, p) := s.prepare f r
    let (u, ps) := t.prepareAll f rs
    (u, (r, p) :: ps)

/-- A matrix operation in the array holds its source bytes against writes (13_matrix R296). -/
def State.mxHolds (s : State) (k n : Nat) : Bool :=
  s.allGangs.any fun g => match g.array with
    | none => false
    | some o => g.gid != 0 && o.srcs.any fun x =>
        let b := localKey (32 * g.stk + g.core) (g.base + x.1)
        decide (k < b + x.2) && decide (b < k + n)

/-- The tiles a matrix operation writes or reads. -/
def MxOp.tiles (o : MxOp) : List Nat :=
  match o.kind with
  | .mm _ _ _ | .sp _ _ _ | .zero => [o.d]
  | _ => [o.d, o.a]

/-- The interlock of a tile (13_matrix R295): a matrix operation that names it has not retired. -/
def Gang.tileBusy (g : Gang) (t : Nat) : Bool := (g.queue ++ g.array.toList).any fun o => o.tiles.contains t

/-- The tile of a key of a gang's tiles, or of their TFLAGS, which lie behind them. -/
def tileOf (k : Nat) : Nat :=
  let off := k % 2 ^ 21
  if off / 2 ^ 14 < 16 then off / 2 ^ 14 else off % 2 ^ 14 / 4

/-- An access stays in flight: it crosses to another core, or something holds it back. -/
def State.defers (s : State) (f : MemForm) (x : Spot) : Bool :=
  match x with
  | .remote _ _ => true
  | .mem k => (f.writes && s.mxHolds k f.size) || s.windowHolds k || ((f.op == .accLd || f.op == .accSt) && s.gang.tileBusy (tileOf k))
  | _ => false

/-! ### Routes between cores (16_stack R355) -/

/-- The state that a router has unless told otherwise: eight active, two spare (R355). -/
def routerInit (i : Nat) : NetSt := if i < 8 then .active else .spare
def Stk.router (x : Stk) (i : Nat) : NetSt := smGet (routerInit i) x.routers i
def Stk.setRouter (x : Stk) (i : Nat) (st : NetSt) : Stk := { x with routers := smPut (routerInit i) x.routers i st }
def Stk.path (x : Stk) (i : Nat) : NetSt := smGet .active x.paths i
def Stk.setPath (x : Stk) (i : Nat) (st : NetSt) : Stk := { x with paths := smPut .active x.paths i st }

/-- One of the routers or paths of a list that are there, by a free number: the routing tables' choice is open (log 26). -/
def chosenItem (l : List NetItem) (n : Nat) : List NetItem := (l[Config.route n % max 1 l.length]?).toList

/-- The routers of a stack that new packets are routed to. -/
def State.openRouters (s : State) (k : Nat) : List NetItem :=
  ((List.range 10).filter fun i => (s.stk k).router i == .active).map (NetItem.router k)

/-- The fabric paths between two stacks that new packets are routed to. -/
def State.openPaths (s : State) (a b : Nat) : List NetItem :=
  let k := if (a + 1) % 3 = b then a else b
  ((List.range 4).filter fun i => (s.stk k).path i == .active).map (NetItem.path k)

/-- The route of a packet from a core of one stack to a core of another or the same, none of its items in retirement (R355). -/
def State.route (s : State) (n a b : Nat) : List NetItem :=
  if a = b then chosenItem (s.openRouters a) (3 * n)
  else chosenItem (s.openRouters a) (3 * n) ++ chosenItem (s.openPaths a b) (3 * n + 1) ++ chosenItem (s.openRouters b) (3 * n + 2)

/-- The record of a lane access in flight. -/
def State.fly (s : State) (f : MemForm) (r : Req) (x : Spot) (page : Option (Nat × Nat)) : State :=
  let a : Acc := {
    id := s.sys.nextOp, asid := s.gang.asid, gid := s.gang.gid, w := s.me.w, path := s.me.cur.id, lane := r.lane, op := f.op, addr := r.addr
    key := match x with | .mem k => k | .remote c off => localKey c off | _ => 0
    size := f.size, dreg := f.dreg, val := r.val, old := r.old
    remote := match x with | .remote c off => some (c, off) | _ => none
    via := match x with | .remote c _ => s.route s.sys.nextOp s.gang.stk (c / 32) | _ => []
    gddr := match x with | .mem k => decide (k < gddrTop) | _ => false
    time := s.now, page := page, pc := s.here.pc, wpos := s.here.wpos, birth := s.point }
  { s with accs := s.accs ++ [a], sys := { s.sys with nextOp := s.sys.nextOp + 1 } }

/-- Accesses of a path's lanes, or of the path it came from by a split, are in flight (09_ordering R216). -/
def State.inFlight (s : State) (x : Warp) (p : Path) : Bool :=
  s.accs.any fun a => a.gid == x.gid && a.w == x.w && (a.path == p.id || a.heirs.contains p.id || p.mask.getLsbD a.lane)

/-- The performers, in lane order (R195 step 5); once one stays in flight, those after it wait for it. The self-address word is no memory: its
value arrives at once. -/
def State.performAll (s : State) (f : MemForm) (waiting : Bool) : List (Req × Spot × Option (Nat × Nat)) → State
  | [] => s
  | (r, .self, _) :: rest =>
    (s.arrive1 f.dreg f.op.wide r.lane (match f.op with | .half hi => halfOf hi s.selfWord | _ => s.selfWord)).performAll f waiting rest
  | (r, x, pg) :: rest =>
    if waiting || s.defers f x then (s.fly f r x pg).performAll f true rest
    else match x with
      | .mem k =>
        let (t, v) := s.accessAt f.op k r.val r.old
        (t.arrive1 f.dreg f.op.wide r.lane v).performAll f false rest
      | _ => s.performAll f false rest

/-- What watch predicates see of the accesses that passed their checks (17_debug R366). -/
def State.sawAccs (s : State) (f : MemForm) (rs : List Req) : State :=
  { s with me := { s.me with obs := { s.me.obs with
      accs := s.me.obs.accs ++ rs.map fun r => (r.lane, r.addr, f.size, f.kind, r.val)
      data := s.me.obs.data ++ (if f.writes && f.op != .load .b32 then rs.map fun r => (r.lane, r.val.setWidth 32) else []) } } }

/-- A key lies in a page table, `n` levels above the pages, or in one that hangs under it (10_translation R236, R237). -/
def State.tableHolds (s : State) (k : Nat) : Nat → Nat → Bool
  | 0, _ => false
  | l + 1, tbl =>
    let n := if l = 0 then 32 else 512
    (decide (tbl ≤ k) && decide (k < tbl + 8 * n)) || (l != 0 && (List.range n).any fun i =>
      let e := s.rd64 (tbl + 8 * i)
      e.getLsbD 0 && !e.getLsbD 1 && !pteMalformed l e && s.tableHolds k l (pteAddr e))

/-- An access is a page-table store: a store by the supervisor to a table of a bound ASID. It is not checked against range locks (10_translation R241). -/
def State.tableStore (s : State) (asid : Nat) (op : AccOp) (k : Nat) : Bool :=
  (s.ctx asid).priv && (match op with | .store _ => true | _ => false) && s.ctxs.any fun c => c.2.st == .bound && s.tableHolds k 4 c.2.root.toNat

/-- The lock entries that the requests conflict with, each with its request, in lane order. -/
def State.rangeHits (s : State) (f : MemForm) (ps : List (Req × Pre)) : List (Req × List (Nat × Lock)) :=
  ps.filterMap fun p => match p.2 with
    | .ok (.mem k) _ => match s.conflicts k f.size f.writes with
      | [] => none
      | ls => if s.tableStore s.gang.asid f.op k then none else some (p.1, ls)
    | _ => none

/-- A conflict with the hull of the warp's own open stream (12_streams R280), or RANGE. -/
def State.rangeTrap (s : State) (hits : List (Req × List (Nat × Lock))) : State :=
  match hits.find? fun h => h.2.any fun x => s.ownStreams.contains x.1 with
  | some h => s.progErr 0x0C05 h.1.addr
  | none => match hits with
    | [] => s
    | h :: _ => s.trapOn 2 (lockCode h.2) h.1.addr ((hits.flatMap fun h => h.2.map Prod.fst).eraseDups)

/-- The requests that failed a check, with their codes. -/
def offsOf (ps : List (Req × Pre)) : List (Nat × Nat × BitVec 64) :=
  ps.filterMap fun p => match p.2 with | .off c => some (p.1.lane, c, p.1.addr) | _ => none
/-- The requests that passed the checks. -/
def passedOf (ps : List (Req × Pre)) : List Req := ps.filterMap fun p => match p.2 with | .off _ => none | _ => some p.1
/-- The requests that took a translation fault. -/
def faultsOf (ps : List (Req × Pre)) : List (Req × Nat) := ps.filterMap fun p => match p.2 with | .fault c => some (p.1, c) | _ => none
/-- The requests that perform. -/
def goodOf (ps : List (Req × Pre)) : List (Req × Spot × Option (Nat × Nat)) :=
  ps.filterMap fun p => match p.2 with | .ok x pg => some (p.1, x, pg) | _ => none

/-- The access byte of a fault record (10_translation R245). -/
def AccKind.code : AccKind → Nat
  | .read => 0
  | .write => 1
  | .atomic => 2

/-- Parks the path with the lanes that took a translation fault unfinished (R195 step 4). -/
def State.parkFaults (s : State) (f : MemForm) (bad : List (Req × Nat)) : State :=
  match bad with
  | [] => s
  | b :: _ => s.park 1 b.2 b.1.addr f.kind.code (maskOfLanes (bad.map fun y => y.1.lane))

/-- Where the warp has fewer live paths than `n`, the warp settles: a path lost its last lane (04_control R108, R110). -/
def State.settleFrom (s : State) (n : Nat) : State := if s.me.live.length < n then s.settle else s

/-- Takes lanes off, with their codes and addresses; the warp settles where a path lost its last lane. -/
def State.lanesOff (s : State) (offs : List (Nat × Nat × BitVec 64)) : State := (s.laneOff offs).settleFrom s.me.live.length

/-- A request's address needs a walk (10_translation R239). -/
def State.walks (s : State) (f : MemForm) (r : Req) : Bool :=
  match s.steer r.lane f.allow f.size f.size (f.op == .load .b64) r.addr with
  | .ok (.global va) =>
    let serves (e : TlbEntry) : Bool := e.serves s.gang.asid s.priv s.me.cur.fenced (if f.writes then .write else .read) va
    !((s.core s.coreNo).tlb.any serves || (s.stk (s.coreNo / 32)).tlb.any serves)
  | _ => false

/-- Steps 2 to 5 of R195 over what steering and translation found: `t` is the state after them, `s` the one before. -/
def State.laneFinish (s t : State) (f : MemForm) (ps : List (Req × Pre)) : State :=
  match s.rangeHits f ps with
  | h :: hs => s.rangeTrap (h :: hs)
  | [] => ((((t.sawAccs f (passedOf ps)).laneOff (offsOf ps)).parkFaults f (faultsOf ps)).performAll f (s.inFlight s.me s.me.cur) (goodOf ps)).settleFrom t.me.live.length

/-- A memory instruction's requests through the steps of R195. A walk's reads follow the accesses of the path that are in flight (10_translation R241), so
that the instruction waits for them, and are held in the window of the memory clock where they miss (16_stack R360). -/
def State.laneMem (s : State) (f : MemForm) (rs : List Req) : State :=
  if (s.inFlight s.me s.me.cur || s.windowMiss) && rs.any (s.walks f) then s.retry
  else
    let (t, ps) := s.prepareAll f rs
    s.laneFinish t f ps

/-- The requests of the lanes a memory word acts on. -/
def State.reqs (s : State) (f : Nat → Req) : List Req := (lanesOf s.memMask).map f

end Sys2Proof.Machine
end

