-- ==== Sys2Proof/Machine/Locks.lean ====
section
/-! DEFINITION. Entries of the range-lock tables (09_ordering R223), copies of ranges of memory, and the operations' common parts. -/

namespace Sys2Proof.Machine

/-- A range-lock table: core table (0) or slice table (1), stack, core or slice. -/
abbrev LockTable := Nat × Nat × Nat

/-- The tables that check a byte of a range of keys (R223): a core's, or the slices that are home to its lines. Homes repeat after sixteen
lines on each powered stack, so that many lines of the range name all of them. -/
def State.tablesOf (s : State) (r : Rng) : List LockTable :=
  if r.len = 0 then []
  else if 2 ^ 50 ≤ r.base then
    let g := (s.gangOf? ((r.base - 2 ^ 50) / 2 ^ 23)).getD {}
    [(0, g.stk, g.core)]
  else if gddrTop ≤ r.base && decide (r.base < 2 ^ 41) then [(0, (r.base - 2 ^ 40) / 2 ^ 20 / 32, (r.base - 2 ^ 40) / 2 ^ 20 % 32)]
  else
    let l0 := r.base / 128
    let n := min ((r.base + r.len - 1) / 128 - l0 + 1) 256
    (((List.range n).map fun i => let h := s.home ((l0 + i) * 128); (1, h.1, h.2))).eraseDups

/-- The table of an entry. -/
def Lock.table (l : Lock) : LockTable := (l.tbl, l.stk, if l.tbl = 0 then l.core else l.slc)
/-- The entries of a table. -/
def tableSize (t : LockTable) : Nat := if t.1 = 0 then 64 else 256

/-- The lowest free entry of a table (R223). -/
def freeIdx (used : List Lock) (t : LockTable) : Option Nat :=
  let ix := (used.filter fun l => l.table == t).map Lock.idx
  (List.range (tableSize t)).find? fun i => !ix.contains i

/-- One entry for each range and table, each in turn at the lowest free place; none where some table is full. -/
def allocEntries (used : List Lock) : List (Rng × LockTable) → Option (List Lock)
  | [] => some []
  | (r, t) :: rest =>
    match freeIdx used t with
    | none => none
    | some i =>
      let l : Lock := { tbl := t.1, stk := t.2.1, core := if t.1 = 0 then t.2.2 else 0, slc := if t.1 = 0 then 0 else t.2.2, idx := i,
                        base := r.base, len := r.len, full := r.full, only := r.only }
      (allocEntries (l :: used) rest).map (l :: ·)

/-- The ranges of an operation with the tables they need. -/
def State.needs (s : State) (rs : List Rng) : List (Rng × LockTable) := rs.flatMap fun r => (s.tablesOf r).map fun t => (r, t)

/-- The tables that operations and migrations wait for which arrived `before`. -/
def State.waitingTables (s : State) (before : List Nat → Bool) : List LockTable :=
  ((s.ops.filter fun o => o.phase == .waitEntries && before o.arr).flatMap (fun o => (s.needs o.ranges).map Prod.snd) ++
    (s.sys.migs.filter fun m => m.arr != [] && before m.arr).flatMap fun m => (s.needs m.rngs).map Prod.snd).eraseDups

/-- All the entries that ranges need, or none: where an entry lacks, or an operation that arrived earlier waits for one of the same table. -/
def State.entriesFor (s : State) (rs : List Rng) (before : List Nat → Bool) : Option (List Lock) :=
  let need := s.needs rs
  let busy := s.waitingTables before
  if need.any fun x => busy.contains x.2 then none else allocEntries (s.locks.map Prod.snd) need

/-- Entries for ranges after homes moved: at free places, or at the last where a table has none. -/
def moveEntries (used : List Lock) : List (Rng × LockTable) → List Lock
  | [] => []
  | (r, t) :: rest =>
    let l : Lock := { tbl := t.1, stk := t.2.1, core := if t.1 = 0 then t.2.2 else 0, slc := if t.1 = 0 then 0 else t.2.2
                      idx := (freeIdx used t).getD (tableSize t - 1), base := r.base, len := r.len, full := r.full, only := r.only }
    l :: moveEntries (l :: used) rest

/-- Lock entries move with the homes of their lines (16_stack R359). -/
def State.rehome (s : State) : State :=
  let again (used : List Lock) (ls : List Lock) : List Lock :=
    let rs : List Rng := (ls.map fun l => ({ base := l.base, len := l.len, full := l.full, only := l.only } : Rng)).eraseDups
    moveEntries used (s.needs rs)
  let ops := s.ops.foldl (fun (acc : List Lock × List EngOp) o => let ls := again acc.1 o.locks; (acc.1 ++ ls, acc.2 ++ [{ o with locks := ls }])) ([], [])
  let migs := s.sys.migs.foldl (fun (acc : List Lock × List Mig) m => let ls := again acc.1 m.locks; (acc.1 ++ ls, acc.2 ++ [{ m with locks := ls }])) (ops.1, [])
  { s with ops := ops.2, sys := { s.sys with migs := migs.2 } }

/-- Cuts a range of keys at 64 KiB boundaries (R223). -/
def cut64 (full : Bool) (base : Nat) : Nat → Nat → List Rng
  | 0, _ => []
  | fuel + 1, len =>
    if len = 0 then []
    else
      let n := min len (2 ^ 16 - base % 2 ^ 16)
      { base := base, len := n, full := full } :: cut64 full (base + n) fuel (len - n)

/-- Copies a range of memory (10_translation R249). -/
def State.copyRange (s : State) (src dst n : Nat) : State :=
  let run := s.mem.filter fun x => src ≤ x.1 && x.1 < src + n
  let m := smClear s.mem dst n
  { s with mem := m.filter (fun x => x.1 < dst) ++ run.map (fun x => (x.1 - src + dst, x.2)) ++ m.filter (fun x => dst ≤ x.1) }

/-- Earlier registered operations and migrations whose locks conflict with some of these (09_ordering R222): the work starts after their
completion events. -/
def State.blocked (s : State) (id : Nat) (ls : List Lock) : Bool :=
  s.locks.any fun x => decide (x.1 < id) && ls.any fun l =>
    (l.full || x.2.full) && l.pieces.any fun p => x.2.touches p.1 p.2

/-- Writes bytes at several places in one event: the journal takes one new value of each 8-byte location touched. -/
def State.putAll (s : State) (ws : List (Nat × BitVec 8)) : State :=
  let m := ws.foldl (fun m w => smPut unwritten m w.1 w.2) s.mem
  let js := (ws.map fun w => w.1 / 8).eraseDups.map fun b => (b, BitVec.ofNat 64 (leNat (smGets unwritten m (b * 8) 8)))
  { s with mem := m, journal := js ++ s.journal }

/-- Bytes at consecutive keys. -/
def runAt (k : Nat) (bs : List (BitVec 8)) : List (Nat × BitVec 8) := (List.range bs.length).zipWith (fun i b => (k + i, b)) bs

/-- A list of numbers comes before another in the order of dictionaries. -/
def lexLt : List Nat → List Nat → Bool
  | _, [] => false
  | [], _ :: _ => true
  | a :: s, b :: t => decide (a < b) || (a == b && lexLt s t)

/-- The operation of a list that arrived first (R223, 11_copy R267). -/
def earliestOf (xs : List EngOp) : Option EngOp :=
  xs.foldl (fun (b : Option EngOp) p => match b with
    | none => some p
    | some q => if lexLt p.arr q.arr then some p else some q) none

/-- Some other operation's or migration's lock is on bytes (R222). -/
def State.lockedBy (s : State) (id k n : Nat) : Bool := s.locks.any fun x => x.1 != id && s.hits k n x.2

/-- An operation's registration has performed (09_ordering R221). -/
def EngOp.registered (o : EngOp) : Bool := o.phase == .registered || o.phase == .started

/-- Applies a change to every engine operation. -/
def State.mapOps (s : State) (f : EngOp → EngOp) : State := { s with ops := s.ops.map f }

/-- A new identifier of an operation, migration or shootdown. -/
def State.takeId (s : State) : Nat × State := (s.sys.nextOp, { s with sys := { s.sys with nextOp := s.sys.nextOp + 1 } })

end Sys2Proof.Machine
end

