-- ==== Sys2Proof/Machine/Translation.lean ====
section
/-! DEFINITION. Translation instructions and events (10_translation R243 to R256): fence.t, shootdowns, ASIDs, migration, the fault queue and
the pager's answers. -/

namespace Sys2Proof.Machine

/-! ### fence.t and shootdowns (R243, R251, R252) -/

/-- FENCE_T (R251): later accesses of the path use no entry whose source read precedes the fence, and its fetches no line filled before it.
Accessed and dirty updates have performed with their accesses. -/
def execFenceT (s : State) : Out :=
  let s := s.setCur { s.me.cur with fenced := s.point }
  .next (s.setCore s.coreNo { s.core s.coreNo with icache := [] })

/-- A shootdown covers a translation of a page (R252). -/
def Shoot.covers (k : Shoot) (asid page : Nat) (big : Bool) : Bool :=
  let va := k.va
  match k.scope with
  | 0 => asid == k.asid && (if big then page == va / 2 ^ 21 else page == va / 2 ^ 16)
  | 1 => asid == k.asid && (if big then page == va / 2 ^ 21 else page / 32 == va / 2 ^ 21)
  | 2 => asid == k.asid
  | _ => true

/-- Removes covered entries from every cache of translations of the powered stacks (R243, R252). -/
def State.shootTlbs (s : State) (k : Shoot) : State :=
  let keep (e : TlbEntry) : Bool := !k.covers e.asid e.page e.big
  let cores := s.cores.map fun c => (c.1, { c.2 with tlb := c.2.tlb.filter keep })
  let stks := s.stks.map fun c => (c.1, { c.2 with tlb := c.2.tlb.filter keep, wcache := c.2.wcache.filter fun e => k.scope != 3 && e.asid != k.asid })
  { s with cores := cores.filter fun c => c.2 != {}, stks := stks.filter fun c => c.2 != {} }

/-- A shootdown's covered entry of a 2 MiB page is in some cache. -/
def State.shotBig (s : State) (k : Shoot) : Bool :=
  let hit (e : TlbEntry) : Bool := e.big && k.covers e.asid e.page e.big
  s.cores.any (fun c => c.2.tlb.any hit) || s.stks.any fun c => c.2.tlb.any hit

/-- The set E of R243: accesses in flight and engine operations that translated through a covered page. -/
def State.shotUsers (s : State) (k : Shoot) : List Nat × List Nat :=
  let big := s.shotBig k
  let hit (p : Nat × Nat) : Bool := k.covers p.1 p.2 false || (big && k.covers p.1 (p.2 / 32) true)
  ((s.accs.filter fun a => match a.page with | some p => hit p | none => false).map Acc.id,
    (s.ops.filter fun o => o.registered && o.pages.any hit).map EngOp.id)

/-- Posts a shootdown (R243). -/
def State.postShoot (s : State) (scope asid va : Nat) : Nat × State :=
  let (i, s) := s.takeId
  (i, s.setSys { s.sys with shoots := s.sys.shoots ++ [{ id := i, scope := scope, asid := asid, va := va, gid := s.gang.gid, w := s.me.w }] })

/-- TLB_INV (R252). -/
def execTlbInv (a b : BitVec 6) (s : State) : Out :=
  let c := (s.u a).toNat
  let va := s.uu b
  let scope := c / 2 ^ 14 % 4
  let asid := c % 2 ^ 12
  .next (if c / 2 ^ 16 ≠ 0 || c / 2 ^ 12 % 4 ≠ 0 || (scope == 3 && asid != 0) then s.progErr 0x0A01 ((s.u a).setWidth 64)
    else if scope < 2 && decide (va.toNat / 2 ^ 48 ≠ 0) then s.progErr 0x0A02 va
    else if 32 ≤ s.sys.shoots.length then s.retry
    else (s.postShoot scope asid (va.toNat % 2 ^ 48)).2)

/-- TLB_SYNC (R252). -/
def execTlbSync (s : State) : Out :=
  .next (match (s.sys.shoots.filter fun k => k.gid == s.gang.gid && k.w == s.me.w).map Shoot.id with
    | [] => s
    | ks => s.hold (.tlbSync ks))

/-- SHOOTDOWN_ACKNOWLEDGED (R243). -/
def execShootdownAcknowledged (k : Nat) (s : State) : Out :=
  .next (match s.sys.shoots.find? fun x => x.id == k && !x.acked with
    | none => s
    | some x =>
      let (accs, ops) := s.shotUsers x
      let s := s.shootTlbs x
      s.setSys { s.sys with shoots := s.sys.shoots.map fun y => if y.id == k then { y with acked := true, accs := accs, ops := ops } else y })

/-- A shootdown is done: it is acknowledged and every member of E has performed (R243). -/
def State.shootOver (s : State) (x : Shoot) : Bool :=
  x.acked && x.accs.all (fun i => s.accs.all fun a => a.id != i) && x.ops.all fun i => s.ops.all fun o => o.id != i

/-- SHOOTDOWN_DONE (R243): tlb.sync paths that wait for nothing else go on. -/
def execShootdownDone (k : Nat) (s : State) : Out :=
  .next (match s.sys.shoots.find? fun x => x.id == k && s.shootOver x with
    | none => s
    | some _ =>
      let left := s.sys.shoots.filter fun y => y.id != k
      let s := s.setSys { s.sys with shoots := left }
      s.mapWarps fun x => x.mapPaths fun p => match p.st with
        | .held (.tlbSync ks) => if ks.any fun i => left.any fun y => y.id == i then p else { p with st := x.woken }
        | _ => p)

/-! ### ASIDs (R253, R254) -/

/-- A root is valid: 4 KiB aligned and backed by memory (R253). -/
def rootOk (r : BitVec 64) : Bool := r.toNat % 4096 == 0 && decide (r.toNat + 4096 ≤ gddrTop)

def State.boundCount (s : State) : Nat := (s.ctxs.filter fun c => c.2.st == .bound).length

/-- ASID_BIND (R253). -/
def execAsidBind (d a b : BitVec 6) (s : State) : Out :=
  let c := (s.u a).toNat
  let asid := c % 2 ^ 12
  let x := s.ctx asid
  .next (if c / 2 ^ 13 ≠ 0 then s.progErr 0x0A01 ((s.u a).setWidth 64)
    else if x.st ≠ .free then s.setU d 1
    else if !rootOk (s.uu b) then s.setU d 2
    else if 16 ≤ s.boundCount then s.setU d 3
    else (s.setCtx asid { x with st := .bound, priv := c / 2 ^ 12 % 2 == 1, root := s.uu b, ending := none, yoked := x.yoked }).setU d 0)

/-- Nothing of a context runs: no RUNNING entry, no resident or saved gang (R253). -/
def State.ctxIdle (s : State) (asid : Nat) : Bool :=
  !(s.insts.any fun i => i.asid == asid && !i.ended) &&
    !(s.allGangs.any fun g => g.gid != 0 && g.asid == asid && (g.st == .resident || g.st == .saved))

/-- ASID_FREE (R253). -/
def execAsidFree (d a : BitVec 6) (s : State) : Out :=
  let c := (s.u a).toNat
  let asid := c % 2 ^ 12
  let x := s.ctx asid
  .next (if c / 2 ^ 12 ≠ 0 then s.progErr 0x0A01 ((s.u a).setWidth 64)
    else if x.st ≠ .bound || !s.ctxIdle asid then s.setU d 1
    else
      let acks : BitVec 3 := BitVec.ofNat 3 (maskNat s.powered 3)
      ((s.setCtx asid { x with st := .purging, acks := acks }).shootTlbs { scope := 2, asid := asid }).setU d 0)

/-- ASID_STAT (R253). -/
def execAsidStat (d a : BitVec 6) (s : State) : Out :=
  let c := (s.u a).toNat
  let x := s.ctx (c % 2 ^ 12)
  .next (if c / 2 ^ 12 ≠ 0 then s.progErr 0x0A01 ((s.u a).setWidth 64)
    else s.setU d (BitVec.ofNat 32 ((match x.st with | .free => 0 | .bound => 1 | .purging => 2) +
      (if x.priv && x.st != .free then 4 else 0) + x.acks.toNat * 16)))

/-- ASID_PURGE_DONE (R253): after the drain of the ASID's engine operations. -/
def execAsidPurgeDone (asid : Nat) (s : State) : Out :=
  let x := s.ctx asid
  .next (if x.st = .purging && !(s.ops.any fun o => o.asid == asid) then
      s.setCtx asid { x with st := .free, priv := false, root := 0, acks := 0 }
    else s)

/-! ### Migration (R249, R255) -/

/-- Bytes of a page. -/
def pageBytes (big : Bool) : Nat := if big then 2 ^ 21 else 2 ^ 16

/-- What a migration's registration finds (R255): a status, or the leaf with the old page and the ranges to lock. -/
def State.migLeaf (s : State) (va asid dest : Nat) (big : Bool) : Except Word (Leaf × Nat × List Rng) :=
  let size := pageBytes big
  if (s.ctx asid).st ≠ .bound then .error 1
  else match s.walkFrom (fun _ => none) va 4 (s.ctx asid).root.toNat with
    | .error _ => .error 2
    | .ok (f, _) =>
      let frm := pteAddr f.val
      if f.big != big || decide (gddrTop < frm + size) then .error 2
      else if dest % size ≠ 0 || gddrTop < dest + size || (decide (frm < dest + size) && decide (dest < frm + size)) then .error 3
      else .ok (f, frm, cut64 false frm 33 size ++ cut64 true dest 33 size)

/-- PG_MIG (R255): a status at once, or the registration event with its lock entries, for which it waits in order of arrival (09_ordering R223). The walk is held
in the window of the memory clock (16_stack R360). -/
def execPgMig (d a b : BitVec 6) (s : State) : Out :=
  let c := s.uu a
  let n := c.toNat
  let va := n / 2 ^ 16 % 2 ^ 32 * 2 ^ 16
  let asid := n / 2 ^ 48 % 2 ^ 12
  let big := n / 2 ^ 60 % 2 == 1
  let dest := (s.uu b).toNat
  .next (if n / 2 ^ 61 ≠ 0 || n % 2 ^ 16 ≠ 0 then s.progErr 0x0A01 c
    else if s.windowMiss then s.retry
    else match s.migLeaf va asid dest big with
      | .error x => s.setU d x
      | .ok (f, frm, rs) =>
        let arr := [s.now.toNat, s.gang.stk, s.gang.core, s.me.track, s.me.slot]
        let (i, s) := s.takeId
        let m : Mig := {
          id := i, gid := s.gang.gid, w := s.me.w, path := s.me.cur.id, dreg := d.toNat, asid := asid, va := va, big := big, leaf := f.addr, old := f.val
          from_ := frm, dest := dest, rngs := rs }
        s.setSys { s.sys with migs := s.sys.migs ++ [match s.entriesFor rs fun x => !lexLt arr x with
          | none => { m with arr := arr }
          | some ls => { m with locks := ls }] })

/-- Writes a uniform register of a warp, where it still exists. -/
def State.warpPutU (s : State) (gid w d : Nat) (x : Word) : State :=
  s.mapWarps fun y => if y.gid == gid && y.w == w then { y with regs := { y.regs with u := uniPut y.regs.u d x } } else y

/-- A waiting migration is tried again: its registration, or the status that its checks give now; nothing where entries lack. -/
def State.grantMig (s : State) (m : Mig) : Option State :=
  let put (f : Option Mig) : State := s.setSys { s.sys with migs := s.sys.migs.filterMap fun y => if y.id == m.id then f else some y }
  match s.migLeaf m.va m.asid m.dest m.big with
  | .error x => some ((put none).warpPutU m.gid m.w m.dreg x)
  | .ok (f, frm, rs) => match s.entriesFor rs fun x => lexLt x m.arr with
    | none => none
    | some ls => some (put (some { m with leaf := f.addr, old := f.val, from_ := frm, rngs := rs, locks := ls, arr := [] }))

/-- Watched objects of a page go on at its new frame; what they took before stays as they took it (05_events R116, 09_ordering R234). -/
def State.moveFrames (s : State) (asid va src dst n : Nat) : State :=
  let here (a : BitVec 64) (f : Nat) : Bool := decide (va ≤ a.toNat) && decide (a.toNat < va + n) && decide (src ≤ f) && decide (f < src + n)
  s.rewatch (fun x => (s.gangOf? x.gid).any fun g => g.asid == asid) fun a f => if here a f then some (f, f - src + dst) else none

/-- PG_MIG_COMPLETION (R249): first the copy, the leaf's compare-and-swap and the shootdown, one of the 32 (R243); once that has drained, the completion
event. -/
def execPgMigCompletion (k : Nat) (s : State) : Out :=
  .next (match s.sys.migs.find? fun m => m.id == k && m.arr == [] with
    | none => s
    | some m =>
      match m.shoot with
      | none =>
        if s.blocked m.id m.locks || 32 ≤ s.sys.shoots.length then s else
        let good := s.rd64 m.leaf == m.old
        let n := pageBytes m.big
        let t := s.copyRange m.from_ m.dest n
        let s := if good then t.moveFrames m.asid m.va m.from_ m.dest n else t
        let new := (m.old &&& ~~~(BitVec.ofNat 64 ((2 ^ 32 - 1) * 2 ^ 8))) ||| BitVec.ofNat 64 m.dest
        let s := if good then s.wr m.leaf 8 new.toNat else s
        let (i, s) := s.postShoot (if m.big then 1 else 0) m.asid m.va
        s.setSys { s.sys with
          shoots := s.sys.shoots.map fun y => if y.id == i then { y with gid := 0 } else y
          migs := s.sys.migs.map fun y => if y.id == k then { y with shoot := some i, good := good } else y }
      | some i =>
        if s.sys.shoots.any fun y => y.id == i then s
        else (s.setSys { s.sys with migs := s.sys.migs.filter fun y => y.id != k }).warpPutU m.gid m.w m.dreg (if m.good then 0 else 4))

/-! ### The fault queue (R244, R245) -/

/-- The fault queue at PFQBASE takes records (R245). -/
def pfqOk (b : BitVec 64) : Bool := b != 0 && b.toNat % 2 ^ 16 == 0 && decide (b.toNat < 2 ^ 40)

/-- The lowest free fault slot (R245). -/
def State.freeFid (s : State) : Option Nat := (List.range 4096).find? fun i => !s.sys.faults.any fun f => f.1 == i

/-- Writes untranslated bytes where memory is (16_stack R350). -/
def State.physPut (s : State) (k : Nat) (bs : List (BitVec 8)) : State := if k + bs.length ≤ gddrTop then s.put k bs else s

/-- Takes a fault slot, writes the record and sends its token (R245). -/
def State.queueFault (s : State) (fid : Nat) (owner : FaultOwner) (kind code : Nat) (g : Gang) (slot path access : Nat) (mask : BitVec 32)
    (va bpa time : BitVec 64) : State :=
  let s := s.setSys { s.sys with faults := s.sys.faults ++ [(fid, owner, kind)] }
  let s := s.physPut (s.pkg.pfqbase.toNat + 64 * fid)
    (leBytes 2 fid ++ leBytes 1 kind ++ leBytes 1 code ++ leBytes 2 g.asid ++ leBytes 1 g.stk ++ leBytes 1 g.core ++ leBytes 2 slot ++
      leBytes 1 path ++ leBytes 1 access ++ leBytes 4 mask.toNat ++ leBytes 8 va.toNat ++ leBytes 8 bpa.toNat ++ leBytes 8 time.toNat ++
      leBytes 4 g.task ++ leBytes 4 g.index ++ leBytes 16 0)
  s.sendToken (BitVec.ofNat 64 (fid * 2 ^ 32 + g.asid * 2 ^ 16 + 3))

/-- Changes a path of a warp by its identifier. -/
def State.onPath (s : State) (gid w id : Nat) (f : Warp → Path → Path) : State :=
  s.mapWarps fun x => if x.gid == gid && x.w == w then x.mapPaths fun p => if p.mask != 0 && p.id == id then f x p else p else x

/-- Physical address of a bounce slot (R247). -/
def State.slotPa (s : State) (stk slot : Nat) : Nat := (s.stk stk).bbbase.toNat + slot * 73728

/-- FAULT_RECORD_WRITE (R245): of a parked path; of the parked sequencer (path 0xFE); of a bounce slot (path 0xFF, by stack and slot). -/
def execFaultRecordWrite (gid w path : Nat) (s : State) : Out :=
  .next (match pfqOk s.pkg.pfqbase && !s.windowMiss, s.freeFid with
    | true, some fid =>
      if path = 0xFE then
        match s.gangOf? gid with
        | none => s
        | some g => match g.seq.st with
          | .parked k =>
            if k.fid.isSome || k.action.isSome then s
            else (s.setGang { g with seq := { g.seq with st := .parked { k with fid := some fid } } }).queueFault fid (.seq gid) 2 k.code g 0xFFFF 0xFE 3 0
              k.va 0 k.time
          | _ => s
      else if path = 0xFF then
        let b := smGet {} (s.stk gid).bslots w
        if !b.taken || b.fid.isSome then s
        else
          let o := (s.ops.find? fun o => b.users.contains o.id).getD {}
          let g := { (s.gangOf? o.gid).getD {} with asid := b.asid, stk := gid, core := o.core }
          let slot := ((s.warpOf? o.gid o.w).getD {}).slot
          let t := s.setStk gid { s.stk gid with bslots := smPut {} (s.stk gid).bslots w { b with fid := some fid } }
          t.queueFault fid (.bounce gid w) 4 1 g slot
            0xFF 1 0 (BitVec.ofNat 64 (b.va * 2 ^ 16 + b.off)) (BitVec.ofNat 64 (s.slotPa gid w)) b.time
      else
        match s.warpOf? gid w, s.gangOf? gid with
        | some x, some g => match x.path? path with
          | some p => match p.st with
            | .parked k =>
              if k.fid.isSome || k.action.isSome then s
              else (s.onPath gid w path fun _ p => { p with st := .parked { k with fid := some fid } }).queueFault fid (.path gid w path) k.kind k.code g x.slot
                path k.access k.mask k.va 0 k.time
            | _ => s
          | none => s
        | _, _ => s
    | _, _ => s)

/-- A pf.resume's action on a parked path, in its warp (R244). With action 1 no lane is left to replay: the chain group ends, and the path
goes on after it. A path that parked on the vector table while it took a trap that its group would not raise again takes that trap (05_events R127). -/
def State.resumePath (s : State) (gid w id action : Nat) : State :=
  match (s.warpOf? gid w).bind fun x => x.path? id with
  | none => s
  | some p => match p.st with
    | .parked k =>
      let h : Here := { pc := p.pc, wpos := p.wpos, npc := k.npc, nwpos := k.nwpos }
      match action with
      | 0 => match k.trap with
        | none => s.onPath gid w id fun x p => { p with st := x.woken }
        | some a => s.withPath gid w id h fun t => t.keptTrap a
      | 1 => s.withPath gid w id h fun t =>
          let t := t.setCur { t.me.cur with st := t.me.woken, replay := some 0 }
          t.lanesOff ((lanesOf (k.mask &&& t.me.cur.mask)).map fun l => (l, 0x0A, k.va))
      | _ => s.withPath gid w id h fun t => t.keptTrap (k.trap.getD (5, k.code, k.va))
    | _ => s

/-- Ends the context of a gang's sequencer with class ACCESS (13_matrix R410). -/
def State.endSeq (s : State) (gid code : Nat) (va : BitVec 64) : State :=
  match s.gangOf? gid with
  | none => s
  | some g =>
    let t := { s with gang := g, issue := .seq, here := { pc := g.seq.pc, wpos := g.seq.wpos } }.endContext 5 code va
    { s with ctxs := t.ctxs }

/-- A pf.resume's action on a parked sequencer (13_matrix R410). -/
def State.resumeSeq (s : State) (gid action : Nat) : State :=
  match s.gangOf? gid with
  | none => s
  | some g => match g.seq.st with
    | .parked k => if action = 0 then s.setGang { g with seq := { g.seq with st := .running } } else s.endSeq gid k.code k.va
    | _ => s

/-- The gang's warps are saved: a pf.resume takes effect at resumption (R244). -/
def State.gangSaved (s : State) (gid : Nat) : Bool :=
  match s.gangOf? gid with
  | some g => g.st == .saved
  | none => false

/-- PF_RESUME (R256). -/
def execPfResume (d a b : BitVec 6) (s : State) : Out :=
  let fid := (s.u a).toNat % 2 ^ 12
  let act := (s.u b).toNat % 4
  .next (if (s.u a).toNat / 2 ^ 12 ≠ 0 then s.progErr 0x0A01 ((s.u a).setWidth 64)
    else if (s.u b).toNat / 4 ≠ 0 then s.progErr 0x0A01 ((s.u b).setWidth 64)
    else match s.sys.faults.find? fun f => f.1 == fid && f.2.2 != 4 with
      | none => s.setU d 1
      | some f =>
        if act = 3 then s.setU d 2
        else
          let s := (s.setU d 0).setSys { s.sys with faults := s.sys.faults.filter fun x => x.1 != fid }
          match f.2.1 with
          | .path gid w id =>
            if (s.warpOf? gid w).any fun x => x.pre.st == .saved || s.gangSaved gid then
              s.onPath gid w id fun _ p => match p.st with
                | .parked k => { p with st := .parked { k with fid := none, action := some act } }
                | _ => p
            else s.resumePath gid w id act
          | .seq gid =>
            if s.gangSaved gid then
              match s.gangOf? gid with
              | some g => match g.seq.st with
                | .parked k => s.setGang { g with seq := { g.seq with st := .parked { k with fid := none, action := some act } } }
                | _ => s
              | none => s
            else s.resumeSeq gid act
          | .bounce _ _ => s)

/-- The bytes that a bounce slot's marks cover, copied to a frame in one event (R256). -/
def State.moveMarks (s : State) (src dst : Nat) (marks : List (Nat × Nat)) : State :=
  s.putAll (marks.flatMap fun m => runAt (dst + m.1) (s.bytes (src + m.1) m.2))

/-- A range that lies in a bounce slot, at its place in a frame. -/
def Rng.moved (r : Rng) (slot frame : Nat) : Rng :=
  if slot ≤ r.base && decide (r.base < slot + 2 ^ 16) then { r with base := r.base - slot + frame } else r

/-- An operation goes on with a frame in place of a bounce slot: its ranges, their bytes and its locks, on the bytes that are marked (R256), where the
tables have room (log 50). -/
def State.rebase (s : State) (o : EngOp) (slot frame : Nat) (marks : List (Nat × Nat)) : Option EngOp :=
  let inSlot (b : Nat) : Bool := slot ≤ b && decide (b < slot + 2 ^ 16)
  let mine := (o.ranges.filter fun r => inSlot r.base).map fun r => r.moved slot frame
  let mine := mine.map fun r =>
    { r with only := some (marks.filterMap fun m => if r.base ≤ frame + m.1 && decide (frame + m.1 < r.base + r.len) then some (frame + m.1, m.2) else none) }
  match allocEntries (s.locks.map Prod.snd) (s.needs mine) with
  | none => none
  | some ls => some { o with
      ranges := o.ranges.map fun r => r.moved slot frame
      segs := o.segs.map fun g => if inSlot g.key then { g with key := g.key - slot + frame } else g
      locks := (o.locks.filter fun l => !inSlot l.base) ++ ls }

/-- Moves every user of a bounce slot to a frame, one after another. -/
def State.rebaseAll (s : State) (slot frame bid : Nat) (marks : List (Nat × Nat)) : List Nat → Option State
  | [] => some s
  | i :: rest =>
    match s.ops.find? fun o => o.id == i with
    | none => s.rebaseAll slot frame bid marks rest
    | some o => match s.rebase o slot frame marks with
      | none => none
      | some o' =>
        let o' := { o' with bounced := o'.bounced.filter fun x => x.1 != bid }
        (s.mapOps fun y => if y.id == i then o' else y).rebaseAll slot frame bid marks rest

/-- BB_MOVE (R248, R256): the FULL-LOCKs on the frame go to the operations that use the slot, whose completion events follow. -/
def execBbMove (d a b : BitVec 6) (s : State) : Out :=
  let fid := (s.u a).toNat % 2 ^ 12
  let frame := (s.uu b).toNat
  .next (match s.sys.faults.find? fun f => f.1 == fid && f.2.2 == 4 with
      | some (_, .bounce stk slot, _) =>
        if frame % 2 ^ 16 ≠ 0 || gddrTop < frame + 2 ^ 16 then s.setU d 3
        else
          let bs := smGet {} (s.stk stk).bslots slot
          let pa := s.slotPa stk slot
          match s.rebaseAll pa frame (stk * 256 + slot) bs.marks bs.users with
          | none => s.retry
          | some t =>
            let t := t.moveMarks pa frame bs.marks
            let k := t.stk stk
            let t := t.setStk stk { k with bslots := smPut {} k.bslots slot {} }
            (t.setSys { t.sys with faults := t.sys.faults.filter fun x => x.1 != fid }).setU d 0
      | _ => s.setU d 1)

end Sys2Proof.Machine
end

