-- ==== Sys2Proof/Machine/EngineOps.lean ====
section
/-! DEFINITION. The common parts of engine operations (09_ordering R220 to R226, 10_translation R246, R247, 11_copy R267): segments and their
translation, bounce slots, queue places, lock entries and registration. -/

namespace Sys2Proof.Machine

/-- What the checks of an operation's registration find: a failure, with the state after it; a wait for a bounce slot; or the operation ready
to register. -/
inductive Eval where
  | no (s : State)
  | wait (s : State) (o : EngOp)
  | ok (s : State) (o : EngOp)

/-- The key of a byte of an operation's ranges. -/
def segKey (gs : List Seg) (a : Nat) : Option Nat :=
  (gs.find? fun g => decide (g.addr ≤ a) && decide (a < g.addr + g.len)).map fun g => a - g.addr + g.key

/-- Cuts a range of virtual addresses at 64 KiB boundaries (R223). -/
def cutVa (va : Nat) : Nat → Nat → List (Nat × Nat)
  | 0, _ => []
  | fuel + 1, len =>
    if len = 0 then []
    else
      let n := min len (2 ^ 16 - va % 2 ^ 16)
      (va, n) :: cutVa (va + n) fuel (len - n)

/-- A part of an operation's ranges as its registration needs it: a run of generic addresses, read or written, and whether a
NOTVALID destination is bounced. -/
structure Part where
  addr  : Nat
  len   : Nat
  write : Bool
  bounce : Bool := true
  deriving DecidableEq, Repr

/-- The bounce slot for a page: the one that serves it already, else the lowest free slot (R247). -/
def State.bounceSlot (s : State) (stk asid page : Nat) (taken : List (Nat × Nat)) : Option Nat :=
  let bs := (s.stk stk).bslots
  match taken.find? fun t => t.2 == page with
  | some t => some t.1
  | none => match bs.find? fun b => b.2.taken && b.2.asid == asid && b.2.va == page with
    | some b => some b.1
    | none => (List.range 256).find? fun i => !(smGet {} bs i).taken && !taken.any fun t => t.1 == i

/-- Bouncing is enabled on a stack (R247). -/
def State.bounces (s : State) (stk : Nat) : Bool :=
  let b := (s.stk stk).bbbase.toNat
  b != 0 && b % 2 ^ 21 == 0

/-- The translation of the segments of an operation's global ranges (R246): the segments with their keys, the pages used and those bounced;
or the fault that parks the path; or a wait for a slot. -/
inductive SegRes where
  | good (s : State) (segs : List Seg) (rs : List Rng) (pages : List (Nat × Nat)) (bounced : List (Nat × Nat × Nat × Nat)) (short : Bool)
  | fault (s : State) (code access : Nat) (va : Nat)

def State.segments (s : State) (bs : List (Nat × Nat × Nat × Nat)) : List Part → SegRes
  | [] => .good s [] [] [] bs false
  | p :: ps =>
    match s.translate (if p.write then .write else .read) p.addr with
    | (t, .ok k) => match t.segments bs ps with
      | .good u gs rs pg bo sh =>
        .good u ({ addr := p.addr, len := p.len, key := k } :: gs) ({ base := k, len := p.len, full := p.write } :: rs)
          ((s.gang.asid, p.addr / 2 ^ 16) :: pg) bo sh
      | f => f
    | (t, .error c) =>
      if p.write && p.bounce && c == 1 && s.bounces s.gang.stk then
        let page := p.addr / 2 ^ 16
        match s.bounceSlot s.gang.stk s.gang.asid page (bs.map fun b => (b.1 % 256, b.2.1)) with
        | none => match t.segments bs ps with
          | .good u gs rs pg bo _ => .good u gs rs pg bo true
          | f => f
        | some i =>
          let k := s.slotPa s.gang.stk i + p.addr % 2 ^ 16
          match t.segments (bs ++ [(s.gang.stk * 256 + i, page, p.addr % 2 ^ 16, p.len)]) ps with
          | .good u gs rs pg bo sh =>
            .good u ({ addr := p.addr, len := p.len, key := k } :: gs) ({ base := k, len := p.len, full := true } :: rs) pg bo sh
          | f => f
      else .fault t c (if p.write then 1 else 0) p.addr

/-- Where a range of a generic address range that is no global range lies (R194, R200), or the lane code by which the path's lanes go. -/
def State.place (s : State) (addr len : Nat) : Except Nat Nat :=
  let ap := addr / 2 ^ 48
  let off := addr % 2 ^ 48
  if ap = 0xFFF0 then
    if s.gang.localk * 1024 < off + len then .error 4
    else if s.gang.poolHeld && decide (s.gang.localk * 1024 < off + len + poolBytes s.gang.pool) then .error 7
    else .ok (localKey s.coreNo (s.gang.base + off))
  else if ap = 0xFFF2 then
    if !s.powered (off / 2 ^ 45) then .error 1
    else if s.poolHit (32 * (off / 2 ^ 45) + off / 2 ^ 40 % 32) (off % 2 ^ 40) len then .error 7
    else .ok (localKey (32 * (off / 2 ^ 45) + off / 2 ^ 40 % 32) (off % 2 ^ 40))
  else if ap = 0xFFF3 then
    if off / 2 ^ 24 % 2 ^ 21 ≠ 0 || !s.powered (off / 2 ^ 45) || 2 ^ 24 < off % 2 ^ 24 + len then .error 6
    else .ok (commonsKey (off / 2 ^ 45) (off % 2 ^ 24))
  else if ap = 0xFFF4 then
    if 2 ^ 18 < off + len then .error 1 else .ok (tileKey s.gang.gid 0 off)
  else .error 1

/-- Switches every active lane of the path off with a code, as a bank operation does (R212). -/
def State.allOff (s : State) (m : BitVec 32) (code addr : Nat) : State :=
  s.lanesOff ((lanesOf m).map fun l => (l, code, BitVec.ofNat 64 addr))

/-- The engine word waits, held at its place, until operations release their locks; then it issues again. -/
def State.heldByLocks (s : State) (ls : List (Nat × Lock)) : State := (s.holdHere (.range (ls.map Prod.fst).eraseDups)).trapped

/-! ### Queue places, entries and registration (R223, R267, R308) -/

/-- The queue of an operation: a core's copy queue or its vertical queue; streams have none. -/
def EngOp.queue (o : EngOp) : Option (Nat × Bool) := if o.cls = 5 then none else some (32 * o.stk + o.core, o.cls == 4)

/-- A queue has no place: it holds 32 operations, registered or given a place and waiting for their lock entries (R267). -/
def State.queueFull (s : State) (q : Nat × Bool) : Bool :=
  decide (32 ≤ (s.ops.filter fun o => (o.registered || (o.phase == .waitEntries && o.placed)) && o.queue == some q).length)

/-- An operation finds no place, or one that arrived earlier still waits for a place of the queue. -/
def State.placeLacks (s : State) (o : EngOp) : Bool :=
  match o.queue with
  | none => false
  | some q => s.queueFull q || s.ops.any fun p => p.phase == .waitPlace && p.queue == some q

/-- An arrival: the cycle (core) for a place of a queue (R267), the tick for lock entries (R223), then stack, core, track and warp slot. -/
def State.arrival (s : State) (o : EngOp) (ph : OpPhase) : List Nat :=
  [if ph = .waitPlace then (s.core (32 * o.stk + o.core)).cyc.toNat else s.now.toNat, o.stk, o.core, s.me.track, s.me.slot]

/-- An operation waits, in its order of arrival. -/
def State.addWaiting (s : State) (o : EngOp) (ph : OpPhase) : State :=
  let (i, s) := s.takeId
  { s with ops := s.ops ++ [{ o with id := i, phase := ph, locks := [], arr := s.arrival o ph }] }

/-- The listed bytes of an operation's source ranges. -/
def State.sourceCells (s : State) (o : EngOp) : List Host.Cell :=
  s.mem.filter fun x => o.ranges.any fun r => !r.full && decide (r.base ≤ x.1) && decide (x.1 < r.base + r.len)

/-- Memory in which an operation's source ranges hold what they held at its registration (R221). -/
def State.sourceView (s : State) (o : EngOp) : State :=
  { s with mem := (o.ranges.filter fun r => !r.full).foldl (fun m r => smTake m o.snap r.base r.len) s.mem }

/-- Takes the bounce slots of an operation at its registration: a slot taken first is cleared (R247). -/
def State.takeSlots (s : State) (o : EngOp) : State :=
  o.bounced.foldl (fun s b =>
    let k := s.stk (b.1 / 256)
    let i := b.1 % 256
    let x := smGet {} k.bslots i
    let s := if x.taken then s else s.clear (s.slotPa (b.1 / 256) i + 2 ^ 16) 8192
    let x' : BSlot := if x.taken then { x with users := x.users ++ [o.id] }
      else { asid := o.asid, va := b.2.1, users := [o.id], taken := true, off := b.2.2.1, time := s.now }
    s.setStk (b.1 / 256) { k with bslots := smPut {} k.bslots i x' }) s

/-- The registration event (R221) of an operation with its entries; a store stream opens (12_streams R278), or closes at once where its warp exited or was
saved while it waited (12_streams R281), and a bpool.init takes the pool (14_beams R314). -/
def State.register (s : State) (o : EngOp) (ls : List Lock) : State :=
  let (i, s) := s.takeId
  let o := { o with id := i, phase := if o.cls = 5 then .started else .registered, locks := ls, snap := s.sourceCells o }
  let s := ({ s with ops := s.ops ++ [o] } : State).takeSlots o
  match o.body with
  | .stream q x =>
    let x := if !o.closing then { x with op := some i } else if s.me.pre.st = .saved then x else { x with op := some i, st := .closing }
    { s with me := { s.me with streams := smPut {} s.me.streams q x } }
  | .gfx .bpoolInit _ _ _ => { s with gang := { s.gang with poolHeld := true } }
  | _ => s

/-- Registers an operation whose checks are made, or has it wait for lock entries. -/
def State.tryRegister (s : State) (o : EngOp) : State :=
  match s.entriesFor o.ranges fun a => !lexLt (s.arrival o .waitEntries) a with
  | some ls => s.register o ls
  | none => s.addWaiting o .waitEntries

/-- Issues an operation whose checks are made (R221, R223, R267). -/
def State.enqueue (s : State) (o : EngOp) : State := if s.placeLacks o then s.addWaiting o .waitPlace else s.tryRegister o

/-- What the checks found takes effect. -/
def Eval.issue : Eval → State
  | .no s => s
  | .wait s o => if s.placeLacks o then s.addWaiting o .waitPlace else s.addWaiting o .waitEntries
  | .ok s o => s.enqueue o

/-- Issues an operation with what its checks find; one that finds its queue full waits in the pipe, and is checked at its registration (R267). -/
def State.issueOp (s : State) (o : EngOp) (e : Eval) : State := if s.placeLacks o then s.addWaiting o .waitPlace else e.issue

/-- An operation of the path in focus with what every operation records. -/
def State.newOp (s : State) (cls fence : Nat) (body : OpBody) (m : BitVec 32) : EngOp :=
  { gid := s.gang.gid, w := s.me.w, path := s.me.cur.id, asid := s.gang.asid, stk := s.gang.stk, core := s.gang.core, cls := cls, fence := fence
    alm := s.gang.alm, pc := s.here.pc, wpos := s.here.wpos, npc := s.here.npc, nwpos := s.here.nwpos, body := body, dmask := m, fenced := s.me.cur.fenced
    birth := s.point }

/-- Completes an operation's checks with the translation of its global parts: parks the path, waits for a slot, or is ready (R246). -/
def State.finish (s : State) (o : EngOp) (globals : List Part) (segs : List Seg) (rs : List Rng) : Eval :=
  match s.segments [] globals with
  | .fault t c acc va => .no (t.park 3 c (BitVec.ofNat 64 va) acc s.me.cur.mask)
  | .good t gs rg pg bo short =>
    let o := { o with segs := gs ++ segs, ranges := rg ++ rs, pages := pg, bounced := bo }
    if short then .wait t o else .ok t o

end Sys2Proof.Machine
end

