-- ==== Sys2Proof/Machine/Streams.lean ====
section
/-! DEFINITION. Stream and fibre registers and expert routing (12_streams R274 to R286). -/

namespace Sys2Proof.Machine

def State.stream (s : State) (q : Nat) : StreamReg := smGet {} s.me.streams q
def State.setStream (s : State) (q : Nat) (x : StreamReg) : State := { s with me := { s.me with streams := smPut {} s.me.streams q x } }
def State.fibre (s : State) (q : Nat) : FibreReg := smGet {} s.me.fibres q
def State.setFibre (s : State) (q : Nat) (x : FibreReg) : State := { s with me := { s.me with fibres := smPut {} s.me.fibres q x } }

/-- A stream register is OPEN (R274). -/
def StreamReg.isOpen (x : StreamReg) : Bool := x.st == .affine || x.st == .indirect
/-- Bytes of an element (R274). -/
def StreamReg.bytes (x : StreamReg) : Nat := 2 ^ x.size.toNat

/-- The load that reads an element of a size, with its extension (R279). -/
def loadOf (size : BitVec 2) (sext : Bool) : MemSize :=
  match size.toNat, sext with
  | 0, false => .n8
  | 0, true => .i8
  | 1, false => .n16
  | 1, true => .i16
  | 2, _ => .b32
  | _, _ => .b64

/-- The word of a stream's pattern for lane slot l at POS: an element of an affine stream, an index of an indirect one (R277). -/
def StreamReg.slotAddr (x : StreamReg) (l : Nat) : BitVec 64 :=
  (if x.st == .indirect then x.ibase else x.abase) + (x.pos.setWidth 64) * x.istr.signExtend 64 + BitVec.ofNat 64 l * x.lstr.signExtend 64

/-- The element that an index names (R277). -/
def StreamReg.indexed (x : StreamReg) (idx : BitVec 32) : BitVec 64 :=
  x.abase + (if x.isgn then idx.signExtend 64 else idx.setWidth 64) * BitVec.ofNat 64 x.bytes

/-! ### Opening and closing (R276, R278, R281) -/

/-- The operand that makes an open block malformed (R276), with its value. -/
def StreamReg.malformed (x : StreamReg) (ctl : BitVec 32) (indirect : Bool) : Option (BitVec 64) :=
  let c64 : BitVec 64 := ctl.setWidth 64
  let off (v : BitVec 32) : Bool := v.toNat % x.bytes != 0
  if ctl.toNat / 32 ≠ 0 then some c64
  else if x.count = 0 then some 0
  else if x.sext && (decide (2 ≤ x.size.toNat) || x.dir) then some c64
  else if !indirect && x.isgn then some c64
  else if indirect && x.dir then some c64
  else if x.dir && decide (x.abase.toNat % x.bytes ≠ 0) then some x.abase
  else if x.dir && off x.istr then some (x.istr.setWidth 64)
  else if x.dir && off x.lstr then some (x.lstr.setWidth 64)
  else none

/-- The hull of a store stream as exact addresses: first byte and length (R278). -/
def StreamReg.hull (x : StreamReg) : Int × Nat :=
  let i : Int := x.istr.toInt * (x.count.toNat - 1)
  let l : Int := x.lstr.toInt * 31
  let lo : Int := x.abase.toNat + min i 0 + min l 0
  let hi : Int := x.abase.toNat + max i 0 + max l 0 + x.bytes
  (lo, (hi - lo).toNat)

/-- Opens a store stream (R278): the checks of its hull, its translation, and its registration. -/
def State.evalStream (s : State) (q : Nat) (x : StreamReg) (m : BitVec 32) : Eval :=
  let (lo, n) := x.hull
  let a := lo.toNat
  let ap := a / 2 ^ 48
  let o := s.newOp 5 2 (.stream q x) m
  let o := { o with closing := false }
  let own (rs : List Rng) : Bool :=
    s.locks.any fun y => s.ownStreams.contains y.1 && rs.any fun r => decide (r.base < y.2.base + y.2.len) && decide (y.2.base < r.base + r.len)
  let done (e : Eval) : Eval := match e with
    | .ok t o => if own o.ranges then .no (s.progErr 0x0C05 x.abase) else .ok t o
    | e => e
  let aperture := decide (lo < 0) || decide (2 ^ 24 < n) || decide ((a + n - 1) / 2 ^ 48 ≠ ap)
  let bad : Option Nat :=
    if lo < 0 then none
    else if ap = 0 then none
    else if ap = 0xFFF1 then some 2
    else if ap = 0xFFF4 then some 1
    else if ap = 0xFFF0 && decide (a ≤ selfAddr.toNat) && decide (selfAddr.toNat < a + n) then some 2
    else match s.place a n with
      | .error c => some c
      | .ok _ => none
  match bad with
  | some c => .no (s.allOff m c a)
  | none =>
    if aperture then .no (s.progErr 0x0C03 x.abase)
    else if ap = 0 then done (s.finish o ((cutVa a 258 n).map fun c => { addr := c.1, len := c.2, write := true, bounce := false }) [] [])
    else match s.place a n with
      | .error c => .no (s.allOff m c a)
      | .ok k =>
        let c := remoteCore (BitVec.ofNat 64 a)
        if ap = 0xFFF2 && !s.inAllocation c s.gang.asid (a % 2 ^ 40) n then .no ((s.logRefusal c (a % 2 ^ 40)).allOff m 8 a)
        else done (s.finish o [] [{ addr := a, len := n, key := k }] [{ base := k, len := n, full := true }])

/-- An open store stream whose hull is not registered: its warp was saved (R281). -/
def StreamReg.shut (x : StreamReg) : Bool := x.isOpen && x.dir && x.op.isNone

/-- The checks of a store stream's open once more, for one that waited: its register may have been opened meanwhile (R276), unless it is that of a resumed
warp's own open stream (R281). -/
def State.evalOpen (s : State) (q : Nat) (x : StreamReg) (m : BitVec 32) (closing : Bool) : Eval :=
  if (s.stream q).st ≠ .closed && !closing && !(s.stream q).shut then .no (s.progErr 0x0C02 0)
  else match s.evalStream q x m with
    | .no t => .no t
    | .wait t o => .wait t { o with closing := closing }
    | .ok t o => .ok t { o with closing := closing }

/-- Opens a stream with its block read (R276). -/
def State.openStream (s : State) (q : Nat) (x : StreamReg) (ctl : BitVec 32) (indirect : Bool) : State :=
  let x := { x with isgn := ctl.getLsbD 4, sext := ctl.getLsbD 3, dir := ctl.getLsbD 2, size := ctl.setWidth 2,
                    st := if indirect then .indirect else .affine }
  match x.malformed ctl indirect with
  | some v => s.progErr 0x0C01 v
  | none =>
    if (s.stream q).st ≠ .closed then s.progErr 0x0C02 0
    else if x.dir then (s.evalStream q x s.me.cur.mask).issue
    else s.setStream q x

/-- STR_OPEN (R276, R278). -/
def execStrOpen (n : BitVec 3) (u : BitVec 6) (s : State) : Out :=
  let w (k : Nat) : BitVec 32 := s.un (u.toNat + k)
  .next (s.openStream n.toNat { abase := s.uuAt u 0, istr := w 2, lstr := w 3, count := w 4 } (w 5) false)

/-- STR_OPENI (R276). -/
def execStrOpeni (n : BitVec 3) (u : BitVec 6) (s : State) : Out :=
  let w (k : Nat) : BitVec 32 := s.un (u.toNat + k)
  .next (s.openStream n.toNat { abase := s.uuAt u 0, ibase := s.uuAt u 2, istr := w 4, lstr := w 5, count := w 6 } (w 7) true)

/-- STR_ADV (R281). -/
def execStrAdv (n : BitVec 3) (u : BitVec 6) (s : State) : Out :=
  let x := s.stream n.toNat
  .next (if !x.isOpen then s.progErr 0x0C02 0
    else s.setStream n.toNat { x with pos := BitVec.ofNat 32 (min (x.pos.toNat + (s.u u).toNat) x.count.toNat), ahead := 0 })

/-- STR_TEND (R281). -/
def execStrTend (p n : BitVec 3) (s : State) : Out :=
  let x := s.stream n.toNat
  .next (if !x.isOpen then s.progErr 0x0C02 0 else s.setP p fun _ => x.pos == x.count)

/-- STR_CLOSE (R281). -/
def execStrClose (n : BitVec 3) (s : State) : Out :=
  let x := s.stream n.toNat
  .next (if !x.isOpen then s
    else if x.dir then
      (s.setStream n.toNat { x with st := .closing }).mapOps fun o => if x.op == some o.id then { o with closing := true } else o
    else s.setStream n.toNat { x with st := .closed, ahead := 0 })

/-- An open store stream of a warp is not registered: the warp was saved, and issues nothing until its hull is registered again (R281). -/
def Warp.streamShut (x : Warp) : Bool := x.streams.any fun q => q.2.shut

/-- Registers a store stream of the path in focus again, or has it wait for its entries; a fault parks the path. One that waits already goes on
waiting. -/
def State.reopen (s : State) (q : Nat) (x : StreamReg) : State :=
  if s.ops.any fun o => o.gid == s.me.gid && o.w == s.me.w && o.phase == .waitEntries && (match o.body with | .stream k _ => k == q | _ => false) then s
  else match s.evalStream q x s.me.lanes with
    | .ok t o => t.tryRegister o
    | .wait t o => t.addWaiting o .waitEntries
    | .no t => t

/-- A path is parked by a fault of its warp's store stream at resumption: it goes on at its own place. -/
def Path.reopening (p : Path) : Bool :=
  match p.st with
  | .parked k => k.kind == 3 && k.npc == p.pc && k.nwpos == p.wpos
  | _ => false

/-- Registers the open store streams of a resumed warp again before its first chain group (R281). The path that issues next meets what the checks of
R278 find, as at str.open: the spec does not say which (the model's choice, log 49). While it is parked, none is tried. -/
def State.reopenStreams (s : State) (gid w : Nat) : State :=
  match s.warpOf? gid w with
  | none => s
  | some x =>
    if x.live.any Path.reopening then s
    else match x.live.find? fun p => p.st == .ready with
      | none => s
      | some p => (x.streams.filter fun q => q.2.shut).foldl
          (fun s q => s.withPath gid w p.id { pc := p.pc, wpos := p.wpos, npc := p.pc, nwpos := p.wpos } fun t =>
            if t.me.cur.st == .ready then t.reopen q.1 q.2 else t) s

/-! ### Pops and pushes (R279) -/

/-- The path goes on from a memory word: it neither trapped nor parked. -/
def State.wentOn (s : State) : Bool :=
  !s.here.trapped && (match s.me.cur.st with | .parked _ => false | _ => true)

/-- A remote-local read that performs within the step: its key, or none where the target refuses it (R200). -/
def State.remoteRead (s : State) (c off n : Nat) : Option Nat :=
  if s.inAllocation c s.gang.asid off n && s.conflicts (localKey c off) n false == [] then some (localKey c off) else none

/-- A read that performs within the step: its place as memory, with a refusal logged and its lane failed where a remote target refuses it (R200, R201). -/
def State.readNow (s : State) (n : Nat) (p : Pre) : State × Pre :=
  match p with
  | .ok (.remote c off) pg => match s.remoteRead c off n with
    | some k => (s, .ok (.mem k) pg)
    | none => (s.logRefusal c off, .off 8)
  | p => (s, p)

/-- The index loads' form: four bytes. -/
def idxForm : MemForm := { op := .load .b32, kind := .read, allow := .plain, size := 4 }

/-- What a lane of an indirect pop meets: its index load, and the element load that the index names. -/
structure PopLane where
  idx  : Req × Pre
  elem : Option (Req × Pre)
  deriving DecidableEq, Repr

/-- The lanes of an indirect pop in order, each with its index load and then its element load (R279). -/
def State.popLanes (s : State) (x : StreamReg) (f : MemForm) : List Req → State × List PopLane
  | [] => (s, [])
  | r :: rest =>
    let (t, p) := s.prepare idxForm r
    let (t, p) := t.readNow 4 p
    let (t, e) := match p with
      | .ok (.mem k) _ =>
        let q : Req := { lane := r.lane, addr := x.indexed (s.rd32 k) }
        let (u, p') := t.prepare f q
        let (u, p') := u.readNow f.size p'
        (u, some (q, p'))
      | _ => (t, none)
    let (u, ls) := t.popLanes x f rest
    (u, { idx := (r, p), elem := e } :: ls)

/-- The locks that a lane meets: its index's, else its element's. -/
def State.popHits (s : State) (f : MemForm) (y : PopLane) : List (Req × List (Nat × Lock)) :=
  match s.rangeHits idxForm [y.idx] with
  | [] => s.rangeHits f y.elem.toList
  | h => h

/-- A read of a lane waits for the memory-clock window (16_stack R360). -/
def State.popHeld (s : State) (y : PopLane) : Bool :=
  (y.idx :: y.elem.toList).any fun p => match p.2 with | .ok (.mem k) _ => s.windowHolds k | _ => false

/-- Pops of an indirect stream (R279): each lane's index load and then its element load, in lane order, once nothing of the path is in flight. Its remote
reads perform with it (log 49). -/
def State.popIndirect (s : State) (x : StreamReg) (f : MemForm) (rs : List Req) : State :=
  if s.inFlight s.me s.me.cur then s.retry
  else
    let (t, ls) := s.popLanes x f rs
    match ls.flatMap (s.popHits f) with
    | h :: hs => s.rangeTrap (h :: hs)
    | [] =>
      if ls.any s.popHeld then s.retry
      else
        let es := ls.filterMap PopLane.elem
        let is := ls.map PopLane.idx
        let lost := ls.flatMap fun y => offsOf [y.elem.getD y.idx]
        let bad := ls.flatMap fun y => (faultsOf [y.idx]).map (fun z => (idxForm, z)) ++ (faultsOf y.elem.toList).map fun z => (f, z)
        let t := ((t.sawAccs idxForm (passedOf is)).sawAccs f (passedOf es)).laneOff lost
        let t := match bad with
          | [] => t
          | b :: _ => t.parkFaults b.1 (bad.map Prod.snd)
        (t.performAll f false (goodOf es)).settleFrom s.me.live.length

/-- The place in a stream or fibre at which a pop of the path in focus reads: its own, or that of its first issue in a replay (R279). -/
def State.popAt (s : State) (own : BitVec 32) : BitVec 32 := if s.me.cur.replay.isSome then s.me.cur.rpos.getD own else own

/-- What follows a pop: the place goes on, or a parked path keeps where it read. -/
def State.popped (s : State) (pos : BitVec 32) (go : State → State) : State :=
  if s.wentOn then go s
  else match s.me.cur.st with
    | .parked _ => s.setCur { s.me.cur with rpos := some pos }
    | _ => s

/-- STR_POP (R279). A replay reads where the pop first issued; POS goes on by one from where it then is, which another path may have moved (log 49). -/
def execStrPop (d : BitVec 7) (n : BitVec 3) (s : State) : Out :=
  let y := s.stream n.toNat
  let x := { y with pos := s.popAt y.pos }
  let f : MemForm := { op := .load (loadOf x.size x.sext), kind := .read, allow := .plain, size := x.bytes, dreg := some d.toNat }
  let rs := s.reqs fun l => { lane := l, addr := x.slotAddr l }
  let adv (t : State) : State := t.popped x.pos fun t =>
    let y := t.stream n.toNat
    t.setStream n.toNat { y with pos := BitVec.ofNat 32 (min (y.pos.toNat + 1) y.count.toNat), ahead := y.ahead - 1 }
  .next (if !x.isOpen || x.dir then s.progErr 0x0C02 0
    else if x.size = 3 && d.getLsbD 0 then s.progErr 0x0C02 0
    else if x.pos = x.count then s.progErr 0x0C04 0
    else adv (if x.st = .affine then s.laneMem f rs else s.popIndirect x f rs))

/-- STR_PUSH (R279): the bytes stay with the stream's operation until its completion event. -/
def execStrPush (n : BitVec 3) (a : BitVec 7) (s : State) : Out :=
  let x := s.stream n.toNat
  .next (if !x.isOpen || !x.dir then s.progErr 0x0C02 0
    else if x.size = 3 && a.getLsbD 0 then s.progErr 0x0C02 0
    else if x.pos = x.count then s.progErr 0x0C04 0
    else
      let sides := s.lanes.map fun l => (l, s.steer l .plain x.bytes x.bytes false (x.slotAddr l))
      let offs : List (Nat × Nat × BitVec 64) := sides.filterMap fun y => match y.2 with | .error c => some (y.1, c, x.slotAddr y.1) | .ok _ => none
      let goods : List Req := (sides.filter fun y => y.2.isOk).map fun y =>
        { lane := y.1, addr := x.slotAddr y.1, val := if x.size = 3 then s.vv a y.1 else (s.v a y.1).setWidth 64 }
      let own := (s.ops.find? fun o => x.op == some o.id).getD {}
      let placed : List (Nat × Req) := goods.filterMap fun r => (segKey own.segs r.addr.toNat).map fun k => (k, r)
      match placed.filterMap fun y => match (s.conflicts y.1 x.bytes true).filter fun l => x.op != some l.1 with
        | [] => none
        | ls => some (y.2, ls) with
      | h :: hs => s.rangeTrap (h :: hs)
      | [] =>
        let bytes := placed.flatMap fun y => runAt y.1 (leBytes x.bytes y.2.val.toNat)
        let t := s.mapOps fun o => if x.op == some o.id then { o with writes := o.writes ++ bytes } else o
        let t := t.sawAccs { op := .store x.bytes, kind := .write, allow := .plain, size := x.bytes } goods
        (t.setStream n.toNat { x with pos := x.pos + 1 }).lanesOff offs)

/-! ### Fibres (R282, R283) -/

/-- FIB_OPEN (R282). -/
def execFibOpen (n : BitVec 2) (u : BitVec 6) (s : State) : Out :=
  let w (k : Nat) : BitVec 32 := s.un (u.toNat + k)
  let ctl := w 6
  .next (if (s.fibre n.toNat).isOpen then s.progErr 0x0C02 0
    else if w 5 < w 4 then s.progErr 0x0C01 ((w 4).setWidth 64)
    else if ctl.getLsbD 3 && ctl.getLsbD 1 then s.progErr 0x0C01 (ctl.setWidth 64)
    else if ctl.toNat / 16 ≠ 0 || ctl.getLsbD 2 then s.progErr 0x0C01 (ctl.setWidth 64)
    else s.setFibre n.toNat { crd := s.uuAt u 0, val := s.uuAt u 2, cur := w 4, fin := w 5, size := ctl.setWidth 2, sext := ctl.getLsbD 3, isOpen := true })

/-- The lanes over which fib.adv counts: those the chain group issued for first (R279, R283). -/
def State.wholeMask (s : State) : BitVec 32 := if s.me.cur.replay.isSome then s.me.cur.whole else s.me.cur.mask

/-- A fibre's access of a lane that failed with its twin access: the twin's outcome stands for both. -/
def mergePre (a b : Pre) : Pre :=
  match a, b with
  | .off c, _ => .off c
  | .ok _ _, .off c => .off c
  | .fault _, .off c => .off c
  | .fault c, _ => .fault c
  | .ok _ _, .fault c => .fault c
  | .ok x p, .ok _ _ => .ok x p

/-- The value's access of a fibre, which leaves the coordinate's register `a` alone: where a pair `d` holds it, the access writes the other half (R283). -/
def fibreValue (x : FibreReg) (d a : Nat) : MemForm :=
  let f : MemForm := { op := .load (loadOf x.size x.sext), kind := .read, allow := .plain, size := 2 ^ x.size.toNat, dreg := some d }
  if x.size = 3 && a == d then { f with op := .half true, dreg := some (d + 1) }
  else if x.size = 3 && a == d + 1 then { f with op := .half false }
  else if a == d then { f with dreg := none }
  else f

/-- The reads of a fibre's lanes, each lane's coordinate and then its value (R283); once one stays in flight, those after it wait for it. -/
def State.performFibre (s : State) (fc fv : MemForm) (waiting : Bool) :
    List ((Req × Spot × Option (Nat × Nat)) × (Req × Spot × Option (Nat × Nat))) → State
  | [] => s
  | (c, v) :: rest =>
    let t := s.performAll fc waiting [c]
    let u := t.performAll fv (waiting || decide (s.accs.length < t.accs.length)) [v]
    u.performFibre fc fv (waiting || decide (s.accs.length < u.accs.length)) rest

/-- FIB_ADV (R283); a replay reads where the chain group first issued, as a pop does (R279, log 49). -/
def execFibAdv (d a : BitVec 7) (n : BitVec 2) (s : State) : Out :=
  let x := s.fibre n.toNat
  let size := 2 ^ x.size.toNat
  let whole := lanesOf s.wholeMask
  let at_ := s.popAt x.cur
  let entry (l : Nat) : Nat := at_.toNat + whole.findIdx fun m => m == l
  let acts := lanesOf s.memMask
  let hit := acts.filter fun l => decide (entry l < x.fin.toNat)
  let fc : MemForm := { op := .load .b32, kind := .read, allow := .plain, size := 4, dreg := some a.toNat }
  let fv : MemForm := { op := .load (loadOf x.size x.sext), kind := .read, allow := .plain, size := size }
  let cr := hit.map fun l => ({ lane := l, addr := x.crd + BitVec.ofNat 64 (4 * entry l) } : Req)
  let vr := hit.map fun l => ({ lane := l, addr := x.val + BitVec.ofNat 64 (size * entry l) } : Req)
  .next (if !x.isOpen then s.progErr 0x0C02 0
    else if x.size = 3 && d.getLsbD 0 then s.progErr 0x0C02 0
    else if s.inFlight s.me s.me.cur && (cr.any (s.walks fc) || vr.any (s.walks fv)) then s.retry
    else
      let (t, cs) := s.prepareAll fc cr
      let (t, vs) := t.prepareAll fv vr
      match (cs.zip vs).flatMap fun y => s.rangeHits fc [y.1] ++ s.rangeHits fv [y.2] with
      | h :: hs => s.rangeTrap (h :: hs)
      | [] =>
        let both := cs.zip vs
        let c1 := both.map fun y => (if (match y.1.2 with | .ok _ _ => true | _ => false) then y.2.1 else y.1.1, mergePre y.1.2 y.2.2)
        let c2 := both.map fun y => (y.1.1, mergePre y.1.2 y.2.2)
        let v2 := both.map fun y => (y.2.1, mergePre y.2.2 y.1.2)
        let done := maskOfLanes (acts.filter fun l => !hit.contains l)
        let t := ((t.sawAccs fc (passedOf c2)).sawAccs fv (passedOf v2)).laneOff (offsOf c1)
        let t := t.parkFaults fv (faultsOf c1)
        let n0 := s.me.live.length
        let t := t.performFibre fc (fibreValue x d.toNat a.toNat) (s.inFlight s.me s.me.cur) ((goodOf c2).zip (goodOf v2))
        let r := t.me.regs
        let m := done &&& t.me.cur.mask
        let r := if x.size = 3 then (r.putV d.toNat m fun _ => 0).putV (d.toNat + 1) m fun _ => 0 else r.putV d.toNat m fun _ => 0
        let t := (t.setRegs (r.putV a.toNat m fun _ => 0xFFFFFFFF)).sawRegs
          ([(d.toNat, m), (a.toNat, m)] ++ if x.size = 3 then [(d.toNat + 1, m)] else [])
        (t.popped at_ fun t =>
          let x := t.fibre n.toNat
          t.setFibre n.toNat { x with cur := BitVec.ofNat 32 (min (x.cur.toNat + whole.length) x.fin.toNat), ahead := 0 }).settleFrom n0)

/-- FIB_TEND (R283). -/
def execFibTend (p : BitVec 3) (n : BitVec 2) (s : State) : Out :=
  let x := s.fibre n.toNat
  .next (if !x.isOpen then s.progErr 0x0C02 0 else s.setP p fun _ => x.cur == x.fin)

/-- FIB_CLOSE (R283). -/
def execFibClose (n : BitVec 2) (s : State) : Out :=
  let x := s.fibre n.toNat
  .next (s.setFibre n.toNat { x with isOpen := false, ahead := 0 })

/-! ### The address engine (R284) -/

/-- An early read neither faults nor meets a locked range: its key, where it lies in memory of its own side (R284). -/
def State.early (s : State) (f : MemForm) (l : Nat) (a : BitVec 64) : Option (Option Nat) :=
  match (s.prepare f { lane := l, addr := a }).2 with
  | .ok (.mem k) _ => if s.conflicts k f.size false == [] then some (some k) else none
  | .ok (.remote c off) _ => (s.remoteRead c off f.size).map some
  | .ok _ _ => some none
  | _ => none

/-- The early reads of a stream's next element not yet in its FIFO all succeed, in every lane slot, for the warp in focus. -/
def State.streamEarly (s : State) (x : StreamReg) : Bool :=
  let y := { x with pos := x.pos + BitVec.ofNat 32 x.ahead }
  let f : MemForm := { op := .load (loadOf x.size x.sext), kind := .read, allow := .plain, size := x.bytes }
  (List.range 32).all fun l =>
    if x.st == .affine then (s.early f l (y.slotAddr l)).isSome
    else match s.early idxForm l (y.slotAddr l) with
      | some (some k) => (s.early f l (x.indexed (s.rd32 k))).isSome
      | _ => false

/-- The early reads of a fibre's next entry not yet in its FIFO succeed, for the warp in focus. -/
def State.fibreEarly (s : State) (x : FibreReg) : Bool :=
  let e := x.cur.toNat + x.ahead
  let size := 2 ^ x.size.toNat
  (List.range 32).all fun l =>
    (s.early idxForm l (x.crd + BitVec.ofNat 64 (4 * e))).isSome &&
      (s.early { op := .load (loadOf x.size x.sext), kind := .read, allow := .plain, size := size } l (x.val + BitVec.ofNat 64 (size * e))).isSome

/-- ADDRESS_ENGINE_RUN_AHEAD (R284): a FIFO fills by one place; registers 0 to 7 are streams, 8 to 11 fibres. The values read early are no
part of any result; where a read would fault or meets a locked range the FIFO does not fill. -/
def execAddressEngineRunAhead (gid w : Nat) (q : BitVec 4) (s : State) : Out :=
  .next (match (s.warpOf? gid w).filter s.onCore with
    | none => s
    | some y =>
      let t := s.focus gid w
      if q.toNat < 8 then
        let x := smGet {} y.streams q.toNat
        if x.isOpen && !x.dir && decide (x.ahead < 8) && decide (x.pos.toNat + x.ahead < x.count.toNat) && t.streamEarly x then
          s.setWarp { y with streams := smPut {} y.streams q.toNat { x with ahead := x.ahead + 1 } }
        else s
      else
        let x := smGet {} y.fibres (q.toNat - 8)
        if x.isOpen && decide (x.ahead < 8) && decide (x.cur.toNat + x.ahead < x.fin.toNat) && t.fibreEarly x then
          s.setWarp { y with fibres := smPut {} y.fibres (q.toNat - 8) { x with ahead := x.ahead + 1 } }
        else s)

/-! ### Expert routing (R285, R286) -/

/-- The table's key, after the checks of R285; else the state after the failure. -/
def State.expertTable (s : State) (u : BitVec 6) : Except State Nat :=
  let tbl := s.uuAt u 0
  let n := (s.un (u.toNat + 2)).toNat
  match s.steer s.first .commons 8 8 false tbl with
  | .error c => .error (s.allOff s.me.cur.mask c tbl.toNat)
  | .ok (.mem k) => if 2 ^ 24 < tbl.toNat % 2 ^ 24 + 8 * n then .error (s.allOff s.me.cur.mask 6 tbl.toNat) else .ok k
  | .ok _ => .error (s.allOff s.me.cur.mask 2 tbl.toNat)

/-- The form of an access to an expert word. -/
def expertForm : MemForm := { op := .atom .add64, kind := .atomic, allow := .commons, size := 8 }

/-- The expert words that lanes touch, as requests with their keys. -/
def State.expertReqs (s : State) (u : BitVec 6) (k : Nat) (ls : List (Nat × Nat)) : List (Req × Pre) :=
  ls.map fun x => ({ lane := x.1, addr := s.uuAt u 0 + BitVec.ofNat 64 (8 * x.2) }, .ok (.mem (k + 8 * x.2)) none)

/-- XR_CAP (R286). -/
def execXrCap (u : BitVec 6) (s : State) : Out :=
  let n := (s.un (u.toNat + 2)).toNat
  let cap := (s.un (u.toNat + 3)).toNat
  .next (if n = 0 || 4096 < n then s.progErr 0x0C01 ((s.un (u.toNat + 2)).setWidth 64)
    else if 2 ^ 31 ≤ cap then s.progErr 0x0C01 ((s.un (u.toNat + 3)).setWidth 64)
    else match s.expertTable u with
      | .error t => t
      | .ok k => match s.rangeHits expertForm (s.expertReqs u k ((List.range n).map fun e => (s.first, e))) with
        | h :: hs => s.rangeTrap (h :: hs)
        | [] => (List.range n).foldl (fun s e => s.wr (k + 8 * e) 8 (cap * 2 ^ 32)) s)

/-- One lane of xr.route: the event at the bank and what the lane gets (R286). -/
def State.routeOne (s : State) (k n e : Nat) : State × BitVec 32 :=
  if n ≤ e then (s, 0xFFFFFFFF)
  else
    let old := s.rd (k + 8 * e) 4
    let cap := s.rd (k + 8 * e + 4) 4
    (s.wr (k + 8 * e) 4 (min (old + 1) 0xFFFFFFFF), BitVec.ofNat 32 (if old < cap then old else 2 ^ 31 + old % 2 ^ 31))

/-- XR_ROUTE (R286). -/
def execXrRoute (d a : BitVec 7) (u : BitVec 6) (s : State) : Out :=
  let n := (s.un (u.toNat + 2)).toNat
  .next (if n = 0 || 4096 < n then s.progErr 0x0C01 ((s.un (u.toNat + 2)).setWidth 64)
    else match s.expertTable u with
      | .error t => t
      | .ok k =>
        let named := s.lanes.filter fun l => decide ((s.v a l).toNat < n)
        match s.rangeHits expertForm (s.expertReqs u k (named.map fun l => (l, (s.v a l).toNat))) with
        | h :: hs => s.rangeTrap (h :: hs)
        | [] => s.lanes.foldl (fun t l =>
            let (t, v) := t.routeOne k n (s.v a l).toNat
            t.arrive1 (some d.toNat) false l (v.setWidth 64)) s)

end Sys2Proof.Machine
end

