-- ==== Sys2Proof/Machine/Tasks.lean ====
section
/-! DEFINITION. Task, tile-buffer and group-barrier instructions (03_tasks R59, R61, R63, R64, R75 to R78, R88 to R90). -/

namespace Sys2Proof.Machine

/-- A valid TTBASE (R59). -/
def ttOk (b : BitVec 64) : Bool := b != 0 && b.toNat % 65536 == 0
/-- A valid TBBASE (R59). -/
def tbOk (b : BitVec 64) : Bool := b != 0 && b.toNat % 32768 == 0

/-- The atomic access of a task or tile-buffer instruction to the bytes of global memory at some offsets and lengths from `va`: its translation, its
locks, exact to the byte (09_ordering R222), then `f` at the key. A table base with bits 63:48 set is valid by R59 and names no global address:
its words take the fault NOTVALID, for the instructions as for the distributor (the model's choice, log 48). -/
def State.taskWord (s : State) (write : Bool) (va : BitVec 64) (parts : List (Nat × Nat)) (f : State → Nat → State) : State :=
  match (if va.toNat / 2 ^ 48 ≠ 0 then (s, .error 1) else s.translate (if write then .write else .read) va.toNat) with
  | (_, .error c) => s.park 1 c va (if write then 2 else 0) s.me.cur.mask
  | (t, .ok k) => if s.windowHolds k then s.retry else match parts.flatMap fun p => t.conflicts (k + p.1) p.2 write with
    | [] => f t k
    | h :: hs => s.rangeTrap [({ lane := s.first, addr := va }, h :: hs)]

/-- STATE of a CTL field (R60). -/
def ctlState (ctl : Nat) : Nat := ctl % 4

/-- task.post and task.spawn (R89): the entry goes from IDLE to ARMED, with ARG written in the same event where one is given. -/
def State.post (s : State) (d a : BitVec 6) (arg : Option (BitVec 64)) : State :=
  let i := (s.u a).toNat
  let base := (s.ctx s.gang.asid).ttbase
  if 1023 < i then s.setU d 3
  else if !ttOk base then s.setU d 2
  else s.taskWord true (base + BitVec.ofNat 64 (64 * i)) ((62, 2) :: (if arg.isSome then [(16, 8)] else [])) fun t k =>
    let ctl := t.rd (k + 62) 2
    if ctlState ctl = 0 then
      (t.putAll (runAt (k + 62) (leBytes 2 (ctl + 1)) ++ (match arg with
        | some x => runAt (k + 16) (leBytes 8 x.toNat)
        | none => []))).setU d 0
    else t.setU d 1

/-- TASK_POST (R89). -/
def execTaskPost (d a : BitVec 6) (s : State) : Out := .next (s.post d a none)
/-- TASK_SPAWN (R89). -/
def execTaskSpawn (d a b : BitVec 6) (s : State) : Out := .next (s.post d a (some (s.uu b)))

/-- ST of a tile-buffer word (R63). -/
def tbSt (w : Nat) : Nat := w % 4
/-- HOLDER (R63). -/
def tbHolder (w : Nat) : Nat := w / 2 ^ 12 % 2 ^ 10
/-- The reserved fields of a tile-buffer word are zero (R63). -/
def tbClean (w : Nat) : Bool := w / 4 % 2 ^ 10 == 0 && w / 2 ^ 22 % 2 ^ 10 == 0
/-- A clean tile-buffer word of fields (R63). -/
def tbWord (gen holder st : Nat) : Nat := gen % 2 ^ 32 * 2 ^ 32 + holder * 2 ^ 12 + st

/-- tbuf.full and tbuf.empty (R89): a clean word in state `want` takes a new value. -/
def State.tbuf (s : State) (d a : BitVec 6) (want : Nat) (new : Nat → Nat) : State :=
  let i := (s.u a).toNat
  let base := (s.ctx s.gang.asid).tbbase
  if 4095 < i then s.setU d 3
  else if !tbOk base then s.setU d 2
  else s.taskWord true (base + BitVec.ofNat 64 (8 * i)) [(0, 8)] fun t k =>
    let w := t.rd k 8
    if !tbClean w then t.setU d 4
    else if tbSt w = want then (t.wr k 8 (new w)).setU d 0
    else t.setU d 1

/-- TBUF_FULL (R64, R89). -/
def execTbufFull (d a : BitVec 6) (s : State) : Out := .next (s.tbuf d a 0 fun w => tbWord (w / 2 ^ 32 + 1) 0 1)
/-- TBUF_EMPTY (R64, R89). -/
def execTbufEmpty (d a : BitVec 6) (s : State) : Out := .next (s.tbuf d a 1 fun w => tbWord (w / 2 ^ 32) 0 0)

/-- TBUF_STAT (R89). R89 calls it an atomic read-modify-write and its pseudocode reads alone: it is translated and checked against locks as a read
(the model's choice, log 48). -/
def execTbufStat (d a : BitVec 6) (s : State) : Out :=
  let i := (s.u a).toNat
  let base := (s.ctx s.gang.asid).tbbase
  .next (if 4095 < i || !tbOk base then s.setUU d 0xFFFFFFFFFFFFFFFF
    else s.taskWord false (base + BitVec.ofNat 64 (8 * i)) [(0, 8)] fun t k => t.setUU d (t.rd64 k))

/-! ### Group barriers (R76, R78, R90) -/

/-- The group and the warp's member number where the warp is a member, else none (R81). -/
def State.groupOf (s : State) (g : BitVec 8) : Option (Group × Nat) :=
  match s.inst? s.gang.inst with
  | none => none
  | some i =>
    let G := i.group g.toNat
    let m := memberNo s.gang.index s.me.w
    if g.toNat < i.entry.ngroups && G.members.contains m then some (G, m) else none

/-- wait(g, w) of R76 by the path in focus. -/
def State.groupWait (s : State) (g : BitVec 8) : State :=
  match s.groupOf g with
  | none => s
  | some (G, m) => if G.phase ≠ smGet 0 G.aphase m then s else s.hold (.grp g.toNat)

/-- A grp instruction, or its program error (R81). -/
def State.grp (s : State) (g : BitVec 8) (f : State → Nat → State) : State :=
  match s.groupOf g with
  | none => s.progErr 0x0301 (g.setWidth 64)
  | some (_, m) => f s m

/-- GRP_MEET (R90). -/
def execGrpMeet (g : BitVec 8) (s : State) : Out :=
  .next (s.grp g fun s m => (s.arrive s.gang.inst g.toNat m false).groupWait g)
/-- GRP_MARK (R90). -/
def execGrpMark (g : BitVec 8) (s : State) : Out := .next (s.grp g fun s m => s.arrive s.gang.inst g.toNat m false)
/-- GRP_HOLD (R90). -/
def execGrpHold (g : BitVec 8) (s : State) : Out := .next (s.grp g fun s _ => s.groupWait g)

end Sys2Proof.Machine
end

