-- ==== Sys2Proof/Machine/Distributor.lean ====
section
/-! DEFINITION. The distributor (03_tasks R59 to R74, R79, 08_memory R199, R202, R203): checks of entries, claims, placement, carve-outs,
reservations, priority pre-emption and completion; and the pre-emption machine with its saves and restores (05_events R133 to R138). -/

namespace Sys2Proof.Machine

/-- Does something with a warp in focus, and comes back. -/
def State.within (s : State) (gid w : Nat) (f : State → State) : State :=
  match s.warpOf? gid w with
  | none => s
  | some _ => (f (s.focus gid w)).refocus s.gang s.me

/-! ### Reads and writes of a context's tables by the Q3 -/

/-- A walk by the Q3 itself under a context. -/
def State.q3Walk (s : State) (asid : Nat) (want : Want) (va : Nat) : State × Except Nat Nat :=
  if va / 2 ^ 48 ≠ 0 then (s, .error 1) else s.walk none asid true 0 want va

/-- Bytes of a context's global space, none where a translation faults; R62 does not say whether the part of a list that was read before the fault still
decides a code, and here it does not (the model's choice, log 48). -/
def State.q3Parts (s : State) (asid : Nat) : List (Nat × Nat) → State × Option (List (BitVec 8))
  | [] => (s, some [])
  | (va, n) :: rest =>
    match s.q3Walk asid .read va with
    | (t, .error _) => (t, none)
    | (t, .ok k) => match t.q3Parts asid rest with
      | (u, some bs) => (u, some (t.bytes k n ++ bs))
      | r => r

def State.q3Read (s : State) (asid va n : Nat) : State × Option (List (BitVec 8)) := s.q3Parts asid (cutVa va (n / 2 ^ 16 + 2) n)

/-- Little-endian fields of a list of bytes. -/
def fieldAt (bs : List (BitVec 8)) (o n : Nat) : Nat := leNat ((bs.drop o).take n)

/-- A task entry's fields from its bytes (R60). `resv` says that a reserved field is not zero. -/
def parseEntry (bs : List (BitVec 8)) : Entry :=
  let f := fieldAt bs
  let w (o : Nat) : BitVec 64 := BitVec.ofNat 64 (f o 8)
  { code := w 0, mcode := w 8, arg := w 16, grec := w 24, tblist := w 32, gangs := f 40 4, ngrec := f 44 4, warps := f 48 1, regs := f 49 1
    localk := f 50 2, pool := f 52 2, ngroups := f 54 2, nin := f 56 1, nout := f 57 1, prio := f 58 1 % 4, alm := f 59 1 % 32, aff := f 60 2
    ctl := BitVec.ofNat 16 (f 62 2), resv := f 58 1 / 4 != 0 || f 59 1 / 32 != 0 || f 62 2 / 16 % 16 != 0 }

/-- A group record: group, gang, warp mask, and whether its reserved field is not zero (02_encoding R57). -/
structure GRec where
  group : Nat
  gang  : Nat
  mask  : BitVec 32
  resv  : Bool
  deriving DecidableEq, Repr

def parseGRecs (bs : List (BitVec 8)) : Nat → List GRec
  | 0 => []
  | n + 1 =>
    { group := fieldAt bs 0 2, gang := fieldAt bs 4 4, mask := BitVec.ofNat 32 (fieldAt bs 8 4), resv := fieldAt bs 2 2 != 0 } :: parseGRecs (bs.drop 12) n

/-- Members of a group by its records. -/
def membersOf (rs : List GRec) (g : Nat) : List Nat :=
  ((rs.filter fun r => r.group == g).flatMap fun r => (lanesOf r.mask).map fun w => memberNo r.gang w).eraseDups

/-- Adds to a set of gangs those that a shared group joins to it. -/
def growSet (gs : List (List Nat)) (c : List Nat) : Nat → List Nat
  | 0 => c
  | n + 1 => growSet gs ((c ++ (gs.filter fun g => g.any fun x => c.contains x).flatten).eraseDups) n

/-- The co-residency sets (R72): gangs joined by groups with members in more than one of them. -/
def cosetsOf (rs : List GRec) : List (List Nat) :=
  let gs := ((rs.filter fun r => r.mask != 0).map GRec.group).eraseDups.map fun g => (((rs.filter fun r => r.group == g && r.mask != 0).map GRec.gang).eraseDups)
  let gs := gs.filter fun g => decide (1 < g.length)
  gs.foldl (fun acc g => if acc.any fun c => c.contains (g.headD 0) then acc else acc ++ [growSet gs g gs.length]) []

/-! ### Resources of cores (R68, R199, R202, R203) -/

/-- A registered operation targets a gang's allocation by a range or its stamp, of whatever gang it is (11_copy R268). -/
def State.targeted (s : State) (g : Gang) : Bool :=
  let b := localKey (32 * g.stk + g.core) g.base
  s.ops.any fun o => o.registered && (o.ranges.map (fun (r : Rng) => (r.base, r.len)) ++ o.stamp.toList.map fun (x : Nat × BitVec 64) => (x.1, 8)).any fun (r : Nat × Nat) =>
    decide (r.1 < b + g.localk * 1024) && decide (b < r.1 + r.2)

/-- Gangs whose allocation a core holds: those resident there, and those that exited while an access or an engine operation of theirs has not
performed, or a copy still targets them (11_copy R268). -/
def State.coreGangs (s : State) (c : Nat) : List Gang :=
  s.allGangs.filter fun g => g.gid != 0 && (32 * g.stk + g.core == c || (g.yoked && 32 * g.stk + g.core + 16 == c)) &&
    (g.st == .resident || (g.st == .exited && (g.queue != [] || g.array.isSome || s.targeted g || (s.ops.any fun o => o.gid == g.gid) ||
      s.accs.any fun a => a.gid == g.gid)))

/-- Resident warps of a core. -/
def State.coreWarps (s : State) (c : Nat) : List Warp :=
  let gs := ((s.coreGangs c).filter fun g => g.st == .resident).map Gang.gid
  s.allWarps.filter fun x => gs.contains x.gid && !x.exited

/-- LSAREA of a core is valid (R203). -/
def lsOk (b : BitVec 64) : Bool := b != 0 && b.toNat % 2 ^ 23 == 0 && decide (b.toNat + 2 ^ 23 ≤ gddrTop)

/-- The distributor may place gangs on a core at all (R203, 16_stack R351, R352, R358). -/
def State.placeableCore (s : State) (c : Nat) : Bool :=
  let x := s.core c
  s.powered (c / 32) && x.placeable && !x.suspect && decide (32 ≤ x.active) && lsOk x.lsarea

/-- The stacks that take new placements in the present mode (16_stack R359). -/
def State.stackTakes (s : State) (k : Nat) : Bool :=
  match s.sys.mode with
  | .three => true
  | _ => k == 0

/-- Bytes above which a core's local ways take no new allocation (R202). -/
def Core.localLimit (x : Core) : Nat :=
  match x.carve with
  | .shrinking n => min n x.lw * 65536
  | _ => x.lw * 65536

/-- The lowest offset, in 1 KiB steps, at which a size fits between allocations and below a limit (R199), among those that `ok` accepts; `starts` are further
offsets that come into question. -/
def fitWhere (ok : Nat → Bool) (starts : List Nat) (allocs : List (Nat × Nat)) (size limit : Nat) : Option Nat :=
  let free (b : Nat) : Bool := decide (b + size ≤ limit) && !(allocs.any fun a => decide (a.1 < b + size) && decide (b < a.1 + a.2)) && ok b
  if size = 0 then some 0
  else ((0 :: (allocs.map fun (a : Nat × Nat) => (a.1 + a.2 + 1023) / 1024 * 1024) ++ starts).filter free).foldl
    (fun m b => match m with | none => some b | some x => some (min x b)) none

/-- The lowest offset, in 1 KiB steps, at which a size fits between allocations and below a limit (R199). -/
def fitBelow (allocs : List (Nat × Nat)) (size limit : Nat) : Option Nat := fitWhere (fun _ => true) [] allocs size limit

/-- So many allocations of a size fit between those there are and below a limit. -/
def fitsMany (size limit : Nat) : Nat → List (Nat × Nat) → Bool
  | 0, _ => true
  | n + 1, as => match fitBelow as size limit with
    | none => false
    | some b => fitsMany size limit n (as ++ [(b, size)])

/-- The gaps between allocations in a core's local memory, as far as it can grow. -/
def gapsOf (allocs : List (Nat × Nat)) : List (Nat × Nat) :=
  ((0 :: allocs.map fun (a : Nat × Nat) => a.1 + a.2).eraseDups.filter fun b => !(allocs.any fun a => decide (a.1 ≤ b) && decide (b < a.1 + a.2))).map fun b =>
    (b, allocs.foldl (fun e a => if b ≤ a.1 && decide (0 < a.2) then min e a.1 else e) (10 * 65536) - b)

/-- What a core still has, with the gangs placed on it in the same plan: allocations, gangs, warps, matrix-using gangs, and what it keeps for a set. -/
structure Room where
  allocs : List (Nat × Nat)
  gangs  : Nat
  warps  : Nat
  mx     : Nat
  kept   : Option Kept := none
  deriving DecidableEq, Repr

/-- The use of a core by its gangs, without some of them, as a unit of gangs finds it: what the core keeps for the unit itself counts as free (R72). -/
def State.room (s : State) (c : Nat) (without : List Nat) (unit : List Nat := []) : Room :=
  let gs := (s.coreGangs c).filter fun g => !without.contains g.gid
  let rs := gs.filter fun g => g.st == .resident
  { allocs := gs.map fun g => (g.base, g.localk * 1024), gangs := rs.length
    warps := ((s.coreWarps c).filter fun x => !without.contains x.gid).length, mx := (rs.filter Gang.mx).length
    kept := (s.core c).kept.filter fun k => !unit.contains k.gid }

/-- What others may still take, once a gang has taken its part (R72). -/
def Kept.less (k : Kept) (g : Gang) : Kept :=
  { k with gangsFree := k.gangsFree - 1, warpsFree := k.warpsFree - g.warpsN, mxFree := k.mxFree - (if g.mx then 1 else 0) }

/-- Counts a gang into a core's use. -/
def Room.add (r : Room) (g : Gang) (base : Nat) : Room :=
  { allocs := r.allocs ++ [(base, g.localk * 1024)], gangs := r.gangs + 1, warps := r.warps + g.warpsN, mx := r.mx + (if g.mx then 1 else 0)
    kept := r.kept.map fun k => k.less g }

/-- Of what is free, `n` can be taken: what freed since the core began to keep it for a set, as far as the set needs it, stays (R72). -/
def spares (n free need spare : Nat) : Bool := decide (n + min need (free - spare) ≤ free)

/-- Every resource of R68 but local memory suffices. -/
def Room.takes (r : Room) (x : Core) (g : Gang) : Bool :=
  let k := r.kept.getD {}
  spares 1 (16 - r.gangs) k.n k.gangsFree && spares g.warpsN (min 128 (4 * x.active) - r.warps) (k.n * k.warps) k.warpsFree &&
    (!g.mx || spares 1 (2 - r.mx) (if k.mx then k.n else 0) k.mxFree)

/-- Local memory at an offset can be taken: it was free when the core began to keep what frees for a set, or the set's gangs find their own beside it. -/
def Room.sparesAt (r : Room) (size b : Nat) : Bool :=
  match r.kept with
  | none => true
  | some k => k.localk == 0 || (k.spans.any fun a => decide (a.1 ≤ b) && decide (b + size ≤ a.1 + a.2)) ||
      fitsMany (k.localk * 1024) (10 * 65536) k.n (r.allocs ++ [(b, size)])

/-- The lowest offset that a gang's local memory can have on each of its cores. -/
def fitIn (rs : List Room) (size limit : Nat) : Option Nat :=
  fitWhere (fun b => rs.all fun r => r.sparesAt size b) (rs.flatMap fun r => (r.kept.toList.flatMap Kept.spans).map fun a => (a.1 + 1023) / 1024 * 1024)
    (rs.flatMap Room.allocs) size limit

/-- The preference level of a core for a screen-region hint (R70). -/
def State.prefLevel (s : State) (c aff : Nat) : Nat :=
  if aff = 0 then 0
  else
    let x := (aff - 1) % (16 * max s.poweredList.length 1)
    if c / 32 ≠ s.poweredList.getD (x / 16) 0 then 3
    else if c % 16 = x % 16 then 0
    else if c % 16 / 4 = x % 16 / 4 then 1
    else 2

/-- An activity is over its issue budget on a track (R80); a budget of the whole track is never reached, since less is used than has passed. -/
def State.overTrack (s : State) (c track a : Nat) : Bool :=
  let e := smGet (0 : BitVec 64) s.pkg.alm a
  let x := s.core c
  let enforced := s.pkg.almSrc || s.pkg.almLen != 0
  let bud := if e.toNat % 16 = 0 then 256 else e.toNat / 2 ^ 37 % 512
  enforced && decide (bud < 256) && decide (bud * (x.pcyc + 1) ≤ smGet 0 x.used (32 * track + a) * 256)

/-- The active tracks of a core by their logical numbers (16_stack R352). -/
def Core.tracks (x : Core) : List Nat := (List.range 64).filter fun t => !x.retired.contains t

/-- An activity is over its issue budget on a core: R80 defines it for a track and R69 speaks of a core, so every active track is taken to be over
(the model's choice, log 48). -/
def State.overCore (s : State) (c a : Nat) : Bool := (s.core c).tracks.all fun t => s.overTrack c t a

/-- Where a gang of a unit goes: a core, an offset, and the ways that its local memory needs. -/
structure Spotting where
  gid  : Nat
  core : Nat
  base : Nat
  lw   : Nat
  deriving DecidableEq, Repr

/-- A core can be chosen for a gang of a unit of gangs. -/
def State.choosable (s : State) (c : Nat) (unit : List Nat) : Bool :=
  s.placeableCore c && s.stackTakes (c / 32) &&
    (match (s.core c).reserved with
      | none => true
      | some r => unit.contains r)

/-- The cores that a gang takes when it is placed on core `c`: for a yoked context both cores of the vertical pair (16_stack R351). -/
def coresFor (yoked : Bool) (c : Nat) : List Nat := if yoked then [c, c + 16] else [c]

/-- Warps bound to a track on a core; a saved warp is bound no more. -/
def State.boundOn (s : State) (without : List Nat) (c t : Nat) : Nat :=
  ((s.coreWarps c).filter fun x => x.pre.st != .saved && x.track == t && !without.contains x.gid).length

/-- Warps that can still be bound on both cores of a vertical pair: to tracks with the same number, of which each takes 4 (R79), and to slots with the same
number (16_stack R351). -/
def State.pairFree (s : State) (cs : List Nat) (without : List Nat) : Nat :=
  let tracks := ((List.range 64).filter fun t => cs.all fun c => (s.core c).tracks.contains t).map fun t => 4 - (cs.map fun c => s.boundOn without c t).foldl max 0
  let used := ((cs.flatMap s.coreWarps).filter fun x => !without.contains x.gid).map fun x => x.slot
  min tracks.sum (128 - used.eraseDups.length)

/-- The warps of a gang find tracks and slots on its cores beside those placed in the same plan; on a single core the count of R68 says so. -/
def State.binds (s : State) (cs : List Nat) (without : List Nat) (r : Room) (g : Gang) : Bool :=
  match cs with
  | c :: _ :: _ => decide (r.warps - (s.room c without).warps + g.warpsN ≤ s.pairFree cs without)
  | _ => true

/-- The cores that have the resources of R68 free for a gang, with local memory in the ways there are or, with `grow`, in ways to be added (R71): the
preference level, the resident warps, the core and the offset. `pins` names gangs whose core is given. -/
def State.coresWith (s : State) (unit : List Nat) (pins : List (Nat × Nat)) (rooms : List (Nat × Room)) (g : Gang) (grow : Bool) :
    List (Nat × Nat × Nat × Nat) :=
  let yoked := (s.ctx g.asid).yoked
  let room (c : Nat) : Room := ((rooms.find? fun r => r.1 == c).map Prod.snd).getD (s.room c [] unit)
  (List.range 96).filterMap fun c =>
    let cs := coresFor yoked c
    if (yoked && 16 ≤ c % 32) || pins.any (fun p => p.1 == g.gid && !cs.contains p.2) || !(cs.all fun k => s.choosable k unit && (room k).takes (s.core k) g) ||
        !s.binds cs [] (room c) g then none
    else
      let limit := (cs.map fun k => if grow then (if (s.core k).carve = .stable then 10 * 65536 else 0) else (s.core k).localLimit).foldl min (10 * 65536)
      (fitIn (cs.map room) (g.localk * 1024) limit).map fun b => (s.prefLevel c g.aff, (room c).warps, c, b)

/-- The best core for a gang by R70, with the local memory in the ways there are, or, where no core has room, in ways to be added (R71). -/
def State.bestCore (s : State) (unit : List Nat) (pins : List (Nat × Nat)) (rooms : List (Nat × Room)) (g : Gang) : Option Spotting :=
  let size := g.localk * 1024
  let cand (grow : Bool) : List (Nat × Nat × Nat × Nat) := s.coresWith unit pins rooms g grow
  let best (l : List (Nat × Nat × Nat × Nat)) : Option (Nat × Nat × Nat × Nat) := l.foldl (fun m x => match m with
    | none => some x
    | some y => if x.1 < y.1 || (x.1 == y.1 && (decide (x.2.1 < y.2.1) || (x.2.1 == y.2.1 && decide (x.2.2.1 < y.2.2.1)))) then some x else some y) none
  match (best (cand false)).orElse fun _ => best (cand true) with
  | none => none
  | some x => some { gid := g.gid, core := x.2.2.1, base := x.2.2.2, lw := (x.2.2.2 + size + 65535) / 65536 }

/-- A plan for every gang of a unit at once, none where some gang finds no core (R72). -/
def State.plan (s : State) (unit : List Nat) (pins : List (Nat × Nat)) (rooms : List (Nat × Room)) : List Gang → Option (List Spotting)
  | [] => some []
  | g :: gs =>
    match s.bestCore unit pins rooms g with
    | none => none
    | some p =>
      let upd := (coresFor (s.ctx g.asid).yoked p.core).map fun c =>
        (c, (((rooms.find? fun r => r.1 == c).map Prod.snd).getD (s.room c [] unit)).add g p.base)
      let rooms := upd ++ rooms.filter fun r => !(upd.any fun u => u.1 == r.1)
      (s.plan unit pins rooms gs).map (p :: ·)

/-! ### Checks, claims and completion (R61 to R67) -/

/-- The gangs of an entry that a core holds, were it empty (R68). -/
def Core.holds (x : Core) (e : Entry) : Nat :=
  min (min 16 (min 128 (4 * x.active) / max e.warps 1)) (min (if e.localk = 0 then 16 else 640 / e.localk) (if e.mcode ≠ 0 then 2 else 16))

/-- The most gangs of an entry that can be resident at once on the whole package, were it empty (R62 code 4, R72). -/
def State.capacity (s : State) (asid : Nat) (e : Entry) : Nat :=
  ((List.range 96).map fun c =>
    let per := (s.core c).holds e
    if (s.ctx asid).yoked then (if c % 32 < 16 && s.placeableCore c && s.placeableCore (c + 16) then per else 0)
    else if s.placeableCore c then per else 0).sum

/-- What the checks of R62 read beside the entry: group records, tile-buffer list, and whether every listed word can be read. -/
structure EntryData where
  recs  : Option (List GRec)
  list  : Option (List Nat)
  words : Bool
  deriving DecidableEq, Repr

/-- FCODE of an entry's first failing check that can be decided, 0 where it passes (R62). -/
def State.entryCode (s : State) (asid : Nat) (e : Entry) (d : EntryData) : Nat :=
  let rs := d.recs.getD []
  let ls := d.list.getD []
  let groupsOf (m : Nat) : Nat := (((rs.filter fun r => r.gang == m / 32 && r.mask.getLsbD (m % 32)).map GRec.group).eraseDups).length
  let alm := (smGet (0 : BitVec 64) s.pkg.alm e.alm).toNat
  if e.gangs = 0 || 65536 < e.gangs || e.warps = 0 || 32 < e.warps || e.regs < 8 || 128 < e.regs || e.regs % 8 ≠ 0 || 640 < e.localk then 1
  else if e.pool ≠ 0 && e.localk * 1024 < poolBytes e.pool then 2
  else if 256 < e.ngroups || rs.any (fun r => decide (e.ngroups ≤ r.group) || decide (e.gangs ≤ r.gang) || decide (2 ^ e.warps ≤ r.mask.toNat))
      || rs.any (fun r => (lanesOf r.mask).any fun w => decide (4 < groupsOf (memberNo r.gang w))) then 3
  else if (cosetsOf rs).any fun c => decide (s.capacity asid e < c.length) then 4
  else if 16 < e.nin || 16 < e.nout || ls.any (fun b => decide (4096 ≤ b)) || ls.eraseDups.length ≠ ls.length then 5
  else if alm % 16 ≠ 1 || alm / 2 ^ 16 % 2 ^ 12 ≠ asid then 6
  else if e.code.toNat % 12 ≠ 0 || e.mcode.toNat % 12 ≠ 0 then 7
  else if e.resv || rs.any GRec.resv then 8
  else if d.recs.isNone || d.list.isNone || !d.words then 9
  else 0

/-- Keys of the tile-buffer words of a list, none where one cannot be read. -/
def State.tileKeys (s : State) (asid : Nat) (want : Want) : List Nat → State × Option (List Nat)
  | [] => (s, some [])
  | b :: bs =>
    match s.q3Walk asid want ((s.ctx asid).tbbase.toNat + 8 * b) with
    | (t, .error _) => (t, none)
    | (t, .ok k) => match t.tileKeys asid want bs with
      | (u, some ks) => (u, some (k :: ks))
      | r => r

/-- A gang of an instance in the placement queue. -/
def gangOf (asid task id idx gid claim : Nat) (e : Entry) (now : BitVec 64) (period : Nat) : Gang :=
  { gid := gid, asid := asid, task := task, index := idx, inst := id, claim := claim, prio := e.prio, alm := e.alm, aff := e.aff, localk := e.localk
    pool := e.pool, regsN := e.regs, warpsN := e.warps, mx := e.mcode != 0, since := now, sinceP := period }

/-- The claim's launch (R65, R66, R75): the instance with its group table, and its gangs in the placement queue. -/
def State.launch (s : State) (asid task : Nat) (e : Entry) (rs : List GRec) (ls : List Nat) : State :=
  let id := s.sys.claims + 1
  let gs : List (Nat × Group) := (List.range e.ngroups).filterMap fun g =>
    let ms := membersOf rs g
    if ms = [] then none else some (g, { members := ms })
  let i : Inst := { id := id, asid := asid, task := task, entry := e, ins := ls.take e.nin, outs := ls.drop e.nin, groups := gs, order := s.point
                    time := s.now, period := s.pkg.periods, cosets := cosetsOf rs }
  let news := (List.range e.gangs).map fun k => gangOf asid task id k (s.sys.nextGid + k) id e s.now s.pkg.periods
  let s := s.setSys { s.sys with claims := id, nextGid := s.sys.nextGid + e.gangs }
  { s with insts := s.insts ++ [i], gangs := s.gangs ++ news }

/-- The entry is refused: ERROR with an FCODE (R61, R62). -/
def State.refuseEntry (s : State) (key c : Nat) : State := s.wr (key + 62) 2 (s.rd (key + 62) 2 % 256 / 4 * 4 + 3 + c * 256)

/-- The entry after the checks and the reads that the claim needs: refused, not eligible, or claimed (R61, R62, R65). Input words are only tested
where KEEP = 1, so they are translated for a read then. R65 does not say what becomes of a listed word that is to be written and whose page is
not writable: no claim is made and the entry stays ARMED. No range lock is looked for, here or at the completion: R222 of 09_ordering lists no access of
the Q3 (the model's choices, log 48). -/
def State.considerEntry (s : State) (asid task key : Nat) (bs : List (BitVec 8)) : State :=
  let e := parseEntry bs
  let ctl := e.ctl.toNat
  let (t, rb) := if e.ngrec = 0 then (s, some []) else s.q3Read asid e.grec.toNat (12 * e.ngrec)
  let recs := rb.map fun b => parseGRecs b e.ngrec
  let n := e.nin + e.nout
  let (t, lb) := if n = 0 || 32 < n then (t, some []) else t.q3Read asid e.tblist.toNat (2 * n)
  let list := lb.map fun b => (List.range (if 32 < n then 0 else n)).map fun k => fieldAt b (2 * k) 2
  let (t, ks) := t.tileKeys asid .read ((list.getD []).filter fun b => decide (b < 4096))
  match t.entryCode asid e { recs := recs, list := list, words := ks.isSome } with
  | 0 =>
    let keep := ctl / 8 % 2 = 1
    let (t, is) := t.tileKeys asid (if keep then .read else .write) ((list.getD []).take e.nin)
    match is, t.tileKeys asid .write ((list.getD []).drop e.nin) with
    | none, _ => s
    | _, (_, none) => s
    | some ins, (u, some outs) =>
      let ok (k st : Nat) : Bool := tbClean (u.rd k 8) && tbSt (u.rd k 8) == st
      if ins.all (fun k => ok k 1) && outs.all (fun k => ok k 0) then
        let held (k st : Nat) : List (Nat × BitVec 8) := runAt k (leBytes 8 (tbWord (u.rd k 8 / 2 ^ 32) task st))
        let v := u.putAll ((if keep then [] else ins.flatMap fun k => held k 2) ++ (outs.flatMap fun k => held k 3) ++ runAt (key + 62) (leBytes 2 (ctl / 4 * 4 + 2)))
        v.launch asid task e (recs.getD []) (list.getD [])
      else s
  | c => t.refuseEntry key c

/-- An instance of an entry runs (R61: only one at a time, whatever STATE another party wrote meanwhile). -/
def State.runs (s : State) (asid task : Nat) : Bool := s.insts.any fun i => i.asid == asid && i.task == task

/-- The key of an ARMED entry that the distributor may look at (R59, R61): one of the table's 1,024, with no instance running, and whether its read by the Q3
was made. Where the entry's page takes no write its CTL cannot be changed, and the entry stays ARMED (the model's choice, log 36). -/
def State.armedKey (s : State) (asid task : Nat) : Option (State × Nat × Bool) :=
  let x := s.ctx asid
  if 1024 ≤ task || s.runs asid task || x.st ≠ .bound || x.ending.isSome || !ttOk x.ttbase || !tbOk x.tbbase then none
  else match s.q3Walk asid .write (x.ttbase.toNat + 64 * task) with
    | (_, .error _) => none
    | (t, .ok k) =>
      if ctlState (s.rd (k + 62) 2) ≠ 1 then none
      else some (t, k, match s.q3Walk asid .read (x.ttbase.toNat + 64 * task) with | (_, .ok _) => true | (_, .error _) => false)

/-- ELIGIBILITY_EVALUATION (R62, R65, R66). A fault on the entry itself gives ACCESS at once. -/
def execEligibilityEvaluation (asid task : Nat) (s : State) : Out :=
  .next (if s.windowMiss then s else match s.armedKey asid task with
    | none => s
    | some (t, k, read) =>
      let u := if read then t.considerEntry asid task k (t.bytes k 64) else t.refuseEntry k 9
      if u = t then s else u)

/-- One completion transition of a tile-buffer word by compare-and-swap (R64, R67). The word is where TBBASE points now, and a write whose translation
faults is dropped: R67 says neither (the model's choice, log 48). -/
def State.releaseWord (s : State) (asid task b st : Nat) : State :=
  match s.q3Walk asid .write ((s.ctx asid).tbbase.toNat + 8 * b) with
  | (_, .error _) => s
  | (t, .ok k) =>
    let w := t.rd k 8
    if tbSt w = st && tbHolder w = task then t.wr k 8 (if st = 3 then tbWord (w / 2 ^ 32 + 1) 0 1 else tbWord (w / 2 ^ 32) 0 0) else s

/-- Frees the reservations that a unit held. -/
def State.unreserve (s : State) (unit : List Nat) : State :=
  let out (g : Nat) : Bool := !unit.contains g
  let free (x : Core) : Core := { x with reserved := x.reserved.filter out, evicting := x.evicting.filter out, kept := x.kept.filter fun k => out k.gid }
  { s with cores := (s.cores.map fun c => (c.1, free c.2)).filter fun c => c.2 != {} }

/-- Takes an instance with its gangs and warps out of the package. -/
def State.dropInst (s : State) (id : Nat) : State :=
  let gids := (s.allGangs.filter fun g => g.inst == id && g.gid != 0).map Gang.gid
  let gone (x : Nat) : Bool := x != 0 && gids.contains x
  let s := s.unreserve gids
  { s with insts := s.insts.filter fun i => i.id != id, gangs := s.gangs.filter fun g => !gone g.gid, warps := s.warps.filter fun x => !gone x.gid
           gang := if gone s.gang.gid then {} else s.gang, me := if gone s.me.gid then {} else s.me }

/-- Every warp of an instance has exited, and its stores and engine operations have performed (R67). -/
def State.instDone (s : State) (i : Inst) : Bool :=
  let gs := s.allGangs.filter fun g => g.gid != 0 && g.inst == i.id
  !i.ended && gs.all (fun g => g.st == .exited && g.queue == [] && g.array.isNone && !(s.ops.any fun o => o.gid == g.gid) && !(s.accs.any fun a => a.gid == g.gid) && !s.targeted g)

/-- INSTANCE_COMPLETION (R67). -/
def execInstanceCompletion (inst : Nat) (s : State) : Out :=
  .next (match s.inst? inst with
    | none => s
    | some i =>
      if !s.instDone i || s.windowMiss then s
      else
        let s := i.outs.foldl (fun s b => s.releaseWord i.asid i.task b 3) s
        let s := if i.entry.ctl.getLsbD 3 then s else i.ins.foldl (fun s b => s.releaseWord i.asid i.task b 2) s
        let s := match s.q3Walk i.asid .write ((s.ctx i.asid).ttbase.toNat + 64 * i.task) with
          | (_, .error _) => s
          | (t, .ok k) =>
            let ctl := t.rd (k + 62) 2
            if ctlState ctl = 2 then t.wr (k + 62) 2 (ctl / 4 * 4 + (if ctl / 4 % 2 = 1 then 1 else 0)) else s
        s.dropInst inst)

/-! ### Placement (R66, R69 to R73, R79) -/

/-- The almanac is enforced (R83). -/
def State.enforced (s : State) : Bool := s.pkg.almSrc || s.pkg.almLen != 0

/-- Whole periods since a time and a period (R69). -/
def State.periodsSince (s : State) (t : BitVec 64) (p : Nat) : Nat :=
  if s.enforced then s.pkg.periods - p - 1 else (s.now - t).toNat / 2 ^ 26

/-- A gang's effective priority in the queue (R69). -/
def State.gangPrio (s : State) (g : Gang) : Nat := min 3 (g.prio + s.periodsSince g.since g.sinceP)

/-- A gang waits for placement: queued, or saved with its instance alive. -/
def Gang.waits (g : Gang) : Bool := g.gid != 0 && (g.st == .queued || g.st == .saved)

/-- One gang goes before another in the queue (R69). -/
def State.gangBefore (s : State) (a b : Gang) : Bool :=
  let pa := s.gangPrio a
  let pb := s.gangPrio b
  if pa ≠ pb then decide (pb < pa)
  else if a.claim ≠ b.claim then decide (a.claim < b.claim)
  else if a.asid ≠ b.asid then decide (a.asid < b.asid)
  else if a.task ≠ b.task then decide (a.task < b.task)
  else decide (a.index < b.index)

/-- Inserts a gang into the queue in order. -/
def State.insertGang (s : State) (g : Gang) : List Gang → List Gang
  | [] => [g]
  | h :: t => if s.gangBefore g h then g :: h :: t else h :: s.insertGang g t

/-- The placement queue in the order of R69. -/
def State.placeQueue (s : State) : List Gang :=
  ((s.allGangs.filter fun g => g.waits && (s.ctx g.asid).ending.isNone).foldl (fun q g => s.insertGang g q) [])

/-- The gangs of a gang's co-residency set, itself alone where it is in none (R72). -/
def State.setOf (s : State) (g : Gang) : List Gang :=
  match s.inst? g.inst with
  | none => [g]
  | some i => match i.cosets.find? fun c => c.contains g.index with
    | none => [g]
    | some c => s.allGangs.filter fun h => h.gid != 0 && h.inst == g.inst && c.contains h.index

/-- A gang is being pre-empted: a warp of it is past RUN on its way to a save. -/
def State.leaving (s : State) (gid : Nat) : Bool :=
  s.allWarps.any fun x => x.gid == gid && gid != 0 && !x.exited && x.pre.st != .run && x.pre.st != .resumed && x.pre.st != .pending

/-- The gangs placed together with a gang, none while one of its set is on its way out (R72, R73). -/
def State.unitOf (s : State) (g : Gang) : Option (List Gang) :=
  let c := s.setOf g
  if c.any fun h => h.st == .resident && (s.leaving h.gid || s.allWarps.any fun x => x.gid == h.gid && x.pre.st == .pending) then none
  else some (c.filter Gang.waits)

/-- The track with the fewest bound warps among those that are active on every core of a list and hold fewer than 4: one core, or the two of a yoked gang,
whose warps have the same track on both (R79, 16_stack R351). -/
def State.freeTrack (s : State) (cs : List Nat) : Nat :=
  let cnt (t : Nat) : Nat := (cs.map fun c => s.boundOn [] c t).sum
  let ts := (List.range 64).filter fun t => cs.all fun c => (s.core c).tracks.contains t && decide (s.boundOn [] c t < 4)
  ts.foldl (fun b t => if cnt t < cnt b then t else b) (ts.headD 0)

/-- The lowest warp slot that is free on every core of a list. -/
def State.freeSlot (s : State) (cs : List Nat) : Nat :=
  let ws := cs.flatMap s.coreWarps
  ((List.range 128).find? fun i => !(ws.any fun x => x.slot == i)).getD 0

/-- A warp at its start (R66). -/
def startWarp (gid w : Nat) (e : Entry) : Warp :=
  { gid := gid, w := w, regs := { u := uniPut (uniPut (uniPut [] 2 (e.arg.setWidth 32)) 3 ((e.arg >>> 32).setWidth 32)) 4 (BitVec.ofNat 32 e.gangs) }
    cur := { pc := e.code.setWidth 48, mask := 0xFFFFFFFF }, top := false }

/-- A restored warp (R137). -/
def Warp.restored (x : Warp) : Warp :=
  let st : PreSt := if x.pre.byDone || x.pre.hnd then .resumed else .run
  let second := if st = .run then none else x.pre.second
  { x with pre := { x.pre with st := st, second := second }, top := false
           streams := x.streams.map fun q => (q.1, { q.2 with ahead := 0 }), fibres := x.fibres.map fun q => (q.1, { q.2 with ahead := 0 }) }

/-- The trace packets of a resumed warp: one SYNC packet for each path, and the state (17_debug R377, R379). -/
def State.traceResumed (s : State) : State :=
  (s.me.live.foldl (fun s p => s.trace 1 p.id p.mask p.place) s).traceEv 10 s.me.cur.id 3 s.now

/-- Takes pf.resume's answers that came while the warp in focus was saved (10_translation R244). -/
def State.takeAnswers (s : State) : State :=
  s.me.live.foldl (fun s p => match p.st with
    | .parked k => match k.action with
      | some a => s.resumePath s.me.gid s.me.w p.id a
      | none => s
    | _ => s) s

/-- Binds a warp to its track and slot on the cores of its gang; its stacks lie in the region of the first of them. -/
def State.bindWarp (s : State) (gid w : Nat) (cs : List Nat) : State :=
  let t := s.freeTrack cs
  let k := s.freeSlot cs
  s.mapWarps fun x => if x.gid == gid && x.w == w then { x with track := t, slot := k, stack := slotStack (s.core (cs.headD 0)).lsarea k, issued := 0 } else x

/-- The sequencer of a placed gang: it starts at MCODE, or goes on where it stood (13_matrix R291). -/
def seqPlaced (g : Gang) (e : Entry) : Seqr :=
  if !g.mx then g.seq
  else if g.saves then { g.seq with stop := false, lead := true }
  else { st := .running, pc := e.mcode.setWidth 48, u := uniPut (uniPut (uniPut [] 2 (e.arg.setWidth 32)) 3 ((e.arg >>> 32).setWidth 32)) 4 (BitVec.ofNat 32 e.gangs) }

/-- Places a gang on a core at an offset: a new one starts, a saved one resumes (R66, R79, 05_events R137). -/
def State.placeGang (s : State) (p : Spotting) : State :=
  match s.gangOf? p.gid with
  | none => s
  | some g =>
    match s.inst? g.inst with
    | none => s
    | some i =>
      let c := p.core
      let half := if (s.coreGangs c).any fun h => h.mx && h.half == 0 then 1 else 0
      let g' : Gang := { g with st := .resident, stk := c / 32, core := c % 32, base := p.base, half := half, yoked := (s.ctx g.asid).yoked
                                seq := seqPlaced g i.entry }
      let x := s.core c
      let s := s.setCore c { x with icache := x.icache.filter fun l => l.asid != g.asid || decide (i.order ≤ l.at_) }
      let s := (coresFor (s.ctx g.asid).yoked c).foldl (fun s k => s.setCore k { s.core k with kept := (s.core k).kept.map fun y => y.less g }) s
      let old := (s.allWarps.filter fun w => w.gid == g.gid && !w.exited).map Warp.w
      let s := s.setGang g'
      let size := g.localk * 1024
      let s := if g.saves then s.rewatchLocal g else s
      let s := if g.saves then s.move (savedKey g.gid 0) (localKey c p.base) size else s.clear (localKey c p.base) size
      let s : State := if g.saves then s.mapWarps fun w => if w.gid == g.gid && !w.exited then { w.restored with track := 999, slot := 999 } else w
        else { s with warps := s.warps ++ (List.range g.warpsN).map fun k => { startWarp g.gid k i.entry with track := 999, slot := 999 } }
      let ids := if g.saves then old else List.range g.warpsN
      let ids := (List.range 32).filter fun k => ids.contains k
      let s := ids.foldl (fun s k => s.bindWarp g.gid k (coresFor (s.ctx g.asid).yoked c)) s
      let s := ids.foldl (fun s k => match s.warpOf? g.gid k with
        | some w => if g.saves then s.move (savedStack g.gid k) w.stack stackBytes else s.clear w.stack stackBytes
        | none => s) s
      let s := if g.saves then ids.foldl (fun s k => s.within g.gid k fun t => (t.traceResumed.takeAnswers).settle) s else s
      let s := if g.saves then ids.foldl (fun s k => s.reopenStreams g.gid k) s else s
      match g.seq.st with
      | .parked k => match k.action with
        | some a => if g.saves then s.resumeSeq g.gid a else s
        | none => s
      | _ => s

/-- Begins to shrink the local ways of a core where the top of its allocations allows it (R202). -/
def State.shrinkWays (s : State) (c : Nat) : State :=
  let x := s.core c
  let top := ((s.coreGangs c).map fun g => g.base + g.localk * 1024).foldl max 0
  let n := (top + 65535) / 65536
  if x.carve = .stable && decide (n < x.lw) then s.setCore c { x with carve := .shrinking n } else s

/-- Carries out a plan: carve-outs that it needs are begun, with the cores reserved (R71, R202); without any the unit is placed. -/
def State.commit (s : State) (unit : List Nat) (ps : List Spotting) : State :=
  let cores (p : Spotting) : List Nat := coresFor (((s.gangOf? p.gid).map fun g => (s.ctx g.asid).yoked).getD false) p.core
  let grows := ps.flatMap fun p => (cores p).filterMap fun c => if (s.core c).localLimit < p.lw * 65536 && decide ((s.core c).lw < p.lw) then some (c, p) else none
  match grows with
  | [] =>
    let s := s.unreserve unit
    let s := ps.foldl State.placeGang s
    (ps.flatMap cores).eraseDups.foldl State.shrinkWays s
  | _ => grows.foldl (fun s g =>
      let x := s.core g.1
      if x.carve = .stable then s.setCore g.1 { x with carve := .growing g.2.lw, reserved := some g.2.gid } else s) s

/-- A core grows for a gang of a unit, which waits for it (R71). -/
def State.growsFor (s : State) (unit : List Nat) : Bool :=
  s.cores.any fun c => c.2.reserved.any unit.contains && (match c.2.carve with | .growing _ => true | _ => false)

/-- A gang waits for the next period: its activity was found over budget on every core that could take it (R69). -/
def State.gangHeld (s : State) (g : Gang) : Bool := s.enforced && g.held == some s.pkg.periods

/-- The activity of a gang of a unit is over its issue budget on every core that could take the gang (R69). -/
def State.overEverywhere (s : State) (unit : List Nat) (g : Gang) : Bool :=
  let cs := s.coresWith unit [] [] g false ++ s.coresWith unit [] [] g true
  cs != [] && cs.all fun x => s.overCore x.2.2.1 g.alm

/-- The first unit of the queue that can be placed, or whose carve-out can begin, or that is held back for the rest of the period. -/
def State.placeNext (s : State) (pins : List (Nat × Nat)) : List Gang → Option State
  | [] => none
  | g :: rest =>
    match s.unitOf g with
    | none => s.placeNext pins rest
    | some us =>
      let ids := us.map Gang.gid
      if s.growsFor ids || us.any s.gangHeld then s.placeNext pins rest
      else if pins = [] && us.any (s.overEverywhere ids) then
        some (s.mapGangs fun h => if ids.contains h.gid then { h with held := some s.pkg.periods } else h)
      else match s.plan ids pins [] us with
        | none => s.placeNext pins rest
        | some ps =>
          let t := s.commit ids ps
          if t = s then s.placeNext pins rest else some t

/-- GANG_PLACEMENT (R69 to R73). -/
def execGangPlacement (s : State) : Out := .next ((s.placeNext [] s.placeQueue).getD s)

/-- CARVE_OUT_GROW_DONE (R202): the ways are local, and the reserved gang is placed. -/
def execCarveOutGrowDone (core : Nat) (s : State) : Out :=
  let x := s.core core
  .next (match x.carve with
    | .growing n =>
      let s := s.setCore core { x with lw := n, carve := .stable }
      match x.reserved.bind s.gangOf? with
      | none => s.setCore core { s.core core with reserved := none }
      | some g => (s.placeNext [(g.gid, core)] [g]).getD s
    | _ => s)

/-- CARVE_OUT_SHRINK_DONE (R202). -/
def execCarveOutShrinkDone (core : Nat) (s : State) : Out :=
  let x := s.core core
  .next (match x.carve with
    | .shrinking n =>
      if (s.coreGangs core).all fun g => decide (g.base + g.localk * 1024 ≤ n * 65536) then s.setCore core { x with lw := n, carve := .stable } else s
    | _ => s)

/-- The cores whose resources a set needs as they free (R72): every core that takes placements, keeps nothing for another set yet, and could hold a gang
of the set. -/
def State.holders (s : State) (e : Entry) : List Nat :=
  (List.range 96).filter fun k => s.placeableCore k && s.stackTakes (k / 32) && (s.core k).kept.isNone && decide (0 < (s.core k).holds e)

/-- What a core keeps for a set of `n` gangs from now on: what frees there and the set needs. What is free now, others may still take (R72). -/
def State.keepFor (s : State) (c : Nat) (gid n : Nat) (e : Entry) : Kept :=
  let r := s.room c []
  { gid := gid, n := min n ((s.core c).holds e), warps := e.warps, localk := e.localk, mx := e.mcode != 0
    gangsFree := 16 - r.gangs, warpsFree := min 128 (4 * (s.core c).active) - r.warps, mxFree := 2 - r.mx, spans := gapsOf r.allocs }

/-- The waiting gangs of a co-residency set that has waited one whole period, since its claim or the latest of its saves (R69, R72). -/
def State.waitingSet (s : State) (i : Inst) (c : List Nat) : List Gang :=
  let gs := s.allGangs.filter fun g => g.waits && g.inst == i.id && c.contains g.index
  if gs.any fun g => s.periodsSince g.since g.sinceP = 0 then [] else gs

/-- CORESIDENCY_RESERVATION (R72): what frees is kept for the set, and no other gang is placed there. -/
def execCoresidencyReservation (inst : Nat) (s : State) : Out :=
  .next (match s.inst? inst with
    | none => s
    | some i =>
      i.cosets.foldl (fun s c => match s.waitingSet i c with
        | [] => s
        | g :: gs => (s.holders i.entry).foldl (fun s k => s.setCore k { s.core k with kept := some (s.keepFor k g.gid (gs.length + 1) i.entry) }) s) s)

/-! ### Pre-emption (05_events R133 to R138, 03_tasks R74) -/

/-- A request reaches the warp in focus (R133); with a STOPPED path it takes the hard save at once, in whatever state it comes (17_debug R370). -/
def State.requestPre (s : State) (r : PreReason) : State :=
  let p := s.me.pre
  let stopped := s.me.live.any fun q => match q.st with | .stopped _ => true | _ => false
  if stopped && (p.st == .pending || p.st == .hnd || p.st == .resumed) then s.setPre { p with st := .hard, byDone := false }
  else match p.st with
  | .run => (s.setPre { p with st := .pending, reason := r, hard := s.now + 20000, hnd := false, byDone := false }).tryPre
  | .hnd | .resumed => s.setPre { p with second := some (p.second.getD (r, s.now + 20000)) }
  | _ => s

/-- A request to a gang (R133): its warps, and its sequencer, which stops at the next word boundary (13_matrix R291). -/
def State.preempt (s : State) (gid : Nat) (r : PreReason) : State :=
  match s.gangOf? gid with
  | none => s
  | some g =>
    if g.st ≠ .resident then s
    else
      let ws := (List.range 32).filter fun w => s.allWarps.any fun x => x.gid == gid && x.w == w && !x.exited
      let s := ws.foldl (fun s w => s.within gid w fun t => t.requestPre r) s
      s.mapGangs fun h => if h.gid == gid then { h with seq := { h.seq with stop := true } } else h

/-- PREEMPTION_REQUEST (R133). -/
def execPreemptionRequest (gid : Nat) (reason : PreReason) (s : State) : Out := .next (s.preempt gid reason)

/-- HARD_SAVE_TIME (R133). -/
def execHardSaveTime (gid w : Nat) (s : State) : Out :=
  .next (s.mapWarps fun x =>
    if x.gid == gid && gid != 0 && x.w == w && (x.pre.st == .hnd || x.pre.st == .pending) && decide (x.pre.hard ≤ s.now) then
      { x with pre := { x.pre with st := .hard } }
    else x)

/-- Every store, and every other access in flight, of a warp has performed. -/
def State.drained (s : State) (x : Warp) : Bool := !(s.accs.any fun a => a.gid == x.gid && a.w == x.w)

/-- The warp's open streams at a save (12_streams R281): their operations complete, and the registers keep their state and POS. -/
def State.saveStreams (s : State) (gid w : Nat) : State :=
  match s.warpOf? gid w with
  | none => s
  | some x =>
    let ids := x.streams.filterMap fun q => if q.2.isOpen && q.2.dir then q.2.op else none
    let s := s.mapOps fun o => if ids.contains o.id || (o.cls == 5 && o.gid == gid && o.w == w && o.locks == []) then { o with closing := true } else o
    s.mapWarps fun y => if y.gid == gid && y.w == w then
      { y with streams := y.streams.map fun q => (q.1, if q.2.isOpen then { q.2 with op := none, ahead := 0 } else q.2)
               fibres := y.fibres.map fun q => (q.1, { q.2 with ahead := 0 }) } else y

/-- The handler paths of a warp at pre.done become the one path with which it resumes (R135, R137). -/
def Warp.savedByDone (x : Warp) : Warp :=
  let hs := x.live.filter fun p => p.hmode == .pre
  let low := hs.foldl (fun (b : Option Path) p => match b with
    | none => some p
    | some q => if p.id < q.id then some p else some q) none
  let res : BitVec 64 := match low with
    | some p => (match p.st with | .held (.preDone r) => r | _ => 0)
    | none => 0
  let h : Path := { id := 32, pc := res.setWidth 48, mask := hs.foldl (fun m p => m ||| p.mask) 0, hmode := .pre }
  { x with cur := h, paths := x.live.filter fun p => p.hmode != .pre, overflow := x.overflow.filter fun i => decide (i < 32)
           regs := { x.regs with v := [], p := [] }, pre := { x.pre with st := .saved, byDone := true } }

/-- A change by which a warp of a gang may leave its cluster, whose target is computed again where a request drops with it (15_power R332, R333). -/
def State.leftBy (s : State) (gid : Nat) (f : State → State) : State :=
  match s.gangOf? gid with
  | none => f s
  | some g => let cl := clusterOf (32 * g.stk + g.core); (f s).retargetFrom cl (s.clusterActs cl)

/-- WARP_SAVE (R135). -/
def execWarpSave (gid w : Nat) (s : State) : Out :=
  .next (match s.warpOf? gid w with
    | none => s
    | some x =>
      if x.pre.st = .drain && s.drained x then
        let s := s.within gid w fun t => t.traceEv 10 t.me.cur.id 2 t.now
        s.leftBy gid fun s => (s.saveStreams gid w).mapWarps fun y => if y.gid == gid && y.w == w then y.savedByDone else y
      else s)

/-- HARD_SAVE (R136). -/
def execHardSave (gid w : Nat) (s : State) : Out :=
  .next (match s.warpOf? gid w with
    | none => s
    | some x =>
      if x.pre.st = .hard && s.drained x then
        let s := s.within gid w fun t => t.traceEv 10 t.me.cur.id 2 t.now
        s.leftBy gid fun s => (s.saveStreams gid w).mapWarps fun y =>
          if y.gid == gid && y.w == w then { y with pre := { y.pre with st := .saved, byDone := false } } else y
      else s)

/-- The sequencer of a gang stands at a word boundary where it can be saved (13_matrix R291). -/
def Gang.seqStopped (g : Gang) : Bool := g.queue == [] && g.array.isNone

/-- Every warp of a gang is SAVED and nothing of it is under way (R138). -/
def State.gangReady (s : State) (g : Gang) : Bool :=
  let ws := s.allWarps.filter fun x => x.gid == g.gid && !x.exited
  g.st == .resident && ws != [] && ws.all (fun x => x.pre.st == .saved) && !(s.ops.any fun o => o.gid == g.gid) && !(s.accs.any fun a => a.gid == g.gid)
    && g.seqStopped && !s.targeted g

/-- GANG_SAVE (R138): the gang's local memory and its warps' stacks are put by, and the gang queues for placement again. -/
def execGangSave (gid : Nat) (s : State) : Out :=
  .next (match s.gangOf? gid with
    | none => s
    | some g =>
      if gid = 0 || !s.gangReady g then s
      else
        let c := 32 * g.stk + g.core
        let s := (s.rewatchLocal g).move (localKey c g.base) (savedKey gid 0) (g.localk * 1024)
        let s := (s.allWarps.filter fun x => x.gid == gid && !x.exited).foldl (fun s x => s.move x.stack (savedStack gid x.w) stackBytes) s
        s.setGang { g with st := .saved, since := s.now, sinceP := s.pkg.periods, saves := true })

/-- Victims on a core, or on the two of a vertical pair, in the order of R74: PRIO 0 before 1, the latest claim first, then the highest index; sets count as
one. -/
def State.victims (s : State) (cs : List Nat) : List (List Nat) :=
  let gs := ((cs.flatMap s.coreGangs).eraseDups).filter fun g => g.st == .resident && decide (g.prio < 2)
  let before (a b : Gang) : Bool :=
    if a.prio ≠ b.prio then decide (a.prio < b.prio) else if a.claim ≠ b.claim then decide (b.claim < a.claim) else decide (b.index < a.index)
  let rec ins (g : Gang) : List Gang → List Gang
    | [] => [g]
    | h :: t => if before g h then g :: h :: t else h :: ins g t
  let sorted := gs.foldl (fun q g => ins g q) []
  sorted.foldl (fun acc g => if acc.any fun l => l.contains g.gid then acc
    else acc ++ [((s.setOf g).filter fun h => h.st == .resident).map Gang.gid]) []

/-- A unit's needs are met on one core, or for a yoked context on each of two, without some gangs, with local ways grown as far as they go. -/
def State.meets (s : State) (cs : List Nat) (us : List Gang) (without : List Nat) : Bool :=
  (us.foldl (fun (r : Option (List (Nat × Room))) g => match r with
    | none => none
    | some rs =>
      if !(rs.all fun r => r.2.takes (s.core r.1) g) || !(rs.head?.all fun r => s.binds cs without r.2 g) then none
      else (fitIn (rs.map Prod.snd) (g.localk * 1024) (10 * 65536)).map fun b => rs.map fun r => (r.1, r.2.add g b))
    (some (cs.map fun c => (c, s.room c without (us.map Gang.gid))))).isSome

/-- The victims to pre-empt on a core, or on two, until a unit's needs are met. -/
def State.enough (s : State) (cs : List Nat) (us : List Gang) (taken : List Nat) : List (List Nat) → Option (List Nat)
  | [] => if s.meets cs us taken then some taken else none
  | v :: vs => if s.meets cs us taken then some taken else s.enough cs us (taken ++ v) vs

/-- Some core has the resources of R68 free for every gang of a unit, after a carve-out change where need be (R71, R74). -/
def State.roomFor (s : State) (us : List Gang) : Bool :=
  let t : State := { s with cores := s.cores.map fun c => (c.1, { c.2 with carve := .stable }) }
  (t.plan (us.map Gang.gid) [] [] us).isSome

/-- A priority pre-emption, or a carve-out change, is in progress for a unit. -/
def State.served (s : State) (unit : List Nat) : Bool := s.growsFor unit || s.cores.any fun c => c.2.evicting.any unit.contains

/-- The victims and the core of a priority pre-emption for the gang at the head of the queue (R74). The fewest gangs are counted over all the gangs
that would go, those of a victim's set on other cores included, on which R74 is silent (the model's choice, log 48). -/
def State.priorityChoice (s : State) : Option (Nat × List Nat × Nat) :=
  match s.placeQueue with
  | [] => none
  | g :: _ =>
    match s.unitOf g, s.inst? g.inst with
    | some us, some i =>
      if g.prio ≠ 3 || s.periodsSince i.time i.period = 0 || s.served (us.map Gang.gid) || s.roomFor us then none
      else
        let yoked := (s.ctx g.asid).yoked
        let cand := (List.range 96).filterMap fun c =>
          let cs := coresFor yoked c
          if !(yoked && 16 ≤ c % 32) && cs.all (fun k => s.choosable k (us.map Gang.gid) && (s.core k).evicting.isNone) then
            (s.enough cs us [] (s.victims cs)).bind fun v => if v = [] then none else some (c, v)
          else none
        (cand.foldl (fun (b : Option (Nat × List Nat)) x => match b with
          | none => some x
          | some y => if x.2.length < y.2.length then some x else some y) none).map fun x => (x.1, x.2, g.gid)
    | _, _ => none

/-- PRIORITY_PREEMPTION (R74). -/
def execPriorityPreemption (s : State) : Out :=
  .next (match s.priorityChoice with
    | none => s
    | some (c, vs, gid) =>
      let s := vs.foldl (fun s v => s.preempt v .priority) s
      (coresFor (((s.gangOf? gid).map fun g => (s.ctx g.asid).yoked).getD false) c).foldl
        (fun s k => s.setCore k { s.core k with reserved := some gid, evicting := some gid }) s)

end Sys2Proof.Machine
end

