-- ==== Sys2Proof/Machine/Debug.lean ====
section
/-! DEFINITION. Watch predicates, halts, steps, inspection and trace (17_debug R365 to R379): major 0x37, what predicates match, and the
debug port. -/

namespace Sys2Proof.Machine

/-! ### Halts (R368, R369, R371) -/

/-- The state of a path that a halt stops; a HELD or PARKED path keeps its own (R368). -/
def PState.halt : PState → PState
  | .ready => .stopped none
  | .join a b => .stopped (some (a, b))
  | st => st

/-- The state that a STOPPED path kept. -/
def PState.unhalt : PState → PState
  | .stopped none => .ready
  | .stopped (some (a, b)) => .join a b
  | st => st

/-- A path that a halt stops; a step that it has not begun is over (R368, R375). -/
def Path.halt (p : Path) : Path := { p with st := p.st.halt, step := if p.step = 1 && p.st = .ready then 0 else p.step }

/-- Writes the halt record of the warp in focus and sends its token (R371). -/
def State.haltNote (s : State) (r : HaltRec) : State :=
  ({ s with me := { s.me with halt := r } } : State).sendToken
    (BitVec.ofNat 64 (s.gang.stk * 2 ^ 45 + s.gang.core * 2 ^ 40 + s.me.slot * 2 ^ 32 + s.gang.asid * 2 ^ 16 + r.cause * 2 ^ 8 + 6))

/-- Halts the warp in focus (R368). -/
def State.haltWarp (s : State) (r : HaltRec) : State :=
  ({ s with me := { s.me.mapPaths Path.halt with halted := true } } : State).haltNote r

/-- Halts the gang in focus, its sequencer included; the other warps' cause is 4 (R369, R371). -/
def State.haltGang (s : State) (r : HaltRec) : State :=
  let s := s.haltWarp r
  let others := (List.range 32).filter fun w => w != s.me.w && s.warps.any fun x => x.gid == s.gang.gid && x.w == w && !x.exited
  let s := others.foldl (fun s w => s.within s.gang.gid w fun t => t.haltWarp { r with cause := 4 }) s
  { s with gang := { s.gang with halted := true, seq := { s.gang.seq with halted := s.gang.mx } } }

/-- A lane leaves its path as a STOPPED path of its own (R368, R369, R375): at once where the path is READY or JOIN, later where it is held.
`r.path` names the path, whose class the lane is looked for in. -/
def State.stopLane (s : State) (l : Nat) (r : HaltRec) : State :=
  match s.me.live.find? fun p => p.mask.getLsbD l && decide ((32 ≤ p.id) = (32 ≤ r.path)) with
  | none => s
  | some p =>
    if p.st.isStopped then s
    else if p.st.halt = p.st then { s with me := { s.me with stops := s.me.stops ++ [(l, r)] } }
    else if p.mask = laneBit l then
      ({ s with me := s.me.mapPaths fun q => if q.id == p.id then q.halt else q } : State).haltNote { r with path := p.id }
    else
      let i := s.me.freeId p.id
      let q : Path := { p.halt with id := i, mask := laneBit l, issued := 0, groups := 0, replay := p.replay.map (· &&& laneBit l) }
      let rest (x : Path) : Path := if x.id == p.id && x.mask != 0 then
        { x with mask := x.mask &&& ~~~laneBit l, replay := x.replay.map (· &&& ~~~laneBit l) } else x
      let s : State := { s with me := (s.me.mapPaths rest).addPath q }
      (s.trace 5 p.id (p.mask &&& ~~~laneBit l) 1).haltNote { r with path := i }

/-- The number under which a path waits to be stopped. -/
def pathStop (id : Nat) : Nat := 32 + id

/-- A path stops: at once where it is READY or JOIN, later where it is held or parked; one that is STOPPED is unchanged (R368, R375; log 35). -/
def State.stopPath (s : State) (id : Nat) (r : HaltRec) : State :=
  match s.me.path? id with
  | none => s
  | some p =>
    if p.st.isStopped then s
    else if p.st.halt = p.st then { s with me := { s.me with stops := s.me.stops ++ [(pathStop id, r)] } }
    else ({ s with me := s.me.mapPaths fun q => if q.id == id then q.halt else q } : State).haltNote r

/-- Lanes and paths that wait to be stopped are, where their paths are at a chain-group boundary. -/
def State.takeStops (s : State) : State :=
  s.me.stops.foldl (fun s x => if x.1 < 32 then s.stopLane x.1 x.2 else s.stopPath (x.1 - 32) x.2) { s with me := { s.me with stops := [] } }

/-! ### What predicates match (R366, R367) -/

/-- A predicate watches a context. -/
def Wp.watches (w : Wp) (asid : Nat) : Bool := w.en && (w.any || w.asid.toNat == asid)

/-- The bit of ACC for a kind of access. -/
def AccKind.accBit : AccKind → Nat
  | .read => 0
  | .write => 1
  | .atomic => 2

/-- The 32-bit values of a lane that a value predicate looks at: registers written, and data. -/
def Obs.values (o : Obs) (regs : Regs) (l : Nat) : List (BitVec 32) :=
  (o.regs.filterMap fun x => if x.2.getLsbD l then some (regs.getV x.1 l) else none) ++ (o.data.filterMap fun x => if x.1 == l then some x.2 else none)

/-- The flags that an instruction set in a lane. -/
def Obs.flagsOf (o : Obs) (l : Nat) : BitVec 6 := o.flags.foldl (fun f x => if x.1 == l then f ||| x.2 else f) 0

/-- Whether a predicate matches a lane, and word 1 of the halt record (R366, R376). `lane` says that the word is a lane instruction. -/
def Wp.hit (w : Wp) (o : Obs) (regs : Regs) (active : BitVec 32) (lane : Bool) (l : Nat) : Option (BitVec 64) :=
  match w.kind with
  | 0 => (o.accs.find? fun a => a.1 == l && w.acc.getLsbD (AccKind.accBit a.2.2.2.1) &&
      ((decide (a.2.1 ≤ w.hi) && decide (w.lo.toNat ≤ a.2.1.toNat + a.2.2.1 - 1)) != w.neg)).map fun a => a.2.1
  | 1 => ((o.values regs l).find? fun x =>
      let y := (x &&& w.vmask).toNat
      (decide (w.lo.toNat ≤ y) && decide (y ≤ w.hi.toNat)) != w.neg).map (BitVec.setWidth 64)
  | 2 =>
    let f := o.flagsOf l
    if lane && active.getLsbD l && ((f.setWidth 32 &&& w.vmask) != 0) != w.neg then some (f.setWidth 64) else none
  | _ => none

/-- The predicates of the core in focus that match a lane of a chain group issued at an order point: number, predicate, word 1. A predicate set since
does not apply (R375). -/
def State.hitsOf (s : State) (birth : Nat) (o : Obs) (regs : Regs) (active : BitVec 32) (lane : Bool) (l : Nat) : List (Nat × Wp × BitVec 64) :=
  (s.core s.coreNo).wps.filterMap fun x => if x.2.watches s.gang.asid && decide (x.2.since < birth) then (x.2.hit o regs active lane l).map fun v => (x.1, x.2, v) else none

/-- The largest ACT among matches, with the lowest predicate that has it (R366). -/
def actOf (hs : List (Nat × Wp × BitVec 64)) : Nat × Nat × BitVec 64 :=
  hs.foldl (fun b h => if b.1 < h.2.1.act then (h.2.1.act, h.1, h.2.2) else b) (0, 0, 0)

/-- A core and, where a yoked gang runs on its pair, the other core of the pair (R365). -/
def State.pairOf (s : State) (c : Nat) : List Nat :=
  let low := 32 * (c / 32) + c % 16
  if s.allGangs.any fun g => g.gid != 0 && g.st == .resident && g.yoked && 32 * g.stk + g.core == low then [low, low + 16] else [c]

/-- Changes a watch predicate of a core, and of the other core of a yoked pair. -/
def State.setWp (s : State) (c n : Nat) (f : Wp → Wp) : State :=
  (s.pairOf c).foldl (fun s k => let x := s.core k; s.setCore k { x with wps := smPut {} x.wps n (f (smGet {} x.wps n)) }) s

/-- Counts the matches of a lane and writes their trace packets. -/
def State.countHits (s : State) (path l : Nat) (hs : List (Nat × Wp × BitVec 64)) : State :=
  hs.foldl (fun s h =>
    let s := s.setWp s.coreNo h.1 fun w => { w with hits := if w.hits = 0xFFFFFFFF then w.hits else w.hits + 1 }
    if h.2.1.trc then s.trace 12 path (BitVec.ofNat 32 (h.1 + l * 256)) h.2.2 else s) s

/-- What the matches of one instruction do: counts, trace packets and halts, in lane order (R366, R369): one
halt of the warp, or of the gang where a lane asks for that. `pc` and `wpos` are the place of the
chain group. -/
def State.watched (s : State) (path : Nat) (pc : BitVec 48) (wpos : Nat) (ms : List (Nat × List (Nat × Wp × BitVec 64))) : State :=
  let s := ms.foldl (fun s m => s.countHits path m.1 m.2) s
  (ms.foldl (fun (x : State × Nat) m =>
    let s := x.1
    let (act, n, v) := actOf m.2
    let r : HaltRec := { cause := 1, w := n, lane := m.1, path := path, word1 := v, time := s.now, pc := pc, wpos := wpos }
    let r := { r with path := ((s.me.live.find? fun p => p.mask.getLsbD m.1 && decide ((32 ≤ p.id) = (32 ≤ path))).map Path.id).getD path }
    if act = 0 || s.me.exited then x
    else if act = 1 then (s.stopLane m.1 r, x.2)
    else if act ≤ x.2 then x
    else (if act = 2 then s.haltWarp r else s.haltGang r, act)) (s, 0)).1

/-- Lanes with matches, in lane order. -/
def State.matches (s : State) (birth : Nat) (o : Obs) (regs : Regs) (active : BitVec 32) (lane : Bool) : List (Nat × List (Nat × Wp × BitVec 64)) :=
  if (s.core s.coreNo).wps = [] then []
  else ((List.range 32).map fun l => (l, s.hitsOf birth o regs active lane l)).filter fun m => m.2 != []

/-- Looks at what reached registers of the warp in focus after its chain group, which issued at `birth` from the place `pc` and `wpos` (R367). -/
def State.watchLate (s : State) (path : Nat) (pc : BitVec 48) (wpos birth : Nat) : State :=
  let t := (s.watched path pc wpos (s.matches birth s.me.obs s.me.regs 0 false)).takeStops
  { t with me := { t.me with obs := {} } }

/-! ### Selectors (R372) -/

def dselStk (v : BitVec 32) : Nat := v.toNat / 2 ^ 13 % 8
def dselCore (v : BitVec 32) : Nat := 32 * dselStk v + v.toNat / 2 ^ 8 % 32
def dselSlot (v : BitVec 32) : Nat := v.toNat % 2 ^ 7
def dselPath (v : BitVec 32) : Nat := v.toNat / 2 ^ 16 % 32 + (if v.getLsbD 7 then 32 else 0)
def dselLane (v : BitVec 32) : Nat := v.toNat / 2 ^ 21 % 32
def dselScope (v : BitVec 32) : Nat := v.toNat / 2 ^ 26 % 4

/-- Reserved bits and the stack of a selector are good. -/
def State.dselOk (s : State) (v : BitVec 32) : Bool := v.toNat / 2 ^ 28 == 0 && s.powered (dselStk v)

/-- The resident warp that a selector names; a saved one cannot be named. -/
def State.dselWarp (s : State) (v : BitVec 32) : Option Warp :=
  if s.dselOk v then (s.coreWarps (dselCore v)).find? fun x => x.slot == dselSlot v && x.pre.st != .saved else none

/-- The warp and live path that a selector names, the lane in it where `lane` asks for one. -/
def State.dselPath? (s : State) (v : BitVec 32) (lane : Bool) : Option (Warp × Path) :=
  match s.dselWarp v with
  | none => none
  | some x => match x.path? (dselPath v) with
    | none => none
    | some p => if lane && !p.mask.getLsbD (dselLane v) then none else some (x, p)

/-- A warp is stopped (R368). -/
def Warp.stopped (x : Warp) : Bool := x.live.any (fun p => p.st.isStopped) && !x.live.any fun p => p.st = .ready

/-- The gang of a warp is stopped (R368). -/
def State.gangStopped (s : State) (gid : Nat) : Bool :=
  (s.allWarps.all fun x => x.gid != gid || x.exited || x.stopped) &&
  match s.gangOf? gid with
  | some g => !g.mx || g.seq.halted
  | none => false

/-! ### Setting predicates (R375) -/

/-- WP_SET (R375). -/
def execWpSet (d a : BitVec 6) (n : BitVec 3) (s : State) : Out :=
  let sel := s.u a
  let ctl := s.un (a.toNat + 1)
  let lo := s.uuAt a 2
  let hi := s.uuAt a 4
  let vm := s.un (a.toNat + 6)
  let filt := s.un (a.toNat + 7)
  let kind := ctl.toNat % 8
  let acc : BitVec 3 := ctl.extractLsb' 3 3
  let bad := ctl.toNat / 2 ^ 11 != 0 || ctl.getLsbD 7 || filt.toNat / 2 ^ 13 != 0 || decide (2 < kind) || (kind == 0 && acc == 0) ||
    (kind != 0 && acc != 0) || decide (hi < lo) || (kind == 1 && (lo.toNat / 2 ^ 32 != 0 || hi.toNat / 2 ^ 32 != 0)) ||
    (kind == 2 && (lo != 0 || hi != 0 || vm.toNat / 2 ^ 6 != 0))
  let w : Wp := { kind := kind, acc := acc, neg := ctl.getLsbD 6, en := true, act := ctl.toNat / 2 ^ 8 % 4, trc := ctl.getLsbD 10
                  asid := filt.setWidth 12, any := filt.getLsbD 12, lo := lo, hi := hi, vmask := vm, since := s.point }
  .next (if !s.dselOk sel then s.setU d 1
    else if bad then s.setU d 3
    else (s.setWp (dselCore sel) n.toNat fun _ => w).setU d 0)

/-- WP_CLR (R375). -/
def execWpClr (d a : BitVec 6) (n : BitVec 3) (s : State) : Out :=
  let sel := s.u a
  .next (if !s.dselOk sel then s.setU d 1 else (s.setWp (dselCore sel) n.toNat fun _ => {}).setU d 0)

/-! ### Halting, resuming, stepping (R368, R375) -/

/-- A halt record of dbg.halt for a path. -/
def State.haltRec (s : State) (p : Path) (lane : Nat) : HaltRec :=
  { cause := 2, lane := lane, path := p.id, time := s.now, pc := p.pc, wpos := p.wpos }

/-- DBG_HALT (R369, R375). -/
def execDbgHalt (d a : BitVec 6) (s : State) : Out :=
  let v := s.u a
  .next (match dselScope v with
    | 0 => match s.dselPath? v true with
      | none => s.setU d 1
      | some (x, p) => (s.within x.gid x.w fun t => t.stopLane (dselLane v) (t.haltRec p (dselLane v))).setU d 0
    | 1 => match s.dselPath? v false with
      | none => s.setU d 1
      | some (x, p) => (s.within x.gid x.w fun t => t.stopPath p.id (t.haltRec p (firstOf p.mask))).setU d 0
    | 2 => match s.dselWarp v with
      | none => s.setU d 1
      | some x => (s.within x.gid x.w fun t => t.haltWarp (t.haltRec x.cur (firstOf x.cur.mask))).setU d 0
    | _ => match s.dselWarp v with
      | none => s.setU d 1
      | some x => (s.within x.gid x.w fun t => t.haltGang (t.haltRec x.cur (firstOf x.cur.mask))).setU d 0)

/-- Resumes the paths of the warp in focus that `f` picks (R368, R375); the warp is halted no more once no path of it is STOPPED. -/
def State.resumePaths (s : State) (f : Path → Bool) : State :=
  let x := s.me.mapPaths fun p => if f p then { p with st := p.st.unhalt } else p
  ({ s with me := { x with halted := x.halted && x.live.any fun p => p.st.isStopped } } : State).settle

/-- DBG_RES (R375). -/
def execDbgRes (d a : BitVec 6) (s : State) : Out :=
  let v := s.u a
  .next (match dselScope v with
    | 0 => match s.dselPath? v true with
      | none => s.setU d 1
      | some _ => s.setU d 3
    | 1 => match s.dselPath? v false with
      | none => s.setU d 1
      | some (x, p) => if !p.st.isStopped then s.setU d 2 else (s.within x.gid x.w fun t => t.resumePaths fun q => q.id == p.id).setU d 0
    | 2 => match s.dselWarp v with
      | none => s.setU d 1
      | some x => (s.within x.gid x.w fun t => t.resumePaths fun _ => true).setU d (if x.live.any fun p => p.st.isStopped then 0 else 2)
    | _ => match s.dselWarp v with
      | none => s.setU d 1
      | some x =>
        let ws := s.allWarps.filter fun y => y.gid == x.gid && !y.exited
        let any := ws.any fun y => y.live.any fun p => p.st.isStopped
        let t := (ws.map Warp.w).foldl (fun s w => s.within x.gid w fun t => t.resumePaths fun _ => true) s
        (t.mapGangs fun g => if g.gid == x.gid then { g with halted := false, seq := { g.seq with halted := false } } else g).setU d (if any then 0 else 2))

/-- Begins the step of a path, or of one lane that leaves it (R375). -/
def State.beginStep (s : State) (p : Path) (lane : Option Nat) : State :=
  let go (q : Path) : Path := { q with st := q.st.unhalt, step := if q.st = .stopped none then 1 else 2, spc := q.pc, swpos := q.wpos }
  let all : State := { s with me := (s.me.mapPaths fun q => if q.id == p.id && q.mask != 0 then go q else q).unhaltedFrom s.me }
  match lane with
  | none => all
  | some l =>
    if p.mask = laneBit l then all
    else
      let q := go { p with id := s.me.freeId p.id, mask := laneBit l, issued := 0, groups := 0, replay := p.replay.map (· &&& laneBit l) }
      let rest (x : Path) : Path := if x.id == p.id && x.mask != 0 then
        { x with mask := x.mask &&& ~~~laneBit l, replay := x.replay.map (· &&& ~~~laneBit l) } else x
      ({ s with me := (s.me.mapPaths rest).addPath q } : State).trace 5 p.id (p.mask &&& ~~~laneBit l) 1

/-- DBG_STEP (R375). -/
def execDbgStep (d a : BitVec 6) (s : State) : Out :=
  let v := s.u a
  let mode := s.un (a.toNat + 1)
  .next (match s.dselPath? v mode.toNat.bodd with
    | none => s.setU d 1
    | some (x, p) =>
      if 2 ≤ mode.toNat then s.setU d 3
      else if p.st.halt = p.st && !p.st.isStopped then s.setU d 5
      else if !p.st.isStopped then s.setU d 2
      else (s.within x.gid x.w fun t => t.beginStep p (if mode = 1 then some (dselLane v) else none)).setU d 0)

/-- A stepped path has issued its chain group in every lane and stands at a boundary, or was woken as STOPPED, and each lane register that the group
writes has been written (R368, R375). -/
def State.stepDone (s : State) (x : Warp) (p : Path) : Bool :=
  p.mask != 0 && ((p.step == 2 && p.replay.isNone && p.st.halt != p.st) || (p.step != 0 && p.st.isStopped)) &&
    !(s.accs.any fun a => a.gid == x.gid && a.w == x.w && a.dreg.isSome && (a.path == p.id || a.heirs.contains p.id) && a.pc == p.spc && a.wpos == p.swpos) &&
    !(s.ops.any fun o => o.gid == x.gid && o.w == x.w && o.dregs != [] && (o.path == p.id || (o.dmask &&& p.mask) != 0) && o.pc == p.spc && o.wpos == p.swpos)

/-- STEP_COMPLETE (R375): the paths that the step left are STOPPED, and a record and a token say so. -/
def execStepComplete (gid w path : Nat) (s : State) : Out :=
  .next (match s.warpOf? gid w with
    | none => s
    | some x => match x.path? path with
      | none => s
      | some p =>
        if !s.stepDone x p then s
        else s.within gid w fun t =>
          let r : HaltRec := { cause := 3, lane := firstOf p.mask, path := p.id, time := t.now, pc := p.spc, wpos := p.swpos }
          ({ t with me := t.me.mapPaths fun q => if t.stepDone t.me q then { q with st := q.st.halt, step := 0 } else q } : State).haltNote r)

/-! ### Inspection (R376) -/

/-- What an item needs to be stopped. -/
inductive Needs where
  | nothing
  | path
  | warp
  | gang
  deriving DecidableEq, Repr

/-- An item as its selector and index name it: what reads it, its value, and what it needs; none for a bad index. -/
structure Item where
  needs : Needs
  value : BitVec 64
  write : Option (BitVec 64 → State)

/-- Bits of a stream register as R274 lays them out. -/
def StreamReg.word (q : StreamReg) (i : Nat) : BitVec 64 :=
  match i with
  | 0 =>
    let st : BitVec 2 := match q.st with | .closed => 0 | .affine => 1 | .indirect => 2 | .closing => 3
    BitVec.ofNat 64 ((if q.isgn then 2 ^ 12 else 0) + (if q.sext then 2 ^ 11 else 0) + (if q.dir then 2 ^ 10 else 0) + q.size.toNat * 2 ^ 8 + st.toNat)
  | 1 => q.count ++ q.pos
  | 2 => q.istr ++ q.lstr
  | 3 => q.ibase
  | _ => q.abase

/-- A fibre register in the same form (R274). -/
def FibreReg.word (f : FibreReg) (i : Nat) : BitVec 64 :=
  match i with
  | 0 => BitVec.ofNat 64 ((if f.sext then 2 ^ 11 else 0) + f.size.toNat * 2 ^ 8 + (if f.isOpen then 1 else 0))
  | 1 => f.fin ++ f.cur
  | 2 => 0
  | 3 => f.crd
  | _ => f.val

/-- A word of an event register (05_events R114). -/
def EvReg.word (e : EvReg) (i : Nat) : BitVec 64 :=
  match i with
  | 0 => BitVec.ofNat 64 (e.val.toNat * 2 ^ 32 + (if e.pend then 32 else 0) + (if e.armed then 16 else 0) + e.kind.code)
  | 1 => e.obj
  | 2 => e.arg
  | _ => e.handler

/-- A word of a watch predicate (R365). -/
def Wp.word (w : Wp) (i : Nat) : BitVec 64 :=
  match i with
  | 0 => BitVec.ofNat 64 ((if w.any then 2 ^ 44 else 0) + w.asid.toNat * 2 ^ 32 + (if w.trc then 2 ^ 10 else 0) + w.act * 2 ^ 8 + (if w.en then 2 ^ 7 else 0)
      + (if w.neg then 2 ^ 6 else 0) + w.acc.toNat * 8 + w.kind)
  | 1 => w.lo
  | 2 => w.hi
  | _ => w.hits ++ w.vmask

/-- A word of the halt record (R376). -/
def HaltRec.word (h : HaltRec) (i : Nat) : BitVec 64 :=
  match i with
  | 0 => BitVec.ofNat 64 (h.cause + (if h.cause = 1 then h.w * 2 ^ 8 else 0) + h.lane * 2 ^ 16 + h.path * 2 ^ 24)
  | 1 => h.word1
  | 2 => h.time
  | _ => BitVec.ofNat 64 (h.pc.toNat + h.wpos * 2 ^ 48)

/-- A load of a lane has a register of the warp outstanding (R373). -/
def State.loadOut (s : State) (x : Warp) (l n : Nat) : Bool :=
  s.accs.any fun a => a.gid == x.gid && a.w == x.w && a.lane == l && a.dreg.any fun d => d == n || (a.op.wide && d + 1 == n)

/-- What dbg.rdv and dbg.wrv find (R373, R376): a status, or the item. -/
def State.item (s : State) (v item : BitVec 32) : Except Nat Item :=
  let file := item.toNat % 16
  let i := item.toNat / 2 ^ 8 % 2 ^ 8
  let l := dselLane v
  let bad := item.toNat / 2 ^ 16 != 0 || item.toNat / 16 % 16 != 0
  let regs (x : Warp) (f : Regs → Regs) : State := s.setWarp { x with regs := f x.regs }
  let onWarp (f : Warp → Except Nat Item) : Except Nat Item := match s.dselWarp v with | none => .error 1 | some x => if bad then .error 3 else f x
  let onPath (lane : Bool) (f : Warp → Path → Except Nat Item) : Except Nat Item :=
    match s.dselPath? v lane with | none => .error 1 | some (x, p) => if bad then .error 3 else f x p
  match file with
  | 0 => onPath true fun x _ =>
      if (((s.gangOf? x.gid).map Gang.regsN).getD 0) ≤ i then .error 3
      else .ok { needs := .path, value := (x.regs.getV i l).setWidth 64, write := some fun y => regs x fun r => r.putV i (laneBit l) fun _ => y.setWidth 32 }
  | 1 => onWarp fun x =>
      if 64 ≤ i then .error 3
      else .ok { needs := .warp, value := (uniGet x.regs.u i).setWidth 64, write := some fun y => regs x fun r => { r with u := uniPut r.u i (y.setWidth 32) } }
  | 2 => onPath false fun x p =>
      if 7 ≤ i then .error 3
      else .ok { needs := .path, value := (x.regs.getP i &&& p.mask).setWidth 64, write := some fun y => regs x fun r => r.putP i p.mask (y.setWidth 32) }
  | 3 => onPath true fun x _ =>
      if i ≠ 0 then .error 3
      else .ok { needs := .path, value := (x.regs.getF l).setWidth 64, write := some fun y => regs x fun r => { r with flags := smPut 0 r.flags l (y.setWidth 6) } }
  | 4 => onWarp fun x => if 32 ≤ i then .error 3 else .ok { needs := .warp, value := (smGet ({} : EvReg) x.ev (i / 4)).word (i % 4), write := none }
  | 5 => onWarp fun x => if 40 ≤ i then .error 3 else .ok { needs := .warp, value := (smGet ({} : StreamReg) x.streams (i / 5)).word (i % 5), write := none }
  | 6 => onWarp fun x => if 20 ≤ i then .error 3 else .ok { needs := .warp, value := (smGet ({} : FibreReg) x.fibres (i / 5)).word (i % 5), write := none }
  | 7 =>
      if !s.dselOk v then .error 1
      else if bad || decide (32 ≤ i) then .error 3
      else .ok { needs := .nothing, value := (smGet ({} : Wp) (s.core (dselCore v)).wps (i / 4)).word (i % 4), write := none }
  | 8 => onWarp fun x =>
      if 2 ≤ i then .error 3
      else .ok { needs := .nothing, write := none
                 value := if i = 0 then (smGet (0 : BitVec 8) x.fm.codes l).setWidth 64 else (maskOf fun k => smGet (0 : BitVec 8) x.fm.codes k != 0).setWidth 64 }
  | 9 => onPath true fun x _ => if i ≠ 0 then .error 3 else .ok { needs := .path, value := BitVec.ofNat 64 (x.regs.getD l), write := none }
  | 10 => onWarp fun x => if 4 ≤ i then .error 3 else .ok { needs := .nothing, value := x.halt.word i, write := none }
  | 11 => onWarp fun x =>
      match s.gangOf? x.gid with
      | some g =>
        if 64 ≤ i || !g.mx then .error 3
        else .ok { needs := .gang, value := (uniGet g.seq.u i).setWidth 64
                   write := some fun y => s.setGang { g with seq := { g.seq with u := uniPut g.seq.u i (y.setWidth 32) } } }
      | none => .error 3
  | _ => onWarp fun _ => .error 3

/-- What an item needs is stopped. -/
def State.meetsNeeds (s : State) (v : BitVec 32) (n : Needs) : Bool :=
  match n, s.dselWarp v with
  | .nothing, _ => true
  | _, none => false
  | .path, some x => ((x.path? (dselPath v)).map fun p => p.st.isStopped).getD false
  | .warp, some x => x.stopped
  | .gang, some x => s.gangStopped x.gid

/-- DBG_RDV (R376). -/
def execDbgRdv (d a : BitVec 6) (s : State) : Out :=
  let v := s.u a
  let put (x : BitVec 64) (c : Word) : State := (s.setUU d x).setUn (d.toNat + 2) c
  .next (match s.item v (s.un (a.toNat + 1)) with
    | .error c => put 0 (BitVec.ofNat 32 c)
    | .ok it => if s.meetsNeeds v it.needs then put it.value 0 else put 0 2)

/-- DBG_WRV (R376). -/
def execDbgWrv (d a : BitVec 6) (s : State) : Out :=
  let v := s.u a
  let item := s.un (a.toNat + 1)
  let busy := item.toNat % 16 == 0 && (s.dselWarp v).any fun x => s.loadOut x (dselLane v) (item.toNat / 2 ^ 8 % 2 ^ 8)
  .next (match s.item v item with
    | .error c => s.setU d (BitVec.ofNat 32 c)
    | .ok it =>
      if busy then s.setU d 5
      else if !s.meetsNeeds v it.needs then s.setU d 2
      else match it.write with
        | none => s.setU d 4
        | some f => (f (s.uuAt a 2)).setU d 0)

/-- A path's record (04_control R92). -/
def Warp.pathRec (x : Warp) (i : Nat) : BitVec 128 :=
  match x.path? i with
  | none => 0
  | some p => BitVec.ofNat 128 (p.mask.toNat * 2 ^ 96 + p.pc.toNat * 2 ^ 48 + p.wpos * 2 ^ 46 + p.st.code * 2 ^ 43 + (if x.overflow.contains i then 2 ^ 42 else 0))

/-- DBG_PATHS (R376). -/
def execDbgPaths (d a : BitVec 6) (s : State) : Out :=
  let v := s.u a
  let r : BitVec 128 := match s.dselWarp v with
    | none => BitVec.allOnes 128
    | some x => x.pathRec (dselPath v)
  .next ((List.range 4).foldl (fun s k => s.setUn (d.toNat + k) (r.extractLsb' (32 * k) 32)) s)

/-! ### Trace (R377) -/

/-- The warps that a selector of SCOPE 3 names, or the one warp. -/
def State.traceWarps (s : State) (v : BitVec 32) (x : Warp) : List Nat :=
  if dselScope v = 3 then (List.range 32).filter fun w => s.allWarps.any fun y => y.gid == x.gid && y.w == w && !y.exited else [x.w]

/-- Starts the trace of the warp in focus. -/
def State.traceOn (s : State) (base : BitVec 64) (logn : Nat) (ev : Bool) : State :=
  let s := s.setTrc { on := true, base := base, logn := logn, ev := ev, last := (s.core s.coreNo).cyc }
  (s.put s.ringBase (leBytes 24 0)).traceSync

/-- TRC_ON (R377). -/
def execTrcOn (d a : BitVec 6) (s : State) : Out :=
  let v := s.u a
  let ctl := (s.un (a.toNat + 1)).toNat
  let base := s.uuAt a 2
  let logn := ctl % 32
  .next (match s.dselWarp v with
    | none => s.setU d 1
    | some x =>
      let ws := s.traceWarps v x
      let top := (ws.map fun w => base.toNat + (w + 1) * ringBytes logn).foldl max 0
      if dselScope v < 2 || ctl / 2 ^ 9 ≠ 0 || ctl / 2 ^ 5 % 8 ≠ 0 || logn < 6 || 20 < logn || base.toNat % 4096 ≠ 0 || 2 ^ 40 ≤ base.toNat || gddrTop < top then s.setU d 3
      else if ws.any fun w => (s.warpOf? x.gid w).any fun y => y.trc.on then s.setU d 5
      else (ws.foldl (fun s w => s.within x.gid w fun t => t.traceOn base logn (decide (ctl / 2 ^ 8 % 2 = 1))) s).setU d 0)

/-- Stops the trace of the warp in focus after an EXIT packet for each live path. -/
def State.traceOff (s : State) : State :=
  let s := s.me.live.foldl (fun s p => s.trace 13 p.id p.mask 0) s
  s.setTrc { s.me.trc with on := false }

/-- TRC_OFF (R377). -/
def execTrcOff (d a : BitVec 6) (s : State) : Out :=
  let v := s.u a
  .next (match s.dselWarp v with
    | none => s.setU d 1
    | some x => ((s.traceWarps v x).foldl (fun s w => s.within x.gid w State.traceOff) s).setU d 0)

/-- TRC_MARK (R377, R379). -/
def execTrcMark (a : BitVec 6) (s : State) : Out :=
  .next (s.trace 11 s.me.cur.id (s.u a) (s.core s.coreNo).cyc)

/-! ### The debug port (16_stack R357) -/

/-- Does something as an issuer of its own with uniform registers, and comes back with them. -/
def State.aside (s : State) (u : List (Nat × Word)) (f : State → Out) : State × List (Nat × Word) :=
  let t : State := { s with me := { regs := { u := u } }, gang := {}, issue := .lane
                            warps := s.allWarps.filter fun x => x.gid != 0, gangs := s.allGangs.filter fun g => g.gid != 0 }
  let t := match f t with | .next t => t | _ => t
  let u := t.me.regs.u
  let t := t.refocus s.gang s.me
  ({ t with issue := s.issue }, u)

/-- Uniform registers from a list of words. -/
def uniOf (regs : List (BitVec 32)) : List (Nat × Word) := (List.range 64).foldl (fun u i => uniPut u i (regs.getD i 0)) []

/-- What the port issues: a word of major 0x37 but for trc.mark, with its operands as R372 and R375 to R377 give them. -/
def portOp (w : BitVec 32) : Option (State → Out) :=
  let n := w.toNat
  let d : BitVec 6 := .ofNat 6 (fld n 19 6)
  let a : BitVec 6 := .ofNat 6 (fld n 13 6)
  let b := fld n 7 6
  let on (ok : Bool) (f : State → Out) : Option (State → Out) := if ok then some f else none
  if fld n 25 6 ≠ 0x37 then none
  else match fld n 0 7 with
    | 0 => on (decide (b < 8) && group a 8 2) (execWpSet d a (.ofNat 3 b))
    | 1 => on (decide (b < 8)) (execWpClr d a (.ofNat 3 b))
    | 2 => on (b == 0) (execDbgHalt d a)
    | 3 => on (b == 0) (execDbgRes d a)
    | 4 => on (b == 0 && even a) (execDbgStep d a)
    | 5 => on (b == 0 && group d 3 2 && even a) (execDbgRdv d a)
    | 6 => on (b == 0 && group a 4 2) (execDbgWrv d a)
    | 7 => on (b == 0 && group d 4 4) (execDbgPaths d a)
    | 8 => on (b == 0 && group a 4 2) (execTrcOn d a)
    | 9 => on (b == 0) (execTrcOff d a)
    | _ => none

def State.answer (s : State) (r : Reply) : State := s.setSys { s.sys with replies := s.sys.replies ++ [r] }

/-- DEBUG_PORT_ACCESS (16_stack R357). -/
def execDebugPortAccess (d : DebugReq) (s : State) : Out :=
  .next (match d with
    | .identity => s.answer (.identity Config.identity)
    | .status => s.answer (.status (if s.pkg.stage = .locked then s.pkg.why else 0))
    | .issue w regs =>
      if s.pkg.stage ≠ .serve then s
      else match portOp w with
        | none => s.answer (.debug [])
        | some f =>
          let (t, u) := s.aside (uniOf regs) f
          t.answer (.debug u))

end Sys2Proof.Machine
end

