-- ==== Sys2Proof/Machine/Geometry.lean ====
section
/-! DEFINITION. The arithmetic of the beam and ray units (14_beams R312, R317, R318, R324): FP32 encodings as natural numbers, rounded to
nearest even at each step, vectors and vertices as lists of encodings, frames, the overlap of a piece with a triangle, the box and triangle
tests of a ray. -/

namespace Sys2Proof.Machine

/-! ### FP32 values -/

def fAdd (a b : Nat) : Nat := (fmtF32.addBits .ne a b).bits
def fSub (a b : Nat) : Nat := (fmtF32.subBits a b).bits
def fMul (a b : Nat) : Nat := (fmtF32.mulBits .ne a b).bits
def fNeg (a : Nat) : Nat := if a / 2 ^ 31 % 2 = 1 then a - 2 ^ 31 else a + 2 ^ 31

/-- The exact quotient of finite values, the divisor non-zero: 64 bits beyond the divisor's, and a last bit that says whether a remainder is left. -/
def quotient (neg : Bool) (m : Nat) (e : Int) (n : Nat) (f : Int) : FVal :=
  let k := 64 + Nat.log2 n
  let x := m * 2 ^ k
  .fin neg (2 * (x / n) + (if x % n = 0 then 0 else 1)) (e - f - k - 1)

/-- a / b, rounded once (07_numbers R169, R171). -/
def fDiv (a b : Nat) : Nat :=
  (fmtF32.put .ne (match fmtF32.decode a, fmtF32.decode b with
    | .nan _, _ => .nan false
    | _, .nan _ => .nan false
    | .inf _, .inf _ => .nan false
    | .inf s, .fin t _ _ => .inf (s != t)
    | .fin s _ _, .inf t => .fin (s != t) 0 0
    | .fin s m e, .fin t n f => if n = 0 then (if m = 0 then .nan false else .inf (s != t)) else quotient (s != t) m e n f)).bits

def fLt (a b : Nat) : Bool := (fcmpBits .lt a b).1
def fLe (a b : Nat) : Bool := (fcmpBits .le a b).1
def fEq (a b : Nat) : Bool := (fcmpBits .eq a b).1
def fPos (a : Nat) : Bool := fLt 0 a
def fNegative (a : Nat) : Bool := fLt a 0
def fZero (a : Nat) : Bool := fEq a 0
def fFinite (a : Nat) : Bool := match fmtF32.decode a with | .fin _ _ _ => true | _ => false
def fMax (a b : Nat) : Nat := if fLt a b then b else a
def fMin (a b : Nat) : Nat := if fLt b a then b else a
/-- An integer as an FP32 value. -/
def fOfInt (i : Int) : Nat := (fmtF32.put .ne (.fin (decide (i < 0)) i.natAbs 0)).bits

def fInf : Nat := 0x7F800000
def fNan : Nat := 0x7FC00000
def fOne : Nat := 0x3F800000
def fHalf : Nat := 0x3F000000
/-- No index: the value of an index field that names nothing (R315, R320, R322). -/
def noIndex : Nat := 0xFFFFFFFF

/-! ### Vectors (R317) -/

/-- A point or vector, by its components. -/
abbrev Vec := List Nat

def Vec.c (x : Vec) (i : Nat) : Nat := x.getD i 0
def sub3 (x y : Vec) : Vec := x.zipWith fSub y
def dot3 (x y : Vec) : Nat := fAdd (fAdd (fMul (x.c 0) (y.c 0)) (fMul (x.c 1) (y.c 1))) (fMul (x.c 2) (y.c 2))
def cross3 (x y : Vec) : Vec :=
  [fSub (fMul (x.c 1) (y.c 2)) (fMul (x.c 2) (y.c 1)), fSub (fMul (x.c 2) (y.c 0)) (fMul (x.c 0) (y.c 2)),
   fSub (fMul (x.c 0) (y.c 1)) (fMul (x.c 1) (y.c 0))]

/-- A point (or, with `vec`, a vector) mapped by the rows of an instance (R312). -/
def mapped (rows : List Nat) (vec : Bool) (x : Vec) : Vec :=
  [0, 1, 2].map fun k =>
    let m (j : Nat) : Nat := rows.getD (4 * k + j) 0
    let v := fAdd (fAdd (fMul (m 0) (x.c 0)) (fMul (m 1) (x.c 1))) (fMul (m 2) (x.c 2))
    if vec then v else fAdd v (m 3)

/-- Twice the signed area of a triangle in the plane, as R317 computes it. -/
def side (a b x : Vec) : Nat :=
  fSub (fMul (fSub (b.c 0) (a.c 0)) (fSub (x.c 1) (a.c 1))) (fMul (fSub (b.c 1) (a.c 1)) (fSub (x.c 0) (a.c 0)))

/-- A polygon's edges: each vertex with the next, the last with the first. -/
def edges (poly : List Vec) : List (Vec × Vec) := poly.zip (poly.drop 1 ++ poly.take 1)

def area (poly : List Vec) : Nat :=
  fMul fHalf ((edges poly).foldl (fun s e => fAdd s (fSub (fMul (e.1.c 0) (e.2.c 1)) (fMul (e.2.c 0) (e.1.c 1)))) 0)

/-- The sum of components in order, rounded at each step. -/
def sumC (xs : List Nat) : Nat :=
  match xs with
  | [] => 0
  | x :: t => t.foldl fAdd x

def mean (poly : List Vec) : Vec := [0, 1].map fun i => fDiv (sumC (poly.map fun v => v.c i)) (fOfInt poly.length)

/-- Vertices with equal components. -/
def sameVertex (a b : Vec) : Bool := (a.zip b).all fun p => fEq p.1 p.2

/-- Removes each vertex equal to its predecessor. -/
def dropRepeats : List Vec → List Vec
  | [] => []
  | [v] => [v]
  | v :: w :: t => if sameVertex v w then (match dropRepeats (w :: t) with | [] => [v] | _ :: r => v :: r) else v :: dropRepeats (w :: t)

/-- Removes repeats, and the last vertex if it equals the first. -/
def dedup (poly : List Vec) : List Vec :=
  let p := dropRepeats poly
  match p, p.getLast? with
  | v :: _ :: _, some w => if sameVertex w v then p.dropLast else p
  | _, _ => p

/-- cut (R317): keeps the part where `s` is not below 0. -/
def cut (poly : List Vec) (s : Vec → Nat) : List Vec :=
  dedup ((edges poly).flatMap fun e =>
    let a := s e.1
    let b := s e.2
    (if fLe 0 a then [e.1] else []) ++
      (if (fPos a && fNegative b) || (fNegative a && fPos b) then
        let f := fDiv a (fSub a b)
        [e.1.zipWith (fun p q => fAdd p (fMul f (fSub q p))) e.2]
      else []))

/-! ### Frames and overlap (R317, R318) -/

/-- An entry's frame. -/
structure Frame where
  P   : Vec
  Q   : Vec
  E1  : Vec
  E2  : Vec
  tlo : Nat
  thi : Nat
  deriving DecidableEq, Repr

def Frame.N (f : Frame) : Vec := cross3 f.E1 f.E2
def Frame.NN (f : Frame) : Nat := dot3 f.N f.N
def Frame.G (f : Frame) : Vec := sub3 f.Q f.P
def Frame.H (f : Frame) : Nat := dot3 f.G f.N
def Frame.F1 (f : Frame) : Vec := cross3 f.E2 f.N
def Frame.F2 (f : Frame) : Vec := cross3 f.N f.E1
def Frame.g1 (f : Frame) : Nat := dot3 f.G f.F1
def Frame.g2 (f : Frame) : Nat := dot3 f.G f.F2

/-- frame_ok. -/
def Frame.ok (f : Frame) : Bool :=
  (f.P ++ f.Q ++ f.E1 ++ f.E2 ++ [f.tlo] ++ f.N ++ f.G ++ f.F1 ++ f.F2 ++ [f.NN, f.H, f.g1, f.g2]).all fFinite
    && (fFinite f.thi || f.thi == fInf) && !fZero f.NN && !fZero f.H && fPos f.tlo && !fLt f.thi f.tlo

def Frame.depth (f : Frame) (y : Vec) : Nat := fDiv (dot3 (sub3 y f.P) f.N) f.H

def Frame.proj (f : Frame) (y : Vec) : Vec :=
  let d := sub3 y f.P
  let t := fDiv (dot3 d f.N) f.H
  [fDiv (fSub (fDiv (dot3 d f.F1) t) f.g1) f.NN, fDiv (fSub (fDiv (dot3 d f.F2) t) f.g2) f.NN]

/-- The frame inside an instance. -/
def Frame.mapped (f : Frame) (rows : List Nat) : Frame :=
  { f with P := Machine.mapped rows false f.P, Q := Machine.mapped rows false f.Q, E1 := Machine.mapped rows true f.E1, E2 := Machine.mapped rows true f.E2 }

/-- What an overlap finds: the covered piece, the kept outside pieces in order, the least and greatest depth. -/
structure Overlap where
  covered : List Vec
  kept    : List (List Vec)
  tnear   : Nat
  tfar    : Nat
  deriving DecidableEq, Repr

/-- The overlap of a piece with a triangle (R318). -/
def overlap (f : Frame) (piece tri : List Vec) : Option Overlap :=
  let z := cut tri fun y => fSub (f.depth y) f.tlo
  let z := if f.thi = fInf then z else cut z fun y => fSub f.thi (f.depth y)
  let o := dedup (z.map f.proj)
  let a := area o
  if o.length < 3 || !(fPos a || fNegative a) then none
  else
    let o := if fNegative a then o.reverse else o
    let (rest, outs) := (edges o).foldl (fun (r : List Vec × List (List Vec)) e =>
      (cut r.1 (side e.1 e.2), r.2 ++ [cut r.1 (fun x => fNeg (side e.1 e.2 x))])) (piece, [])
    if rest.length < 3 || !fPos (area rest) then none
    else
      let ds := z.map f.depth
      some { covered := rest, kept := outs.filter (fun k => decide (3 ≤ k.length) && fPos (area k)),
             tnear := ds.foldl fMin (ds.headD 0), tfar := ds.foldl fMax (ds.headD 0) }

/-! ### Rays (R324) -/

/-- The stretch of a ray inside the slabs of a box: tn and tf. -/
def boxSpan (bmin bmax o d : Vec) : Nat × Nat :=
  [0, 1, 2].foldl (fun (r : Nat × Nat) c =>
    if fZero (d.c c) then r
    else
      let inv := fDiv fOne (d.c c)
      let t0 := fMul (fSub (bmin.c c) (o.c c)) inv
      let t1 := fMul (fSub (bmax.c c) (o.c c)) inv
      if isNanF32 t0 || isNanF32 t1 then r else (fMax r.1 (fMin t0 t1), fMin r.2 (fMax t0 t1))) (fNeg fInf, fInf)

/-- box_pass. -/
def boxPass (bmin bmax o d : Vec) (lo hi : Nat) : Bool :=
  let r := boxSpan bmin bmax o d
  [0, 1, 2].all (fun c => fLe (bmin.c c) (bmax.c c)) &&
    [0, 1, 2].all (fun c => !(fZero (d.c c) && (fLt (o.c c) (bmin.c c) || fLt (bmax.c c) (o.c c)))) &&
    fLe r.1 r.2 && fLe lo r.2 && fLe r.1 hi

/-- tri_hit: t, u and v. -/
def triHit (o d : Vec) (tmin tmax : Nat) (y : List Vec) : Option (Nat × Nat × Nat) :=
  let y0 := y.getD 0 []
  let e1 := sub3 (y.getD 1 []) y0
  let e2 := sub3 (y.getD 2 []) y0
  let h := cross3 d e2
  let det := dot3 e1 h
  if fZero det then none
  else
    let s := sub3 o y0
    let u := fDiv (dot3 s h) det
    let q := cross3 s e1
    let v := fDiv (dot3 d q) det
    let t := fDiv (dot3 e2 q) det
    if fLe 0 u && fLe 0 v && fLe (fAdd u v) fOne && fLe tmin t && fLe t tmax then some (t, u, v) else none

end Sys2Proof.Machine
end

