-- ==== Sys2Proof/Machine/Scenes.lean ====
section
/-! DEFINITION. What the beam, ray and texture engines read during an operation (14_beams R309, R311, R312): single reads that take no lock and
wait for the FULL-LOCK ranges registered before, one event per record or texel, and the records of a scene. -/

namespace Sys2Proof.Machine

/-- Why an engine's read or a lane's work on a scene stops: the scene breaks a rule, a read fails, or a record at an address is still to be read. -/
inductive Bad where
  | scene
  | sfault
  | more (a n : Nat)
  deriving DecidableEq, Repr

/-- The state after reads of an engine, and what they gave. -/
abbrev Rd (α : Type) := State × Except Bad α

/-- Whether an earlier operation's FULL-LOCK holds a read of an operation back (R309). -/
def State.heldBack (s : State) (o : EngOp) (k n : Nat) : Bool := s.locks.any fun x => decide (x.1 < o.id) && x.2.full && s.hits k n x.2

/-- Reads runs of virtual addresses; one that a lock, or the window of the memory clock (16_stack R360), holds back is still to be read. -/
def State.engRuns (s : State) (o : EngOp) : List (Nat × Nat) → Rd (List (BitVec 8))
  | [] => (s, .ok [])
  | (va, n) :: rest =>
    match s.translateAs (32 * o.stk + o.core) o.asid (s.ctx o.asid).priv o.fenced .read va with
    | (t, .error _) => (t, .error .sfault)
    | (t, .ok k) =>
      if t.heldBack o k n || s.windowHolds k then (t, .error (.more va n))
      else match t.engRuns o rest with
        | (u, .ok bs) => (u, .ok (t.bytes k n ++ bs))
        | (u, .error e) => (u, .error e)

/-- The load event of a record or texel at a generic address, global or in its gang's local allocation (R309). -/
def State.engLoad (s : State) (o : EngOp) (a n : Nat) : Rd (List (BitVec 8)) :=
  let off := a % 2 ^ 48
  if a / 2 ^ 48 = 0 then
    if 2 ^ 48 < off + n then (s, .error .sfault) else s.engRuns o (cutVa off 3 n)
  else if a / 2 ^ 48 = 0xFFF0 then
    match s.gangOf? o.gid with
    | none => (s, .error .sfault)
    | some g =>
      let k := localKey (32 * o.stk + o.core) (g.base + off)
      if g.localk * 1024 < off + n then (s, .error .sfault)
      else if s.heldBack o k n then (s, .error (.more a n))
      else (s, .ok (s.bytes k n))
  else (s, .error .sfault)

/-- What an operation reads of a record or texel: what is on its tape, else it is still to be read. An operation without a tape looks at memory as it
stands. -/
def State.engRead (s : State) (o : EngOp) (a n : Nat) : Rd (List (BitVec 8)) :=
  match o.tape with
  | none => s.engLoad o a n
  | some l => (s, match l.lookup (a, n) with
    | none => .error (.more a n)
    | some none => .error .sfault
    | some (some bs) => .ok bs)

/-- The field of `n` bytes at an offset of a record. -/
def field (bs : List (BitVec 8)) (off n : Nat) : Nat := leNat ((bs.drop off).take n)
/-- `n` FP32 fields from an offset on. -/
def floats (bs : List (BitVec 8)) (off n : Nat) : List Nat := (List.range n).map fun i => field bs (off + 4 * i) 4

/-- A scene header (R311). -/
structure Hdr where
  nodes : Nat
  items : Nat
  nnode : Nat
  nitem : Nat
  level : Nat
  deriving DecidableEq, Repr

/-- A header's bytes, none where they break R311. -/
def parseHdr (bs : List (BitVec 8)) : Option Hdr :=
  let h : Hdr := { nodes := field bs 0 8, items := field bs 8 8, nnode := field bs 16 4, nitem := field bs 20 4, level := field bs 24 1 }
  if h.nodes % 32 != 0 || h.items % 16 != 0 || h.nnode == 0 || h.nitem == 0 || decide (1 < h.level) || field bs 25 39 != 0 then none else some h

/-- A header's address is in the global or local aperture and aligned to 64 bytes (R311). -/
def hdrPlace (a : Nat) : Bool := a % 64 == 0 && (a / 2 ^ 48 == 0 || a / 2 ^ 48 == 0xFFF0)

/-- The header of an instance's hierarchy. -/
def State.engHdr (s : State) (o : EngOp) (a : Nat) : Rd Hdr :=
  if !hdrPlace a then (s, .error .scene)
  else match s.engRead o a 64 with
    | (t, .error e) => (t, .error e)
    | (t, .ok bs) => (t, match parseHdr bs with | some h => .ok h | none => .error .scene)

/-- An item of an array, by its index. -/
def State.engItem (s : State) (o : EngOp) (base size i n : Nat) : Rd (List (BitVec 8)) :=
  if n ≤ i then (s, .error .scene) else s.engRead o ((base + size * i) % 2 ^ 64) size

/-- A node (R312). -/
structure Node where
  bmin  : Vec
  bmax  : Vec
  kind  : Nat
  count : Nat
  first : Nat
  deriving DecidableEq, Repr

def State.engNode (s : State) (o : EngOp) (h : Hdr) (i : Nat) : Rd Node :=
  match s.engItem o h.nodes 32 i h.nnode with
  | (t, .error e) => (t, .error e)
  | (t, .ok bs) => (t, .ok { bmin := floats bs 0 3, bmax := floats bs 12 3, kind := field bs 24 1, count := field bs 25 1, first := field bs 28 4 })

/-- The indices of a node's children, or of its items. -/
def Node.under (nd : Node) : List Nat := (List.range nd.count).map (nd.first + ·)

/-- A triangle's vertices and its ID. -/
def State.engTri (s : State) (o : EngOp) (h : Hdr) (i : Nat) : Rd (List Vec × Nat) :=
  match s.engItem o h.items 48 i h.nitem with
  | (t, .error e) => (t, .error e)
  | (t, .ok bs) => (t, .ok ([floats bs 0 3, floats bs 12 3, floats bs 24 3], field bs 36 4))

/-- An instance (R312). -/
structure InstRec where
  rows : List Nat
  blas : Nat
  id   : Nat
  mask : Nat
  deriving DecidableEq, Repr

def State.engInst (s : State) (o : EngOp) (h : Hdr) (i : Nat) : Rd InstRec :=
  match s.engItem o h.items 64 i h.nitem with
  | (t, .error e) => (t, .error e)
  | (t, .ok bs) => (t, .ok { rows := floats bs 0 12, blas := field bs 48 8, id := field bs 56 4, mask := field bs 60 1 })

/-- The items below nodes of a hierarchy, as memory stands, as far as they can be read. Of a tree every node is met once, so its nodes are fuel enough. -/
def State.below (s : State) (o : EngOp) (h : Hdr) : Nat → List Nat → List Nat
  | 0, _ => []
  | _, [] => []
  | fuel + 1, n :: ns => match (s.engNode { o with tape := none } h n).2 with
    | .error _ => s.below o h fuel ns
    | .ok nd => if nd.kind = 0 then s.below o h fuel (nd.under ++ ns) else nd.under ++ s.below o h fuel ns

/-- The items of the leaves that the engine comes to from nodes of a hierarchy. It reads each node; it prunes one only where no item below overlaps, as
`hit` says, and where it prunes is open (R313). On a scene that is not well-formed it leaves out what is not there: some subset of the items. -/
def State.reach (s : State) (o : EngOp) (h : Hdr) (key : List Nat) (hit : Nat → Bool) : Nat → List Nat → Rd (List Nat)
  | 0, _ => (s, .ok [])
  | _, [] => (s, .ok [])
  | fuel + 1, n :: ns => match s.engNode o h n with
    | (t, .error .scene) => t.reach o h key hit fuel ns
    | (t, .error e) => (t, .error e)
    | (t, .ok nd) =>
      if Config.prunes (h.nodes :: n :: key) && !((s.below o h h.nnode [n]).any hit) then t.reach o h key hit fuel ns
      else if nd.kind = 0 then t.reach o h key hit fuel (nd.under ++ ns)
      else match t.reach o h key hit fuel ns with
        | (u, .ok is) => (u, .ok (nd.under ++ is))
        | (u, .error e) => (u, .error e)

/-- The items that a search of a hierarchy looks at from index `i` on, in index order. -/
def State.reached (s : State) (o : EngOp) (h : Hdr) (key : List Nat) (hit : Nat → Bool) (i : Nat) : Rd (List Nat) :=
  match s.reach o h key hit h.nnode [0] with
  | (t, .error e) => (t, .error e)
  | (t, .ok is) => (t, .ok ((List.range h.nitem).filter fun j => decide (i ≤ j) && is.contains j))

/-- The hierarchy of an instance: a level-0 header (R311, R325). -/
def State.engBlas (s : State) (o : EngOp) (i : InstRec) : Rd Hdr :=
  match s.engHdr o i.blas with
  | (t, .error e) => (t, .error e)
  | (t, .ok h) => (t, if h.level = 0 then .ok h else .error .scene)

end Sys2Proof.Machine
end

