-- ==== Sys2Proof/Machine/Beams.lean ====
section
/-! DEFINITION. The beam pool and beam operations (14_beams R313 to R321). -/

namespace Sys2Proof.Machine

/-! ### The pool (R314 to R316) -/

/-- The key of a gang's beam pool: the top of its local allocation. -/
def Gang.poolKey (g : Gang) : Nat := localKey (32 * g.stk + g.core) (g.base + g.localk * 1024 - poolBytes g.pool)

/-- A header word of the pool at key `k`. -/
def State.pw (s : State) (k i : Nat) : Nat := s.rd (k + 4 * i) 4
def State.setPw (s : State) (k i v : Nat) : State := s.wr (k + 4 * i) 4 v
/-- A word of an entry, by its byte offset. -/
def State.pe (s : State) (k e off : Nat) : Nat := s.rd (k + 64 + 160 * e + off) 4
def State.setPe (s : State) (k e off v : Nat) : State := s.wr (k + 64 + 160 * e + off) 4 v

/-- STATE of an entry. -/
def State.peState (s : State) (k e : Nat) : Nat := s.pe k e 56 / 2 ^ 8 % 4

/-- Allocates the lowest free entry of a pool of `n` (R315, R316). -/
def State.pAlloc (s : State) (k n : Nat) : Nat × State :=
  let e := ((List.range n).find? fun i => s.peState k i == 0).getD 0
  let s := (s.setPw k 1 (s.pw k 1 + 2 ^ 32 - 1)).setPw k 3 (s.pw k 3 + 1)
  (e, s.setPw k 2 (max (s.pw k 2) (n - s.pw k 1)))

/-- Frees an entry: its 160 bytes are 0. -/
def State.pFree (s : State) (k e : Nat) : State :=
  let s := s.put (k + 64 + 160 * e) (List.replicate 160 0)
  (s.setPw k 1 (s.pw k 1 + 1)).setPw k 4 (s.pw k 4 + 1)

/-- Frees every child on a pending list from `c` on. -/
def State.pFreeList (s : State) (k n c : Nat) : Nat → State
  | 0 => s
  | fuel + 1 => if n ≤ c then s else (s.pFree k c).pFreeList k n (s.pe k c 72) fuel

/-- Empties the pending list of a made entry. -/
def State.pDrop (s : State) (k n r : Nat) : State := (s.pFreeList k n (s.pe k r 72) n).setPe k r 72 noIndex

/-- POLY of an entry: its NV vertices. -/
def State.pPoly (s : State) (k e : Nat) : List Vec :=
  (List.range (min (s.pe k e 56 / 2 ^ 12 % 16) 8)).map fun i => [s.pe k e (96 + 8 * i), s.pe k e (100 + 8 * i)]

/-- The frame of an entry, in world space. -/
def State.pFrame (s : State) (k e : Nat) : Frame :=
  let v (off : Nat) : Vec := [s.pe k e off, s.pe k e (off + 4), s.pe k e (off + 8)]
  { P := v 0, Q := v 12, E1 := v 24, E2 := v 36, tlo := s.pe k e 48, thi := s.pe k e 52 }

/-- Writes NV and the vertices of a polygon of at most 8 into a cleared entry. -/
def State.setPoly (s : State) (k e : Nat) (poly : List Vec) : State :=
  let s := s.setPe k e 56 (s.pe k e 56 + poly.length * 2 ^ 12)
  s.put (k + 64 + 160 * e + 96) (poly.flatMap fun v => leBytes 4 (v.c 0) ++ leBytes 4 (v.c 1))

/-- Makes entry `c` a child of `r` with a piece and the position to resume at (R315, R319). -/
def State.setChild (s : State) (k c r : Nat) (poly : List Vec) (pos : Nat × Nat) : State :=
  let s := s.put (k + 64 + 160 * c) (s.bytes (k + 64 + 160 * r) 64)
  let s := s.setPe k c 56 (s.pe k r 56 % 2 + s.pe k r 56 / 2 ^ 24 * 2 ^ 24 + 2 * 2 ^ 8)
  let s := ((s.setPe k c 64 pos.1).setPe k c 68 pos.2).setPe k c 72 noIndex
  (s.setPe k c 80 r).setPoly k c poly

/-- bpool.init (R316). -/
def State.poolInit (s : State) (k n : Nat) : State :=
  let s := s.put k (List.replicate (poolBytes n) 0)
  ((s.setPw k 0 n).setPw k 1 n).setPw k 7 1

/-- beam.make for one lane, from the words of its description (R316). -/
def State.beamMake (s : State) (k n : Nat) (d : List (BitVec 32)) : State × BitVec 32 :=
  let w (i : Nat) : Nat := (d.getD i 0).toNat
  let v (i : Nat) : Vec := [w i, w (i + 1), w (i + 2)]
  let f : Frame := { P := v 0, Q := v 3, E1 := v 6, E2 := v 9, tlo := w 12, thi := w 13 }
  if w 14 / 2 % 2 ^ 23 ≠ 0 then (s, 0xFFFFFFFD)
  else if !f.ok then (s, 0xFFFFFFFE)
  else if s.pw k 1 = 0 then (s, 0xFFFFFFFF)
  else
    let (e, s) := s.pAlloc k n
    let s := s.put (k + 64 + 160 * e) ((List.range 16).flatMap fun i => leBytes 4 (w i))
    let s := (s.setPe k e 56 (w 14 + 2 ^ 8)).setPe k e 72 noIndex
    (s.setPoly k e [[0, 0], [fOne, 0], [fOne, fOne], [0, fOne]], BitVec.ofNat 32 e)

/-- beam.free for one lane (R316). -/
def State.beamFree (s : State) (k n e : Nat) : State × BitVec 32 :=
  if e < n && s.peState k e == 1 then ((s.pDrop k n e).pFree k e, 0) else (s, 1)

/-- beam.stat for one lane (R316). -/
def State.beamStat (s : State) (k n x : Nat) : BitVec 32 :=
  let e := x % 2 ^ 16
  let w := x / 2 ^ 16 % 64
  if x / 2 ^ 22 = 0 && e = 0xFFFF && w ≤ 15 then BitVec.ofNat 32 (s.pw k w)
  else if x / 2 ^ 22 = 0 && e < n && w ≤ 39 then BitVec.ofNat 32 (s.pe k e (4 * w))
  else 0xFFFFFFFF

/-! ### The first item that overlaps a piece (R313, R318, R319) -/

/-- An overlapping item: its position and IDs, what it covers, and the position after it. -/
structure Hit where
  inst : Nat
  tri  : Nat
  iid  : Nat
  tid  : Nat
  ov   : Overlap
  next : Nat × Nat
  deriving DecidableEq, Repr

/-- The first of some triangles of a hierarchy that overlaps a piece: its index, ID and overlap. -/
def State.firstTri (s : State) (o : EngOp) (h : Hdr) (f : Frame) (piece : List Vec) : List Nat → Rd (Option (Nat × Nat × Overlap))
  | [] => (s, .ok none)
  | j :: js =>
    match s.engTri o h j with
    | (t, .error e) => (t, .error e)
    | (t, .ok (ys, id)) =>
      match overlap f piece ys with
      | some ov => (t, .ok (some (j, id, ov)))
      | none => t.firstTri o h f piece js

/-- A triangle overlaps a piece, as memory stands. -/
def State.triOverlaps (s : State) (o : EngOp) (h : Hdr) (f : Frame) (piece : List Vec) (j : Nat) : Bool :=
  match (s.engTri { o with tape := none } h j).2 with
  | .ok (ys, _) => (overlap f piece ys).isSome
  | .error _ => false

/-- A triangle of an instance overlaps a piece, as memory stands. -/
def State.instOverlaps (s : State) (o : EngOp) (h : Hdr) (f : Frame) (mask : Nat) (piece : List Vec) (i : Nat) : Bool :=
  let o := { o with tape := none }
  match (s.engInst o h i).2 with
  | .error _ => false
  | .ok x => x.mask &&& mask != 0 && (f.mapped x.rows).ok && (match (s.engBlas o x).2 with
    | .error _ => false
    | .ok b => (List.range b.nitem).any (s.triOverlaps o b (f.mapped x.rows) piece))

/-- The first triangle of a hierarchy, from index `j` on, that overlaps a piece. -/
def State.findTri (s : State) (o : EngOp) (h : Hdr) (f : Frame) (piece : List Vec) (j : Nat) : Rd (Option (Nat × Nat × Overlap)) :=
  match s.reached o h piece.flatten (s.triOverlaps o h f piece) j with
  | (t, .error e) => (t, .error e)
  | (t, .ok js) => t.firstTri o h f piece js

/-- The first instance from index `i` on that passes the MASK test, or NITEM. -/
def State.nextInst (s : State) (o : EngOp) (h : Hdr) (mask i : Nat) : Nat → Rd Nat
  | 0 => (s, .ok h.nitem)
  | fuel + 1 =>
    match s.engInst o h i with
    | (t, .error e) => (t, .error e)
    | (t, .ok x) => if x.mask &&& mask ≠ 0 then (t, .ok i) else t.nextInst o h mask (i + 1) fuel

/-- The search of some instances of a level-1 scene; the first triangle of instance `pos.1` is `pos.2`. -/
def State.findInst (s : State) (o : EngOp) (h : Hdr) (f : Frame) (mask : Nat) (piece : List Vec) (pos : Nat × Nat) : List Nat → Rd (Option Hit)
  | [] => (s, .ok none)
  | i :: is =>
    match s.engInst o h i with
    | (t, .error e) => (t, .error e)
    | (t, .ok x) =>
      if x.mask &&& mask = 0 then t.findInst o h f mask piece pos is
      else match t.engBlas o x with
        | (t, .error e) => (t, .error e)
        | (t, .ok b) =>
          let f' := f.mapped x.rows
          match if f'.ok then t.findTri o b f' piece (if i = pos.1 then pos.2 else 0) else (t, .ok none) with
          | (t, .error e) => (t, .error e)
          | (t, .ok none) => t.findInst o h f mask piece pos is
          | (t, .ok (some (n, tid, ov))) =>
            if n + 1 < b.nitem then (t, .ok (some { inst := i, tri := n, iid := x.id, tid := tid, ov := ov, next := (i, n + 1) }))
            else match t.nextInst o h mask (i + 1) (h.nitem - (i + 1)) with
              | (t, .error e) => (t, .error e)
              | (t, .ok m) => (t, .ok (some { inst := i, tri := n, iid := x.id, tid := tid, ov := ov, next := (m, 0) }))

/-- The first item at or after a position that overlaps a piece. -/
def State.findHit (s : State) (o : EngOp) (h : Hdr) (f : Frame) (mask : Nat) (piece : List Vec) (pos : Nat × Nat) : Rd (Option Hit) :=
  if h.level = 0 then
    match if pos.1 = 0 then s.findTri o h f piece pos.2 else (s, .ok none) with
    | (t, .error e) => (t, .error e)
    | (t, .ok none) => (t, .ok none)
    | (t, .ok (some (j, tid, ov))) => (t, .ok (some { inst := noIndex, tri := j, iid := noIndex, tid := tid, ov := ov, next := (0, j + 1) }))
  else match s.reached o h piece.flatten (s.instOverlaps o h f mask piece) pos.1 with
    | (t, .error e) => (t, .error e)
    | (t, .ok is) => t.findInst o h f mask piece pos is

/-! ### Running a lane (R319 to R321) -/

/-- A beam operation under way: the state with the pool as it stands, COUNT, and the records written so far. -/
structure BRun where
  s     : State
  count : Nat
  recs  : List (List (BitVec 8))

/-- What a beam operation works with: itself, the scene, its pool's key and entries, and CAP. -/
structure BeamEnv where
  o   : EngOp
  h   : Hdr
  k   : Nat
  n   : Nat
  cap : Nat

/-- The first eight vertices in the form of a record, padded with 0. -/
def polyWords (p : List Vec) : List Nat :=
  let ws := (p.take 8).flatMap fun v => [v.c 0, v.c 1]
  ws ++ List.replicate (16 - ws.length) 0

/-- NV in FLAGS of a record. -/
def nvFlag (p : List Vec) : Nat := if p.length ≤ 15 then p.length else 0

def BRun.write (b : BRun) (ws : List Nat) : BRun :=
  { b with count := b.count + 1, recs := b.recs ++ [ws.flatMap fun w => leBytes 4 w] }

/-- Writes a FRAG record (R320). -/
def BRun.frag (b : BRun) (e : BeamEnv) (lane r : Nat) (x : Hit) : BRun :=
  let c := x.ov.covered
  let m := mean c
  b.write ([x.inst, x.tri, x.iid, x.tid, x.ov.tnear, x.ov.tfar, m.c 0, m.c 1, 0, 0, 1 + nvFlag c * 2 ^ 8 + lane * 2 ^ 16, area c,
    b.s.pe e.k r 60, 0, 0, 0] ++ polyWords c)

/-- Writes a RAY record for a piece (R319, R320). -/
def BRun.ray (b : BRun) (e : BeamEnv) (lane r : Nat) (p : List Vec) (reason : Nat) (pos : Nat × Nat) : BRun :=
  let f := b.s.pFrame e.k r
  let m := mean p
  let x : Vec := [0, 1, 2].map fun i => fAdd (fAdd (f.Q.c i) (fMul (m.c 0) (f.E1.c i))) (fMul (m.c 1) (f.E2.c i))
  let ctl := b.s.pe e.k r 56
  b.write (f.P ++ [f.tlo] ++ sub3 x f.P ++ [f.thi, ctl % 2 + ctl / 2 ^ 24 * 2 ^ 24, b.s.pe e.k r 60,
    2 + (nvFlag p + reason * 2 ^ 4) * 2 ^ 8 + lane * 2 ^ 16, area p, pos.1, pos.2, 0, 0] ++ polyWords p)

def BRun.pool (b : BRun) (f : State → State) : BRun := { b with s := f b.s }

/-- The kept pieces of a split, in order: records, children, and the children made (R319). -/
def BRun.split (b : BRun) (e : BeamEnv) (lane r : Nat) (pos : Nat × Nat) : List (List Vec) → BRun × List Nat
  | [] => (b, [])
  | p :: ps =>
    if 8 < p.length then (b.ray e lane r p 2 pos).split e lane r pos ps
    else if b.s.pw e.k 1 = 0 then
      ((b.ray e lane r p 1 pos).pool fun s => s.setPw e.k 5 (s.pw e.k 5 + 1)).split e lane r pos ps
    else
      let (c, s) := b.s.pAlloc e.k e.n
      let (b, cs) := ({ b with s := s.setChild e.k c r p pos } : BRun).split e lane r pos ps
      (b, c :: cs)

/-- Links children at the head of a pending list, the first in order first. -/
def State.linkChildren (s : State) (k r : Nat) (cs : List Nat) : State :=
  cs.reverse.foldl (fun s c => (s.setPe k c 72 (s.pe k r 72)).setPe k r 72 c) s

/-- run(r) (R319): the status, or the reason why the lane stops. The fuel is beyond what any run of the hardware could use. -/
def BRun.run (e : BeamEnv) (lane r : Nat) : Nat → BRun → BRun × Except Bad Nat
  | 0, b => (b, .ok 0)
  | fuel + 1, b =>
    let c := b.s.pe e.k r 72
    if e.n ≤ c then (b, .ok 0)
    else
      let piece := b.s.pPoly e.k c
      let ctl := b.s.pe e.k r 56
      match b.s.findHit e.o e.h (b.s.pFrame e.k r) (ctl / 2 ^ 24) piece (b.s.pe e.k c 64, b.s.pe e.k c 68) with
      | (t, .error x) => ({ b with s := t }, .error x)
      | (t, .ok none) =>
        let t := t.setPe e.k r 76 (fAdd (t.pe e.k r 76) (area piece))
        BRun.run e lane r fuel { b with s := (t.setPe e.k r 72 (t.pe e.k c 72)).pFree e.k c }
      | (t, .ok (some x)) =>
        let b := { b with s := t }
        let vis := ctl % 2 = 0
        let big := (x.ov.kept.filter fun p => decide (8 < p.length)).length
        let need := (if vis then 1 else 0) + big + (x.ov.kept.length - big - (t.pw e.k 1 + 1))
        if e.cap < min b.count e.cap + need then (b, .ok 1)
        else
          let b := b.pool fun s =>
            let s := (s.setPe e.k r 72 (s.pe e.k c 72)).pFree e.k c
            s.setPw e.k 6 (s.pw e.k 6 + 1)
          let b := if vis then b.frag e lane r x else b
          let (b, cs) := b.split e lane r x.next x.ov.kept
          BRun.run e lane r fuel (b.pool fun s => s.linkChildren e.k r cs)

/-- One lane of beam.cast or beam.next (R321): its two result words, or the record that is still to be read. -/
def BRun.lane (b : BRun) (e : BeamEnv) (cast : Bool) (lane r : Nat) : Except (Nat × Nat) (BRun × Nat × Nat) :=
  if r = noIndex then .ok (b, 5 * 2 ^ 28, 0)
  else if e.n ≤ r || b.s.peState e.k r != 1 then .ok (b, 2 * 2 ^ 28, fNan)
  else
    let n0 := b.recs.length
    let done (b : BRun) (st : Nat) : BRun × Nat × Nat := (b, st * 2 ^ 28 + (b.recs.length - n0) % 2 ^ 28, b.s.pe e.k r 76)
    let b := if cast then b.pool fun s => (s.pDrop e.k e.n r).setPe e.k r 76 0 else b
    let full := cast && b.s.pw e.k 1 == 0
    if full && decide (e.cap ≤ b.count) then .ok (done b 6)
    else
      let b := if !cast then b
        else if full then (b.ray e lane r (b.s.pPoly e.k r) 1 (0, 0)).pool fun s => s.setPw e.k 5 (s.pw e.k 5 + 1)
        else
          let (c, s) := b.s.pAlloc e.k e.n
          { b with s := (s.setChild e.k c r (s.pPoly e.k r) (0, 0)).setPe e.k r 72 c }
      match BRun.run e lane r (2 ^ 256) b with
      | (b, .ok st) => .ok (done b st)
      | (b, .error .scene) => .ok (done b 4)
      | (b, .error .sfault) => .ok (done b 3)
      | (_, .error (.more a n)) => .error (a, n)

/-- The lanes of beam.cast or beam.next, in order. -/
def BRun.lanes (b : BRun) (e : BeamEnv) (cast : Bool) : List (Nat × Nat) → Except (Nat × Nat) (BRun × List (Nat × Nat × Nat))
  | [] => .ok (b, [])
  | (l, r) :: rest =>
    match b.lane e cast l r with
    | .error e => .error e
    | .ok (b, x, y) => match b.lanes e cast rest with
      | .error e => .error e
      | .ok (b, xs) => .ok (b, (l, x, y) :: xs)

end Sys2Proof.Machine
end

