-- ==== Sys2Proof/Machine/Rays.lean ====
section
/-! DEFINITION. Ray operations (14_beams R322 to R325): slots, the visit with its short stack, suspension and resumption along the trail. -/

namespace Sys2Proof.Machine

/-- The best hit of a ray: its key (t, INST, TRI), barycentrics and IDs. -/
structure RayHit where
  t    : Nat
  inst : Nat
  tri  : Nat
  u    : Nat
  v    : Nat
  iid  : Nat
  tid  : Nat
  deriving DecidableEq, Repr

/-- A place on the trail (R322): PATH as child numbers, LVL and TINST. -/
structure Trail where
  path  : List Nat := []
  lvl   : Nat := 0
  tinst : Nat := noIndex
  deriving DecidableEq, Repr

/-- Why a visit ends early: ANY is satisfied, the ray suspends, or the lane stops. -/
inductive RayEnd where
  | any
  | susp (t : Trail)
  | bad (b : Bad)
  deriving DecidableEq, Repr

/-- What a ray's visit works with (R323 to R325): the operation, MASK, TMIN, TMAX, whether it is ray.next, its starting hit, and ANY. -/
structure RayEnv where
  o    : EngOp
  mask : Nat
  tmin : Nat
  tmax : Nat
  next : Bool
  at_  : Nat × Nat × Nat
  any  : Bool

/-- The level being traversed: hierarchy, ray in its space, instance and its ID, and LVL where it is an instance's. -/
structure RayLevel where
  h    : Hdr
  o    : Vec
  d    : Vec
  inst : Nat := noIndex
  iid  : Nat := noIndex
  lvl  : Option Nat := none

/-- A ray under way. -/
structure RayRun where
  s    : State
  best : Option RayHit := none
  pos  : Trail := {}
  stop : Option RayEnd := none

/-- Lexicographic order of keys (t, INST, TRI). -/
def keyLt (a b : Nat × Nat × Nat) : Bool :=
  fLt a.1 b.1 || (fEq a.1 b.1 && (decide (a.2.1 < b.2.1) || (a.2.1 == b.2.1 && decide (a.2.2 < b.2.2))))

def RayRun.halt (r : RayRun) (s : State) (b : Bad) : RayRun := { r with s := s, stop := some (.bad b) }

/-- lo and hi of R325. -/
def RayEnv.lo (e : RayEnv) : Nat := if e.next then fMax e.tmin e.at_.1 else e.tmin
def RayRun.hi (r : RayRun) (e : RayEnv) : Nat := match r.best with | some b => fMin e.tmax b.t | none => e.tmax

/-- Tests one triangle and keeps the best hit (R324). -/
def RayRun.tri (r : RayRun) (e : RayEnv) (x : RayLevel) (j : Nat) : RayRun :=
  if r.stop.isSome then r
  else match r.s.engTri e.o x.h j with
    | (t, .error b) => r.halt t b
    | (t, .ok (ys, id)) =>
      let r := { r with s := t }
      match triHit x.o x.d e.tmin e.tmax ys with
      | none => r
      | some (th, u, v) =>
        let hit : RayHit := { t := th, inst := x.inst, tri := j, u := u, v := v, iid := x.iid, tid := id }
        let better := match r.best with
          | some b => keyLt (th, x.inst, j) (b.t, b.inst, b.tri)
          | none => true
        if e.next && !keyLt e.at_ (th, x.inst, j) then r
        else if e.any then { r with best := some hit, stop := some .any }
        else if better then { r with best := some hit }
        else r

/-- Enters an instance: its level, none where its MASK test fails (R312, R325). -/
def State.enterInst (s : State) (e : RayEnv) (x : RayLevel) (path : List Nat) (i : Nat) : Rd (Option RayLevel) :=
  match s.engInst e.o x.h i with
  | (t, .error b) => (t, .error b)
  | (t, .ok n) =>
    if n.mask &&& e.mask = 0 then (t, .ok none)
    else match t.engBlas e.o n with
      | (t, .error b) => (t, .error b)
      | (t, .ok h) => (t, .ok (some { h := h, o := mapped n.rows false x.o, d := mapped n.rows true x.d, inst := i, iid := n.id, lvl := some path.length }))

/-- Does something at each index of a range in turn, until the ray stops. -/
def RayRun.each (r : RayRun) (f : RayRun → Nat → RayRun) (i : Nat) : Nat → RayRun
  | 0 => r
  | n + 1 => if r.stop.isSome then r else (f r i).each f (i + 1) n

/-- Visits a node with `pend` entries held in the short stack (R325). The fuel is the depth that is left, with one more for an instance. -/
def RayRun.visit (e : RayEnv) : Nat → RayLevel → Nat → List Nat → Nat → RayRun → RayRun
  | 0, _, _, _, _, r => { r with stop := some (.bad .scene) }
  | fuel + 1, x, n, path, pend, r =>
    if r.stop.isSome then r
    else if 32 < path.length then { r with stop := some (.bad .scene) }
    else
      let here : Trail := { path := path, lvl := x.lvl.getD path.length, tinst := x.inst }
      let r := { r with pos := here }
      match r.s.engNode e.o x.h n with
      | (t, .error b) => r.halt t b
      | (t, .ok nd) =>
        let r := { r with s := t }
        if !boxPass nd.bmin nd.bmax x.o x.d e.lo (r.hi e) then r
        else if nd.kind = 0 then
          if nd.count < 2 || 4 < nd.count then { r with stop := some (.bad .scene) }
          else if 8 < pend + nd.count - 1 then { r with stop := some (.susp here) }
          else r.each (fun r c => RayRun.visit e fuel x (nd.first + c) (path ++ [c]) (pend + nd.count - 1 - c) r) 0 nd.count
        else if nd.kind ≠ 1 || nd.count = 0 then { r with stop := some (.bad .scene) }
        else if x.h.level = 0 then r.each (fun r j => r.tri e x j) nd.first nd.count
        else r.each (fun r i =>
          let r := { r with pos := { path := path, lvl := path.length, tinst := i } }
          match r.s.enterInst e x path i with
          | (t, .error b) => r.halt t b
          | (t, .ok none) => { r with s := t }
          | (t, .ok (some y)) => RayRun.visit e fuel y 0 path pend { r with s := t }) nd.first nd.count

/-- Fuel of a visit: 33 levels of nodes and one instance. -/
def visitFuel : Nat := 35

/-- The instances of a leaf from index `i` on, `n` of them (R325). -/
def RayRun.insts (r : RayRun) (e : RayEnv) (x : RayLevel) (path : List Nat) (i n : Nat) : RayRun :=
  r.each (fun r i =>
    let r := { r with pos := { path := path, lvl := path.length, tinst := i } }
    match r.s.enterInst e x path i with
    | (t, .error b) => r.halt t b
    | (t, .ok none) => { r with s := t }
    | (t, .ok (some y)) => RayRun.visit e visitFuel y 0 path 0 { r with s := t }) i n

/-- A step of the trail that a resume walks down: the level, the first child or item and their number, the one taken, the path above, and
whether it entered an instance. -/
structure Step where
  x     : RayLevel
  first : Nat
  count : Nat
  took  : Nat
  pre   : List Nat
  inst  : Bool

/-- Where a walk down the trail stands. -/
structure Walked where
  s     : State
  x     : RayLevel
  n     : Nat
  steps : List Step := []
  bad   : Option Bad := none

/-- Enters the instance that TINST names, where the walk has come to its leaf. -/
def Walked.enter (w : Walked) (e : RayEnv) (t : Trail) (depth : Nat) : Walked :=
  if w.bad.isSome || w.x.lvl.isSome || t.tinst == noIndex || depth != t.lvl then w
  else match w.s.engNode e.o w.x.h w.n with
    | (u, .error b) => { w with s := u, bad := some b }
    | (u, .ok nd) =>
      if nd.kind ≠ 1 || w.x.h.level ≠ 1 || t.tinst < nd.first || nd.first + nd.count ≤ t.tinst then { w with s := u, bad := some .scene }
      else match u.enterInst e w.x (t.path.take depth) t.tinst with
        | (u, .error b) => { w with s := u, bad := some b }
        | (u, .ok none) => { w with s := u, bad := some .scene }
        | (u, .ok (some y)) =>
          let st : Step := { x := w.x, first := nd.first, count := nd.count, took := t.tinst - nd.first, pre := t.path.take depth, inst := true }
          { w with s := u, x := y, n := 0, steps := st :: w.steps }

/-- Follows one level of PATH. -/
def Walked.down (w : Walked) (e : RayEnv) (t : Trail) (depth c : Nat) : Walked :=
  if w.bad.isSome then w
  else match w.s.engNode e.o w.x.h w.n with
    | (u, .error b) => { w with s := u, bad := some b }
    | (u, .ok nd) =>
      if nd.kind ≠ 0 || nd.count < 2 || 4 < nd.count || nd.count ≤ c then { w with s := u, bad := some .scene }
      else
        let st : Step := { x := w.x, first := nd.first, count := nd.count, took := c, pre := t.path.take depth, inst := false }
        { w with s := u, n := nd.first + c, steps := st :: w.steps }

/-- Walks down the whole trail. -/
def Walked.trail (w : Walked) (e : RayEnv) (t : Trail) (depth : Nat) : List Nat → Walked
  | [] => w.enter e t depth
  | c :: cs => ((w.enter e t depth).down e t depth c).trail e t (depth + 1) cs

/-- A resumed ray (R325): the trailed node with an empty stack, then what is pending along the trail, from below. -/
def RayRun.resume (r : RayRun) (e : RayEnv) (top : RayLevel) (t : Trail) : RayRun :=
  let w := ({ s := r.s, x := top, n := 0 } : Walked).trail e t 0 t.path
  let r := { r with s := w.s, pos := t }
  match w.bad with
  | some b => { r with stop := some (.bad b) }
  | none =>
    if t.tinst ≠ noIndex && w.x.lvl.isNone then { r with stop := some (.bad .scene) }
    else
      w.steps.foldl (fun r st =>
        if st.inst then r.insts e st.x st.pre (st.first + st.took + 1) (st.count - 1 - st.took)
        else r.each (fun r c => RayRun.visit e visitFuel st.x (st.first + c) (st.pre ++ [c]) (st.count - 1 - c) r) (st.took + 1) (st.count - 1 - st.took))
        (RayRun.visit e visitFuel w.x w.n t.path 0 r)

/-! ### Slots (R322, R325) -/

/-- A slot is bad (R322). -/
def slotBad (bs : List (BitVec 8)) : Bool :=
  let v := floats bs 0 8
  let d := v.drop 4 |>.take 3
  field bs 32 4 / 2 % 2 ^ 23 != 0 || !(v.take 3 ++ d).all fFinite || d.all fZero || !fLe 0 (v.getD 3 0) || !fLe (v.getD 3 0) (v.getD 7 0)

/-- Puts the bytes of a value at an offset of a record. -/
def setField (bs : List (BitVec 8)) (off n v : Nat) : List (BitVec 8) := bs.take off ++ leBytes n v ++ bs.drop (off + n)

/-- T to TID: a hit, or the miss values. -/
def setHit (bs : List (BitVec 8)) (h : Option RayHit) : List (BitVec 8) :=
  let ws := match h with
    | some h => [h.t, h.inst, h.tri, h.u, h.v, h.iid, h.tid]
    | none => [fInf, noIndex, noIndex, 0, 0, noIndex, noIndex]
  bs.take 48 ++ ws.flatMap (leBytes 4) ++ bs.drop 76

/-- PATH, DEPTH, LVL and TINST. -/
def setTrail (bs : List (BitVec 8)) (t : Trail) : List (BitVec 8) :=
  let path := t.path.reverse.foldl (fun a c => 4 * a + c) 0
  setField (setField (setField (setField bs 80 8 path) 88 1 t.path.length) 89 1 t.lvl) 92 4 t.tinst

def trailOf (bs : List (BitVec 8)) : Trail :=
  { path := (List.range (field bs 88 1)).map fun i => field bs 80 8 / 4 ^ i % 4, lvl := field bs 89 1, tinst := field bs 92 4 }

/-- The hit saved in a slot. -/
def hitOf (bs : List (BitVec 8)) : Option RayHit :=
  if field bs 56 4 = noIndex then none
  else some { t := field bs 48 4, inst := field bs 52 4, tri := field bs 56 4, u := field bs 60 4, v := field bs 64 4, iid := field bs 68 4, tid := field bs 72 4 }

/-- One lane of a ray operation (R325): the state, the slot's new bytes and the status, or the record that is still to be read.
A ray that finishes leaves an empty trail (20_prog_shadow R396). -/
def State.rayLane (s : State) (o : EngOp) (h : Hdr) (k : GfxKind) (bs : List (BitVec 8)) : Except (Nat × Nat) (State × List (BitVec 8) × Nat) :=
  let resume := k == .rayResume
  if resume && field bs 76 4 != 2 then .ok (s, bs, 6)
  else if !resume && slotBad bs then .ok (s, setField bs 76 4 3, 3)
  else
    let bs := if k == .rayNext then setField bs 100 12 (field bs 48 12) else bs
    let bs := if resume then bs else setField (setField bs 90 1 (if k == .rayNext then 1 else 0)) 96 4 0
    let bs := setField (setField bs 91 1 0) 112 16 0
    let next := field bs 90 1 == 1
    let v := floats bs 0 8
    let e : RayEnv := {
      o := o, mask := field bs 35 1, tmin := v.getD 3 0, tmax := v.getD 7 0, next := next
      at_ := (field bs 100 4, field bs 104 4, field bs 108 4), any := !next && field bs 32 4 % 2 == 1 }
    let top : RayLevel := { h := h, o := v.take 3, d := (v.drop 4).take 3 }
    let r : RayRun := { s := s, best := if resume then hitOf bs else none }
    let r := if resume then r.resume e top (trailOf bs) else RayRun.visit e visitFuel top 0 [] 0 r
    let out := setHit bs r.best
    match r.stop with
    | some (.bad (.more a n)) => .error (a, n)
    | some (.bad b) =>
      let st := if b = .scene then 4 else 5
      .ok (r.s, setField (setTrail out r.pos) 76 4 st, st)
    | some (.susp t) => .ok (r.s, setField (setField (setTrail out t) 96 4 (field bs 96 4 + 1)) 76 4 2, 2)
    | _ =>
      let st := if r.best.isSome then 1 else 0
      .ok (r.s, setField (setTrail out {}) 76 4 st, st)

end Sys2Proof.Machine
end

