-- ==== Sys2Proof/Machine/Raster.lean ====
section
/-! DEFINITION. Raster operations (14_beams R328, R329): exact coverage in units of 2^-150 pixel. -/

namespace Sys2Proof.Machine

/-- An FP32 coordinate in units of 2^-150; none for NaN and infinities. -/
def coord (a : Nat) : Option Int :=
  match fmtF32.decode a with
  | .fin n m e => let v : Int := (m * 2 ^ (e + 150).toNat : Nat); some (if n then -v else v)
  | _ => none

/-- A point of the plane, exactly. -/
abbrev Pt := Int × Int

/-- The edge value of C for A → B (R329). -/
def edgeValue (a b c : Pt) : Int := (b.1 - a.1) * (c.2 - a.2) - (b.2 - a.2) * (c.1 - a.1)

/-- The edge owns its centres. -/
def owns (a b : Pt) : Bool := decide (0 < b.2 - a.2) || (b.2 == a.2 && decide (b.1 - a.1 < 0))

/-- The triangle of a record with its vertices in the order of a positive area; none where it covers nothing. -/
def triangleOf (bs : List (BitVec 8)) : Option (Pt × Pt × Pt) :=
  match (floats bs 0 6).mapM coord with
  | some [x0, y0, x1, y1, x2, y2] =>
    let v := edgeValue (x0, y0) (x1, y1) (x2, y2)
    if v = 0 then none else if v < 0 then some ((x0, y0), (x2, y2), (x1, y1)) else some ((x0, y0), (x1, y1), (x2, y2))
  | _ => none

/-- Pixel (px, py) is covered. -/
def covers (t : Pt × Pt × Pt) (px py : Nat) : Bool :=
  let c : Pt := ((2 * px + 1 : Nat) * 2 ^ 149, (2 * py + 1 : Nat) * 2 ^ 149)
  let on (a b : Pt) : Bool := let e := edgeValue a b c; decide (0 < e) || (e == 0 && owns a b)
  on t.1 t.2.1 && on t.2.1 t.2.2 && on t.2.2 t.1

/-- The mask of a tile: row y in bits 32y to 32y + 31. -/
def tileMask (t : Pt × Pt × Pt) (w h tx ty : Nat) : List (BitVec 32) :=
  (List.range 32).map fun y => maskOf fun x =>
    decide (32 * tx + x < w) && decide (32 * ty + y < h) && covers t (32 * tx + x) (32 * ty + y)

def maskCount (m : List (BitVec 32)) : Nat := (m.map fun r => (lanesOf r).length).sum

/-- The tiles of one dimension of a screen whose squares meet an interval. -/
def tilesMeeting (n : Nat) (lo hi : Int) : List Nat :=
  (List.range ((n + 31) / 32)).filter fun t => decide ((32 * t : Nat) * 2 ^ 150 ≤ hi) && decide (lo ≤ ((32 * t + 32 : Nat) : Int) * 2 ^ 150)

/-- The tiles in the order of R329: row-major. -/
def tilesOf (t : Pt × Pt × Pt) (w h : Nat) : List (Nat × Nat) :=
  let xs := [t.1.1, t.2.1.1, t.2.2.1]
  let ys := [t.1.2, t.2.1.2, t.2.2.2]
  (tilesMeeting h (ys.foldl min t.1.2) (ys.foldl max t.1.2)).flatMap fun ty =>
    (tilesMeeting w (xs.foldl min t.1.1) (xs.foldl max t.1.1)).map fun tx => (ty, tx)

/-- One lane of a raster operation (R329): the record's new bytes and the lane's result; none where nothing changes. -/
def rastLane (next : Bool) (w h : Nat) (bs : List (BitVec 8)) : Option (List (BitVec 8) × BitVec 32) :=
  let st := field bs 28 4
  if next && st == 2 then none
  else
    let from_ : Nat × Nat := (field bs 26 2, field bs 24 2)
    let after (p : Nat × Nat) : Bool := !(next && st == 1) || decide (from_.1 < p.1) || (p.1 == from_.1 && decide (from_.2 < p.2))
    let full (t : Pt × Pt × Pt) (p : Nat × Nat) : Option ((Nat × Nat) × List (BitVec 32)) :=
      let m := tileMask t w h p.2 p.1
      if maskCount m = 0 then none else some (p, m)
    let found := (triangleOf bs).bind fun t => ((tilesOf t w h).filter after).findSome? (full t)
    let bs := setField bs 36 28 0
    match found with
    | some (p, m) =>
      some ((setField (setField (setField (setField bs 24 2 p.2) 26 2 p.1) 28 4 1) 32 4 (maskCount m)).take 64 ++ m.flatMap (fun r => leBytes 4 r.toNat),
        BitVec.ofNat 32 (maskCount m))
    | none => some ((setField (setField bs 28 4 2) 32 4 0).take 64 ++ leBytes 128 0, 0xFFFFFFFF)

end Sys2Proof.Machine
end

