-- ==== Sys2Proof/Machine/Textures.lean ====
section
/-! DEFINITION. Texture operations (14_beams R326, R327). -/

namespace Sys2Proof.Machine

/-- A texture descriptor (R326). -/
structure Tex where
  base   : Nat
  logw   : Nat
  logh   : Nat
  levels : Nat
  fmt    : Nat
  wrapU  : Bool
  wrapV  : Bool
  deriving DecidableEq, Repr

/-- A descriptor's bytes, none where a field breaks its range or a reserved bit is 1. -/
def parseTex (bs : List (BitVec 8)) : Option Tex :=
  let t : Tex := { base := field bs 0 8, logw := field bs 8 1, logh := field bs 9 1, levels := field bs 10 1, fmt := field bs 11 1,
                   wrapU := field bs 12 1 % 2 == 1, wrapV := field bs 12 1 / 2 % 2 == 1 }
  if 2 ^ 48 ≤ t.base || 12 < t.logw || 12 < t.logh || t.levels == 0 || max t.logw t.logh + 1 < t.levels || 2 < t.fmt || 3 < field bs 12 1
    || field bs 13 51 != 0 then none else some t

def Tex.width (t : Tex) (m : Nat) : Nat := max (2 ^ t.logw / 2 ^ m) 1
def Tex.height (t : Tex) (m : Nat) : Nat := max (2 ^ t.logh / 2 ^ m) 1
/-- Bytes of a texel. -/
def Tex.size (t : Tex) : Nat := 4 * 2 ^ t.fmt
/-- Byte offset of a level. -/
def Tex.levelAt (t : Tex) (m : Nat) : Nat := ((List.range m).map fun i => t.width i * t.height i * t.size).sum

/-- A channel of a texel as FP32. -/
def Tex.channel (t : Tex) (bs : List (BitVec 8)) (c : Nat) : Nat :=
  match t.fmt with
  | 0 => fDiv (fOfInt (field bs c 1)) (fOfInt 255)
  | 1 => (fmtF32.put .ne (fmtF16.decode (field bs (2 * c) 2))).bits
  | _ => field bs (4 * c) 4

/-- The greatest integer not above an FP32 value; none for NaN and infinities. -/
def fFloor (a : Nat) : Option Int :=
  match fmtF32.decode a with
  | .fin n m e =>
    let v : Int := if n then -(m : Int) else m
    some (if 0 ≤ e then v * 2 ^ e.toNat else v / (2 ^ (-e).toNat : Nat))
  | _ => none

/-- The least integer not below an FP32 value; none for NaN and infinities. -/
def fCeil (a : Nat) : Option Int := (fFloor (fNeg a)).map fun x => -x

/-- x − floor(x). -/
def fFrac (a : Nat) : Nat := fSub a (frndBits .d a).bits

/-- A texel index wrapped or clamped. -/
def texIndex (clamp : Bool) (i : Int) (n : Nat) : Nat := if clamp then (max 0 (min i (n - 1))).toNat else (i % n).toNat

/-- Reads a texel: its four channels. -/
def State.texel (s : State) (o : EngOp) (t : Tex) (m : Nat) (ix iy : Int) : Rd (List Nat) :=
  let x := texIndex t.wrapU ix (t.width m)
  let y := texIndex t.wrapV iy (t.height m)
  match s.engRead o (t.base + t.levelAt m + (y * t.width m + x) * t.size) t.size with
  | (u, .error e) => (u, .error e)
  | (u, .ok bs) => (u, .ok ((List.range 4).map (t.channel bs)))

/-- Several texels of a level. -/
def State.texels (s : State) (o : EngOp) (t : Tex) (m : Nat) : List (Int × Int) → Rd (List (List Nat))
  | [] => (s, .ok [])
  | p :: ps =>
    match s.texel o t m p.1 p.2 with
    | (u, .error e) => (u, .error e)
    | (u, .ok c) => match u.texels o t m ps with
      | (u, .error e) => (u, .error e)
      | (u, .ok cs) => (u, .ok (c :: cs))

def fLerp (a b f : Nat) : Nat := fAdd a (fMul f (fSub b a))

/-- bilinear (R327); coordinates that overflow give NaN, as their fractions do. -/
def State.bilinear (s : State) (o : EngOp) (t : Tex) (m u v : Nat) : Rd (List Nat) :=
  let x := fSub (fMul u (fOfInt (t.width m))) fHalf
  let y := fSub (fMul v (fOfInt (t.height m))) fHalf
  match fFloor x, fFloor y with
  | some x0, some y0 =>
    match s.texels o t m [(x0, y0), (x0 + 1, y0), (x0, y0 + 1), (x0 + 1, y0 + 1)] with
    | (w, .error e) => (w, .error e)
    | (w, .ok cs) =>
      let c (i k : Nat) : Nat := (cs.getD i []).getD k 0
      (w, .ok ((List.range 4).map fun k =>
        fLerp (fLerp (c 0 k) (c 1 k) (fFrac x)) (fLerp (c 2 k) (c 3 k) (fFrac x)) (fFrac y)))
  | _, _ => (s, .ok [fNan, fNan, fNan, fNan])

/-- A value clamped to the levels of a texture. -/
def Tex.clampLevel (t : Tex) (a : Nat) : Nat := if fLt a 0 then 0 else if fLt (fOfInt (t.levels - 1)) a then fOfInt (t.levels - 1) else a

/-- lod (R327): the level, k, and whether the major axis is the first. `free` chooses k where both lengths overflow. -/
def Tex.lod (t : Tex) (free : Nat) (u1 v1 u2 v2 : Nat) : Nat × Nat × Bool :=
  let len (u v : Nat) : Nat :=
    let x := fMul u (fOfInt (2 ^ t.logw : Nat))
    let y := fMul v (fOfInt (2 ^ t.logh : Nat))
    (sqrtBits (fAdd (fMul x x) (fMul y y))).bits
  let l1 := len u1 v1
  let l2 := len u2 v2
  let lmaj := fMax l1 l2
  let lmin := fMin l1 l2
  let q := fDiv lmaj lmin
  let k := if fZero lmin then 16 else if isNanF32 q then free % 16 + 1 else (match fCeil q with
    | some c => (min 16 c).toNat
    | none => 16)
  let lam := if fZero lmaj then 0 else (log2Bits (fDiv lmaj (fOfInt k))).bits
  (t.clampLevel lam, k, fLe l2 l1)

/-- A level number from an FP32 level in range. -/
def levelOf (a : Nat) : Nat := ((fFloor a).getD 0).toNat

/-- The footprint's samples, in order. -/
def State.samples (s : State) (o : EngOp) (t : Tex) (m : Nat) : List (Nat × Nat) → Rd (List (List Nat))
  | [] => (s, .ok [])
  | p :: ps =>
    match s.bilinear o t m p.1 p.2 with
    | (u, .error e) => (u, .error e)
    | (u, .ok c) => match u.samples o t m ps with
      | (u, .error e) => (u, .error e)
      | (u, .ok cs) => (u, .ok (c :: cs))

/-- One lane of a texture operation, from the descriptor's bytes and the operand words: its results, or the texel that is still to be read. -/
def State.texLane (s : State) (o : EngOp) (k : GfxKind) (desc : List (BitVec 8)) (r : List Nat) : Except (Nat × Nat) (State × List Nat) :=
  let nan : List Nat := if k = .texLod then [fNan] else [fNan, fNan, fNan, fNan]
  let w (i : Nat) : Nat := r.getD i 0
  let answer (x : Rd (List Nat)) (f : List Nat → List Nat) : Except (Nat × Nat) (State × List Nat) :=
    match x with
    | (_, .error (.more a n)) => .error (a, n)
    | (t, .error _) => .ok (t, nan)
    | (t, .ok c) => .ok (t, f c)
  match parseTex desc with
  | none => .ok (s, nan)
  | some t =>
    if k = .texSamp then
      if !(fFinite (w 0) && fFinite (w 1) && (fFinite (w 2) || isNanF32 (w 2))) then .ok (s, nan)
      else
        let lam := if isNanF32 (w 2) then 0 else (frndBits .d (w 2)).bits
        answer (s.bilinear o t (levelOf (t.clampLevel lam)) (w 0) (w 1)) id
    else if !(r.all fFinite) then .ok (s, nan)
    else
      let (lev, n, first) := t.lod (Config.footprint (desc.map BitVec.toNat ++ r)) (w 2) (w 3) (w 4) (w 5)
      if k = .texLod then .ok (s, [lev])
      else
        let du := if first then w 2 else w 4
        let dv := if first then w 3 else w 5
        let pts := (List.range n).map fun (i : Nat) =>
          let x := fDiv (fOfInt (2 * (i : Int) + 1 - n)) (fOfInt (2 * n : Nat))
          (fAdd (w 0) (fMul x du), fAdd (w 1) (fMul x dv))
        answer (match s.samples o t (levelOf lev) pts with
          | (u, .error e) => (u, .error e)
          | (u, .ok cs) => (u, .ok ((List.range 4).map fun c => fDiv (sumC (cs.map fun x => x.getD c 0)) (fOfInt n)))) id

end Sys2Proof.Machine
end

