-- ==== Sys2Proof/Machine/Graphics.lean ====
section
/-! DEFINITION. Graphics operations as engine operations (14_beams R308 to R311, R316, R320 to R323, R326, R328): their checks and reads at
registration, and what each does when its engine runs it. An operation keeps each lane's operand words, followed by those of the descriptor
it read for the lane, and its uniform block, followed by the words of the scene header. -/

namespace Sys2Proof.Machine

/-- The almanac engine class (03_tasks R82, R308). -/
def GfxKind.cls : GfxKind → Nat
  | .bpoolInit | .beamMake | .beamCast | .beamNext | .beamFree | .beamStat => 0
  | .rayCast | .rayNext | .rayResume => 1
  | .texSamp | .texFoot | .texLod => 2
  | .rastTri | .rastNext => 3

/-- Whether the operation touches the beam pool. -/
def GfxKind.pool (k : GfxKind) : Bool := k.cls == 0

/-- Registers that the completion writes, from vD on. -/
def GfxKind.results : GfxKind → Nat
  | .bpoolInit => 0
  | .beamCast | .beamNext => 2
  | .texSamp | .texFoot => 4
  | _ => 1

/-- Operand words of a lane. -/
def GfxKind.words : GfxKind → Nat
  | .bpoolInit => 0
  | .beamCast | .beamNext | .beamFree | .beamStat => 1
  | .texSamp => 5
  | .texFoot | .texLod => 8
  | _ => 2

/-- Words of the uniform block. -/
def GfxKind.block : GfxKind → Nat
  | .beamCast | .beamNext => 3
  | .rayCast | .rayNext | .rayResume => 1
  | .rastTri | .rastNext => 2
  | _ => 0

/-- The address that a lane's first two operand words hold. -/
def addrOf (ws : List (BitVec 32)) : Nat := (ws.getD 1 0).toNat * 2 ^ 32 + (ws.getD 0 0).toNat

/-- Words of bytes. -/
def words32 (bs : List (BitVec 8)) (n : Nat) : List (BitVec 32) := (List.range n).map fun i => BitVec.ofNat 32 (field bs (4 * i) 4)
def words64 (bs : List (BitVec 8)) (n : Nat) : List (BitVec 64) := (List.range n).map fun i => BitVec.ofNat 64 (field bs (8 * i) 8)

/-! ### Registration -/

/-- The scene header of an operation (R311): its words, or the state after the failure. -/
def State.sceneHdr (s : State) (a : BitVec 64) : Except State (State × List (BitVec 64)) :=
  let bad := s.progErr 0x0E03 a
  let take_ (t : State) (k : Nat) : Except State (State × List (BitVec 64)) :=
    if s.windowHolds k then .error s.retry
    else match t.conflicts k 64 false with
    | [] => if (parseHdr (t.bytes k 64)).isSome then .ok (t, words64 (t.bytes k 64) 8) else .error (t.progErr 0x0E03 a)
    | ls => .error (t.heldByLocks ls)
  if !hdrPlace a.toNat then .error bad
  else if a.toNat / 2 ^ 48 = 0 then
    match s.translate .read a.toNat with
    | (t, .ok k) => take_ t k
    | (t, .error c) => .error (t.park 3 c a 0 t.me.cur.mask)
  else match s.place a.toNat 64 with
    | .ok k => take_ s k
    | .error _ => .error bad

/-- The checks of a lane's address (R309): the code by which it goes, or where it lies. An aperture that does not exist is no other space: the checks of
08_memory R194 come in their order. -/
def State.gfxSteer (s : State) (l a size align : Nat) : Except Nat Spot :=
  match s.steer l .plain size align false (BitVec.ofNat 64 a) with
  | .error c => .error (if a / 2 ^ 48 = 0 || a / 2 ^ 48 = 0xFFF0 || c = 1 then c else 2)
  | .ok x => if a / 2 ^ 48 = 0 || a / 2 ^ 48 = 0xFFF0 then .ok x else .error 2

/-- The lanes that fail their checks, and those that pass. -/
def State.gfxLanes (s : State) (size align : Nat) (ls : List (Nat × List (BitVec 32))) :
    List (Nat × Nat × BitVec 64) × List (Nat × List (BitVec 32) × Spot) :=
  let ps := ls.map fun x => (x, s.gfxSteer x.1 (addrOf x.2) size align)
  (ps.filterMap fun p => match p.2 with | .error c => some (p.1.1, c, BitVec.ofNat 64 (addrOf p.1.2)) | .ok _ => none,
   ps.filterMap fun p => match p.2 with | .ok x => some (p.1.1, p.1.2, x) | .error _ => none)

/-- Where the lanes' descriptors lie: lane, words, key or fault. -/
def State.descKeys (s : State) : List (Nat × List (BitVec 32) × Spot) → State × List (Nat × List (BitVec 32) × Except Nat Nat)
  | [] => (s, [])
  | (l, ws, x) :: rest =>
    let (t, k) : State × Except Nat Nat := match x with
      | .global va => s.translate .read va
      | .mem k => (s, .ok k)
      | _ => (s, .error 2)
    let (u, ks) := t.descKeys rest
    (u, (l, ws, k) :: ks)

/-- An operation whose lanes name descriptors of 64 bytes, read at registration (R309, R316, R326). -/
def State.evalDesc (s : State) (k : GfxKind) (d : Nat) (ls : List (Nat × List (BitVec 32))) : Eval :=
  let (offs, good) := s.gfxLanes 64 64 ls
  let (t, ks) := s.descKeys good
  if ks.any fun x => x.2.2.toOption.any s.windowHolds then .no s.retry
  else match ks.flatMap fun x => match x.2.2 with | .ok a => t.conflicts a 64 false | .error _ => [] with
  | h :: hs => .no (t.heldByLocks (h :: hs))
  | [] =>
    let t := t.lanesOff offs
    match ks.findSome? fun x => match x.2.2 with | .error c => some (c, addrOf x.2.1) | .ok _ => none with
    | some (c, a) => .no (t.park 3 c (BitVec.ofNat 64 a) 0 t.me.cur.mask)
    | none =>
      let lanes := ks.filterMap fun x => match x.2.2 with
        | .ok a => some (x.1, x.2.1 ++ words32 (t.bytes a 64) 16)
        | .error _ => none
      if lanes = [] then .no t
      else .ok t { t.newOp k.cls 1 (.gfx k d lanes []) (maskOfLanes (lanes.map Prod.fst)) with
        dregs := (List.range k.results).map (d + ·), pool := k.pool }

/-- A range of a graphics operation that is its destination: the parts to translate, or the place. -/
def State.destParts (s : State) (a n : Nat) (bounce : Bool) : Except Nat (List Part × List Seg × List Rng) :=
  if a / 2 ^ 48 = 0 then
    if 2 ^ 48 < a + n then .error 1
    else .ok ((cutVa a (n / 2 ^ 16 + 2) n).map fun c => { addr := c.1, len := c.2, write := true, bounce := bounce && c.1 != a }, [], [])
  else match s.place a n with
    | .error c => .error c
    | .ok k => .ok ([], [{ addr := a, len := n, key := k }], [{ base := k, len := n, full := true }])

/-- An operation whose lanes name records in one hull (R322, R328): `size` bytes each. -/
def State.evalHull (s : State) (k : GfxKind) (d : Nat) (ls : List (Nat × List (BitVec 32))) (block : List (BitVec 64)) (size align : Nat) : Eval :=
  let (offs, good) := s.gfxLanes size align ls
  let t := s.lanesOff offs
  match good with
  | [] => .no t
  | x :: _ =>
    let as := good.map fun y => addrOf y.2.1
    let lo := as.foldl min (addrOf x.2.1)
    let hi := as.foldl max 0 + size
    let lanes := good.map fun y => (y.1, y.2.1)
    let o := { t.newOp k.cls 1 (.gfx k d lanes block) (maskOfLanes (lanes.map Prod.fst)) with dregs := (List.range k.results).map (d + ·) }
    match t.destParts lo (hi - lo) false with
    | .error c => .no (t.allOff t.me.cur.mask c lo)
    | .ok (gs, segs, rs) => t.finish o gs segs rs

/-- The hull of the lanes' records exceeds 64 KiB (R310). -/
def hullBad (ls : List (Nat × List (BitVec 32))) (size : Nat) : Bool :=
  let as := ls.map fun x => addrOf x.2
  decide (2 ^ 16 < as.foldl max 0 + size - as.foldl min (as.headD 0))

/-- beam.cast and beam.next with their block (R310, R320). -/
def State.evalCast (s : State) (k : GfxKind) (d : Nat) (ls : List (Nat × List (BitVec 32))) (block : List (BitVec 64)) : Eval :=
  let buf := block.getD 1 0
  let cap := (block.getD 2 0).toNat
  let bad := buf.toNat % 128 != 0 || !(buf.toNat / 2 ^ 48 == 0 || buf.toNat / 2 ^ 48 == 0xFFF0)
  if bad then .no (s.progErr 0x0E02 buf)
  else if cap = 0 || 131071 < cap then .no (s.progErr 0x0E02 (block.getD 2 0))
  else match s.sceneHdr (block.getD 0 0) with
    | .error t => .no t
    | .ok (t, h) =>
      match t.destParts buf.toNat (128 + 128 * cap) true with
      | .error c => .no (t.allOff t.me.cur.mask c buf.toNat)
      | .ok (gs, segs, rs) =>
        t.finish { t.newOp k.cls 1 (.gfx k d ls (block ++ h)) (maskOfLanes (ls.map Prod.fst)) with dregs := [d, d + 1], pool := true } gs segs rs

/-- The checks of a graphics operation with its operands, in order (R309, R310). -/
def State.evalGfx (s : State) (k : GfxKind) (d : Nat) (lanes : List (Nat × List (BitVec 32))) (block : List (BitVec 64)) : Eval :=
  let ls := lanes.map fun x => (x.1, x.2.take k.words)
  let b := block.take k.block
  let first := BitVec.ofNat 64 ((ls.map fun x => addrOf x.2).headD 0)
  if k.pool && (s.gang.pool == 0 || (k != .bpoolInit && !s.gang.poolHeld)) then .no (s.progErr 0x0E01 0)
  else match k with
    | .bpoolInit | .beamFree | .beamStat =>
      .ok s { s.newOp 0 1 (.gfx k d ls []) (maskOfLanes (ls.map Prod.fst)) with dregs := (List.range k.results).map (d + ·), pool := true }
    | .beamMake | .texSamp | .texFoot | .texLod => s.evalDesc k d ls
    | .beamCast | .beamNext => s.evalCast k d ls b
    | .rayCast | .rayNext | .rayResume =>
      match s.sceneHdr (b.getD 0 0) with
      | .error t => .no t
      | .ok (t, h) => if hullBad ls 128 then .no (t.progErr 0x0E04 first) else t.evalHull k d ls (b ++ h) 128 128
    | .rastTri | .rastNext =>
      let w := (b.getD 0 0).toNat
      let h := (b.getD 1 0).toNat
      if hullBad ls 192 then .no (s.progErr 0x0E04 first)
      else if w = 0 || 65536 < w then .no (s.progErr 0x0E05 (b.getD 0 0))
      else if h = 0 || 65536 < h then .no (s.progErr 0x0E05 (b.getD 1 0))
      else s.evalHull k d ls b 192 64

/-! ### What the engine does -/

/-- Bytes of an operation's ranges, and bytes to write there. -/
def State.segBytes (s : State) (gs : List Seg) (a n : Nat) : List (BitVec 8) :=
  (List.range n).map fun i => match segKey gs (a + i) with | some k => s.byte k | none => 0
def segWrites (gs : List Seg) (a : Nat) (bs : List (BitVec 8)) : List (Nat × BitVec 8) :=
  (runAt a bs).filterMap fun w => (segKey gs w.1).map fun k => (k, w.2)

/-- The scene header among the words of a block. -/
def hdrOf (block : List (BitVec 64)) (k : GfxKind) : Hdr :=
  (parseHdr ((block.drop k.block).flatMap fun w => leBytes 8 w.toNat)).getD ⟨0, 0, 0, 0, 0⟩

/-- The lanes of a ray operation: state, writes, statuses. -/
def State.rayLanes (s : State) (o : EngOp) (h : Hdr) (k : GfxKind) : List (Nat × List (BitVec 32)) →
    Except (Nat × Nat) (State × List (Nat × BitVec 8) × List (Nat × Nat))
  | [] => .ok (s, [], [])
  | (l, ws) :: rest =>
    match s.rayLane o h k (s.segBytes o.segs (addrOf ws) 128) with
    | .error e => .error e
    | .ok (t, bs, st) => match t.rayLanes o h k rest with
      | .error e => .error e
      | .ok (u, w, rs) => .ok (u, (if st = 6 then [] else segWrites o.segs (addrOf ws) bs) ++ w, (l, st) :: rs)

/-- The lanes of a texture operation. -/
def State.texLanes (s : State) (o : EngOp) (k : GfxKind) : List (Nat × List (BitVec 32)) → Except (Nat × Nat) (State × List (Nat × List Nat))
  | [] => .ok (s, [])
  | (l, ws) :: rest =>
    let desc := (ws.drop k.words).flatMap fun w => leBytes 4 w.toNat
    match s.texLane o k desc (((ws.take k.words).drop 2).map BitVec.toNat) with
    | .error e => .error e
    | .ok (t, cs) => match t.texLanes o k rest with
      | .error e => .error e
      | .ok (u, rs) => .ok (u, (l, cs) :: rs)

/-- The effect of a graphics operation (R308): the state after its reads and pool effect, the bytes it writes and the registers its completion
writes, or the record that is still to be read. -/
def State.gfxRun (s : State) (o : EngOp) (k : GfxKind) (d : Nat) (lanes : List (Nat × List (BitVec 32))) (block : List (BitVec 64)) :
    Except (Nat × Nat) (State × List (Nat × BitVec 8) × List (Nat × Nat × BitVec 32)) :=
  match s.gangOf? o.gid with
  | none => .ok (s, [], [])
  | some g =>
    let pk := g.poolKey
    let arg (ws : List (BitVec 32)) : Nat := (ws.getD 0 0).toNat
    match k with
    | .bpoolInit => .ok (s.poolInit pk g.pool, [], [])
    | .beamMake =>
      let (t, rs) := lanes.foldl (fun (r : State × List (Nat × Nat × BitVec 32)) x =>
        let (t, v) := r.1.beamMake pk g.pool (x.2.drop 2)
        (t, r.2 ++ [(d, x.1, v)])) (s, [])
      .ok (t, [], rs)
    | .beamFree =>
      let (t, rs) := lanes.foldl (fun (r : State × List (Nat × Nat × BitVec 32)) x =>
        let (t, v) := r.1.beamFree pk g.pool (arg x.2)
        (t, r.2 ++ [(d, x.1, v)])) (s, [])
      .ok (t, [], rs)
    | .beamStat => .ok (s, [], lanes.map fun x => (d, x.1, s.beamStat pk g.pool (arg x.2)))
    | .beamCast | .beamNext =>
      let buf := (block.getD 1 0).toNat
      let c0 := leNat (s.segBytes o.segs buf 4)
      let e : BeamEnv := { o := o, h := hdrOf block k, k := pk, n := g.pool, cap := (block.getD 2 0).toNat }
      match ({ s := s, count := c0, recs := [] } : BRun).lanes e (k == .beamCast) (lanes.map fun x => (x.1, arg x.2)) with
      | .error e => .error e
      | .ok (b, rs) =>
        .ok (b.s, segWrites o.segs buf (leBytes 4 b.count) ++
            (List.range b.recs.length).flatMap (fun i => segWrites o.segs (buf + 128 * (c0 + 1 + i)) (b.recs.getD i [])),
          rs.flatMap fun x => [(d, x.1, BitVec.ofNat 32 x.2.1), (d + 1, x.1, BitVec.ofNat 32 x.2.2)])
    | .rayCast | .rayNext | .rayResume =>
      (s.rayLanes o (hdrOf block k) k lanes).map fun r => (r.1, r.2.1, r.2.2.map fun x => (d, x.1, BitVec.ofNat 32 x.2))
    | .texSamp | .texFoot | .texLod =>
      (s.texLanes o k lanes).map fun r =>
        (r.1, [], r.2.flatMap fun x => (List.range x.2.length).map fun i => (d + i, x.1, BitVec.ofNat 32 (x.2.getD i 0)))
    | .rastTri | .rastNext =>
      let rs := lanes.filterMap fun x =>
        (rastLane (k == .rastNext) (block.getD 0 0).toNat (block.getD 1 0).toNat (s.segBytes o.segs (addrOf x.2) 192)).map fun r => (x, r)
      .ok (s, rs.flatMap (fun r => segWrites o.segs (addrOf r.1.2) r.2.1), rs.map fun r => (d, r.1.1, r.2.2))

/-! ### The instructions -/

/-- A lane's words from a register on. -/
def State.laneWords (s : State) (l : Nat) (a : BitVec 7) (n : Nat) : List (BitVec 32) := (List.range n).map fun i => s.me.regs.getV (a.toNat + i) l

/-- Issues a graphics operation with each lane's operand words. -/
def State.issueGfx (s : State) (k : GfxKind) (d : BitVec 7) (f : Nat → List (BitVec 32)) (block : List (BitVec 64)) : State :=
  let ls := s.lanes.map fun l => (l, f l)
  s.issueOp (s.newOp k.cls 1 (.gfx k d.toNat ls block) s.me.cur.mask) (s.evalGfx k d.toNat ls block)

/-- The uniform block of beam.cast and beam.next (R320). -/
def State.castBlock (s : State) (u : BitVec 6) : List (BitVec 64) := [s.uuAt u 0, s.uuAt u 2, (s.un (u.toNat + 4)).setWidth 64]

/-- BPOOL_INIT (R316). -/
def execBpoolInit (s : State) : Out := .next (s.issueGfx .bpoolInit 0 (fun _ => []) [])
/-- BEAM_MAKE (R316). -/
def execBeamMake (d a : BitVec 7) (s : State) : Out := .next (s.issueGfx .beamMake d (fun l => s.laneWords l a 2) [])
/-- BEAM_CAST (R321). -/
def execBeamCast (d a : BitVec 7) (u : BitVec 6) (s : State) : Out :=
  .next (s.issueGfx .beamCast d (fun l => s.laneWords l a 1) (s.castBlock u))
/-- BEAM_NEXT (R321). -/
def execBeamNext (d a : BitVec 7) (u : BitVec 6) (s : State) : Out :=
  .next (s.issueGfx .beamNext d (fun l => s.laneWords l a 1) (s.castBlock u))
/-- BEAM_FREE (R316). -/
def execBeamFree (d a : BitVec 7) (s : State) : Out := .next (s.issueGfx .beamFree d (fun l => s.laneWords l a 1) [])
/-- BEAM_STAT (R316). -/
def execBeamStat (d a : BitVec 7) (s : State) : Out := .next (s.issueGfx .beamStat d (fun l => s.laneWords l a 1) [])
/-- RAY_CAST (R325). -/
def execRayCast (d a : BitVec 7) (u : BitVec 6) (s : State) : Out := .next (s.issueGfx .rayCast d (fun l => s.laneWords l a 2) [s.uu u])
/-- RAY_NEXT (R325). -/
def execRayNext (d a : BitVec 7) (u : BitVec 6) (s : State) : Out := .next (s.issueGfx .rayNext d (fun l => s.laneWords l a 2) [s.uu u])
/-- RAY_RESUME (R325). -/
def execRayResume (d a : BitVec 7) (u : BitVec 6) (s : State) : Out := .next (s.issueGfx .rayResume d (fun l => s.laneWords l a 2) [s.uu u])
/-- TEX_SAMP (R327). -/
def execTexSamp (d a b : BitVec 7) (s : State) : Out := .next (s.issueGfx .texSamp d (fun l => s.laneWords l a 2 ++ s.laneWords l b 3) [])
/-- TEX_FOOT (R327). -/
def execTexFoot (d a b : BitVec 7) (s : State) : Out := .next (s.issueGfx .texFoot d (fun l => s.laneWords l a 2 ++ s.laneWords l b 6) [])
/-- TEX_LOD (R327). -/
def execTexLod (d a b : BitVec 7) (s : State) : Out := .next (s.issueGfx .texLod d (fun l => s.laneWords l a 2 ++ s.laneWords l b 6) [])
/-- RAST_TRI (R329). -/
def execRastTri (d a : BitVec 7) (u : BitVec 6) (s : State) : Out :=
  .next (s.issueGfx .rastTri d (fun l => s.laneWords l a 2) [(s.u u).setWidth 64, (s.un (u.toNat + 1)).setWidth 64])
/-- RAST_NEXT (R329). -/
def execRastNext (d a : BitVec 7) (u : BitVec 6) (s : State) : Out :=
  .next (s.issueGfx .rastNext d (fun l => s.laneWords l a 2) [(s.u u).setWidth 64, (s.un (u.toNat + 1)).setWidth 64])

end Sys2Proof.Machine
end

