-- ==== Sys2Proof/Machine/Copy.lean ====
section
/-! DEFINITION. Bulk copies and transaction barriers (11_copy R258 to R272). -/

namespace Sys2Proof.Machine

/-! ### Transaction-barrier slots (R269 to R272) -/

/-- A slot's contents (R269). -/
structure TSlot where
  phase    : BitVec 32
  acount   : Nat
  arrivals : Nat
  owed     : Int
  flags    : Nat
  rest     : Nat
  deriving DecidableEq, Repr

/-- Reads the slot at a key. -/
def State.slotAt (s : State) (k : Nat) : TSlot :=
  { phase := s.rd32 k, acount := s.rd (k + 4) 2, arrivals := s.rd (k + 6) 2, owed := (s.rd32 (k + 8)).toInt, flags := s.rd (k + 12) 1,
    rest := s.rd (k + 13) 3 }

/-- Writes the slot at a key, as one event. -/
def State.putSlot (s : State) (k : Nat) (x : TSlot) : State :=
  s.put k (leBytes 4 x.phase.toNat ++ leBytes 2 x.acount ++ leBytes 2 x.arrivals ++ leBytes 4 (BitVec.ofInt 32 x.owed).toNat ++
    leBytes 1 x.flags ++ leBytes 3 x.rest)

/-- complete() of R271. -/
def TSlot.complete (x : TSlot) : TSlot :=
  if x.acount = 0 ∧ x.owed = 0 then { x with phase := x.phase + 1, acount := x.arrivals, owed := 0 } else x

/-- slot_owed(n) of R271. -/
def TSlot.owe (x : TSlot) (n : Int) : TSlot :=
  let v := x.owed + n
  ({ x with owed := (BitVec.ofInt 32 v).toInt, flags := if v < -(2 ^ 31) ∨ 2 ^ 31 ≤ v then x.flags ||| 4 else x.flags } : TSlot).complete

/-- An arrival (R271): discarded, with OVERARR set, where none is due. -/
def TSlot.arrive (x : TSlot) : TSlot :=
  if x.acount = 0 then { x with flags := x.flags ||| 2 } else ({ x with acount := x.acount - 1 } : TSlot).complete

/-- A slot's reserved bytes and flag bits are zero (R270). -/
def TSlot.clean (x : TSlot) : Bool := x.rest == 0 && x.flags / 8 == 0
/-- VALID (R269). -/
def TSlot.valid (x : TSlot) : Bool := x.flags % 2 == 1

/-- The key of the slot that a generic address names, none where R270 refuses the address. -/
def State.slotKey? (s : State) (a : BitVec 64) : Option Nat :=
  let off := a.toNat % 2 ^ 48
  if a.toNat / 2 ^ 48 ≠ 0xFFF0 || a.toNat % 16 ≠ 0 || s.gang.localk * 1024 < off + 16 then none
  else some (localKey s.coreNo (s.gang.base + off))

/-- The checks of R270 on a slot, and what a tbr instruction does with a good one. `init` accepts a slot that is not valid. A slot among the source bytes
of a matrix operation in the array waits (13_matrix R296). -/
def State.withSlot (s : State) (a : BitVec 64) (init : Bool) (f : Nat → TSlot → State) : State :=
  match s.slotKey? a with
  | none => s.progErr 0x0B06 a
  | some k =>
    let x := s.slotAt k
    if s.mxHolds k 16 then s.retry
    else if !x.clean || (!init && !x.valid) then s.progErr 0x0B06 a else f k x

/-- TBR_INIT (R271). -/
def execTbrInit (a b : BitVec 6) (s : State) : Out :=
  let c := (s.u b).toNat
  .next (s.withSlot (s.uu a) true fun k x =>
    if c = 0 || 65535 < c then s.progErr 0x0B08 ((s.u b).setWidth 64)
    else if x.valid then s.progErr 0x0B07 (s.uu a)
    else s.putSlot k { x with acount := c, arrivals := c, owed := 0, flags := 1 })

/-- TBR_ARRIVE (R271). -/
def execTbrArrive (d a : BitVec 6) (s : State) : Out :=
  .next (s.withSlot (s.uu a) false fun k x => (s.putSlot k x.arrive).setU d x.phase)

/-- TBR_OWE (R271). -/
def execTbrOwe (a b : BitVec 6) (s : State) : Out :=
  let n := (s.u b).toNat
  .next (s.withSlot (s.uu a) false fun k x =>
    if 65535 < n then s.progErr 0x0B08 ((s.u b).setWidth 64) else s.putSlot k (x.owe n))

/-- The event of tbr.retire (R272): PHASE advances and the slot is cleared. -/
def State.retireSlot (s : State) (k : Nat) : State :=
  s.putSlot k { phase := (s.slotAt k).phase + 1, acount := 0, arrivals := 0, owed := 0, flags := 0, rest := 0 }

/-- A registered copy of a gang reports to a slot. -/
def State.slotOwed (s : State) (gid off : Nat) : Bool := s.ops.any fun o => o.gid == gid && o.slot == some off && o.registered

/-- TBR_RETIRE (R272): its event waits for every registered copy that reports to the slot, those registered while it waits too. -/
def execTbrRetire (a : BitVec 6) (s : State) : Out :=
  let off := (s.uu a).toNat % 2 ^ 48
  .next (s.withSlot (s.uu a) false fun k _ => if s.slotOwed s.gang.gid off then s.hold (.tbrRetire off) else s.retireSlot k)

/-- TBR_RETIRE_DONE (R272): no registered copy reports to the slot any more. -/
def execTbrRetireDone (gid w path : Nat) (s : State) : Out :=
  .next (match (s.warpOf? gid w).bind fun x => x.path? path, s.gangOf? gid with
    | some p, some g => match p.st with
      | .held (.tbrRetire off) =>
        if g.st != .resident || s.slotOwed gid off || s.mxHolds (localKey (32 * g.stk + g.core) (g.base + off)) 16 then s
        else (s.retireSlot (localKey (32 * g.stk + g.core) (g.base + off))).onPath gid w path fun x p => { p with st := x.woken }
      | _ => s
    | _, _ => s)

/-! ### Layout records and boxes (R260, R261) -/

/-- Reads a layout record from its bytes, none where it is malformed (R260). -/
def parseRec (bs : List (BitVec 8)) (x y z : Int) : Option LRec :=
  let f (o n : Nat) : Nat := leNat ((bs.drop o).take n)
  let wc := f 43 1 % 8
  let plane := f 43 1 / 8 % 2 == 1
  let w := 2 ^ (wc + 1)
  let b0 := f 36 2
  let bad := f 0 8 / 2 ^ 48 != 0 || decide (2 ^ 40 ≤ f 8 8) || decide (2 ^ 40 ≤ f 16 8) || f 42 1 / 8 != 0 || f 43 1 / 16 != 0 || f 48 16 != 0
    || f 24 4 == 0 || f 28 4 == 0 || f 32 4 == 0 || b0 == 0 || f 38 2 == 0 || f 40 2 == 0
    || decide (2 ^ 31 < f 24 4) || decide (2 ^ 31 < f 28 4) || decide (2 ^ 31 < f 32 4) || decide (6 ≤ wc)
    || (plane && (decide (4 ≤ wc) || (b0 * w != 1024 && b0 * w != 2048 && b0 * w != 4096)))
  if bad then none
  else some { base := f 0 8, stride1 := f 8 8, stride2 := f 16 8, dim0 := f 24 4, dim1 := f 28 4, dim2 := f 32 4, box0 := b0, box1 := f 38 2,
              box2 := f 40 2, space := f 42 1 % 8, w := w, plane := plane, fill := BitVec.ofNat 32 (f 44 4), x := x, y := y, z := z }

/-- The in-bounds part of one dimension of a box: first index and count. -/
def spanOf (org : Int) (box dim : Nat) : Nat × Nat :=
  let lo := (max 0 (-org)).toNat
  let hi := (min (box : Int) (dim - org)).toNat
  (lo, hi - lo)

/-- Byte offset from BASE of the row of box indices j, k (R261), for a row that holds an element in bounds. -/
def LRec.row (r : LRec) (j k : Nat) : Nat :=
  (r.z + k).toNat * r.stride2 + (r.y + j).toNat * r.stride1 + (if r.plane then (r.x / r.box0).toNat * (r.box0 * r.w / 8) else 0)

/-- The places of the bits of element i of a row: a byte offset in the row, the bit in the byte, the bit of the element, and how many. -/
def LRec.pieces (r : LRec) (i : Nat) : List (Nat × Nat × Nat × Nat) :=
  if r.plane then (List.range r.w).map fun b => (b * (r.box0 / 8) + i / 8, i % 8, b, 1)
  else
    let bit := (r.x + i).toNat * r.w
    if r.w < 8 then [(bit / 8, bit % 8, 0, r.w)] else (List.range (r.w / 8)).map fun j => (bit / 8 + j, 0, 8 * j, 8)

/-- A side's hull as a first byte from BASE and a length (R261); none where no element is in bounds. -/
def LRec.hull (r : LRec) : Option (Nat × Nat) :=
  let (i0, ni) := spanOf r.x r.box0 r.dim0
  let (j0, nj) := spanOf r.y r.box1 r.dim1
  let (k0, nk) := spanOf r.z r.box2 r.dim2
  if ni = 0 || nj = 0 || nk = 0 then none
  else
    let a (i : Nat) : List Nat := (r.pieces i).map fun p => p.1
    let lo := r.row j0 k0 + (a i0).foldl min (a i0).head!
    let hi := r.row (j0 + nj - 1) (k0 + nk - 1) + (a (i0 + ni - 1)).foldl max 0
    some (lo, hi + 1 - lo)

/-- The cases of R261 in which one side's shape is refused, in order: its box, its place in element order, its place in plane order, its hull. -/
def shapeCases : List (LRec → Bool) := [
  fun r => decide (8 * 4194304 < r.box0 * r.w * r.box1 * r.box2),
  fun r => !r.plane && ((r.x * r.w) % 8 != 0 || r.box0 * r.w % 8 != 0),
  fun r => r.plane && r.x % r.box0 != 0,
  fun r => r.hull.any fun h => decide (2 ^ 24 < h.2)]

/-- The limits of R261 on one side. -/
def LRec.shapeOk (r : LRec) : Bool := !(shapeCases.any fun c => c r)

/-- The two records of a cpy agree (R261). -/
def LRec.agrees (a b : LRec) : Bool := a.w == b.w && a.box0 == b.box0 && a.box1 == b.box1 && a.box2 == b.box2

/-- The aperture of a copy space (R260, 01_machine R19). -/
def spaceAp (n : Nat) : Nat :=
  match n with
  | 1 => 0xFFF0
  | 2 => 0xFFF2
  | 3 => 0xFFF4
  | 5 => 0xFFF3
  | _ => 0

/-- The generic address of BASE. -/
def LRec.origin (r : LRec) : Nat := spaceAp r.space * 2 ^ 48 + r.base

/-- A side's hull by generic addresses. -/
def LRec.extent (r : LRec) : Option (Nat × Nat) := r.hull.map fun h => (r.origin + h.1, h.2)

/-- Space pairs that cpy accepts (R262). -/
def pairOk (src dst : Nat) : Bool :=
  decide (src < 6) && decide (dst < 6) &&
    (match src with
      | 3 => decide (dst < 2)
      | 2 | 4 | 5 => dst != 3
      | _ => true)

/-! ### What a copy moves (R264) -/

/-- The box indices in bounds at a side. -/
def LRec.inside (r : LRec) (i j k : Nat) : Bool :=
  let ok (c : Int) (d : Nat) : Bool := decide (0 ≤ c) && decide (c < d)
  ok (r.x + i) r.dim0 && ok (r.y + j) r.dim1 && ok (r.z + k) r.dim2

/-- The element at box indices of a side, as its bits. -/
def State.element (s : State) (gs : List Seg) (r : LRec) (i j k : Nat) : Nat :=
  (r.pieces i).foldl (fun v p => match segKey gs (r.origin + r.row j k + p.1) with
    | some key => v + (s.byte key).toNat / 2 ^ p.2.1 % 2 ^ p.2.2.2 * 2 ^ p.2.2.1
    | none => v) 0

/-- Puts an element into the bytes being written; bits around it keep their values. -/
def State.placeElem (s : State) (gs : List Seg) (r : LRec) (i j k v : Nat) (ws : List (Nat × Option (BitVec 8))) : List (Nat × Option (BitVec 8)) :=
  (r.pieces i).foldl (fun ws p => match segKey gs (r.origin + r.row j k + p.1) with
    | none => ws
    | some key =>
      let old := ((smGet none ws key).getD (s.byte key)).toNat
      let m := 2 ^ p.2.2.2
      let cut := old / 2 ^ p.2.1 % m * 2 ^ p.2.1
      smPut none ws key (some (BitVec.ofNat 8 (old - cut + v / 2 ^ p.2.2.1 % m * 2 ^ p.2.1)))) ws

/-- The box indices of a record. -/
def LRec.indices (r : LRec) : List (Nat × Nat × Nat) :=
  (List.range r.box2).flatMap fun k => (List.range r.box1).flatMap fun j => (List.range r.box0).map fun i => (i, j, k)

/-- The bytes that a copy or fill writes, from memory as it stands (R264). -/
def State.copyBytes (s : State) (gs : List Seg) (fill : Bool) (src dst : LRec) : List (Nat × BitVec 8) :=
  let low (r : LRec) : Nat := r.fill.toNat % 2 ^ r.w
  (dst.indices.foldl (fun ws e =>
    if !dst.inside e.1 e.2.1 e.2.2 then ws
    else
      let v := if fill then low dst else if src.inside e.1 e.2.1 e.2.2 then s.element gs src e.1 e.2.1 e.2.2 else low src
      s.placeElem gs dst e.1 e.2.1 e.2.2 v ws) []).filterMap fun x => x.2.map fun b => (x.1, b)

/-! ### Checks and registration (R259 to R266) -/

/-- Signed halves of a uniform register. -/
def loHalf (x : BitVec 32) : Int := (x.setWidth 16).toInt
def hiHalf (x : BitVec 32) : Int := ((x >>> 16).setWidth 16).toInt

/-- The copy's read of a record (R260, R263 step 2): its bytes, or the state after the failure. -/
def State.readRec (s : State) (m : BitVec 32) (a : BitVec 64) : Except State (State × List (BitVec 8)) :=
  let at_ (t : State) (k : Nat) : Except State (State × List (BitVec 8)) :=
    if s.windowHolds k then .error s.retry
    else match t.conflicts k 64 false with
    | [] => .ok (t, t.bytes k 64)
    | ls => .error (t.heldByLocks ls)
  if a.toNat / 2 ^ 48 = 0 then
    match s.translate .read (a.toNat % 2 ^ 48) with
    | (t, .ok k) => at_ t k
    | (t, .error c) => .error (t.park 3 c a 0 t.me.cur.mask)
  else match s.place a.toNat 64 with
    | .ok k => at_ s k
    | .error c => .error (s.allOff m c a.toNat)

/-- The lowest tile of an accumulator side whose token the warp does not hold (R262). -/
def State.badTile (s : State) (r : LRec) : Option Nat :=
  match r.space, r.extent with
  | 3, some h =>
    (List.range 16).find? fun t =>
      let o := h.1 % 2 ^ 48
      decide (o < (t + 1) * 2 ^ 14) && decide (t * 2 ^ 14 < o + h.2) && smGet 0 s.gang.tokens t != s.me.w + 1
  | _, _ => none

/-- A remote-local side's core and the offset there of its hull: the offset does not carry into the core's number. -/
def LRec.remoteSpot (r : LRec) (h : Nat) : Nat × Nat := (remoteCore (BitVec.ofNat 64 r.origin), r.base % 2 ^ 40 + h)

/-- The key of a hull's first byte where it lies in no translated space, or the code by which the lanes go (R194, R263 step 5): bytes beyond the end of
the space's addresses are beyond its range too. -/
def State.sideKey (s : State) (r : LRec) (h : Nat × Nat) : Except Nat Nat :=
  if r.space = 2 then
    let (c, off) := r.remoteSpot h.1
    if !s.powered (c / 32) then .error 1 else if s.poolHit c off h.2 then .error 7 else .ok (localKey c off)
  else if 2 ^ 48 < r.base + h.1 + h.2 then .error (if r.space = 1 then 4 else if r.space = 3 then 1 else 6)
  else s.place (r.origin + h.1) h.2

/-- The parts of one side: those to translate, and those placed already with their ranges; or the code by which the lanes go (R263 steps 5, 7). -/
def State.sideParts (s : State) (r : LRec) (write : Bool) : Except (Nat × Nat) (List Part × List Seg × List Rng) :=
  match r.hull with
  | none => .ok ([], [], [])
  | some h =>
    let a := r.origin + h.1
    if spaceAp r.space = 0 then
      if 2 ^ 48 < a + h.2 then .error (1, a)
      else .ok ((cutVa a 258 h.2).map fun c => { addr := c.1, len := c.2, write := write }, [], [])
    else match s.sideKey r h with
      | .error c => .error (c, a)
      | .ok k => .ok ([], [{ addr := a, len := h.2, key := k }], [{ base := k, len := h.2, full := write }])

/-- A remote-local side that its target refuses (R200, R263 step 7). -/
def State.refusedSide (s : State) (r : LRec) : Option (Nat × Nat) :=
  match r.space, r.hull with
  | 2, some h =>
    let (c, off) := r.remoteSpot h.1
    if s.inAllocation c s.gang.asid off h.2 then none else some (c, off)
  | _, _ => none

/-- Two byte ranges overlap. -/
def overlaps (a n b m : Nat) : Bool := decide (a < b + m) && decide (b < a + n)

/-- The keys and lengths of a side's hull as far as they are memory: a translated space's page by page, a local one's to the end of its core's bytes. -/
def State.hullKeys (s : State) (r : LRec) (h : Nat × Nat) : List (Nat × Nat) :=
  let at_ (c off : Nat) : List (Nat × Nat) := if off < 2 ^ 20 then [(localKey c off, min h.2 (2 ^ 20 - off))] else []
  match r.space with
  | 1 => at_ s.coreNo (s.gang.base + r.base + h.1)
  | 2 => let (c, off) := r.remoteSpot h.1
         at_ c off
  | 3 | 5 => (s.sideKey r h).toOption.toList.map fun k => (k, h.2)
  | _ => (cutVa (r.base + h.1) 258 h.2).filterMap fun c => (s.translate .read c.1).2.toOption.map fun k => (k, c.2)

/-- A stamp or slot lies in a side's hull, by its address or by the bytes themselves: a core's own local bytes have two addresses (08_memory R193), and a
frame may have several. -/
def State.covers (s : State) (r : LRec) (a n : Nat) (key : Option Nat) : Bool :=
  match r.hull with
  | none => false
  | some h => overlaps (r.origin + h.1) h.2 a n || key.any fun k => (s.hullKeys r h).any fun b => overlaps b.1 b.2 k n

/-- The key of bytes in a space that is not translated. -/
def State.plainKey (s : State) (a n : Nat) : Option Nat := if a / 2 ^ 48 = 0 then none else (s.place a n).toOption

/-- The key of a stamp as far as it has one yet: a global stamp's frame too. -/
def State.stampKey (s : State) (a : Nat) : Option Nat := if a / 2 ^ 48 = 0 then (s.translate .write a).2.toOption else s.plainKey a 8

/-- The stamp of an operation is refused (R266). -/
def State.stampBad (s : State) (a : Nat) (sides : List LRec) (slot : Option Nat) : Bool :=
  let ap := a / 2 ^ 48
  let k := s.plainKey a 8
  a % 8 != 0 || !(ap == 0 || ap == 0xFFF0 || ap == 0xFFF2 || ap == 0xFFF3) || (ap != 0 && k.isNone)
    || sides.any (fun r => s.covers r a 8 (s.stampKey a))
    || (match slot with
      | some o => overlaps (0xFFF0 * 2 ^ 48 + o) 16 a 8 || k.any fun k => overlaps (localKey s.coreNo (s.gang.base + o)) 16 k 8
      | none => false)

/-- A copy's slot is refused (R270). -/
def State.copySlotBad (s : State) (off : Nat) (sides : List LRec) : Bool :=
  let a := BitVec.ofNat 64 (0xFFF0 * 2 ^ 48 + off)
  match s.slotKey? a with
  | none => true
  | some k =>
    let x := s.slotAt k
    !x.clean || !x.valid || sides.any fun r => s.covers r a.toNat 16 (some k)

/-- The last checks of a copy, from TOKEN on, and its translation (R263 steps 4 to 7). -/
def State.copyPlace (s : State) (o : EngOp) (m : BitVec 32) (sides : List (LRec × Bool)) (stamp : Option (Nat × BitVec 64)) : Eval :=
  match (sides.filterMap fun r => s.badTile r.1) with
  | t :: ts => .no (s.trap 3 (ts.foldl min t) 0)
  | [] =>
    let parts := sides.map fun r => s.sideParts r.1 r.2
    match parts.findSome? (fun p => match p with | .error e => some e | .ok _ => none) with
    | some (c, a) => .no (s.allOff m c a)
    | none =>
      let good := parts.filterMap fun p => match p with | .ok x => some x | .error _ => none
      match s.finish o (good.flatMap fun x => x.1) (good.flatMap fun x => x.2.1) (good.flatMap fun x => x.2.2) with
      | .no t => .no t
      | .wait t o => .wait t o
      | .ok t o =>
        let tail (t : State) (o : EngOp) : Eval :=
          match sides.findSome? fun r => t.refusedSide r.1 with
          | some (c, off) => .no ((t.logRefusal c off).allOff m 8 (((sides.findSome? fun r => (t.refusedSide r.1).bind fun _ => r.1.extent).getD (0, 0)).1))
          | none => .ok t o
        match stamp with
        | none => tail t o
        | some (a, v) =>
          if a / 2 ^ 48 = 0 then
            match t.translate .write a with
            | (u, .error c) => .no (u.park 3 c (BitVec.ofNat 64 a) 1 u.me.cur.mask)
            | (u, .ok k) => tail u { o with stamp := some (k, v), pages := o.pages ++ [(s.gang.asid, a / 2 ^ 16)] }
          else match t.place a 8 with
            | .error c => .no (t.allOff m c a)
            | .ok k =>
              if a / 2 ^ 48 == 0xFFF2 && !t.inAllocation (remoteCore (BitVec.ofNat 64 a)) t.gang.asid (a % 2 ^ 40) 8 then
                .no ((t.logRefusal (remoteCore (BitVec.ofNat 64 a)) (a % 2 ^ 40)).allOff m 8 a)
              else tail t { o with stamp := some (k, v) }

/-- The MALF, SPACE and SHAPE checks (R263 step 3) on the records a copy read: the code and the record's address. -/
def State.recsBad (s : State) (fill : Bool) (sa da : BitVec 64) (src dst : Option LRec) : Option (Nat × BitVec 64) :=
  match src, dst with
  | none, _ => some (0x0B02, sa)
  | _, none => some (0x0B02, da)
  | some a, some b =>
    if !fill && decide (6 ≤ a.space) then some (0x0B03, sa)
    else if 6 ≤ b.space then some (0x0B03, da)
    else if !fill && !pairOk a.space b.space then some (0x0B03, da)
    else if !fill && a.space == 3 && !s.gang.mx then some (0x0B03, sa)
    else if b.space == 3 && !s.gang.mx then some (0x0B03, da)
    else if !fill && !a.agrees b then some (0x0B04, da)
    else shapeCases.findSome? fun c => if !fill && c a then some (0x0B04, sa) else if c b then some (0x0B04, da) else none

/-- A copy or fill with its registers: the checks of R263, in order. -/
def State.evalCopy (s : State) (fill : Bool) (r : List (BitVec 32)) (m : BitVec 32) : Eval :=
  let g (i : Nat) : BitVec 32 := r.getD i 0
  let sa : BitVec 64 := g 1 ++ g 0
  let da : BitVec 64 := g 3 ++ g 2
  let recOk (a : BitVec 64) : Bool := a.toNat % 64 == 0 && (a.toNat / 2 ^ 48 == 0 || a.toNat / 2 ^ 48 == 0xFFF0)
  let slotEn := (g 7).getLsbD 31
  let slot := (g 7).toNat % 2 ^ 20
  if (g 7).toNat / 2 ^ 20 % 2 ^ 11 ≠ 0 then .no (s.progErr 0x0B06 ((g 7).setWidth 64))
  else if !fill && !recOk sa then .no (s.progErr 0x0B01 sa)
  else if !recOk da then .no (s.progErr 0x0B01 da)
  else match (if fill then .ok (s, []) else s.readRec m sa) with
    | .error t => .no t
    | .ok (t, sb) => match t.readRec m da with
      | .error t => .no t
      | .ok (t, db) =>
        let src := if fill then some {} else parseRec sb (loHalf (g 4)) (hiHalf (g 4)) (loHalf (g 5))
        let dst := parseRec db (hiHalf (g 5)) (loHalf (g 6)) (hiHalf (g 6))
        match t.recsBad fill sa da src dst with
        | some (c, a) => .no (t.progErr c a)
        | none =>
          let src := src.getD {}
          let dst := dst.getD {}
          let sides := if fill then [dst] else [src, dst]
          let stamp : Option (Nat × BitVec 64) := if 12 ≤ r.length then some ((g 9 ++ g 8 : BitVec 64).toNat, g 11 ++ g 10) else none
          let slotO := if slotEn then some slot else none
          if stamp.any fun x => t.stampBad x.1 sides slotO then .no (t.progErr 0x0B05 (g 9 ++ g 8))
          else if slotEn && t.copySlotBad slot sides then .no (t.progErr 0x0B06 (BitVec.ofNat 64 (0xFFF0 * 2 ^ 48 + slot)))
          else
            let o := { t.newOp 4 0 (.copy fill r src dst) m with slot := slotO }
            t.copyPlace o m (if fill then [(dst, true)] else [(src, false), (dst, true)]) stamp

/-- Issues a copy or fill. -/
def State.issueCopy (s : State) (fill : Bool) (a b : BitVec 6) : State :=
  let regs := (List.range 8).map (fun i => s.un (a.toNat + i)) ++ (if b = 0 then [] else (List.range 4).map fun i => s.un (b.toNat + i))
  let m := s.me.cur.mask
  s.issueOp (s.newOp 4 0 (.copy fill regs {} {}) m) (s.evalCopy fill regs m)

/-- CPY (R264). -/
def execCpy (a b : BitVec 6) (s : State) : Out := .next (s.issueCopy false a b)
/-- CPY_FILL (R264). -/
def execCpyFill (a b : BitVec 6) (s : State) : Out := .next (s.issueCopy true a b)

end Sys2Proof.Machine
end

