-- ==== Sys2Proof/Machine/Matrix.lean ====
section
/-! DEFINITION. Matrix instructions (13_matrix): tokens, sequencer barriers and loops, the array queue, the array's operations, tile access and
plane packing. -/

namespace Sys2Proof.Machine

/-! ### Tokens (R294, R295) -/

/-- Who holds the token of tile `t`: 0 for the matrix side, w + 1 for warp w. -/
def Gang.owner (g : Gang) (t : Nat) : Nat := smGet 0 g.tokens t

/-- The token of a tile passes at this moment (R294). -/
def State.passTok (s : State) (gid t owner : Nat) : State :=
  match s.gangOf? gid with
  | none => s
  | some g =>
    let q := if g.seq.st = .atTok t && owner = 0 then { g.seq with st := .running } else g.seq
    let s := (s.setGang { g with tokens := smPut 0 g.tokens t owner, seq := q }).note (tokNote gid t) (BitVec.ofNat 64 owner)
    s.mapWarps fun x =>
      if x.gid == gid && x.w + 1 == owner then
        x.mapPaths fun p => if p.st = .held (.tokTake (BitVec.ofNat 4 t)) then { p with st := x.woken } else p
      else x

/-- The recipient of a tok.give fails: above 32, at or above WARPS, or exited. -/
def State.badRecipient (s : State) (r : Nat) : Bool :=
  decide (32 < r) || (r != 32 && (decide (s.gang.warpsN ≤ r) ||
    s.allWarps.any fun x => x.gid == s.gang.gid && x.w == r && x.exited))

/-- TOK_GIVE (R294). -/
def execTokGive (t : BitVec 4) (a : BitVec 6) (s : State) : Out :=
  let r := (s.u a).toNat
  let to_ := if r = 32 then 0 else r + 1
  let me := match s.issue with | .seq => 0 | _ => s.me.w + 1
  .next (if !s.gang.mx then s.progErr 0x0D06 0
    else if s.gang.owner t.toNat ≠ me then s.progErr 0x0D02 0
    else if s.badRecipient r then s.progErr 0x0D02 ((s.u a).setWidth 64)
    else if to_ = me then s
    else match s.issue with
      | .seq => s.passTok s.gang.gid t.toNat to_
      | _ => { s with gang := { s.gang with passing := s.gang.passing ++ [(t.toNat, to_)] } })

/-- TOK_TAKE (R294). -/
def execTokTake (t : BitVec 4) (s : State) : Out :=
  .next (if !s.gang.mx then s.progErr 0x0D06 0
    else match s.issue with
      | .seq => if s.gang.owner t.toNat = 0 then s
          else { s with gang := { s.gang with seq := { s.gang.seq with st := .atTok t.toNat } } }
      | _ => if s.gang.owner t.toNat = s.me.w + 1 then s else s.hold (.tokTake t))

/-- Nothing keeps a token that a warp gave from passing: its stores to the tile have written, and no range lock covers it (R294). -/
def State.passable (s : State) (g : Gang) (t : Nat) : Bool :=
  let b := tileKey g.gid t 0
  !(s.accs.any fun a => a.gid == g.gid && a.w + 1 == g.owner t && a.op == .accSt && tileOf a.key == t) &&
    !(s.locks.any fun l => decide (l.2.base < b + 2 ^ 14) && decide (b < l.2.base + l.2.len))

/-- TOKEN_PASS (R294): the earliest gift of a tile's token passes. R294 does not say what becomes of further gifts that the same warp made before it passed:
the token is its own no more, and they lapse (the model's choice, log 48). -/
def execTokenPass (gid : Nat) (t : BitVec 4) (s : State) : Out :=
  .next (match s.gangOf? gid with
    | none => s
    | some g => match g.passing.find? fun p => p.1 == t.toNat with
      | none => s
      | some p =>
        if s.passable g t.toNat then (s.setGang { g with passing := g.passing.filter fun q => q.1 != p.1 }).passTok gid p.1 p.2 else s)

/-! ### Sequencer barriers (R292, R293) -/

def Gang.bar (g : Gang) (b : Nat) : Bar := smGet {} g.bars b

/-- Completes a phase where the sequencer and every warp of its MASK have arrived; releases them and every warp that arrived. -/
def State.barTest (s : State) (b : BitVec 4) : State :=
  let g := s.gang
  let x := g.bar b.toNat
  if x.seq && x.arrived &&& x.mask = x.mask then
    let x' : Bar := { x with phase := x.phase + 1, arrived := 0, seq := false }
    let q := if g.seq.st = .atBar b.toNat then { g.seq with st := .running } else g.seq
    let s : State := { s with gang := { g with bars := smPut {} g.bars b.toNat x', seq := q } }
    s.mapWarps fun w =>
      if w.gid == g.gid && smGet 0 x'.aphase w.w != x'.phase then
        w.mapPaths fun p => match p.st with
          | .held (.seqBar c n k) => if c = b then { p with st := w.woken, pc := n, wpos := k } else p
          | _ => p
      else w
  else s

/-- An engine operation of the path in focus has not registered yet (R293). -/
def State.unregistered (s : State) : Bool :=
  s.ops.any fun o => o.gid == s.gang.gid && o.w == s.me.w && !o.registered && (o.dmask &&& s.me.cur.mask) != 0

/-- SEQ_BAR (R292, R293). -/
def execSeqBar (b : BitVec 4) (s : State) : Out :=
  let x := s.gang.bar b.toNat
  .next (if !s.gang.mx then s.progErr 0x0D06 0
    else if s.gang.seq.st = .ended then s.progErr 0x0D03 0
    else if s.unregistered then s.retry
    else
      let x' : Bar := if x.arrived.getLsbD s.me.w then x
        else { x with arrived := x.arrived ||| laneBit s.me.w, aphase := smPut 0 x.aphase s.me.w x.phase }
      let s : State := { s with gang := { s.gang with bars := smPut {} s.gang.bars b.toNat x' } }
      (s.holdHere (.seqBar b s.here.npc s.here.nwpos)).barTest b)

/-- SEQ_BAR_MATRIX (R292). -/
def execSeqBarMatrix (b : BitVec 4) (a : BitVec 6) (s : State) : Out :=
  let m := s.u a
  let g := s.gang
  .next (if m = 0 || m.toNat / 2 ^ g.warpsN ≠ 0 then s.progErr 0x0D03 (m.setWidth 64)
    else ({ s with gang := { g with bars := smPut {} g.bars b.toNat { g.bar b.toNat with seq := true, mask := m },
                                    seq := { g.seq with st := .atBar b.toNat } } } : State).barTest b)

/-! ### Loops (R303) and the sequencer's end (R291) -/

/-- SEQ_LOOP (R303). -/
def execSeqLoop (d a : BitVec 6) (s : State) : Out :=
  let n := s.u a
  let q := s.gang.seq
  .next (if n = 0 then s.progErr 0x0D04 0
    else if q.loops.length = 4 then s.progErr 0x0D04 0
    else
      let l : Loop := { pc := s.here.npc, wpos := s.here.nwpos, count := n, trip := 0, reg := d }
      ({ s with gang := { s.gang with seq := { q with loops := l :: q.loops } } } : State).setU d 0)

/-- SEQ_END (R303). -/
def execSeqEnd (s : State) : Out :=
  let q := s.gang.seq
  .next (match q.loops with
    | [] => ({ s with gang := { s.gang with seq := { q with st := .ended } } } : State).failHeld 0x0D03 fun w => match w with
        | .seqBar _ n k => some (n, k)
        | _ => none
    | l :: ls =>
      let trip := l.trip + 1
      if trip < l.count then
        ({ s with gang := { s.gang with seq := { q with loops := { l with trip := trip } :: ls, pc := l.pc, wpos := l.wpos } } } : State).setU l.reg trip
      else { s with gang := { s.gang with seq := { q with loops := ls } } })

/-! ### The array queue (R289, R295 to R298) -/

/-- Element width in bits (R297). -/
def mmWidth : MmFmt → Nat
  | .i2 => 2
  | .i4 | .q4 => 4
  | .i8 | .e4m3 => 8
  | .bf16 => 16
/-- RB, the bytes of an operand row (R297). -/
def kbBytes : Kb → Nat
  | .k512 => 512
  | .k256 => 256
  | .k128 => 128
/-- Elements kept of 16 (R298). -/
def keepNum : Keep → Nat
  | .keep8 => 8
  | .keep4 => 4
  | .keep2 => 2
/-- Kel, the elements of an operand row (R297). -/
def mmKel (f : MmFmt) (rb : Nat) : Nat := rb * 8 / mmWidth f

/-- Bytes of the scales behind the rows of an operand region (R297, R298). -/
def mmScales (f : MmFmt) (n : Nat) : Nat := if f = .q4 then n else 0

/-- The source regions of an operation, with the alignment each needs: address, bytes, alignment (R297, R298, R302). -/
def MxOp.regions (o : MxOp) : List (BitVec 64 × Nat × Nat) :=
  match o.kind with
  | .mm f _ k =>
    let n := 64 * kbBytes k + mmScales f (64 * (kbBytes k / 8))
    [(o.pa, n, 128), (o.pb, n, 128)]
  | .sp f _ k =>
    [(o.pa, 64 * 512 + mmScales f (64 * 64) + 64 * (mmKel f 512 / 2), 128),
     (o.pb, 64 * 512 * 16 / keepNum k + mmScales f (64 * (512 * 2 / keepNum k)), 128)]
  | .perm => [(o.pb, 64, 64)]
  | .scacc => [(o.pb, 512, 16)]
  | _ => []

/-- A matrix word issues into the array queue, stalls while it is full, or traps TOKEN (R289, R295). -/
def State.mxIssue (s : State) (kind : MxKind) (d a : Nat) (pa pb : BitVec 64) : State :=
  let g := s.gang
  let o : MxOp := { kind := kind, d := d, a := a, pa := pa, pb := pb, pc := s.here.pc }
  if 4 ≤ g.queue.length then { s with gang := { g with seq := { g.seq with pc := s.here.pc, wpos := s.here.wpos } } }
  else match (List.range 16).find? fun t => o.tiles.contains t && g.owner t != 0 with
    | some t => s.trap 3 t 0
    | none => { s with gang := { g with queue := g.queue ++ [o] } }

/-- MM (R301). -/
def execMm (t : BitVec 4) (a b : BitVec 6) (f : MmFmt) (g : Bool) (k : Kb) (s : State) : Out :=
  .next (s.mxIssue (.mm f g k) t.toNat 0 (s.uu a) (s.uu b))
/-- MM_SP (R301). -/
def execMmSp (t : BitVec 4) (a b : BitVec 6) (f : MmFmt) (g : Bool) (k : Keep) (s : State) : Out :=
  .next (s.mxIssue (.sp f g k) t.toNat 0 (s.uu a) (s.uu b))
/-- MM_XPOSE (R302). -/
def execMmXpose (t u : BitVec 4) (s : State) : Out := .next (s.mxIssue .xpose t.toNat u.toNat 0 0)
/-- MM_PERM (R302). -/
def execMmPerm (t u : BitVec 4) (b : BitVec 6) (s : State) : Out := .next (s.mxIssue .perm t.toNat u.toNat 0 (s.uu b))
/-- MM_RSUM_F32 (R302). -/
def execMmRsumF32 (t u : BitVec 4) (s : State) : Out := .next (s.mxIssue .rsumF32 t.toNat u.toNat 0 0)
/-- MM_RSUM_I32 (R302). -/
def execMmRsumI32 (t u : BitVec 4) (s : State) : Out := .next (s.mxIssue .rsumI32 t.toNat u.toNat 0 0)
/-- MM_ZERO (R302). -/
def execMmZero (t : BitVec 4) (s : State) : Out := .next (s.mxIssue .zero t.toNat 0 0 0)
/-- MM_SCACC (R302). -/
def execMmScacc (t u : BitVec 4) (b : BitVec 6) (s : State) : Out := .next (s.mxIssue .scacc t.toNat u.toNat 0 (s.uu b))
/-- MM_CVT_F32_I32 (R302). -/
def execMmCvtF32I32 (t u : BitVec 4) (s : State) : Out := .next (s.mxIssue .cvtF32I32 t.toNat u.toNat 0 0)
/-- MM_CVT_I32_F32 (R302). -/
def execMmCvtI32F32 (t u : BitVec 4) (s : State) : Out := .next (s.mxIssue .cvtI32F32 t.toNat u.toNat 0 0)

/-- A source region is outside the 0xFFF0 aperture or the allocation, misaligned, or inside the beam pool (R291, 0x0D01). -/
def Gang.badRegion (g : Gang) (r : BitVec 64 × Nat × Nat) : Bool :=
  let off := r.1.toNat % 2 ^ 48
  r.1.toNat / 2 ^ 48 != 0xFFF0 || off % r.2.2 != 0 || decide (g.localk * 1024 < off + r.2.1) ||
    (g.poolHeld && decide (g.localk * 1024 < off + r.2.1 + poolBytes g.pool))

/-- A program error of a gang's sequencer at a word that issued earlier ends the context (R290). -/
def State.seqProgErr (s : State) (gid : Nat) (pc : BitVec 48) (code : Nat) (info : BitVec 64) : State :=
  match s.gangOf? gid with
  | none => s
  | some g => { s with ctxs := ({ s with gang := g, issue := .seq, here := { pc := pc } }.endContext 1 code info).ctxs }

/-- The key of a local address of a gang. -/
def Gang.localAt (g : Gang) (a : BitVec 64) : Nat := localKey (32 * g.stk + g.core) (g.base + a.toNat % 2 ^ 48)

/-- An operation's source bytes overlap a FULL-LOCK range (R296). -/
def State.mxLocked (s : State) (g : Gang) (o : MxOp) : Bool :=
  o.regions.any fun r => s.locks.any fun l =>
    l.2.full && decide (g.localAt r.1 < l.2.base + l.2.len) && decide (l.2.base < g.localAt r.1 + r.2.1)

/-- The gangs whose operations a core's array takes, the one whose operation started last behind the other (R289). -/
def State.mxGangs (s : State) (core : Nat) : List Gang :=
  let gs := s.allGangs.filter fun g => g.gid != 0 && g.mx && (g.st == .resident || g.st == .exited) && 32 * g.stk + g.core == core
  let l := (s.core core).mxlast
  gs.filter (fun g => g.gid != l) ++ gs.filter fun g => g.gid == l

/-- The gang whose queue's head starts next on a core, or fails. -/
def State.mxNext (s : State) (core : Nat) : Option (Gang × MxOp) :=
  let gs := s.mxGangs core
  if gs.any fun g => g.array.isSome then none
  else gs.findSome? fun g => match g.queue with
    | [] => none
    | o :: _ => if o.regions.any g.badRegion || !s.mxLocked g o then some (g, o) else none

/-- The listed bytes of an operation's sources (R296). -/
def State.mxCells (s : State) (g : Gang) (o : MxOp) : List Host.Cell :=
  s.mem.filter fun x => o.regions.any fun r => decide (g.localAt r.1 ≤ x.1) && decide (x.1 < g.localAt r.1 + r.2.1)

/-- Memory in which the sources of an operation that started hold what they held at its start event (R296). -/
def State.mxView (s : State) (g : Gang) (o : MxOp) : State :=
  let b := localKey (32 * g.stk + g.core) g.base
  { s with mem := o.srcs.foldl (fun m r => smTake m o.snap (b + r.1) r.2) s.mem }

/-- MATRIX_OP_START (R296). -/
def execMatrixOpStart (core : Nat) (s : State) : Out :=
  .next (match s.mxNext core with
    | none => s
    | some (g, o) =>
      match o.regions.find? g.badRegion with
      | some r => (s.setGang { g with queue := g.queue.drop 1 }).seqProgErr g.gid o.pc 0x0D01 r.1
      | none =>
        let s := s.setGang { g with queue := g.queue.drop 1,
                                    array := some { o with srcs := o.regions.map fun r => (r.1.toNat % 2 ^ 48, r.2.1)
                                                           snap := s.mxCells g o } }
        s.setCore core { s.core core with mxlast := g.gid })

/-! ### What the array computes (R297 to R302) -/

/-- Element `k` of a plane row of `rb` bytes with `w` planes (11_copy R261). -/
def State.planeElt (s : State) (row rb w k : Nat) : Nat :=
  (List.range w).foldl (fun x b => x + (if (s.byte (row + b * (rb / w) + k / 8)).getLsbD (k % 8) then 2 ^ b else 0)) 0

/-- An operand element: its code and, in q4, its scale byte. -/
abbrev MxElt := Nat × Nat

/-- Element `k` of row `i` of a dense operand at a key (R297). -/
def State.mxElt (s : State) (f : MmFmt) (rb base i k : Nat) : MxElt :=
  (s.planeElt (base + i * rb) rb (mmWidth f) k,
    if f = .q4 then (s.byte (base + 64 * rb + i * (rb / 8) + k / 16)).toNat else 0)

/-- Logical element `e` of row `j` of the dense operand of mm.sp (R298). -/
def State.spElt (s : State) (f : MmFmt) (keep base j e : Nat) : MxElt :=
  let n := 16 / keep
  (s.planeElt (base + j * 512 * n + e / mmKel f 512 * 512) 512 (mmWidth f) (e % mmKel f 512),
    if f = .q4 then (s.byte (base + 64 * 512 * n + j * (1024 / keep) + e / 16)).toNat else 0)

/-- The 4-bit index of stored element `m` of row `i` of the sparse operand (R298). -/
def State.spIdx (s : State) (f : MmFmt) (base i m : Nat) : Nat :=
  (s.byte (base + 64 * 512 + mmScales f (64 * 64) + i * (mmKel f 512 / 2) + m / 2)).toNat / (if m % 2 = 0 then 1 else 16) % 16

/-- The value of an element of a floating format, with its scale (R300). -/
def mmValue (f : MmFmt) (x : MxElt) : FVal :=
  match f with
  | .e4m3 => fmtE4m3.decode x.1
  | .bf16 => fmtBf16.decode x.1
  | _ => if x.2 = 0xFF then .nan false else match fmtE2m1.decode x.1 with
    | .fin n m e => .fin n m (e + x.2 - 127)
    | v => v

/-- The sum of exact terms, anchored to the 80-bit window or exact, rounded once (R300). `iv` says that 0 × infinity was a product,
`sig` that an input is a signalling NaN. -/
def windowSum (anchored iv sig : Bool) (ts : List FVal) : FRes :=
  let pinf := ts.any fun t => t == .inf false
  let ninf := ts.any fun t => t == .inf true
  if ts.any FVal.isNan || iv || (pinf && ninf) then ⟨0x7FC00000, nvIf (iv || sig || (pinf && ninf))⟩
  else if pinf then ⟨0x7F800000, 0⟩
  else if ninf then ⟨0xFF800000, 0⟩
  else
    let nz := ts.filterMap fun t => match t with
      | .fin n m e => if m = 0 then none else some (n, m, e)
      | _ => none
    match nz with
    | [] => ⟨if ts.all fun t => match t with | .fin n _ _ => n | _ => false then 0x80000000 else 0, 0⟩
    | x :: _ =>
      let emax : Int := nz.foldl (fun (b : Int) t => max b (t.2.2 + (Nat.log2 t.2.1 : Nat))) (x.2.2 + (Nat.log2 x.2.1 : Nat))
      let q : Int := if anchored then emax - 79 else nz.foldl (fun (b : Int) t => min b t.2.2) x.2.2
      let cut := nz.map fun t => (t.1, roundNat .z t.1 t.2.1 (t.2.2 - q))
      let n : Int := (cut.map fun c => if c.1 then -(c.2.1 : Int) else c.2.1).sum
      let lost : Flags := if cut.any fun c => c.2.2 then flagNX else 0
      if n = 0 then ⟨0, lost⟩
      else
        let r := fmtF32.put .ne (.fin (decide (n < 0)) n.natAbs q)
        ⟨r.bits, r.fl ||| lost⟩

/-- A saturated sum of integers (R300). -/
def satSum (xs : List Int) : FRes :=
  let (r, st) := satInt (-(2 ^ 31)) (2 ^ 31 - 1) xs.sum
  ⟨(r % 2 ^ 32).toNat, if st then flagST else 0⟩

/-- A destination element from the pairs of its products and, with .acc, its old value (R300). -/
def mxReduce (f : MmFmt) (c : Option Nat) (ps : List (MxElt × MxElt)) : FRes :=
  match f with
  | .i2 | .i4 | .i8 =>
    satSum ((c.toList.map fun x => intOf 32 true x) ++ ps.map fun p => intOf (mmWidth f) true p.1.1 * intOf (mmWidth f) true p.2.1)
  | _ =>
    let vs := ps.map fun p => (mmValue f p.1, mmValue f p.2)
    let cs := c.toList.map fmtF32.decode
    let sig := (vs.any fun v => v.1.nv != 0 || v.2.nv != 0) || cs.any fun v => v.nv != 0
    let ms := vs.map fun v => v.1.mul v.2
    windowSum (f != .e4m3) (ms.any Prod.snd) sig (cs ++ ms.map Prod.fst)

/-- Element [i][j] of a tile. -/
def State.tileElt (s : State) (gid t i j : Nat) : Nat := s.rd (tileKey gid t (4 * (64 * i + j))) 4

/-- Key of TFLAGS of a tile (R299). -/
def tflagsKey (gid t : Nat) : Nat := tileKey gid 16 (4 * t)

/-- Writes every element of a tile, and its flags into TFLAGS (R299). -/
def State.writeTile (s : State) (gid d : Nat) (f : Nat → Nat → FRes) : State :=
  let rs := (List.range 4096).map fun q => f (q / 64) (q % 64)
  let fl := rs.foldl (fun (a : Flags) r => a ||| r.fl) 0
  (s.put (tileKey gid d 0) (rs.flatMap fun r => leBytes 4 r.bits)).wr (tflagsKey gid d) 4 ((s.rd (tflagsKey gid d) 4) ||| fl.toNat)

/-- The tile of an operation as its retirement leaves it (R301, R302). -/
def State.mxRun (s : State) (g : Gang) (o : MxOp) : State :=
  let t := s.tileElt g.gid
  let a := g.localAt o.pa
  let b := g.localAt o.pb
  let row (i : Nat) : List Nat := (List.range 64).map fun j => t o.a i j
  let r := s.mxView g o
  match o.kind with
  | .mm f acc k =>
    s.writeTile g.gid o.d fun i j =>
      mxReduce f (if acc then some (t o.d i j) else none)
        ((List.range (mmKel f (kbBytes k))).map fun m => (r.mxElt f (kbBytes k) a i m, r.mxElt f (kbBytes k) b j m))
  | .sp f acc k =>
    s.writeTile g.gid o.d fun i j =>
      mxReduce f (if acc then some (t o.d i j) else none)
        ((List.range (mmKel f 512)).map fun m => (r.mxElt f 512 a i m, r.spElt f (keepNum k) b j (16 * (m / keepNum k) + r.spIdx f a i m)))
  | .xpose => s.writeTile g.gid o.d fun i j => ⟨t o.a j i, 0⟩
  | .perm => s.writeTile g.gid o.d fun i j =>
      let v := (r.byte (b + i)).toNat
      ⟨if 64 ≤ v then 0 else t o.a v j, 0⟩
  | .rsumF32 => s.writeTile g.gid o.d fun i _ =>
      let vs := (row i).map fmtF32.decode
      windowSum true false (vs.any fun v => v.nv != 0) vs
  | .rsumI32 => s.writeTile g.gid o.d fun i _ => satSum ((row i).map (intOf 32 true))
  | .zero => (s.writeTile g.gid o.d fun _ _ => ⟨0, 0⟩).wr (tflagsKey g.gid o.d) 4 0
  | .scacc => s.writeTile g.gid o.d fun i j =>
      let inner := fmtF32.mulBits .ne (r.rd (b + 4 * i) 4) (r.rd (b + 256 + 4 * j) 4)
      let z := fmtF32.fmaBits .ne (t o.a i j) inner.bits (t o.d i j)
      ⟨z.bits, inner.fl ||| z.fl⟩
  | .cvtF32I32 => s.writeTile g.gid o.d fun i j => cvtConvert .f32 .ne false (cvtValue .i32 (t o.a i j))
  | .cvtI32F32 => s.writeTile g.gid o.d fun i j => cvtConvert .i32 .ne false (cvtValue .f32 (t o.a i j))

/-- MATRIX_OP_RETIRE (R295). -/
def execMatrixOpRetire (core : Nat) (s : State) : Out :=
  .next (match (s.mxGangs core).find? fun g => g.array.isSome with
    | none => s
    | some g => match g.array with
      | none => s
      | some o => (s.mxRun g o).setGang { g with array := none })

/-! ### Tile access (R305) -/

/-- The request of a lane's access to a tile: a word of it, or TFLAGS. -/
def accReq (t : BitVec 4) (l : Nat) (x : Word) (val : Word) : Req :=
  { lane := l, addr := if x.toNat ≤ 0xFFF then BitVec.ofNat 64 (0xFFF4 * 2 ^ 48 + t.toNat * 2 ^ 14 + 4 * x.toNat) else x.setWidth 64
    val := if x = 0x1000 then (val &&& 0x3F).setWidth 64 else val.setWidth 64 }

/-- What R305 finds of a lane's index. -/
def State.accPre (s : State) (t : BitVec 4) (x : Word) : Pre :=
  if 0x1000 < x.toNat then .off 0x0B
  else if x = 0x1000 then .ok (.mem (tflagsKey s.gang.gid t.toNat)) none
  else .ok (.mem (tileKey s.gang.gid t.toNat (4 * x.toNat))) none

/-- acc.ld and acc.st (R305). -/
def State.accMem (s : State) (f : MemForm) (t : BitVec 4) (idx val : Nat → Word) : State :=
  if !s.gang.mx then s.progErr 0x0D06 0
  else if s.gang.owner t.toNat ≠ s.me.w + 1 then s.trap 3 t.toNat 0
  else
    let ps := (lanesOf s.memMask).map fun l => (accReq t l (idx l) (val l), s.accPre t (idx l))
    match s.rangeHits f ps with
    | h :: hs => s.rangeTrap (h :: hs)
    | [] => ((s.laneOff (offsOf ps)).performAll f false (goodOf ps)).settleFrom s.me.live.length

/-- ACC_LD (R305). -/
def execAccLd (d : BitVec 7) (t : BitVec 4) (b : BitVec 7) (s : State) : Out :=
  .next (s.accMem { op := .accLd, kind := .read, allow := .plain, size := 4, dreg := some d.toNat } t (s.v b) fun _ => 0)
/-- ACC_ST (R305). -/
def execAccSt (d : BitVec 7) (t : BitVec 4) (b : BitVec 7) (s : State) : Out :=
  .next (s.accMem { op := .accSt, kind := .write, allow := .plain, size := 4 } t (s.v b) (s.v d))

/-! ### Plane packing (R306) -/

/-- The width of a width code. -/
def planeWidth (code : Nat) : Nat := 2 ^ (code % 4 + 1)

/-- Bit `p` of the packed chunk is this bit of the unpacked one. -/
def packBit (w p : Nat) : Nat := p % (1024 / w) * w + p / (1024 / w)
/-- Bit `p` of the unpacked chunk is this bit of the packed one. -/
def unpackBit (w p : Nat) : Nat := p % w * (1024 / w) + p / w

/-- Bit `p` of the chunk that the lanes hold; an inactive lane contributes 0. -/
def State.chunkBit (s : State) (a : BitVec 7) (p : Nat) : Bool := s.act (p / 32) && (s.v a (p / 32)).getLsbD (p % 32)

/-- plane.pack and plane.unpack by the bit that each bit comes from. -/
def State.planeMove (s : State) (d a b : BitVec 7) (src : Nat → Nat → Nat) : State :=
  let x := s.v b s.first
  let code := x.toNat % 8
  if 3 < code then s.progErr 0x0D05 (x.setWidth 64)
  else s.setV d fun l => maskOf fun j => s.chunkBit a (src (planeWidth code) (32 * l + j))

/-- PLANE_PACK (R306). -/
def execPlanePack (d a b : BitVec 7) (s : State) : Out := .next (s.planeMove d a b packBit)
/-- PLANE_UNPACK (R306). -/
def execPlaneUnpack (d a b : BitVec 7) (s : State) : Out := .next (s.planeMove d a b unpackBit)

end Sys2Proof.Machine
end

