-- ==== Sys2Proof/Machine/Engine.lean ====
section
/-! DEFINITION. Engine operations after their issue: places in queues, lock entries, the start on an engine and its budget, completion, and the
replay of paths held on locked ranges (03_tasks R85, 05_events R126, 09_ordering R221 to R226, 11_copy R267). -/

namespace Sys2Proof.Machine

/-! ### Registration of waiting operations (R223, R267) -/

/-- The checks of an operation, made again from what it read when it issued. -/
def State.evalBody (s : State) (o : EngOp) : Eval :=
  match o.body with
  | .copy fill regs _ _ => s.evalCopy fill regs o.dmask
  | .stream q x => s.evalOpen q x o.dmask o.closing
  | .gfx k d lanes block => s.evalGfx k d lanes block

/-- The place of an operation's chain group. -/
def EngOp.here (o : EngOp) : Here := { pc := o.pc, wpos := o.wpos, npc := o.npc, nwpos := o.nwpos }

/-- The state without a waiting operation, in which it is tried again. -/
def State.without (s : State) (i : Nat) : State := { s with ops := s.ops.filter fun o => o.id != i }

/-- Puts a waiting operation, tried again, back in its place of the order. -/
def State.keepWaiting (s : State) (o p : EngOp) : State :=
  { s with ops := s.ops ++ [{ o with id := p.id, phase := .waitEntries, locks := [], arr := p.arr, placed := p.placed }] }

/-- A waiting operation's outcome once its checks are made again: it issued when it did before (17_debug R375). -/
def Eval.since (birth : Nat) : Eval → Eval
  | .no s => .no s
  | .wait s o => .wait s { o with birth := birth }
  | .ok s o => .ok s { o with birth := birth }

/-- The path of an operation that has no lane left, put in focus as a path without lanes. -/
def State.ghost (s : State) (o : EngOp) : State :=
  if (s.me.path? o.path).isSome then s
  else { s with me := { s.me with cur := { id := o.path, mask := 0, fenced := o.fenced }, paths := s.me.live } }

/-- Gives a waiting operation to `go` once its checks are made again in its path, or to `wait` where it lacks a bounce slot; where a check fails, the path
goes back to its word. Warps that exited leave their groups where this was the last that they waited for (03_tasks R77). -/
def State.readmit (s : State) (p : EngOp) (wait go : State → EngOp → State) : State :=
  ((s.without p.id).withPath p.gid p.w p.path p.here fun t => match ((t.ghost p).evalBody p).since p.birth with
    | .no u => u
    | .wait u o => wait u o
    | .ok u o => go u o).leaveDue

/-- COPY_QUEUE_ADMIT (R267, 14_beams R308): a free place of one of a core's two queues goes to the operation that has waited longest, which keeps it where
it lacks lock entries. What its checks read is held in the window of the memory clock (16_stack R360). -/
def execCopyQueueAdmit (core : Nat) (s : State) : Out :=
  .next (if s.windowMiss then s else match earliestOf (s.ops.filter fun o => o.phase == .waitPlace && (match o.queue with | some q => q.1 == core && !s.queueFull q | none => false)) with
    | none => s
    | some p => s.readmit p (fun u o => u.addWaiting { o with placed := true } .waitEntries) fun u o => u.tryRegister { o with placed := true })

/-- The checks of a waiting operation with lock entries to be had, or a failure. -/
def State.grantable (s : State) (p : EngOp) : Bool :=
  let t := (s.without p.id).focus p.gid p.w
  let t := { t with me := t.me.select p.path, here := p.here, issue := .lane }
  match (t.ghost p).evalBody p with
  | .no _ => true
  | .wait _ _ => false
  | .ok u o => !(p.queue.any u.queueFull) && (u.entriesFor o.ranges fun a => lexLt a p.arr).isSome

/-- RANGE_ENTRY_GRANT (R223): entries go to the waiting operations in their order of arrival; where none gets any, a resumed warp's open store stream
whose hull is not registered yet is tried (12_streams R281). What their checks read is held in the window of the memory clock (16_stack R360). -/
def execRangeEntryGrant (s : State) : Out :=
  let mig := (s.sys.migs.filter fun m => m.arr != []).findSome? fun m => (s.grantMig m).map fun t => (m.arr, t)
  .next (if s.windowMiss then s else match earliestOf (s.ops.filter fun o => o.phase == .waitEntries && s.grantable o && !mig.any fun x => lexLt x.1 o.arr), mig with
    | none, some (_, t) => t.leaveDue
    | none, none => ((s.allWarps.filter fun x => x.gid != 0 && !x.exited && x.pre.st != .saved && x.streamShut).map fun x => (x.gid, x.w)).foldl (fun s k => s.reopenStreams k.1 k.2) s
    | some p, _ => s.readmit p (fun u o => u.keepWaiting o p) fun u o => match u.entriesFor o.ranges fun a => lexLt a p.arr with
      | some ls => u.register o ls
      | none => u.keepWaiting o p)

/-! ### Starting (R85, R222) -/

/-- The core that stands for an operation's engine: engine k of a pair of cores, raster unit k div 4, or a core's own copy engine (R308). -/
def EngOp.engine (o : EngOp) : Nat :=
  32 * o.stk + (if o.cls = 4 then o.core else if o.cls = 3 then o.core % 16 / 4 * 4 else o.core % 16)

/-- Where an engine's busy time is charged to an activity: beam, ray and texture operations share one engine (14_beams R308). -/
def engineUse (cls alm : Nat) : Nat := (64 + (if cls < 3 then 0 else cls)) * 32 + alm

/-- Cycles (base) since the period began, at 1.4 a tick. -/
def State.baseCycles (s : State) : Nat := (s.now - s.pkg.pstart).toNat * 7 / 5 + 1

/-- EBUD and EFLR of an activity; an unused entry counts as 256 and 0. -/
def State.engineBudget (s : State) (a : Nat) : Nat × Nat :=
  let e := (smGet (0 : BitVec 64) s.pkg.alm a).toNat
  if e % 16 = 0 then (256, 0) else (e / 2 ^ 55 % 512, e / 2 ^ 46 % 512)

/-- The almanac entries that an operation is charged to: its activity's own, and those of kind 2 that name its engine class (R82). -/
def State.almEntries (s : State) (o : EngOp) : List Nat :=
  (o.alm :: (List.range 32).filter fun e => let v := (smGet (0 : BitVec 64) s.pkg.alm e).toNat; v % 16 == 2 && v / 2 ^ 16 % 2 ^ 12 == o.cls).eraseDups

/-- Busy cycles of an operation's engine that are charged to an almanac entry in this period. -/
def State.engineUsed (s : State) (o : EngOp) (e : Nat) : Nat := smGet 0 (s.core o.engine).used (engineUse o.cls e)

/-- An entry that an operation is charged to is over budget on its engine. -/
def State.engineOver (s : State) (o : EngOp) : Bool :=
  s.enforced && (s.almEntries o).any fun e => decide ((s.engineBudget e).1 < 256) && decide ((s.engineBudget e).1 * s.baseCycles ≤ s.engineUsed o e * 256)
/-- An entry that an operation is charged to is under floor on its engine. -/
def State.engineUnder (s : State) (o : EngOp) : Bool :=
  s.enforced && (s.almEntries o).any fun e => decide (s.engineUsed o e * 256 < (s.engineBudget e).2 * s.baseCycles)

/-- Nothing holds a registered operation back: neither budget, nor earlier locks, nor an earlier pool effect of its gang. -/
def State.startable (s : State) (o : EngOp) : Bool :=
  o.phase == .registered && !s.engineOver o && !s.blocked o.id o.locks &&
    !(o.pool && s.ops.any fun p => p.pool && p.gid == o.gid && decide (p.id < o.id) && (p.phase == .registered || p.more))

/-- Two operations go to the same engine: beam, ray and texture operations share one (14_beams R308). -/
def EngOp.sameEngine (p o : EngOp) : Bool := p.engine == o.engine && (p.cls == o.cls || (decide (p.cls < 3) && decide (o.cls < 3)))

/-- An operation that goes before another of the same queue or engine: floor first, then in order of arrival (R85). -/
def State.goesBefore (s : State) (p o : EngOp) : Bool :=
  ((p.queue.isSome && p.queue == o.queue) || p.sameEngine o) && s.startable p &&
    ((s.engineUnder p && !s.engineUnder o) || (s.engineUnder p == s.engineUnder o && decide (p.id < o.id)))

/-- What an operation does on its engine, or the record that it has still to read (14_beams R309). -/
def State.engineRun (s : State) (o : EngOp) : Except (Nat × Nat) (State × List (Nat × BitVec 8) × List (Nat × Nat × BitVec 32)) :=
  match o.body with
  | .copy fill _ src dst => .ok (s, (s.sourceView o).copyBytes o.segs fill src dst, [])
  | .stream _ _ => .ok (s, [], [])
  | .gfx k d lanes block => s.gfxRun o k d lanes block

/-- A byte at a key of a bounce slot that an operation uses: the slot and the byte's offset (10_translation R247). -/
def State.slotOf (s : State) (o : EngOp) (k : Nat) : Option (Nat × Nat) :=
  (o.bounced.find? fun b => let p := s.slotPa (b.1 / 256) (b.1 % 256); decide (p ≤ k) && decide (k < p + 2 ^ 16)).map fun b =>
    (b.1, k - s.slotPa (b.1 / 256) (b.1 % 256))

/-- Writes a byte into a bounce slot and marks it. -/
def State.bounceByte (s : State) (b off : Nat) (v : BitVec 8) : State :=
  let pa := s.slotPa (b / 256) (b % 256)
  let m := pa + 2 ^ 16 + off / 8
  let s := (s.put (pa + off) [v]).put m [s.byte m ||| BitVec.ofNat 8 (2 ^ (off % 8))]
  let k := s.stk (b / 256)
  let x := smGet {} k.bslots (b % 256)
  s.setStk (b / 256) { k with bslots := smPut {} k.bslots (b % 256) { x with marks := x.marks ++ [(off, 1)] } }

/-- Charges an operation's busy time on its engine, at its start (R85, log 6). -/
def State.chargeEngine (s : State) (o : EngOp) : State :=
  let c := s.core o.engine
  if o.cls < 5 then s.setCore o.engine { c with used := (s.almEntries o).foldl (fun us e => smPut 0 us (engineUse o.cls e)
    (smGet 0 us (engineUse o.cls e) + (Config.engineCycles o.id).toNat)) c.used } else s

/-- The work of an operation on its engine in one event: it reads one record more, or, where it has read all, does what it does; its writes to bounce
slots are made. Where an earlier lock holds the read back, or the matrix array bytes of the pool (13_matrix R296), nothing happens. The pages that it
translates on the way are among those a shootdown finds it to use (10_translation R243). -/
def State.engineWork (s : State) (o : EngOp) : Option State :=
  let set_ (t : State) (f : EngOp → EngOp) : State := t.mapOps fun p => if p.id == o.id then f p else p
  match s.engineRun o with
  | .error (a, n) =>
    let keep (t : State) (r : Option (List (BitVec 8))) : Option State :=
      let ps := if a / 2 ^ 48 = 0 && r.isSome then (cutVa a 3 n).map fun c => (o.asid, c.1 / 2 ^ 16) else []
      some (set_ t fun p => { p with phase := .started, more := true, tape := p.tape.map fun l => l ++ [((a, n), r)], pages := (p.pages ++ ps).eraseDups })
    match s.engLoad o a n with
    | (t, .ok bs) => keep t (some bs)
    | (t, .error .sfault) => keep t none
    | (_, .error _) => none
  | .ok (t, ws, rs) =>
    if o.pool && (s.gangOf? o.gid).any fun g => s.mxHolds g.poolKey (poolBytes g.pool) then none else
    let t := ws.foldl (fun t w => match s.slotOf o w.1 with
      | some (b, off) => t.bounceByte b off w.2
      | none => t) t
    some (set_ t fun p => { p with phase := .started, more := false, tape := some [], writes := ws.filter fun w => (s.slotOf o w.1).isNone, results := rs })

/-- ENGINE_QUEUE_START (R85): an operation starts, or one that started goes on with what it has to read (14_beams R309). -/
def execEngineQueueStart (op : Nat) (s : State) : Out :=
  .next (match s.ops.find? fun o => o.id == op with
    | none => s
    | some o =>
      if o.more then (s.engineWork o).getD s
      else if !s.startable o || s.ops.any fun p => s.goesBefore p o then s
      else match s.engineWork o with
        | none => s
        | some t => t.chargeEngine o)

/-! ### Completion (R221, R225, R226) -/

/-- Releases the paths of a warp that wait in fence.e for operations that are all complete (R232). -/
def State.releaseFences (s : State) : State :=
  s.mapWarps fun x => x.mapPaths fun p => match p.st with
    | .held (.fenceE ids) => if ids.any fun i => s.ops.any fun o => o.id == i then p else { p with st := x.woken }
    | _ => p

/-- The key of the slot that an operation reports to. -/
def State.slotKeyOf (s : State) (o : EngOp) : Option Nat :=
  match o.slot, s.gangOf? o.gid with
  | some off, some g => some (localKey (32 * g.stk + g.core) (g.base + off))
  | _, _ => none

/-- What an operation's completion event reports: its stamp and its slot, as keys and lengths. -/
def State.reports (s : State) (o : EngOp) : List (Nat × Nat) :=
  (o.stamp.toList.map fun x => (x.1, 8)) ++ (s.slotKeyOf o).toList.map fun k => (k, 16)

/-- Nothing holds the completion event of a started operation back: no bounced page, no earlier lock on its ranges, no lock of another on its stamp or slot
(R222), no source bytes held by the matrix array, no memory-clock window. -/
def State.completable (s : State) (o : EngOp) : Bool :=
  o.phase == .started && !o.more && o.closing && o.bounced == [] && !s.blocked o.id o.locks &&
    !((s.reports o).any fun x => s.lockedBy o.id x.1 x.2 || s.mxHolds x.1 x.2) &&
    !(o.writes.any fun w => s.mxHolds w.1 1) && !(o.segs.any fun g => s.windowHolds g.key)

/-- The registers of a warp after the results of an operation. -/
def Regs.takeResults (r : Regs) (rs : List (Nat × Nat × BitVec 32)) : Regs :=
  rs.foldl (fun r x => r.putV x.1 (laneBit x.2.1) fun _ => x.2.2) r

/-- What the issuing warp sees of a completion: registers, the .beam count, a stream's register. -/
def Warp.takeCompletion (x : Warp) (o : EngOp) : Warp :=
  let x := if x.pre.st == .saved && x.pre.byDone then x else { x with regs := x.regs.takeResults o.results }
  let x := if o.cls < 4 then { x with beams := x.beams + 1 } else x
  match o.body with
  | .stream q _ =>
    let y := smGet {} x.streams q
    if y.op = some o.id && y.st == .closing then { x with streams := smPut {} x.streams q { y with st := .closed, op := none } } else x
  | _ => x

/-- The sources of an operation after the completion event of another: one that registered later reads them after it (R222). -/
def EngOp.seesWrites (p o : EngOp) : EngOp :=
  if o.id < p.id && p.registered then
    let seen := o.writes.filter fun w => p.ranges.any fun r => !r.full && decide (r.base ≤ w.1) && decide (w.1 < r.base + r.len)
    { p with snap := seen.foldl (fun m w => smPut unwritten m w.1 w.2) p.snap }
  else p

/-- Watch predicates look at the lane registers that a completion wrote (17_debug R366, R367). -/
def State.sawResults (s : State) (o : EngOp) : State :=
  if o.results = [] then s
  else match s.warpOf? o.gid o.w with
    | none => s
    | some x => if x.exited || x.pre.st == .saved then s
      else s.within o.gid o.w fun t =>
        ({ t with me := { t.me with obs := { regs := o.results.map fun r => (r.1, laneBit r.2.1) } } } : State).watchLate o.path o.pc o.wpos o.birth

/-- The completion event of an operation. -/
def State.complete (s : State) (o : EngOp) : State :=
  let s := s.putAll (o.writes ++ (match o.stamp with | some (k, v) => runAt k (leBytes 8 v.toNat) | none => []))
  let s := s.mapOps fun p => p.seesWrites o
  let s := match s.slotKeyOf o with
    | some k => s.putSlot k ((s.slotAt k).owe (-1))
    | none => s
  let s := s.mapWarps fun x => if x.gid == o.gid && x.w == o.w then x.takeCompletion o else x
  (s.without o.id).releaseFences.sawResults o

/-- ENGINE_COMPLETION (R221). -/
def execEngineCompletion (op : Nat) (s : State) : Out :=
  .next (match s.ops.find? fun o => o.id == op with
    | none => s
    | some o => if s.completable o then s.complete o else s)

/-! ### Replay (R126) -/

/-- RANGE_REPLAY (R126): a path held on locked ranges issues its chain group again once the locks are released. -/
def execRangeReplay (gid w path : Nat) (s : State) : Out :=
  .next (match (s.warpOf? gid w).bind fun x => x.path? path with
    | some p => match p.st with
      | .held (.range ids) =>
        if ids.any fun i => (s.ops.any fun o => o.id == i) || s.sys.migs.any fun m => m.id == i then s
        else s.onPath gid w path fun x p => { p with st := x.woken }
      | _ => s
    | none => s)

end Sys2Proof.Machine
end

