-- ==== Sys2Proof/Machine/Events.lean ====
section
/-! DEFINITION. Event registers, mailboxes, traps and pre-emption by instruction (05_events R114 to R135). -/

namespace Sys2Proof.Machine

/-! ### The objects that event registers and mwait watch -/

/-- The values an event register's object took since the arm, and now first where `fresh`. The self-address word holds what the gang's place gives it.
R200 and R222 do not say what the arm's read does of a remote-local location that its target would refuse to read, or of a locked one: it reads the
bytes as they stand (the model's choice, log 21). -/
def State.valuesOf (s : State) (g : Gang) (e : EvReg) (fresh : Bool) : List (BitVec 64) :=
  if e.obj = selfAddr then [({ s with gang := g } : State).selfWord]
  else match s.watchKey g e.obj e.frame with
  | none => []
  | some k => (if fresh then [s.rd64 (k / 8 * 8)] else []) ++ s.valuesPast e.past ++ s.valuesSince k e.since

/-- The condition of an event register of warp `x` of gang `g` (R115, R116): the value of VAL where it holds. `fresh` evaluates it at the
arm, else over what came after. -/
def State.evCond (s : State) (g : Gang) (x : Warp) (e : EvReg) (fresh : Bool) : Option (BitVec 32) :=
  match e.kind with
  | .dline => if e.arg ≤ s.now then some (s.now.setWidth 32) else none
  | .stamp => ((s.valuesOf g e fresh).find? fun v => e.arg ≤ v).map (BitVec.setWidth 32)
  | .bar =>
    if fresh then
      match s.inst? g.inst with
      | none => none
      | some i =>
        let G := i.group e.obj.toNat
        if G.phase ≠ smGet 0 G.aphase (memberNo g.index x.w) then some (G.phase - 1) else none
    else ((s.valuesSince (8 * grpNote g.inst e.obj.toNat) e.since).head?).map (BitVec.setWidth 32)
  | .tbr => ((s.valuesOf g e fresh).find? fun v => v.setWidth 32 ≠ e.arg.setWidth 32).map (BitVec.setWidth 32)
  | .mbox =>
    match s.mboxKey (e.obj.setWidth 32) with
    | none => some 0xFFFFFFFF
    | some k => (((if fresh then [s.rd64 k] else []) ++ s.valuesSince k e.since).find? fun v => v ≠ 0).map (BitVec.setWidth 32)
  | .beam => if e.arg ≤ x.beams then some (x.beams.setWidth 32) else none
  | .tok =>
    if fresh then (if smGet 0 g.tokens e.obj.toNat = x.w + 1 then some (e.obj.setWidth 32) else none)
    else if (s.valuesSince (8 * tokNote g.gid e.obj.toNat) e.since).any fun v => v.toNat == x.w + 1 then some (e.obj.setWidth 32) else none

/-! ### Arm, disarm, inspect, wait (R118 to R120) -/

/-- valid_obj of R119, and for a read of global memory its fault. -/
inductive ObjCheck where
  | bad
  | fault (code : Nat)
  | good
  | goodAt (key : Nat)
  deriving DecidableEq, Repr

def objOf (b : Bool) : ObjCheck := if b then .good else .bad

/-- valid_obj (R119) with the translation of the ordered read of kinds 1 and 3, and where a global object lies. -/
def State.validObj (s : State) (k : EvKind) (obj : BitVec 64) : State × ObjCheck :=
  let ap := obj.toNat / 2 ^ 48
  match k with
  | .dline | .beam => (s, objOf (obj == 0))
  | .stamp =>
    if ap ≠ 0 && ap ≠ 0xFFF0 && ap ≠ 0xFFF2 && ap ≠ 0xFFF3 then (s, .bad)
    else match s.steer s.first .plain 8 8 true obj with
      | .error _ => (s, .bad)
      | .ok (.global va) => match s.translate .read va with
        | (t, .ok k) => (t, .goodAt k)
        | (t, .error c) => (t, .fault c)
      | .ok _ => (s, .good)
  | .tbr =>
    if ap ≠ 0xFFF0 then (s, .bad)
    else match s.steer s.first .plain 16 16 false obj with
      | .ok _ => (s, .good)
      | .error _ => (s, .bad)
  | .bar =>
    match s.inst? s.gang.inst with
    | none => (s, .bad)
    | some i => (s, objOf (decide (obj.toNat < i.entry.ngroups) &&
        (i.group obj.toNat).members.contains (memberNo s.gang.index s.me.w)))
  | .mbox => (s, objOf (obj.toNat < 2 ^ 32 && (s.mboxKey (obj.setWidth 32)).isSome))
  | .tok => (s, objOf (decide (obj.toNat ≤ 15) && s.gang.mx))

def State.evReg (s : State) (n : Nat) : EvReg := smGet {} s.me.ev n
def State.setEv (s : State) (n : Nat) (e : EvReg) : State := { s with me := { s.me with ev := smPut {} s.me.ev n e } }

/-- Arms an event register, with its condition evaluated (R116). -/
def State.arm (s : State) (n : Nat) (e : EvReg) : State :=
  match s.evCond s.gang s.me e true with
  | some x => s.setEv n { e with pend := true, val := x }
  | none => s.setEv n e

/-- EV_ARM (R116, R119). The ordered read of GDDR waits for the window of the memory clock (16_stack R360). -/
def execEvArm (k : EvKind) (n : BitVec 3) (u : BitVec 6) (s : State) : Out :=
  let obj := s.uuAt u 0
  let arg := s.uuAt u 2
  let h := s.uuAt u 4
  .next (if h.toNat / 2 ^ 48 ≠ 0 || h.toNat % 12 ≠ 0 then s.progErr 0x0501 h
    else match s.validObj k obj with
      | (_, .bad) => s.progErr 0x0501 obj
      | (_, .fault c) => s.park 1 c obj 0 s.me.cur.mask
      | (t, .good) => t.arm n.toNat { kind := k, armed := true, obj := obj, arg := arg, handler := h, since := t.journal.length }
      | (t, .goodAt key) => if s.windowHolds key then s.retry else
        t.arm n.toNat { kind := k, armed := true, obj := obj, arg := arg, handler := h, since := t.journal.length, frame := key })

/-- EV_DISARM (R119). -/
def execEvDisarm (n : BitVec 3) (s : State) : Out :=
  .next (s.setEv n.toNat { s.evReg n.toNat with armed := false, pend := false, val := 0 })

/-- One bit of each event register, by its number. -/
def State.evBits (s : State) (f : EvReg → Bool) : BitVec 8 := BitVec.ofNat 8 (maskNat (fun i => f (s.evReg i)) 8)

/-- EV_PEND (R119). -/
def execEvPend (d : BitVec 7) (a : BitVec 3) (s : State) : Out :=
  let w : BitVec 32 := (s.evBits EvReg.armed ++ s.evBits EvReg.pend).setWidth 32
  .next (s.setVV d fun _ => (s.evReg a.toNat).val ++ w)

/-- WAIT_ANY (R120): the path waits at its own place until a delivery. -/
def execWaitAny (u : BitVec 6) (s : State) : Out :=
  let m : BitVec 8 := (s.u u).setWidth 8
  .next (if m &&& s.evBits EvReg.armed = 0 then s.progErr 0x0502 (m.setWidth 64)
    else s.holdHere (.events m s.point))

/-! ### Mailboxes (R123 to R125) -/

/-- The generic address of a mailbox's key. -/
def mboxAddr (k : Nat) : BitVec 64 := BitVec.ofNat 64 (0xFFF3 * 2 ^ 48 + (k - 2 ^ 41) / 2 ^ 24 * 2 ^ 45 + k % 2 ^ 24)

/-- An atomic of a mailbox instruction meets the range locks as a lane's does (09_ordering R222). -/
def State.mboxLocked (s : State) (k : Nat) : Option State :=
  match s.conflicts k 8 true with
  | [] => none
  | h :: hs => some (s.rangeTrap [({ lane := s.first, addr := mboxAddr k }, h :: hs)])

/-- MBOX_SEND (R125). -/
def execMboxSend (d : BitVec 7) (u : BitVec 6) (s : State) : Out :=
  let tok := s.uuAt u 0
  .next (match s.mboxKey (s.un (u.toNat + 2)) with
    | none => s.setV d fun _ => 3
    | some k =>
      if tok = 0 then s.setV d fun _ => 2
      else match s.mboxLocked k with
        | some t => t
        | none => if s.rd k 8 = 0 then (s.wr k 8 tok.toNat).setV d fun _ => 0 else s.setV d fun _ => 1)

/-- MBOX_RECV (R125). -/
def execMboxRecv (d : BitVec 7) (u : BitVec 6) (s : State) : Out :=
  .next (match s.mboxKey (s.u u) with
    | none => s.setVV d fun _ => 0
    | some k => match s.mboxLocked k with
      | some t => t
      | none => (s.wr k 8 0).setVV d fun _ => s.rd64 k)

/-! ### Traps and pre-emption (R130 to R135) -/

/-- TRAP (R131). -/
def execTrap (a : BitVec 6) (i : BitVec 8) (s : State) : Out :=
  .next (s.trap 4 i.toNat (if a = 0 then 0 else s.uu a))

/-- TRAP_RET (R131). -/
def execTrapRet (k : TrapRet) (s : State) : Out :=
  let p := s.me.cur
  .next (match p.hmode, k with
    | .trap, .replay => s.leaveHandler (p.tpc, p.twpos)
    | .trap, .next => s.leaveHandler (p.tnpc, p.tnwpos)
    | .pre, .resume => if s.me.pre.st = .resumed then s.endPrePath else s.progErr 0x0503 0
    | _, _ => s.progErr 0x0503 0)

/-- PRE_DONE (R135). The rule sets the PC to pair(sA) and makes no check of it: the low 48 bits are taken, whatever they are (the model's choice, log 45). -/
def execPreDone (a : BitVec 6) (s : State) : Out :=
  .next (if s.me.cur.hmode ≠ .pre then s.progErr 0x0504 0
    else if s.me.pre.st = .resumed then s.jump ((s.uu a).setWidth 48)
    else (s.hold (.preDone (s.uu a))).settle)

/-- PRE_MASK (R133). -/
def execPreMask (k : Bool) (s : State) : Out :=
  .next (s.setPre { s.me.pre with mask := k }).tryPre

end Sys2Proof.Machine
end

