-- ==== Sys2Proof/Machine/Integer.lean ====
section
/-! DEFINITION. Lane integer instructions (06_integer R140 to R154): majors 0x06 to 0x08, icmp, mix32, sel, mov and movs. They write only the
active lanes, never trap and set no flag (R140, R141). -/

namespace Sys2Proof.Machine

/-- Value of a sign-extended immediate, or of an extension word's (02_encoding R29, R32). -/
def immS {n : Nat} : Imm n → Word
  | .short v => v.signExtend 32
  | .long v => v
/-- Value of a zero-extended immediate, or of an extension word's. -/
def immZ {n : Nat} : Imm n → Word
  | .short v => v.setWidth 32
  | .long v => v

/-- vD := f of vA. -/
def State.map1 (s : State) (d a : BitVec 7) (f : Word → Word) : State := s.setV d fun l => f (s.v a l)
/-- vD := f of vA and vB. -/
def State.map2 (s : State) (d a b : BitVec 7) (f : Word → Word → Word) : State := s.setV d fun l => f (s.v a l) (s.v b l)
/-- vD := f of vD, vA and vB. -/
def State.map3 (s : State) (d a b : BitVec 7) (f : Word → Word → Word → Word) : State := s.setV d fun l => f (s.v d l) (s.v a l) (s.v b l)

/-- IADD (R146). -/
def execIadd (d a b : BitVec 7) (s : State) : Out := .next (s.map2 d a b (fun a b => a + b))

/-- ISUB (R146). -/
def execIsub (d a b : BitVec 7) (s : State) : Out := .next (s.map2 d a b (fun a b => a - b))

/-- IMUL (R146). -/
def execImul (d a b : BitVec 7) (s : State) : Out := .next (s.map2 d a b (fun a b => a * b))

/-- IMULHI32 (R146). -/
def execImulhI32 (d a b : BitVec 7) (s : State) : Out := .next (s.map2 d a b mulhI)

/-- IMULHN32 (R146). -/
def execImulhN32 (d a b : BitVec 7) (s : State) : Out := .next (s.map2 d a b mulhN)

/-- IMINI32 (R146). -/
def execIminI32 (d a b : BitVec 7) (s : State) : Out := .next (s.map2 d a b minI)

/-- IMINN32 (R146). -/
def execIminN32 (d a b : BitVec 7) (s : State) : Out := .next (s.map2 d a b minN)

/-- IMAXI32 (R146). -/
def execImaxI32 (d a b : BitVec 7) (s : State) : Out := .next (s.map2 d a b maxI)

/-- IMAXN32 (R146). -/
def execImaxN32 (d a b : BitVec 7) (s : State) : Out := .next (s.map2 d a b maxN)

/-- IMAD (R146). -/
def execImad (d a b : BitVec 7) (s : State) : Out := .next (s.map3 d a b fun d a b => a * b + d)

/-- IABS (R146). -/
def execIabs (d a : BitVec 7) (s : State) : Out := .next (s.map1 d a absW)

/-- INEG (R146). -/
def execIneg (d a : BitVec 7) (s : State) : Out := .next (s.map1 d a fun a => -a)

/-- LEA (R146). -/
def execLea (d a b : BitVec 7) (s : State) : Out := .next (s.setVV d fun l => s.vv a l + (s.v b l).signExtend 64)

/-- IADD64 (R146). -/
def execIadd64 (d a b : BitVec 7) (s : State) : Out := .next (s.setVV d fun l => s.vv a l + s.vv b l)

/-- AND (R148). -/
def execAnd (d a b : BitVec 7) (s : State) : Out := .next (s.map2 d a b (fun a b => a &&& b))

/-- OR (R148). -/
def execOr (d a b : BitVec 7) (s : State) : Out := .next (s.map2 d a b (fun a b => a ||| b))

/-- XOR (R148). -/
def execXor (d a b : BitVec 7) (s : State) : Out := .next (s.map2 d a b (fun a b => a ^^^ b))

/-- ANDN (R148). -/
def execAndn (d a b : BitVec 7) (s : State) : Out := .next (s.map2 d a b (fun a b => a &&& ~~~b))

/-- SHL (R143). -/
def execShl (d a b : BitVec 7) (s : State) : Out := .next (s.map2 d a b (fun a c => a <<< c))

/-- SHR (R143). -/
def execShr (d a b : BitVec 7) (s : State) : Out := .next (s.map2 d a b (fun a c => a >>> c))

/-- SAR (R143). -/
def execSar (d a b : BitVec 7) (s : State) : Out := .next (s.map2 d a b sarW)

/-- ROT (R143). -/
def execRot (d a b : BitVec 7) (s : State) : Out := .next (s.map2 d a b rotW)

/-- CLZ (R148). -/
def execClz (d a : BitVec 7) (s : State) : Out := .next (s.map1 d a clzW)

/-- POPC (R148). -/
def execPopc (d a : BitVec 7) (s : State) : Out := .next (s.map1 d a popW)

/-- BREV (R148). -/
def execBrev (d a : BitVec 7) (s : State) : Out := .next (s.map1 d a brevW)

/-- BFEN32 (R149). -/
def execBfeN32 (d a b : BitVec 7) (s : State) : Out := .next (s.map2 d a b bfeN)

/-- BFEI32 (R149). -/
def execBfeI32 (d a b : BitVec 7) (s : State) : Out := .next (s.map2 d a b bfeI)

/-- BFI (R149). -/
def execBfi (d a b : BitVec 7) (s : State) : Out := .next (s.map3 d a b bfiW)

/-- BILV (R150). -/
def execBilv (d a b : BitVec 7) (s : State) : Out := .next (s.map2 d a b bilvW)

/-- BDLV (R150). -/
def execBdlv (d a b : BitVec 7) (s : State) : Out := .next (s.map2 d a b bdlvW)

/-- IADDIMM (R151). -/
def execIaddImm (d a : BitVec 7) (i : Imm 8) (s : State) : Out := .next (s.map1 d a fun a => a + immS i)

/-- ANDIMM (R151). -/
def execAndImm (d a : BitVec 7) (i : Imm 8) (s : State) : Out := .next (s.map1 d a fun a => a &&& immZ i)

/-- ORIMM (R151). -/
def execOrImm (d a : BitVec 7) (i : Imm 8) (s : State) : Out := .next (s.map1 d a fun a => a ||| immZ i)

/-- XORIMM (R151). -/
def execXorImm (d a : BitVec 7) (i : Imm 8) (s : State) : Out := .next (s.map1 d a fun a => a ^^^ immZ i)

/-- SHLIMM (R151). -/
def execShlImm (d a : BitVec 7) (i : Imm 8) (s : State) : Out := .next (s.map1 d a fun a => a <<< immZ i)

/-- SHRIMM (R151). -/
def execShrImm (d a : BitVec 7) (i : Imm 8) (s : State) : Out := .next (s.map1 d a fun a => a >>> immZ i)

/-- SARIMM (R151). -/
def execSarImm (d a : BitVec 7) (i : Imm 8) (s : State) : Out := .next (s.map1 d a fun a => sarW a (immZ i))

/-- MOVI (R151). -/
def execMovi (d : BitVec 7) (i : Imm 8) (s : State) : Out := .next (s.setV d fun _ => immS i)

/-- ICMP (R152). -/
def execIcmp (k : ICond) (p : BitVec 3) (a b : BitVec 7) (s : State) : Out := .next (s.setP p fun l => icond k (s.v a l) (s.v b l))

/-- MIX32 (R154). -/
def execMix32 (d a b : BitVec 7) (s : State) : Out := .next (s.map2 d a b mix32)

/-- SEL (R153). -/
def execSel (d a b : BitVec 7) (p : BitVec 3) (s : State) : Out := .next (s.setV d fun l => if s.p p l then s.v a l else s.v b l)

/-- MOV (R153). -/
def execMov (d a : BitVec 7) (s : State) : Out := .next (s.setV d fun l => s.v a l)

/-- The core number that special registers read: the lower core's in a yoked pair (01_machine R15). -/
def State.coreShown (s : State) : Nat := if s.gang.yoked then s.gang.core % 16 else s.gang.core

/-- A 32-bit special register (01_machine R15); %lane is the lane's, and %warp reads 32 in the sequencer (13_matrix R288). -/
def State.special (s : State) (x : Special) (l : Nat) : Word :=
  BitVec.ofNat 32 (match x with
    | .lane => l
    | .warp => if s.issue = .seq then 32 else s.me.w
    | .gang => s.gang.index
    | .task => s.gang.task
    | .core => s.coreShown
    | .stack => s.gang.stk
    | .cluster => clusterOf s.coreNo
    | .plvl => (s.clu (clusterOf s.coreNo)).cur
    | .time => 0
    | .cyc => 0)

/-- %cyc. -/
def State.cycNow (s : State) : BitVec 64 := (s.core s.coreNo).cyc

/-- MOVS (R153). -/
def execMovs (d : BitVec 7) (x : Special) (s : State) : Out :=
  .next (match x with
    | .time => s.setVV d fun _ => s.now
    | .cyc => s.setVV d fun _ => s.cycNow
    | x => s.setV d fun l => s.special x l)

end Sys2Proof.Machine
end

