-- ==== Sys2Proof/Machine/LoadStore.lean ====
section
/-! DEFINITION. Loads, stores, atomics, exact accumulation cells, bank operations, prefetch, fence.e and mwait (08_memory R206 to R213,
09_ordering R231 to R234). -/

namespace Sys2Proof.Machine

/-- The address of an M word (02_encoding R31). -/
def State.mAddr (s : State) (a : BitVec 7) (o : Imm 8) (z : MemSize) (l : Nat) : BitVec 64 :=
  s.vv a l + (match o with | .short v => v.signExtend 64 | .long v => v.signExtend 64) * BitVec.ofNat 64 (sizeOf z)

/-- LD (R207). -/
def execLd (d a : BitVec 7) (o : Imm 8) (z : MemSize) (s : State) : Out :=
  .next (s.laneMem { op := .load z, kind := .read, allow := .plain, size := sizeOf z, dreg := some d.toNat }
    (s.reqs fun l => { lane := l, addr := s.mAddr a o z l }))

/-- ST (R207). -/
def execSt (d a : BitVec 7) (o : Imm 8) (z : MemSize) (s : State) : Out :=
  .next (s.laneMem { op := .store (sizeOf z), kind := .write, allow := .plain, size := sizeOf z }
    (s.reqs fun l => { lane := l, addr := s.mAddr a o z l, val := if z = .b64 then s.vv d l else (s.v d l).setWidth 64 }))

/-- The generic address of an ld.s or st.s offset (R208). -/
def State.sAddr (s : State) (a b : BitVec 7) (l : Nat) : BitVec 64 := 0xFFF1000000000000 + (s.v a l + s.v b l).setWidth 64

/-- LD_S_B32 (R208). -/
def execLdSB32 (d a b : BitVec 7) (s : State) : Out :=
  .next (s.laneMem { op := .load .b32, kind := .read, allow := .plain, size := 4, dreg := some d.toNat }
    (s.reqs fun l => { lane := l, addr := s.sAddr a b l }))
/-- LD_S_B64 (R208). -/
def execLdSB64 (d a b : BitVec 7) (s : State) : Out :=
  .next (s.laneMem { op := .load .b64, kind := .read, allow := .plain, size := 8, dreg := some d.toNat }
    (s.reqs fun l => { lane := l, addr := s.sAddr a b l }))
/-- ST_S_B32 (R208). -/
def execStSB32 (d a b : BitVec 7) (s : State) : Out :=
  .next (s.laneMem { op := .store 4, kind := .write, allow := .plain, size := 4 }
    (s.reqs fun l => { lane := l, addr := s.sAddr a b l, val := (s.v d l).setWidth 64 }))
/-- ST_S_B64 (R208). -/
def execStSB64 (d a b : BitVec 7) (s : State) : Out :=
  .next (s.laneMem { op := .store 8, kind := .write, allow := .plain, size := 8 }
    (s.reqs fun l => { lane := l, addr := s.sAddr a b l, val := s.vv d l }))

/-! ### Atomics (R209, R210) -/

/-- A 4-byte atomic of the active lanes. -/
def State.atom32 (s : State) (k : AtomKind) (d a b : BitVec 7) : State :=
  s.laneMem { op := .atom k, kind := .atomic, allow := .atomic, size := 4, dreg := some d.toNat }
    (s.reqs fun l => { lane := l, addr := s.vv a l, val := (s.v b l).setWidth 64, old := (s.v d l).setWidth 64 })
/-- An 8-byte atomic of the active lanes. -/
def State.atom64 (s : State) (k : AtomKind) (d a b : BitVec 7) : State :=
  s.laneMem { op := .atom k, kind := .atomic, allow := .atomic, size := 8, dreg := some d.toNat }
    (s.reqs fun l => { lane := l, addr := s.vv a l, val := s.vv b l, old := s.vv d l })

/-- ATOM_ADD (R209). -/
def execAtomAdd (d a b : BitVec 7) (s : State) : Out := .next (s.atom32 .add d a b)
/-- ATOM_AND (R209). -/
def execAtomAnd (d a b : BitVec 7) (s : State) : Out := .next (s.atom32 .and d a b)
/-- ATOM_OR (R209). -/
def execAtomOr (d a b : BitVec 7) (s : State) : Out := .next (s.atom32 .or d a b)
/-- ATOM_XOR (R209). -/
def execAtomXor (d a b : BitVec 7) (s : State) : Out := .next (s.atom32 .xor d a b)
/-- ATOM_MINI32 (R209). -/
def execAtomMinI32 (d a b : BitVec 7) (s : State) : Out := .next (s.atom32 .minI d a b)
/-- ATOM_MAXI32 (R209). -/
def execAtomMaxI32 (d a b : BitVec 7) (s : State) : Out := .next (s.atom32 .maxI d a b)
/-- ATOM_MINN32 (R209). -/
def execAtomMinN32 (d a b : BitVec 7) (s : State) : Out := .next (s.atom32 .minN d a b)
/-- ATOM_MAXN32 (R209). -/
def execAtomMaxN32 (d a b : BitVec 7) (s : State) : Out := .next (s.atom32 .maxN d a b)
/-- ATOM_XCHG (R209). -/
def execAtomXchg (d a b : BitVec 7) (s : State) : Out := .next (s.atom32 .xchg d a b)
/-- ATOM_CAS (R209). -/
def execAtomCas (d a b : BitVec 7) (s : State) : Out := .next (s.atom32 .cas d a b)
/-- ATOM_FADD (R209). -/
def execAtomFadd (d a b : BitVec 7) (s : State) : Out := .next (s.atom32 .fadd d a b)
/-- ATOM_ADD_N64 (R209). -/
def execAtomAddN64 (d a b : BitVec 7) (s : State) : Out := .next (s.atom64 .add64 d a b)
/-- ATOM_CAS_B64 (R209). -/
def execAtomCasB64 (d a b : BitVec 7) (s : State) : Out := .next (s.atom64 .cas64 d a b)

/-! ### Operations in the commons (R205, R206, R211, R212) -/

/-- Requests to the commons through the steps of R195: `act` is what each surviving lane does at its key, in lane order. -/
def State.commonsMem (s : State) (f : MemForm) (rs : List Req) (act : State → Req → Nat → State) : State :=
  let (t, ps) := s.prepareAll f rs
  match s.rangeHits f ps with
  | h :: hs => s.rangeTrap (h :: hs)
  | [] => ((goodOf ps).foldl (fun t x => match x.2.1 with | .mem k => act t x.1 k | _ => t)
      ((t.sawAccs f (passedOf ps)).laneOff (offsOf ps))).settleFrom t.me.live.length

/-- The finite sum of an exact accumulation cell, times 2^149 (R206). -/
def cellN (c : Nat) : Int := intOf 384 true c
/-- NAN, PINF, NINF and OVF of a cell. -/
def cellFlags (c : Nat) : Nat := c / 2 ^ 384 % 16
/-- The reserved fields of a cell. -/
def cellReserved (c : Nat) : Nat := c / 2 ^ 388

/-- A cell after the addition of an FP32 value (R211). -/
def cellAdd (c x : Nat) : Nat :=
  if cellReserved c ≠ 0 then c
  else
    let mk (n : Int) (fl : Nat) : Nat := (n % (2 ^ 384 : Nat)).toNat + fl * 2 ^ 384
    match fmtF32.decode x with
    | .nan _ => mk (cellN c) (cellFlags c ||| 1)
    | .inf false => mk (cellN c) (cellFlags c ||| 2)
    | .inf true => mk (cellN c) (cellFlags c ||| 4)
    | .fin neg m e =>
      let v : Int := (m * 2 ^ (e + 149).toNat : Nat)
      let n := cellN c + (if neg then -v else v)
      mk n (cellFlags c ||| (if n < -(2 ^ 383 : Nat) || decide ((2 ^ 383 : Nat) ≤ n) then 8 else 0))

/-- What xacc.rd reads of a cell (R211). -/
def cellRead (c : Nat) : FRes :=
  let f := cellFlags c
  if cellReserved c ≠ 0 || f % 2 = 1 || f / 8 % 2 = 1 || (f / 2 % 2 == 1 && f / 4 % 2 == 1) then ⟨0x7FC00000, 0⟩
  else if f / 2 % 2 = 1 then ⟨0x7F800000, 0⟩
  else if f / 4 % 2 = 1 then ⟨0xFF800000, 0⟩
  else fmtF32.put .ne (.fin (decide (cellN c < 0)) (cellN c).natAbs (-149))

def xaccForm : MemForm := { op := .store 64, kind := .atomic, allow := .commons, size := 64 }

/-- ATOM_XACC (R211). -/
def execAtomXacc (a b : BitVec 7) (s : State) : Out :=
  .next (s.commonsMem xaccForm (s.reqs fun l => { lane := l, addr := s.vv a l, val := (s.v b l).setWidth 64 })
    fun t r k => t.wr k 64 (cellAdd (t.rd k 64) r.val.toNat))

/-- A lane takes a rounded value, and its flags. -/
def State.arriveF (s : State) (d l : Nat) (r : FRes) : State :=
  let t := s.arrive1 (some d) false l (BitVec.ofNat 64 r.bits)
  { t with me := { t.me with
      regs := { t.me.regs with flags := smPut 0 t.me.regs.flags l (t.me.regs.getF l ||| r.fl) },
      obs := { t.me.obs with flags := t.me.obs.flags ++ [(l, r.fl)] } } }

/-- XACC_RD (R211). It is an atomic of the commons, so that it meets a WRITE-LOCK: the tables of 09_ordering R222 do not say whether one that writes nothing
does (the model's choice, log 48). -/
def execXaccRd (d a : BitVec 7) (s : State) : Out :=
  .next (s.commonsMem { xaccForm with op := .load .b32 } (s.reqs fun l => { lane := l, addr := s.vv a l })
    fun t r k => t.arriveF d.toNat r.lane (cellRead (t.rd k 64)))
/-- XACC_RD_CLR (R211). -/
def execXaccRdClr (d a : BitVec 7) (s : State) : Out :=
  .next (s.commonsMem { xaccForm with op := .load .b32 } (s.reqs fun l => { lane := l, addr := s.vv a l })
    fun t r k => (t.wr k 64 0).arriveF d.toNat r.lane (cellRead (t.rd k 64)))

/-- A bank operation (R212): the check of the lowest active lane's address, by whose failure every active lane goes; the range locks of the
words touched; then `act` at the key. -/
def State.bankOp (s : State) (a b : BitVec 7) (align : Nat) (words : Nat → Nat) (act : State → Nat → State) : State :=
  let p := s.first
  let addr := s.vv a p
  let f : MemForm := { op := .store 4, kind := .atomic, allow := .commons, size := 4 }
  match s.steer p .commons 4 align false addr with
  | .error c => s.lanesOff (s.lanes.map fun l => (l, c, addr))
  | .ok (.mem k) =>
    match s.rangeHits f (s.lanes.map fun l => ({ lane := l, addr := addr + BitVec.ofNat 64 (words l) }, .ok (.mem (k + words l)) none)) with
    | h :: hs => s.rangeTrap (h :: hs)
    | [] =>
      let t := s.sawAccs { f with size := align } [{ lane := p, addr := addr }]
      let t := { t with me := { t.me with obs := { t.me.obs with data := s.me.obs.data ++ s.lanes.map fun l => (l, s.v b l) } } }
      act t k
  | .ok _ => s

/-- cmn.ew (R212): each active lane's word, written in one event. -/
def State.elementwise (s : State) (a b : BitVec 7) (f : Nat → Nat → Nat) : State :=
  s.bankOp a b 128 (fun l => 4 * l) fun t k =>
    t.put k ((List.range 32).flatMap fun l =>
      let old := s.rd (k + 4 * l) 4
      leBytes 4 (if s.act l then f old (s.v b l).toNat else old))

/-- cmn.red (R212): one word takes all operands; every lane gets its old value. -/
def State.reduce (s : State) (d a b : BitVec 7) (f : Nat → List Nat → Nat) : State :=
  s.bankOp a b 4 (fun _ => 0) fun t k =>
    (t.wr k 4 (f (s.rd k 4) (s.lanes.map fun l => (s.v b l).toNat))).setV d fun _ => BitVec.ofNat 32 (s.rd k 4)

/-- The exact sum of FP32 values, rounded once (R212). -/
def sumF32 (xs : List Nat) : Nat :=
  let vs := xs.map fmtF32.decode
  let has (f : FVal → Bool) : Bool := vs.any f
  let pinf := has fun v => v == .inf false
  let ninf := has fun v => v == .inf true
  if has FVal.isNan || (pinf && ninf) then 0x7FC00000
  else if pinf then 0x7F800000
  else if ninf then 0xFF800000
  else
    let n : Int := (vs.map fun v => match v with
      | .fin neg m e => let x : Int := (m * 2 ^ (e + 149).toNat : Nat); if neg then -x else x
      | _ => 0).sum
    if n = 0 then (if xs.all fun x => x == 0x80000000 then 0x80000000 else 0)
    else (fmtF32.put .ne (.fin (decide (n < 0)) n.natAbs (-149))).bits

/-- CMN_EW_ADD_I32 (R212). -/
def execCmnEwAddI32 (a b : BitVec 7) (s : State) : Out := .next (s.elementwise a b fun w x => (w + x) % 2 ^ 32)
/-- CMN_EW_ADD_F32 (R212). -/
def execCmnEwAddF32 (a b : BitVec 7) (s : State) : Out := .next (s.elementwise a b fun w x => (fmtF32.addBits .ne w x).bits)
/-- CMN_EW_MAX_F32 (R212). -/
def execCmnEwMaxF32 (a b : BitVec 7) (s : State) : Out := .next (s.elementwise a b fun w x => (fminmax true w x).bits)
/-- CMN_RED_ADD_I32 (R212). -/
def execCmnRedAddI32 (d a b : BitVec 7) (s : State) : Out := .next (s.reduce d a b fun w xs => (w + xs.sum) % 2 ^ 32)
/-- CMN_RED_ADD_F32 (R212). -/
def execCmnRedAddF32 (d a b : BitVec 7) (s : State) : Out := .next (s.reduce d a b fun w xs => sumF32 (w :: xs))
/-- CMN_RED_MAX_F32 (R212). -/
def execCmnRedMaxF32 (d a b : BitVec 7) (s : State) : Out :=
  .next (s.reduce d a b fun w xs => xs.foldl (fun m x => (fminmax true m x).bits) w)

/-! ### Prefetch (R213): no architected effect -/

/-- PREF (R213). -/
def execPref (_ : BitVec 7) (s : State) : Out := .next s
/-- PREF_SC (R213). -/
def execPrefSc (_ : BitVec 7) (s : State) : Out := .next s

/-! ### fence.e and mwait (09_ordering R231 to R234) -/

/-- The set that a fence.e waits for (R232): this warp's registered operations of the classes; of streams, those closed. -/
def State.fenceSet (s : State) (m : BitVec 3) : List Nat :=
  (s.ops.filter fun o => o.gid == s.gang.gid && o.w == s.me.w && o.registered && o.closing && (m == 0 || m.getLsbD o.fence)).map EngOp.id

/-- FENCE_E (R232). -/
def execFenceE (m : BitVec 3) (s : State) : Out :=
  .next (match s.fenceSet m with
    | [] => s
    | ids => s.hold (.fenceE ids))

/-- The condition of an mwait on a value (R233). -/
def mcond (k : MCond) (x c : BitVec 64) : Bool :=
  match k with
  | .ne => x != c
  | .eq => x == c
  | .ge => decide (c ≤ x)

/-- MWAIT (R234). A read of another core's local memory that the target refuses (08_memory R200, R222) fails like a check: every lane goes off, with
RFAULT. The self-address word is no location for it (R194). A read of GDDR waits for the window of the memory clock (16_stack R360).
The address passed step 1 of R195 where it takes a translation fault or is refused, too (17_debug R366). -/
def execMwait (g : Bool) (k : MCond) (a b : BitVec 7) (s : State) : Out :=
  let p := s.first
  let addr := s.vv a p
  let c : BitVec 64 := if g then s.vv b p else (s.v b p).setWidth 64
  let n := if g then 8 else 4
  let f : MemForm := { op := .load (if g then .b64 else .b32), kind := .read, allow := .atomic, size := n }
  let saw (t : State) : State := t.sawAccs f [{ lane := p, addr := addr }]
  let done (t : State) (key : Nat) : State :=
    let t := saw t
    if mcond k (BitVec.ofNat 64 (t.rd key n)) c then t else t.hold (.mwait k g addr c t.journal.length key [])
  .next (match s.steer p .atomic n n false addr with
    | .error e => s.lanesOff (s.lanes.map fun l => (l, e, addr))
    | .ok (.global va) => match s.translate .read va with
      | (_, .error e) => (saw s).park 1 e addr 0 s.me.cur.mask
      | (t, .ok pa) => if s.windowHolds pa then s.retry else match s.rangeHits f [({ lane := p, addr := addr }, .ok (.mem pa) none)] with
        | h :: hs => s.rangeTrap (h :: hs)
        | [] => done t pa
    | .ok (.mem key) => match s.rangeHits f [({ lane := p, addr := addr }, .ok (.mem key) none)] with
      | h :: hs => s.rangeTrap (h :: hs)
      | [] => done s key
    | .ok (.remote core off) =>
      if s.inAllocation core s.gang.asid off n && s.conflicts (localKey core off) n false == [] then done s (localKey core off)
      else ((saw s).logRefusal core off).lanesOff (s.lanes.map fun l => (l, 8, addr))
    | .ok .self => s)

end Sys2Proof.Machine
end

