-- ==== Sys2Proof/Machine/Power.lean ====
section
/-! DEFINITION. Performance levels, droops, temperature, time, counters, periods and the time series (15_power R332 to R343, 03_tasks R80 to
R84): the instructions of major 0x34, the package's own events, and the passing of time in a step. -/

namespace Sys2Proof.Machine

/-! ### Requests and grants (R332, R333, R347) -/

/-- g_a of an activity on a cluster (R333). -/
def State.grant (s : State) (cl a : Nat) : Nat :=
  let cap := if (s.stk (cl / 4)).warn then 2 else 8
  min (min (s.request cl a) ((smGet 0x28 s.pkg.lvl a).toNat % 16)) (min s.pkg.pkgcap cap)

/-- The cluster of the gang in focus. -/
def State.cluNo (s : State) : Nat := clusterOf s.coreNo

/-- The request of a plvl on the cluster of the warp in focus (R332): of two by one activity in one cycle, the one of the higher core and warp slot stands. -/
def State.ask (s : State) (r : Nat) : State :=
  let cl := s.cluNo
  let c := s.clu cl
  let a := s.gang.alm
  let now := (s.core s.coreNo).cyc.toNat
  let who := 128 * s.coreNo + s.me.slot
  let last := smGet (0, 0) c.asked a
  if last.1 = now && who < last.2 then s
  else s.setClu cl { c with reqs := smPut 0 c.reqs a (r + 1), asked := smPut (0, 0) c.asked a (now, who) }

/-- PLVL (R332, R347): the grant given back is that of this request, which one of the same cycle may already have replaced. -/
def execPlvl (d a : BitVec 6) (s : State) : Out :=
  let r := s.u a
  let cl := s.cluNo
  let c := s.clu cl
  .next (if 8 < r.toNat then s.progErr 0x0F01 (r.setWidth 64)
    else ((s.ask r.toNat).retarget cl).setU d
      (BitVec.ofNat 32 ((s.setClu cl { c with reqs := smPut 0 c.reqs s.gang.alm (r.toNat + 1) }).grant cl s.gang.alm)))

/-- The cluster's clock is stretched now: not in the cycles before the first stretched one (R339, R347). -/
def Cluster.stretched (c : Cluster) : Bool := c.str.any fun x => x.lead == 0 && decide (x.len < x.need)

/-- A stretch has reached its length: it ends now (R335). -/
def Cluster.ended (c : Cluster) : Bool := c.str.any fun x => x.lead == 0 && decide (x.need ≤ x.len)

/-- The cluster's calm window runs, which begins as a stretch ends (R337). -/
def Cluster.isCalm (c : Cluster) : Bool := c.calm.isSome || c.ended

/-- PLVL_RD (R347). -/
def execPlvlRd (d : BitVec 6) (s : State) : Out :=
  let c := s.clu s.cluNo
  .next (s.setU d (BitVec.ofNat 32 (c.cur % 16 + c.tgt % 16 * 16 + s.grant s.cluNo s.gang.alm * 256
    + (if c.chg.isSome then 4096 else 0) + (if c.stretched then 8192 else 0))))

/-- TIME (R341, R347). -/
def execTime (d : BitVec 6) (s : State) : Out := .next (s.setUU d s.now)

/-- CYC (R341, R347). -/
def execCyc (d : BitVec 6) (s : State) : Out := .next (s.setUU d (s.core s.coreNo).cyc)

/-- DLINE (R347). -/
def execDline (d a : BitVec 6) (s : State) : Out :=
  .next (s.setUU d (BitVec.ofNat 64 (min (s.now.toNat + (s.uu a).toNat) (2 ^ 64 - 1))))

/-- Counter `k` of core `c` (R342): STRCYC and STREV are the cluster's. -/
def State.counter (s : State) (c k : Nat) : BitVec 64 :=
  match k with
  | 7 => (s.clu (clusterOf c)).strcyc
  | 8 => (s.clu (clusterOf c)).strev
  | _ => smGet 0 (s.core c).cnt k

/-- CNT_RD (R342, R347). -/
def execCntRd (d a : BitVec 6) (s : State) : Out :=
  let k := (s.u a).toNat
  .next (s.setUU d (if 10 < k then 0xFFFFFFFFFFFFFFFF else s.counter s.coreNo k))

/-! ### Level changes (R334, R337) -/

/-- Converter ratio of a level (01_machine R13). -/
def ratioOf (l : Nat) : Nat := l / 3

/-- A cluster can start a change toward its target (R334, R337). -/
def State.canChange (s : State) (cl : Nat) : Bool :=
  let c := s.clu cl
  s.powered (cl / 4) && c.chg.isNone && c.cur != c.tgt && (decide (c.tgt < c.cur) || !c.isCalm)

/-- LEVEL_CHANGE_START (R334). -/
def execLevelChangeStart (cl : Nat) (s : State) : Out :=
  let c := s.clu cl
  .next (if !s.canChange cl then s
    else
      let lower := decide (ratioOf c.tgt < ratioOf c.cur)
      let ticks : BitVec 64 := if ratioOf c.tgt = ratioOf c.cur then 2000 else 20000
      s.setClu cl { c with cur := if lower then c.tgt else c.cur, chg := some { goal := c.tgt, ends := s.now + ticks, early := lower } })

/-- LEVEL_CHANGE_COMPLETE (R334). -/
def execLevelChangeComplete (cl : Nat) (s : State) : Out :=
  let c := s.clu cl
  .next (match c.chg with
    | some g => if g.ends ≤ s.now then s.setClu cl { c with cur := g.goal, chg := none } else s
    | none => s)

/-! ### Stretches (R335 to R338) -/

/-- A stretch of `n` cycles whose first is the `lead`th after the present cycle; one that runs or is to begin is prolonged, so that it ends no earlier
(R335, R338). STREV counts it as it begins (`Cluster.advance`). -/
def Cluster.stretch (c : Cluster) (n lead : Nat) : Cluster :=
  match c.str with
  | some x => { c with str := some { x with need := min 4096 (max x.need (x.len + lead + n - x.lead)) } }
  | none => { c with str := some { lead := lead, need := min 4096 n } }

/-- Adds to a counter of a core. -/
def Core.count (x : Core) (k : Nat) (n : Nat) : Core := { x with cnt := smPut 0 x.cnt k (smGet 0 x.cnt k + BitVec.ofNat 64 n) }

/-- The tracks of a core that warps are bound to. -/
def State.boundTracks (s : State) (c : Nat) : List Nat := ((s.coreWarps c).map Warp.track).eraseDups

/-- A free number up to a bound, for a counter of a core in the present step. -/
def State.drawn (s : State) (c k bound : Nat) : Nat := (Config.counts s.sys.seq c k).toNat % (bound + 1)

/-- The end of a stretch begins a calm window (R337). -/
def State.endStretch (s : State) (cl : Nat) : State := s.setClu cl { s.clu cl with str := none, calm := some (s.now + 10000) }

/-- Begins or prolongs a stretch of a powered cluster; one that has reached its length ends first, and is not prolonged (R335). -/
def State.stretch (s : State) (cl n lead : Nat) : State :=
  if cl < 12 && s.powered (cl / 4) then
    let s := if (s.clu cl).ended then s.endStretch cl else s
    s.setClu cl ((s.clu cl).stretch n lead)
  else s

/-- DROOP_DETECT (R335, R336): stretched from the second cycle after the detection. -/
def execDroopDetect (cl : Nat) (s : State) : Out := .next (s.stretch cl (16 + (Config.droop s.sys.seq).toNat % 4081) 2)

/-- DROOPTST_WRITE (R338): stretched from the fourth cycle after the sys.wr, before which no time passes (`State.advance`). -/
def execDrooptstWrite (cl n : Nat) (s : State) : Out := .next (if 16 ≤ n && n ≤ 4096 then s.stretch cl n 4 else s)

/-- STRETCH_END (R335): no time passes between the end of the last stretched cycle and this event (`State.stepTicks`). -/
def execStretchEnd (cl : Nat) (s : State) : Out :=
  .next (match (s.clu cl).str with
    | some x => if (s.clu cl).ended && x.len < 4096 then s.endStretch cl else s
    | none => s)

/-- STRETCH_LIMIT (R335). -/
def execStretchLimit (cl : Nat) (s : State) : Out :=
  .next (match (s.clu cl).str with
    | some x => if 4096 ≤ x.len then s.endStretch cl else s
    | none => s)

/-- CALM_WINDOW_END (R334, R337). -/
def execCalmWindowEnd (cl : Nat) (s : State) : Out :=
  .next (match (s.clu cl).calm with
    | some t => if t ≤ s.now then (s.setClu cl { s.clu cl with calm := none }).retarget cl else s
    | none => s)

/-! ### Periods (03_tasks R83, R84; R333, R348; 16_stack R360) -/

/-- Deferred writes of ALM, ALMLVL and PKGCAP take effect, and targets are computed again (R83, R333). -/
def State.takeWrites (s : State) : State :=
  (s.setPkg { s.pkg with alm := s.pkg.almN, lvl := s.pkg.lvlN, pkgcap := s.pkg.pkgcapN.getD s.pkg.pkgcap, pkgcapN := none }).retargetAll

/-- A period starts at a time (R83); `carries` says whether it carries a switch of the memory clock (16_stack R360). -/
def State.startPeriod (s : State) (t : BitVec 64) (carries : Bool) : State :=
  let cores := (s.cores.map fun c => (c.1, { c.2 with used := [], pcyc := 0 })).filter fun c => c.2 != {}
  let s : State := { s with cores := cores, pkg := { s.pkg with pstart := t, periods := s.pkg.periods + 1 } }
  let s := s.setSys { s.sys with mclkUsed := [], mclkEnd := if carries && s.sys.mclk && s.sys.mclkEnd.isNone then some (s.now + 120000) else s.sys.mclkEnd }
  s.takeWrites

/-- The length of a period that no frame tick starts (R83). -/
def State.periodLen (s : State) : BitVec 64 :=
  if s.pkg.almSrc then 0x4000000 else if s.pkg.almLen.toNat < 1000 then 1000 else s.pkg.almLen.setWidth 64

/-- A period is due (R83). -/
def State.periodDue (s : State) : Bool := s.enforced && decide (s.periodLen ≤ s.now - s.pkg.pstart)

/-- PERIOD_START (R83). -/
def execPeriodStart (s : State) : Out :=
  .next (if s.periodDue then s.startPeriod (s.pkg.pstart + s.periodLen) (!s.pkg.almSrc) else s)

/-- FRAME_TICK (R84). -/
def execFrameTick (s : State) : Out := .next (if s.pkg.almSrc then s.startPeriod s.now true else s)

/-- ALMPER_WRITE (R83). -/
def execAlmperWrite (v : BitVec 64) (s : State) : Out :=
  let src := v.getLsbD 63
  let len : BitVec 32 := v.setWidth 32
  let s := s.setPkg { s.pkg with almSrc := src, almLen := len }
  .next (if src || len != 0 then s.startPeriod s.now (!src) else s.takeWrites)

/-! ### Temperature (R340) -/

/-- Fields of TJ: base, lower and upper tier. -/
def tjTier (tj : BitVec 30) (i : Nat) : Nat := tj.toNat / 2 ^ (10 * i) % 1024

/-- The sensors of a stack read: the warning begins above 105 °C, and the time below 100 °C is noted. -/
def State.sense (s : State) (k : Nat) (tj : BitVec 30) : State :=
  let x := s.stk k
  let hot := [0, 1, 2].any fun i => decide (840 < tjTier tj i)
  let cool := [0, 1, 2].all fun i => decide (tjTier tj i < 800)
  s.setStk k { x with tj := tj, warn := x.warn || hot, cool := if cool then some (x.cool.getD s.now) else none }

/-- Targets of a stack's clusters. -/
def State.retargetStk (s : State) (k : Nat) : State := [0, 1, 2, 3].foldl (fun s i => s.retarget (4 * k + i)) s

/-- THERMAL_WARNING (R340). -/
def execThermalWarning (stk : Nat) (tj : BitVec 30) (s : State) : Out :=
  .next (if s.powered stk then (s.sense stk tj).retargetStk stk else s)

/-- THERMAL_WARNING_END (R340). -/
def execThermalWarningEnd (stk : Nat) (tj : BitVec 30) (s : State) : Out :=
  .next (if !s.powered stk then s
    else
      let t := s.sense stk tj
      let x := t.stk stk
      match x.cool with
      | some c => if x.warn && decide (1000000 ≤ (t.now - c).toNat) then (t.setStk stk { x with warn := false }).retargetStk stk else t
      | none => if x.warn && !(s.stk stk).warn then t.retargetStk stk else t)

/-- Adds to a word of the life record, which saturates (16_stack R356). -/
def State.life (s : State) (w n : Nat) : State :=
  let v := (smGet (0 : BitVec 64) s.sys.life w).toNat + n
  s.setSys { s.sys with life := smPut 0 s.sys.life w (BitVec.ofNat 64 (min v (2 ^ 64 - 1))) }

/-- Failed data wires of a bundle that no spare stands for (16_stack R353). -/
def Bundle.lost (b : Bundle) : Nat := (b.failed.filter fun w => decide (w < 64) && !b.map.any fun m => m.1 == w).length
/-- With more failed wires than spares the bundle runs at half rate (16_stack R353). -/
def Bundle.half (b : Bundle) : Bool := decide (4 < b.failed.length)
/-- A bundle has the 32 good data wires that its core needs (16_stack R353). -/
def Bundle.works (b : Bundle) : Bool := decide (b.lost ≤ 32)

/-- What repairs leave of a core, through every power-off (16_stack R356, R357). -/
def Core.repaired (x : Core) : Core :=
  { active := x.active, spares := x.spares, retired := x.retired
    bundle := { failed := x.bundle.failed, map := x.bundle.map }, bundleDn := { failed := x.bundleDn.failed, map := x.bundleDn.map }
    placeable := x.bundle.works && x.bundleDn.works }

/-- What repairs leave of a stack: a retirement under way goes on (16_stack R355). -/
def Stk.repaired (x : Stk) : Stk := { avail := x.avail, routers := x.routers, paths := x.paths }

/-- Cores of a stack without power, with their repairs alone. -/
def State.repairedCores (s : State) (f : Nat → Bool) : List (Nat × Core) :=
  (s.cores.map fun c => (c.1, if f c.1 then c.2.repaired else c.2)).filter fun c => c.2 != {}

/-- What is left when the package loses its power (R340): the always-on domain with the life record and the repairs, and the
model's own agenda, answers and step count. -/
def State.powerCut (s : State) : State :=
  let p := s.pkg
  { agenda := s.agenda
    cores := s.repairedCores fun _ => true
    stks := (s.stks.map fun k => (k.1, { k.2.repaired with avail := true })).filter fun k => k.2 != {}
    sys := { life := s.sys.life, replies := s.sys.replies, seq := s.sys.seq }
    pkg := { time := p.time, ptime := p.ptime, trip := p.trip, trips := p.trips, tripStk := p.tripStk, tripTier := p.tripTier
             thtime := p.thtime, hour := p.hour } }

def tierNo : Tier → Nat
  | .base => 0
  | .lower => 1
  | .upper => 2

/-- THERMAL_TRIP (R340). -/
def execThermalTrip (stk : Nat) (tier : Tier) (s : State) : Out :=
  .next (if !s.powered stk then s
    else
      let s := (s.life 2 1).powerCut
      let p := s.pkg
      s.setPkg { p with trip := true, trips := if p.trips = 255 then 255 else p.trips + 1, tripStk := stk, tripTier := tierNo tier, thtime := p.time })

/-! ### Time (R341) and the life record's hours (16_stack R356) -/

/-- The latest multiple of 2^30 that %time reached stands in non-volatile storage. -/
def State.persist (s : State) : State := s.setPkg { s.pkg with ptime := s.pkg.time &&& ~~~(0x3FFFFFFF : BitVec 64) }

/-- TIME_PERSIST (R341). -/
def execTimePersist (s : State) : Out := .next s.persist

/-- LOSS_OF_POWER (R341): `aon` says that the always-on domain loses its power too, so that %time resumes from the value stored last. -/
def execLossOfPower (aon : Bool) (s : State) : Out :=
  let t := s.powerCut
  .next (if aon then
    let t := t.persist
    t.setPkg { t.pkg with time := t.pkg.ptime + 0x40000000 }
  else t)

/-- Ticks (reference) in an hour. -/
def hourTicks : Nat := 3600000000000

/-- The bin of TJHIST for the hottest tier of the powered stacks: 8 °C each, 120 °C and above in bin 15 (16_stack R356). -/
def State.tjBin (s : State) : Nat :=
  min 15 ((s.poweredList.flatMap fun k => [0, 1, 2].map fun i => tjTier (s.stk k).tj i).foldl max 0 / 64)

/-- LIFE_RECORD_HOUR (16_stack R356): it carries nothing from outside. -/
def execLifeRecordHour (_u : Unit) (s : State) : Out :=
  .next (if s.pkg.hour.toNat < hourTicks then s
    else ((s.setPkg { s.pkg with hour := s.pkg.hour - BitVec.ofNat 64 hourTicks }).life 0 1).life (8 + s.tjBin) 1)

/-! ### The time series (R343) -/

/-- TSCTL_WRITE (R343). -/
def execTsctlWrite (v : BitVec 64) (s : State) : Out :=
  let en := v.getLsbD 63
  let p := s.pkg
  .next (s.setPkg { p with tsEn := en, tsLogn := v.toNat / 2 ^ 8 % 32, tsK := v.toNat % 32
                           tsSeq := if en then 0 else p.tsSeq, tsLast := if en then s.now else p.tsLast })

/-- The first latch tick after the latest latch, or after EN was set. -/
def State.nextLatch (s : State) : Nat := (s.pkg.tsLast.toNat / 2 ^ s.pkg.tsK + 1) * 2 ^ s.pkg.tsK

/-- A sample but for its SEQ: what stands from offset 16 on. -/
def State.sample (s : State) : List (BitVec 8) :=
  let pwr := maskNat (fun k => s.powered k) 3
  let core (c : Nat) : List (BitVec 8) :=
    if s.powered (c / 32) then ((List.range 11).flatMap fun k => leBytes 8 (s.counter c k).toNat) ++ leBytes 40 0 else List.replicate 128 0xFF
  leBytes 1 pwr ++ leBytes 111 0 ++ (List.range 96).flatMap core ++ leBytes 3968 0

/-- A latch tick has come, at which every counter is latched: no time passes before it is (R343). -/
def State.latchDue (s : State) : Bool := s.pkg.tsEn && decide (s.nextLatch ≤ s.now.toNat)

/-- Latches every counter (R343), or drops the latch where the one before is not written. -/
def State.latch (s : State) : State :=
  let t := s.nextLatch
  let p := { s.pkg with tsLast := BitVec.ofNat 64 t }
  if p.latch.isSome then s.setPkg { p with tsdrop := true }
  else s.setPkg { p with
    tsSeq := p.tsSeq + 1
    latch := some { key := p.tsBase.toNat + 16384 * (p.tsSeq.toNat % 2 ^ p.tsLogn), tick := t, seq := p.tsSeq.toNat, bytes := some s.sample } }

/-- Goes on writing a latched sample: every other byte in one event, and SEQ in one later event (R343). -/
def State.writeSample (s : State) : State :=
  match s.pkg.latch with
  | none => s
  | some l =>
    let wr (s : State) (k : Nat) (bs : List (BitVec 8)) : State := if gddrTop < l.key + 16384 then s else s.put k bs
    match l.bytes with
    | some bs => (wr (wr s (l.key + 16) bs) l.key (leBytes 8 l.tick)).setPkg { s.pkg with latch := some { l with bytes := none } }
    | none => (wr s (l.key + 8) (leBytes 8 l.seq)).setPkg { s.pkg with latch := none }

/-- TIME_SERIES_LATCH (R343): the latch at a latch tick, or, where `written` says so, the writing of what was latched. -/
def execTimeSeriesLatch (written : Bool) (s : State) : Out := .next (if written then s.writeSample else if s.latchDue then s.latch else s)

/-! ### The passing of time in a step (R13, R341, R342, R335, 03_tasks R80) -/

/-- The core clock of a level, in tenths of a cycle a tick (01_machine R13). -/
def levelClock (l : Nat) : Nat := [10, 12, 14, 17, 19, 21, 24, 26, 28].getD l 10

/-- A cluster's clock after `n` ticks, and the cycles (core) that ended in them. Those of a stretch last twice as long, and are counted, the stretch with
its first (R335, R342). -/
def Cluster.advance (c : Cluster) (n : Nat) : Cluster × Nat :=
  let b := c.phase + n * levelClock c.cur
  match c.str with
  | none => ({ c with phase := b % 10 }, b / 10)
  | some x =>
    let i := min x.lead (b / 10)
    let b := b - 10 * i
    if i < x.lead then ({ c with phase := b, str := some { x with lead := x.lead - i } }, i)
    else
      let m := min (x.need - x.len) (b / 20)
      let c := { c with str := some { x with lead := 0, len := x.len + m }, strcyc := c.strcyc + BitVec.ofNat 64 m
                        strev := if x.len = 0 && 0 < m then c.strev + 1 else c.strev }
      let b := b - 20 * m
      if x.len + m < x.need then ({ c with phase := b }, i + m) else ({ c with phase := b % 10 }, i + m + b / 10)

/-- The ticks until a cluster's stretch ends; none where there is no stretch. -/
def Cluster.toEnd (c : Cluster) : Option Nat :=
  c.str.map fun x => (10 * x.lead + 20 * (x.need - x.len) - c.phase + levelClock c.cur - 1) / levelClock c.cur

/-- Ticks after which something happens that no time may pass over: the end of a stretch (R335), a latch tick (R343). -/
def State.stops (s : State) : List Nat :=
  s.clus.filterMap (fun c => if s.powered (c.1 / 4) then c.2.toEnd else none) ++ if s.pkg.tsEn then [s.nextLatch - s.now.toNat] else []

/-- Ticks that pass in a step: a free number, but none between a sys.wr to DROOPTST and its event, which counts cycles from it (R338), and no more than
until something that is to happen at its tick. -/
noncomputable def State.stepTicks (s : State) : Nat :=
  if s.sys.effs.any fun e => match e with | .drooptst _ _ => true | _ => false then 0 else s.stops.foldl min (Config.ticks s.sys.seq).toNat

/-- Cycles (core) that pass in a step on a core. -/
noncomputable def State.stepCycles (s : State) (c : Nat) : Nat := ((s.clu (clusterOf c)).advance s.stepTicks).2

/-- The most that a counter of a core can grow by in `n` of its cycles (R342): nothing without its cause. SBSTALL needs a bound warp, THR
an activity over budget on a bound track, MXBUSY an operation in the matrix array, L1MISS an access of the core: of what issued last, or in flight. -/
def State.countBound (s : State) (c k n : Nat) : Nat :=
  match k with
  | 3 => n * (s.boundTracks c).length
  | 4 => n * ((s.boundTracks c).filter fun tr => (s.coreWarps c).any fun x => x.track == tr && (s.gangOf? x.gid).any fun g => s.overTrack c tr g.alm).length
  | 5 => if (s.coreGangs c).any fun g => g.array.isSome then n else 0
  | 10 => if (s.gang.gid != 0 && s.coreNo == c) || s.accs.any fun a => (s.gangOf? a.gid).any fun g => 32 * g.stk + g.core == c then 128 else 0
  | _ => 0

/-- Cycles (base) of %time, at 1.4 a tick (01_machine R13). -/
def baseCyclesAt (t : Nat) : Nat := t * 7 / 5

/-- Cycles (base) that end in `t` ticks with an operation of a core's vertical queue in flight (R342). -/
def State.vqBusy (s : State) (c t : Nat) : Nat :=
  if s.ops.any fun o => decide (o.cls < 4) && o.phase != .waitPlace && 32 * o.stk + o.core == c then baseCyclesAt (s.now.toNat + t) - baseCyclesAt s.now.toNat else 0

/-- The cycles of `n` from cycle `b` on in which a lane word holds its track (01_machine R16). -/
def Made.held (m : Made) (b n : Nat) : Nat := min (b + n) (m.cyc + 32 * m.slow) - max b m.cyc

/-- The lane and uniform results that a group produces in the two cycles before cycle `f`: those of the lanes that pass in them, and a uniform word's in the
cycle of its issue (R336 and the worked run; log 6). -/
def Made.results (m : Made) (f : Nat) : Nat :=
  let near (k : Nat) : Bool := k + 1 == f || k + 2 == f
  (if m.slow = 0 then 0 else ((lanesOf m.mask).filter fun l => near (m.cyc + m.slow * l)).length) + (if m.uni && near m.cyc then 1 else 0)

/-- The cycle on a core at which a stretch that is to begin has its first stretched cycle, where that cycle ends in the next `t` ticks. -/
def State.beginsAt (s : State) (c t : Nat) : Option Nat :=
  let x := s.clu (clusterOf c)
  if (x.advance t).1.strev = x.strev then none else x.str.map fun y => (s.core c).cyc.toNat + y.lead

/-- A core after `n` cycles (core) in `t` ticks: %cyc, the cycles of the period, and the counters, which count what the cycles that ended brought (R342).
ISSUE counts the groups that issued in them, LANEC the cycles in which lane words hold their tracks, SUSPECT the results before a stretch that begins (R336).
Those whose increments hang on timing that is not modelled are free within their bounds (log 6); a track without a bound warp is idle. -/
def State.coreAfter (s : State) (c n t : Nat) : Core :=
  let x := s.core c
  let b := x.cyc.toNat
  let bound := (s.boundTracks c).length
  let x := x.count 0 (x.made.filter fun m => decide (b ≤ m.cyc) && decide (m.cyc < b + n)).length
  let x := x.count 1 ((x.made.map fun (m : Made) => m.held b n).sum)
  let x := x.count 2 (n * (x.active - bound) + s.drawn c 2 (n * bound))
  let x := [3, 4, 5, 10].foldl (fun x k => x.count k (s.drawn c k (s.countBound c k n))) x
  let x := x.count 6 (s.vqBusy c t)
  let x := match s.beginsAt c t with
    | some f => x.count 9 ((x.made.map fun (m : Made) => m.results f).sum)
    | none => x
  { x with cyc := x.cyc + BitVec.ofNat 64 n, pcyc := x.pcyc + n, made := x.made.filter fun m => decide (b + n < m.cyc + 132) }

/-- Time passes: every step takes some ticks, in which each cluster's clock makes its own cycles (log 6), and counts itself. -/
noncomputable def State.advance (s : State) : State :=
  let q := s.sys.seq
  let n := s.stepTicks
  let dt : BitVec 64 := BitVec.ofNat 64 n
  let core (c : Nat) : Option (Nat × Core) :=
    let x := if s.powered (c / 32) then s.coreAfter c (s.stepCycles c) n else s.core c
    if x = {} then none else some (c, x)
  let clu (c : Nat) : Option (Nat × Cluster) :=
    let x := if s.powered (c / 4) then ((s.clu c).advance n).1 else s.clu c
    if x = {} then none else some (c, x)
  { s with
    cores := (List.range 96).filterMap core
    clus := (List.range 12).filterMap clu
    pkg := { s.pkg with time := s.pkg.time + dt, hour := if s.powered 0 then s.pkg.hour + dt else s.pkg.hour }
    sys := { s.sys with seq := q + 1 } }

end Sys2Proof.Machine
end

