-- ==== Sys2Proof/Machine/Stack.lean ====
section
/-! DEFINITION. The package as a whole (16_stack R350 to R364): yoked pairs, repair, the life record, bring-up, the change of powered stacks, the
memory clock, identity and attestation. -/

namespace Sys2Proof.Machine

/-! ### Powering stacks (R356 to R359) -/

/-- Cores of a stack that failed a self-test are not placeable (R358). -/
def State.failCores (s : State) (k : Nat) (failed : BitVec 32) : State :=
  (List.range 32).foldl (fun s i => if failed.getLsbD i then s.setCore (32 * k + i) { s.core (32 * k + i) with placeable := false } else s) s

/-- A stack is powered: registers at reset, clusters at level 0, commons 0, repairs applied; `failed` cores are not placeable (R357, R358). -/
def State.powerStack (s : State) (k : Nat) (failed : BitVec 32) : State :=
  let s : State := { s with cores := s.repairedCores fun c => c / 32 == k, clus := s.clus.filter fun c => c.1 / 4 != k }
  ((s.setStk k { (s.stk k).repaired with powered := true }).clear (commonsKey k 0) (2 ^ 24)).failCores k failed

/-- A stack loses its power in an orderly way: its counters go to the life record, its contents are lost (R356, R359, 08_memory R205). -/
def State.powerOff (s : State) (k : Nat) : State :=
  let sus := ((List.range 32).map fun c => (s.counter (32 * k + c) 9).toNat).sum
  let s := [0, 1, 2, 3].foldl (fun s i => s.life (24 + 4 * k + i) (s.clu (4 * k + i)).strev.toNat) (s.life 4 sus)
  let s : State := { s with cores := s.repairedCores fun c => c / 32 == k, clus := s.clus.filter fun c => c.1 / 4 != k }
  ((s.setStk k (s.stk k).repaired).clear (commonsKey k 0) (2 ^ 24)).clear (localKey (32 * k) 0) (2 ^ 25)

/-! ### Bring-up (R357, R358) -/

/-- POWER_UP (R357). -/
def execPowerUp (s : State) : Out :=
  .next (if s.pkg.stage = .aon then (s.setPkg { s.pkg with stage := .verify }).life 1 1 else s)

/-- FIRMWARE_VERIFY (R357). -/
def execFirmwareVerify (good : Bool) (s : State) : Out :=
  .next (if s.pkg.stage ≠ .verify then s
    else if good then s.setPkg { s.pkg with stage := .train }
    else s.setPkg { s.pkg with stage := .locked, why := 1 })

/-- GDDR_TRAIN (R357): `failed` are the channels that did not train. -/
def execGddrTrain (failed : BitVec 6) (s : State) : Out :=
  .next (if s.pkg.stage ≠ .train then s
    else if failed = 0 then s.setPkg { s.pkg with stage := .stack0 }
    else s.setPkg { s.pkg with stage := .locked, why := BitVec.ofNat 64 (2 + failed.toNat * 2 ^ 8) })

/-- STACK0_SELF_TEST (R357, R358, 10_translation R254): `failed` are the cores that fail, `root` the host's root for ASID 0. -/
def execStack0SelfTest (failed : BitVec 32) (root : BitVec 64) (s : State) : Out :=
  .next (if s.pkg.stage ≠ .stack0 then s
    else ((s.powerStack 0 failed).setCtx 0 { st := .bound, priv := true, root := root }).setPkg { s.pkg with stage := .serve })

/-! ### Live change of powered stacks (R359, R363) -/

/-- A number of stacks is powered already. -/
def State.stacksAre (s : State) (n : Nat) : Bool := s.poweredList.length == n

/-- Pre-empts every gang on stacks 1 and 2 (R359). -/
def State.leaveSatellites (s : State) : State :=
  ((s.allGangs.filter fun g => g.gid != 0 && g.st == .resident && g.stk != 0).map Gang.gid).foldl (fun s g => s.preempt g .stacks) s

/-- MODE_STACKS (R359, R363). -/
def execModeStacks (d a : BitVec 6) (s : State) : Out :=
  let x := (s.u a).toNat
  let n := x % 4
  let steady := s.sys.mode = .one || s.sys.mode = .three
  .next (if 4 ≤ x || (n ≠ 1 && n ≠ 3) then s.setU d 2
    else if !steady || s.stacksAre n then s.setU d 1
    else if !(s.stk 1).avail || !(s.stk 2).avail then s.setU d 3
    else if n = 3 then (((s.setSys { s.sys with mode := .growing }).powerStack 1 0).powerStack 2 0).setU d 0
    else ((s.setSys { s.sys with mode := .shrinking false }).setU d 0).leaveSatellites)

/-- SATELLITES_IN_SERVICE (R358, R359): what the self-tests leave; the cores of a cluster whose converter failed are among those that failed. -/
def execSatellitesInService (r : SelfTests) (s : State) : Out :=
  .next (if s.sys.mode ≠ .growing then s
    else if r.avail.getLsbD 1 && r.avail.getLsbD 2 then
      (((s.failCores 1 (r.failed.setWidth 32)).failCores 2 ((r.failed >>> 32).setWidth 32)).setSys { s.sys with mode := .three }).rehome.sendToken 0x300000004
    else
      let mark (s : State) (k : Nat) : State := s.setStk k { s.stk k with avail := r.avail.getLsbD k }
      let t := mark (mark ((s.powerOff 1).powerOff 2) 1) 2
      t.setSys { t.sys with mode := .one })

/-- Nothing of any gang is left on stacks 1 and 2. -/
def State.satellitesEmpty (s : State) : Bool := (List.range 64).all fun c => (s.coreGangs (32 + c)).isEmpty

/-- SHRINK_GANGS_SAVED (R359). -/
def execShrinkGangsSaved (s : State) : Out :=
  .next (if s.sys.mode = .shrinking false && s.satellitesEmpty then (s.setSys { s.sys with mode := .shrinking true }).rehome else s)

/-- No access in flight is at the commons of stacks 1 and 2. -/
def State.satellitesQuiet (s : State) : Bool := !(s.accs.any fun a => decide (commonsKey 1 0 ≤ a.key) && decide (a.key < commonsKey 3 0))

/-- SHRINK_WRITEBACK_DONE (R359). -/
def execShrinkWritebackDone (s : State) : Out :=
  .next (if s.sys.mode = .shrinking true && s.satellitesQuiet then
    let s := (s.powerOff 1).powerOff 2
    (s.setSys { s.sys with mode := .one }).sendToken 0x100000004
  else s)

/-! ### Yoked pairs (R351, R363) -/

/-- YOKE (R351, R363). -/
def execYoke (d a : BitVec 6) (s : State) : Out :=
  let x := s.u a
  let asid := x.toNat % 2 ^ 12
  let busy := s.insts.any (fun i => i.asid == asid && !i.ended) ||
    s.allGangs.any fun g => g.gid != 0 && g.asid == asid && (g.st == .resident || g.st == .saved)
  .next (if 2 ^ 13 ≤ x.toNat then s.setU d 2
    else if (s.ctx asid).st ≠ .bound then s.setU d 1
    else if busy then s.setU d 3
    else (s.setCtx asid { s.ctx asid with yoked := x.getLsbD 12 }).setU d 0)

/-- The yoked warp on a pair that issued most recently. -/
def State.yokedWarp (s : State) (c : Nat) : Option Warp :=
  (s.allWarps.filter fun x => x.gid != 0 && !x.exited && s.allGangs.any fun g => g.gid == x.gid && g.st == .resident && g.yoked && 32 * g.stk + g.core == c).foldl
    (fun (b : Option Warp) x => match b with
      | none => some x
      | some y => if y.issued < x.issued then some x else some y) none

/-- Changes both cores of a vertical pair. -/
def State.mapPair (s : State) (c : Nat) (f : Core → Core) : State := (s.setCore c (f (s.core c))).setCore (c + 16) (f (s.core (c + 16)))

/-- YOKED_MISCOMPARE (R351): `agree` says whether the recomputed results agree. -/
def execYokedMiscompare (stk k : Nat) (agree : Bool) (s : State) : Out :=
  let c := 32 * stk + k % 16
  .next (match s.yokedWarp c with
    | none => s
    | some x =>
      if agree then s.life 3 1
      else
        let p := x.cur
        let s := s.withPath x.gid x.w p.id { pc := p.pc, wpos := p.wpos } fun t => t.endContext 1 0x1001 0
        s.mapPair c fun y => { y with suspect := true })

/-- SUSPECT_PAIR_SELF_TEST (R351). -/
def execSuspectPairSelfTest (stk k : Nat) (s : State) : Out :=
  .next (s.mapPair (32 * stk + k % 16) fun y => { y with suspect := false })

/-! ### Tracks, wires, routers and paths (R352 to R355) -/

/-- TRACK_RETIRE (R352): the physical track behind a logical one is retired. -/
def execTrackRetire (core track : Nat) (s : State) : Out :=
  let x := s.core core
  .next (if !s.powered (core / 32) || !x.tracks.contains track then s
    else
      let gs := (((s.coreWarps core).filter fun w => w.track == track).map Warp.gid).eraseDups
      let x' := if 0 < x.spares then { x with spares := x.spares - 1 } else { x with retired := x.retired ++ [track], active := x.active - 1 }
      gs.foldl (fun s g => s.preempt g .repair) ((s.setCore core x').life 5 1))

/-- The receiver delivers the beat that it expects. -/
def Bundle.deliver (b : Bundle) : Bundle :=
  { b with hold := false, ask := none, fixed := false, again := b.again - 1, expect := b.expect + 1, out := b.out.tail, got := b.got + 1, last := b.out.headD b.last }

/-- The sender's side of a beat with the number `n` (R353, R354): the next new number, of at most 64 outstanding ones, takes its data from the sender, once
every beat that is to be sent again has been; a re-sent beat has the data it had. -/
def Bundle.sent (b : Bundle) (n : BitVec 8) (v : BitVec 64) : Bundle :=
  if (n - b.expect).toNat = b.out.length && b.out.length < 64 && b.again = 0 then { b with out := b.out ++ [v] } else b

/-- The receiver of a bundle on a beat, whose bad check blames a wire (R354). In RUN a bad check asks for the re-send of the beat expected; in HOLD only that
beat, good and after an update of the stitch map, is taken, and every other one is discarded, as is one that was delivered already. -/
def Bundle.beat (b : Bundle) (n : BitVec 8) (good : Bool) (v : BitVec 64) (wire : Nat) : Bundle :=
  let b := b.sent n v
  let held : Bundle := { b with hold := true, ask := some b.expect, blame := wire, fixed := false }
  if !b.hold then
    if !good then held else if n = b.expect then b.deliver else b
  else if n = b.expect && b.fixed then
    if good then b.deliver else held
  else b

/-- The bundle of a core in a direction: down to the base tier, or up. -/
def Core.bun (x : Core) (dn : Bool) : Bundle := if dn then x.bundleDn else x.bundle
def Core.setBun (x : Core) (dn : Bool) (b : Bundle) : Core := if dn then { x with bundleDn := b } else { x with bundle := b }

/-- BEAT_RECEIVE (R354): `wire`, modulo the 84 wires, is the one that a bad check blames; the stitch map takes it at its own event. -/
def execBeatReceive (core : Nat) (b : Beat) (good : Bool) (wire : BitVec 7) (s : State) : Out :=
  let x := s.core core
  .next (if s.powered (core / 32) then s.setCore core (x.setBun b.dn ((x.bun b.dn).beat b.seqNo good b.data (wire.toNat % 84))) else s)

/-- A wire fails: the spare that stands for it already, or it itself; what it carried goes to the next good spare, if there is one (R353, R354). -/
def Bundle.stitch (b : Bundle) (w : Nat) : Bundle :=
  let bad := match b.map.find? fun m => m.1 == w with
    | some m => m.2
    | none => w
  let failed := if b.failed.contains bad then b.failed else b.failed ++ [bad]
  let owner := if bad < 80 then some bad else (b.map.find? fun m => m.2 == bad).map Prod.fst
  let rest := b.map.filter fun m => m.2 != bad
  let free := ([80, 81, 82, 83].filter fun p => !failed.contains p && !rest.any fun m => m.2 == p).head?
  match owner, free with
  | some o, some p => { b with failed := failed, map := rest ++ [(o, p)] }
  | _, _ => { b with failed := failed, map := rest }

/-- STITCH_MAP_UPDATE (R353, R354), of the wire that the check blamed: once the map is updated the sender sends every beat again from the requested number on;
WIRES counts a wire that got a spare. -/
def execStitchMapUpdate (core : Nat) (w : BundleWire) (s : State) : Out :=
  let x := s.core core
  let b := x.bun w.dn
  .next (if !s.powered (core / 32) || !b.hold || b.fixed || b.blame ≠ w.wire.toNat then s
    else
      let b' := b.stitch w.wire.toNat
      let s := s.setCore core { x.setBun w.dn { b' with fixed := true, again := b.out.length, resent := b.resent + 1 } with placeable := x.placeable && b'.works }
      if b'.map != b.map && decide (b.map.length ≤ b'.map.length) then s.life 6 1 else s)

/-- State of a router or path, none where there is no such thing. -/
def State.netSt (s : State) (r : NetItem) : Option NetSt :=
  match r with
  | .router k i => if s.powered k && decide (i < 10) then some ((s.stk k).router i) else none
  | .path k i => if s.powered k && s.powered ((k + 1) % 3) && decide (i < 4) then some ((s.stk k).path i) else none

def State.setNet (s : State) (r : NetItem) (st : NetSt) : State :=
  match r with
  | .router k i => s.setStk k ((s.stk k).setRouter i st)
  | .path k i => s.setStk k ((s.stk k).setPath i st)

/-- The last working path between two stacks stays (R355). -/
def State.lastPath (s : State) (r : NetItem) : Bool :=
  match r with
  | .router _ _ => false
  | .path k i => !((List.range 4).any fun j => j != i && (s.stk k).path j == .active)

/-- RETIREMENT_BEGIN (R355). -/
def execRetirementBegin (r : NetItem) (s : State) : Out :=
  .next (if s.netSt r = some .active && !s.lastPath r then s.setNet r .closing else s)

/-- A remote access whose packet reaches a closed router or path is returned, and sent again by a new route under its number; it is taken once, whatever comes
of an earlier sending, since an access that was taken waits no more (R355). -/
def State.resend (s : State) (r : NetItem) : State :=
  { s with accs := s.accs.map fun a => match a.remote, s.gangOf? a.gid with
      | some (c, _), some g => if a.via.contains r then { a with via := s.route a.id g.stk (c / 32) } else a
      | _, _ => a }

/-- A packet is in a router or path: the answer of a remote access that was taken goes back the way it came. Packets on the way to their targets that have
not come to it yet do not count: they are sent again. -/
def State.carries (s : State) (r : NetItem) : Bool := s.accs.any fun a => a.st != .waiting && a.via.contains r

/-- ROUTER_DRAINED (R355): no packet is left in it, the routing tables are written anew, and a spare router, if any, becomes ACTIVE. -/
def execRouterDrained (r : NetItem) (s : State) : Out :=
  .next (if s.netSt r ≠ some .closing || s.carries r then s
    else
      let s := s.setNet r .switching
      let s := match r with
        | .router k _ => match (List.range 10).find? fun j => (s.stk k).router j == NetSt.spare with
          | some j => s.setStk k ((s.stk k).setRouter j .active)
          | none => s
        | .path _ _ => s
      s.resend r)

/-- ITEM of rep.stat for a router or path (R355, R364). -/
def netItemNo : NetItem → Nat
  | .router _ _ => 4
  | .path _ _ => 5

/-- ROUTING_ACKNOWLEDGED (R355). -/
def execRoutingAcknowledged (r : NetItem) (s : State) : Out :=
  .next (if s.netSt r = some .switching then ((s.setNet r .retired).life 7 1).sendToken (BitVec.ofNat 64 (netItemNo r * 2 ^ 32 + 5)) else s)

/-! ### The memory clock (R360, R363) -/

/-- The almanac entry that pays for a switch of the memory clock: the first of kind 3 with an engine budget (R360, R363). -/
def State.mclkEntry (s : State) : Option Nat :=
  (List.range 32).find? fun e => let v := (smGet (0 : BitVec 64) s.pkg.alm e).toNat; v % 16 == 3 && decide (1 ≤ v / 2 ^ 55)

/-- MCLK_SW (R360, R363): a pending switch is always to the rate not in force. -/
def execMclkSw (d a : BitVec 6) (s : State) : Out :=
  let x := (s.u a).toNat
  let budget := s.mclkEntry.isSome
  .next (if 2 ≤ x then s.setU d 2
    else if s.sys.mclk || decide ((x = 1) = (s.sys.rate = true)) then s.setU d 1
    else if !budget || !s.enforced then s.setU d 3
    else (s.setSys { s.sys with mclk := true }).setU d 0)

/-- MCLK_WINDOW_END (R360): the new rate is in force, held accesses go on, and the time that the window took, at most 120,000 ticks, is charged to the
almanac entry of kind 3 in cycles (base). -/
def execMclkWindowEnd (s : State) : Out :=
  .next (match s.sys.mclkEnd with
    | none => s
    | some e =>
      let n := if s.now < e then 120000 - (e - s.now).toNat else 120000
      let used := match s.mclkEntry with
        | some k => smPut 0 s.sys.mclkUsed k (smGet 0 s.sys.mclkUsed k + n * 7 / 5)
        | none => s.sys.mclkUsed
      s.setSys { s.sys with mclk := false, mclkEnd := none, mclkUsed := used, rate := !s.sys.rate })

/-! ### Status and attestation (R361, R364) -/

/-- STEPPING (00_scope R1, R364). -/
def stepping : BitVec 8 := if Config.isB1 then 0xB1 else 0xB0

def NetSt.code : NetSt → Nat
  | .active => 0
  | .spare => 1
  | .closing => 2
  | .switching => 2
  | .retired => 3

/-- The state of the stack-count machine as rep.stat gives it. -/
def modeCode : ModeSt → Nat
  | .one => 0
  | .three => 0
  | .growing => 1
  | .shrinking _ => 2

/-- A core is not called "not placeable" by any rule (08_memory R203, R352, R353, R358). -/
def Core.mayPlace (x : Core) : Bool := x.placeable && decide (32 ≤ x.active) && lsOk x.lsarea

/-- The item that a selector names (R364). -/
def State.repItem (s : State) (x : Nat) : Option (BitVec 64) :=
  let item := x % 2 ^ 8
  let idx := x / 2 ^ 8 % 2 ^ 8
  let k := x / 2 ^ 16 % 8
  let c := s.core (32 * k + idx)
  if 2 ^ 19 ≤ x || (2 ≤ item && item ≤ 5 && !s.powered k) then none
  else match item with
    | 0 =>
      if idx ≠ 0 then none
      else some (BitVec.ofNat 64 (s.poweredList.length + modeCode s.sys.mode * 4 + (if s.sys.rate then 16 else 0) + (if s.sys.mclk then 32 else 0)
        + maskNat (fun i => (s.stk i).avail) 3 * 2 ^ 8))
    | 1 => if idx = 0 then some (BitVec.ofNat 64 (0x5A330000 + stepping.toNat)) else if idx ≤ 6 then some ((Config.identity >>> (64 * (idx - 1))).setWidth 64) else none
    | 2 =>
      if idx < 32 then some (BitVec.ofNat 64 ((if c.mayPlace then 1 else 0) + c.active * 2 + c.spares * 2 ^ 8 + (if c.suspect then 2 ^ 10 else 0))) else none
    | 3 =>
      if idx < 32 then some (BitVec.ofNat 64 (max c.bundle.map.length c.bundleDn.map.length + (if c.bundle.half || c.bundleDn.half then 8 else 0)
        + (c.bundle.resent + c.bundleDn.resent).toNat * 2 ^ 8)) else none
    | 4 => if idx < 10 then some (BitVec.ofNat 64 (NetSt.code ((s.stk k).router idx))) else none
    | 5 => if idx < 4 then some (BitVec.ofNat 64 (NetSt.code ((s.stk k).path idx))) else none
    | 6 => some (smGet 0 s.sys.life idx)
    | _ => none

/-- REP_STAT (R364). -/
def execRepStat (d a : BitVec 6) (s : State) : Out := .next (s.setUU d ((s.repItem (s.u a).toNat).getD 0xFFFFFFFFFFFFFFFF))

/-- An answer to the outside. -/
def State.reply (s : State) (r : Reply) : State := s.setSys { s.sys with replies := s.sys.replies ++ [r] }

/-- ATTESTATION_REQUEST (R361). -/
def execAttestationRequest (nonce : BitVec 384) (s : State) : Out :=
  let life := (List.range 8).map fun i => smGet (0 : BitVec 64) s.sys.life i
  .next (if s.pkg.stage = .serve then
    let fields := leBytes 48 Config.identity.toNat ++ leBytes 1 stepping.toNat ++ leBytes 48 Config.firmwareDigest.toNat ++
      life.flatMap (fun v => leBytes 8 v.toNat) ++ leBytes 48 nonce.toNat
    s.reply (.attest Config.identity stepping Config.firmwareDigest life nonce (Config.sign fields))
  else s)

end Sys2Proof.Machine
end

