-- ==== Sys2Proof/Machine/SysRegs.lean ====
section
/-! DEFINITION. System registers (15_power R344, R345, R348): their scopes, selectors, reads and writes, and the almanac's entries. -/

namespace Sys2Proof.Machine

/-- Scopes of system registers (R344). -/
inductive RegScope where
  | package
  | stack
  | cluster
  | core
  | context
  deriving DecidableEq, Repr

/-- The scope of a register number, none for an unassigned one (R344). -/
def regScope (n : Nat) : Option RegScope :=
  if n ≤ 0x009 then some .package
  else if n = 0x040 || n = 0x041 then some .stack
  else if n = 0x060 || n = 0x061 then some .cluster
  else if n = 0x080 || n = 0x081 || n = 0x082 then some .core
  else if 0x0C0 ≤ n && n ≤ 0x0C4 then some .context
  else if 0x100 ≤ n && n ≤ 0x13F then some .package
  else none

/-- Fields of a selector (R344). -/
def selStk (sel : BitVec 32) : Nat := sel.toNat / 2 ^ 21 % 8
def selCore (sel : BitVec 32) : Nat := 32 * selStk sel + sel.toNat / 2 ^ 16 % 32
def selAsid (sel : BitVec 32) : Nat := sel.toNat % 2 ^ 12

/-- A selector is bad for a scope (R344). -/
def State.selBad (s : State) (k : RegScope) (sel : BitVec 32) : Bool :=
  sel.toNat / 2 ^ 24 != 0 || sel.toNat / 2 ^ 12 % 16 != 0 ||
  (match k with
    | .package => false
    | .context => (s.ctx (selAsid sel)).st != .bound
    | _ => !s.powered (selStk sel))

/-- A register has no RW, W1C or write-only field (R348). -/
def regReadOnly (n : Nat) : Bool := n = 0x008 || n = 0x041 || n = 0x060 || n = 0x081 || n = 0x082 || (0x100 ≤ n && n ≤ 0x11F)

/-- CLVL of a cluster (R339). -/
def State.clvl (s : State) (cl : Nat) : BitVec 64 :=
  let c := s.clu cl
  BitVec.ofNat 64 (c.cur % 16 + c.tgt % 16 * 16 + (if c.chg.isSome then 2 ^ 8 else 0) + (if c.isCalm then 2 ^ 9 else 0)
    + (if c.stretched then 2 ^ 10 else 0) + (if (s.stk (cl / 4)).warn then 2 ^ 11 else 0))

/-- SUPSTAT (R344). -/
def State.supstat (s : State) : BitVec 64 :=
  BitVec.ofNat 64 ((if s.pkg.norec then 8 else 0) + (if s.poweredList.any fun k => (s.stk k).warn then 4 else 0) + (if s.pkg.tsdrop then 2 else 0)
    + (if s.pkg.tokdrop then 1 else 0))

/-- THCAUSE (R340). -/
def State.thcause (s : State) : BitVec 64 :=
  BitVec.ofNat 64 ((if s.pkg.trip then 2 ^ 63 else 0) + s.pkg.trips.toNat * 2 ^ 8 + s.pkg.tripStk % 4 * 4 + s.pkg.tripTier % 4)

/-- Reads an assigned register by a good selector (R344, R348). -/
def State.regRead (s : State) (n : Nat) (sel : BitVec 32) : BitVec 64 :=
  let p := s.pkg
  let x := s.ctx (selAsid sel)
  let c := s.core (selCore sel)
  match n with
  | 0x000 => s.supstat
  | 0x001 => p.supmbx
  | 0x002 => p.pfqbase
  | 0x003 => BitVec.ofNat 64 ((if p.almSrc then 2 ^ 63 else 0) + p.almLen.toNat)
  | 0x004 => BitVec.ofNat 64 (p.pkgcapN.getD p.pkgcap)
  | 0x005 => BitVec.ofNat 64 ((if p.tsEn then 2 ^ 63 else 0) + p.tsLogn * 2 ^ 8 + p.tsK)
  | 0x006 => p.tsBase
  | 0x007 => s.thcause
  | 0x008 => p.thtime
  | 0x040 => (s.stk (selStk sel)).bbbase
  | 0x041 => (s.stk (selStk sel)).tj.setWidth 64
  | 0x060 => s.clvl (clusterOf (selCore sel))
  | 0x080 => c.lsarea
  | 0x081 => BitVec.ofNat 64 c.lw
  | 0x082 => c.rlcount ++ c.rlwho
  | 0x0C0 => x.ttbase
  | 0x0C1 => x.tbbase
  | 0x0C2 => x.tvbase
  | 0x0C3 => x.ctxfr
  | 0x0C4 => x.fmbase
  | _ => if n < 0x100 then 0 else if n < 0x120 then smGet 0 p.almN (n - 0x100) else smGet 0x28 p.lvlN (n - 0x120)

/-- The RC fields of a register that is read are cleared in the same event (R348, 08_memory R201). -/
def State.regClear (s : State) (n : Nat) (sel : BitVec 32) : State :=
  if n = 0x082 then s.setCore (selCore sel) { s.core (selCore sel) with rlcount := 0 } else s

/-- SYS_RD (R348). -/
def execSysRd (d a : BitVec 6) (n : BitVec 10) (s : State) : Out :=
  let sel := s.u a
  .next (match regScope n.toNat with
    | none => s.setUU d 0xFFFFFFFFFFFFFFFF
    | some k => if s.selBad k sel then s.setUU d 0xFFFFFFFFFFFFFFFF else (s.regClear n.toNat sel).setUU d (s.regRead n.toNat sel))

/-! ### Writes -/

/-- The gangs that a write to PREREQ names (R345): with the resident gangs of their co-residency sets. -/
def State.prereqGangs (s : State) (v : BitVec 64) : List Nat :=
  let n := v.toNat
  match s.insts.find? fun i => i.asid == n / 2 ^ 32 % 2 ^ 12 && i.task == n / 2 ^ 16 % 2 ^ 10 && !i.ended with
  | none => []
  | some i =>
    let gs := s.allGangs.filter fun g => g.gid != 0 && g.inst == i.id && g.st == .resident && (v.getLsbD 63 || g.index == n % 2 ^ 16)
    ((gs.flatMap fun g => (s.setOf g).filter fun h => h.st == .resident).map Gang.gid).eraseDups

/-- The task entry that a write to PREREQ names, read by the Q3. -/
def State.prereqEntry (s : State) (v : BitVec 64) : State × Except Nat Nat :=
  let asid := v.toNat / 2 ^ 32 % 2 ^ 12
  s.q3Walk asid .read ((s.ctx asid).ttbase.toNat + 64 * (v.toNat / 2 ^ 16 % 2 ^ 10))

/-- A write to PREREQ is refused (R345): what its task entry's STATE says counts (03_tasks R61). R345 does not say what of an entry that cannot be read: it is
not RUNNING (the model's choice, log 48). -/
def State.prereqBad (s : State) (v : BitVec 64) : Bool :=
  let n := v.toNat
  n / 2 ^ 44 % 2 ^ 19 != 0 || n / 2 ^ 26 % 2 ^ 6 != 0 || (s.ctx (n / 2 ^ 32 % 2 ^ 12)).st != .bound ||
  (match s.prereqEntry v with
    | (t, .ok k) => ctlState (t.rd (k + 62) 2) != 2
    | _ => true) ||
  (!v.getLsbD 63 && s.prereqGangs v == [])

/-- PREREQ_WRITE (R345). -/
def execPrereqWrite (v : BitVec 64) (s : State) : Out :=
  .next (if s.prereqBad v then s else (s.prereqGangs v).foldl (fun s g => s.preempt g .supervisor) s)

/-- A register's rules refuse a value (R333, R338, R343, R344, R345). -/
def State.regRefuses (s : State) (n : Nat) (v : BitVec 64) : Bool :=
  let x := v.toNat
  if n = 0x004 then decide (8 < x % 16)
  else if n = 0x005 then decide (x % 32 < 10) || decide (24 < x % 32) || decide (16 < x / 2 ^ 8 % 32)
  else if n = 0x009 then s.prereqBad v
  else if n = 0x061 then decide (x < 16) || decide (4096 < x)
  else if 0x120 ≤ n && n ≤ 0x13F then x / 256 != 0 || decide (8 < x % 16) || decide (8 < x / 16) || decide (x % 16 < x / 16)
  else false

/-- Deferred writes take effect at once while the almanac is not enforced (03_tasks R83). -/
def State.atOnce (s : State) : State := if s.enforced then s else s.takeWrites

/-- An effect of a write that is a step of its own follows this one. -/
def State.addEff (s : State) (e : SysEff) : State := s.setSys { s.sys with effs := s.sys.effs ++ [e] }

/-- Writes an accepted value (R348). -/
def State.regWrite (s : State) (n : Nat) (sel : BitVec 32) (v : BitVec 64) : State :=
  let p := s.pkg
  let a := selAsid sel
  let x := s.ctx a
  match n with
  | 0x000 => s.setPkg { p with norec := p.norec && !v.getLsbD 3, tsdrop := p.tsdrop && !v.getLsbD 1, tokdrop := p.tokdrop && !v.getLsbD 0 }
  | 0x001 => s.setPkg { p with supmbx := v &&& 0x3FFF }
  | 0x002 => s.setPkg { p with pfqbase := v }
  | 0x003 => s.addEff (.almper v)
  | 0x004 => (s.setPkg { p with pkgcapN := some (v.toNat % 16) }).atOnce
  | 0x005 => s.addEff (.tsctl v)
  | 0x006 => s.setPkg { p with tsBase := v &&& 0xFFFFFFC000 }
  | 0x007 => if v.getLsbD 63 then s.setPkg { p with trip := false, trips := 0 } else s
  | 0x009 => (s.prereqEntry v).1.addEff (.prereq v)
  | 0x040 => s.setStk (selStk sel) { s.stk (selStk sel) with bbbase := v }
  | 0x061 => s.addEff (.drooptst (clusterOf (selCore sel)) v.toNat)
  | 0x080 => s.setCore (selCore sel) { s.core (selCore sel) with lsarea := v }
  | 0x0C0 => s.setCtx a { x with ttbase := v }
  | 0x0C1 => s.setCtx a { x with tbbase := v }
  | 0x0C2 => s.setCtx a { x with tvbase := v }
  | 0x0C3 => s.setCtx a { x with ctxfr := v }
  | 0x0C4 => s.setCtx a { x with fmbase := v }
  | _ => if 0x120 ≤ n then (s.setPkg { p with lvlN := smPut 0x28 p.lvlN (n - 0x120) v }).atOnce else s

/-- SYS_WR (R348). -/
def execSysWr (d a : BitVec 6) (n : BitVec 10) (s : State) : Out :=
  let v := s.uu a
  let sel := s.un (a.toNat + 2)
  .next (match regScope n.toNat with
    | none => s.setU d 1
    | some k =>
      if regReadOnly n.toNat then s.setU d 1
      else if s.selBad k sel then s.setU d 2
      else if n = 0x009 && s.windowMiss then s.retry
      else if s.regRefuses n.toNat v then s.setU d 3
      else (s.regWrite n.toNat sel v).setU d 0)

/-- A write to the almanac breaks R82. -/
def State.almBad (s : State) (e : Nat) (v : BitVec 64) : Bool :=
  let f (x : BitVec 64) (lo : Nat) : Nat := x.toNat / 2 ^ lo % 512
  let m := smPut 0 s.pkg.almN e v
  let sum (lo : Nat) : Nat := ((List.range 32).map fun i => f (smGet 0 m i) lo).sum
  [55, 46, 37, 28].any (fun lo => decide (256 < f v lo)) || decide (f v 37 < f v 28) || decide (f v 55 < f v 46) ||
  decide (256 < sum 28) || decide (256 < sum 46) || decide (4 < v.toNat % 16) || v.toNat / 16 % 2 ^ 12 != 0

/-- ALM_SET (R82, R348). -/
def execAlmSet (d a : BitVec 6) (e : BitVec 5) (s : State) : Out :=
  let v := s.uu a
  .next (if s.almBad e.toNat v then s.setU d 3
    else ((s.setPkg { s.pkg with almN := smPut 0 s.pkg.almN e.toNat v }).atOnce).setU d 0)

end Sys2Proof.Machine
end

