-- ==== Sys2Proof/Machine/Access.lean ====
section
/-! DEFINITION. Events of warps and of memory: event registers and deliveries (05_events R115 to R122), the record of a context's end (R132), regroup
(06_integer R162), accesses in flight (08_memory R200, R214), mwait (09_ordering R234), host accesses (R228), instruction fetches (R230), and what
is brought into the path table and the top register tier (04_control R109, 08_memory R204). -/

namespace Sys2Proof.Machine

/-! ### Event registers and deliveries (05_events R115 to R122) -/

/-- Sets PEND of an event register of a warp, resident or saved, where its condition has come to hold since the arm (R116, R117). -/
def State.pend (s : State) (gid w n : Nat) (deadline : Bool) : State :=
  match s.warpOf? gid w, s.gangOf? gid with
  | some x, some g =>
    let e := smGet {} x.ev n
    if x.exited || !e.armed || e.pend || (e.kind == .dline) != deadline then s
    else match s.evCond g x e false with
      | none => s
      | some v => s.mapWarps fun y =>
        if y.gid == gid && y.w == w then { y with ev := smPut {} y.ev n { e with pend := true, val := v } } else y
  | _, _ => s

/-- PEND_SET (R116). -/
def execPendSet (gid w : Nat) (e : BitVec 3) (s : State) : Out := .next (s.pend gid w e.toNat false)

/-- DEADLINE_EXPIRY (R115). -/
def execDeadlineExpiry (gid w : Nat) (e : BitVec 3) (s : State) : Out := .next (s.pend gid w e.toNat true)

/-- The registers that are pending for a path at wait.any, with the start of its wait. -/
def Warp.readyFor (x : Warp) (p : Path) : Option (Nat × List Nat) :=
  match p.st with
  | .held (.events m start) =>
    match (List.range 8).filter fun n => m.getLsbD n && (smGet {} x.ev n).pend with
    | [] => none
    | ns => some (start, ns)
  | _ => none

/-- The path that takes the next delivery, with the register: the earliest wait, then the lowest identifier (R121); e0 first (R120). -/
def Warp.delivery (x : Warp) : Option (Path × Nat) :=
  (x.live.foldl (fun (b : Option (Path × Nat × Nat)) p => match x.readyFor p with
    | none => b
    | some (start, ns) => match b with
      | none => some (p, start, ns.headD 0)
      | some c => if start < c.2.1 || (start == c.2.1 && decide (p.id < c.1.id)) then some (p, start, ns.headD 0) else b) none).map
    fun c => (c.1, c.2.2)

/-- EVENT_DELIVERY (R120 to R122). -/
def execEventDelivery (gid w : Nat) (s : State) : Out :=
  .next (match s.warpOf? gid w with
    | none => s
    | some x =>
      match x.delivery with
      | none => s
      | some (p, n) =>
        if !s.onCore x then s
        else s.withPath gid w p.id { pc := p.pc, wpos := p.wpos, npc := p.pc, nwpos := p.wpos } fun t =>
          let e := t.evReg n
          let t := t.setEv n { e with pend := false, armed := false }
          let t := t.traceEv 8 p.id (BitVec.ofNat 32 (n + e.kind.code * 16)) e.handler
          (t.jump (e.handler.setWidth 48)).setSt t.me.woken)

/-! ### The end of a context (05_events R132) -/

/-- The gangs of a context. -/
def State.gangsOf (s : State) (asid : Nat) : List Nat := (s.allGangs.filter fun g => g.gid != 0 && g.asid == asid).map Gang.gid

/-- What of an ending context has not begun is dropped, and its open streams close (R132, 13_matrix R290, 12_streams R281). -/
def State.wind (s : State) (asid : Nat) : State :=
  let gids := s.gangsOf asid
  let shut (q : Nat × StreamReg) : Nat × StreamReg :=
    (q.1, if q.2.isOpen then { q.2 with st := if q.2.dir then .closing else .closed, ahead := 0 } else q.2)
  let s := s.mapWarps fun x => if gids.contains x.gid then { x with streams := x.streams.map shut } else x
  let s := s.mapGangs fun g => if gids.contains g.gid then { g with queue := [] } else g
  { s with ops := (s.ops.filter fun o => o.asid != asid || o.registered).map fun o => if o.asid == asid then { o with closing := true } else o }

/-- Something of a context has not performed yet. -/
def State.winding (s : State) (asid : Nat) : Bool :=
  let gids := s.gangsOf asid
  (s.accs.any fun a => gids.contains a.gid) || (s.ops.any fun o => o.asid == asid) ||
    s.allGangs.any fun g => gids.contains g.gid && g.array.isSome

/-- CTXFR takes a record (R132). -/
def ctxfrOk (b : BitVec 64) : Bool := b != 0 && b.toNat % 64 == 0 && decide (b.toNat < 2 ^ 40) && decide (b.toNat + 64 ≤ gddrTop)

/-- The 64 bytes of a context's fault record (R132). -/
def EndRec.bytes (r : EndRec) (asid : Nat) : List (BitVec 8) :=
  leBytes 2 asid ++ leBytes 2 r.cls ++ leBytes 2 r.code ++ leBytes 1 r.hmode ++ leBytes 1 r.path ++ leBytes 4 r.task ++ leBytes 4 r.gang ++
    leBytes 4 r.warp.toNat ++ leBytes 4 r.tmask.toNat ++ leBytes 8 r.tpc.toNat ++ leBytes 8 r.info.toNat ++ leBytes 8 r.time.toNat ++ leBytes 16 0

/-- A RUNNING entry goes to ERROR with FCODE 10 (R132, 03_tasks R61). -/
def State.entryEnds (s : State) (asid task : Nat) : State :=
  match s.q3Walk asid .write ((s.ctx asid).ttbase.toNat + 64 * task) with
  | (_, .error _) => s
  | (t, .ok k) =>
    let ctl := t.rd (k + 62) 2
    if ctlState ctl = 2 then t.wr (k + 62) 2 (ctl % 256 / 4 * 4 + 3 + 10 * 256) else s

/-- Steps 3 to 5 of R132, after which nothing of the context is left to run. -/
def State.endRecord (s : State) (asid : Nat) (r : EndRec) : State :=
  let c := s.ctx asid
  let acts (cl : Nat) : List Nat := s.clusterActs cl
  let s := if ctxfrOk c.ctxfr then s.put c.ctxfr.toNat (r.bytes asid) else s.setPkg { s.pkg with norec := true }
  let is := s.insts.filter fun i => i.asid == asid
  let s := is.foldl (fun s i => s.entryEnds asid i.task) s
  let s := s.sendToken (BitVec.ofNat 64 (asid * 2 ^ 16 + 1))
  let s := s.unreserve (s.gangsOf asid)
  let s := is.foldl (fun s i => s.dropInst i.id) s
  (List.range 12).foldl (fun s cl => s.retargetFrom cl (acts cl)) (s.setCtx asid { s.ctx asid with ending := none })

/-- CONTEXT_FAULT_RECORD (R132): the context winds up, and once everything it began has performed, its record is written. -/
def execContextFaultRecord (asid : Nat) (s : State) : Out :=
  .next (match (s.ctx asid).ending with
    | none => s
    | some r =>
      let t := s.wind asid
      if t.winding asid || t.windowMiss then t else t.endRecord asid r)

/-- SUPMBX_TOKEN_SEND (R132). -/
def execSupmbxTokenSend (s : State) : Out :=
  .next (match s.sys.toks with
    | [] => s
    | t :: ts =>
      match (if s.pkg.supmbx.toNat < 2 ^ 32 then s.mboxKey (s.pkg.supmbx.setWidth 32) else none) with
      | none => s
      | some k => if s.rd k 8 = 0 then (s.wr k 8 t.toNat).setSys { s.sys with toks := ts } else s)

/-! ### Regroup (06_integer R162, R163) -/

/-- A lane slot of a participant: warp, lane, live, key. -/
structure Slot where
  w    : Nat
  l    : Nat
  live : Bool
  key  : Nat
  deriving DecidableEq, Repr

/-- The order of R162: live lanes first, by key, then by warp and lane. -/
def Slot.before (a b : Slot) : Bool :=
  if a.live != b.live then a.live
  else if a.live && a.key != b.key then decide (a.key < b.key)
  else if a.w != b.w then decide (a.w < b.w)
  else decide (a.l < b.l)

def insSlot (a : Slot) : List Slot → List Slot
  | [] => [a]
  | b :: t => if a.before b then a :: b :: t else b :: insSlot a t

/-- The path of a participant that is held at a regroup with a mask, and its wait. -/
def Warp.regroupPath (x : Warp) (m : BitVec 32) : Option (Path × BitVec 7 × List (BitVec 32) × BitVec 48 × Nat) :=
  x.live.findSome? fun p => match p.st with
    | .held (.regroup n d a c k) => if n = m then some (p, d, a, c, k) else none
    | _ => none

/-- A participant is held, unstopped, and drained, its engine operations registered (R162, R163, 09_ordering R216). The spec does not say what the move does
to a warp that runs a pre-emption handler: the rendezvous waits until none does (the model's choice, log 20). -/
def State.atRendezvous (s : State) (gid w : Nat) (m : BitVec 32) : Bool :=
  match s.warpOf? gid w with
  | none => false
  | some x => s.onCore x && (x.regroupPath m).isSome && !x.halted && !(x.live.any fun p => p.hmode == .pre) && s.drained x &&
      !s.outstanding gid w && !(s.ops.any fun o => o.gid == gid && o.w == w && o.dregs != [])

/-- The lane slots of the participants in the order of R162. -/
def regroupSeq (xs : List Warp) (m : BitVec 32) : List Slot :=
  (xs.flatMap fun x => match x.regroupPath m with
    | none => []
    | some (p, _, keys, _, _) => (List.range 32).map fun l =>
      ({ w := x.w, l := l, live := p.mask.getLsbD l, key := (keys.getD l 0).toNat } : Slot)).foldl (fun q a => insSlot a q) []

/-- What a warp's lane slots get from the slots in `seq`, its own 32 of them in order; `regs` gives the register files of each warp. -/
def movedRegs (regs : Nat → Regs) (regsN : Nat) (seq : List Slot) (r : Regs) : Regs :=
  let regs (q : Slot) : Regs := regs q.w
  let src (l : Nat) : Slot := seq.getD l ⟨0, 0, false, 0⟩
  let r := (List.range regsN).foldl (fun r n => r.putV n 0xFFFFFFFF fun l => (regs (src l)).getV n (src l).l) r
  let r := (List.range 7).foldl (fun r n => r.putP n 0xFFFFFFFF (maskOf fun l => ((regs (src l)).getP n).getLsbD (src l).l)) r
  { r with flags := smPuts 0 r.flags 0 ((List.range 32).map fun l => (regs (src l)).getF (src l).l)
           rdep := smPuts 0 r.rdep 0 ((List.range 32).map fun l => BitVec.ofNat 7 ((regs (src l)).getD (src l).l)) }

/-- The registers of a warp after the move, with the source identities in vD. -/
def regroupRegs (xs : List Warp) (regsN : Nat) (d : BitVec 7) (seq : List Slot) (r : Regs) : Regs :=
  let src (l : Nat) : Slot := seq.getD l ⟨0, 0, false, 0⟩
  (movedRegs (fun w => ((xs.find? fun x => x.w == w).map Warp.regs).getD {}) regsN seq r).putV d.toNat (maskOf fun l => (src l).live)
    fun l => BitVec.ofNat 32 ((src l).w * 32 + (src l).l)

/-- The registers as they stood before the group of a participant's regroup: those of its path's later words, which its lanes take along (02_encoding
R38). -/
def Warp.before (x : Warp) (m : BitVec 32) : Regs := ((x.regroupPath m).bind fun c => c.1.snap).getD x.regs

/-- A participant after the move, with its 32 slots of `seq`. -/
def Warp.regrouped (x : Warp) (xs : List Warp) (regsN : Nat) (m : BitVec 32) (seq : List Slot) : Warp :=
  match x.regroupPath m with
  | none => x
  | some (p, d, _, c, k) =>
    let code (q : Slot) : BitVec 8 := ((xs.find? fun y => y.w == q.w).map fun y => smGet (0 : BitVec 8) y.fm.codes q.l).getD 0
    let live := maskOf fun l => (seq.getD l ⟨0, 0, false, 0⟩).live
    let go (q : Path) : Path := if q.id == p.id && q.mask != 0 then
      { q with mask := live, st := .ready, pc := c, wpos := k
               snap := q.snap.map fun r => movedRegs (fun w => ((xs.find? fun y => y.w == w).map fun y => y.before m).getD {}) regsN seq r } else q
    let y := x.mapPaths go
    { y with regs := regroupRegs xs regsN d seq x.regs, fm := { x.fm with codes := smPuts 0 [] 0 (seq.map code) } }

/-- REGROUP_MOVE (R162). -/
def execRegroupMove (gid : Nat) (m : BitVec 32) (s : State) : Out :=
  let ws := lanesOf m
  .next (match s.gangOf? gid with
    | none => s
    | some g =>
      if m = 0 || !(ws.all fun w => s.atRendezvous gid w m) then s
      else
        let xs := ws.filterMap fun w => s.warpOf? gid w
        let seq := regroupSeq xs m
        let part (i : Nat) : List Slot := (seq.drop (32 * i)).take 32
        let at_ (w : Nat) : Warp := (xs.find? fun x => x.w == w).getD {}
        let mem := (List.range ws.length).foldl (fun mem i =>
          (List.range 32).foldl (fun mem l =>
            let q := (part i).getD l ⟨0, 0, false, 0⟩
            smPuts unwritten mem ((at_ (ws.getD i 0)).stackAt l 0) (s.bytes ((at_ q.w).stackAt q.l 0) 2048)) mem) s.mem
        let s := ({ s with mem := mem } : State).mapWarps fun x =>
          if x.gid == gid && ws.contains x.w then x.regrouped xs g.regsN m (part (ws.idxOf x.w)) else x
        let ended := xs.filterMap fun x => match x.regroupPath m with
          | some c => some (x.w, c.1.id)
          | none => none
        ws.foldl (fun s w => s.within gid w fun t =>
          let t := t.me.live.foldl (fun t p => t.trace 5 p.id p.mask 2) t
          (ended.foldl (fun t e => if e.1 = w && (t.me.path? e.2).isNone then t.trace 13 e.2 0 0 else t) t).settle) s)

/-! ### Accesses in flight (08_memory R200, R214) -/

/-- What an access does is a write. -/
def AccOp.writes : AccOp → Bool
  | .store _ => true
  | .atom _ => true
  | .accSt => true
  | _ => false

/-- An earlier access of the same path or lane, or of the path that its path came from, is still to perform (09_ordering R216). -/
def State.accWaits (s : State) (a : Acc) : Bool :=
  s.accs.any fun b => b.gid == a.gid && b.w == a.w && (b.path == a.path || b.heirs.contains a.path || b.lane == a.lane) && decide (b.id < a.id) &&
    b.st == .waiting

/-- What an access returns reaches the lane in focus; value predicates look at it (17_debug R367). -/
def State.arriveLate (s : State) (a : Acc) (v : BitVec 64) : State :=
  (({ s with me := { s.me with obs := {} } } : State).arrive1 a.dreg a.op.wide a.lane v).watchLate a.path a.pc a.wpos a.birth

/-- An access in flight is over: warps that wait for the last of theirs leave their groups (03_tasks R77). -/
def State.dropAcc (s : State) (i : Nat) : State := ({ s with accs := s.accs.filter fun b => b.id != i } : State).leaveDue

/-- An access in flight is over, and what it returns arrives at the warp. -/
def State.answerAcc (s : State) (a : Acc) (v : BitVec 64) : State := (s.dropAcc a.id).within a.gid a.w fun u => u.arriveLate a v

/-- An access in flight performs at its location, and its data or old value arrives at the warp. -/
def State.performAcc (s : State) (a : Acc) : State :=
  let (t, v) := s.accessAt a.op a.key a.val a.old
  t.answerAcc a v

/-- Changes an access in flight. -/
def State.setAcc (s : State) (a : Acc) : State := { s with accs := s.accs.map fun b => if b.id == a.id then a else b }

/-- A remote-local access performs at its target; its answer is on the way back (R200). -/
def State.performThere (s : State) (a : Acc) : State :=
  let (t, v) := s.accessAt a.op a.key a.val a.old
  t.setAcc { a with st := .sent, ret := v }

/-- Nothing holds an access in flight back: neither an earlier one of its path, nor a matrix operation's source bytes, nor the
memory-clock window, nor the interlock of a tile. -/
def State.accFree (s : State) (a : Acc) : Bool :=
  a.st == .waiting && !s.accWaits a && !(a.op.writes && s.mxHolds a.key a.size) && !s.windowHolds a.key &&
    !((a.op == .accLd || a.op == .accSt) && (match s.gangOf? a.gid with | some g => g.tileBusy (tileOf a.key) | none => false))

/-- The lane of an access is switched off with a code, where it is still live (R200): in its path, and in every other that it is in. -/
def State.laneLost (s : State) (a : Acc) (code : Nat) : State :=
  s.within a.gid a.w fun t =>
    match t.me.live.find? fun p => p.mask.getLsbD a.lane with
    | none => t
    | some p => ({ t with me := t.me.select p.id } : State).lanesOff [(a.lane, code, a.addr)]

/-- An access in flight of its own core meets a beam pool that the engine came to hold meanwhile (14_beams R314, R330). -/
def State.poolMet (s : State) (a : Acc) : Bool :=
  decide (2 ^ 40 ≤ a.key) && decide (a.key < 2 ^ 41) && s.poolHit ((a.key - 2 ^ 40) / 2 ^ 20) (a.key % 2 ^ 20) a.size

/-- ACCESS_PERFORM (R214): an access performs where its location is, and what it returns arrives; of one that performed at another core, the answer
arrives. A page-table store by the supervisor is not checked against locks (10_translation R241). -/
def execAccessPerform (acc : Nat) (s : State) : Out :=
  .next (match s.accs.find? fun a => a.id == acc with
    | none => s
    | some a =>
      if a.st = .sent then s.answerAcc a a.ret
      else if a.remote.isSome || !s.accFree a then s
      else if s.poolMet a then (s.dropAcc acc).laneLost a 7
      else if s.conflicts a.key a.size a.op.writes == [] || s.tableStore a.asid a.op a.key then s.performAcc a else s)

/-- A gang's own refusal at a core is logged there (R201). -/
def State.logBy (s : State) (g : Gang) (c off : Nat) : State := { s with cores := (({ s with gang := g } : State).logRefusal c off).cores }

/-- A remote-local access is older than the 65,536 ticks within which it performs or is given up (R200, 05_events R133). -/
def State.overdue (s : State) (a : Acc) : Bool := decide (65536 < (s.now - a.time).toNat)

/-- REMOTE_LOCAL_TARGET (R200, 09_ordering R222): refused where the target's stack was powered down (16_stack R359), its bytes lie in no allocation of
the context, or a range holds them; off with POOL where the beam engine holds them (14_beams R314). -/
def execRemoteLocalTarget (acc : Nat) (s : State) : Out :=
  .next (match s.accs.find? fun a => a.id == acc with
    | none => s
    | some a => match a.remote, s.gangOf? a.gid with
      | some (c, off), some g =>
        if !s.accFree a || s.overdue a then s
        else if !s.powered (c / 32) || !s.inAllocation c a.asid off a.size || s.conflicts a.key a.size a.op.writes != [] then
          (s.setAcc { a with st := .refused }).logBy g c off
        else if s.poolHit c off a.size then s.setAcc { a with st := .refused, code := 7 }
        else s.performThere a
      | _, _ => s)

/-- REMOTE_FAULT_RETURN (R200): at a chain-group boundary of the lane's path. -/
def execRemoteFaultReturn (acc : Nat) (s : State) : Out :=
  .next (match s.accs.find? fun a => a.id == acc with
    | none => s
    | some a => if a.st = .refused then (s.dropAcc acc).laneLost a a.code else s)

/-- REMOTE_TIMEOUT (R200, R201): no answer has come within 65,536 ticks. The access is over: an answer on its way is discarded, and a request that has
not performed by then performs no more, since every store performs within that time (05_events R133; log 23). -/
def execRemoteTimeout (acc : Nat) (s : State) : Out :=
  .next (match s.accs.find? fun a => a.id == acc with
    | none => s
    | some a => match a.remote with
      | none => s
      | some (c, _) =>
        if 65536 ≤ (s.now - a.time).toNat then
          let x := s.core c
          let t := s.setCore c { x with rlcount := if x.rlcount = 0xFFFF then x.rlcount else x.rlcount + 1 }
          (t.dropAcc acc).laneLost a 9
        else s)

/-! ### mwait (09_ordering R234) -/

/-- A value that a location took since an mwait's read satisfies its condition. -/
def State.mwaitMet (s : State) (g : Gang) (k : MCond) (wide : Bool) (addr c : BitVec 64) (since frame : Nat) (past : List (Nat × Nat × Nat)) : Bool :=
  match s.watchKey g addr frame with
  | none => false
  | some key => (s.valuesPast past ++ s.valuesSince key since).any fun v =>
      mcond k (if wide then v else if key % 8 < 4 then (v.setWidth 32).setWidth 64 else v >>> 32) c

/-- MWAIT_RELEASE (R234). -/
def execMwaitRelease (gid w path : Nat) (s : State) : Out :=
  .next (match (s.warpOf? gid w).bind fun x => x.path? path, s.gangOf? gid with
    | some p, some g => match p.st with
      | .held (.mwait k wide addr c since frame past) =>
        if s.mwaitMet g k wide addr c since frame past then s.onPath gid w path fun x q => { q with st := x.woken } else s
      | _ => s
    | _, _ => s)

/-! ### Host accesses (09_ordering R222, R228) -/

/-- What a host access writes over an old value of `n` bytes. -/
def hostNew (a : HostAct) (n old : Nat) : Option Nat :=
  match a with
  | .load => none
  | .store v => some (v.toNat % 2 ^ (8 * n))
  | .xchg v => some (v.toNat % 2 ^ (8 * n))
  | .cas o x => if o.toNat % 2 ^ (8 * n) = old then some (x.toNat % 2 ^ (8 * n)) else none
  | .add v => some ((old + v.toNat) % 2 ^ (8 * n))

def HostAct.writes : HostAct → Bool
  | .load => false
  | _ => true

/-- A lock or the memory-clock window holds a host access at the keys and lengths of its bytes, or the window its walk (R222, 16_stack R360). -/
def State.hostHeld (s : State) (h : HostOp) (ks : List (Nat × Nat)) : Bool :=
  (ks == [] && s.windowMiss) || ks.any fun k => s.conflicts k.1 k.2 (HostAct.writes h.act) != [] || s.windowHolds k.1

/-- A host access at the keys and lengths of its bytes: held there, with them, while a lock or the window holds it, else one event with its answer. -/
def State.hostAt (s : State) (h : HostOp) (ks : List (Nat × Nat)) : State :=
  if s.hostHeld h ks then s.setSys { s.sys with hosts := s.sys.hosts ++ [(h, ks)] }
  else
    let old := leNat (ks.flatMap fun (k : Nat × Nat) => s.bytes k.1 k.2)
    (match hostNew h.act h.size old with
      | some v => s.putAll ((ks.flatMap fun (k : Nat × Nat) => (List.range k.2).map fun i => k.1 + i).zip (leBytes h.size v))
      | none => s).answer (.host (BitVec.ofNat 64 old))

/-- The keys of a host access's bytes, page by page, or the code of a fault (R228). -/
def State.hostKeys (s : State) (asid : Nat) (want : Want) : List (Nat × Nat) → State × Except Nat (List (Nat × Nat))
  | [] => (s, .ok [])
  | (va, n) :: rest => match s.q3Walk asid want va with
    | (t, .error c) => (t, .error c)
    | (t, .ok k) => match t.hostKeys asid want rest with
      | (u, .ok ks) => (u, .ok ((k, n) :: ks))
      | r => r

/-- A host access from its translation on: in the window of the memory clock, a walk that misses is held (16_stack R360). -/
def State.hostFrom (s : State) (h : HostOp) : State :=
  match h.target with
  | .mbox t => match s.mboxKey t with
    | none => s
    | some k => s.hostAt h [(k, h.size)]
  | .global asid va =>
    if s.windowMiss then s.setSys { s.sys with hosts := s.sys.hosts ++ [(h, [])] }
    else match s.hostKeys asid (if HostAct.writes h.act then .write else .read) (cutVa va.toNat 2 h.size) with
      | (t, .error c) => t.answer (.hostFault c)
      | (t, .ok ks) => t.hostAt h ks

/-- A held host access goes on: from its translation, where that was held. -/
def State.hostOn (s : State) (h : HostOp) (ks : List (Nat × Nat)) : State :=
  let t := s.setSys { s.sys with hosts := s.sys.hosts.erase (h, ks) }
  if ks = [] then t.hostFrom h else t.hostAt h ks

/-- HOST_ACCESS (R228): one event, of 1 to 8 bytes. The host cores are released in stage SERVE (16_stack R357). -/
def execHostAccess (h : HostOp) (s : State) : Out :=
  .next (if s.pkg.stage ≠ .serve || h.size = 0 || 8 < h.size then s else s.hostFrom h)

/-! ### Instruction fetches (09_ordering R230, 10_translation R244, 13_matrix R410) -/

/-- The bytes of a packet by translated reads of the gang in focus, or the fault with its address. -/
def State.fetchParts (s : State) : List (Nat × Nat) → State × Except (Nat × Nat) (List (BitVec 8))
  | [] => (s, .ok [])
  | (va, n) :: rest =>
    match s.translate .fetch (va % 2 ^ 48) with
    | (t, .error c) => (t, .error (c, va % 2 ^ 48))
    | (t, .ok k) => match t.fetchParts rest with
      | (u, .ok bs) => (u, .ok (t.bytes k n ++ bs))
      | r => r

/-- The cached packet that a path may use: one that was filled after its latest fence.t (09_ordering R230). -/
def State.lineFor (s : State) (asid : Nat) (pc : BitVec 48) (fenced : Nat) : Option ILine :=
  (s.core s.coreNo).icache.find? fun l => l.asid == asid && l.pc == pc && decide (fenced < l.at_)

/-- Puts a packet into the instruction cache of the core in focus. Where the cache still holds an older copy that the path may use, which words come
from it and which are new is open, word by word: a free value says (R230). -/
def State.fillLine (s : State) (pc : BitVec 48) (bs : List (BitVec 8)) : State :=
  let new (i : Nat) : BitVec 32 := BitVec.ofNat 32 (fieldAt bs (4 * i) 4)
  let x := s.core s.coreNo
  let l : ILine := match s.lineFor s.gang.asid pc s.me.cur.fenced with
    | none => { asid := s.gang.asid, pc := pc, w0 := new 0, w1 := new 1, w2 := new 2, at_ := s.point }
    | some o =>
      let stale (i : Nat) : Bool := (Config.freeWord s.sys.seq).getLsbD i
      { asid := s.gang.asid, pc := pc, w0 := if stale 0 then o.w0 else new 0, w1 := if stale 1 then o.w1 else new 1
        w2 := if stale 2 then o.w2 else new 2, at_ := if stale 0 || stale 1 || stale 2 then o.at_ else s.point }
  s.setCore s.coreNo { x with icache := (x.icache.filter fun y => !(y.asid == l.asid && y.pc == pc)) ++ [l] }

/-- Fetches a packet for the path in focus, which parks at it where the fetch faults. -/
def State.fetchPath (s : State) (pc : BitVec 48) : State :=
  match s.fetchParts (cutVa pc.toNat 3 12) with
  | (t, .ok bs) => t.fillLine pc bs
  | (t, .error (c, va)) =>
    let t := t.park 2 c (BitVec.ofNat 64 va) 3 s.me.cur.mask
    t.setCur { t.me.cur with replay := s.me.cur.replay }

/-- Fetches a packet for the sequencer of a gang, which parks where the fetch faults. The package's focus is as before. -/
def State.fetchSeq (s : State) (g : Gang) : State :=
  let pc := g.seq.pc
  let t : State := { s with gang := g, me := {} }
  match t.fetchParts (cutVa pc.toNat 3 12) with
  | (t, .ok bs) => { t.fillLine pc bs with gang := s.gang, me := s.me }
  | (t, .error (c, va)) =>
    ({ t with gang := s.gang, me := s.me } : State).setGang
      { g with seq := { g.seq with st := .parked { kind := 2, code := c, va := BitVec.ofNat 64 va, access := 3, time := s.now } } }

/-- ICACHE_FILL (R230): for a path, or for a gang's sequencer as path 0xFE. -/
def execIcacheFill (gid w path : Nat) (s : State) : Out :=
  .next (if path = 0xFE then
      match s.gangOf? gid with
      | some g => if g.st = .resident && g.seq.st = .running && !s.windowMiss then s.fetchSeq g else s
      | none => s
    else match s.warpOf? gid w with
      | none => s
      | some x => match x.path? path with
        | none => s
        | some p =>
          if p.st = .ready && s.onCore x && !s.windowMiss then
            s.withPath gid w path { pc := p.pc, wpos := p.wpos, npc := p.pc, nwpos := p.wpos } fun t => t.fetchPath p.pc
          else s)

/-! ### The path table and the register tiers (04_control R109, 08_memory R204) -/

/-- A path can issue as far as its state and the warp's handlers let it: interrupted paths do not while a pre-emption handler runs (05_events
R134). R109 does not say whether they count as READY for a path's coming in: they do not (the model's choice, log 48). -/
def Warp.mayIssue (x : Warp) (p : Path) : Bool := p.mask != 0 && p.st == .ready && (p.hmode == .pre || !(x.live.any fun q => q.hmode == .pre))

/-- The resident path that goes to the list: with the highest PC, then the highest identifier, of those in JOIN, HELD, PARKED or STOPPED (R109). -/
def Warp.movedOut (x : Warp) : Option Path :=
  (x.resident.filter fun p => p.st != .ready).foldl (fun b p => match b with
    | none => some p
    | some q => if q.pc < p.pc || (q.pc == p.pc && decide (q.id < p.id)) then some p else some q) none

/-- A warp after a path came in from its overflow list (R109). -/
def Warp.broughtIn (x : Warp) : Warp :=
  match x.overflow with
  | [] => x
  | _ :: rest =>
    if x.resident.length < 8 then { x with overflow := rest }
    else if x.resident.any x.mayIssue then x
    else match x.overflow.find? (fun i => x.live.any fun p => p.id == i && x.mayIssue p), x.movedOut with
      | some i, some q => { x with overflow := (x.overflow.filter fun j => j != i) ++ [q.id] }
      | _, _ => x

/-- A path is to come in from the overflow list: until it has, the warp issues nothing (R109). -/
def Warp.bringsIn (x : Warp) : Bool := x.broughtIn.overflow != x.overflow

/-- PATH_BRING_IN (R109). -/
def execPathBringIn (gid w : Nat) (s : State) : Out :=
  .next (s.mapWarps fun x => if gid != 0 && x.gid == gid && x.w == w && !x.exited then x.broughtIn else x)

/-- Lane registers that the top tier holds: 64 warps of 128 (01_machine R18). -/
def topRoom : Nat := 64 * 128

/-- Registers a lane that a warp's gang declares. -/
def State.regsOf (s : State) (x : Warp) : Nat := ((s.gangOf? x.gid).map Gang.regsN).getD 0

/-- The warps that leave the top tier until the rest fit: the ones that issued least recently. -/
def tooMany (room : Nat) (xs : List (Nat × Nat × Nat × Nat)) : Nat → List (Nat × Nat)
  | 0 => []
  | n + 1 =>
    if (xs.map fun x => x.2.2.1).sum ≤ room then []
    else match xs.foldl (fun (b : Option (Nat × Nat × Nat × Nat)) x => match b with
        | none => some x
        | some y => if x.2.2.2 < y.2.2.2 then some x else some y) none with
      | none => []
      | some y => (y.1, y.2.1) :: tooMany room (xs.filter fun x => !(x.1 == y.1 && x.2.1 == y.2.1)) n

/-- REGISTER_BRING_IN (R204). -/
def execRegisterBringIn (gid w : Nat) (s : State) : Out :=
  .next (match s.warpOf? gid w, s.gangOf? gid with
    | some x, some g =>
      if x.top || !s.onCore x then s
      else
        let others := (s.coreWarps (32 * g.stk + g.core)).filter fun y => y.top && !(y.gid == gid && y.w == w)
        let out := tooMany (topRoom - g.regsN) (others.map fun y => (y.gid, y.w, s.regsOf y, y.issued)) 128
        s.mapWarps fun y => if y.gid == gid && y.w == w then { y with top := true }
          else if out.contains (y.gid, y.w) then { y with top := false } else y
    | _, _ => s)

end Sys2Proof.Machine
end

