-- ==== Sys2Proof/Machine/Control.lean ====
section
/-! DEFINITION. Control flow (04_control): branches, calls, returns, join, exit, nop, pyield. The path's place is already the one after the
chain group when a meaning runs (02_encoding R39). -/

namespace Sys2Proof.Machine

/-- The target of a format B word (02_encoding R30). R30 says nothing of a target below 0 or at or above 2^48: the address wraps to 48 bits (the model's
choice, log 45). -/
def State.branchTarget (s : State) (t : BitVec 20) : BitVec 48 := s.here.pc + 12 * t.signExtend 48

/-- The lanes of a B word that transfer (R99). -/
def State.takes (s : State) (p : BitVec 3) (n : Bool) (l : Nat) : Bool := s.p p l != n

/-- BRA (R99), or the sequencer's jump (02_encoding R42). -/
def execBra (p : BitVec 3) (n : Bool) (t : BitVec 20) (s : State) : Out :=
  .next (match s.issue with
    | .seq => { s with gang := { s.gang with seq := { s.gang.seq with pc := s.branchTarget t, wpos := 0 } } }
    | _ => s.moveLanes (fun l => if s.takes p n l then (s.branchTarget t, 0) else s.fall) (s.takes p n))

/-- BRP (R100). -/
def execBrp (p : BitVec 3) (n : Bool) (t : BitVec 20) (s : State) : Out :=
  .next (if s.lanes.any (s.takes p n) then s.jump (s.branchTarget t) else s.goto s.fall.1 s.fall.2)

/-- check_targets (R103) over the targets of lanes: the trapped state where one fails. -/
def State.badTarget (s : State) (tgt : Nat → BitVec 64) (ls : List Nat) : Option State :=
  if ls.any fun l => (tgt l).toNat % 12 ≠ 0 then some (s.trap 0 9 (BitVec.ofNat 64 s.here.word))
  else match ls.find? fun l => decide ((tgt l).toNat / 2 ^ 48 ≠ 0) with
    | some l => some (s.progErr 0x0403 (tgt l))
    | none => none

/-- The targets of brx and callx (R102). -/
def State.indexed (s : State) (a : BitVec 7) (u : BitVec 6) (l : Nat) : BitVec 64 := s.uu u + 12 * (s.v a l).setWidth 64

/-- Key of a lane's return slot of a depth (R104). -/
def State.slotKey (s : State) (l d : Nat) : Nat := s.me.stackAt l (8 * d)

/-- Pushes return addresses for lanes (R105). -/
def State.pushReturn (s : State) (ls : List Nat) : State :=
  ls.foldl (fun s l =>
    let d := s.me.regs.getD l
    (s.wr (s.slotKey l d) 8 (s.here.pc.toNat + 12)).setRegs (s.me.regs.putD l (d + 1))) s

/-- CALL (R105). -/
def execCall (p : BitVec 3) (n : Bool) (t : BitVec 20) (s : State) : Out :=
  let taking := s.lanes.filter (s.takes p n)
  .next (if taking.any fun l => decide (s.me.regs.getD l = 64) then s.progErr 0x0401 0
    else (s.pushReturn taking).moveLanes (fun l => if s.takes p n l then (s.branchTarget t, 0) else s.fall) (s.takes p n))

/-- BRX (R102). -/
def execBrx (a : BitVec 7) (u : BitVec 6) (s : State) : Out :=
  let tgt := s.indexed a u
  .next (match s.badTarget tgt s.lanes with
    | some t => t
    | none => s.moveLanes (fun l => ((tgt l).setWidth 48, 0)) fun _ => true)

/-- CALLX (R105). -/
def execCallx (a : BitVec 7) (u : BitVec 6) (s : State) : Out :=
  let tgt := s.indexed a u
  .next (match s.badTarget tgt s.lanes with
    | some t => t
    | none =>
      if s.lanes.any fun l => decide (s.me.regs.getD l = 64) then s.progErr 0x0401 0
      else (s.pushReturn s.lanes).moveLanes (fun l => ((tgt l).setWidth 48, 0)) fun _ => true)

/-- RET (R106). -/
def execRet (s : State) : Out :=
  let tgt (l : Nat) : BitVec 64 := s.rd64 (s.slotKey l (s.me.regs.getD l - 1))
  .next (if s.lanes.any fun l => decide (s.me.regs.getD l = 0) then s.progErr 0x0402 0
    else match s.badTarget tgt s.lanes with
      | some t => t
      | none =>
        (s.setRegs (s.lanes.foldl (fun r l => r.putD l (r.getD l - 1)) s.me.regs)).moveLanes (fun l => ((tgt l).setWidth 48, 0)) fun _ => true)

/-- JOIN (R107, R108). -/
def execJoin (s : State) : Out := .next s.joinHere

/-- EXIT (R110). -/
def execExit (s : State) : Out := .next s.exitLanes

/-- NOP (R111). -/
def execNop (s : State) : Out := .next s

/-- PYIELD (R112): the path and its warp count as the latest issuers. -/
def execPyield (s : State) : Out :=
  .next { s with me := { s.me with issued := s.point, cur := { s.me.cur with issued := s.point } } }

end Sys2Proof.Machine
end

