-- ==== Sys2Proof/Machine/CrossLane.lean ====
section
/-! DEFINITION. Cross-lane instructions (06_integer R157 to R161): votes, shuffles, reductions, scans, copies between lane and uniform
registers, and regroup. They work over the active lanes of the path alone. -/

namespace Sys2Proof.Machine

/-- vA of lane j, or of the reading lane where lane j is not active (R157). -/
def State.fromLane (s : State) (a : BitVec 7) (j l : Nat) : Word := if s.act j then s.v a j else s.v a l

/-- SHFL (R160). -/
def execShfl (d a b : BitVec 7) (s : State) : Out := .next (s.setV d fun l => s.fromLane a ((s.v b l).toNat % 32) l)

/-- LSCANADD (R160). -/
def execLscanAdd (d a : BitVec 7) (n : Bool) (p : BitVec 3) (s : State) : Out := .next (s.setV d fun l => lscan (fun x y => x + y) (s.v a) (fun m => s.p p m != n) l none s.lanes)

/-- LSCANAND (R160). -/
def execLscanAnd (d a : BitVec 7) (n : Bool) (p : BitVec 3) (s : State) : Out := .next (s.setV d fun l => lscan (fun x y => x &&& y) (s.v a) (fun m => s.p p m != n) l none s.lanes)

/-- LSCANOR (R160). -/
def execLscanOr (d a : BitVec 7) (n : Bool) (p : BitVec 3) (s : State) : Out := .next (s.setV d fun l => lscan (fun x y => x ||| y) (s.v a) (fun m => s.p p m != n) l none s.lanes)

/-- LSCANXOR (R160). -/
def execLscanXor (d a : BitVec 7) (n : Bool) (p : BitVec 3) (s : State) : Out := .next (s.setV d fun l => lscan (fun x y => x ^^^ y) (s.v a) (fun m => s.p p m != n) l none s.lanes)

/-- LSCANMINI32 (R160). -/
def execLscanMinI32 (d a : BitVec 7) (n : Bool) (p : BitVec 3) (s : State) : Out := .next (s.setV d fun l => lscan minI (s.v a) (fun m => s.p p m != n) l none s.lanes)

/-- LSCANMAXI32 (R160). -/
def execLscanMaxI32 (d a : BitVec 7) (n : Bool) (p : BitVec 3) (s : State) : Out := .next (s.setV d fun l => lscan maxI (s.v a) (fun m => s.p p m != n) l none s.lanes)

/-- VOTEANY (R160). -/
def execVoteAny (d a : BitVec 3) (s : State) : Out := .next (s.setP d fun _ => s.lanes.any (s.p a))

/-- VOTEALL (R160). -/
def execVoteAll (d a : BitVec 3) (s : State) : Out := .next (s.setP d fun _ => s.lanes.all (s.p a))

/-- VOTEBALL (R160). -/
def execVoteBall (d : BitVec 7) (a : BitVec 3) (s : State) : Out := .next (s.setV d fun _ => s.me.regs.getP a.toNat &&& s.me.cur.mask)

/-- V2S (R160). -/
def execV2s (a : BitVec 7) (u : BitVec 6) (s : State) : Out := .next (s.setU u (s.v a s.first))

/-- S2V (R160). -/
def execS2v (d : BitVec 7) (u : BitVec 6) (s : State) : Out := .next (s.setV d fun _ => s.u u)

/-- LBCAST (R160). -/
def execLbcast (d a : BitVec 7) (u : BitVec 6) (s : State) : Out := .next (s.setV d fun l => s.fromLane a ((s.u u).toNat % 32) l)

/-- LREDADD (R160). -/
def execLredAdd (d a : BitVec 7) (s : State) : Out := .next (s.setV d fun _ => lred (fun x y => x + y) (s.v a) s.lanes)

/-- LREDAND (R160). -/
def execLredAnd (d a : BitVec 7) (s : State) : Out := .next (s.setV d fun _ => lred (fun x y => x &&& y) (s.v a) s.lanes)

/-- LREDOR (R160). -/
def execLredOr (d a : BitVec 7) (s : State) : Out := .next (s.setV d fun _ => lred (fun x y => x ||| y) (s.v a) s.lanes)

/-- LREDXOR (R160). -/
def execLredXor (d a : BitVec 7) (s : State) : Out := .next (s.setV d fun _ => lred (fun x y => x ^^^ y) (s.v a) s.lanes)

/-- LREDMINI32 (R160). -/
def execLredMinI32 (d a : BitVec 7) (s : State) : Out := .next (s.setV d fun _ => lred minI (s.v a) s.lanes)

/-- LREDMAXI32 (R160). -/
def execLredMaxI32 (d a : BitVec 7) (s : State) : Out := .next (s.setV d fun _ => lred maxI (s.v a) s.lanes)

/-- The warp of the gang in focus with a number. -/
def State.warpNo (s : State) (w : Nat) : Option Warp := s.allWarps.find? fun x => x.gid == s.gang.gid && x.w == w

/-- A warp of the gang is held at a regroup with a mask that `f` picks. -/
def Warp.atRegroup (x : Warp) (f : BitVec 32 → Bool) : Bool :=
  x.live.any fun p => match p.st with | .held (.regroup m _ _ _ _) => f m | _ => false

/-- REGROUP (R161): the checks, then the path waits at its own place for the rendezvous, with its lanes' keys. A handler path is one of a pre-emption
handler (04_control R91). -/
def execRegroup (d a b : BitVec 7) (s : State) : Out :=
  let m := s.v b s.first
  let bad := s.lanes.find? fun l => s.v b l != m
  let others := (List.range 32).filter fun w => m.getLsbD w
  .next (if s.me.cur.hmode = .pre || s.me.cur.mask ≠ s.me.lanes then s.progErr 0x0601 0
    else if bad.isSome || !m.getLsbD s.me.w || others.any (fun w => match s.warpNo w with | none => true | some x => x.exited) then
      s.progErr 0x0602 ((s.v b (bad.getD s.first)).setWidth 64)
    else if others.any (fun w => match s.warpNo w with | none => false | some x => x.atRegroup fun m' => m' != m) then
      s.progErr 0x0603 (m.setWidth 64)
    else s.holdHere (.regroup m d ((List.range 32).map (s.v a)) s.here.npc s.here.nwpos))

end Sys2Proof.Machine
end

