-- ==== Sys2Proof/Machine/Floating.lean ====
section
/-! DEFINITION. Floating point, conversion and quantisation (07_numbers R173 to R190): majors 0x10 to 0x14. No operand value traps (R172). -/

namespace Sys2Proof.Machine

/-- vD := the results of the lanes, whose flags are set (R173). -/
def State.setF (s : State) (d : BitVec 7) (f : Nat → FRes) : State :=
  (s.setV d fun l => BitVec.ofNat 32 (f l).bits).flag fun l => (f l).fl

/-- FADD (R175). -/
def execFadd (d a b : BitVec 7) (r : RoundMode) (s : State) : Out := .next (s.setF d fun l => fmtF32.addBits r (s.v a l).toNat (s.v b l).toNat)

/-- FMUL (R175). -/
def execFmul (d a b : BitVec 7) (r : RoundMode) (s : State) : Out := .next (s.setF d fun l => fmtF32.mulBits r (s.v a l).toNat (s.v b l).toNat)

/-- FFMA (R175). -/
def execFfma (d a b : BitVec 7) (r : RoundMode) (s : State) : Out := .next (s.setF d fun l => fmtF32.fmaBits r (s.v a l).toNat (s.v b l).toNat (s.v d l).toNat)

/-- FSUB (R175). -/
def execFsub (d a b : BitVec 7) (s : State) : Out := .next (s.setF d fun l => fmtF32.subBits (s.v a l).toNat (s.v b l).toNat)

/-- FMIN (R175). -/
def execFmin (d a b : BitVec 7) (s : State) : Out := .next (s.setF d fun l => fminmax false (s.v a l).toNat (s.v b l).toNat)

/-- FMAX (R175). -/
def execFmax (d a b : BitVec 7) (s : State) : Out := .next (s.setF d fun l => fminmax true (s.v a l).toNat (s.v b l).toNat)

/-- FCMP (R178). -/
def execFcmp (k : FCond) (p : BitVec 3) (a b : BitVec 7) (s : State) : Out := .next ((s.setP p fun l => (fcmpBits k (s.v a l).toNat (s.v b l).toNat).1).flag fun l => (fcmpBits k (s.v a l).toNat (s.v b l).toNat).2)

/-- FCLASS (R179). -/
def execFclass (d a : BitVec 7) (s : State) : Out := .next (s.setV d fun l => BitVec.ofNat 32 (fclassBits (s.v a l).toNat))

/-- FCLASSFLG (R179). -/
def execFclassFlg (d : BitVec 7) (s : State) : Out := .next (s.setV d fun l => (s.me.regs.getF l).setWidth 32)

/-- Clears every flag of the active lanes (R179). -/
def State.clearFlags (s : State) : State :=
  let r := s.me.regs
  s.setRegs { r with flags := smPuts 0 r.flags 0 ((List.range 32).map fun l => if s.act l then 0 else r.getF l) }

/-- FCLASSFLGCLR (R179). -/
def execFclassFlgclr (d : BitVec 7) (s : State) : Out := .next ((s.setV d fun l => (s.me.regs.getF l).setWidth 32).clearFlags)

/-- FRND (R180). -/
def execFrnd (d a : BitVec 7) (s : State) : Out := .next (s.setF d fun l => frndBits .ne (s.v a l).toNat)

/-- FRNDRZ (R180). -/
def execFrndRz (d a : BitVec 7) (s : State) : Out := .next (s.setF d fun l => frndBits .z (s.v a l).toNat)

/-- FRNDRD (R180). -/
def execFrndRd (d a : BitVec 7) (s : State) : Out := .next (s.setF d fun l => frndBits .d (s.v a l).toNat)

/-- FRNDRU (R180). -/
def execFrndRu (d a : BitVec 7) (s : State) : Out := .next (s.setF d fun l => frndBits .u (s.v a l).toNat)

/-- HADD2F16 (R181). -/
def execHadd2F16 (d a b : BitVec 7) (s : State) : Out := .next (s.setF d fun l => packed2 (fun a b _ => fmtF16.addBits .ne a b) (s.v a l).toNat (s.v b l).toNat 0)

/-- HADD2BF16 (R181). -/
def execHadd2Bf16 (d a b : BitVec 7) (s : State) : Out := .next (s.setF d fun l => packed2 (fun a b _ => fmtBf16.addBits .ne a b) (s.v a l).toNat (s.v b l).toNat 0)

/-- HMUL2F16 (R181). -/
def execHmul2F16 (d a b : BitVec 7) (s : State) : Out := .next (s.setF d fun l => packed2 (fun a b _ => fmtF16.mulBits .ne a b) (s.v a l).toNat (s.v b l).toNat 0)

/-- HMUL2BF16 (R181). -/
def execHmul2Bf16 (d a b : BitVec 7) (s : State) : Out := .next (s.setF d fun l => packed2 (fun a b _ => fmtBf16.mulBits .ne a b) (s.v a l).toNat (s.v b l).toNat 0)

/-- HFMA2F16 (R181). -/
def execHfma2F16 (d a b : BitVec 7) (s : State) : Out := .next (s.setF d fun l => packed2 (fun a b c => fmtF16.fmaBits .ne a b c) (s.v a l).toNat (s.v b l).toNat (s.v d l).toNat)

/-- HFMA2BF16 (R181). -/
def execHfma2Bf16 (d a b : BitVec 7) (s : State) : Out := .next (s.setF d fun l => packed2 (fun a b c => fmtBf16.fmaBits .ne a b c) (s.v a l).toNat (s.v b l).toNat (s.v d l).toNat)

/-- RCP (R183). -/
def execRcp (d a : BitVec 7) (s : State) : Out := .next (s.setF d fun l => rcpBits (s.v a l).toNat)

/-- RSQ (R183). -/
def execRsq (d a : BitVec 7) (s : State) : Out := .next (s.setF d fun l => rsqBits (s.v a l).toNat)

/-- SQRT (R183). -/
def execSqrt (d a : BitVec 7) (s : State) : Out := .next (s.setF d fun l => sqrtBits (s.v a l).toNat)

/-- EXP2 (R183). -/
def execExp2 (d a : BitVec 7) (s : State) : Out := .next (s.setF d fun l => exp2Bits (s.v a l).toNat)

/-- LOG2 (R183). -/
def execLog2 (d a : BitVec 7) (s : State) : Out := .next (s.setF d fun l => log2Bits (s.v a l).toNat)

/-- SIN (R183). -/
def execSin (d a : BitVec 7) (s : State) : Out := .next (s.setF d fun l => sinBits (s.v a l).toNat)

/-- COS (R183). -/
def execCos (d a : BitVec 7) (s : State) : Out := .next (s.setF d fun l => cosBits (s.v a l).toNat)

/-- The source bits of a conversion: the register, or the pair for a 64-bit type (R168). -/
def State.cvtSrc (s : State) (t : CvtTy) (a : BitVec 7) (l : Nat) : Nat :=
  if t = .i64 ∨ t = .n64 then (s.vv a l).toNat else (s.v a l).toNat

/-- CVT (R184, R185). -/
def execCvt (d a : BitVec 7) (dty sty : CvtTy) (r : RoundMode) (ns : Bool) (s : State) : Out :=
  let f (l : Nat) : FRes := cvtConvert dty r ns (cvtValue sty (s.cvtSrc sty a l))
  .next (if dty = .i64 ∨ dty = .n64 then (s.setVV d fun l => BitVec.ofNat 64 (f l).bits).flag fun l => (f l).fl else s.setF d f)

/-! Block scaling and Q4 packing (R187 to R190). -/

/-- The quantisation control: vB of the lowest active lane (R187). -/
def State.qctl (s : State) (b : BitVec 7) : Nat := (s.v b s.first).toNat
def qSeg (c : Nat) : Bool := c / 2 ^ 9 % 2 == 1
def qBins (c : Nat) : Nat := if qSeg c then 16 else 32
/-- The segment of a lane. -/
def qSegOf (c l : Nat) : Nat := if qSeg c then l / 16 else 0

/-- The bin of an FP32 value; none for a NaN or a zero, which are not counted (R188). -/
def qBin (c x : Nat) : Option Nat :=
  let mag := x % 2 ^ 31
  let e := mag / 2 ^ 23
  if mag = 0 || isNanF32 x then none else some (min (e - c % 256) (qBins c - 1))

/-- QHIST (R188). -/
def execQhist (d a b : BitVec 7) (s : State) : Out :=
  let c := s.qctl b
  let count (h k : Nat) : Nat := (s.lanes.filter fun l => qSegOf c l == h && qBin c (s.v a l).toNat == some k).length
  .next (s.setV d fun j => s.v d j + BitVec.ofNat 32 (count (qSegOf c j) (j % qBins c)))

/-- The scale code that qscale chooses for a segment (R189). -/
def State.qcode (s : State) (a : BitVec 7) (c h : Nat) : Nat :=
  let nb := qBins c
  let bin (k : Nat) : Nat := let l := if qSeg c then 16 * h + k else k; if s.act l then (s.v a l).toNat else 0
  let tot := ((List.range nb).map bin).sum
  if tot = 0 then 127
  else
    let allow := tot * (65535 - c / 2 ^ 16) / 65536
    let above (k : Nat) : Nat := (((List.range nb).filter fun j => k < j).map bin).sum
    let js := ((List.range nb).find? fun k => decide (above k ≤ allow)).getD (nb - 1)
    let emax : Int := if c / 2 ^ 8 % 2 = 1 then 2 else 8
    let elog : Int := (max (c % 256 + js) 1 : Nat) - 127
    (satInt 0 254 (elog - emax + 127)).1.toNat

/-- QSCALE (R189). -/
def execQscale (d a b : BitVec 7) (s : State) : Out :=
  let c := s.qctl b
  .next (s.setV d fun l => BitVec.ofNat 32 (s.qcode a c (qSegOf c l)))

/-- One lane's nibble of qpack, with its flags (R190). -/
def qNibble (x scale : Nat) : FRes :=
  match fmtF32.decode x with
  | .nan _ => ⟨0, flagNV⟩
  | .inf n => if scale = 255 then ⟨0, flagNV⟩ else ⟨if n then 15 else 7, flagST⟩
  | .fin n m e =>
    if scale = 255 then ⟨0, flagNV⟩
    else if m = 0 then ⟨if n then 8 else 0, 0⟩
    else
      let r := fmtE2m1.rnd .ne n m (e - ((scale : Int) - 127))
      if r.ovf then ⟨if n then 15 else 7, flagST ||| flagNX⟩ else ⟨fmtE2m1.enc n r.n r.q, r.fl⟩

/-- The FP32 value of an unpacked nibble, with its flags (R169, R190). -/
def qUnpack (nib scale : Nat) : FRes :=
  if scale = 255 then ⟨0x7FC00000, 0⟩
  else match fmtE2m1.decode nib with
    | .fin n m e => fmtF32.put .ne (.fin n m (e + ((scale : Int) - 127)))
    | _ => ⟨0, 0⟩

/-- QPACK (R190). -/
def execQpack (d a b : BitVec 7) (s : State) : Out :=
  let scale (l : Nat) : Nat := (s.v b l).toNat % 256
  let nib (l : Nat) : FRes := qNibble (s.v a l).toNat (scale l)
  let word (l : Nat) : Nat := ((s.lanes.filter fun m => m / 8 == l / 8).map fun m => (nib m).bits * 16 ^ (m % 8)).sum
  .next (if s.qctl b / 2 ^ 8 % 2 = 0 then (s.setV d fun l => BitVec.ofNat 32 (word l)).flag fun l => (nib l).fl
    else s.setF d fun l => qUnpack ((s.v a l).toNat / 16 ^ (l % 8) % 16) (scale l))

end Sys2Proof.Machine
end

