-- ==== Sys2Proof/Machine/Issue.lean ====
section
/-! DEFINITION. Issue of one chain group of a path or of one word of a sequencer: the packet check (02_encoding R41), chain groups (R36 to R39),
charges (03_tasks R80), replay of unfinished lanes (10_translation R244), watch predicates and the halts they bring (17_debug R366 to R369). The
meaning of an instruction comes in as the argument `exec`. -/

namespace Sys2Proof.Machine

/-! ### Packets (02_encoding R25 to R42) -/

/-- The pipes (R36); words of a matrix stream go to the sequencer. -/
inductive Pipe where
  | control
  | lane
  | uniform
  | memory
  | sequencer
  deriving DecidableEq, Repr

/-- The pipe of a major (R36, R43). -/
def pipeOf (maj : Nat) : Pipe :=
  if (0x06 ≤ maj && maj ≤ 0x0B) || (0x10 ≤ maj && maj ≤ 0x14) then .lane
  else if maj = 0x0C || maj = 0x0D || maj = 0x2E || (0x34 ≤ maj && maj ≤ 0x37) then .uniform
  else if (0x28 ≤ maj && maj ≤ 0x2B) then .sequencer
  else if maj ≤ 0x05 || maj = 0x25 then .control
  else .memory

/-- A decoded word of a packet: its position, its major, whether it is tied to the next word that is no extension word, and its instruction. -/
structure PWord where
  pos   : Nat
  maj   : Nat
  chain : Bool
  i     : Instr
  deriving DecidableEq, Repr

def PWord.pipe (w : PWord) : Pipe := pipeOf w.maj

/-- Lane registers a word names. -/
def Uses.lanes (u : Uses) : List Nat := runOf u.vr ++ runOf u.vw

/-- Two words of a group clash: in their pipe, or in a register that both write (R37). -/
def PWord.clash (a b : PWord) : Bool :=
  let u := usesOf a.i
  let v := usesOf b.i
  a.pipe == b.pipe || u.writesV.any v.writesV.contains || u.writesS.any v.writesS.contains || u.writesP.any v.writesP.contains

/-- Major of a word. -/
def majorOf (w : BitVec 32) : Nat := fld w.toNat 25 6
/-- The C bit of a word. -/
def chained (w : BitVec 32) : Bool := w.getLsbD 31
/-- The payload of the word after an owner, where it is an extension word the owner can own (R32). -/
def payloadFor (w : BitVec 32) : List (BitVec 32) → Option Nat
  | [] => none
  | e :: _ =>
    let m := majorOf w
    if majorOf e = 0x3F && canOwnExt m && !chained w then some (fld e.toNat 0 25 % (if m = 0x0D then 2 ^ 22 else 2 ^ 24)) else none

/-- The checks of R41 on the words of a packet from position `k` on, `acc` being those before it, latest first: the decoded words, or the
cause and the position of the first that fails. Of an extension word that no word can own because the one before is chained, the payload's reserved bits are
not looked at, so that XWORD and not OPER is the cause: R32 and R41 leave open which (the model's choice, log 48). -/
noncomputable def checkWords (st : Stream) (priv : Bool) (regsN k : Nat) (acc : List PWord) : List (BitVec 32) → Except (Cause × Nat) (List PWord)
  | [] => .ok acc.reverse
  | w :: rest =>
    if majorOf w = 0x3F then
      if st == .matrix && chained w then .error (.stream, k)
      else match acc with
        | o :: before =>
          if o.pos + 1 = k && canOwnExt o.maj && !o.chain then
            if extReserved o.maj (fld w.toNat 0 25) then .error (.oper, k)
            else if k = 2 && chained w then .error (.chain, k)
            else checkWords st priv regsN (k + 1) ({ o with chain := chained w } :: before) rest
          else if k = 2 && chained w then .error (.chain, k)
          else .error (.xword, k)
        | [] => .error (.xword, k)
    else match decodeWord st priv w (payloadFor w rest) with
      | .error c => .error (c, k)
      | .ok i =>
        let x : PWord := { pos := k, maj := majorOf w, chain := chained w, i := i }
        if st == .lane && (usesOf i).lanes.any fun r => decide (regsN ≤ r) then .error (.oper, k)
        else if (k = 2 && chained w) || (acc.takeWhile PWord.chain).any x.clash then .error (.chain, k)
        else checkWords st priv regsN (k + 1) (x :: acc) rest

/-- A packet's words checked whole (R41). -/
noncomputable def ILine.check (l : ILine) (st : Stream) (priv : Bool) (regsN : Nat) : Except (Cause × Nat) (List PWord) :=
  checkWords st priv regsN 0 [] [l.w0, l.w1, l.w2]

/-- A chain group from the head of a list of words (R37). -/
def takeGroup : List PWord → List PWord
  | [] => []
  | w :: rest => if w.chain then w :: takeGroup rest else [w]

/-- The chain group at a word position. -/
def groupAt (ws : List PWord) (wpos : Nat) : List PWord := takeGroup (ws.filter fun w => decide (wpos ≤ w.pos))

/-- The place after a chain group of a packet: the next group of the packet, or the next packet (R39). -/
def placeAfter (pc : BitVec 48) (ws g : List PWord) : Place :=
  match g.getLast? with
  | none => (pc + 12, 0)
  | some w => match ws.find? fun x => decide (w.pos < x.pos) with
    | none => (pc + 12, 0)
    | some x => (pc, x.pos)

/-! ### Words of a chain group -/

/-- Words that a path issues while accesses of its lanes are in flight: those of the lane and uniform pipes, the branches, exit, which waits for
nothing (04_control R110), and the loads, stores and atomics of a lane, whose accesses follow the earlier ones in flight (08_memory R200). -/
def PWord.light (w : PWord) : Bool :=
  match w.i with
  | .bra _ _ _ => true
  | .brp _ _ _ => true
  | .nop => true
  | .pyield => true
  | .exit => true
  | .ld _ _ _ _ => true
  | .st _ _ _ _ => true
  | .regroup _ _ _ => false
  | _ => w.pipe == .lane || w.maj == 0x0C || w.maj == 0x0D

/-- Words that a path does not issue before an engine operation of it has registered: those that are or order memory events. The other words of the
lane, uniform and control pipes go on issuing (09_ordering R216, R221). -/
def PWord.ordered (w : PWord) : Bool :=
  w.pipe == .memory || w.maj == 0x25 || w.maj == 0x2E ||
    (match w.i with | .evArm _ _ _ => true | .mboxSend _ _ => true | .mboxRecv _ _ => true | .regroup _ _ _ => true | _ => false)

/-- An earlier chain group of a path has not retired: an access of it is in flight, or an engine operation not registered (05_events R126). -/
def State.unretired (s : State) (x : Warp) (p : Path) : Bool := s.inFlight x p || s.opWaits x p

/-- Changes the next state of an outcome. -/
def mapNext (f : State → State) : Out → Out
  | .next s => .next (f s)
  | o => o

/-- The next state of an outcome, or the state before where there is none. -/
def nextOr (s : State) : Out → State
  | .next t => t
  | _ => s

/-- What changed from `a` to `b` under the keys that `keep` picks, brought into `c`. -/
def mergeMap {α : Type} [DecidableEq α] (d : α) (keep : Nat → Bool) (a b c : List (Nat × α)) : List (Nat × α) :=
  (a ++ b).foldl (fun c x => if keep x.1 && decide (smGet d b x.1 ≠ smGet d a x.1) then smPut d c x.1 (smGet d b x.1) else c) c

/-- The register files `c` with what changed from `a` to `b` in the lanes of a mask, and in the uniform registers where `uni`. Flags that either
side sets are set (R37). -/
def Regs.merge (m : BitVec 32) (uni : Bool) (a b c : Regs) : Regs :=
  { v := mergeMap 0 (fun k => m.getLsbD (k % 32)) a.v b.v c.v
    u := if uni then mergeMap 0 (fun _ => true) a.u b.u c.u else c.u
    p := (List.range 7).foldl (fun p n =>
      let d := (a.getP n ^^^ b.getP n) &&& m
      smPut 0 p n ((smGet 0 p n &&& ~~~d) ||| (b.getP n &&& d))) c.p
    flags := (lanesOf m).foldl (fun f l =>
      let x := smGet 0 f l
      smPut 0 f l ((x &&& (b.getF l ||| ~~~(a.getF l))) ||| (b.getF l &&& ~~~(a.getF l)))) c.flags
    rdep := mergeMap 0 (fun l => m.getLsbD l) a.rdep b.rdep c.rdep }

/-- Sets flags of lanes in the register files of the warp in focus. -/
def Regs.orFlags (r : Regs) (m : BitVec 32) (fs : List (Nat × BitVec 6)) : Regs :=
  fs.foldl (fun r x => if m.getLsbD x.1 then { r with flags := smPut 0 r.flags x.1 (r.getF x.1 ||| x.2) } else r) r

/-- Every lane. -/
def allLanes : BitVec 32 := 0xFFFFFFFF

/-- Lanes with what predicates match in them. -/
abbrev Hits := List (Nat × List (Nat × Wp × BitVec 64))

/-- Makes a word ready to run: its position, and nothing observed yet. -/
def State.wordHere (s : State) (w : PWord) : State := { s with here := { s.here with word := w.pos }, me := { s.me with obs := {} } }

/-- Runs a word of a group of several words: it reads the registers `r0`, and what it writes is merged into those of the warp (R38). -/
def State.runWord (exec : Instr → State → Out) (w : PWord) (r0 : Regs) (m : BitVec 32) (uni : Bool) (s : State) : State :=
  let t := (s.wordHere w).setRegs r0
  let u := nextOr t (exec w.i t)
  u.setRegs (Regs.merge m uni r0 u.me.regs s.me.regs)

/-- What a word matched in the lanes of a mask. -/
def State.wordHits (s : State) (w : PWord) (active m : BitVec 32) : Hits :=
  (s.matches s.point s.me.obs s.me.regs active (w.pipe == .lane)).filter fun x => m.getLsbD x.1

/-- The path in focus after a trapped group: what it keeps of a replay, unless it went to a handler. -/
def State.afterTrap (t : State) (p : Path) : State :=
  if t.me.cur.hmode ≠ p.hmode then t
  else t.setCur { t.me.cur with replay := p.replay, snap := p.snap, whole := p.whole, phase := p.phase, after := p.after }

/-- The path in focus has nothing of a replay left. -/
def State.unreplay (s : State) : State := s.setCur { s.me.cur with replay := none, snap := none, phase := 0, after := none }

/-! ### Groups of one word -/

/-- The lanes that a lane word in progress has passed where a predicate of ACT 2 or 3 matches lane `l` first: those up to lane `l`, since
lanes pass in their order and a match comes in the cycle of its lane (17_debug R367, R369 and its worked run; log 13). -/
def passedLanes (l : Nat) : BitVec 32 := maskOf fun k => decide (k ≤ l)

/-- Whether a word acts lane by lane, so that a halt can cut it (R369). -/
def PWord.cuttable (w : PWord) : Bool :=
  w.pipe == .lane && (match w.i with | .v2s _ _ => false | .regroup _ _ _ => false | _ => true)

/-- The lanes a halt leaves to a lane word that it cuts: those it has passed, if it cuts it. -/
def cutBy (w : PWord) (mask : BitVec 32) (ms : Hits) : Option (BitVec 32) :=
  match ms.find? fun m => decide (2 ≤ (actOf m.2).1) with
  | none => none
  | some (l, _) =>
    let m := passedLanes l
    if w.cuttable && (mask &&& ~~~m) != 0 then some m else none

/-- What follows a word that is alone in its group: the replay is over unless the path parked, and watch predicates are looked at. `s` is
the state in which the word ran. -/
def State.afterSingle (s : State) (w : PWord) (t : State) : State :=
  if t.here.trapped then t.afterTrap s.me.cur
  else
    let p := s.me.cur
    let t := match t.me.cur.st with | .parked _ => t | _ => t.unreplay
    let ms := t.wordHits w p.mask allLanes
    match cutBy w p.mask ms with
    | none => (t.watched p.id s.here.pc s.here.wpos ms).takeStops
    | some m =>
      let t := t.setRegs (Regs.merge m true s.me.regs t.me.regs s.me.regs)
      let t := t.splitInto .ready [((s.here.npc, s.here.nwpos), p.mask &&& m), ((s.here.pc, s.here.wpos), p.mask &&& ~~~m)]
      (t.watched p.id s.here.pc s.here.wpos (ms.filter fun x => m.getLsbD x.1)).takeStops

/-- Puts the path in focus at the place after its group, from which a word alone in its group runs. -/
def State.stepOver (s : State) : State := s.goto s.here.npc s.here.nwpos

/-- A group of one word. -/
def State.runSingle (exec : Instr → State → Out) (w : PWord) (s : State) : Out :=
  let t := (s.wordHere w).stepOver
  mapNext (t.afterSingle w) (exec w.i t)

/-! ### Groups of several words -/

/-- The words that act after the others: regroup, those of tokens and barriers, and the control word (R39). -/
def PWord.late (w : PWord) : Bool :=
  w.pipe == .control || w.maj == 0x2E || (match w.i with | .regroup _ _ _ => true | _ => false)

/-- The late words of a group in the order in which they act. -/
def lateWords (g : List PWord) : List PWord :=
  (g.filter fun w => w.late && w.pipe == .lane) ++ (g.filter fun w => w.late && w.pipe == .uniform) ++ g.filter fun w => w.pipe == .control

/-- The first word of a group that traps when it runs alone, with the state it leaves (05_events R126). -/
def State.firstTrap (exec : Instr → State → Out) (s : State) : List PWord → Option State
  | [] => none
  | w :: rest =>
    let t := nextOr s (exec w.i (s.wordHere w).stepOver)
    if t.here.trapped then some t else s.firstTrap exec rest

/-- Keeps in the path in focus that its group is to go on with its late words from number `k` on. -/
def State.keepPhase (s : State) (r0 : Regs) (k : Nat) : State :=
  s.setCur { s.me.cur with replay := some 0, snap := some r0, phase := k + 1 }

/-- Late words from number `k` on; the last acts from the place after the group. One that orders the path's events waits for those of its group's memory word
(03_tasks R78, 09_ordering R216). -/
def State.lates (exec : Instr → State → Out) (r0 : Regs) (k : Nat) (s : State) (ms : Hits) : List PWord → State × Hits
  | [] => (s, ms)
  | w :: rest =>
    let p := s.me.cur
    if p.mask = 0 || s.me.exited then (s, ms)
    else if p.st ≠ .ready || (!w.light && s.inFlight s.me p) || (w.ordered && s.opWaits s.me p) then (s.keepPhase r0 k, ms)
    else
      let here := s.here
      let t := if rest = [] then s.unreplay.stepOver
        else ({ s with here := { here with npc := here.pc, nwpos := here.wpos } } : State).setCur { p with after := some (here.npc, here.nwpos) }
      let t := t.runWord exec w r0 allLanes true
      let ms := ms ++ t.wordHits w p.mask allLanes
      let t := { t with here := { t.here with npc := here.npc, nwpos := here.nwpos } }
      if t.here.trapped then (t.afterTrap (s.keepPhase r0 k).me.cur, ms)
      else match t.me.cur.st with
        | .parked _ => (t.keepPhase r0 k, ms)
        | _ => if rest = [] then (t, ms) else t.lates exec r0 (k + 1) ms rest

/-- The memory word of a group, for the lanes that are unfinished. -/
def State.memStage (exec : Instr → State → Out) (r0 : Regs) (g : List PWord) (s : State) : State × Hits :=
  match g.find? fun w => w.pipe == .memory with
  | none => (s, [])
  | some w =>
    let t := s.runWord exec w r0 allLanes true
    (t, if t.here.trapped then [] else t.wordHits w s.me.cur.mask allLanes)

/-- The lane word of a group. A flag that the memory word of the group sets stays set although its fclass.flgclr clears it: 07_numbers R173 does not say which
of the two stands (the model's choice, log 48). The lane word is worked out over the lanes that the group first issued for and written in the lanes of `m`; `fs` are the flags
that the memory word set. -/
def State.laneStage (exec : Instr → State → Out) (r0 : Regs) (g : List PWord) (m : BitVec 32) (fresh : Bool) (fs : List (Nat × BitVec 6))
    (s : State) : State × Hits :=
  match g.find? fun w => w.pipe == .lane && !w.late with
  | none => (s, [])
  | some w =>
    let p := s.me.cur
    let t := (s.setCur { p with mask := p.whole }).runWord exec w r0 m fresh
    let t := (t.setCur p).setRegs (t.me.regs.orFlags m fs)
    (t, t.wordHits w p.whole m)

/-- The uniform word of a group. -/
def State.uniStage (exec : Instr → State → Out) (r0 : Regs) (g : List PWord) (s : State) : State :=
  match g.find? fun w => w.pipe == .uniform && !w.late with
  | none => s
  | some w => s.runWord exec w r0 allLanes true

/-- The lanes of the path in focus that are parked. -/
def State.parkedLanes (s : State) : BitVec 32 := match s.me.cur.st with | .parked k => k.mask | _ => 0

/-- A group of several words from its memory word on. `r0` are the registers as they stood before it issued. -/
def State.runStages (exec : Instr → State → Out) (g : List PWord) (fresh : Bool) (r0 : Regs) (s : State) : State × Hits :=
  let late := lateWords g
  let p := s.me.cur
  let todo := s.memMask
  if p.phase = 0 then
    let s := if late = [] then s.stepOver else s
    let (t, h1) := s.memStage exec r0 g
    if t.here.trapped then (t.afterTrap p, [])
    else
      let fs := t.me.obs.flags
      let (t, h2) := t.laneStage exec r0 g (todo &&& ~~~t.parkedLanes) fresh fs
      let t := if fresh then t.uniStage exec r0 g else t
      match t.me.cur.st with
      | .parked _ => (t.setCur { t.me.cur with snap := some r0, phase := 0 }, h1 ++ h2)
      | _ => if late = [] then (t.unreplay, h1 ++ h2) else t.lates exec r0 0 (h1 ++ h2) late
  else s.lates exec r0 (p.phase - 1) [] (late.drop (p.phase - 1))

/-- A group of several words. -/
def State.runGroup (exec : Instr → State → Out) (g : List PWord) (s : State) : State :=
  let p := s.me.cur
  let r0 := p.snap.getD s.me.regs
  match (if p.snap.isNone then s.firstTrap exec g else none) with
  | some t => t.afterTrap p
  | none =>
    let (t, ms) := s.runStages exec g p.snap.isNone r0
    (t.watched p.id s.here.pc s.here.wpos ms).takeStops

/-! ### Issue -/

/-- The cycles for which a lane word holds its track (07_numbers R191). -/
def laneCycles : Instr → Nat
  | .rcp _ _ => 64
  | .rsq _ _ => 64
  | .sqrt _ _ => 64
  | .exp2 _ _ => 128
  | .log2 _ _ => 128
  | .sin _ _ => 128
  | .cos _ _ => 128
  | _ => 32

/-- The cycles with which a group is charged, and those of its lane word (03_tasks R80). -/
def groupCycles (g : List PWord) : Nat × Nat :=
  match g.find? fun w => w.pipe == .lane with
  | some w => (laneCycles w.i, laneCycles w.i)
  | none => (1, 0)

/-- Where a track's charges to an activity are counted. -/
def trackUse (track alm : Nat) : Nat := 32 * track + alm

/-- Changes the core that the gang in focus runs on, or both of a yoked gang's pair (16_stack R351). -/
def State.onCores (s : State) (f : Core → Core) : State := (coresFor s.gang.yoked s.coreNo).foldl (fun s c => s.setCore c (f (s.core c))) s

/-- Notes on the cores of the gang in focus that a group issued in the present cycle, for the counters (15_power R342). -/
def State.noteMade (s : State) (m : Made) : State := s.onCores fun x => { x with made := x.made ++ [{ m with cyc := x.cyc.toNat }] }

/-- What the issue of a group marks before it takes effect: charges (R80), the times of the latest issue (R81, R94), the groups since the latest trace
packet, and a debugger's step. -/
def State.beginGroup (s : State) (g : List PWord) : State :=
  let all := (groupCycles g).1
  let k := trackUse s.me.track s.gang.alm
  let s := s.onCores fun x => if s.me.halted then x else { x with used := smPut 0 x.used k (smGet 0 x.used k + all) }
  let p := s.me.cur
  let p := { p with issued := s.point, groups := p.groups + (if p.phase = 0 then 1 else 0), whole := if p.replay.isNone then p.mask else p.whole,
                    rpos := if p.replay.isNone then none else p.rpos,
                    step := if p.step = 1 then 2 else p.step }
  { s with me := { s.me with issued := s.point, age := 0, cur := p } }

/-- The path in focus is parked, on a fault that a walk found. -/
def State.isParked (s : State) : Bool := match s.me.cur.st with | .parked _ => true | _ => false

/-- A group that trapped, is to be tried again, or parked before its last words has not issued: it does not count among the groups since the latest trace
packet (17_debug R379). `p` is the path that it was issued from. -/
def State.recount (s : State) (p : Path) : State :=
  if s.me.cur.id = p.id && (s.here.trapped || s.isParked) then
    s.setCur { s.me.cur with groups := if s.me.cur.phase = 0 then s.me.cur.groups - 1 else s.me.cur.groups
                             step := if s.here.trapped && s.me.cur.hmode == p.hmode then p.step else s.me.cur.step }
  else s

/-- Nothing is issued any more, and what belonged to the group is gone. -/
def State.retired (s : State) : State := { s with issue := .none, here := {}, me := { s.me with obs := {} } }

/-- The place of the path in focus, and the place after its group. -/
def State.at_ (s : State) (pl : Place) : State :=
  { s with here := { pc := s.me.cur.pc, wpos := s.me.cur.wpos, npc := pl.1, nwpos := pl.2, gid := s.me.gid, w := s.me.w } }

/-- Where a step leads to `t`, page tables were read, or bytes of GDDR written, in the window of a switch of the memory clock, and miss the stacked cache:
what the step does is held (16_stack R360). -/
def State.windowStops (s t : State) : Bool :=
  s.windowMiss && t.sys.mclkEnd.isSome &&
    ((t.journal.take (t.journal.length - s.journal.length)).any (fun x => decide (8 * x.1 < gddrTop)) ||
      [0, 1, 2].any fun k => (t.stk k).tlb.any fun e => e.at_ == s.point && !(s.stk k).tlb.contains e)

/-- What the counters take in of a group of the path in focus (15_power R336, R342): a trapped one produced no results. -/
def State.madeBy (s : State) (g : List PWord) (trapped : Bool) : Made :=
  { slow := (groupCycles g).2 / 32, mask := if trapped then 0 else s.memMask, uni := !trapped && g.any fun w => w.pipe == .uniform }

/-- What the issue of a group leaves: `u`, or, where the group does not issue yet, `s` as it was. A trap waits until every earlier group of the path has
retired (05_events R126). -/
def State.settled (s : State) (g : List PWord) (u : State) : State :=
  if u.here.retry || (u.here.trapped && s.unretired s.me s.me.cur) || s.windowStops u || (s.windowMiss && u.isParked) then s.retired
  else ((u.noteMade (s.madeBy g u.here.trapped)).recount s.me.cur).retired

/-- Issues a group of the path in focus. -/
def State.issueGroup (exec : Instr → State → Out) (ws : List PWord) (s : State) : Out :=
  let g := groupAt ws s.me.cur.wpos
  let t := (s.at_ (placeAfter s.me.cur.pc ws g)).beginGroup g
  match g with
  | [] => .next t.stepOver.retired
  | [w] => mapNext (s.settled g) (t.runSingle exec w)
  | _ => .next (s.settled g (t.runGroup exec g))

/-- The illegal-instruction trap of the path in focus (02_encoding R41). -/
def State.illegal (s : State) (c : Cause) (pos : Nat) : State :=
  let p := s.me.cur
  let t := (s.at_ (p.pc + 12, 0)).trap 0 c.code (BitVec.ofNat 64 pos)
  t.afterTrap p

/-- Issues from the path in focus: its next chain group, or the trap of its packet's check, once every earlier group has retired (05_events R126); a packet
that is not cached is fetched first. -/
noncomputable def State.issueLane (exec : Instr → State → Out) (s : State) : Out :=
  if s.me.cur.mask = 0 || s.me.cur.st ≠ .ready then .fault .noIssuer
  else match s.lineFor s.gang.asid s.me.cur.pc s.me.cur.fenced with
    | none => .next ((s.at_ (s.me.cur.pc, s.me.cur.wpos)).fetchPath s.me.cur.pc).retired
    | some l => match l.check .lane s.priv s.gang.regsN with
      | .error (c, pos) => .next (if s.unretired s.me s.me.cur || s.windowStops (s.illegal c pos) || (s.windowMiss && (s.illegal c pos).isParked) then s.retired else (s.illegal c pos).retired)
      | .ok ws => s.issueGroup exec ws

/-! ### The sequencer (13_matrix R289, R290) -/

/-- Puts the sequencer in focus at a place. -/
def State.seqGoto (s : State) (pl : Place) : State := { s with gang := { s.gang with seq := { s.gang.seq with pc := pl.1, wpos := pl.2, lead := false } } }

/-- Issues one word of the sequencer in focus; it runs with the sequencer at the place after it. -/
def State.issueWord (exec : Instr → State → Out) (ws : List PWord) (s : State) : Out :=
  let q := s.gang.seq
  let done (w : PWord) (u : State) : State := if s.windowStops u then s.retired else (u.noteMade { uni := w.pipe == .uniform }).retired
  match ws.find? fun w => decide (q.wpos ≤ w.pos) with
  | none => .next (s.seqGoto (q.pc + 12, 0)).retired
  | some w =>
    let n := placeAfter q.pc ws [w]
    let t := ({ s with here := { pc := q.pc, wpos := q.wpos, word := w.pos, npc := n.1, nwpos := n.2 } } : State).seqGoto n
    mapNext (done w) (exec w.i t)

/-- Issues from the sequencer in focus (R289, R410). -/
noncomputable def State.issueSeq (exec : Instr → State → Out) (s : State) : Out :=
  let q := s.gang.seq
  if q.st ≠ .running then .fault .noIssuer
  else match s.lineFor s.gang.asid q.pc 0 with
    | none => .next (s.fetchSeq s.gang).retired
    | some l => match l.check .matrix s.priv s.gang.regsN with
      | .error (c, pos) =>
        .next (({ s with here := { pc := q.pc, wpos := q.wpos, npc := q.pc + 12 } } : State).endContext 0 c.code (BitVec.ofNat 64 pos)).retired
      | .ok ws => s.issueWord exec ws

end Sys2Proof.Machine
end

