-- ==== Sys2Proof/Machine/Schedule.lean ====
section
/-! DEFINITION. What comes next: whether a path can issue (03_tasks R81, 04_control R94, 01_machine R16), the choice of a warp (R81) and a path
(R94), and the choice among the events that are due where the agenda names none. -/

namespace Sys2Proof.Machine

/-! ### Whether a path can issue -/

/-- The chain group that a path issues next: nothing where its packet is not cached, no words where its packet fails the check. -/
noncomputable def State.nextGroup (s : State) (g : Gang) (p : Path) : Option (List PWord) :=
  match ({ s with gang := g } : State).lineFor g.asid p.pc p.fenced with
  | none => none
  | some l => match l.check .lane (s.ctx g.asid).priv g.regsN with
    | .error _ => some []
    | .ok ws => some (groupAt ws p.wpos)

/-- Lane registers of a warp that an access or an engine operation has still to write, in some lane of a mask (R16). -/
def State.awaited (s : State) (x : Warp) (m : BitVec 32) : List Nat :=
  (s.accs.filter fun a => a.gid == x.gid && a.w == x.w && m.getLsbD a.lane).flatMap (fun a => match a.dreg with
    | none => []
    | some d => if a.op.wide then [d, d + 1] else [d]) ++
  (s.ops.filter fun o => o.gid == x.gid && o.w == x.w && (o.dmask &&& m) != 0).flatMap EngOp.dregs

/-- Uniform registers of a warp that a migration has still to write. -/
def State.awaitedU (s : State) (x : Warp) : List Nat := (s.sys.migs.filter fun m => m.gid == x.gid && m.w == x.w).map Mig.dreg

/-- The operands of a chain group are ready: nothing outstanding is read or written, and the order of the path's events is kept (R16; 09_ordering R216,
R223). -/
def State.operandsReady (s : State) (x : Warp) (p : Path) (g : List PWord) : Bool :=
  let v := s.awaited x p.mask
  let u := s.awaitedU x
  g.all fun w =>
    let r := usesOf w.i
    !(r.lanes.any v.contains) && !((runOf r.sr ++ runOf r.sw).any u.contains) && (!s.inFlight x p || w.light) &&
      (!w.ordered || !s.opWaits x p)

/-- A chain group reads or writes lane registers, which the top tier holds while it issues (08_memory R204). -/
def usesLanes (g : List PWord) : Bool := g.any fun w => (usesOf w.i).lanes != []

/-- A sequencer can issue (13_matrix R289, R291): the array queue has a place for a matrix word. -/
def State.seqReady (s : State) (g : Gang) : Bool :=
  g.st == .resident && g.mx && g.seq.st == .running && !g.seq.stop && !g.seq.halted && (s.ctx g.asid).ending.isNone && decide (g.queue.length < 4)

/-- A warp takes part in the choice of its track: its gang is resident and goes first to no sequencer, its context is not ending, nothing of it is being saved,
and no path is to come in from its overflow list (R81, 04_control R109, 05_events R132 to R134, 13_matrix R291). -/
def State.warpRuns (s : State) (g : Gang) (x : Warp) : Bool :=
  s.onCore x && (s.ctx g.asid).ending.isNone && x.pre.st != .hard && x.pre.st != .drain && !x.bringsIn && !x.streamShut && !(g.seq.lead && s.seqReady g)

/-- A path is in a state to issue: resident, READY, not stopped by a halt of its warp, and its step not yet over (R91, R94, 17_debug R368, R375). -/
def Warp.open (x : Warp) (p : Path) : Bool :=
  x.mayIssue p && !x.overflow.contains p.id && (p.step != 2 || p.replay.isSome)

/-- A path's next chain group is fetched, its operands are ready, and the top tier holds the lane registers it needs; a packet that fails its check waits
for the path's earlier groups (05_events R126). -/
noncomputable def State.groupReady (s : State) (g : Gang) (x : Warp) (p : Path) : Bool :=
  match s.nextGroup g p with
  | none => false
  | some [] => !s.unretired x p
  | some ws => s.operandsReady x p ws && (x.top || !usesLanes ws)

/-- The scoreboards of all warps as they stand. -/
noncomputable def State.scored (s : State) : State :=
  s.mapWarps fun x => match s.gangOf? x.gid with
    | none => x
    | some g => { x with board := (x.live.filter fun p => x.open p && s.groupReady g x p).map Path.id }

/-- The path that a chosen warp issues from (R94): the one that issued least recently, one that has not issued before all others, then the lowest
identifier. -/
def State.choosePath (s : State) (g : Gang) (x : Warp) : Option Path :=
  if s.warpRuns g x then
    (x.live.filter fun p => x.open p && x.board.contains p.id).foldl (fun b p => match b with
      | none => some p
      | some q => if p.issued < q.issued || (p.issued == q.issued && decide (p.id < q.id)) then some p else some q) none
  else none

/-! ### The choice of a warp (R81) -/

/-- An activity is under its issue floor on a track (R80). -/
def State.underTrack (s : State) (c track a : Nat) : Bool :=
  let e := smGet (0 : BitVec 64) s.pkg.alm a
  let x := s.core c
  let flr := if e.toNat % 16 = 0 then 0 else e.toNat / 2 ^ 28 % 512
  s.enforced && decide (smGet 0 x.used (trackUse track a) * 256 < flr * (x.pcyc + 1))

/-- A ready warp: its gang, and the path it issues from. -/
structure Cand where
  x : Warp
  g : Gang
  p : Path
  deriving DecidableEq, Repr

/-- The warp runs a trap or pre-emption handler (rule 1). -/
def Cand.handles (k : Cand) : Bool := k.x.live.any fun p => p.hmode != .none
/-- Effective priority (rule 3). -/
def Cand.prio (k : Cand) : Nat := min 3 (k.g.prio + k.x.age / 256)

/-- The order of R81. Rule 4 says nothing of two warps that have not issued on the track since they were bound (both count 0 here): the one that comes
first among the warps of the state goes first, the warp in focus before the others (the model's choice, log 4). -/
def State.candBefore (s : State) (a b : Cand) : Bool :=
  let under (k : Cand) : Bool := s.underTrack (32 * k.g.stk + k.g.core) k.x.track k.g.alm
  if a.handles != b.handles then a.handles
  else if under a != under b then under a
  else if a.prio ≠ b.prio then decide (b.prio < a.prio)
  else decide (a.x.issued < b.x.issued)

/-- The ready warps of a track. -/
def State.cands (s : State) (c track : Nat) : List Cand :=
  s.allWarps.filterMap fun x => match s.gangOf? x.gid with
    | none => none
    | some g =>
      if x.track == track && 32 * g.stk + g.core == c then (s.choosePath g x).map fun p => { x := x, g := g, p := p } else none

/-- Ages the ready warps by the cycles that this step takes on their cores, whatever it does, but not the one that issues (R81). -/
noncomputable def State.aged (s : State) : State :=
  s.mapWarps fun y => match s.gangOf? y.gid with
    | none => y
    | some g =>
      if (s.issue == .lane && y.gid == s.me.gid && y.w == s.me.w) || (s.choosePath g y).isNone then y
      else { y with age := y.age + s.stepCycles (32 * g.stk + g.core) }

/-- Puts in focus what a track issues (R81). -/
def State.chosen (s : State) (k : Cand) : State :=
  let s := s.focus k.x.gid k.x.w
  { s with issue := .lane, me := s.me.select k.p.id }

/-- Lanes that wait to be stopped leave the paths of a track's warps before one issues (17_debug R368). -/
def State.stopsOf (s : State) (c track : Nat) : State :=
  (s.allWarps.filter fun x => x.stops != [] && x.track == track && s.onCore x &&
      (match s.gangOf? x.gid with | some g => 32 * g.stk + g.core == c | none => false)).foldl
    (fun s x => s.within x.gid x.w State.takeStops) s

/-- WARP_SCHEDULE (R81, R94): the chosen warp's chain group is issued by the next step. -/
def execWarpSchedule (core track : Nat) (s : State) : Out :=
  let s := s.stopsOf core track
  let ready := s.cands core track
  .next (match (ready.filter fun k => k.handles || !s.overTrack core track k.g.alm).foldl (fun b k => match b with
      | none => some k
      | some q => if s.candBefore k q then some k else some q) none with
    | none => s
    | some k => s.chosen k)

/-! ### What is due where the agenda names nothing -/

/-- What the package does next: an event, the issue of a sequencer's word, or a host access that was held, at the keys of its bytes. -/
inductive Choice where
  | event (i : Instr)
  | word (gid : Nat)
  | host (h : HostOp) (ks : List (Nat × Nat))
  deriving DecidableEq, Repr

/-- Every warp's gang and number. -/
def State.warpIds (s : State) : List (Nat × Nat) := (s.allWarps.filter fun x => x.gid != 0 && !x.exited).map fun x => (x.gid, x.w)
/-- Every path, by gang, warp and identifier. -/
def State.pathIds (s : State) : List (Nat × Nat × Nat) :=
  (s.allWarps.filter fun x => x.gid != 0 && !x.exited).flatMap fun x => x.live.map fun p => (x.gid, x.w, p.id)
/-- Every gang. -/
def State.gangIds (s : State) : List Nat := (s.allGangs.filter fun g => g.gid != 0 && g.st != .exited).map Gang.gid

/-- Events of warps and paths that may be due. -/
noncomputable def State.warpEvents (s : State) : List Instr :=
  (s.warpIds.flatMap fun k => (List.range 8).flatMap fun e => [Instr.pendSet k.1 k.2 (.ofNat 3 e), .deadlineExpiry k.1 k.2 (.ofNat 3 e)]) ++
  (s.warpIds.flatMap fun k => (List.range 12).map fun q => Instr.addressEngineRunAhead k.1 k.2 (.ofNat 4 q)) ++
  (s.warpIds.flatMap fun k => [Instr.pathBringIn k.1 k.2, .registerBringIn k.1 k.2, .eventDelivery k.1 k.2, .hardSaveTime k.1 k.2, .warpSave k.1 k.2,
    .hardSave k.1 k.2]) ++
  (s.pathIds.flatMap fun k => [Instr.rangeReplay k.1 k.2.1 k.2.2, .tbrRetireDone k.1 k.2.1 k.2.2, .mwaitRelease k.1 k.2.1 k.2.2,
    .faultRecordWrite k.1 k.2.1 k.2.2, .stepComplete k.1 k.2.1 k.2.2])

/-- Fetches that may be due: of READY paths and running sequencers whose packets are not cached. -/
noncomputable def State.fetchEvents (s : State) : List Instr :=
  (s.allWarps.flatMap fun x => match s.gangOf? x.gid with
    | none => []
    | some g => if s.warpRuns g x then
        (x.live.filter fun p => x.open p && (({ s with gang := g } : State).lineFor g.asid p.pc p.fenced).isNone).map fun p => Instr.icacheFill x.gid x.w p.id
      else []) ++
  s.allGangs.flatMap fun g => if s.seqReady g && (({ s with gang := g } : State).lineFor g.asid g.seq.pc 0).isNone then [Instr.icacheFill g.gid 0 0xFE] else []

/-- The masks of the regroups that paths of a gang are held at. -/
def State.regroupMasks (s : State) (gid : Nat) : List (BitVec 32) :=
  ((s.allWarps.filter fun x => x.gid == gid).flatMap fun x => x.live.filterMap fun p => match p.st with
    | .held (.regroup m _ _ _ _) => some m
    | _ => none).eraseDups

/-- Events of gangs, instances and contexts that may be due. -/
noncomputable def State.gangEvents (s : State) : List Instr :=
  (s.gangIds.flatMap fun g => [Instr.gangSave g, .faultRecordWrite g 0 0xFE] ++ ((s.regroupMasks g).map fun m => Instr.regroupMove g m) ++
    (List.range 16).map fun t => Instr.tokenPass g (.ofNat 4 t)) ++
  (s.insts.flatMap fun i => [Instr.instanceCompletion i.id, .coresidencyReservation i.id]) ++
  (s.ctxs.flatMap fun c => [Instr.contextFaultRecord c.1, .asidPurgeDone c.1] ++
    if c.2.st = .bound then (List.range 1024).map fun t => Instr.eligibilityEvaluation c.1 t else []) ++ [.gangPlacement, .priorityPreemption]

/-- Events of accesses and engine operations that may be due. -/
noncomputable def State.opEvents (s : State) : List Instr :=
  (s.accs.flatMap fun a => [Instr.accessPerform a.id, .remoteLocalTarget a.id, .remoteFaultReturn a.id, .remoteTimeout a.id]) ++
  (s.ops.flatMap fun o => [Instr.engineQueueStart o.id, .engineCompletion o.id, .copyQueueAdmit (32 * o.stk + o.core)]) ++
  (s.sys.shoots.flatMap fun k => [Instr.shootdownAcknowledged k.id, .shootdownDone k.id]) ++ (s.sys.migs.map fun m => Instr.pgMigCompletion m.id) ++
  (s.stks.flatMap fun k => k.2.bslots.map fun b => Instr.faultRecordWrite k.1 b.1 0xFF) ++
  (s.cores.flatMap fun c => [Instr.carveOutGrowDone c.1, .carveOutShrinkDone c.1, .matrixOpStart c.1, .matrixOpRetire c.1]) ++
  [.rangeEntryGrant, .supmbxTokenSend]

/-- Events of the vertical bundles that may be due: the update of a stitch map for the wire that a check blamed, and the beats that are sent again
(16_stack R354). -/
noncomputable def State.bundleEvents (s : State) : List Instr :=
  s.cores.flatMap fun c => [false, true].flatMap fun dn =>
    let b := c.2.bun dn
    if b.hold && !b.fixed then [Instr.stitchMapUpdate c.1 { dn := dn, wire := .ofNat 7 b.blame }]
    else if 0 < b.again then [Instr.beatReceive c.1 { dn := dn, seqNo := b.expect, data := b.out.headD 0 } true 0] else []

/-- Events of clusters, clocks and the package's machines that may be due. Outcomes of bring-up are those of Config. -/
noncomputable def pkgEvents : List Instr :=
  ((List.range 12).flatMap fun c => [Instr.levelChangeStart c, .levelChangeComplete c, .stretchEnd c, .stretchLimit c, .calmWindowEnd c]) ++
  ((List.range 3).flatMap fun k => (List.range 12).flatMap fun r => [Instr.routerDrained (.router k r), .routingAcknowledged (.router k r),
    .routerDrained (.path k r), .routingAcknowledged (.path k r)]) ++
  [.periodStart, .timeSeriesLatch true, .timeSeriesLatch false, .timePersist, .lifeRecordHour (), .mclkWindowEnd, .powerUp, .firmwareVerify Config.firmwareGenuine,
    .gddrTrain Config.untrainedChannels, .stack0SelfTest Config.failedCores Config.bootRoot, .satellitesInService ⟨Config.availableStacks, Config.failedSatelliteCores⟩,
    .shrinkGangsSaved, .shrinkWritebackDone]

/-- The issues of tracks that may be due. -/
noncomputable def State.trackEvents (s : State) : List Instr :=
  (s.allWarps.filterMap fun x => (s.gangOf? x.gid).map fun g => (32 * g.stk + g.core, x.track)).eraseDups.map fun k => Instr.warpSchedule k.1 k.2

/-- A choice is due. A held host access is due when it is held no more, an event when it changes the state. -/
noncomputable def State.dueNow (s : State) (exec : Instr → State → Out) : Choice → Bool
  | .word gid => match s.gangOf? gid with
    | some g => s.seqReady g && (({ s with gang := g } : State).lineFor g.asid g.seq.pc 0).isSome
    | none => false
  | .host h ks => !s.hostHeld h ks
  | .event i => decide (nextOr s (exec i s) ≠ s)

/-- What may be due. -/
noncomputable def State.choices (s : State) : List Choice :=
  ((s.trackEvents ++ s.fetchEvents ++ s.warpEvents ++ s.gangEvents ++ s.opEvents ++ s.bundleEvents ++ pkgEvents).map Choice.event) ++ s.gangIds.map Choice.word ++ s.sys.hosts.map fun h => Choice.host h.1 h.2

/-- Does what was chosen. -/
noncomputable def State.act1 (s : State) (exec : Instr → State → Out) : Choice → Out
  | .word gid => .next { s.focusGang gid with issue := .seq }
  | .host h ks => .next (s.hostOn h ks)
  | .event i => exec i s

/-- The order in which the package does what is due at one time is open: a free value picks (log 4). Where nothing is due, time passes. -/
noncomputable def State.auto (s : State) (exec : Instr → State → Out) : Out :=
  let due := s.choices.filter (s.dueNow exec)
  match due[(Config.freeWord s.sys.seq).toNat % max 1 due.length]? with
  | some c => s.act1 exec c
  | none => .next s

/-! ### One step -/

/-- The event of a register write whose effect is a step of its own. -/
noncomputable def SysEff.event : SysEff → Instr
  | .almper v => .almperWrite v
  | .drooptst cl n => .drooptstWrite cl n
  | .prereq v => .prereqWrite v
  | .tsctl v => .tsctlWrite v

/-- What an event leaves: in the window of the memory clock, one whose accesses to GDDR miss is held, and `h` stands (16_stack R360). -/
def State.orHeld (s h : State) (o : Out) : Out := mapNext (fun t => if s.windowStops t then h else t) o

/-- An event of the table, which no word encodes. -/
def isEvent (i : Instr) : Bool := (encodeOwner i).isNone

/-- One step before the passing of time: what is issued, else a register write's own event, else the first event of the agenda, else what is due.
The agenda is for events; an instruction in it is passed over. -/
noncomputable def State.advance1 (exec : Instr → State → Out) (s : State) : Out :=
  match s.issue with
  | .lane => s.aged.issueLane exec
  | .seq => s.aged.issueSeq exec
  | .none =>
    let s := s.scored.aged
    match s.sys.effs with
    | e :: es => s.orHeld s (exec e.event (s.setSys { s.sys with effs := es }))
    | [] => match s.agenda with
      | i :: is => if isEvent i then s.orHeld s (exec i { s with agenda := is }) else .next { s with agenda := is }
      | [] => s.orHeld s (s.auto exec)

/-! ### A word placed where the next step issues (log 8) -/

/-- Words that only a matrix stream accepts (02_encoding R42, 13_matrix R292). -/
def matrixOnly (w : BitVec 32) : Bool :=
  let m := majorOf w
  (0x28 ≤ m && m ≤ 0x2B) || (m == 0x2E && fld w.toNat 0 7 == 2 && fld w.toNat 13 6 != 0)

/-- The path in focus is READY in a resident warp. -/
def State.hasIssuer (s : State) : Bool := s.me.gid != 0 && s.gang.gid == s.me.gid && s.gang.st == .resident && s.me.cur.mask != 0 && s.me.cur.st == .ready

/-- A resident gang of one warp in focus, of ASID 0 with supervisor privilege on core 0 of stack 0, in stage SERVE. -/
def State.withIssuer (s : State) : State :=
  let i := s.sys.nextGid
  let g : Gang := { gid := i, st := .resident, regsN := 128, warpsN := 1, mx := true, seq := { st := .running } }
  let x : Warp := { gid := i, cur := { mask := 0xFFFFFFFF }, stack := savedStack i 0 }
  let s : State := { s with gang := g, me := x, gangs := s.allGangs.filter fun y => y.gid != 0, warps := s.allWarps.filter fun y => y.gid != 0
                            sys := { s.sys with nextGid := i + 1 }, pkg := { s.pkg with stage := .serve } }
  (s.setStk 0 { s.stk 0 with powered := true }).setCtx 0 { s.ctx 0 with st := .bound, priv := true }

/-- A packet whose word 0 is `w` and whose other words do nothing, in the instruction cache where the path in focus, or its gang's sequencer,
issues next. -/
def State.placedWord (s : State) (w : BitVec 32) : State :=
  let s := if s.hasIssuer then s else s.withIssuer
  let q := matrixOnly w
  let nop : BitVec 32 := if q then 0x1A000000 else 0x06000005
  let x := s.core s.coreNo
  let pc := if q then s.gang.seq.pc else s.me.cur.pc
  let l : ILine := { asid := s.gang.asid, pc := pc, w0 := w, w1 := nop, w2 := nop, at_ := s.me.cur.fenced + 1 }
  let s := s.setCore s.coreNo { x with icache := l :: x.icache.filter fun y => !(y.asid == l.asid && y.pc == pc) }
  if q then { s with issue := .seq, gang := { s.gang with seq := { s.gang.seq with st := .running, wpos := 0 } } }
  else { s with issue := .lane, me := { s.me with cur := { s.me.cur with wpos := 0 } } }

end Sys2Proof.Machine
end

