-- ==== Sys2Proof/Machine/Uniform.lean ====
section
/-! DEFINITION. The uniform ALU (06_integer R154 to R156): majors 0x0C and 0x0D, executed once, on the warp's uniform registers or on the
sequencer's own. -/

namespace Sys2Proof.Machine

/-- IADDU (R155). -/
def execIaddU (d a b : BitVec 6) (s : State) : Out := .next (s.setU d (s.u a + s.u b))

/-- ISUBU (R155). -/
def execIsubU (d a b : BitVec 6) (s : State) : Out := .next (s.setU d (s.u a - s.u b))

/-- IMULU (R155). -/
def execImulU (d a b : BitVec 6) (s : State) : Out := .next (s.setU d (s.u a * s.u b))

/-- IMULHI32U (R155). -/
def execImulhI32U (d a b : BitVec 6) (s : State) : Out := .next (s.setU d (mulhI (s.u a) (s.u b)))

/-- IMULHN32U (R155). -/
def execImulhN32U (d a b : BitVec 6) (s : State) : Out := .next (s.setU d (mulhN (s.u a) (s.u b)))

/-- IMINI32U (R155). -/
def execIminI32U (d a b : BitVec 6) (s : State) : Out := .next (s.setU d (minI (s.u a) (s.u b)))

/-- IMINN32U (R155). -/
def execIminN32U (d a b : BitVec 6) (s : State) : Out := .next (s.setU d (minN (s.u a) (s.u b)))

/-- IMAXI32U (R155). -/
def execImaxI32U (d a b : BitVec 6) (s : State) : Out := .next (s.setU d (maxI (s.u a) (s.u b)))

/-- IMAXN32U (R155). -/
def execImaxN32U (d a b : BitVec 6) (s : State) : Out := .next (s.setU d (maxN (s.u a) (s.u b)))

/-- IMADU (R155). -/
def execImadU (d a b : BitVec 6) (s : State) : Out := .next (s.setU d (s.u a * s.u b + s.u d))

/-- IABSU (R155). -/
def execIabsU (d a : BitVec 6) (s : State) : Out := .next (s.setU d (absW (s.u a)))

/-- INEGU (R155). -/
def execInegU (d a : BitVec 6) (s : State) : Out := .next (s.setU d (-(s.u a)))

/-- LEAU (R155). -/
def execLeaU (d a b : BitVec 6) (s : State) : Out := .next (s.setUU d (s.uu a + (s.u b).signExtend 64))

/-- IADD64U (R155). -/
def execIadd64U (d a b : BitVec 6) (s : State) : Out := .next (s.setUU d (s.uu a + s.uu b))

/-- ANDU (R155). -/
def execAndU (d a b : BitVec 6) (s : State) : Out := .next (s.setU d (s.u a &&& s.u b))

/-- ORU (R155). -/
def execOrU (d a b : BitVec 6) (s : State) : Out := .next (s.setU d (s.u a ||| s.u b))

/-- XORU (R155). -/
def execXorU (d a b : BitVec 6) (s : State) : Out := .next (s.setU d (s.u a ^^^ s.u b))

/-- ANDNU (R155). -/
def execAndnU (d a b : BitVec 6) (s : State) : Out := .next (s.setU d (s.u a &&& ~~~(s.u b)))

/-- SHLU (R155). -/
def execShlU (d a b : BitVec 6) (s : State) : Out := .next (s.setU d (s.u a <<< s.u b))

/-- SHRU (R155). -/
def execShrU (d a b : BitVec 6) (s : State) : Out := .next (s.setU d (s.u a >>> s.u b))

/-- SARU (R155). -/
def execSarU (d a b : BitVec 6) (s : State) : Out := .next (s.setU d (sarW (s.u a) (s.u b)))

/-- ROTU (R155). -/
def execRotU (d a b : BitVec 6) (s : State) : Out := .next (s.setU d (rotW (s.u a) (s.u b)))

/-- CLZU (R155). -/
def execClzU (d a : BitVec 6) (s : State) : Out := .next (s.setU d (clzW (s.u a)))

/-- POPCU (R155). -/
def execPopcU (d a : BitVec 6) (s : State) : Out := .next (s.setU d (popW (s.u a)))

/-- BREVU (R155). -/
def execBrevU (d a : BitVec 6) (s : State) : Out := .next (s.setU d (brevW (s.u a)))

/-- BFEN32U (R155). -/
def execBfeN32U (d a b : BitVec 6) (s : State) : Out := .next (s.setU d (bfeN (s.u a) (s.u b)))

/-- BFEI32U (R155). -/
def execBfeI32U (d a b : BitVec 6) (s : State) : Out := .next (s.setU d (bfeI (s.u a) (s.u b)))

/-- BFIU (R155). -/
def execBfiU (d a b : BitVec 6) (s : State) : Out := .next (s.setU d (bfiW (s.u d) (s.u a) (s.u b)))

/-- BILVU (R155). -/
def execBilvU (d a b : BitVec 6) (s : State) : Out := .next (s.setU d (bilvW (s.u a) (s.u b)))

/-- BDLVU (R155). -/
def execBdlvU (d a b : BitVec 6) (s : State) : Out := .next (s.setU d (bdlvW (s.u a) (s.u b)))

/-- ICMPU (R155). -/
def execIcmpU (d a b : BitVec 6) (k : ICond) (s : State) : Out := .next (s.setU d (if icond k (s.u a) (s.u b) then 1 else 0))

/-- MOVSU (R155). -/
def execMovsU (d : BitVec 6) (x : Special) (s : State) : Out :=
  .next (match x with
    | .time => s.setUU d s.now
    | .cyc => s.setUU d s.cycNow
    | x => s.setU d (s.special x 0))

/-- MOVU (R155). -/
def execMovU (d a : BitVec 6) (s : State) : Out := .next (s.setU d (s.u a))

/-- MIX32U (R154). -/
def execMix32U (d a b : BitVec 6) (s : State) : Out := .next (s.setU d (mix32 (s.u a) (s.u b)))

/-- IADDUIMM (R156). -/
def execIaddUimm (d a : BitVec 6) (i : Imm 10) (s : State) : Out := .next (s.setU d (s.u a + immS i))

/-- ANDUIMM (R156). -/
def execAndUimm (d a : BitVec 6) (i : Imm 10) (s : State) : Out := .next (s.setU d (s.u a &&& immZ i))

/-- ORUIMM (R156). -/
def execOrUimm (d a : BitVec 6) (i : Imm 10) (s : State) : Out := .next (s.setU d (s.u a ||| immZ i))

/-- XORUIMM (R156). -/
def execXorUimm (d a : BitVec 6) (i : Imm 10) (s : State) : Out := .next (s.setU d (s.u a ^^^ immZ i))

/-- SHLUIMM (R156). -/
def execShlUimm (d a : BitVec 6) (i : Imm 10) (s : State) : Out := .next (s.setU d (s.u a <<< immZ i))

/-- SHRUIMM (R156). -/
def execShrUimm (d a : BitVec 6) (i : Imm 10) (s : State) : Out := .next (s.setU d (s.u a >>> immZ i))

/-- SARUIMM (R156). -/
def execSarUimm (d a : BitVec 6) (i : Imm 10) (s : State) : Out := .next (s.setU d (sarW (s.u a) (immZ i)))

/-- MOVIU (R156). -/
def execMoviU (d : BitVec 6) (i : Imm 10) (s : State) : Out := .next (s.setU d (immS i))

end Sys2Proof.Machine
end

