-- ==== Sys2Proof/Machine/Dispatch.lean ====
section
/-! DEFINITION. One arm per instruction and event of the opcode table: a direct call of its meaning. -/

namespace Sys2Proof.Machine

def exec (i : Instr) (s : State) : Host.Outcome State Fault Refusal :=
  match i with
  | .bra p n t => Sys2Proof.Machine.execBra p n t s
  | .call p n t => Sys2Proof.Machine.execCall p n t s
  | .brp p n t => Sys2Proof.Machine.execBrp p n t s
  | .brx a u => Sys2Proof.Machine.execBrx a u s
  | .callx a u => Sys2Proof.Machine.execCallx a u s
  | .ret => Sys2Proof.Machine.execRet s
  | .join => Sys2Proof.Machine.execJoin s
  | .exit => Sys2Proof.Machine.execExit s
  | .nop => Sys2Proof.Machine.execNop s
  | .pyield => Sys2Proof.Machine.execPyield s
  | .evArm k n u => Sys2Proof.Machine.execEvArm k n u s
  | .evDisarm n => Sys2Proof.Machine.execEvDisarm n s
  | .waitAny u => Sys2Proof.Machine.execWaitAny u s
  | .evPend d a => Sys2Proof.Machine.execEvPend d a s
  | .mboxSend d u => Sys2Proof.Machine.execMboxSend d u s
  | .mboxRecv d u => Sys2Proof.Machine.execMboxRecv d u s
  | .trap a v => Sys2Proof.Machine.execTrap a v s
  | .trapRet k => Sys2Proof.Machine.execTrapRet k s
  | .preDone a => Sys2Proof.Machine.execPreDone a s
  | .preMask k => Sys2Proof.Machine.execPreMask k s
  | .iadd d a b => Sys2Proof.Machine.execIadd d a b s
  | .isub d a b => Sys2Proof.Machine.execIsub d a b s
  | .imul d a b => Sys2Proof.Machine.execImul d a b s
  | .imulhI32 d a b => Sys2Proof.Machine.execImulhI32 d a b s
  | .imulhN32 d a b => Sys2Proof.Machine.execImulhN32 d a b s
  | .imad d a b => Sys2Proof.Machine.execImad d a b s
  | .iminI32 d a b => Sys2Proof.Machine.execIminI32 d a b s
  | .iminN32 d a b => Sys2Proof.Machine.execIminN32 d a b s
  | .imaxI32 d a b => Sys2Proof.Machine.execImaxI32 d a b s
  | .imaxN32 d a b => Sys2Proof.Machine.execImaxN32 d a b s
  | .iabs d a => Sys2Proof.Machine.execIabs d a s
  | .ineg d a => Sys2Proof.Machine.execIneg d a s
  | .lea d a b => Sys2Proof.Machine.execLea d a b s
  | .iadd64 d a b => Sys2Proof.Machine.execIadd64 d a b s
  | .and d a b => Sys2Proof.Machine.execAnd d a b s
  | .or d a b => Sys2Proof.Machine.execOr d a b s
  | .xor d a b => Sys2Proof.Machine.execXor d a b s
  | .andn d a b => Sys2Proof.Machine.execAndn d a b s
  | .shl d a b => Sys2Proof.Machine.execShl d a b s
  | .shr d a b => Sys2Proof.Machine.execShr d a b s
  | .sar d a b => Sys2Proof.Machine.execSar d a b s
  | .rot d a b => Sys2Proof.Machine.execRot d a b s
  | .clz d a => Sys2Proof.Machine.execClz d a s
  | .popc d a => Sys2Proof.Machine.execPopc d a s
  | .brev d a => Sys2Proof.Machine.execBrev d a s
  | .bfeN32 d a b => Sys2Proof.Machine.execBfeN32 d a b s
  | .bfeI32 d a b => Sys2Proof.Machine.execBfeI32 d a b s
  | .bfi d a b => Sys2Proof.Machine.execBfi d a b s
  | .bilv d a b => Sys2Proof.Machine.execBilv d a b s
  | .bdlv d a b => Sys2Proof.Machine.execBdlv d a b s
  | .iaddImm d a v => Sys2Proof.Machine.execIaddImm d a v s
  | .andImm d a v => Sys2Proof.Machine.execAndImm d a v s
  | .orImm d a v => Sys2Proof.Machine.execOrImm d a v s
  | .xorImm d a v => Sys2Proof.Machine.execXorImm d a v s
  | .shlImm d a v => Sys2Proof.Machine.execShlImm d a v s
  | .shrImm d a v => Sys2Proof.Machine.execShrImm d a v s
  | .sarImm d a v => Sys2Proof.Machine.execSarImm d a v s
  | .movi d v => Sys2Proof.Machine.execMovi d v s
  | .icmp k p a b => Sys2Proof.Machine.execIcmp k p a b s
  | .mix32 d a b => Sys2Proof.Machine.execMix32 d a b s
  | .shfl d a b => Sys2Proof.Machine.execShfl d a b s
  | .lscanAdd d a n p => Sys2Proof.Machine.execLscanAdd d a n p s
  | .lscanAnd d a n p => Sys2Proof.Machine.execLscanAnd d a n p s
  | .lscanOr d a n p => Sys2Proof.Machine.execLscanOr d a n p s
  | .lscanXor d a n p => Sys2Proof.Machine.execLscanXor d a n p s
  | .lscanMinI32 d a n p => Sys2Proof.Machine.execLscanMinI32 d a n p s
  | .lscanMaxI32 d a n p => Sys2Proof.Machine.execLscanMaxI32 d a n p s
  | .regroup d a b => Sys2Proof.Machine.execRegroup d a b s
  | .sel d a b p => Sys2Proof.Machine.execSel d a b p s
  | .mov d a => Sys2Proof.Machine.execMov d a s
  | .movs d x => Sys2Proof.Machine.execMovs d x s
  | .voteAny d a => Sys2Proof.Machine.execVoteAny d a s
  | .voteAll d a => Sys2Proof.Machine.execVoteAll d a s
  | .voteBall d a => Sys2Proof.Machine.execVoteBall d a s
  | .v2s a u => Sys2Proof.Machine.execV2s a u s
  | .s2v d u => Sys2Proof.Machine.execS2v d u s
  | .lbcast d a u => Sys2Proof.Machine.execLbcast d a u s
  | .lredAdd d a => Sys2Proof.Machine.execLredAdd d a s
  | .lredAnd d a => Sys2Proof.Machine.execLredAnd d a s
  | .lredOr d a => Sys2Proof.Machine.execLredOr d a s
  | .lredXor d a => Sys2Proof.Machine.execLredXor d a s
  | .lredMinI32 d a => Sys2Proof.Machine.execLredMinI32 d a s
  | .lredMaxI32 d a => Sys2Proof.Machine.execLredMaxI32 d a s
  | .iaddU d a b => Sys2Proof.Machine.execIaddU d a b s
  | .isubU d a b => Sys2Proof.Machine.execIsubU d a b s
  | .imulU d a b => Sys2Proof.Machine.execImulU d a b s
  | .imulhI32U d a b => Sys2Proof.Machine.execImulhI32U d a b s
  | .imulhN32U d a b => Sys2Proof.Machine.execImulhN32U d a b s
  | .imadU d a b => Sys2Proof.Machine.execImadU d a b s
  | .iminI32U d a b => Sys2Proof.Machine.execIminI32U d a b s
  | .iminN32U d a b => Sys2Proof.Machine.execIminN32U d a b s
  | .imaxI32U d a b => Sys2Proof.Machine.execImaxI32U d a b s
  | .imaxN32U d a b => Sys2Proof.Machine.execImaxN32U d a b s
  | .iabsU d a => Sys2Proof.Machine.execIabsU d a s
  | .inegU d a => Sys2Proof.Machine.execInegU d a s
  | .leaU d a b => Sys2Proof.Machine.execLeaU d a b s
  | .iadd64U d a b => Sys2Proof.Machine.execIadd64U d a b s
  | .andU d a b => Sys2Proof.Machine.execAndU d a b s
  | .orU d a b => Sys2Proof.Machine.execOrU d a b s
  | .xorU d a b => Sys2Proof.Machine.execXorU d a b s
  | .andnU d a b => Sys2Proof.Machine.execAndnU d a b s
  | .shlU d a b => Sys2Proof.Machine.execShlU d a b s
  | .shrU d a b => Sys2Proof.Machine.execShrU d a b s
  | .sarU d a b => Sys2Proof.Machine.execSarU d a b s
  | .rotU d a b => Sys2Proof.Machine.execRotU d a b s
  | .clzU d a => Sys2Proof.Machine.execClzU d a s
  | .popcU d a => Sys2Proof.Machine.execPopcU d a s
  | .brevU d a => Sys2Proof.Machine.execBrevU d a s
  | .bfeN32U d a b => Sys2Proof.Machine.execBfeN32U d a b s
  | .bfeI32U d a b => Sys2Proof.Machine.execBfeI32U d a b s
  | .bfiU d a b => Sys2Proof.Machine.execBfiU d a b s
  | .bilvU d a b => Sys2Proof.Machine.execBilvU d a b s
  | .bdlvU d a b => Sys2Proof.Machine.execBdlvU d a b s
  | .icmpU d a b k => Sys2Proof.Machine.execIcmpU d a b k s
  | .movsU d x => Sys2Proof.Machine.execMovsU d x s
  | .movU d a => Sys2Proof.Machine.execMovU d a s
  | .mix32U d a b => Sys2Proof.Machine.execMix32U d a b s
  | .iaddUimm d a v => Sys2Proof.Machine.execIaddUimm d a v s
  | .andUimm d a v => Sys2Proof.Machine.execAndUimm d a v s
  | .orUimm d a v => Sys2Proof.Machine.execOrUimm d a v s
  | .xorUimm d a v => Sys2Proof.Machine.execXorUimm d a v s
  | .shlUimm d a v => Sys2Proof.Machine.execShlUimm d a v s
  | .shrUimm d a v => Sys2Proof.Machine.execShrUimm d a v s
  | .sarUimm d a v => Sys2Proof.Machine.execSarUimm d a v s
  | .moviU d v => Sys2Proof.Machine.execMoviU d v s
  | .fadd d a b r => Sys2Proof.Machine.execFadd d a b r s
  | .fmul d a b r => Sys2Proof.Machine.execFmul d a b r s
  | .ffma d a b r => Sys2Proof.Machine.execFfma d a b r s
  | .fsub d a b => Sys2Proof.Machine.execFsub d a b s
  | .fmin d a b => Sys2Proof.Machine.execFmin d a b s
  | .fmax d a b => Sys2Proof.Machine.execFmax d a b s
  | .fcmp k p a b => Sys2Proof.Machine.execFcmp k p a b s
  | .fclass d a => Sys2Proof.Machine.execFclass d a s
  | .fclassFlg d => Sys2Proof.Machine.execFclassFlg d s
  | .fclassFlgclr d => Sys2Proof.Machine.execFclassFlgclr d s
  | .frnd d a => Sys2Proof.Machine.execFrnd d a s
  | .frndRz d a => Sys2Proof.Machine.execFrndRz d a s
  | .frndRd d a => Sys2Proof.Machine.execFrndRd d a s
  | .frndRu d a => Sys2Proof.Machine.execFrndRu d a s
  | .hadd2F16 d a b => Sys2Proof.Machine.execHadd2F16 d a b s
  | .hadd2Bf16 d a b => Sys2Proof.Machine.execHadd2Bf16 d a b s
  | .hmul2F16 d a b => Sys2Proof.Machine.execHmul2F16 d a b s
  | .hmul2Bf16 d a b => Sys2Proof.Machine.execHmul2Bf16 d a b s
  | .hfma2F16 d a b => Sys2Proof.Machine.execHfma2F16 d a b s
  | .hfma2Bf16 d a b => Sys2Proof.Machine.execHfma2Bf16 d a b s
  | .rcp d a => Sys2Proof.Machine.execRcp d a s
  | .rsq d a => Sys2Proof.Machine.execRsq d a s
  | .sqrt d a => Sys2Proof.Machine.execSqrt d a s
  | .exp2 d a => Sys2Proof.Machine.execExp2 d a s
  | .log2 d a => Sys2Proof.Machine.execLog2 d a s
  | .sin d a => Sys2Proof.Machine.execSin d a s
  | .cos d a => Sys2Proof.Machine.execCos d a s
  | .cvt d a dty sty r ns => Sys2Proof.Machine.execCvt d a dty sty r ns s
  | .qhist d a b => Sys2Proof.Machine.execQhist d a b s
  | .qscale d a b => Sys2Proof.Machine.execQscale d a b s
  | .qpack d a b => Sys2Proof.Machine.execQpack d a b s
  | .ld d a o z => Sys2Proof.Machine.execLd d a o z s
  | .st d a o z => Sys2Proof.Machine.execSt d a o z s
  | .atomAdd d a b => Sys2Proof.Machine.execAtomAdd d a b s
  | .atomAnd d a b => Sys2Proof.Machine.execAtomAnd d a b s
  | .atomOr d a b => Sys2Proof.Machine.execAtomOr d a b s
  | .atomXor d a b => Sys2Proof.Machine.execAtomXor d a b s
  | .atomMinI32 d a b => Sys2Proof.Machine.execAtomMinI32 d a b s
  | .atomMaxI32 d a b => Sys2Proof.Machine.execAtomMaxI32 d a b s
  | .atomMinN32 d a b => Sys2Proof.Machine.execAtomMinN32 d a b s
  | .atomMaxN32 d a b => Sys2Proof.Machine.execAtomMaxN32 d a b s
  | .atomXchg d a b => Sys2Proof.Machine.execAtomXchg d a b s
  | .atomCas d a b => Sys2Proof.Machine.execAtomCas d a b s
  | .atomFadd d a b => Sys2Proof.Machine.execAtomFadd d a b s
  | .atomXacc a b => Sys2Proof.Machine.execAtomXacc a b s
  | .xaccRd d a => Sys2Proof.Machine.execXaccRd d a s
  | .xaccRdClr d a => Sys2Proof.Machine.execXaccRdClr d a s
  | .pref a => Sys2Proof.Machine.execPref a s
  | .prefSc a => Sys2Proof.Machine.execPrefSc a s
  | .atomAddN64 d a b => Sys2Proof.Machine.execAtomAddN64 d a b s
  | .atomCasB64 d a b => Sys2Proof.Machine.execAtomCasB64 d a b s
  | .ldSB32 d a b => Sys2Proof.Machine.execLdSB32 d a b s
  | .ldSB64 d a b => Sys2Proof.Machine.execLdSB64 d a b s
  | .stSB32 d a b => Sys2Proof.Machine.execStSB32 d a b s
  | .stSB64 d a b => Sys2Proof.Machine.execStSB64 d a b s
  | .cmnEwAddI32 a b => Sys2Proof.Machine.execCmnEwAddI32 a b s
  | .cmnEwAddF32 a b => Sys2Proof.Machine.execCmnEwAddF32 a b s
  | .cmnEwMaxF32 a b => Sys2Proof.Machine.execCmnEwMaxF32 a b s
  | .cmnRedAddI32 d a b => Sys2Proof.Machine.execCmnRedAddI32 d a b s
  | .cmnRedAddF32 d a b => Sys2Proof.Machine.execCmnRedAddF32 d a b s
  | .cmnRedMaxF32 d a b => Sys2Proof.Machine.execCmnRedMaxF32 d a b s
  | .fenceE m => Sys2Proof.Machine.execFenceE m s
  | .mwait g k a b => Sys2Proof.Machine.execMwait g k a b s
  | .fenceT => Sys2Proof.Machine.execFenceT s
  | .tlbInv a b => Sys2Proof.Machine.execTlbInv a b s
  | .tlbSync => Sys2Proof.Machine.execTlbSync s
  | .asidBind d a b => Sys2Proof.Machine.execAsidBind d a b s
  | .asidFree d a => Sys2Proof.Machine.execAsidFree d a s
  | .asidStat d a => Sys2Proof.Machine.execAsidStat d a s
  | .pgMig d a b => Sys2Proof.Machine.execPgMig d a b s
  | .pfResume d a b => Sys2Proof.Machine.execPfResume d a b s
  | .bbMove d a b => Sys2Proof.Machine.execBbMove d a b s
  | .cpy a b => Sys2Proof.Machine.execCpy a b s
  | .cpyFill a b => Sys2Proof.Machine.execCpyFill a b s
  | .tbrInit a b => Sys2Proof.Machine.execTbrInit a b s
  | .tbrArrive d a => Sys2Proof.Machine.execTbrArrive d a s
  | .tbrOwe a b => Sys2Proof.Machine.execTbrOwe a b s
  | .tbrRetire a => Sys2Proof.Machine.execTbrRetire a s
  | .strOpen n u => Sys2Proof.Machine.execStrOpen n u s
  | .strOpeni n u => Sys2Proof.Machine.execStrOpeni n u s
  | .strAdv n u => Sys2Proof.Machine.execStrAdv n u s
  | .strPop d n => Sys2Proof.Machine.execStrPop d n s
  | .strPush n a => Sys2Proof.Machine.execStrPush n a s
  | .strTend p n => Sys2Proof.Machine.execStrTend p n s
  | .strClose n => Sys2Proof.Machine.execStrClose n s
  | .fibOpen n u => Sys2Proof.Machine.execFibOpen n u s
  | .fibAdv d a n => Sys2Proof.Machine.execFibAdv d a n s
  | .fibTend p n => Sys2Proof.Machine.execFibTend p n s
  | .fibClose n => Sys2Proof.Machine.execFibClose n s
  | .xrCap u => Sys2Proof.Machine.execXrCap u s
  | .xrRoute d a u => Sys2Proof.Machine.execXrRoute d a u s
  | .taskPost d a => Sys2Proof.Machine.execTaskPost d a s
  | .taskSpawn d a b => Sys2Proof.Machine.execTaskSpawn d a b s
  | .tbufFull d a => Sys2Proof.Machine.execTbufFull d a s
  | .tbufEmpty d a => Sys2Proof.Machine.execTbufEmpty d a s
  | .tbufStat d a => Sys2Proof.Machine.execTbufStat d a s
  | .grpMeet g => Sys2Proof.Machine.execGrpMeet g s
  | .grpMark g => Sys2Proof.Machine.execGrpMark g s
  | .grpHold g => Sys2Proof.Machine.execGrpHold g s
  | .mm t a b f g k => Sys2Proof.Machine.execMm t a b f g k s
  | .mmSp t a b f g k => Sys2Proof.Machine.execMmSp t a b f g k s
  | .mmXpose t u => Sys2Proof.Machine.execMmXpose t u s
  | .mmPerm t u b => Sys2Proof.Machine.execMmPerm t u b s
  | .mmRsumF32 t u => Sys2Proof.Machine.execMmRsumF32 t u s
  | .mmRsumI32 t u => Sys2Proof.Machine.execMmRsumI32 t u s
  | .mmZero t => Sys2Proof.Machine.execMmZero t s
  | .mmScacc t u b => Sys2Proof.Machine.execMmScacc t u b s
  | .mmCvtF32I32 t u => Sys2Proof.Machine.execMmCvtF32I32 t u s
  | .mmCvtI32F32 t u => Sys2Proof.Machine.execMmCvtI32F32 t u s
  | .seqLoop d a => Sys2Proof.Machine.execSeqLoop d a s
  | .seqEnd => Sys2Proof.Machine.execSeqEnd s
  | .tokGive t a => Sys2Proof.Machine.execTokGive t a s
  | .tokTake t => Sys2Proof.Machine.execTokTake t s
  | .seqBar b => Sys2Proof.Machine.execSeqBar b s
  | .seqBarMatrix b a => Sys2Proof.Machine.execSeqBarMatrix b a s
  | .accLd d t b => Sys2Proof.Machine.execAccLd d t b s
  | .accSt d t b => Sys2Proof.Machine.execAccSt d t b s
  | .planePack d a b => Sys2Proof.Machine.execPlanePack d a b s
  | .planeUnpack d a b => Sys2Proof.Machine.execPlaneUnpack d a b s
  | .bpoolInit => Sys2Proof.Machine.execBpoolInit s
  | .beamMake d a => Sys2Proof.Machine.execBeamMake d a s
  | .beamCast d a u => Sys2Proof.Machine.execBeamCast d a u s
  | .beamNext d a u => Sys2Proof.Machine.execBeamNext d a u s
  | .beamFree d a => Sys2Proof.Machine.execBeamFree d a s
  | .beamStat d a => Sys2Proof.Machine.execBeamStat d a s
  | .rayCast d a u => Sys2Proof.Machine.execRayCast d a u s
  | .rayNext d a u => Sys2Proof.Machine.execRayNext d a u s
  | .rayResume d a u => Sys2Proof.Machine.execRayResume d a u s
  | .texSamp d a b => Sys2Proof.Machine.execTexSamp d a b s
  | .texFoot d a b => Sys2Proof.Machine.execTexFoot d a b s
  | .texLod d a b => Sys2Proof.Machine.execTexLod d a b s
  | .rastTri d a u => Sys2Proof.Machine.execRastTri d a u s
  | .rastNext d a u => Sys2Proof.Machine.execRastNext d a u s
  | .plvl d a => Sys2Proof.Machine.execPlvl d a s
  | .plvlRd d => Sys2Proof.Machine.execPlvlRd d s
  | .time d => Sys2Proof.Machine.execTime d s
  | .cyc d => Sys2Proof.Machine.execCyc d s
  | .dline d a => Sys2Proof.Machine.execDline d a s
  | .cntRd d a => Sys2Proof.Machine.execCntRd d a s
  | .sysRd d a n => Sys2Proof.Machine.execSysRd d a n s
  | .sysWr d a n => Sys2Proof.Machine.execSysWr d a n s
  | .almSet d a e => Sys2Proof.Machine.execAlmSet d a e s
  | .yoke d a => Sys2Proof.Machine.execYoke d a s
  | .modeStacks d a => Sys2Proof.Machine.execModeStacks d a s
  | .mclkSw d a => Sys2Proof.Machine.execMclkSw d a s
  | .repStat d a => Sys2Proof.Machine.execRepStat d a s
  | .wpSet d a n => Sys2Proof.Machine.execWpSet d a n s
  | .wpClr d a n => Sys2Proof.Machine.execWpClr d a n s
  | .dbgHalt d a => Sys2Proof.Machine.execDbgHalt d a s
  | .dbgRes d a => Sys2Proof.Machine.execDbgRes d a s
  | .dbgStep d a => Sys2Proof.Machine.execDbgStep d a s
  | .dbgRdv d a => Sys2Proof.Machine.execDbgRdv d a s
  | .dbgWrv d a => Sys2Proof.Machine.execDbgWrv d a s
  | .dbgPaths d a => Sys2Proof.Machine.execDbgPaths d a s
  | .trcOn d a => Sys2Proof.Machine.execTrcOn d a s
  | .trcOff d a => Sys2Proof.Machine.execTrcOff d a s
  | .trcMark a => Sys2Proof.Machine.execTrcMark a s
  | .warpSchedule core track => Sys2Proof.Machine.execWarpSchedule core track s
  | .pathBringIn gid w => Sys2Proof.Machine.execPathBringIn gid w s
  | .registerBringIn gid w => Sys2Proof.Machine.execRegisterBringIn gid w s
  | .icacheFill gid w path => Sys2Proof.Machine.execIcacheFill gid w path s
  | .eligibilityEvaluation asid task => Sys2Proof.Machine.execEligibilityEvaluation asid task s
  | .gangPlacement => Sys2Proof.Machine.execGangPlacement s
  | .carveOutGrowDone core => Sys2Proof.Machine.execCarveOutGrowDone core s
  | .carveOutShrinkDone core => Sys2Proof.Machine.execCarveOutShrinkDone core s
  | .coresidencyReservation inst => Sys2Proof.Machine.execCoresidencyReservation inst s
  | .priorityPreemption => Sys2Proof.Machine.execPriorityPreemption s
  | .instanceCompletion inst => Sys2Proof.Machine.execInstanceCompletion inst s
  | .periodStart => Sys2Proof.Machine.execPeriodStart s
  | .frameTick => Sys2Proof.Machine.execFrameTick s
  | .almperWrite v => Sys2Proof.Machine.execAlmperWrite v s
  | .engineQueueStart op => Sys2Proof.Machine.execEngineQueueStart op s
  | .pendSet gid w e => Sys2Proof.Machine.execPendSet gid w e s
  | .deadlineExpiry gid w e => Sys2Proof.Machine.execDeadlineExpiry gid w e s
  | .eventDelivery gid w => Sys2Proof.Machine.execEventDelivery gid w s
  | .contextFaultRecord asid => Sys2Proof.Machine.execContextFaultRecord asid s
  | .supmbxTokenSend => Sys2Proof.Machine.execSupmbxTokenSend s
  | .rangeReplay gid w path => Sys2Proof.Machine.execRangeReplay gid w path s
  | .preemptionRequest gid reason => Sys2Proof.Machine.execPreemptionRequest gid reason s
  | .hardSaveTime gid w => Sys2Proof.Machine.execHardSaveTime gid w s
  | .warpSave gid w => Sys2Proof.Machine.execWarpSave gid w s
  | .hardSave gid w => Sys2Proof.Machine.execHardSave gid w s
  | .gangSave gid => Sys2Proof.Machine.execGangSave gid s
  | .regroupMove gid m => Sys2Proof.Machine.execRegroupMove gid m s
  | .remoteLocalTarget acc => Sys2Proof.Machine.execRemoteLocalTarget acc s
  | .remoteFaultReturn acc => Sys2Proof.Machine.execRemoteFaultReturn acc s
  | .remoteTimeout acc => Sys2Proof.Machine.execRemoteTimeout acc s
  | .rangeEntryGrant => Sys2Proof.Machine.execRangeEntryGrant s
  | .engineCompletion op => Sys2Proof.Machine.execEngineCompletion op s
  | .tbrRetireDone gid w path => Sys2Proof.Machine.execTbrRetireDone gid w path s
  | .copyQueueAdmit core => Sys2Proof.Machine.execCopyQueueAdmit core s
  | .mwaitRelease gid w path => Sys2Proof.Machine.execMwaitRelease gid w path s
  | .hostAccess h => Sys2Proof.Machine.execHostAccess h s
  | .faultRecordWrite gid w path => Sys2Proof.Machine.execFaultRecordWrite gid w path s
  | .shootdownAcknowledged k => Sys2Proof.Machine.execShootdownAcknowledged k s
  | .shootdownDone k => Sys2Proof.Machine.execShootdownDone k s
  | .asidPurgeDone asid => Sys2Proof.Machine.execAsidPurgeDone asid s
  | .pgMigCompletion k => Sys2Proof.Machine.execPgMigCompletion k s
  | .addressEngineRunAhead gid w q => Sys2Proof.Machine.execAddressEngineRunAhead gid w q s
  | .matrixOpStart core => Sys2Proof.Machine.execMatrixOpStart core s
  | .matrixOpRetire core => Sys2Proof.Machine.execMatrixOpRetire core s
  | .tokenPass gid t => Sys2Proof.Machine.execTokenPass gid t s
  | .levelChangeStart cl => Sys2Proof.Machine.execLevelChangeStart cl s
  | .levelChangeComplete cl => Sys2Proof.Machine.execLevelChangeComplete cl s
  | .droopDetect cl => Sys2Proof.Machine.execDroopDetect cl s
  | .stretchEnd cl => Sys2Proof.Machine.execStretchEnd cl s
  | .stretchLimit cl => Sys2Proof.Machine.execStretchLimit cl s
  | .calmWindowEnd cl => Sys2Proof.Machine.execCalmWindowEnd cl s
  | .drooptstWrite cl n => Sys2Proof.Machine.execDrooptstWrite cl n s
  | .prereqWrite v => Sys2Proof.Machine.execPrereqWrite v s
  | .tsctlWrite v => Sys2Proof.Machine.execTsctlWrite v s
  | .timeSeriesLatch written => Sys2Proof.Machine.execTimeSeriesLatch written s
  | .thermalWarning stk tj => Sys2Proof.Machine.execThermalWarning stk tj s
  | .thermalWarningEnd stk tj => Sys2Proof.Machine.execThermalWarningEnd stk tj s
  | .thermalTrip stk tier => Sys2Proof.Machine.execThermalTrip stk tier s
  | .timePersist => Sys2Proof.Machine.execTimePersist s
  | .lifeRecordHour u => Sys2Proof.Machine.execLifeRecordHour u s
  | .yokedMiscompare stk k agree => Sys2Proof.Machine.execYokedMiscompare stk k agree s
  | .trackRetire core track => Sys2Proof.Machine.execTrackRetire core track s
  | .beatReceive core beat good wire => Sys2Proof.Machine.execBeatReceive core beat good wire s
  | .stitchMapUpdate core w => Sys2Proof.Machine.execStitchMapUpdate core w s
  | .retirementBegin r => Sys2Proof.Machine.execRetirementBegin r s
  | .routerDrained r => Sys2Proof.Machine.execRouterDrained r s
  | .routingAcknowledged r => Sys2Proof.Machine.execRoutingAcknowledged r s
  | .powerUp => Sys2Proof.Machine.execPowerUp s
  | .firmwareVerify good => Sys2Proof.Machine.execFirmwareVerify good s
  | .gddrTrain failed => Sys2Proof.Machine.execGddrTrain failed s
  | .stack0SelfTest failed root => Sys2Proof.Machine.execStack0SelfTest failed root s
  | .satellitesInService tests => Sys2Proof.Machine.execSatellitesInService tests s
  | .shrinkGangsSaved => Sys2Proof.Machine.execShrinkGangsSaved s
  | .shrinkWritebackDone => Sys2Proof.Machine.execShrinkWritebackDone s
  | .mclkWindowEnd => Sys2Proof.Machine.execMclkWindowEnd s
  | .attestationRequest nonce => Sys2Proof.Machine.execAttestationRequest nonce s
  | .debugPortAccess d => Sys2Proof.Machine.execDebugPortAccess d s
  | .stepComplete gid w path => Sys2Proof.Machine.execStepComplete gid w path s
  | .accessPerform acc => Sys2Proof.Machine.execAccessPerform acc s
  | .lossOfPower aon => Sys2Proof.Machine.execLossOfPower aon s
  | .suspectPairSelfTest stk k => Sys2Proof.Machine.execSuspectPairSelfTest stk k s

end Sys2Proof.Machine
end

