-- ==== Sys2Proof/Machine/Step.lean ====
section
/-! DEFINITION. One step of the package, and a state whose next step issues a given instruction word. -/

namespace Sys2Proof.Machine

/-- One step: what the package does next (Sys2Proof/Machine/Schedule.lean), and the time it takes. -/
noncomputable def step (s : State) : Host.Outcome State Fault Refusal := mapNext State.advance (s.advance1 exec)

/-- `s` with a packet whose word 0 is the table word `w` (its bits above 31 are no part of a word) and whose other words are nops, cached
where the next step issues: for a path of a resident warp of a supervisor context, or, where only the matrix stream accepts the word, for the
sequencer of its gang. It stands for the load and launch of a program (log 8). -/
def State.withFetchWord (s : State) (_nbits w : Nat) : State := s.placedWord (BitVec.ofNat 32 w)

end Sys2Proof.Machine
end

