-- ==== Sys2Proof/Laws/SMap.lean ====
section
/-! SUPPORT. The laws of sparse data: what a write leaves at every key, and that it keeps the canonical form. -/

namespace Sys2Proof

set_option linter.unusedSectionVars false
set_option linter.unusedSimpArgs false

variable {α : Type} [DecidableEq α] {d : α}

theorem smGet_append_of_ne (m n : List (Nat × α)) (k : Nat) (h : ∀ x ∈ m, x.1 ≠ k) :
    smGet d (m ++ n) k = smGet d n k := by
  induction m with
  | nil => rfl
  | cons x t ih =>
    obtain ⟨a, v⟩ := x
    have ha : a ≠ k := h (a, v) (by simp)
    simp only [List.cons_append, smGet, ha, if_false]
    exact ih fun y hy => h y (by simp [hy])

theorem smGet_none (m : List (Nat × α)) (k : Nat) (h : ∀ x ∈ m, x.1 ≠ k) : smGet d m k = d := by
  simpa [smGet] using smGet_append_of_ne (d := d) m [] k h

theorem smGet_append_left (m n : List (Nat × α)) (k : Nat) (h : ∀ x ∈ n, x.1 ≠ k) :
    smGet d (m ++ n) k = smGet d m k := by
  induction m with
  | nil => exact smGet_none n k h
  | cons x t ih => obtain ⟨a, v⟩ := x; by_cases ha : a = k <;> simp [smGet, ha, ih]

theorem smGet_filter (m : List (Nat × α)) (p : Nat → Bool) (k : Nat) (h : p k = true) :
    smGet d (m.filter fun x => p x.1) k = smGet d m k := by
  induction m with
  | nil => rfl
  | cons x t ih =>
    obtain ⟨a, v⟩ := x
    by_cases ha : a = k
    · subst ha; simp [List.filter_cons, h, smGet]
    · by_cases hp : p a = true <;> simp [List.filter_cons, hp, smGet, ha, ih]

theorem smRun_key (vs : List α) (a : Nat) (x : Nat × α) (h : x ∈ smRun d a vs) : a ≤ x.1 ∧ x.1 < a + vs.length := by
  induction vs generalizing a with
  | nil => simp [smRun] at h
  | cons v t ih =>
    have hh : x = (a, v) ∨ x ∈ smRun d (a + 1) t := by
      by_cases hv : v = d <;> simp [smRun, hv] at h <;> tauto
    rcases hh with rfl | hh
    · simp
    · have := ih (a + 1) hh; simp only [List.length_cons]; omega

theorem smGet_smRun (vs : List α) (a k : Nat) :
    smGet d (smRun d a vs) k = if h : a ≤ k ∧ k < a + vs.length then vs[k - a]'(by omega) else d := by
  induction vs generalizing a with
  | nil =>
    have : ¬ (a ≤ k ∧ k < a + ([] : List α).length) := by simp
    simp [smRun, smGet, this]
  | cons v t ih =>
    by_cases hk : a = k
    · subst hk
      by_cases hv : v = d
      · simp [smRun, hv, ih]
      · simp [smRun, hv, smGet]
    · have e : smGet d (smRun d a (v :: t)) k = smGet d (smRun d (a + 1) t) k := by
        by_cases hv : v = d <;> simp [smRun, hv, smGet, hk]
      rw [e, ih]
      by_cases hr : a + 1 ≤ k ∧ k < a + 1 + t.length
      · have : k - a = (k - (a + 1)) + 1 := by omega
        have hr' : a ≤ k ∧ k < a + (t.length + 1) := by omega
        simp [hr, hr', this]
      · have hr' : ¬ (a ≤ k ∧ k < a + (t.length + 1)) := by omega
        rw [dif_neg hr, dif_neg (by simpa using hr')]

/-- Reading after a run of writes: the written value inside the run, the old value outside it. -/
theorem smGet_smPuts (m : List (Nat × α)) (a k : Nat) (vs : List α) :
    smGet d (smPuts d m a vs) k = if h : a ≤ k ∧ k < a + vs.length then vs[k - a]'(by omega) else smGet d m k := by
  unfold smPuts
  by_cases h : a ≤ k ∧ k < a + vs.length
  · rw [smGet_append_left, smGet_append_of_ne, smGet_smRun]
    · simp only [h, and_self, dif_pos]
    · intro x hx; simp at hx; omega
    · intro x hx; simp at hx; omega
  · simp only [h, dif_neg, not_false_eq_true]
    by_cases hlo : k < a
    · rw [smGet_append_left, smGet_append_left]
      · exact smGet_filter m (fun j => decide (j < a)) k (by simpa using hlo)
      · intro x hx; have := smRun_key vs a x hx; omega
      · intro x hx; simp at hx; omega
    · rw [smGet_append_of_ne]
      · exact smGet_filter m (fun j => decide (a + vs.length ≤ j)) k (by simp; omega)
      · intro x hx; simp only [List.mem_append, List.mem_filter, decide_eq_true_eq] at hx
        rcases hx with hx | hx
        · omega
        · have := smRun_key vs a x hx; omega

@[simp] theorem smGet_smPut (m : List (Nat × α)) (a k : Nat) (v : α) :
    smGet d (smPut d m a v) k = if k = a then v else smGet d m k := by
  unfold smPut
  rw [smGet_smPuts]
  by_cases h : k = a
  · subst h; simp
  · have : ¬ (a ≤ k ∧ k < a + [v].length) := by simp; omega
    simp [h]; omega

theorem smWf_mono (m : List (Nat × α)) (lo hi : Nat) (h : lo ≤ hi) (w : smWf d hi m = true) : smWf d lo m = true := by
  cases m with
  | nil => rfl
  | cons x t => obtain ⟨a, v⟩ := x; simp [smWf] at w ⊢; exact ⟨⟨by omega, w.1.2⟩, w.2⟩

theorem smWf_key (m : List (Nat × α)) (lo : Nat) (w : smWf d lo m = true) : ∀ x ∈ m, lo ≤ x.1 := by
  induction m generalizing lo with
  | nil => simp
  | cons y t ih =>
    obtain ⟨a, v⟩ := y
    simp [smWf] at w
    intro x hx
    rcases List.mem_cons.1 hx with rfl | hx
    · exact w.1.1
    · have := ih _ w.2 x hx; omega

theorem smWf_append (m n : List (Nat × α)) (lo mid : Nat) (hm : smWf d lo m = true) (hn : smWf d mid n = true)
    (hk : ∀ x ∈ m, x.1 < mid) (hle : lo ≤ mid) : smWf d lo (m ++ n) = true := by
  induction m generalizing lo with
  | nil => exact smWf_mono n lo mid hle hn
  | cons y t ih =>
    obtain ⟨a, v⟩ := y
    simp [smWf] at hm ⊢
    have ha : a < mid := hk (a, v) (by simp)
    exact ⟨hm.1, ih _ hm.2 (fun x hx => hk x (by simp [hx])) (by omega)⟩

theorem smWf_filter (m : List (Nat × α)) (lo : Nat) (p : Nat × α → Bool) (h : smWf d lo m = true) :
    smWf d lo (m.filter p) = true := by
  induction m generalizing lo with
  | nil => rfl
  | cons y t ih =>
    obtain ⟨a, v⟩ := y
    simp [smWf] at h
    by_cases hp : p (a, v) = true
    · simp [List.filter_cons, hp, smWf, h.1, ih _ h.2]
    · simp only [List.filter_cons, hp]; exact smWf_mono _ lo (a + 1) (by omega) (ih _ h.2)

theorem smWf_filter_ge (m : List (Nat × α)) (lo c : Nat) (h : smWf d lo m = true) :
    smWf d c (m.filter fun x => decide (c ≤ x.1)) = true := by
  induction m generalizing lo with
  | nil => rfl
  | cons y t ih =>
    obtain ⟨a, v⟩ := y
    simp [smWf] at h
    by_cases hp : c ≤ a
    · simp only [List.filter_cons, hp, decide_true, if_true, smWf, h.1.2, ne_eq, not_false_eq_true,
        Bool.and_self, Bool.true_and]
      exact smWf_filter t (a + 1) _ h.2
    · simp only [List.filter_cons, hp, decide_false]; exact ih _ h.2

theorem smWf_smRun (vs : List α) (a : Nat) : smWf d a (smRun d a vs) = true := by
  induction vs generalizing a with
  | nil => rfl
  | cons v t ih =>
    by_cases hv : v = d
    · simp only [smRun, hv, if_true]; exact smWf_mono _ a (a + 1) (by omega) (ih _)
    · simp [smRun, hv, smWf, ih]

/-- A run of writes keeps the canonical form. -/
theorem smWf_smPuts (m : List (Nat × α)) (a : Nat) (vs : List α) (h : smWf d 0 m = true) : smWf d 0 (smPuts d m a vs) = true := by
  unfold smPuts
  apply smWf_append (mid := a + vs.length)
  · apply smWf_append (mid := a)
    · exact smWf_filter m 0 _ h
    · exact smWf_smRun vs a
    · intro x hx; simp at hx; exact hx.2
    · omega
  · exact smWf_filter_ge m 0 _ h
  · intro x hx
    simp only [List.mem_append, List.mem_filter, decide_eq_true_eq] at hx
    rcases hx with hx | hx
    · omega
    · exact (smRun_key vs a x hx).2
  · omega

theorem smWf_smPut (m : List (Nat × α)) (k : Nat) (v : α) (h : smWf d 0 m = true) : smWf d 0 (smPut d m k v) = true :=
  smWf_smPuts m k [v] h

/-- Reading after a clear: the default inside, the old value outside. -/
theorem smGet_smClear (m : List (Nat × α)) (a n k : Nat) :
    smGet d (smClear m a n) k = if a ≤ k ∧ k < a + n then d else smGet d m k := by
  unfold smClear
  split
  · apply smGet_none; intro x hx; simp at hx; omega
  · exact smGet_filter m (fun j => decide (j < a) || decide (a + n ≤ j)) k (by simp; omega)

/-- A clear keeps the canonical form. -/
theorem smWf_smClear (m : List (Nat × α)) (a n : Nat) (h : smWf d 0 m = true) : smWf d 0 (smClear m a n) = true :=
  smWf_filter m 0 _ h

/-- Reading after a run was taken from another map: that map inside the run, the old value outside it. -/
theorem smGet_smTake (m w : List (Nat × α)) (a n k : Nat) :
    smGet d (smTake m w a n) k = if a ≤ k ∧ k < a + n then smGet d w k else smGet d m k := by
  unfold smTake
  by_cases h : a ≤ k ∧ k < a + n
  · rw [if_pos h, smGet_append_left, smGet_append_of_ne]
    · exact smGet_filter w (fun j => decide (a ≤ j) && decide (j < a + n)) k (by simpa using h)
    · intro x hx; simp at hx; omega
    · intro x hx; simp at hx; omega
  · rw [if_neg h]
    by_cases hlo : k < a
    · rw [smGet_append_left, smGet_append_left]
      · exact smGet_filter m (fun j => decide (j < a)) k (by simpa using hlo)
      · intro x hx; simp at hx; omega
      · intro x hx; simp at hx; omega
    · rw [smGet_append_of_ne]
      · exact smGet_filter m (fun j => decide (a + n ≤ j)) k (by simp; omega)
      · intro x hx; simp at hx; omega

/-- A run taken from another map keeps the canonical form. -/
theorem smWf_smTake (m w : List (Nat × α)) (a n : Nat) (h : smWf d 0 m = true) (hw : smWf d 0 w = true) :
    smWf d 0 (smTake m w a n) = true := by
  have hr : smWf d a (w.filter fun x => decide (a ≤ x.1) && decide (x.1 < a + n)) = true := by
    have e : (w.filter fun x => decide (a ≤ x.1) && decide (x.1 < a + n)) =
        (w.filter fun x => decide (a ≤ x.1)).filter fun x => decide (x.1 < a + n) := by
      rw [List.filter_filter]; congr 1; funext x; rw [Bool.and_comm]
    rw [e]; exact smWf_filter _ _ _ (smWf_filter_ge w 0 a hw)
  unfold smTake
  apply smWf_append (mid := a + n)
  · apply smWf_append (mid := a)
    · exact smWf_filter m 0 _ h
    · exact hr
    · intro x hx; simp at hx; exact hx.2
    · omega
  · exact smWf_filter_ge m 0 _ h
  · intro x hx; simp at hx; omega
  · omega

end Sys2Proof
end

