-- ==== Sys2Proof/Safety.lean ====
section
/-! DEFINITION. What a state keeps, and the words in which claims say what a step leaves alone: a step that writes registers alone, with the
register or pair it writes and every other one as it was. -/

namespace Sys2Proof.Machine

/-- The memory is in its canonical form. -/
def State.MemOk (s : State) : Prop := Memory.wf s.mem

/-- The instruction answers a next state, of which `P` holds. -/
def Gives (i : Instr) (s : State) (P : State → Prop) : Prop := ∃ t, exec i s = .next t ∧ P t

/-- Nothing but the register files of the warp in focus differs, and what watch predicates look at (17_debug R366). -/
def OnlyRegs (s t : State) : Prop := t = { s with me := { s.me with regs := t.me.regs, obs := t.me.obs } }

/-- vN is `f` in the active lanes; every other register of every lane, and all else of the state, is as before. -/
def LaneResult (s t : State) (d : BitVec 7) (f : Nat → Word) : Prop :=
  OnlyRegs s t ∧ t.me.regs = { s.me.regs with v := t.me.regs.v } ∧
    ∀ n l, l < 32 → t.me.regs.getV n l = if n = d.toNat ∧ s.act l = true then f l else s.me.regs.getV n l

/-- vN:vN+1 is `f` in the active lanes, with the rest as before. -/
def LanePairResult (s t : State) (d : BitVec 7) (f : Nat → BitVec 64) : Prop :=
  OnlyRegs s t ∧ t.me.regs = { s.me.regs with v := t.me.regs.v } ∧
    ∀ n l, l < 32 → t.me.regs.getV n l =
      if n = d.toNat ∧ s.act l = true then (f l).setWidth 32
      else if n = d.toNat + 1 ∧ s.act l = true then (f l >>> 32).setWidth 32
      else s.me.regs.getV n l

/-- vN and the sticky flags take the results of the active lanes (07_numbers R173), with the rest as before. -/
def FloatResult (s t : State) (d : BitVec 7) (f : Nat → FRes) : Prop :=
  OnlyRegs s t ∧ t.me.regs = { s.me.regs with v := t.me.regs.v, flags := t.me.regs.flags } ∧
    (∀ n l, l < 32 → t.me.regs.getV n l = if n = d.toNat ∧ s.act l = true then BitVec.ofNat 32 (f l).bits else s.me.regs.getV n l) ∧
    ∀ l, l < 32 → t.me.regs.getF l = if s.act l = true then s.me.regs.getF l ||| (f l).fl else s.me.regs.getF l

/-- pN is `f` in the active lanes, but p7 stays true; every other predicate, and all else of the state, is as before. -/
def PredResult (s t : State) (d : BitVec 3) (f : Nat → Bool) : Prop :=
  OnlyRegs s t ∧ t.me.regs = { s.me.regs with p := t.me.regs.p } ∧
    ∀ n l, n < 8 → l < 32 → (t.me.regs.getP n).getLsbD l =
      if n = 7 then true else if n = d.toNat ∧ s.act l = true then f l else (s.me.regs.getP n).getLsbD l

/-- Nothing but the uniform registers of whoever issues differs. -/
def OnlyUniform (s t : State) : Prop :=
  if s.issue = .seq then t = { s with gang := { s.gang with seq := { s.gang.seq with u := t.gang.seq.u } } }
  else t = { s with me := { s.me with regs := { s.me.regs with u := t.me.regs.u } } }

/-- The uniform registers are those of `f` where it gives one, but s0 stays 0; every other one, and all else of the state, is as before. -/
def UniformResult (s t : State) (f : Nat → Option Word) : Prop :=
  OnlyUniform s t ∧ ∀ n, t.un n = if n = 0 then 0 else (f n).getD (s.un n)

/-- One uniform register. -/
def one (d : BitVec 6) (x : Word) (n : Nat) : Option Word := if n = d.toNat then some x else none
/-- A pair of uniform registers. -/
def pair (d : BitVec 6) (x : BitVec 64) (n : Nat) : Option Word :=
  if n = d.toNat then some (x.setWidth 32) else if n = d.toNat + 1 then some ((x >>> 32).setWidth 32) else none

/-- Nothing but the path table of the warp in focus differs, and which paths wait for its accesses in flight after a split (09_ordering R216). -/
def OnlyPaths (s t : State) : Prop :=
  t = { s with me := { s.me with cur := t.me.cur, paths := t.me.paths, overflow := t.me.overflow }, accs := t.accs } ∧
    t.accs.map (fun a => { a with heirs := [] }) = s.accs.map fun a => { a with heirs := [] }

/-- The active lanes of the path in focus go to their places (04_control R97): lanes with the same place stay on one READY path of the same
class, lanes with different places are on different ones, and the path of the lowest lane keeps the identifier. -/
def LanesGo (s t : State) (place : Nat → Place) : Prop :=
  ∃ q : Nat → Path, ∀ l, l < 32 → s.act l = true →
    q l ∈ t.me.cur :: t.me.paths ∧ (q l).st = .ready ∧ ((q l).pc, (q l).wpos) = place l ∧ (q l).hmode = s.me.cur.hmode ∧
    (∀ m, m < 32 → (q l).mask.getLsbD m = (s.act m && decide (place m = place l))) ∧
    ((∀ m, m < l → s.act m = false) → q l = t.me.cur ∧ (q l).id = s.me.cur.id)

/-- Every lane that the memory word acts on reaches its bytes at a key, with its access of this form at once (08_memory R195): it passes the checks
of R194, its translation is cached, and nothing holds or refuses the access: neither an earlier one in flight. -/
def Reaches (s : State) (f : MemForm) (r : Nat → Req) (k : Nat → Nat) : Prop :=
  s.me.cur.mask ≠ 0 ∧ s.inFlight s.me s.me.cur = false ∧ ∀ l, l < 32 → s.memMask.getLsbD l = true →
    (∃ pg, s.prepare f (r l) = (s, .ok (.mem (k l)) pg)) ∧ s.walks f (r l) = false ∧ s.defers f (.mem (k l)) = false ∧ s.conflicts (k l) f.size f.writes = []

/-- The addresses of a row-order byte element of a layout record in the own local memory (11_copy R261): its generic address's offset in the gang's
allocation. -/
def LocalElem (r : LRec) (i j k : Nat) : Nat := r.base + (r.z + k).toNat * r.stride2 + (r.y + j).toNat * r.stride1 + (r.x + i).toNat

/-- A layout record at an offset of the own local memory describes byte elements there, within the limits of R260 and R261, and its hull lies in
the gang's allocation. -/
def LocalBytes (s : State) (off : Nat) (x y z : Int) (r : LRec) : Prop :=
  off % 64 = 0 ∧ off + 64 ≤ s.gang.localk * 1024 ∧ parseRec (s.bytes (localKey s.coreNo (s.gang.base + off)) 64) x y z = some r ∧
  r.space = 1 ∧ r.w = 8 ∧ r.plane = false ∧ r.shapeOk = true ∧ ∃ h, r.hull = some h ∧ r.base + h.1 + h.2 ≤ s.gang.localk * 1024

/-! ### Exact values and rounding, over an ordered field such as the rational or the real numbers (07_numbers R165 to R171) -/

variable {K : Type} [Field K] [LinearOrder K] [IsStrictOrderedRing K] [FloorRing K]

/-- (−1)^neg × m × 2^e. -/
def valueOf (K : Type) [Field K] (neg : Bool) (m : Nat) (e : Int) : K := (if neg then -1 else 1) * m * (2 : K) ^ e
/-- The same as a rational number. -/
abbrev ratOf (neg : Bool) (m : Nat) (e : Int) : ℚ := valueOf ℚ neg m e

/-- round_to_integer (R169): to the nearest, ties to even; toward 0; toward minus infinity; toward plus infinity. -/
def roundInt (mode : RoundMode) (x : K) : Int :=
  match mode with
  | .ne => if x - ⌊x⌋ < 1 / 2 ∨ (x - ⌊x⌋ = 1 / 2 ∧ ⌊x⌋ % 2 = 0) then ⌊x⌋ else ⌊x⌋ + 1
  | .z => if 0 ≤ x then ⌊x⌋ else ⌈x⌉
  | .d => ⌊x⌋
  | .u => ⌈x⌉

/-- `r` is what rounding `x ≠ 0` once gives in a format, with its flags (R169), `ovf` being what overflow gives. -/
def RoundsTo (f : Fmt) (mode : RoundMode) (x : K) (ovf r : FRes) : Prop :=
  let e := Int.log 2 |x|
  let q := max e f.emin - (f.p - 1 : Nat)
  let y := roundInt mode (x / 2 ^ q) * (2 : K) ^ q
  let t := roundInt mode (x / 2 ^ (e - (f.p - 1 : Nat))) * (2 : K) ^ (e - (f.p - 1 : Nat))
  if valueOf K false f.maxN f.maxQ < |y| then r = ovf
  else
    r.fl = (if y = x then 0 else flagNX) ||| (if y ≠ x ∧ |t| < 2 ^ f.emin then flagUF else 0) ∧
      ∃ m e, f.decode r.bits = .fin (decide (x < 0)) m e ∧ valueOf K (decide (x < 0)) m e = y

/-- `r` is what rounding `x ≠ 0` once gives in a format with infinities (R169, R170). -/
def Rounds (f : Fmt) (mode : RoundMode) (x : K) (r : FRes) : Prop :=
  RoundsTo f mode x ⟨match mode with
    | .ne => f.infBits (decide (x < 0))
    | .z => f.maxBits (decide (x < 0))
    | .d => if x < 0 then f.infBits true else f.maxBits false
    | .u => if x < 0 then f.maxBits true else f.infBits false, flagOF ||| flagNX⟩ r

/-- The canonical NaN of a format, with NV where `nv` says so. -/
def Fmt.nanRes (f : Fmt) (nv : Bool) : FRes := ⟨f.nan, if nv then flagNV else 0⟩
/-- A zero. -/
def Fmt.zeroRes (f : Fmt) (neg : Bool) : FRes := ⟨if neg then 2 ^ (f.w - 1) else 0, 0⟩
/-- A signalling NaN. -/
def FVal.signals : FVal → Bool
  | .nan s => s
  | _ => false

/-- What a sum gives in a format (R171, R175). -/
def SumOf (f : Fmt) (mode : RoundMode) (x y : FVal) (r : FRes) : Prop :=
  match x, y with
  | .nan _, _ => r = f.nanRes (x.signals || y.signals)
  | _, .nan _ => r = f.nanRes (x.signals || y.signals)
  | .inf s, .inf t => r = if s = t then ⟨f.infBits s, 0⟩ else f.nanRes true
  | .inf s, _ => r = ⟨f.infBits s, 0⟩
  | _, .inf t => r = ⟨f.infBits t, 0⟩
  | .fin s m e, .fin t n g =>
    if ratOf s m e + ratOf t n g = 0 then r = f.zeroRes (if m = 0 ∧ s = t then s else decide (mode = .d))
    else Rounds f mode (ratOf s m e + ratOf t n g) r

/-- What a product gives in a format (R171, R175). -/
def ProductOf (f : Fmt) (mode : RoundMode) (x y : FVal) (r : FRes) : Prop :=
  match x, y with
  | .nan _, _ => r = f.nanRes (x.signals || y.signals)
  | _, .nan _ => r = f.nanRes (x.signals || y.signals)
  | .inf s, .inf t => r = ⟨f.infBits (s != t), 0⟩
  | .inf s, .fin t n _ => r = if n = 0 then f.nanRes true else ⟨f.infBits (s != t), 0⟩
  | .fin s m _, .inf t => r = if m = 0 then f.nanRes true else ⟨f.infBits (s != t), 0⟩
  | .fin s m e, .fin t n g =>
    if m = 0 ∨ n = 0 then r = f.zeroRes (s != t) else Rounds f mode (ratOf s m e * ratOf t n g) r

/-- What a product and a sum, rounded once, give in a format (R171, R175). -/
def FusedOf (f : Fmt) (mode : RoundMode) (x y z : FVal) (r : FRes) : Prop :=
  let sig := x.signals || y.signals || z.signals
  let zeroInf := match x, y with
    | .inf _, .fin _ n _ => decide (n = 0)
    | .fin _ m _, .inf _ => decide (m = 0)
    | _, _ => false
  match x, y, z with
  | .nan _, _, _ => r = f.nanRes sig
  | _, .nan _, _ => r = f.nanRes sig
  | .fin s m e, .fin t n g, .fin u k h =>
    let p := ratOf s m e * ratOf t n g
    if p + ratOf u k h = 0 then r = f.zeroRes (if k = 0 ∧ (s != t) = u then u else decide (mode = .d))
    else Rounds f mode (p + ratOf u k h) r
  | .fin _ _ _, .fin _ _ _, .inf u => r = ⟨f.infBits u, 0⟩
  | x, y, z =>
    if zeroInf then r = f.nanRes true
    else
      let neg := (match x with | .inf s => s | .fin s _ _ => s | .nan _ => false) != (match y with | .inf s => s | .fin s _ _ => s | .nan _ => false)
      match z with
      | .nan _ => r = f.nanRes sig
      | .inf u => r = if u = neg then ⟨f.infBits u, 0⟩ else f.nanRes true
      | .fin _ _ _ => r = ⟨f.infBits neg, 0⟩

/-- What the array's reduction of products gives (13_matrix R300): specials first; then the exact terms, cut toward zero to the 80-bit window under
the largest one where `anchored`, summed exactly and rounded once to nearest. -/
def WindowSum (anchored : Bool) (ts : List (FVal × FVal)) (r : FRes) : Prop :=
  let zero (v : FVal) : Bool := match v with | .fin _ m _ => m == 0 | _ => false
  let isInf (v : FVal) : Bool := match v with | .inf _ => true | _ => false
  let sgn (v : FVal) : Bool := match v with | .fin n _ _ => n | .inf n => n | .nan _ => false
  let nan (p : FVal × FVal) : Bool := p.1.isNan || p.2.isNan
  let invalid (p : FVal × FVal) : Bool := (isInf p.1 && zero p.2) || (zero p.1 && isInf p.2)
  let inf (n : Bool) : Prop := ∃ p ∈ ts, (isInf p.1 || isInf p.2) = true ∧ nan p = false ∧ invalid p = false ∧ (sgn p.1 != sgn p.2) = n
  let value (p : FVal × FVal) : ℚ := match p with
    | (.fin s m e, .fin t n g) => ratOf s m e * ratOf t n g
    | _ => 0
  if (∃ p ∈ ts, nan p = true ∨ invalid p = true) ∨ (inf false ∧ inf true) then
    (r.bits = 0x7FC00000 ∧ ((∃ p ∈ ts, invalid p = true ∨ p.1.signals = true ∨ p.2.signals = true) ∨ (inf false ∧ inf true) → r.fl = flagNV) ∧
      (¬ ((∃ p ∈ ts, invalid p = true ∨ p.1.signals = true ∨ p.2.signals = true) ∨ (inf false ∧ inf true)) → r.fl = 0))
  else if inf false then r = ⟨0x7F800000, 0⟩
  else if inf true then r = ⟨0xFF800000, 0⟩
  else if ∀ p ∈ ts, value p = 0 then r = ⟨if ts.all (fun p => sgn p.1 != sgn p.2) then 0x80000000 else 0, 0⟩
  else ∃ e : Int, (∀ p ∈ ts, value p ≠ 0 → Int.log 2 |value p| ≤ e) ∧ (∃ p ∈ ts, value p ≠ 0 ∧ Int.log 2 |value p| = e) ∧
    let q : ℚ := (2 : ℚ) ^ (e - 79)
    let cut (x : ℚ) : ℚ := if anchored = false then x else if x < 0 then -(⌊-x / q⌋ * q) else ⌊x / q⌋ * q
    let total := (ts.map fun p => cut (value p)).sum
    let lost : Flags := if ts.all (fun p => cut (value p) == value p) then 0 else flagNX
    if total = 0 then r = ⟨0, lost⟩ else ∃ y, Rounds fmtF32 .ne total y ∧ r = ⟨y.bits, y.fl ||| lost⟩

end Sys2Proof.Machine
end

