-- ==== Sys2Proof/Certificates/Slice0/Obligations.lean ====
section
/-! DEFINITION. What the provers are to show: statements about the encoding, the step, each family of instructions and events, and the whole
machine. Each docstring names the rules of spec/ it formalises, or the log entry where a clause is the model's own choice. -/

open Sys2Proof Sys2Proof.Machine

/-! ### Integer instructions (06_integer) -/

/-- Arithmetic on lanes and on uniform registers (06_integer R140, R141, R145, R146, R155): a, b and d are the values before the instruction,
sums, differences and products wrap, and only vD in the active lanes, or sD, is written. -/
def Obligations.IntegerArithmetic : Prop := ∀ s : State,
  (∀ x ∈ [(Instr.iadd, Instr.iaddU, fun a b : Word => BitVec.ofNat 32 (a.toNat + b.toNat)),
      (Instr.isub, Instr.isubU, fun a b => BitVec.ofInt 32 ((a.toNat : Int) - b.toNat)),
      (Instr.imul, Instr.imulU, fun a b => BitVec.ofNat 32 (a.toNat * b.toNat)),
      (Instr.imulhI32, Instr.imulhI32U, fun a b => BitVec.ofInt 32 (a.toInt * b.toInt / 2 ^ 32)),
      (Instr.imulhN32, Instr.imulhN32U, fun a b => BitVec.ofNat 32 (a.toNat * b.toNat / 2 ^ 32)),
      (Instr.iminI32, Instr.iminI32U, fun a b => if a.toInt ≤ b.toInt then a else b),
      (Instr.iminN32, Instr.iminN32U, fun a b => if a.toNat ≤ b.toNat then a else b),
      (Instr.imaxI32, Instr.imaxI32U, fun a b => if b.toInt ≤ a.toInt then a else b),
      (Instr.imaxN32, Instr.imaxN32U, fun a b => if b.toNat ≤ a.toNat then a else b)],
    (∀ d a b, Gives (x.1 d a b) s fun t => LaneResult s t d fun l => x.2.2 (s.v a l) (s.v b l)) ∧
    ∀ d a b, Gives (x.2.1 d a b) s fun t => UniformResult s t (one d (x.2.2 (s.u a) (s.u b)))) ∧
  (∀ d a b, Gives (.imad d a b) s fun t =>
    LaneResult s t d fun l => BitVec.ofNat 32 ((s.v a l).toNat * (s.v b l).toNat + (s.v d l).toNat)) ∧
  (∀ d a b, Gives (.imadU d a b) s fun t =>
    UniformResult s t (one d (BitVec.ofNat 32 ((s.u a).toNat * (s.u b).toNat + (s.u d).toNat)))) ∧
  (∀ d a, Gives (.iabs d a) s fun t => LaneResult s t d fun l => BitVec.ofNat 32 (s.v a l).toInt.natAbs) ∧
  (∀ d a, Gives (.iabsU d a) s fun t => UniformResult s t (one d (BitVec.ofNat 32 (s.u a).toInt.natAbs))) ∧
  (∀ d a, Gives (.ineg d a) s fun t => LaneResult s t d fun l => BitVec.ofInt 32 (-((s.v a l).toNat : Int))) ∧
  (∀ d a, Gives (.inegU d a) s fun t => UniformResult s t (one d (BitVec.ofInt 32 (-((s.u a).toNat : Int))))) ∧
  (∀ d a b, Gives (.lea d a b) s fun t =>
    LanePairResult s t d fun l => BitVec.ofInt 64 ((s.vv a l).toNat + (s.v b l).toInt)) ∧
  (∀ d a b, Gives (.leaU d a b) s fun t => UniformResult s t (pair d (BitVec.ofInt 64 ((s.uu a).toNat + (s.u b).toInt)))) ∧
  (∀ d a b, Gives (.iadd64 d a b) s fun t =>
    LanePairResult s t d fun l => BitVec.ofNat 64 ((s.vv a l).toNat + (s.vv b l).toNat)) ∧
  ∀ d a b, Gives (.iadd64U d a b) s fun t => UniformResult s t (pair d (BitVec.ofNat 64 ((s.uu a).toNat + (s.uu b).toNat)))

/-- Logic, shifts, counts, bit fields and interleaving on lanes and on uniform registers (06_integer R140, R141, R143, R148 to R150, R155). A count of 32
or more shifts out every bit, sar leaves copies of bit 31, and rot turns by the count modulo 32: bit i comes from bit i − c, modulo 32. POS is bits
7:0 and LEN bits 15:8 of the control, at most 32; a field that runs past bit 31 is cut there. STR is bits 1:0 and OFS bits 12:8 of the interleave
control. -/
def Obligations.LogicShiftsAndFields : Prop := (∀ s : State,
  (∀ x ∈ [(Instr.and, Instr.andU, fun (a b : Word) i => a.getLsbD i && b.getLsbD i),
      (Instr.or, Instr.orU, fun a b i => a.getLsbD i || b.getLsbD i),
      (Instr.xor, Instr.xorU, fun a b i => a.getLsbD i != b.getLsbD i),
      (Instr.andn, Instr.andnU, fun a b i => a.getLsbD i && !b.getLsbD i),
      (Instr.shl, Instr.shlU, fun a c i => decide (c.toNat ≤ i) && a.getLsbD (i - c.toNat)),
      (Instr.shr, Instr.shrU, fun a c i => a.getLsbD (i + c.toNat)),
      (Instr.sar, Instr.sarU, fun a c i => a.getLsbD (min (i + c.toNat) 31)),
      (Instr.rot, Instr.rotU, fun a c i => a.getLsbD ((i + (32 - c.toNat % 32)) % 32))],
    (∀ d a b, Gives (x.1 d a b) s fun t =>
      ∃ f, LaneResult s t d f ∧ ∀ l i, l < 32 → i < 32 → (f l).getLsbD i = x.2.2 (s.v a l) (s.v b l) i) ∧
    ∀ d a b, Gives (x.2.1 d a b) s fun t =>
      ∃ r, UniformResult s t (one d r) ∧ ∀ i, i < 32 → r.getLsbD i = x.2.2 (s.u a) (s.u b) i) ∧
  (∀ x ∈ [(Instr.clz, Instr.clzU, fun a : Word => ((List.range 32).takeWhile fun i => !a.getLsbD (31 - i)).length),
      (Instr.popc, Instr.popcU, fun a => ((List.range 32).filter fun i => a.getLsbD i).length),
      (Instr.brev, Instr.brevU, fun a => ((List.range 32).map fun i => if a.getLsbD i then 2 ^ (31 - i) else 0).sum)],
    (∀ d a, Gives (x.1 d a) s fun t => LaneResult s t d fun l => BitVec.ofNat 32 (x.2.2 (s.v a l))) ∧
    ∀ d a, Gives (x.2.1 d a) s fun t => UniformResult s t (one d (BitVec.ofNat 32 (x.2.2 (s.u a)))))) ∧
  ∀ s : State,
    let pos (b : Word) := b.toNat % 256
    let len (b : Word) := min (b.toNat / 256 % 256) 32
    let stride (b : Word) := b.toNat % 4 + 1
    let ofs (b : Word) := b.toNat / 256 % 32
    (∀ x ∈ [(Instr.bfeN32, Instr.bfeN32U, fun (a b : Word) i => decide (i < len b) && a.getLsbD (i + pos b)),
        (Instr.bfeI32, Instr.bfeI32U, fun a b i => decide (0 < len b) && a.getLsbD (min i (len b - 1) + pos b)),
        (Instr.bilv, Instr.bilvU, fun a b i => (List.range 32).any fun j => decide (stride b * j + ofs b = i) && a.getLsbD j),
        (Instr.bdlv, Instr.bdlvU, fun a b i => a.getLsbD (stride b * i + ofs b))],
      (∀ d a b, Gives (x.1 d a b) s fun t =>
        ∃ f, LaneResult s t d f ∧ ∀ l i, l < 32 → i < 32 → (f l).getLsbD i = x.2.2 (s.v a l) (s.v b l) i) ∧
      ∀ d a b, Gives (x.2.1 d a b) s fun t =>
        ∃ r, UniformResult s t (one d r) ∧ ∀ i, i < 32 → r.getLsbD i = x.2.2 (s.u a) (s.u b) i) ∧
    let bfi (d a b : Word) (i : Nat) := if pos b ≤ i ∧ i < pos b + len b then a.getLsbD (i - pos b) else d.getLsbD i
    (∀ d a b, Gives (.bfi d a b) s fun t =>
      ∃ f, LaneResult s t d f ∧ ∀ l i, l < 32 → i < 32 → (f l).getLsbD i = bfi (s.v d l) (s.v a l) (s.v b l) i) ∧
    ∀ d a b, Gives (.bfiU d a b) s fun t =>
      ∃ r, UniformResult s t (one d r) ∧ ∀ i, i < 32 → r.getLsbD i = bfi (s.u d) (s.u a) (s.u b) i

/-- Immediate forms (06_integer R151, R156; 02_encoding R29, R32): each gives what its register form gives with the immediate as b, which is the
short one, sign-extended for iadd and movi and zero-extended for the others, or the extension word's 32 bits as they stand. -/
def Obligations.Immediates : Prop := ∀ s : State,
  let signed {n} (i : Imm n) : Word := match i with | .short v => BitVec.ofInt 32 v.toInt | .long v => v
  let unsigned {n} (i : Imm n) : Word := match i with | .short v => BitVec.ofNat 32 v.toNat | .long v => v
  (∀ d i, Gives (.movi d i) s fun t => LaneResult s t d fun _ => signed i) ∧
  (∀ d i, Gives (.moviU d i) s fun t => UniformResult s t (one d (signed i))) ∧
  (∀ d a i, Gives (.iaddImm d a i) s fun t => LaneResult s t d fun l => BitVec.ofNat 32 ((s.v a l).toNat + (signed i).toNat)) ∧
  (∀ d a i, Gives (.iaddUimm d a i) s fun t => UniformResult s t (one d (BitVec.ofNat 32 ((s.u a).toNat + (signed i).toNat)))) ∧
  ∀ x ∈ [(Instr.andImm, Instr.andUimm, fun (a b : Word) i => a.getLsbD i && b.getLsbD i),
      (Instr.orImm, Instr.orUimm, fun a b i => a.getLsbD i || b.getLsbD i),
      (Instr.xorImm, Instr.xorUimm, fun a b i => a.getLsbD i != b.getLsbD i),
      (Instr.shlImm, Instr.shlUimm, fun a c i => decide (c.toNat ≤ i) && a.getLsbD (i - c.toNat)),
      (Instr.shrImm, Instr.shrUimm, fun a c i => a.getLsbD (i + c.toNat)),
      (Instr.sarImm, Instr.sarUimm, fun a c i => a.getLsbD (min (i + c.toNat) 31))],
    (∀ d a v, Gives (x.1 d a v) s fun t =>
      ∃ f, LaneResult s t d f ∧ ∀ l i, l < 32 → i < 32 → (f l).getLsbD i = x.2.2 (s.v a l) (unsigned v) i) ∧
    ∀ d a v, Gives (x.2.1 d a v) s fun t =>
      ∃ r, UniformResult s t (one d r) ∧ ∀ i, i < 32 → r.getLsbD i = x.2.2 (s.u a) (unsigned v) i

/-- Comparisons, selection, moves and the hash (06_integer R152 to R155; 02_encoding R44; 01_machine R15): eq and ne compare bits, .i32 conditions signed
and .n32 conditions unsigned values; movs gives each lane its number for %lane, the time and cycle count as pairs, and %warp is 32 where the
sequencer issues (13_matrix R288). -/
def Obligations.CompareSelectMove : Prop := (∀ s : State,
  let holds : ICond → Word → Word → Bool
    | .eq, a, b => decide (a = b)
    | .ne, a, b => decide (a ≠ b)
    | .ltI, a, b => decide (a.toInt < b.toInt)
    | .leI, a, b => decide (a.toInt ≤ b.toInt)
    | .gtI, a, b => decide (a.toInt > b.toInt)
    | .geI, a, b => decide (a.toInt ≥ b.toInt)
    | .ltN, a, b => decide (a.toNat < b.toNat)
    | .leN, a, b => decide (a.toNat ≤ b.toNat)
    | .gtN, a, b => decide (a.toNat > b.toNat)
    | .geN, a, b => decide (a.toNat ≥ b.toNat)
  (∀ k p a b, Gives (.icmp k p a b) s fun t => PredResult s t p fun l => holds k (s.v a l) (s.v b l)) ∧
  ∀ d a b k, Gives (.icmpU d a b k) s fun t => UniformResult s t (one d (if holds k (s.u a) (s.u b) then 1 else 0))) ∧
  ∀ s : State,
    let c := 32 * s.gang.stk + s.gang.core
    let cluster := 4 * (c / 32) + c % 16 / 4
    let wide (x : Special) (v : BitVec 64) : Prop := (x = .time ∧ v = s.pkg.time) ∨ (x = .cyc ∧ v = (s.core s.coreNo).cyc)
    let narrow (x : Special) (l : Nat) (v : Word) : Prop :=
      (x = .lane ∧ v = BitVec.ofNat 32 l) ∨ (x = .warp ∧ v = BitVec.ofNat 32 (if s.issue = .seq then 32 else s.me.w)) ∨
      (x = .gang ∧ v = BitVec.ofNat 32 s.gang.index) ∨ (x = .task ∧ v = BitVec.ofNat 32 s.gang.task) ∨
      (x = .core ∧ v = BitVec.ofNat 32 (if s.gang.yoked then s.gang.core % 16 else s.gang.core)) ∨
      (x = .stack ∧ v = BitVec.ofNat 32 s.gang.stk) ∨ (x = .cluster ∧ v = BitVec.ofNat 32 cluster) ∨
      (x = .plvl ∧ v = BitVec.ofNat 32 (s.clu cluster).cur)
    let mix (a b : Word) : Word :=
      let x := a.toNat ^^^ (b.toNat * 0x9E3B71A5 % 2 ^ 32)
      let x := (x + 0x3C6EF372) % 2 ^ 32
      let x := x ^^^ (x / 2 ^ 16)
      let x := x * 0x6A5D39C3 % 2 ^ 32
      let x := x ^^^ (x / 2 ^ 15)
      let x := x * 0xB45F2E1B % 2 ^ 32
      BitVec.ofNat 32 (x ^^^ (x / 2 ^ 16))
    (∀ d a b p, Gives (.sel d a b p) s fun t => LaneResult s t d fun l => if s.p p l = true then s.v a l else s.v b l) ∧
    (∀ d a, Gives (.mov d a) s fun t => LaneResult s t d fun l => s.v a l) ∧
    (∀ d a, Gives (.movU d a) s fun t => UniformResult s t (one d (s.u a))) ∧
    (∀ d x, Gives (.movs d x) s fun t => (∃ f, LaneResult s t d f ∧ ∀ l, narrow x l (f l)) ∨ ∃ v, wide x v ∧ LanePairResult s t d fun _ => v) ∧
    (∀ d x, x ≠ .lane → Gives (.movsU d x) s fun t =>
      (∃ v, narrow x 0 v ∧ UniformResult s t (one d v)) ∨ ∃ v, wide x v ∧ UniformResult s t (pair d v)) ∧
    (∀ d a b, Gives (.mix32 d a b) s fun t => LaneResult s t d fun l => mix (s.v a l) (s.v b l)) ∧
    ∀ d a b, Gives (.mix32U d a b) s fun t => UniformResult s t (one d (mix (s.u a) (s.u b)))

/-- Votes, shuffles and copies over the active lanes (06_integer R157, R160): a lane that names a lane that is not active gets its own value, and
lanes outside the mask are neither read nor written. -/
def Obligations.CrossLane : Prop := ∀ s : State,
  let from_ (a : BitVec 7) (j l : Nat) : Word := if s.act j = true then s.v a j else s.v a l
  (∀ d a, Gives (.voteAny d a) s fun t =>
    ∃ r, PredResult s t d (fun _ => r) ∧ (r = true ↔ ∃ l, l < 32 ∧ s.act l = true ∧ s.p a l = true)) ∧
  (∀ d a, Gives (.voteAll d a) s fun t =>
    ∃ r, PredResult s t d (fun _ => r) ∧ (r = true ↔ ∀ l, l < 32 → s.act l = true → s.p a l = true)) ∧
  (∀ d a, Gives (.voteBall d a) s fun t =>
    ∃ m : Word, (LaneResult s t d fun _ => m) ∧ ∀ l, l < 32 → m.getLsbD l = (s.act l && s.p a l)) ∧
  (∀ d a b, Gives (.shfl d a b) s fun t => LaneResult s t d fun l => from_ a ((s.v b l).toNat % 32) l) ∧
  (∀ d a u, Gives (.lbcast d a u) s fun t => LaneResult s t d fun l => from_ a ((s.u u).toNat % 32) l) ∧
  (∀ d u, Gives (.s2v d u) s fun t => LaneResult s t d fun _ => s.u u) ∧
  ∀ a u l, l < 32 → s.act l = true → (∀ m, m < l → s.act m = false) → Gives (.v2s a u) s fun t => UniformResult s t (one u (s.v a l))

/-- Reductions and scans (06_integer R160). For the active lanes in order, l₀ < l₁ < …, a reduction gives every one of them
op(… op(vA of l₀, vA of l₁) …), and a scan gives lane l the same over those of its segment: from the last active lane at or below l whose
head holds, or from l₀ where there is none. -/
def Obligations.ReduceAndScan : Prop := ∀ s : State,
  let signed (f : Int → Int → Bool) (a b : Word) : Word := if f a.toInt b.toInt then a else b
  let fold (op : Word → Word → Word) (a : BitVec 7) (ls : List Nat) : Word :=
    match ls.map (s.v a) with
    | [] => 0
    | x :: xs => xs.foldl op x
  let active := (List.range 32).filter fun l => s.me.cur.mask.getLsbD l
  let segment (n : Bool) (p : BitVec 3) (l : Nat) : List Nat :=
    active.filter fun m => decide (m ≤ l ∧ ∀ k ∈ active, m < k → k ≤ l → s.p p k = n)
  ∀ x ∈ [(Instr.lredAdd, Instr.lscanAdd, fun a b : Word => BitVec.ofNat 32 (a.toNat + b.toNat)),
      (Instr.lredAnd, Instr.lscanAnd, fun a b => a &&& b),
      (Instr.lredOr, Instr.lscanOr, fun a b => a ||| b),
      (Instr.lredXor, Instr.lscanXor, fun a b => a ^^^ b),
      (Instr.lredMinI32, Instr.lscanMinI32, signed fun a b => decide (a ≤ b)),
      (Instr.lredMaxI32, Instr.lscanMaxI32, signed fun a b => decide (b ≤ a))],
    (∀ d a, Gives (x.1 d a) s fun t => LaneResult s t d fun _ => fold x.2.2 a active) ∧
    ∀ d a n p, Gives (x.2.1 d a n p) s fun t => LaneResult s t d fun l => fold x.2.2 a (segment n p l)

/-! ### Floating point (07_numbers) -/

/-- Sums, products and fused sums of FP32 values and of pairs of 16-bit ones (07_numbers R169 to R176, R181): NaN results are canonical, the
exact rational result is rounded once in the mode the form names, and the flags of active lanes are set, never cleared. -/
def Obligations.FloatArithmetic : Prop := ∀ s : State,
  let val (a : BitVec 7) (l : Nat) := fmtF32.decode (s.v a l).toNat
  let half (f : Fmt) (a : BitVec 7) (l i : Nat) := f.decode ((s.v a l).toNat / 2 ^ (16 * i) % 2 ^ 16)
  let both (P : Nat → FRes → Prop) (r : FRes) : Prop := ∃ lo hi, P 0 lo ∧ P 1 hi ∧ r = ⟨lo.bits + 2 ^ 16 * hi.bits, lo.fl ||| hi.fl⟩
  (∀ d a b r, Gives (.fadd d a b r) s fun t =>
    ∃ f, FloatResult s t d f ∧ ∀ l, l < 32 → SumOf fmtF32 r (val a l) (val b l) (f l)) ∧
  (∀ d a b, Gives (.fsub d a b) s fun t =>
    ∃ f, FloatResult s t d f ∧ ∀ l, l < 32 → SumOf fmtF32 .ne (val a l) (val b l).neg (f l)) ∧
  (∀ d a b r, Gives (.fmul d a b r) s fun t =>
    ∃ f, FloatResult s t d f ∧ ∀ l, l < 32 → ProductOf fmtF32 r (val a l) (val b l) (f l)) ∧
  (∀ d a b r, Gives (.ffma d a b r) s fun t =>
    ∃ f, FloatResult s t d f ∧ ∀ l, l < 32 → FusedOf fmtF32 r (val a l) (val b l) (val d l) (f l)) ∧
  ∀ x ∈ [(fmtF16, Instr.hadd2F16, Instr.hmul2F16, Instr.hfma2F16), (fmtBf16, Instr.hadd2Bf16, Instr.hmul2Bf16, Instr.hfma2Bf16)],
    (∀ d a b, Gives (x.2.1 d a b) s fun t => ∃ f, FloatResult s t d f ∧
      ∀ l, l < 32 → both (fun i => SumOf x.1 .ne (half x.1 a l i) (half x.1 b l i)) (f l)) ∧
    (∀ d a b, Gives (x.2.2.1 d a b) s fun t => ∃ f, FloatResult s t d f ∧
      ∀ l, l < 32 → both (fun i => ProductOf x.1 .ne (half x.1 a l i) (half x.1 b l i)) (f l)) ∧
    ∀ d a b, Gives (x.2.2.2 d a b) s fun t => ∃ f, FloatResult s t d f ∧
      ∀ l, l < 32 → both (fun i => FusedOf x.1 .ne (half x.1 a l i) (half x.1 b l i) (half x.1 d l i)) (f l)

/-- The lesser, the greater, comparisons, classes, the flags' own readers and rounding to integral (07_numbers R171, R173, R175, R178 to R180). A
NaN is a magnitude above 0x7F800000, signalling where bit 22 is 0; values order as their signs and magnitudes, −0 equal to +0, but for fmin and
fmax below it. -/
def Obligations.FloatCompare : Prop := ∀ s : State,
  let mag (x : Word) : Nat := x.toNat % 2 ^ 31
  let nan (x : Word) : Bool := decide (0x7F800000 < mag x)
  let snan (x : Word) : Bool := nan x && !x.getLsbD 22
  let value (x : Word) : Int := if x.getLsbD 31 then -(mag x : Int) else mag x
  let below (x y : Word) : Prop := value x < value y ∨ (value x = value y ∧ (x = y ∨ x.getLsbD 31 = true))
  let nv (b : Bool) : Flags := if b then flagNV else 0
  (∀ x ∈ [(Instr.fmin, below), (Instr.fmax, fun x y => below y x)], ∀ d a b, Gives (x.1 d a b) s fun t =>
    ∃ f, FloatResult s t d f ∧ ∀ l, l < 32 →
      let a := s.v a l
      let b := s.v b l
      (f l).fl = nv (snan a || snan b) ∧
      (nan a = true → nan b = true → (f l).bits = 0x7FC00000) ∧
      (nan a = true → nan b = false → (f l).bits = b.toNat) ∧ (nan a = false → nan b = true → (f l).bits = a.toNat) ∧
      (nan a = false → nan b = false → ((f l).bits = a.toNat ∧ x.2 a b) ∨ ((f l).bits = b.toNat ∧ x.2 b a))) ∧
  (∀ k p a b, Gives (.fcmp k p a b) s fun t =>
    (∀ n, (t.me.regs.getP n) = ((s.setP p fun l =>
      let a := s.v a l
      let b := s.v b l
      let un := nan a || nan b
      match k with
      | .eq => !un && decide (value a = value b)
      | .ne => un || decide (value a ≠ value b)
      | .lt => !un && decide (value a < value b)
      | .le => !un && decide (value a ≤ value b)
      | .gt => !un && decide (value a > value b)
      | .ge => !un && decide (value a ≥ value b)
      | .un => un
      | .ord => !un).me.regs.getP n)) ∧
    (∀ l, l < 32 → t.me.regs.getF l = if s.act l = true then s.me.regs.getF l |||
      nv (if k = .lt ∨ k = .le ∨ k = .gt ∨ k = .ge then nan (s.v a l) || nan (s.v b l) else snan (s.v a l) || snan (s.v b l)) else s.me.regs.getF l) ∧
    OnlyRegs s t ∧ t.me.regs = { s.me.regs with p := t.me.regs.p, flags := t.me.regs.flags }) ∧
  (∀ d a, Gives (.fclass d a) s fun t => LaneResult s t d fun l =>
    let x := s.v a l
    BitVec.ofNat 32 (2 ^ (if snan x then 0 else if nan x then 1 else
      let c := if mag x = 0x7F800000 then 2 else if 0x800000 ≤ mag x then 3 else if mag x ≠ 0 then 4 else 5
      if x.getLsbD 31 then c else 11 - c))) ∧
  (∀ d, Gives (.fclassFlg d) s fun t => LaneResult s t d fun l => BitVec.ofNat 32 (s.me.regs.getF l).toNat) ∧
  (∀ d, Gives (.fclassFlgclr d) s fun t =>
    OnlyRegs s t ∧ t.me.regs = { s.me.regs with v := t.me.regs.v, flags := t.me.regs.flags } ∧
    (∀ n l, l < 32 → t.me.regs.getV n l =
      if n = d.toNat ∧ s.act l = true then BitVec.ofNat 32 (s.me.regs.getF l).toNat else s.me.regs.getV n l) ∧
    ∀ l, l < 32 → t.me.regs.getF l = if s.act l = true then 0 else s.me.regs.getF l) ∧
  ∀ x ∈ [(Instr.frnd, RoundMode.ne), (Instr.frndRz, .z), (Instr.frndRd, .d), (Instr.frndRu, .u)], ∀ d a, Gives (x.1 d a) s fun t =>
    ∃ f, FloatResult s t d f ∧ ∀ l, l < 32 →
      let v := s.v a l
      if nan v = true then f l = ⟨0x7FC00000, nv (snan v)⟩
      else if mag v = 0 ∨ mag v = 0x7F800000 then f l = ⟨v.toNat, 0⟩
      else ∃ n m e i k, fmtF32.decode v.toNat = .fin n m e ∧ (f l).fl = 0 ∧ fmtF32.decode (f l).bits = .fin n i k ∧
        ratOf n i k = roundInt x.2 (ratOf n m e)

/-- Special functions (07_numbers R182, R183): the table of special operands, rounding once to nearest of the exact quotient and roots, and the
exact cases: exp2 of whole numbers, log2 of powers of two, sin and cos of multiples of a half. A value whose magnitude lies above 0x7F800000 is
a NaN, signalling where bit 22 is 0. -/
def Obligations.SpecialFunctions : Prop := ∀ s : State,
  let nan (x : Word) : Bool := decide (0x7F800000 < x.toNat % 2 ^ 31)
  let isNan (nv : Bool) : FRes := fmtF32.nanRes nv
  let inf (neg : Bool) (fl : Flags) : FRes := ⟨fmtF32.infBits neg, fl⟩
  let zero (neg : Bool) : FRes := fmtF32.zeroRes neg
  let one : FRes := ⟨0x3F800000, 0⟩
  -- for −∞, −0, +0 and +∞, and whether a value below 0 is invalid
  let table (x : Instr) (d a : BitVec 7) (mInf mZero zero inf : FRes) (neg : Bool) (P : Bool → Nat → Int → FRes → Prop) : Prop :=
    Gives x s fun t => ∃ f, FloatResult s t d f ∧ ∀ l, l < 32 →
      let v := s.v a l
      if nan v = true then f l = isNan (!v.getLsbD 22)
      else if v = 0xFF800000 then f l = mInf else if v = 0x80000000 then f l = mZero else if v = 0 then f l = zero
      else if v = 0x7F800000 then f l = inf
      else if neg = true ∧ v.getLsbD 31 = true then f l = isNan true
      else ∃ n m e, m ≠ 0 ∧ fmtF32.decode v.toNat = .fin n m e ∧ P n m e (f l)
  (∀ d a, table (.rcp d a) d a (zero true) (inf true flagDZ) (inf false flagDZ) (zero false) false fun n m e r =>
    Rounds fmtF32 .ne (1 / ratOf n m e) r) ∧
  (∀ d a, table (.sqrt d a) d a (isNan true) (zero true) (zero false) (inf false 0) true fun n m e r =>
    Rounds fmtF32 .ne (Real.sqrt (valueOf ℝ n m e)) r) ∧
  (∀ d a, table (.rsq d a) d a (isNan true) (inf true flagDZ) (inf false flagDZ) (zero false) true fun n m e r =>
    Rounds fmtF32 .ne (1 / Real.sqrt (valueOf ℝ n m e)) r) ∧
  (∀ d a, table (.exp2 d a) d a (zero false) one one (inf false 0) false fun n m e r =>
    ∀ k : Int, ratOf n m e = k → Rounds fmtF32 .ne ((2 : ℚ) ^ k) r) ∧
  (∀ d a, table (.log2 d a) d a (isNan true) (inf true flagDZ) (inf true flagDZ) (inf false 0) true fun n m e r =>
    ∀ k : Int, ratOf n m e = (2 : ℚ) ^ k → if k = 0 then r = zero false else Rounds fmtF32 .ne (k : ℚ) r) ∧
  (∀ d a, table (.sin d a) d a (isNan true) (zero true) (zero false) (isNan true) false fun n m e r =>
    (∀ k : Int, ratOf n m e = k → r = zero n) ∧ ∀ k : Int, ratOf n m e = k + 1 / 2 → Rounds fmtF32 .ne (if k % 2 = 0 then (1 : ℚ) else -1) r) ∧
  ∀ d a, table (.cos d a) d a (isNan true) one one (isNan true) false fun n m e r =>
    (∀ k : Int, ratOf n m e = k → Rounds fmtF32 .ne (if k % 2 = 0 then (1 : ℚ) else -1) r) ∧ ∀ k : Int, ratOf n m e = k + 1 / 2 → r = zero false

/-- Conversions (07_numbers R165, R168, R184, R185): NaN to an integer is 0 with NV; an integer saturates with ST and sets NX where rounding
changed the value; a result above the largest E4M3 value is ±448 with ST, or 0x7F with OF under .nosat. -/
def Obligations.Conversions : Prop := ∀ (s : State) d a dty sty mode ns,
  let width : CvtTy → Nat
    | .i64 | .n64 => 64 | .f32 | .i32 | .n32 => 32 | .f16 | .bf16 | .i16 | .n16 => 16 | .e4m3 | .i8 | .n8 => 8 | .i4 => 4 | .i2 => 2
  let signed (t : CvtTy) : Bool := decide (t ≠ .n32 ∧ t ≠ .n16 ∧ t ≠ .n8 ∧ t ≠ .n64)
  let fmt : CvtTy → Option Fmt
    | .f32 => some fmtF32 | .f16 => some fmtF16 | .bf16 => some fmtBf16 | .e4m3 => some fmtE4m3 | _ => none
  let wide (t : CvtTy) : Bool := decide (width t = 64)
  let source (l : Nat) : FVal :=
    let x := (if wide sty then (s.vv a l).toNat else (s.v a l).toNat) % 2 ^ width sty
    match fmt sty with
    | some f => f.decode x
    | none =>
      let y : Int := if signed sty then (BitVec.ofNat (width sty) x).toInt else x
      .fin (decide (y < 0)) y.natAbs 0
  let toInt (v : FVal) (r : FRes) : Prop :=
    let lo : Int := if signed dty then -2 ^ (width dty - 1) else 0
    let hi : Int := if signed dty then 2 ^ (width dty - 1) - 1 else 2 ^ width dty - 1
    match v with
    | .nan _ => r = ⟨0, flagNV⟩
    | .inf n => r = ⟨(BitVec.ofInt 64 (if n then lo else hi)).toNat, flagST⟩
    | .fin n m e =>
      let y := roundInt mode (ratOf n m e)
      r = ⟨(BitVec.ofInt 64 (max lo (min hi y))).toNat, (if y < lo ∨ hi < y then flagST else 0) ||| (if (y : ℚ) = ratOf n m e then 0 else flagNX)⟩
  let toFloat (f : Fmt) (v : FVal) (r : FRes) : Prop :=
    let beyond (neg finite : Bool) : FRes :=
      if ns then ⟨0x7F, if finite then flagOF ||| flagNX else flagOF⟩
      else ⟨if neg then 0xFE else 0x7E, if finite then flagST ||| flagNX else flagST⟩
    match v with
    | .nan sig => r = f.nanRes sig
    | .inf n => r = if dty = .e4m3 then beyond n false else ⟨f.infBits n, 0⟩
    | .fin n m e =>
      if m = 0 then r = f.zeroRes n
      else if dty = .e4m3 then RoundsTo f mode (ratOf n m e) (beyond n true) r
      else Rounds f mode (ratOf n m e) r
  Gives (.cvt d a dty sty mode ns) s fun t => ∃ g : Nat → FRes,
    (∀ l, l < 32 → match fmt dty with
      | some f => toFloat f (source l) (g l)
      | none => toInt (source l) (g l)) ∧
    OnlyRegs s t ∧ t.me.regs = { s.me.regs with v := t.me.regs.v, flags := t.me.regs.flags } ∧
    (∀ n l, l < 32 → t.me.regs.getV n l =
      if n = d.toNat ∧ s.act l = true then BitVec.ofNat 32 (g l).bits
      else if wide dty = true ∧ n = d.toNat + 1 ∧ s.act l = true then BitVec.ofNat 32 ((g l).bits / 2 ^ 32)
      else s.me.regs.getV n l) ∧
    ∀ l, l < 32 → t.me.regs.getF l = if s.act l = true then s.me.regs.getF l ||| (g l).fl else s.me.regs.getF l

/-- Block scaling and packing (07_numbers R187 to R190). qhist counts biased exponents above BASE into bins of 32 lanes, or of each half; qscale
takes the least bin with at most the allowed count above it; qpack rounds to E2M1 nibbles of the lane's scale, or reads one back. -/
def Obligations.Quantisation : Prop := ∀ s : State,
  let ctl (b : BitVec 7) : Nat := (s.v b s.first).toNat
  let seg (b : BitVec 7) : Bool := (ctl b).testBit 9
  let bins (b : BitVec 7) : Nat := if seg b then 16 else 32
  let part (b : BitVec 7) (l : Nat) : Nat := if seg b then l / 16 else 0
  let counted (x : Word) : Bool := decide (x.toNat % 2 ^ 31 ≠ 0 ∧ x.toNat % 2 ^ 31 ≤ 0x7F800000)
  let bin (b : BitVec 7) (x : Word) : Nat := (max 0 (min ((x.toNat / 2 ^ 23 % 256 : Int) - (ctl b % 256 : Nat)) (bins b - 1))).toNat
  (∀ d a b, Gives (.qhist d a b) s fun t => LaneResult s t d fun j =>
    BitVec.ofNat 32 ((s.v d j).toNat + ((List.range 32).filter fun l =>
      s.act l && counted (s.v a l) && decide (part b l = part b j) && decide (bin b (s.v a l) = j % bins b)).length)) ∧
  (∀ d a b, Gives (.qscale d a b) s fun t => ∃ code : Nat → Nat, (LaneResult s t d fun l => BitVec.ofNat 32 (code (part b l))) ∧
    ∀ h, h < 32 / bins b →
      let c (k : Nat) : Nat := if s.act (16 * h + k) = true then (s.v a (16 * h + k)).toNat else 0
      let tot := ((List.range (bins b)).map c).sum
      let allow := tot * (65535 - ctl b / 2 ^ 16) / 65536
      let above (j : Nat) : Nat := (((List.range (bins b)).filter fun k => decide (j < k)).map c).sum
      if tot = 0 then code h = 127
      else ∃ j, j < bins b ∧ above j ≤ allow ∧ (∀ k, k < j → allow < above k) ∧
        (code h : Int) = max 0 (min 254 ((max (ctl b % 256 + j) 1 : Nat) - (if (ctl b).testBit 8 then 2 else 8 : Int)))) ∧
  ∀ d a b,
    let scale (l : Nat) : Int := ((s.v b l).toNat % 256 : Nat)
    ((ctl b).testBit 8 = false → Gives (.qpack d a b) s fun t => ∃ nib : Nat → FRes,
      OnlyRegs s t ∧ t.me.regs = { s.me.regs with v := t.me.regs.v, flags := t.me.regs.flags } ∧
      (∀ n l, l < 32 → t.me.regs.getV n l = if n = d.toNat ∧ s.act l = true then
        BitVec.ofNat 32 (((List.range 8).map fun i => if s.act (l / 8 * 8 + i) = true then (nib (l / 8 * 8 + i)).bits * 16 ^ i else 0).sum)
        else s.me.regs.getV n l) ∧
      (∀ l, l < 32 → t.me.regs.getF l = if s.act l = true then s.me.regs.getF l ||| (nib l).fl else s.me.regs.getF l) ∧
      ∀ l, l < 32 → match fmtF32.decode (s.v a l).toNat with
        | .nan _ => nib l = ⟨0, flagNV⟩
        | .inf n => nib l = if scale l = 255 then ⟨0, flagNV⟩ else ⟨if n then 15 else 7, flagST⟩
        | .fin n m e => if scale l = 255 then nib l = ⟨0, flagNV⟩ else if m = 0 then nib l = ⟨if n then 8 else 0, 0⟩
          else RoundsTo fmtE2m1 .ne (ratOf n m (e - (scale l - 127))) ⟨if n then 15 else 7, flagST ||| flagNX⟩ (nib l)) ∧
    ((ctl b).testBit 8 = true → Gives (.qpack d a b) s fun t => ∃ f, FloatResult s t d f ∧ ∀ l, l < 32 →
      if scale l = 255 then f l = ⟨0x7FC00000, 0⟩
      else ∃ n m e, fmtE2m1.decode ((s.v a l).toNat / 16 ^ (l % 8) % 16) = .fin n m e ∧
        if m = 0 then f l = fmtF32.zeroRes n else Rounds fmtF32 .ne (ratOf n m (e + (scale l - 127))) (f l))

/-! ### Control flow (04_control) -/

/-- Branches (04_control R97, R99, R100, R102, R103; 02_encoding R30, R42): bra sends each active lane to the target where its predicate, inverted
by N, holds and to the next chain group elsewhere; brp moves the whole path; brx sends lanes by their own targets, after both checks of every
one; in a matrix stream bra jumps. That a target below 0 or at or above 2^48 wraps to 48 bits is the model's choice (log 45). -/
def Obligations.Branches : Prop := ∀ s : State,
  let target (t : BitVec 20) : BitVec 48 := BitVec.ofInt 48 (s.here.pc.toNat + 12 * t.toInt)
  let next : Place := (s.here.npc, s.here.nwpos)
  (s.issue = .lane → s.me.cur.st = .ready → s.me.trc.on = false →
    (∀ p n t, Gives (.bra p n t) s fun u => OnlyPaths s u ∧ LanesGo s u fun l => if s.p p l = (!n) then (target t, 0) else next) ∧
    (∀ p n t, 
      let taken : Prop := ∃ l, l < 32 ∧ s.act l = true ∧ s.p p l = (!n)
      Gives (.brp p n t) s fun u => u = { s with me := { s.me with cur := u.me.cur } } ∧
        (taken → u.me.cur = { s.me.cur with pc := target t, wpos := 0 }) ∧ (¬ taken → u.me.cur = { s.me.cur with pc := next.1, wpos := next.2 })) ∧
    ∀ a b,
      let tgt (l : Nat) : Nat := ((s.uu b).toNat + 12 * (s.v a l).toNat) % 2 ^ 64
      ((∀ l, l < 32 → s.act l = true → tgt l % 12 = 0 ∧ tgt l < 2 ^ 48) →
        Gives (.brx a b) s fun u => OnlyPaths s u ∧ LanesGo s u fun l => (BitVec.ofNat 48 (tgt l), 0)) ∧
      ((∃ l, l < 32 ∧ s.act l = true ∧ tgt l % 12 ≠ 0) → exec (.brx a b) s = .next (s.trap 0 9 (BitVec.ofNat 64 s.here.word))) ∧
      ((∀ l, l < 32 → s.act l = true → tgt l % 12 = 0) →
        ∀ l, l < 32 → s.act l = true → 2 ^ 48 ≤ tgt l → (∀ m, m < l → s.act m = true → tgt m < 2 ^ 48) →
        exec (.brx a b) s = .next (s.progErr 0x0403 (BitVec.ofNat 64 (tgt l))))) ∧
  (s.issue = .seq → ∀ p n t, Gives (.bra p n t) s fun u =>
    u = { s with gang := { s.gang with seq := { s.gang.seq with pc := target t, wpos := 0 } } })

/-- Calls and returns (04_control R103 to R106): a taking lane's slot of its return depth takes the next packet's address, little-endian in its
stack, and its depth rises; ret takes the address back and lowers the depth; a depth of 64, or of 0, in any such lane is a program error that
moves nothing; every other register and byte of memory is as before. The slots lie in the warp's own stacks, and targets wrap to 48 bits, by the
model's choice (logs 2, 45). -/
def Obligations.CallsAndReturns : Prop := ∀ s : State, s.issue = .lane → s.me.cur.st = .ready → s.me.trc.on = false →
  let depth (l : Nat) : Nat := s.me.regs.getD l
  let slot (l d : Nat) : Nat := s.me.stackAt l (8 * d)
  let sameAccs (u : State) : Prop := u.accs.map (fun a => { a with heirs := [] }) = s.accs.map fun a => { a with heirs := [] }
  let pushed (taking : Nat → Bool) (u : State) : Prop :=
    u = { s with
      me := { s.me with cur := u.me.cur, paths := u.me.paths, overflow := u.me.overflow, regs := { s.me.regs with rdep := u.me.regs.rdep } }
      mem := u.mem, journal := u.journal, accs := u.accs } ∧ sameAccs u ∧
    (∀ l, l < 32 → u.me.regs.getD l = if s.act l && taking l then depth l + 1 else depth l) ∧
    (∀ l, l < 32 → (s.act l && taking l) = true → u.rd (slot l (depth l)) 8 = (s.here.pc.toNat + 12) % 2 ^ 64) ∧
    ∀ k, (∀ l, l < 32 → (s.act l && taking l) = true → ¬ (slot l (depth l) ≤ k ∧ k < slot l (depth l) + 8)) → u.byte k = s.byte k
  (∀ p n t,
    let taking (l : Nat) : Bool := s.p p l != n
    ((∃ l, l < 32 ∧ s.act l = true ∧ taking l = true ∧ depth l = 64) → exec (.call p n t) s = .next (s.progErr 0x0401 0)) ∧
    ((∀ l, l < 32 → s.act l = true → taking l = true → depth l < 64) → Gives (.call p n t) s fun u => pushed taking u ∧
      LanesGo s u fun l => if taking l = true then (BitVec.ofInt 48 (s.here.pc.toNat + 12 * t.toInt), 0) else (s.here.npc, s.here.nwpos))) ∧
  (∀ a b,
    let tgt (l : Nat) : Nat := ((s.uu b).toNat + 12 * (s.v a l).toNat) % 2 ^ 64
    (∀ l, l < 32 → s.act l = true → tgt l % 12 = 0 ∧ tgt l < 2 ^ 48) →
    ((∃ l, l < 32 ∧ s.act l = true ∧ depth l = 64) → exec (.callx a b) s = .next (s.progErr 0x0401 0)) ∧
    ((∀ l, l < 32 → s.act l = true → depth l < 64) → Gives (.callx a b) s fun u => pushed (fun _ => true) u ∧
      LanesGo s u fun l => (BitVec.ofNat 48 (tgt l), 0))) ∧
  ((∃ l, l < 32 ∧ s.act l = true ∧ depth l = 0) → exec .ret s = .next (s.progErr 0x0402 0)) ∧
  ((∀ l, l < 32 → s.act l = true → 0 < depth l ∧ depth l ≤ 64) →
    let tgt (l : Nat) : Nat := s.rd (slot l (depth l - 1)) 8
    ((∃ l, l < 32 ∧ s.act l = true ∧ tgt l % 12 ≠ 0) → exec .ret s = .next (s.trap 0 9 (BitVec.ofNat 64 s.here.word))) ∧
    ((∀ l, l < 32 → s.act l = true → tgt l % 12 = 0 ∧ tgt l < 2 ^ 48) → Gives .ret s fun u =>
      u = { s with
        me := { s.me with cur := u.me.cur, paths := u.me.paths, overflow := u.me.overflow, regs := { s.me.regs with rdep := u.me.regs.rdep } }
        accs := u.accs } ∧ sameAccs u ∧
      (∀ l, l < 32 → u.me.regs.getD l = if s.act l then depth l - 1 else depth l) ∧ LanesGo s u fun l => (BitVec.ofNat 48 (tgt l), 0)))

/-- join, exit, nop and pyield (04_control R107, R108, R110 to R112; 03_tasks R76, R77), of an untraced warp with no handler path and no pre-emption:
the only live path goes on after its join at once; beside a path that is not in JOIN it stays in JOIN, and merges with one in JOIN at its own place;
where all are in JOIN, after a join or an exit, the one at the lowest place goes on; exit ends the path, and the last path of a warp takes the warp out
of its groups as an arrival that is its last, once none of its events is outstanding, and the last warp takes the gang with it. -/
def Obligations.JoinAndExit : Prop := ∀ s : State,
  Gives .nop s (· = s) ∧
  (Gives .pyield s fun t => t = { s with me := { s.me with issued := s.sys.seq + 1, cur := { s.me.cur with issued := s.sys.seq + 1 } } }) ∧
  (s.me.trc.on = false → s.me.exited = false → s.me.pre.st = .run → s.me.cur.mask ≠ 0 → s.me.cur.st = .ready →
    (∀ p ∈ s.me.cur :: s.me.paths, p.mask ≠ 0 ∧ p.hmode = .none) →
    let waits (p : Path) : Prop := p.st = .ready ∨ (∃ k, p.st = .parked k) ∨ (∃ j, p.st = .stopped j) ∨ ∃ w, p.st = .held w
    let calm (p : Path) : Prop := p.st ≠ .held .trapBusy ∧ p.kept = none
    let joined : Path := { s.me.cur with pc := s.here.pc, wpos := s.here.wpos, st := .join s.here.npc s.here.nwpos }
    let below (p q : Path) : Prop := p.pc < q.pc ∨ (p.pc = q.pc ∧ p.wpos < q.wpos)
    let lowest (r : Path) (ps : List Path) : Prop := r ∈ ps ∧ ∀ p ∈ ps, p ≠ r → below r p ∧ p.id ≠ r.id
    let go (r : Path) (a : BitVec 48) (b : Nat) (p : Path) : Path := if p.id = r.id then { p with st := .ready, pc := a, wpos := b } else p
    (s.me.paths = [] → Gives .join s fun t =>
      t = { s with me := { s.me with cur := { s.me.cur with pc := s.here.npc, wpos := s.here.nwpos, st := .ready } } }) ∧
    ((∀ p ∈ s.me.paths, calm p) → (∃ p ∈ s.me.paths, waits p) →
      (∀ p ∈ s.me.paths, ∀ a b, p.st = .join a b → (p.pc, p.wpos) ≠ (s.here.pc, s.here.wpos)) →
      Gives .join s fun t => t = { s with me := { s.me with cur := joined } }) ∧
    (∀ q, s.me.cur.id ≠ q.id → s.me.paths.Nodup → (∀ p ∈ s.me.paths, calm p) → (∃ p ∈ s.me.paths, p.id ≠ q.id ∧ waits p) →
      (s.me.paths.find? fun p => decide (p.pc = s.here.pc ∧ p.wpos = s.here.wpos) && (match p.st with | .join _ _ => true | _ => false)) = some q →
      Gives .join s fun t => OnlyPaths s t ∧ t.me.cur.id = min s.me.cur.id q.id ∧ t.me.cur.mask = s.me.cur.mask ||| q.mask ∧
        (∃ a b, t.me.cur.st = .join a b) ∧ t.me.cur.pc = s.here.pc ∧ t.me.paths = s.me.paths.filter fun p => p.id ≠ q.id) ∧
    ((∀ p ∈ s.me.paths, ∃ a b, p.st = .join a b ∧ (p.pc, p.wpos) ≠ (s.here.pc, s.here.wpos)) →
      ∀ r a b, lowest r (joined :: s.me.paths) → r.st = .join a b → Gives .join s fun t =>
        t = { s with me := { s.me with cur := go r a b joined, paths := s.me.paths.map (go r a b) } }) ∧
    ((∀ p ∈ s.me.paths, p.mask &&& s.me.cur.mask = 0 ∧ calm p) → (∃ p ∈ s.me.paths, waits p) →
      Gives .exit s fun t => OnlyPaths s t ∧ t.me.cur.mask = 0 ∧ t.me.paths = s.me.paths) ∧
    ((∀ p ∈ s.me.paths, p.mask &&& s.me.cur.mask = 0 ∧ ∃ a b, p.st = .join a b) →
      ∀ r a b, lowest r s.me.paths → r.st = .join a b → Gives .exit s fun t =>
        OnlyPaths s t ∧ t.me.cur.mask = 0 ∧ t.me.paths = s.me.paths.map (go r a b)) ∧
    (s.me.paths = [] → (∀ x ∈ s.warps, ∀ p ∈ x.cur :: x.paths, ∀ a b c d e, p.st ≠ .held (.regroup a b c d e)) →
      ∀ i g G, s.inst? s.gang.inst = some i → i.groups = [(g, G)] →
        let m := 32 * s.gang.index + s.me.w
        let aphase := smPut 0 G.aphase m G.phase
        m ∈ G.members → m ∉ G.arrived → m ∉ G.gone → s.outstanding s.me.gid s.me.w = false →
        Gives .exit s fun t => t.me.exited = true ∧ ∃ j, t.inst? s.gang.inst = some j ∧ j.group g =
          if G.arrived.length + 1 = G.members.length then
            { members := G.members.filter fun x => x ≠ m ∧ x ∉ G.gone, arrived := [], gone := [], phase := G.phase + 1, aphase := aphase }
          else { G with arrived := G.arrived ++ [m], aphase := aphase, gone := G.gone ++ [m] }) ∧
    (s.me.paths = [] → s.warps = [] → Gives .exit s fun t => t.me.exited = true ∧ t.me.live = [] ∧ t.gang.st = .exited))


/-! ### Event registers, mailboxes, traps (05_events) -/

/-- Event registers (05_events R114 to R116, R118, R119): ev.disarm clears ARMED, PEND and VAL; ev.pend reads them; ev.arm with a bad handler
address is a program error, and else replaces the record and takes PEND from the condition as it stands; nothing else differs. -/
def Obligations.EventRegisters : Prop := ∀ s : State,
  let only (n : Nat) (e : EvReg) (t : State) : Prop :=
    t = { s with me := { s.me with ev := t.me.ev } } ∧ ∀ k, t.evReg k = if k = n then e else s.evReg k
  (∀ n, Gives (.evDisarm n) s (only n.toNat { s.evReg n.toNat with armed := false, pend := false, val := 0 })) ∧
  (∀ d a, Gives (.evPend d a) s fun t => ∃ f, LanePairResult s t d f ∧ ∀ l k, l < 32 → k < 64 → (f l).getLsbD k =
    if k < 8 then (s.evReg k).pend else if k < 16 then (s.evReg (k - 8)).armed else if k < 32 then false
    else (s.evReg a.toNat).val.getLsbD (k - 32)) ∧
  ∀ n u,
    let obj := s.uuAt u 0
    let arg := s.uuAt u 2
    let h := s.uuAt u 4
    let armed (k : EvKind) (x : Option Word) : State → Prop :=
      only n.toNat { kind := k, armed := true, pend := x.isSome, val := x.getD 0, obj := obj, arg := arg, handler := h, since := s.journal.length }
    let inLocal (n : Nat) : Prop := obj.toNat / 2 ^ 48 = 0xFFF0 ∧ obj.toNat % n = 0 ∧ obj.toNat % 2 ^ 48 + n ≤ s.gang.localk * 1024 ∧
      s.gang.localk ≤ 1024 ∧ s.gang.poolHeld = false ∧ s.gang.base % 8 = 0 ∧ s.gang.st ≠ .saved
    let word : BitVec 64 := s.rd64 (localKey s.coreNo (s.gang.base + obj.toNat % 2 ^ 48))
    ((2 ^ 48 ≤ h.toNat ∨ h.toNat % 12 ≠ 0) → ∀ k, exec (.evArm k n u) s = .next (s.progErr 0x0501 h)) ∧
    (h.toNat < 2 ^ 48 → h.toNat % 12 = 0 →
      (obj ≠ 0 → ∀ k, k = .dline ∨ k = .beam → exec (.evArm k n u) s = .next (s.progErr 0x0501 obj)) ∧
      (15 < obj.toNat ∨ s.gang.mx = false → exec (.evArm .tok n u) s = .next (s.progErr 0x0501 obj)) ∧
      (obj = 0 → Gives (.evArm .dline n u) s (armed .dline (if arg ≤ s.now then some (s.now.setWidth 32) else none))) ∧
      (obj = 0 → Gives (.evArm .beam n u) s (armed .beam (if arg ≤ s.me.beams then some (s.me.beams.setWidth 32) else none))) ∧
      (obj.toNat ≤ 15 → s.gang.mx = true →
        Gives (.evArm .tok n u) s (armed .tok (if smGet 0 s.gang.tokens obj.toNat = s.me.w + 1 then some (obj.setWidth 32) else none))) ∧
      (inLocal 8 → Gives (.evArm .stamp n u) s (armed .stamp (if arg ≤ word then some (word.setWidth 32) else none))) ∧
      (inLocal 16 → Gives (.evArm .tbr n u) s
        (armed .tbr (if word.setWidth 32 = arg.setWidth 32 then none else some (word.setWidth 32)))) ∧
      (∀ k, obj.toNat < 2 ^ 32 → s.mboxKey (obj.setWidth 32) = some k →
        Gives (.evArm .mbox n u) s (armed .mbox (if s.rd64 k = 0 then none else some ((s.rd64 k).setWidth 32)))) ∧
      ∀ i, s.inst? s.gang.inst = some i → obj.toNat < i.entry.ngroups →
        (i.group obj.toNat).members.contains (memberNo s.gang.index s.me.w) = true →
        let G := i.group obj.toNat
        Gives (.evArm .bar n u) s
          (armed .bar (if G.phase ≠ smGet 0 G.aphase (memberNo s.gang.index s.me.w) then some (G.phase - 1) else none)))

/-- Waits and deliveries (05_events R115, R116, R120, R121): wait.any of no armed register is a program error, else the path is held, at its own
place by the model's choice (log 15); PEND is set with VAL when the condition has come to hold, at a deadline when its time has come; the lowest pending register of the
mask sends the waiting path to its handler and is disarmed. -/
def Obligations.WaitsAndDeliveries : Prop := ∀ s : State,
  let m (u : BitVec 6) : BitVec 8 := (s.u u).setWidth 8
  let pended (n : Nat) (v : Word) (t : State) : Prop :=
    t.me.ev = smPut {} s.me.ev n { s.evReg n with pend := true, val := v } ∧
    t = { s with me := { s.me with ev := t.me.ev }, warps := t.warps }
  (∀ u, (∀ k, k < 8 → ((m u).getLsbD k && (s.evReg k).armed) = false) → exec (.waitAny u) s = .next (s.progErr 0x0502 ((m u).setWidth 64))) ∧
  (∀ u k, k < 8 → (m u).getLsbD k = true → (s.evReg k).armed = true → Gives (.waitAny u) s fun t =>
    t = { s with me := { s.me with cur := { s.me.cur with pc := s.here.pc, wpos := s.here.wpos, st := .held (.events (m u) (s.sys.seq + 1)) } } }) ∧
  (s.me.gid ≠ 0 → s.gang.gid = s.me.gid → s.me.exited = false →
    let gid := s.me.gid
    let w := s.me.w
    (∀ e : BitVec 3, (s.evReg e.toNat).armed = true → (s.evReg e.toNat).pend = false → (s.evReg e.toNat).kind = .dline →
      (s.evReg e.toNat).arg ≤ s.now → Gives (.deadlineExpiry gid w e) s (pended e.toNat (s.now.setWidth 32))) ∧
    (∀ e : BitVec 3, (s.evReg e.toNat).armed = true → (s.evReg e.toNat).pend = false → (s.evReg e.toNat).kind = .beam →
      (s.evReg e.toNat).arg ≤ s.me.beams → Gives (.pendSet gid w e) s (pended e.toNat (s.me.beams.setWidth 32))) ∧
    (∀ e : BitVec 3, (s.evReg e.toNat).armed = true → (s.evReg e.toNat).pend = false → (s.evReg e.toNat).kind = .stamp →
      (∃ v ∈ s.valuesOf s.gang (s.evReg e.toNat) false, (s.evReg e.toNat).arg ≤ v) →
      ∃ v ∈ s.valuesOf s.gang (s.evReg e.toNat) false, (s.evReg e.toNat).arg ≤ v ∧ Gives (.pendSet gid w e) s (pended e.toNat (v.setWidth 32))) ∧
    (s.gang.st = .resident → s.me.pre.st ≠ .saved → s.me.cur.mask ≠ 0 → s.me.halted = false → s.me.trc.on = false →
      (∀ p ∈ s.me.paths, ∀ a b, p.st ≠ .held (.events a b)) →
      ∀ (a : BitVec 8) (b n : Nat), s.me.cur.st = .held (.events a b) → n < 8 → a.getLsbD n = true → (s.evReg n).pend = true →
        (∀ k, k < n → (a.getLsbD k && (s.evReg k).pend) = false) →
        Gives (.eventDelivery gid w) s fun t =>
          t = { s with me := { s.me with
            ev := smPut {} s.me.ev n { s.evReg n with pend := false, armed := false }
            cur := { s.me.cur with pc := (s.evReg n).handler.setWidth 48, wpos := 0, st := .ready } } }))

/-- Mailboxes (05_events R123 to R125, R132): a send writes the token where the mailbox is empty and reports 0, else 1, 2 for a zero token or 3
for a bad target; a receive takes the token and empties the mailbox; a queued token of the package goes out when the mailbox in SUPMBX is
empty. No range is locked here. -/
def Obligations.Mailboxes : Prop := ∀ s : State, s.locks = [] →
  (∀ d u k, s.mboxKey (s.un (u.toNat + 2)) = some k → s.uu u ≠ 0 → s.rd k 8 = 0 → Gives (.mboxSend d u) s fun t =>
    ∃ s', s' = { s with mem := s'.mem, journal := s'.journal } ∧ LaneResult s' t d (fun _ => 0) ∧
      t.rd64 k = s.uu u ∧ ∀ a, ¬ (k ≤ a ∧ a < k + 8) → t.byte a = s.byte a) ∧
  (∀ d u, Gives (.mboxSend d u) s fun t =>
    (s.mboxKey (s.un (u.toNat + 2)) = none → LaneResult s t d fun _ => 3) ∧
    (∀ k, s.mboxKey (s.un (u.toNat + 2)) = some k → s.uu u = 0 → LaneResult s t d fun _ => 2) ∧
    ∀ k, s.mboxKey (s.un (u.toNat + 2)) = some k → s.uu u ≠ 0 → s.rd k 8 ≠ 0 → LaneResult s t d fun _ => 1) ∧
  (∀ d u, s.mboxKey (s.u u) = none → Gives (.mboxRecv d u) s fun t => LanePairResult s t d fun _ => 0) ∧
  (∀ d u k, s.mboxKey (s.u u) = some k → Gives (.mboxRecv d u) s fun t =>
    ∃ s', s' = { s with mem := s'.mem, journal := s'.journal } ∧ LanePairResult s' t d (fun _ => s.rd64 k) ∧
      t.rd64 k = 0 ∧ ∀ a, ¬ (k ≤ a ∧ a < k + 8) → t.byte a = s.byte a) ∧
  ∀ k x xs, s.sys.toks = x :: xs → s.pkg.supmbx.toNat < 2 ^ 32 → s.mboxKey (s.pkg.supmbx.setWidth 32) = some k → s.rd k 8 = 0 →
    Gives .supmbxTokenSend s fun t => t = { s with mem := t.mem, journal := t.journal, sys := { s.sys with toks := xs } } ∧
      t.rd64 k = x ∧ ∀ a, ¬ (k ≤ a ∧ a < k + 8) → t.byte a = s.byte a

/-- Trap entry (05_events R126 to R129, R131, R132), by the trap instruction in an untraced warp: with a handler in the vector table, every active
lane's frame is written and the path goes to the handler in trap handler mode; with none, or in a handler, the context ends, with the record
of its first end; beside another path in a handler the path is held, to try again. Nothing of a replay or of a group done in part is left with the
path in the handler. No lane register, flag or predicate differs. -/
def Obligations.TrapEntry : Prop := ∀ (s : State) (a : BitVec 6) (i : BitVec 8), s.issue = .lane → s.me.trc.on = false →
  let info : BitVec 64 := if a = 0 then 0 else s.uu a
  let base := (s.ctx s.gang.asid).tvbase
  let p := s.me.cur
  let ended (t : State) : Prop :=
    (s.ctx s.gang.asid).ending = none → ∃ r, (t.ctx s.gang.asid) = { s.ctx s.gang.asid with ending := some r } ∧ r.cls = 4 ∧ r.code = i.toNat ∧
      r.info = info ∧ r.path = p.id ∧ r.tmask = p.mask ∧ r.tpc = s.here.pc.setWidth 64 ∧ r.time = s.now ∧
      r.task = s.gang.task ∧ r.gang = s.gang.index ∧ r.warp = BitVec.ofNat 32 s.me.w ∧
      t = { s with me := { s.me with cur := { p with pc := s.here.pc, wpos := s.here.wpos } }, here := t.here, ctxs := t.ctxs }
  (p.hmode ≠ .none → Gives (.trap a i) s ended) ∧
  (p.hmode = .none →
    ((∃ q ∈ s.me.live, q.hmode ≠ .none) → Gives (.trap a i) s fun t => t = { s with
      me := { s.me with cur := { p with pc := s.here.pc, wpos := s.here.wpos, st := .held .trapBusy } }, here := t.here }) ∧
    ((∀ q ∈ s.me.live, q.hmode = .none) →
      (base = 0 ∨ base.toNat % 64 ≠ 0 → Gives (.trap a i) s ended) ∧
      ∀ u pa, base ≠ 0 → base.toNat % 64 = 0 → base.toNat + 32 < 2 ^ 48 → s.translate .read (base.toNat + 32) = (u, .ok pa) →
        let h := u.rd64 pa
        h ≠ 0 → h.toNat % 12 = 0 → h.toNat < 2 ^ 48 → u.me = s.me → u.gang = s.gang → u.here = s.here → u.pkg = s.pkg →
        Gives (.trap a i) s fun t =>
          t = { u with mem := t.mem, journal := t.journal, here := t.here, me := { s.me with cur := { p with
            hmode := .trap, pc := h.setWidth 48, wpos := 0, st := .ready, replay := none, snap := none, rpos := none, phase := 0, after := none
            tpc := s.here.pc, twpos := s.here.wpos
            tnpc := (p.after.getD (s.here.npc, s.here.nwpos)).1, tnwpos := (p.after.getD (s.here.npc, s.here.nwpos)).2 } } } ∧
          (∀ l, l < 32 → s.act l = true →
            let f := s.me.stackAt l 512
            t.rd f 8 = s.here.pc.toNat ∧ t.rd (f + 8) 1 = s.here.wpos % 256 ∧ t.rd (f + 9) 1 = 1 ∧ t.rd (f + 10) 1 = p.id % 256 ∧
            t.rd (f + 11) 1 = 0 ∧ t.rd (f + 12) 4 = p.mask.toNat ∧ t.rd (f + 16) 2 = 4 ∧ t.rd (f + 18) 2 = i.toNat ∧ t.rd (f + 20) 4 = 0 ∧
            t.rd (f + 24) 8 = info.toNat ∧ t.rd (f + 32) 8 = s.now.toNat ∧ t.rd (f + 40) 8 = 0 ∧ t.rd (f + 48) 16 = 0) ∧
          ∀ k, (∀ l, l < 32 → s.act l = true → ¬ (s.me.stackAt l 512 ≤ k ∧ k < s.me.stackAt l 512 + 64)) →
            t.byte k = u.byte k))

/-- Returns from handlers and the pre-emption instructions (05_events R131, R133, R135), in an untraced warp whose other paths are in no
handler: trap.ret 0 replays the trapped chain group and trap.ret 1 goes on after it, trap.ret 2 ends the handler of a resumed warp; pre.done
holds the last handler path and drains the warp, or in a resumed one goes to its address; pre.mask sets the mask, which holds back a pending request that
has a handler; where the context has no vector table a pending request is a hard save at once, masked or not; all else is a program error. The address
of pre.done is taken as it is, by the model's choice (log 45). -/
def Obligations.HandlerReturns : Prop := ∀ s : State, s.me.trc.on = false → s.me.exited = false → s.me.cur.mask ≠ 0 →
  (∀ p ∈ s.me.paths, p.hmode = .none ∧ p.st ≠ .held .trapBusy ∧ p.kept = none) →
  let p := s.me.cur
  let hard (q : Preempt) : Preempt := { q with st := .hard }
  let goes (q : Path) (t : State) : Prop := t = { s with me := { s.me with cur := q } }
  (p.hmode = .trap → p.st = .ready → s.me.pre.st = .run →
    Gives (.trapRet .replay) s (goes { p with pc := p.tpc, wpos := p.twpos, hmode := .none }) ∧
    Gives (.trapRet .next) s (goes { p with pc := p.tnpc, wpos := p.tnwpos, hmode := .none })) ∧
  (p.hmode = .pre → p.st = .ready → s.me.pre.st = .resumed → s.me.pre.second = none → (∃ q ∈ s.me.paths, q.mask ≠ 0 ∧ q.st = .ready) →
    Gives (.trapRet .resume) s fun t => t = { s with me := { s.me with
      cur := { p with mask := 0 }, overflow := s.me.overflow.filter (fun i => i != p.id)
      pre := { s.me.pre with st := .run, hnd := false, byDone := false } } }) ∧
  (p.hmode ≠ .trap → exec (.trapRet .replay) s = .next (s.progErr 0x0503 0) ∧ exec (.trapRet .next) s = .next (s.progErr 0x0503 0)) ∧
  (p.hmode ≠ .pre ∨ s.me.pre.st ≠ .resumed → exec (.trapRet .resume) s = .next (s.progErr 0x0503 0)) ∧
  (∀ a, p.hmode ≠ .pre → exec (.preDone a) s = .next (s.progErr 0x0504 0)) ∧
  (∀ a, p.hmode = .pre → s.me.pre.st = .resumed → Gives (.preDone a) s (goes { p with pc := (s.uu a).setWidth 48, wpos := 0 })) ∧
  (∀ a, p.hmode = .pre → s.me.pre.st = .hnd → Gives (.preDone a) s fun t => t = { s with me := { s.me with
    cur := { p with st := .held (.preDone (s.uu a)) }, pre := { s.me.pre with st := .drain } } }) ∧
  (p.hmode = .pre → p.st = .ready → s.me.pre.st = .resumed → (∃ q ∈ s.me.paths, q.mask ≠ 0 ∧ q.st = .ready) → (s.ctx s.gang.asid).tvbase = 0 →
    ∀ r h, s.me.pre.second = some (r, h) → Gives (.trapRet .resume) s fun t => t = { s with me := { s.me with
      cur := { p with mask := 0 }, overflow := s.me.overflow.filter (fun i => i != p.id)
      pre := hard { s.me.pre with reason := r, hard := h, second := none, hnd := false, byDone := false } } }) ∧
  (∀ k, s.me.pre.st ≠ .pending → Gives (.preMask k) s fun t => t = { s with me := { s.me with pre := { s.me.pre with mask := k } } }) ∧
  (s.me.pre.st = .pending → (∀ q ∈ s.me.live, ∀ j, q.st ≠ .stopped j) →
    let m : State := { s with me := { s.me with pre := { s.me.pre with mask := true } } }
    ∀ u h, m.vector 7 = (u, .ok h) → h ≠ 0 → u.me = m.me → Gives (.preMask true) s (· = u)) ∧
  (∀ k, s.me.pre.st = .pending → (s.ctx s.gang.asid).tvbase = 0 → Gives (.preMask k) s fun t =>
    t = { s with me := { s.me with pre := hard { s.me.pre with mask := k } } })

/-! ### Memory (08_memory, 09_ordering) -/

/-- Loads, stores and prefetch (08_memory R195, R207, R208, R213; 00_scope R3): where every lane that the word acts on reaches its bytes, a load
puts the little-endian value, extended by its type, into those lanes of vD or its pair; a store writes the low bytes of its register, the higher
lane's value standing where lanes overlap; an 8-byte load from the self-address word reads where the gang's allocation lies (R193); no other
register or byte differs. Where the stacks and the packed package memory lie is the model's layout (log 2). -/
def Obligations.LoadsAndStores : Prop := ∀ s : State,
  let on (l : Nat) : Bool := s.memMask.getLsbD l
  let base (a : BitVec 7) (l : Nat) : BitVec 64 := s.vv a l
  let place (a : BitVec 7) (o : Imm 8) (z : MemSize) (l : Nat) : BitVec 64 :=
    base a l + (match o with | .short v => v.signExtend 64 | .long v => v.signExtend 64) * BitVec.ofNat 64 (Machine.sizeOf z)
  let stack (a b : BitVec 7) (l : Nat) : BitVec 64 := BitVec.ofNat 64 (0xFFF1000000000000 + (s.v a l + s.v b l).toNat)
  let loaded (d : BitVec 7) (wide : Bool) (f : Nat → BitVec 64) (t : State) : Prop :=
    OnlyRegs s t ∧ t.me.regs = { s.me.regs with v := t.me.regs.v } ∧ ∀ n l, l < 32 → t.me.regs.getV n l =
      if n = d.toNat ∧ on l = true then (f l).setWidth 32
      else if n = d.toNat + 1 ∧ on l = true ∧ wide = true then (f l >>> 32).setWidth 32 else s.me.regs.getV n l
  let stored (k : Nat → Nat) (n : Nat) (x : Nat → BitVec 64) (t : State) : Prop :=
    t = { s with me := { s.me with obs := t.me.obs }, mem := t.mem, journal := t.journal } ∧
    (∀ l, l < 32 → on l = true → (∀ m, l < m → m < 32 → on m = true → k m + n ≤ k l ∨ k l + n ≤ k m) →
      t.rd (k l) n = (x l).toNat % 256 ^ n) ∧
    ∀ j, (∀ l, l < 32 → on l = true → ¬ (k l ≤ j ∧ j < k l + n)) → t.byte j = s.byte j
  let load (z : MemSize) (d : BitVec 7) : MemForm := { op := .load z, kind := .read, allow := .plain, size := Machine.sizeOf z, dreg := some d.toNat }
  let store (n : Nat) : MemForm := { op := .store n, kind := .write, allow := .plain, size := n }
  (∀ d a o z k, Reaches s (load z d) (fun l => { lane := l, addr := place a o z l }) k →
    Gives (.ld d a o z) s (loaded d (z == .b64) fun l => match z with
      | .n8 => BitVec.ofNat 64 (s.rd (k l) 1)
      | .i8 => ((BitVec.ofNat 8 (s.rd (k l) 1)).signExtend 32).setWidth 64
      | .n16 => BitVec.ofNat 64 (s.rd (k l) 2)
      | .i16 => ((BitVec.ofNat 16 (s.rd (k l) 2)).signExtend 32).setWidth 64
      | .b32 => BitVec.ofNat 64 (s.rd (k l) 4)
      | .b64 => BitVec.ofNat 64 (s.rd (k l) 8))) ∧
  (∀ d a o, s.me.cur.mask ≠ 0 → (∀ l, l < 32 → on l = true → place a o .b64 l = 0xFFF0FFFFFFFFFFF8) →
    Gives (.ld d a o .b64) s (loaded d true fun _ =>
      BitVec.ofNat 64 (0xFFF2 * 2 ^ 48 + s.gang.stk * 2 ^ 45 + s.gang.core * 2 ^ 40 + s.gang.base))) ∧
  (∀ d a o z k, Reaches s (store (Machine.sizeOf z)) (fun l => { lane := l, addr := place a o z l, val := if z = .b64 then s.vv d l else (s.v d l).setWidth 64 }) k →
    Gives (.st d a o z) s (stored k (Machine.sizeOf z) fun l => if z = .b64 then s.vv d l else (s.v d l).setWidth 64)) ∧
  (∀ d a b k, Reaches s (load .b32 d) (fun l => { lane := l, addr := stack a b l }) k →
    Gives (.ldSB32 d a b) s (loaded d false fun l => BitVec.ofNat 64 (s.rd (k l) 4))) ∧
  (∀ d a b k, Reaches s (load .b64 d) (fun l => { lane := l, addr := stack a b l }) k →
    Gives (.ldSB64 d a b) s (loaded d true fun l => BitVec.ofNat 64 (s.rd (k l) 8))) ∧
  (∀ d a b k, Reaches s (store 4) (fun l => { lane := l, addr := stack a b l, val := (s.v d l).setWidth 64 }) k →
    Gives (.stSB32 d a b) s (stored k 4 fun l => (s.v d l).setWidth 64)) ∧
  (∀ d a b k, Reaches s (store 8) (fun l => { lane := l, addr := stack a b l, val := s.vv d l }) k →
    Gives (.stSB64 d a b) s (stored k 8 fun l => s.vv d l)) ∧
  ∀ a, Gives (.pref a) s (· = s) ∧ Gives (.prefSc a) s (· = s)

/-- Atomics (08_memory R195, R209, R210): lane by lane in lane order, vD takes what the location held just before, and the location what the
operation makes of that, vB and, for a compare-and-swap, vD; atom.fadd rounds to nearest even and sets no flag; no other register or byte
differs. -/
def Obligations.Atomics : Prop := ∀ s : State,
  let on (l : Nat) : Bool := s.memMask.getLsbD l
  let at_ (m : List Host.Cell) : State := { s with mem := m }
  let atomic (k : AtomKind) (n : Nat) (d : BitVec 7) : MemForm :=
    { op := .atom k, kind := .atomic, allow := .atomic, size := n, dreg := some d.toNat }
  let done (n : Nat) (d : BitVec 7) (key : Nat → Nat) (eff : Nat → Nat → Nat → Prop) (t : State) : Prop :=
    t = { s with me := { s.me with regs := { s.me.regs with v := t.me.regs.v }, obs := t.me.obs }, mem := t.mem, journal := t.journal } ∧
    ∃ m : Nat → List Host.Cell, m 0 = s.mem ∧ t.mem = m 32 ∧
      (∀ l, l < 32 → on l = false → m (l + 1) = m l) ∧
      (∀ l, l < 32 → on l = true → eff l ((at_ (m l)).rd (key l) n) ((at_ (m (l + 1))).rd (key l) n) ∧
        ∀ j, ¬ (key l ≤ j ∧ j < key l + n) → (at_ (m (l + 1))).byte j = (at_ (m l)).byte j) ∧
      ∀ r l, l < 32 → t.me.regs.getV r l =
        if r = d.toNat ∧ on l = true then BitVec.ofNat 32 ((at_ (m l)).rd (key l) n)
        else if r = d.toNat + 1 ∧ on l = true ∧ n = 8 then BitVec.ofNat 32 ((at_ (m l)).rd (key l) 8 / 2 ^ 32)
        else s.me.regs.getV r l
  let atom32 (i : BitVec 7 → BitVec 7 → BitVec 7 → Instr) (k : AtomKind) (eff : Word → Word → Word → Word → Prop) : Prop :=
    ∀ d a b key, Reaches s (atomic k 4 d) (fun l => { lane := l, addr := s.vv a l, val := (s.v b l).setWidth 64, old := (s.v d l).setWidth 64 }) key →
      Gives (i d a b) s (done 4 d key fun l m x => eff (BitVec.ofNat 32 m) (s.v b l) (s.v d l) (BitVec.ofNat 32 x))
  let atom64 (i : BitVec 7 → BitVec 7 → BitVec 7 → Instr) (k : AtomKind) (eff : BitVec 64 → BitVec 64 → BitVec 64 → BitVec 64) : Prop :=
    ∀ d a b key, Reaches s (atomic k 8 d) (fun l => { lane := l, addr := s.vv a l, val := s.vv b l, old := s.vv d l }) key →
      Gives (i d a b) s (done 8 d key fun l m x => BitVec.ofNat 64 x = eff (BitVec.ofNat 64 m) (s.vv b l) (s.vv d l))
  atom32 .atomAdd .add (fun m b _ x => x = m + b) ∧
  atom32 .atomAnd .and (fun m b _ x => x = m &&& b) ∧
  atom32 .atomOr .or (fun m b _ x => x = m ||| b) ∧
  atom32 .atomXor .xor (fun m b _ x => x = m ^^^ b) ∧
  atom32 .atomMinI32 .minI (fun m b _ x => x.toInt = min m.toInt b.toInt) ∧
  atom32 .atomMaxI32 .maxI (fun m b _ x => x.toInt = max m.toInt b.toInt) ∧
  atom32 .atomMinN32 .minN (fun m b _ x => x.toNat = min m.toNat b.toNat) ∧
  atom32 .atomMaxN32 .maxN (fun m b _ x => x.toNat = max m.toNat b.toNat) ∧
  atom32 .atomXchg .xchg (fun _ b _ x => x = b) ∧
  atom32 .atomCas .cas (fun m b d x => x = if m = d then b else m) ∧
  atom32 .atomFadd .fadd (fun m b _ x => ∃ r, SumOf fmtF32 .ne (fmtF32.decode m.toNat) (fmtF32.decode b.toNat) r ∧ x = BitVec.ofNat 32 r.bits) ∧
  atom64 .atomAddN64 .add64 (fun m b _ => m + b) ∧
  atom64 .atomCasB64 .cas64 (fun m b d => if m = d then b else m)

/-- The checks of lane accesses, and what meets a locked range or an untranslated page (08_memory R192 to R197; 09_ordering R222, R224; 10_translation
R244). With no range locked, every load, store and atomic switches off exactly the lanes whose address fails a check, each with the code of its first
failing check, in every path of the warp, each of which keeps a lane; the first lane fault of the warp leaves its address and time; no such lane writes. A load or store that meets a
locked range performs in no lane and traps, or without a handler is held until the ranges' operations are gone. One whose translation fails in some
lanes performs in the others and parks with those unfinished. -/
def Obligations.LaneChecks : Prop := ∀ s : State, s.me.cur.replay = none → s.sys.mclkEnd = none →
  let place (a : BitVec 7) (o : Imm 8) (z : MemSize) (l : Nat) : BitVec 64 :=
    s.vv a l + (match o with | .short v => v.signExtend 64 | .long v => v.signExtend 64) * BitVec.ofNat 64 (Machine.sizeOf z)
  let stack (a b : BitVec 7) (l : Nat) : BitVec 64 := BitVec.ofNat 64 (0xFFF1000000000000 + (s.v a l + s.v b l).toNat)
  let held (core off n : Nat) : Prop := ∃ g ∈ s.gang :: s.gangs, g.gid ≠ 0 ∧ g.st = .resident ∧ g.poolHeld = true ∧ 32 * g.stk + g.core = core ∧
    g.base + g.localk * 1024 < off + n + (64 + 160 * g.pool) ∧ off < g.base + g.localk * 1024
  let checked (i : Instr) (allow : Allow) (ld8 : Bool) (size : Nat) (at_ : Nat → BitVec 64) : Prop :=
    let ap (l : Nat) : Nat := (at_ l).toNat / 2 ^ 48
    let off (l : Nat) : Nat := (at_ l).toNat % 2 ^ 48
    let stk (l : Nat) : Nat := off l / 2 ^ 45
    let code (l : Nat) : Nat :=
      if (ap l ≠ 0 ∧ ap l ≠ 0xFFF0 ∧ ap l ≠ 0xFFF1 ∧ ap l ≠ 0xFFF2 ∧ ap l ≠ 0xFFF3) ∨ (ap l = 0xFFF2 ∧ s.powered (stk l) = false) then 1
      else if at_ l = 0xFFF0FFFFFFFFFFF8 ∧ ld8 = true then 0
      else if at_ l = 0xFFF0FFFFFFFFFFF8 ∨ (allow = .commons ∧ ap l ≠ 0xFFF3) ∨ (allow = .atomic ∧ ap l = 0xFFF1) then 2
      else if (at_ l).toNat % size ≠ 0 then 3
      else if ap l = 0xFFF0 ∧ s.gang.localk * 1024 < off l + size then 4
      else if ap l = 0xFFF1 ∧ 2048 < off l + size then 5
      else if ap l = 0xFFF3 ∧ (off l / 2 ^ 24 % 2 ^ 21 ≠ 0 ∨ s.powered (stk l) = false) then 6
      else if (ap l = 0xFFF0 ∧ s.gang.poolHeld = true ∧ s.gang.localk * 1024 < off l + size + (64 + 160 * s.gang.pool)) ∨
        (ap l = 0xFFF2 ∧ held (32 * (stk l) + off l / 2 ^ 40 % 32) (off l % 2 ^ 40) size) then 7
      else 0
    (∀ l, l < 32 → s.act l = true → ap l = 0 → code l ≠ 0) → (∃ l, l < 32 ∧ s.act l = true ∧ code l = 0) →
    (∀ p ∈ s.me.paths, p.mask ≠ 0 → ∃ l, l < 32 ∧ p.mask.getLsbD l = true ∧ ¬ (s.act l = true ∧ code l ≠ 0)) →
    Gives i s fun t =>
      (∀ l, l < 32 → t.act l = (s.act l && code l == 0)) ∧
      (∀ l, l < 32 → smGet 0 t.me.fm.codes l = if s.act l = true ∧ code l ≠ 0 then BitVec.ofNat 8 (code l) else smGet 0 s.me.fm.codes l) ∧
      (∀ l, l < 32 → s.act l = true → code l ≠ 0 → ∀ p ∈ t.me.paths, p.mask.getLsbD l = false) ∧
      (∀ l, l < 32 → s.act l = true → code l ≠ 0 → (∀ m, m < l → s.act m = true → code m = 0) →
        t.me.fm.seen = true ∧
        (s.me.fm.seen = false → t.me.fm.addr = at_ l ∧ t.me.fm.time = s.now) ∧
        (s.me.fm.seen = true → t.me.fm.addr = s.me.fm.addr ∧ t.me.fm.time = s.me.fm.time)) ∧
      (∀ n l, l < 32 → ¬ (s.act l = true ∧ code l = 0) → t.me.regs.getV n l = s.me.regs.getV n l) ∧
      ∀ j, (∀ l k, l < 32 → s.act l = true → s.steer l allow size size ld8 (at_ l) = .ok (.mem k) → ¬ (k ≤ j ∧ j < k + size)) → t.byte j = s.byte j
  let load (z : MemSize) (d : BitVec 7) : MemForm := { op := .load z, kind := .read, allow := .plain, size := Machine.sizeOf z, dreg := some d.toNat }
  let store (n : Nat) : MemForm := { op := .store n, kind := .write, allow := .plain, size := n }
  let locked (i : Instr) (f : MemForm) (r : Nat → Req) : Prop := ∀ k : Nat → Nat, s.ownStreams = [] → s.priv = false →
    (∀ l, l < 32 → s.act l = true → ∃ pg, s.prepare f (r l) = (s, .ok (.mem (k l)) pg)) →
    (s.inFlight s.me s.me.cur = false ∨ ∀ l, l < 32 → s.act l = true → s.walks f (r l) = false) →
    ∀ h, h < 32 → s.act h = true → s.conflicts (k h) f.size f.writes ≠ [] → (∀ l, l < h → s.act l = true → s.conflicts (k l) f.size f.writes = []) →
      ∃ ids : List Nat, (∀ o, o ∈ ids ↔ ∃ l, l < 32 ∧ s.act l = true ∧ ∃ x ∈ s.conflicts (k l) f.size f.writes, x.1 = o) ∧
        exec i s = .next (s.trapOn 2 (lockCode (s.conflicts (k h) f.size f.writes)) (r h).addr ids) ∧
        (s.issue = .lane → s.me.cur.hmode = .none → (∀ q ∈ s.me.live, q.hmode = .none) → (s.ctx s.gang.asid).tvbase = 0 →
          Gives i s fun t => t = { s with here := t.here, me := { s.me with cur := { s.me.cur with
            pc := s.here.pc, wpos := s.here.wpos, st := .held (.range ids) } } })
  let parks (i : Instr) (f : MemForm) (r : Nat → Req) (got : Nat → Option Word) : Prop := ∀ (bad : Nat → Option Nat) (k : Nat → Nat),
    s.me.cur.mask ≠ 0 → s.inFlight s.me s.me.cur = false →
    (∀ l, l < 32 → s.act l = true → match bad l with
      | some c => s.prepare f (r l) = (s, .fault c)
      | none => (∃ pg, s.prepare f (r l) = (s, .ok (.mem (k l)) pg)) ∧ s.defers f (.mem (k l)) = false ∧ s.conflicts (k l) f.size f.writes = []) →
    ∀ h c, h < 32 → s.act h = true → bad h = some c → (∀ l, l < h → s.act l = true → bad l = none) →
      let rest : BitVec 32 := maskOf fun l => s.act l && (bad l).isSome
      Gives i s fun t =>
        t.me.cur = { s.me.cur with
          pc := s.here.pc, wpos := s.here.wpos, replay := some rest
          st := .parked { kind := 1, code := c, va := (r h).addr, access := AccKind.code f.kind, mask := rest, time := s.now
                          npc := s.here.npc, nwpos := s.here.nwpos } } ∧
        (∀ j, (∀ l, l < 32 → s.act l = true → bad l = none → f.writes = true → ¬ (k l ≤ j ∧ j < k l + f.size)) → t.byte j = s.byte j) ∧
        (∀ l x, l < 32 → s.act l = true → bad l = none → got (k l) = some x → ∀ d, f.dreg = some d → t.me.regs.getV d l = x) ∧
        ∀ n l, l < 32 → ¬ (s.act l = true ∧ bad l = none) → t.me.regs.getV n l = s.me.regs.getV n l
  (s.locks = [] → s.me.trc.on = false →
    (∀ d a o z, checked (.ld d a o z) .plain (z == .b64) (Machine.sizeOf z) (place a o z)) ∧
    (∀ d a o z, checked (.st d a o z) .plain false (Machine.sizeOf z) (place a o z)) ∧
    (∀ d a b, checked (.ldSB32 d a b) .plain false 4 (stack a b) ∧ checked (.ldSB64 d a b) .plain true 8 (stack a b) ∧
      checked (.stSB32 d a b) .plain false 4 (stack a b) ∧ checked (.stSB64 d a b) .plain false 8 (stack a b)) ∧
    (∀ d a b, ∀ i ∈ [Instr.atomAdd d a b, .atomAnd d a b, .atomOr d a b, .atomXor d a b, .atomMinI32 d a b, .atomMaxI32 d a b, .atomMinN32 d a b,
        .atomMaxN32 d a b, .atomXchg d a b, .atomCas d a b, .atomFadd d a b], checked i .atomic false 4 (s.vv a)) ∧
    (∀ d a b, checked (.atomAddN64 d a b) .atomic false 8 (s.vv a) ∧ checked (.atomCasB64 d a b) .atomic false 8 (s.vv a)) ∧
    ∀ d a b, checked (.atomXacc a b) .commons false 64 (s.vv a) ∧ checked (.xaccRd d a) .commons (false) 64 (s.vv a) ∧
      checked (.xaccRdClr d a) .commons false 64 (s.vv a)) ∧
  (∀ d a o z, locked (.ld d a o z) (load z d) (fun l => { lane := l, addr := place a o z l }) ∧
    locked (.st d a o z) (store (Machine.sizeOf z))
      (fun l => { lane := l, addr := place a o z l, val := if z = .b64 then s.vv d l else (s.v d l).setWidth 64 })) ∧
  ∀ d a o z, parks (.ld d a o z) (load z d) (fun l => { lane := l, addr := place a o z l })
      (fun q => some ((extendLd z (s.rd q (Machine.sizeOf z))).setWidth 32)) ∧
    parks (.st d a o z) (store (Machine.sizeOf z))
      (fun l => { lane := l, addr := place a o z l, val := if z = .b64 then s.vv d l else (s.v d l).setWidth 64 }) (fun _ => none)

/-- Exact accumulation cells (08_memory R206, R211): atom.xacc adds a finite value exactly to the 384-bit number, marks NaNs and infinities and
overflow, and leaves a cell with a reserved field as it is; xacc.rd rounds the sum once, and xacc.rd.clr also empties the cell. For one active
lane; every other register and byte stays. -/
def Obligations.ExactCells : Prop := ∀ (s : State) (l k : Nat), l < 32 → (∀ m, m < 32 → s.act m = decide (m = l)) → s.me.cur.replay = none →
  let form (o : AccOp) : MemForm := { op := o, kind := .atomic, allow := .commons, size := 64 }
  let c := s.rd k 64
  let number (c : Nat) : Int := (BitVec.ofNat 384 c).toInt
  let bits (c : Nat) : Nat := c / 2 ^ 384 % 16
  let reserved (c : Nat) : Nat := c / 2 ^ 388
  let others (t : State) : Prop := ∀ j, ¬ (k ≤ j ∧ j < k + 64) → t.byte j = s.byte j
  let read (r : FRes) : Prop :=
    let bad : Bool := reserved c != 0 || bits c % 2 == 1 || bits c / 8 == 1 || (bits c / 2 % 2 == 1 && bits c / 4 % 2 == 1)
    if bad = true then r = ⟨0x7FC00000, 0⟩
    else if bits c / 2 % 2 = 1 then r = ⟨0x7F800000, 0⟩
    else if bits c / 4 % 2 = 1 then r = ⟨0xFF800000, 0⟩
    else if number c = 0 then r = ⟨0, 0⟩
    else Rounds fmtF32 .ne ((number c : ℚ) * 2 ^ (-149 : Int)) r
  (∀ a b, Reaches s (form (.store 64)) (fun l => { lane := l, addr := s.vv a l, val := (s.v b l).setWidth 64 }) (fun _ => k) →
    Gives (.atomXacc a b) s fun t =>
      t = { s with me := { s.me with obs := t.me.obs }, mem := t.mem, journal := t.journal } ∧ others t ∧
      let c' := t.rd k 64
      if reserved c ≠ 0 then c' = c
      else reserved c' = 0 ∧ match fmtF32.decode (s.v b l).toNat with
        | .nan _ => number c' = number c ∧ bits c' = bits c ||| 1
        | .inf neg => number c' = number c ∧ bits c' = bits c ||| (if neg then 4 else 2)
        | .fin neg m e =>
          let n : ℚ := number c + valueOf ℚ neg m e * 2 ^ 149
          (∃ z : Int, (number c' : ℚ) = n + z * 2 ^ 384) ∧ bits c' = bits c ||| (if n < -2 ^ 383 ∨ 2 ^ 383 ≤ n then 8 else 0)) ∧
  ∀ d a, Reaches s (form (.load .b32)) (fun l => { lane := l, addr := s.vv a l }) (fun _ => k) →
    (Gives (.xaccRd d a) s fun t => ∃ f, FloatResult s t d f ∧ read (f l)) ∧
    Gives (.xaccRdClr d a) s fun t => ∃ s' f, s' = { s with mem := s'.mem, journal := s'.journal } ∧ FloatResult s' t d f ∧ read (f l) ∧
      t.rd k 64 = 0 ∧ others t

/-- Operations of a commons bank (08_memory R205, R212): cmn.ew writes each active lane's word of the row, cmn.red one word from all operands,
whose old value every active lane gets; nothing else differs. -/
def Obligations.BankOperations : Prop := ∀ (s : State) (a b : BitVec 7) (k : Nat), s.locks = [] →
  let p := s.first
  let add (x y : Nat) (r : Nat) : Prop := ∃ q, SumOf fmtF32 .ne (fmtF32.decode x) (fmtF32.decode y) q ∧ r = q.bits % 2 ^ 32
  let ew (eff : Nat → Nat → Nat → Prop) (t : State) : Prop :=
    t = { s with me := { s.me with obs := t.me.obs }, mem := t.mem, journal := t.journal } ∧
    (∀ l, l < 32 → s.act l = true → eff (s.rd (k + 4 * l) 4) (s.v b l).toNat (t.rd (k + 4 * l) 4)) ∧
    ∀ j, (∀ l, l < 32 → s.act l = true → ¬ (k + 4 * l ≤ j ∧ j < k + 4 * l + 4)) → t.byte j = s.byte j
  let red (d : BitVec 7) (eff : Nat → Nat → Prop) (t : State) : Prop := ∃ s',
    s' = { s with mem := s'.mem, journal := s'.journal } ∧ LaneResult s' t d (fun _ => s.rd32 k) ∧ eff (s.rd k 4) (t.rd k 4) ∧
    ∀ j, ¬ (k ≤ j ∧ j < k + 4) → t.byte j = s.byte j
  let operands : List Nat := s.lanes.map fun l => (s.v b l).toNat
  (s.steer p .commons 4 128 false (s.vv a p) = .ok (.mem k) →
    Gives (.cmnEwAddI32 a b) s (ew fun m x r => r = (m + x) % 2 ^ 32) ∧
    Gives (.cmnEwAddF32 a b) s (ew add) ∧
    Gives (.cmnEwMaxF32 a b) s (ew fun m x r => r = (fminmax true m x).bits)) ∧
  (s.steer p .commons 4 4 false (s.vv a p) = .ok (.mem k) → ∀ d,
    Gives (.cmnRedAddI32 d a b) s (red d fun m r => r = (m + operands.sum) % 2 ^ 32) ∧
    Gives (.cmnRedAddF32 d a b) s (red d fun m r =>
      let vs := (m :: operands).map fmtF32.decode
      let exact : ℚ := (vs.map fun v => match v with | .fin neg m e => valueOf ℚ neg m e | _ => 0).sum
      ((∃ v ∈ vs, v.isNan = true) ∨ (.inf true ∈ vs ∧ .inf false ∈ vs) → r = 0x7FC00000) ∧
      ((∀ v ∈ vs, v.isNan = false) → ∀ n, .inf n ∈ vs → .inf (!n) ∉ vs → r = if n then 0xFF800000 else 0x7F800000) ∧
      ((∀ v ∈ vs, ∃ n m e, v = .fin n m e) →
        if exact = 0 then r = if (m :: operands).all (· == 0x80000000) then 0x80000000 else 0
        else ∃ q, Rounds fmtF32 .ne exact q ∧ r = q.bits % 2 ^ 32)) ∧
    Gives (.cmnRedMaxF32 d a b) s (red d fun m r => r = operands.foldl (fun x y => (fminmax true x y).bits) m)) ∧
  (s.me.trc.on = false → s.me.exited = false → s.me.pre.st = .run → (∀ q ∈ s.me.cur :: s.me.paths, q.hmode = .none ∧ q.st ≠ .held .trapBusy ∧ q.kept = none) →
    (∃ q ∈ s.me.paths, q.mask ≠ 0 ∧ q.st = .ready ∧ q.mask &&& s.me.cur.mask = 0) →
    let off (e : Nat) (t : State) : Prop := t.me.cur.mask = 0 ∧ t.mem = s.mem ∧ t.me.regs = s.me.regs ∧
      ∀ l, l < 32 → smGet 0 t.me.fm.codes l = if s.act l = true then BitVec.ofNat 8 e else smGet 0 s.me.fm.codes l
    (∀ e, s.me.cur.mask ≠ 0 → s.steer p .commons 4 128 false (s.vv a p) = .error e →
      Gives (.cmnEwAddI32 a b) s (off e) ∧ Gives (.cmnEwAddF32 a b) s (off e) ∧ Gives (.cmnEwMaxF32 a b) s (off e)) ∧
    ∀ e d, s.me.cur.mask ≠ 0 → s.steer p .commons 4 4 false (s.vv a p) = .error e →
      Gives (.cmnRedAddI32 d a b) s (off e) ∧ Gives (.cmnRedAddF32 d a b) s (off e) ∧ Gives (.cmnRedMaxF32 d a b) s (off e))

/-- fence.e, mwait and what ends their waits (09_ordering R231 to R234; 05_events R126): fence.e goes on where none of the warp's registered
operations of its classes is left, else it holds the path for exactly those; mwait goes on where the value satisfies its condition, else it holds the
path until some value since then does, also one that the location took where it lay before it moved; a path held on locked ranges goes on once their operations are gone. -/
def Obligations.FencesAndWaits : Prop := ∀ s : State,
  let held (w : Wait) (t : State) : Prop := t = { s with me := { s.me with cur := { s.me.cur with st := .held w }, obs := t.me.obs } }
  let met (k : MCond) (x c : BitVec 64) : Prop := match k with | .ne => x ≠ c | .eq => x = c | .ge => c ≤ x
  let mine (m : BitVec 3) (o : EngOp) : Prop := o.gid = s.gang.gid ∧ o.w = s.me.w ∧ (o.phase = .registered ∨ o.phase = .started) ∧ o.closing = true ∧
    (m = 0 ∨ m.getLsbD o.fence = true)
  (∀ m, (∀ o ∈ s.ops, ¬ mine m o) → Gives (.fenceE m) s (· = s)) ∧
  (∀ m, (∃ o ∈ s.ops, mine m o) → Gives (.fenceE m) s fun t => ∃ ids, held (.fenceE ids) t ∧ ∀ i, i ∈ ids ↔ ∃ o ∈ s.ops, mine m o ∧ o.id = i) ∧
  (∀ g k a b key, s.locks = [] → s.windowMiss = false →
    let p := s.first
    let n := if g then 8 else 4
    let c : BitVec 64 := if g then s.vv b p else (s.v b p).setWidth 64
    let x := BitVec.ofNat 64 (s.rd key n)
    let here : Spot → Prop
      | .mem q => q = key
      | .global va => s.translate .read va = (s, .ok key)
      | .remote core off => s.inAllocation core s.gang.asid off n = true ∧ localKey core off = key
      | .self => False
    (∃ x, s.steer p .atomic n n false (s.vv a p) = .ok x ∧ here x) →
    (met k x c → Gives (.mwait g k a b) s fun t => t = { s with me := { s.me with obs := t.me.obs } }) ∧
    (¬ met k x c → Gives (.mwait g k a b) s (held (.mwait k g (s.vv a p) c s.journal.length key [])))) ∧
  (s.me.gid ≠ 0 → s.gang.gid = s.me.gid → s.me.halted = false → s.me.cur.mask ≠ 0 →
    (∀ q ∈ s.me.paths, q.id ≠ s.me.cur.id) → (∀ x ∈ s.warps, x.gid ≠ s.me.gid ∨ x.w ≠ s.me.w) →
    let gone (t : State) : Prop := t = { s with me := { s.me with cur := { s.me.cur with st := .ready } } }
    (∀ k g addr c since frame past key, s.me.cur.st = .held (.mwait k g addr c since frame past) → s.watchKey s.gang addr frame = some key →
      ((∃ v ∈ s.valuesPast past ++ s.valuesSince key since, met k (if g then v else if key % 8 < 4 then BitVec.ofNat 64 (v.toNat % 2 ^ 32) else v >>> 32) c) →
        Gives (.mwaitRelease s.me.gid s.me.w s.me.cur.id) s gone) ∧
      ((∀ v ∈ s.valuesPast past ++ s.valuesSince key since, ¬ met k (if g then v else if key % 8 < 4 then BitVec.ofNat 64 (v.toNat % 2 ^ 32) else v >>> 32) c) →
        Gives (.mwaitRelease s.me.gid s.me.w s.me.cur.id) s (· = s))) ∧
    (∀ ids, s.me.cur.st = .held (.range ids) →
      ((∀ i ∈ ids, (∀ o ∈ s.ops, o.id ≠ i) ∧ ∀ m ∈ s.sys.migs, m.id ≠ i) → Gives (.rangeReplay s.me.gid s.me.w s.me.cur.id) s gone) ∧
      ((∃ i ∈ ids, (∃ o ∈ s.ops, o.id = i) ∨ ∃ m ∈ s.sys.migs, m.id = i) → Gives (.rangeReplay s.me.gid s.me.w s.me.cur.id) s (· = s))))

/-- Accesses in flight (08_memory R200, R201, R209, R214; 14_beams R314), of the warp in focus, with no watch predicate on its core: an access that
nothing holds back performs at its location, and what it returns arrives in its lane; one that meets a beam pool which became held meanwhile switches its
lane off with POOL; a remote-local one performs at its target where one allocation of its context covers it and no lock refuses it, and its answer arrives
later; else the target logs the refusal, but bytes of a held beam pool give POOL; a refused one switches its lane off. One with no answer for 65,536 ticks
does so too, and is over. The time-out also of an access that is answered or refused but whose answer has not come back, and that one which did not
perform by then performs no more, are the model's choices (log 23), and so is that an access to local memory of an unpowered stack is refused (log 26). -/
def Obligations.AccessesInFlight : Prop := ∀ (s : State) (a : Acc),
  s.accs = [a] → s.me.gid ≠ 0 → a.gid = s.me.gid → a.w = s.me.w → s.gang.gid = s.me.gid → a.lane < 32 → s.me.stops = [] → s.me.trc.on = false →
  (s.core s.coreNo).wps = [] → s.sys.mclkEnd = none → (∀ g ∈ s.gang :: s.gangs, g.array = none) → s.gang.queue = [] →
  (∀ x ∈ s.me :: s.warps, x.leaves = false) →
  let value : BitVec 64 := match a.op with
    | .load z => extendLd z (s.rd a.key (Machine.sizeOf z))
    | .atom k => BitVec.ofNat 64 (s.rd a.key k.size)
    | .accLd => BitVec.ofNat 64 (s.rd a.key 4)
    | .half hi => BitVec.ofNat 64 (if hi then s.rd a.key 8 / 2 ^ 32 else s.rd a.key 8 % 2 ^ 32)
    | _ => 0
  let changed (k : AtomKind) (x : Nat) : Prop :=
    let m : Word := BitVec.ofNat 32 (s.rd a.key 4)
    let b : Word := a.val.setWidth 32
    let y : Word := BitVec.ofNat 32 x
    let m64 : BitVec 64 := BitVec.ofNat 64 (s.rd a.key 8)
    match k with
    | .add => y = m + b
    | .and => y = m &&& b
    | .or => y = m ||| b
    | .xor => y = m ^^^ b
    | .minI => y.toInt = min m.toInt b.toInt
    | .maxI => y.toInt = max m.toInt b.toInt
    | .minN => y.toNat = min m.toNat b.toNat
    | .maxN => y.toNat = max m.toNat b.toNat
    | .xchg => y = b
    | .cas => y = if m = a.old.setWidth 32 then b else m
    | .fadd => ∃ r, SumOf fmtF32 .ne (fmtF32.decode m.toNat) (fmtF32.decode b.toNat) r ∧ y = BitVec.ofNat 32 r.bits
    | .add64 => BitVec.ofNat 64 x = m64 + a.val
    | .cas64 => BitVec.ofNat 64 x = if m64 = a.old then a.val else m64
  let acted (t : State) : Prop :=
    (∀ j, ¬ (a.key ≤ j ∧ j < a.key + a.size) → t.byte j = s.byte j) ∧
    (∀ n, a.op = .store n → a.size = n → t.rd a.key n = a.val.toNat % 256 ^ n) ∧ (∀ z, a.op = .load z → t.mem = s.mem) ∧
    ∀ k, a.op = .atom k → a.val.toNat < 256 ^ k.size → a.old.toNat < 256 ^ k.size → changed k (t.rd a.key k.size)
  let arrived (v : BitVec 64) (t : State) : Prop :=
    t = { s with me := { s.me with regs := { s.me.regs with v := t.me.regs.v }, obs := t.me.obs }, mem := t.mem, journal := t.journal, accs := [] } ∧
    (a.dreg = none → t.me.regs.v = s.me.regs.v) ∧
    ∀ d, a.dreg = some d → ∀ n l, l < 32 → t.me.regs.getV n l =
      if n = d ∧ l = a.lane then v.setWidth 32
      else if n = d + 1 ∧ l = a.lane ∧ a.op.wide = true then (v >>> 32).setWidth 32 else s.me.regs.getV n l
  let off (code : Nat) (t : State) : Prop := smGet 0 t.me.fm.codes a.lane = BitVec.ofNat 8 code ∧
    t.act a.lane = false ∧ (∀ l, l < 32 → l ≠ a.lane → t.act l = s.act l) ∧ ∀ p ∈ t.me.paths, p.mask.getLsbD a.lane = false
  let refusals (c : Nat) (t : State) : Prop :=
    (t.core c).rlcount.toNat = min ((s.core c).rlcount.toNat + 1) 0xFFFF
  let pool (c o : Nat) : Prop := ∃ g ∈ s.gang :: s.gangs, g.gid ≠ 0 ∧ g.st = .resident ∧ g.poolHeld = true ∧ 32 * g.stk + g.core = c ∧
    g.base + g.localk * 1024 < o + a.size + (64 + 160 * g.pool) ∧ o < g.base + g.localk * 1024
  let inPool : Prop := ∃ c o, c < 2 ^ 20 ∧ o < 2 ^ 20 ∧ a.key = localKey c o ∧ pool c o
  ((∀ n, a.op = .store n → a.size = n) → (∀ k, a.op = .atom k → a.size = k.size) → (a.op = .accSt → a.size = 4) →
    (a.remote = none → a.st = .waiting → s.locks = [] → ¬ inPool → Gives (.accessPerform a.id) s fun t => acted t ∧ arrived value t) ∧
    (a.st = .sent → Gives (.accessPerform a.id) s fun t => t.mem = s.mem ∧ arrived a.ret t) ∧
    ∀ c o, a.remote = some (c, o) → a.st = .waiting → s.locks = [] → (s.now - a.time).toNat ≤ 65536 →
      let covered : Prop := s.powered (c / 32) = true ∧ o + a.size ≤ (s.core c).lw * 65536 ∧
        ∃ g ∈ s.gang :: s.gangs, g.gid ≠ 0 ∧ g.st = .resident ∧ g.asid = a.asid ∧
          32 * g.stk + g.core = c ∧ g.base ≤ o ∧ o + a.size ≤ g.base + g.localk * 1024
      (covered → ¬ pool c o → Gives (.remoteLocalTarget a.id) s fun t => acted t ∧
        t = { s with mem := t.mem, journal := t.journal, accs := [{ a with st := .sent, ret := value }] }) ∧
      (covered → pool c o → Gives (.remoteLocalTarget a.id) s (· = { s with accs := [{ a with st := .refused, code := 7 }] })) ∧
      (¬ covered → Gives (.remoteLocalTarget a.id) s fun t =>
        t = { s with accs := [{ a with st := .refused }], cores := t.cores } ∧ refusals c t ∧
        (t.core c).rlwho = BitVec.ofNat 48 (s.gang.stk * 2 ^ 45 + s.gang.core * 2 ^ 40 + o % 2 ^ 40))) ∧
  (s.act a.lane = true → s.me.exited = false → (∃ l, l < 32 ∧ l ≠ a.lane ∧ s.act l = true) →
    (∀ p ∈ s.me.paths, p.mask.getLsbD a.lane = true → ∃ l, l < 32 ∧ l ≠ a.lane ∧ p.mask.getLsbD l = true) →
    (a.st = .refused → Gives (.remoteFaultReturn a.id) s fun t => off a.code t ∧ t.mem = s.mem ∧ t.accs = []) ∧
    (a.remote = none → a.st = .waiting → inPool → Gives (.accessPerform a.id) s fun t => off 7 t ∧ t.mem = s.mem ∧ t.accs = []) ∧
    ∀ c o, a.remote = some (c, o) → 65536 ≤ (s.now - a.time).toNat →
      Gives (.remoteTimeout a.id) s fun t => off 9 t ∧ refusals c t ∧ t.mem = s.mem ∧ t.accs = [])

/-- Host accesses (09_ordering R222, R228; 16_stack R357): in stage SERVE an access of 1 to 8 bytes to a mailbox, or to global memory that translates, is one
event that answers the old value and writes what its kind says; a locked range holds it, and in the window of the memory clock so does a miss of its walk
(16_stack R360); nothing else differs. In every other stage there is none. That any size from 1 to 8 bytes at any alignment is one event, and that an
access outside SERVE has no effect, are the model's choices (log 22). -/
def Obligations.HostAccesses : Prop := ∀ (s : State) (h : HostOp),
  (s.pkg.stage ≠ .serve → Gives (.hostAccess h) s (· = s)) ∧
  (0 < h.size → h.size ≤ 8 → s.pkg.stage = .serve → s.windowMiss = true → ∀ asid va, h.target = .global asid va →
    Gives (.hostAccess h) s (· = { s with sys := { s.sys with hosts := s.sys.hosts ++ [(h, [])] } })) ∧
  (0 < h.size → h.size ≤ 8 → s.sys.mclkEnd = none → s.pkg.stage = .serve →
    let n := h.size
    let at_ (s : State) (k : Nat) (t : State) : Prop :=
      let old := s.rd k n
      let new : Nat := match h.act with
        | .load => old
        | .store v => v.toNat % 2 ^ (8 * n)
        | .xchg v => v.toNat % 2 ^ (8 * n)
        | .cas o x => if o.toNat % 2 ^ (8 * n) = old then x.toNat % 2 ^ (8 * n) else old
        | .add v => (old + v.toNat) % 2 ^ (8 * n)
      t = { s with mem := t.mem, journal := t.journal, sys := { s.sys with replies := s.sys.replies ++ [.host (BitVec.ofNat 64 old)] } } ∧
      t.rd k n = new ∧ ∀ j, ¬ (k ≤ j ∧ j < k + n) → t.byte j = s.byte j
    let waits (s : State) (k : Nat) (t : State) : Prop := t = { s with sys := { s.sys with hosts := s.sys.hosts ++ [(h, [(k, n)])] } }
    let writes : Bool := match h.act with | .load => false | _ => true
    (∀ m k, h.target = .mbox m → s.mboxKey m = some k →
      (s.conflicts k n writes = [] → Gives (.hostAccess h) s (at_ s k)) ∧ (s.conflicts k n writes ≠ [] → Gives (.hostAccess h) s (waits s k))) ∧
    ∀ asid va u, h.target = .global asid va → va.toNat % 2 ^ 16 + n ≤ 2 ^ 16 →
      (∀ k, s.q3Walk asid (if writes then .write else .read) va.toNat = (u, .ok k) → u.sys = s.sys →
        (u.conflicts k n writes = [] → Gives (.hostAccess h) s (at_ u k)) ∧ (u.conflicts k n writes ≠ [] → Gives (.hostAccess h) s (waits u k))) ∧
      ∀ c, s.q3Walk asid (if writes then .write else .read) va.toNat = (u, .error c) →
        Gives (.hostAccess h) s fun t => t = { u with sys := { u.sys with replies := u.sys.replies ++ [.hostFault c] } })

/-! ### Translation (10_translation) -/

/-- Walks (10_translation R236 to R238, R241, R253), as the host's and the fault queue's are made, with no cache of translations: four levels from
the root, each entry indexed by its field of the address; a 64 KiB or a 2 MiB leaf gives the page; the leaf takes A, and D for a write; the
first fault of the walk at any level, an entry that is not valid, malformed or not backed by memory, is reported and changes nothing. That a walk
is one step is the model's choice (log 13). -/
def Obligations.Walks : Prop := ∀ (s : State) (asid : Nat) (sup : Bool) (want : Want) (va : Nat), va < 2 ^ 48 →
  let root := (s.ctx asid).root.toNat
  let next (e : BitVec 64) : Nat := e.toNat / 2 ^ 8 % 2 ^ 32 * 2 ^ 8
  let a3 := root + 8 * (va / 2 ^ 39 % 512)
  let a2 := next (s.rd64 a3) + 8 * (va / 2 ^ 30 % 512)
  let a1 := next (s.rd64 a2) + 8 * (va / 2 ^ 21 % 512)
  let a0 := next (s.rd64 a1) + 8 * (va / 2 ^ 16 % 32)
  let pointer (level : Nat) (a : Nat) : Prop :=
    let e := s.rd64 a
    a + 8 ≤ gddrTop ∧ e.getLsbD 0 = true ∧ e.getLsbD 1 = false ∧ e.toNat / 2 ^ 52 = 0 ∧ e.toNat / 2 ^ 40 % 2 ^ 8 = 0 ∧ e.toNat / 2 ^ 2 % 2 ^ 6 = 0 ∧
      (2 ≤ level → next e % 4096 = 0)
  let leaf (a size : Nat) : Prop :=
    let e := s.rd64 a
    a + 8 ≤ gddrTop ∧ e.getLsbD 0 = true ∧ e.getLsbD 1 = true ∧ e.getLsbD 2 = false ∧ e.toNat / 2 ^ 52 = 0 ∧ e.toNat / 2 ^ 40 % 2 ^ 8 = 0 ∧
      next e % size = 0
  let granted (a : Nat) : Prop :=
    let e := s.rd64 a
    next e < gddrTop ∧ (e.getLsbD 5 = true → sup = true) ∧ (want = .write → e.getLsbD 3 = true) ∧ (want = .fetch → e.getLsbD 4 = true)
  let refused (a : Nat) : Nat :=
    let e := s.rd64 a
    if gddrTop ≤ next e then 3 else if e.getLsbD 5 = true ∧ sup = false then 4 else if want = .write ∧ e.getLsbD 3 = false then 5 else 6
  let done (a size : Nat) (r : State × Except Nat Nat) : Prop :=
    r.2 = .ok (next (s.rd64 a) + va % size) ∧ r.1 = { s with mem := r.1.mem, journal := r.1.journal } ∧
    (∀ k, k < 64 → (r.1.rd64 a).getLsbD k = ((s.rd64 a).getLsbD k || k == 6 || (k == 7 && want == .write))) ∧
    ∀ j, ¬ (a ≤ j ∧ j < a + 8) → r.1.byte j = s.byte j
  let r := s.walk none asid sup 0 want va
  let malformed (level : Nat) (e : BitVec 64) : Prop :=
    e.toNat / 2 ^ 52 ≠ 0 ∨ e.toNat / 2 ^ 40 % 2 ^ 8 ≠ 0 ∨ e.getLsbD 2 = true ∨
    (e.getLsbD 1 = true ∧ (2 ≤ level ∨ (level = 1 ∧ next e % 2 ^ 21 ≠ 0) ∨ (level = 0 ∧ next e % 2 ^ 16 ≠ 0))) ∨
    (e.getLsbD 1 = false ∧ (level = 0 ∨ e.toNat / 2 ^ 3 % 2 ^ 5 ≠ 0 ∨ (2 ≤ level ∧ next e % 4096 ≠ 0)))
  let fails (level a : Nat) : Prop :=
    (gddrTop < a + 8 → r = (s, .error 3)) ∧
    (a + 8 ≤ gddrTop → (s.rd64 a).getLsbD 0 = false → r = (s, .error 1)) ∧
    (a + 8 ≤ gddrTop → (s.rd64 a).getLsbD 0 = true → malformed level (s.rd64 a) → r = (s, .error 2))
  ((s.ctx asid).st ≠ .bound → r = (s, .error 1)) ∧
  ((s.ctx asid).st = .bound →
    (pointer 3 a3 → pointer 2 a2 → pointer 1 a1 → leaf a0 (2 ^ 16) →
      (granted a0 → done a0 (2 ^ 16) r) ∧ (¬ granted a0 → r = (s, .error (refused a0)))) ∧
    (pointer 3 a3 → pointer 2 a2 → leaf a1 (2 ^ 21) →
      (granted a1 → done a1 (2 ^ 21) r) ∧ (¬ granted a1 → r = (s, .error (refused a1)))) ∧
    fails 3 a3 ∧ (pointer 3 a3 → fails 2 a2) ∧ (pointer 3 a3 → pointer 2 a2 → fails 1 a1) ∧
    (pointer 3 a3 → pointer 2 a2 → pointer 1 a1 → fails 0 a0))

/-- fence.t and shootdowns (10_translation R243, R251, R252): fence.t moves the path's order point and discards the core's instruction lines; tlb.inv
posts a shootdown and checks its operands, and while 32 are outstanding it is issued again, which is the model's choice (log 16); the acknowledgement removes exactly the covered entries of every cache
of translations; tlb.sync holds the path until the warp's shootdowns are done. -/
def Obligations.Shootdowns : Prop := ∀ s : State,
  (Gives .fenceT s fun t => t = { s with me := { s.me with cur := { s.me.cur with fenced := s.sys.seq + 1 } }, cores := t.cores } ∧
    ∀ c, t.core c = if c = 32 * s.gang.stk + s.gang.core then { s.core c with icache := [] } else s.core c) ∧
  (∀ a b,
    let c := (s.u a).toNat
    let va := s.uu b
    let scope := c / 2 ^ 14
    let asid := c % 2 ^ 12
    let bad : Prop := 2 ^ 16 ≤ c ∨ c / 2 ^ 12 % 4 ≠ 0 ∨ (scope = 3 ∧ asid ≠ 0)
    (bad → exec (.tlbInv a b) s = .next (s.progErr 0x0A01 (BitVec.ofNat 64 c))) ∧
    (¬ bad → scope < 2 → 2 ^ 48 ≤ va.toNat → exec (.tlbInv a b) s = .next (s.progErr 0x0A02 va)) ∧
    (¬ bad → (scope < 2 → va.toNat < 2 ^ 48) →
      let x : Shoot := { id := s.sys.nextOp, scope := scope, asid := asid, va := va.toNat % 2 ^ 48, gid := s.gang.gid, w := s.me.w }
      (s.sys.shoots.length < 32 → Gives (.tlbInv a b) s fun t =>
        t = { s with sys := { s.sys with nextOp := s.sys.nextOp + 1, shoots := s.sys.shoots ++ [x] } }) ∧
      (32 ≤ s.sys.shoots.length → Gives (.tlbInv a b) s fun t => t = { s with
        here := { s.here with trapped := true, retry := true }, me := { s.me with cur := { s.me.cur with pc := s.here.pc, wpos := s.here.wpos } } }))) ∧
  ((∀ x ∈ s.sys.shoots, x.gid ≠ s.gang.gid ∨ x.w ≠ s.me.w) → Gives .tlbSync s (· = s)) ∧
  ((∃ x ∈ s.sys.shoots, x.gid = s.gang.gid ∧ x.w = s.me.w) → Gives .tlbSync s fun t => ∃ ks,
    t = { s with me := { s.me with cur := { s.me.cur with st := .held (.tlbSync ks) } } } ∧
    ∀ k, k ∈ ks ↔ ∃ x ∈ s.sys.shoots, x.gid = s.gang.gid ∧ x.w = s.me.w ∧ x.id = k) ∧
  (∀ x, smWf {} 0 s.cores = true → smWf {} 0 s.stks = true → s.sys.shoots = [x] → x.acked = false →
    let covered (e : TlbEntry) : Prop := match x.scope with
      | 0 => e.asid = x.asid ∧ e.page = if e.big then x.va / 2 ^ 21 else x.va / 2 ^ 16
      | 1 => e.asid = x.asid ∧ (if e.big then e.page else e.page / 32) = x.va / 2 ^ 21
      | 2 => e.asid = x.asid
      | _ => True
    Gives (.shootdownAcknowledged x.id) s fun t =>
      (∀ c e, e ∈ (t.core c).tlb ↔ e ∈ (s.core c).tlb ∧ ¬ covered e) ∧
      (∀ k e, e ∈ (t.stk k).tlb ↔ e ∈ (s.stk k).tlb ∧ ¬ covered e) ∧
      (∀ k e, e ∈ (t.stk k).wcache ↔ e ∈ (s.stk k).wcache ∧ x.scope ≠ 3 ∧ e.asid ≠ x.asid) ∧
      (∀ c, t.core c = { s.core c with tlb := (t.core c).tlb }) ∧ (∀ k, t.stk k = { s.stk k with tlb := (t.stk k).tlb, wcache := (t.stk k).wcache }) ∧
      ∃ accs ops, t = { s with cores := t.cores, stks := t.stks, sys := { s.sys with shoots := [{ x with acked := true, accs := accs, ops := ops }] } } ∧
        (x.scope = 2 → ∀ i, i ∈ accs ↔ ∃ a ∈ s.accs, a.id = i ∧ ∃ p, a.page = some p ∧ p.1 = x.asid)) ∧
  ∀ x, s.sys.shoots = [x] → x.acked = true → (∀ a ∈ s.accs, a.id ∉ x.accs) → (∀ o ∈ s.ops, o.id ∉ x.ops) →
    Gives (.shootdownDone x.id) s fun t => t.sys = { s.sys with shoots := [] } ∧
      (∀ ks, s.me.cur.st = .held (.tlbSync ks) → s.me.halted = false → t.me.cur = { s.me.cur with st := .ready }) ∧
      ((∀ ks, s.me.cur.st ≠ .held (.tlbSync ks)) → t.me.cur = s.me.cur) ∧ t.mem = s.mem

/-- Address-space identifiers (10_translation R253): asid.bind and asid.free with the statuses of the table, asid.stat, and the end of a purge. -/
def Obligations.Asids : Prop := ∀ (s : State) (d a b : BitVec 6),
  let c := (s.u a).toNat
  let asid := c % 2 ^ 12
  let x := s.ctx asid
  let bound : Nat := (s.ctxs.filter fun c => c.2.st == .bound).length
  let root := s.uu b
  let rootGood : Prop := root.toNat % 4096 = 0 ∧ root.toNat + 4096 ≤ gddrTop
  let status (n : Nat) (t : State) : Prop := UniformResult s t (one d (BitVec.ofNat 32 n))
  let idle : Prop := (∀ i ∈ s.insts, i.asid = asid → i.ended = true) ∧
    ∀ g ∈ s.gang :: s.gangs, g.gid ≠ 0 → g.asid = asid → g.st ≠ .resident ∧ g.st ≠ .saved
  (2 ^ 13 ≤ c → exec (.asidBind d a b) s = .next (s.progErr 0x0A01 (BitVec.ofNat 64 c))) ∧
  (2 ^ 12 ≤ c → exec (.asidFree d a) s = .next (s.progErr 0x0A01 (BitVec.ofNat 64 c)) ∧ exec (.asidStat d a) s = .next (s.progErr 0x0A01 (BitVec.ofNat 64 c))) ∧
  (c < 2 ^ 13 →
    (x.st ≠ .free → Gives (.asidBind d a b) s (status 1)) ∧
    (x.st = .free → ¬ rootGood → Gives (.asidBind d a b) s (status 2)) ∧
    (x.st = .free → rootGood → 16 ≤ bound → Gives (.asidBind d a b) s (status 3)) ∧
    (x.st = .free → rootGood → bound < 16 → Gives (.asidBind d a b) s fun t => ∃ s', s' = { s with ctxs := s'.ctxs } ∧
      UniformResult s' t (one d 0) ∧
      s'.ctx asid = { x with st := .bound, priv := (c / 2 ^ 12 == 1), root := root, ending := none } ∧ ∀ k, k ≠ asid → s'.ctx k = s.ctx k)) ∧
  (c < 2 ^ 12 →
    (x.st ≠ .bound ∨ ¬ idle → Gives (.asidFree d a) s (status 1)) ∧
    (x.st = .bound → idle → smWf {} 0 s.cores = true → smWf {} 0 s.stks = true → Gives (.asidFree d a) s fun t =>
      ∃ s', s' = { s with ctxs := s'.ctxs, cores := s'.cores, stks := s'.stks } ∧ UniformResult s' t (one d 0) ∧
      (s'.ctx asid).st = .purging ∧ (∀ k, k < 3 → (s'.ctx asid).acks.getLsbD k = s.powered k) ∧ (∀ k, k ≠ asid → s'.ctx k = s.ctx k) ∧
      (∀ k, ∀ e ∈ (s'.core k).tlb, e.asid ≠ asid) ∧ ∀ k, (∀ e ∈ (s'.stk k).tlb, e.asid ≠ asid) ∧ ∀ e ∈ (s'.stk k).wcache, e.asid ≠ asid) ∧
    Gives (.asidStat d a) s (status ((match x.st with | .free => 0 | .bound => 1 | .purging => 2) + (if x.priv = true ∧ x.st ≠ .free then 4 else 0) + x.acks.toNat * 16))) ∧
  ∀ k, (s.ctx k).st = .purging → (∀ o ∈ s.ops, o.asid ≠ k) → Gives (.asidPurgeDone k) s fun t => t = { s with ctxs := t.ctxs } ∧
    t.ctx k = { s.ctx k with st := .free, priv := false, root := 0, acks := 0 } ∧ ∀ j, j ≠ k → t.ctx j = s.ctx j

/-- Migration (10_translation R238, R249, R255; 09_ordering R223): pg.mig writes the status of its first failing check, an old page that no memory backs
being no leaf; or registers with its locks, for which it waits where the tables have no room; then the page's bytes are
copied, the leaf takes the new frame if it still holds what the registration read, and a shootdown of the page is posted; when that is done the locks
go and the status is written. Where its walk misses in the window of the memory clock the instruction is issued again (16_stack R360). That the
completion comes in these two parts is the model's choice (log 43). -/
def Obligations.Migration : Prop := ∀ s : State,
  (∀ d a b,
    let n := (s.uu a).toNat
    let va := n / 2 ^ 16 % 2 ^ 32 * 2 ^ 16
    let asid := n / 2 ^ 48 % 2 ^ 12
    let big := n / 2 ^ 60 % 2 == 1
    let size := if big then 2 ^ 21 else 2 ^ 16
    let dest := (s.uu b).toNat
    let status (k : Nat) (t : State) : Prop := UniformResult s t (one d (BitVec.ofNat 32 k))
    (2 ^ 61 ≤ n ∨ n % 2 ^ 16 ≠ 0 → exec (.pgMig d a b) s = .next (s.progErr 0x0A01 (s.uu a))) ∧
    (n < 2 ^ 61 → n % 2 ^ 16 = 0 → s.windowMiss = true → Gives (.pgMig d a b) s fun t => t = { s with
      here := { s.here with trapped := true, retry := true }, me := { s.me with cur := { s.me.cur with pc := s.here.pc, wpos := s.here.wpos } } }) ∧
    (n < 2 ^ 61 → n % 2 ^ 16 = 0 → s.windowMiss = false →
      ((s.ctx asid).st ≠ .bound → Gives (.pgMig d a b) s (status 1)) ∧
      ((s.ctx asid).st = .bound →
        (∀ e, s.walkFrom (fun _ => none) va 4 (s.ctx asid).root.toNat = .error e → Gives (.pgMig d a b) s (status 2)) ∧
        ∀ f ps, s.walkFrom (fun _ => none) va 4 (s.ctx asid).root.toNat = .ok (f, ps) →
          let old := f.val.toNat / 2 ^ 8 % 2 ^ 32 * 2 ^ 8
          let bad : Prop := dest % size ≠ 0 ∨ gddrTop < dest + size ∨ (old < dest + size ∧ dest < old + size)
          let leaf : Prop := (f.level == 1) = big ∧ old + size ≤ gddrTop
          (¬ leaf → Gives (.pgMig d a b) s (status 2)) ∧
          (leaf → bad → Gives (.pgMig d a b) s (status 3)) ∧
          (leaf → ¬ bad →
            let rs := cut64 false old 33 size ++ cut64 true dest 33 size
            let arr := [s.now.toNat, s.gang.stk, s.gang.core, s.me.track, s.me.slot]
            let m : Mig := { id := s.sys.nextOp, gid := s.gang.gid, w := s.me.w, path := s.me.cur.id, dreg := d.toNat, asid := asid, va := va, big := big,
                             leaf := f.addr, old := f.val, from_ := old, dest := dest, rngs := rs }
            let takes (m : Mig) (t : State) : Prop := t = { s with sys := { s.sys with nextOp := s.sys.nextOp + 1, migs := s.sys.migs ++ [m] } }
            let room := (State.takeId s).2.entriesFor rs fun x => !lexLt arr x
            (∀ ls, room = some ls → Gives (.pgMig d a b) s (takes { m with locks := ls })) ∧
            (room = none → Gives (.pgMig d a b) s (takes { m with arr := arr })))))) ∧
  ∀ m, s.sys.migs = [m] → m.arr = [] →
    let size := if m.big then 2 ^ 21 else 2 ^ 16
    (m.shoot = none → s.blocked m.id m.locks = false → s.sys.shoots.length < 32 → m.dest + size ≤ m.from_ ∨ m.from_ + size ≤ m.dest → m.leaf + 8 ≤ m.dest ∨ m.dest + size ≤ m.leaf →
      m.dest % 2 ^ 16 = 0 → m.dest < 2 ^ 40 → Gives (.pgMigCompletion m.id) s fun t =>
        let kept : Prop := s.rd64 m.leaf = m.old
        (∀ i, i < size → ¬ (m.leaf ≤ m.from_ + i ∧ m.from_ + i < m.leaf + 8) → t.byte (m.dest + i) = s.byte (m.from_ + i)) ∧
        (∀ k, k < 64 → (t.rd64 m.leaf).getLsbD k =
          if kept ∧ 8 ≤ k ∧ k < 40 then m.dest.testBit k else (s.rd64 m.leaf).getLsbD k) ∧
        (∀ j, ¬ (m.dest ≤ j ∧ j < m.dest + size) → ¬ (m.leaf ≤ j ∧ j < m.leaf + 8) → t.byte j = s.byte j) ∧
        t.me = { s.me with ev := t.me.ev, paths := t.me.paths, cur := { s.me.cur with st := t.me.cur.st } } ∧
        ((∀ x ∈ s.me :: s.warps, x.ev = [] ∧ ∀ p ∈ x.cur :: x.paths, ∀ a b c d e f g, p.st ≠ .held (.mwait a b c d e f g)) → t.me = s.me ∧ t.warps = s.warps) ∧
        ∃ good x, (good = true ↔ kept) ∧ t = { s with me := t.me, warps := t.warps, mem := t.mem, journal := t.journal, sys := { s.sys with
          nextOp := s.sys.nextOp + 1, migs := [{ m with shoot := some x.id, good := good }], shoots := t.sys.shoots } } ∧
          t.sys.shoots.getLast? = some x ∧ x.id = s.sys.nextOp ∧ x.scope = (if m.big then 1 else 0) ∧ x.asid = m.asid ∧ x.va = m.va ∧ x.acked = false) ∧
    ∀ i, m.shoot = some i → (∀ x ∈ s.sys.shoots, x.id ≠ i) → m.gid = s.me.gid → m.w = s.me.w → (∀ y ∈ s.warps, y.gid ≠ m.gid ∨ y.w ≠ m.w) →
      Gives (.pgMigCompletion m.id) s fun t =>
        t = { s with me := { s.me with regs := { s.me.regs with u := t.me.regs.u } }, sys := { s.sys with migs := [] } } ∧
        ∀ n, uniGet t.me.regs.u n = if n = m.dreg ∧ n ≠ 0 then (if m.good then 0 else 4) else uniGet s.me.regs.u n

/-- Parked paths and bounced pages (10_translation R244 to R248, R256): a parked path's fault takes the lowest free slot with its record and token;
pf.resume frees the slot, and the path replays, goes on without its unfinished lanes, or takes the trap of class ACCESS, which ends a context without
a handler; bb.move copies the marked bytes to the frame and frees the slot, its users' locks going to the frame, and is issued again where the tables
have no room for them. That the record is an event of its own, and the walks made in one step, is the model's choice (log 13), and so are that bb.move is
issued again where the tables have no room (log 16), and what its users' locks become on the frame (log 50). -/
def Obligations.FaultsAndResumes : Prop := ∀ s : State,
  (∀ (k : Park) (fid : Nat), s.me.gid ≠ 0 → s.gang.gid = s.me.gid → s.me.cur.mask ≠ 0 → s.me.cur.id < 64 →
    (∀ q ∈ s.me.paths, q.id ≠ s.me.cur.id) → (∀ x ∈ s.warps, x.gid ≠ s.me.gid ∨ x.w ≠ s.me.w) →
    s.me.cur.st = .parked k → k.fid = none → k.action = none →
    let base := s.pkg.pfqbase.toNat
    let token := BitVec.ofNat 64 (fid * 2 ^ 32 + s.gang.asid * 2 ^ 16 + 3)
    s.sys.mclkEnd = none → base ≠ 0 → base % 2 ^ 16 = 0 → base + 2 ^ 18 ≤ gddrTop → fid < 4096 → (∀ f ∈ s.sys.faults, f.1 ≠ fid) → (∀ i, i < fid → ∃ f ∈ s.sys.faults, f.1 = i) →
    Gives (.faultRecordWrite s.me.gid s.me.w s.me.cur.id) s fun t =>
      let r := base + 64 * fid
      t = { s with me := { s.me with cur := { s.me.cur with st := .parked { k with fid := some fid } } }, mem := t.mem, journal := t.journal
                   pkg := { s.pkg with tokdrop := t.pkg.tokdrop }
                   sys := { s.sys with toks := t.sys.toks, faults := s.sys.faults ++ [(fid, .path s.me.gid s.me.w s.me.cur.id, k.kind)] } } ∧
      t.rd r 2 = fid ∧ t.rd (r + 2) 1 = k.kind % 256 ∧ t.rd (r + 3) 1 = k.code % 256 ∧ t.rd (r + 4) 2 = s.gang.asid % 2 ^ 16 ∧
      t.rd (r + 6) 1 = s.gang.stk % 256 ∧ t.rd (r + 7) 1 = s.gang.core % 256 ∧ t.rd (r + 8) 2 = s.me.slot % 2 ^ 16 ∧ t.rd (r + 10) 1 = s.me.cur.id ∧
      t.rd (r + 11) 1 = k.access % 256 ∧ t.rd (r + 12) 4 = k.mask.toNat ∧ t.rd (r + 16) 8 = k.va.toNat ∧ t.rd (r + 24) 8 = 0 ∧
      t.rd (r + 32) 8 = k.time.toNat ∧ t.rd (r + 40) 4 = s.gang.task % 2 ^ 32 ∧ t.rd (r + 44) 4 = s.gang.index % 2 ^ 32 ∧ t.rd (r + 48) 16 = 0 ∧
      (∀ m, s.sys.toks = [] → s.pkg.supmbx.toNat < 2 ^ 32 → s.mboxKey (s.pkg.supmbx.setWidth 32) = some m → s.rd m 8 = 0 →
        t.rd64 m = token ∧ t.sys.toks = []) ∧
      (2 ^ 32 ≤ s.pkg.supmbx.toNat → s.sys.toks.length < 16 → t.sys.toks = s.sys.toks ++ [token])) ∧
  (∀ d a b,
    let fid := (s.u a).toNat
    let act := (s.u b).toNat
    let status (n : Nat) (t : State) : Prop := UniformResult s t (one d (BitVec.ofNat 32 n))
    (2 ^ 12 ≤ fid → exec (.pfResume d a b) s = .next (s.progErr 0x0A01 (BitVec.ofNat 64 fid))) ∧
    (fid < 2 ^ 12 → 4 ≤ act → exec (.pfResume d a b) s = .next (s.progErr 0x0A01 (BitVec.ofNat 64 act))) ∧
    (fid < 2 ^ 12 → act < 4 →
      ((∀ f ∈ s.sys.faults, f.1 = fid → f.2.2 = 4) → Gives (.pfResume d a b) s (status 1)) ∧
      ((∃ f ∈ s.sys.faults, f.1 = fid ∧ f.2.2 ≠ 4) → act = 3 → Gives (.pfResume d a b) s (status 2)) ∧
      ∀ id kind (q : Path) k, s.issue = .lane → s.sys.faults = [(fid, .path s.me.gid s.me.w id, kind)] → kind ≠ 4 → s.me.gid ≠ 0 → s.gang.gid = s.me.gid →
        s.gang.st ≠ .saved → s.me.pre.st ≠ .saved → s.me.halted = false → s.me.trc.on = false → s.me.exited = false → s.me.cur.mask ≠ 0 →
        s.me.cur.id ≠ id → s.me.paths = [q] → q.id = id → q.mask ≠ 0 → q.st = .parked k → k.trap = none →
        (∀ x ∈ s.warps, x.gid ≠ s.me.gid ∨ x.w ≠ s.me.w) →
        (act = 0 → Gives (.pfResume d a b) s fun t => ∃ s', UniformResult s s' (one d 0) ∧
          t = { s' with me := { s'.me with paths := [{ q with st := .ready }] }, sys := { s.sys with faults := [] } }) ∧
        (act = 1 → (∃ l, l < 32 ∧ q.mask.getLsbD l = true ∧ k.mask.getLsbD l = false) → (∀ l, l < 32 → ¬ (q.mask.getLsbD l = true ∧ s.act l = true)) →
          Gives (.pfResume d a b) s fun t => t.sys = { s.sys with faults := [] } ∧ t.me.cur.mask = s.me.cur.mask ∧
            (∀ l, l < 32 → smGet 0 t.me.fm.codes l =
              if q.mask.getLsbD l = true ∧ k.mask.getLsbD l = true then 0x0A else smGet 0 s.me.fm.codes l) ∧
            ∃ q' ∈ t.me.paths, q'.id = id ∧ q'.st = .ready ∧ q'.mask = q.mask &&& ~~~k.mask ∧ q'.pc = q.pc ∧ q'.wpos = q.wpos) ∧
        (act = 2 → q.hmode = .none → s.me.cur.hmode = .none →
          let base := (s.ctx s.gang.asid).tvbase
          (base = 0 → (s.ctx s.gang.asid).ending = none → Gives (.pfResume d a b) s fun t => t.sys = { s.sys with faults := [] } ∧
            ∃ r, t.ctx s.gang.asid = { s.ctx s.gang.asid with ending := some r } ∧ r.cls = 5 ∧ r.code = k.code ∧ r.info = k.va ∧ r.path = id ∧
              r.tmask = q.mask ∧ r.tpc = q.pc.setWidth 64 ∧ r.time = s.now) ∧
          ∀ e h, base ≠ 0 → base.toNat % 64 = 0 → base.toNat + 48 < 2 ^ 48 →
            (s.core s.coreNo).tlb.find? (fun e => e.serves s.gang.asid s.priv q.fenced .read (base.toNat + 40)) = some e →
            s.rd64 (e.target (base.toNat + 40)) = h → h ≠ 0 → h.toNat % 12 = 0 → h.toNat < 2 ^ 48 →
            Gives (.pfResume d a b) s fun t => t.sys = { s.sys with faults := [] } ∧
              (∃ q' ∈ t.me.paths, q'.id = id ∧ q'.st = .ready ∧ q'.hmode = .trap ∧ q'.mask = q.mask ∧ q'.pc = h.setWidth 48 ∧ q'.wpos = 0 ∧
                q'.tpc = q.pc ∧ q'.twpos = q.wpos ∧ q'.replay = none) ∧
              ∀ l, l < 32 → q.mask.getLsbD l = true →
                let f := s.me.stackAt l 512
                t.rd f 8 = q.pc.toNat ∧ t.rd (f + 9) 1 = 1 ∧ t.rd (f + 12) 4 = q.mask.toNat ∧ t.rd (f + 16) 2 = 5 ∧ t.rd (f + 18) 2 = k.code % 2 ^ 16 ∧
                t.rd (f + 24) 8 = k.va.toNat))) ∧
  ∀ d a b',
    let fid := (s.u a).toNat % 2 ^ 12
    let frame := (s.uu b').toNat
    let status (n : Nat) (t : State) : Prop := UniformResult s t (one d (BitVec.ofNat 32 n))
    ((∀ f ∈ s.sys.faults, f.1 = fid → f.2.2 ≠ 4) → Gives (.bbMove d a b') s (status 1)) ∧
      ∀ stk slot, s.sys.faults = [(fid, .bounce stk slot, 4)] →
        (frame % 2 ^ 16 ≠ 0 ∨ gddrTop < frame + 2 ^ 16 → Gives (.bbMove d a b') s (status 3)) ∧
        (frame % 2 ^ 16 = 0 → frame + 2 ^ 16 ≤ gddrTop →
          let b := smGet {} (s.stk stk).bslots slot
          let pa := (s.stk stk).bbbase.toNat + slot * 73728
          let moved := s.rebaseAll pa frame (stk * 256 + slot) b.marks b.users
          let marked (i : Nat) : Prop := ∃ m ∈ b.marks, m.1 ≤ i ∧ i < m.1 + m.2
          (b.users = [] → moved = some s) ∧
          (moved = none → Gives (.bbMove d a b') s fun t => t = { s with
            here := { s.here with trapped := true, retry := true }, me := { s.me with cur := { s.me.cur with pc := s.here.pc, wpos := s.here.wpos } } }) ∧
          ∀ u, moved = some u → (∀ i, marked i → i < 2 ^ 16) →
          Gives (.bbMove d a b') s fun t => ∃ s', UniformResult s' t (one d 0) ∧
            s' = { s with mem := t.mem, journal := t.journal, stks := t.stks, ops := u.ops, sys := { s.sys with faults := [] } } ∧
            (∀ i, marked i → t.byte (frame + i) = s.byte (pa + i)) ∧
            (∀ j, (∀ i, marked i → j ≠ frame + i) → t.byte j = s.byte j) ∧
            (∀ k, t.stk k = if k = stk then { s.stk k with bslots := (t.stk k).bslots } else s.stk k) ∧
            smGet {} (t.stk stk).bslots slot = {} ∧ ∀ j, j ≠ slot → smGet {} (t.stk stk).bslots j = smGet {} (s.stk stk).bslots j)

/-! ### Bulk copies and transaction barriers (11_copy) -/

/-- A copy's three events (11_copy R259 to R265, R267; 09_ordering R221 to R223): with nothing else outstanding, cpy or cpy.fill between own local
memory registers with the destination's hull under FULL-LOCK and the source's under WRITE-LOCK, starts, and completes; then each destination element in bounds holds the source element as it stood, or
the fill byte, no other byte has changed, and the locks are gone. The destination elements are at different bytes. -/
def Obligations.CopiesMoveBoxes : Prop := ∀ (s : State) (a b : BitVec 6) (src dst : LRec) (so do_ : Nat),
  s.issue = .lane → b = 0 → s.un (a.toNat + 7) = 0 → s.uuAt a 2 = BitVec.ofNat 64 (0xFFF0 * 2 ^ 48 + do_) →
  s.ops = [] → s.sys.migs = [] → s.gang.poolHeld = false → s.gang.localk ≤ 1024 → s.coreNo < 96 → s.gang.base + s.gang.localk * 1024 ≤ 2 ^ 20 → s.gang.gid ≠ 0 → s.enforced = false →
  s.sys.mclkEnd = none → (∀ g ∈ s.gang :: s.gangs, g.array = none) →
  let half (i j : Nat) : Int := ((s.un (a.toNat + i) >>> (16 * j)).setWidth 16).toInt
  let loc (off : Nat) : Nat := localKey s.coreNo (s.gang.base + off)
  let box (i j k : Nat) : Prop := i < dst.box0 ∧ j < dst.box1 ∧ k < dst.box2 ∧ dst.inside i j k = true
  LocalBytes s do_ (half 5 1) (half 6 0) (half 6 1) dst →
  (∀ i j k i' j' k', box i j k → box i' j' k' → LocalElem dst i j k = LocalElem dst i' j' k' → i = i' ∧ j = j' ∧ k = k') →
  let n := s.sys.nextOp
  let runs (i : Instr) (read : Nat → Nat → Nat → Option Nat) (v : Nat → Nat → Nat → BitVec 8) : Prop := ∃ t o, exec i s = .next t ∧
    t = { s with ops := [o], sys := { s.sys with nextOp := n + 1 } } ∧ o.id = n ∧ o.phase = .registered ∧
    (∀ i j k, box i j k → ∃ l ∈ o.locks, l.full = true ∧ l.base ≤ loc (LocalElem dst i j k) ∧ loc (LocalElem dst i j k) < l.base + l.len) ∧
    (∀ i j k m, box i j k → read i j k = some m → ∃ l ∈ o.locks, l.full = false ∧ l.base ≤ m ∧ m < l.base + l.len) ∧
    ∃ u ws, exec (.engineQueueStart n) t = .next u ∧ u = { t with ops := [{ o with phase := .started, writes := ws }], cores := u.cores } ∧
      (∀ c, u.core c = { t.core c with used := (u.core c).used }) ∧
      ∃ w, exec (.engineCompletion n) u = .next w ∧ w.ops = [] ∧
        (∀ i j k, box i j k → w.byte (loc (LocalElem dst i j k)) = v i j k) ∧
        (∀ m, (∀ i j k, box i j k → m ≠ loc (LocalElem dst i j k)) → w.byte m = s.byte m) ∧ w.me.regs = s.me.regs
  runs (.cpyFill a b) (fun _ _ _ => none) (fun _ _ _ => dst.fill.setWidth 8) ∧
  (s.uuAt a 0 = BitVec.ofNat 64 (0xFFF0 * 2 ^ 48 + so) → LocalBytes s so (half 4 0) (half 4 1) (half 5 0) src → src.agrees dst = true →
    runs (.cpy a b) (fun i j k => if src.inside i j k = true then some (loc (LocalElem src i j k)) else none) fun i j k => if src.inside i j k = true then s.byte (loc (LocalElem src i j k)) else src.fill.setWidth 8)

/-- Waiting operations (09_ordering R223; 11_copy R267): of two copies that wait, the one that arrived first goes on when the queue has a place, or
the tables have the entries, if its checks, made again, pass; it keeps the time of its issue (17_debug R375), and the other waits on. The order of arrival, and that the checks are made again, are the
model's choice where the rules leave them open (log 38). -/
def Obligations.WaitingOperations : Prop := ∀ (s : State) (p q o : EngOp),
  s.ops = [p, q] ∨ s.ops = [q, p] → p.id ≠ q.id → lexLt p.arr q.arr = true → q.phase = p.phase → q.locks = [] →
  s.gang.gid ≠ 0 → p.gid = s.gang.gid → s.me.gid = p.gid → s.me.w = p.w → s.issue = .lane → s.me.cur.id = p.path → s.me.cur.mask ≠ 0 →
  s.here = { pc := p.pc, wpos := p.wpos, npc := p.npc, nwpos := p.nwpos } → p.cls = 4 →
  let t : State := { s with ops := [q] }
  ∀ fill regs src dst, p.body = .copy fill regs src dst →
  t.evalCopy fill regs p.dmask = .ok t o → o.cls = 4 → o.bounced = [] → (∃ r x y, o.body = .copy fill r x y) →
  s.sys.migs = [] → o.ranges.length ≤ 1 → (∀ r ∈ o.ranges, 2 ^ 40 ≤ r.base ∧ r.base < 2 ^ 41) →
  s.windowMiss = false → (∀ x ∈ s.me :: s.warps, x.leaves = false) →
  let registered (placed : Bool) (u : State) : Prop := ∃ ls snap, u = { s with
    ops := [q, { o with id := s.sys.nextOp, phase := .registered, locks := ls, snap := snap, birth := p.birth, placed := placed }]
    sys := { s.sys with nextOp := s.sys.nextOp + 1 } }
  (p.phase = .waitPlace → Gives (.copyQueueAdmit (32 * p.stk + p.core)) s (registered true)) ∧
  (p.phase = .waitEntries → Gives .rangeEntryGrant s (registered o.placed))

/-- Transaction barriers (11_copy R269 to R272), on a slot of the own local memory: tbr.init, tbr.arrive, tbr.owe and tbr.retire change the slot as R271 and
R272 say, as one event, and no other byte; a slot that is not valid or not clean, a busy one, and a bad count are program errors. A slot among the source
bytes of a matrix operation in the array waits for it (13_matrix R296): the instruction is issued again. -/
def Obligations.TransactionBarriers : Prop := ∀ s : State,
  let slot (a : BitVec 64) : Nat := localKey s.coreNo (s.gang.base + a.toNat % 2 ^ 48)
  let named (a : BitVec 64) : Prop := a.toNat / 2 ^ 48 = 0xFFF0 ∧ a.toNat % 16 = 0 ∧ a.toNat % 2 ^ 48 + 16 ≤ s.gang.localk * 1024
  let clean (k : Nat) : Prop := s.rd (k + 13) 3 = 0 ∧ s.rd (k + 12) 1 < 8
  let valid (k : Nat) : Prop := s.rd (k + 12) 1 % 2 = 1
  let holds (k : Nat) (phase : BitVec 32) (acount arrivals : Nat) (owed : BitVec 32) (flags : Nat) (t : State) : Prop :=
    t.rd32 k = phase ∧ t.rd (k + 4) 2 = acount ∧ t.rd (k + 6) 2 = arrivals ∧ t.rd32 (k + 8) = owed ∧ t.rd (k + 12) 1 = flags ∧ t.rd (k + 13) 3 = 0 ∧
    ∀ j, ¬ (k ≤ j ∧ j < k + 16) → t.byte j = s.byte j
  let settles (k : Nat) (acount : Nat) (owed : BitVec 32) (flags : Nat) (t : State) : Prop :=
    let arrivals := s.rd (k + 6) 2
    if acount = 0 ∧ owed = 0 then holds k (s.rd32 k + 1) arrivals arrivals 0 flags t else holds k (s.rd32 k) acount arrivals owed flags t
  let onlyMem (t : State) : Prop := t = { s with mem := t.mem, journal := t.journal }
  let bad (i : Instr) (code : Nat) (info : BitVec 64) : Prop := exec i s = .next (s.progErr code info)
  let free (a : BitVec 64) : Prop := s.mxHolds (slot a) 16 = false
  let waits (t : State) : Prop := t = { s with
    here := { s.here with trapped := true, retry := true }, me := { s.me with cur := { s.me.cur with pc := s.here.pc, wpos := s.here.wpos } } }
  (∀ a b d, named (s.uu a) → ¬ free (s.uu a) → Gives (.tbrInit a b) s waits ∧ Gives (.tbrArrive d a) s waits ∧ Gives (.tbrOwe a b) s waits ∧
    Gives (.tbrRetire a) s waits) ∧
  (∀ a d, ¬ (named (s.uu a) ∧ clean (slot (s.uu a)) ∧ valid (slot (s.uu a))) → (named (s.uu a) → free (s.uu a)) →
    bad (.tbrArrive d a) 0x0B06 (s.uu a) ∧ bad (.tbrRetire a) 0x0B06 (s.uu a) ∧ ∀ b, bad (.tbrOwe a b) 0x0B06 (s.uu a)) ∧
  (∀ a b,
    let k := slot (s.uu a)
    let c := (s.u b).toNat
    (¬ (named (s.uu a) ∧ clean k) → (named (s.uu a) → free (s.uu a)) → bad (.tbrInit a b) 0x0B06 (s.uu a)) ∧
    (named (s.uu a) → free (s.uu a) → clean k →
      (c = 0 ∨ 65535 < c → bad (.tbrInit a b) 0x0B08 (BitVec.ofNat 64 c)) ∧
      (0 < c → c ≤ 65535 → valid k → bad (.tbrInit a b) 0x0B07 (s.uu a)) ∧
      (0 < c → c ≤ 65535 → ¬ valid k → Gives (.tbrInit a b) s fun t => onlyMem t ∧ holds k (s.rd32 k) c c 0 1 t) ∧
      (valid k →
        (65535 < c → bad (.tbrOwe a b) 0x0B08 (BitVec.ofNat 64 c)) ∧
        (c ≤ 65535 → Gives (.tbrOwe a b) s fun t => onlyMem t ∧
          settles k (s.rd (k + 4) 2) (s.rd32 (k + 8) + BitVec.ofNat 32 c)
            (s.rd (k + 12) 1 ||| (if 2 ^ 31 ≤ (s.rd32 (k + 8)).toInt + c then 4 else 0)) t)))) ∧
  (∀ a d,
    let k := slot (s.uu a)
    named (s.uu a) → free (s.uu a) → clean k → valid k → Gives (.tbrArrive d a) s fun t => ∃ s', onlyMem s' ∧ UniformResult s' t (one d (s.rd32 k)) ∧
      if s.rd (k + 4) 2 = 0 then holds k (s.rd32 k) 0 (s.rd (k + 6) 2) (s.rd32 (k + 8)) (s.rd (k + 12) 1 ||| 2) s'
      else settles k (s.rd (k + 4) 2 - 1) (s.rd32 (k + 8)) (s.rd (k + 12) 1) s') ∧
  ∀ a,
    let k := slot (s.uu a)
    let off := (s.uu a).toNat % 2 ^ 48
    let reports (o : EngOp) : Prop := o.gid = s.gang.gid ∧ o.slot = some off ∧ (o.phase = .registered ∨ o.phase = .started)
    named (s.uu a) → free (s.uu a) → clean k → valid k →
    ((∀ o ∈ s.ops, ¬ reports o) → Gives (.tbrRetire a) s fun t => onlyMem t ∧ holds k (s.rd32 k + 1) 0 0 0 0 t) ∧
    ((∃ o ∈ s.ops, reports o) → Gives (.tbrRetire a) s fun t =>
      t = { s with me := { s.me with cur := { s.me.cur with st := .held (.tbrRetire off) } } }) ∧
    (s.me.gid ≠ 0 → s.gang.gid = s.me.gid → s.gang.st = .resident → s.me.halted = false → s.me.cur.mask ≠ 0 →
      (∀ q ∈ s.me.paths, q.id ≠ s.me.cur.id) → (∀ x ∈ s.warps, x.gid ≠ s.me.gid ∨ x.w ≠ s.me.w) →
      s.me.cur.st = .held (.tbrRetire off) → (∀ o ∈ s.ops, ¬ reports o) →
      Gives (.tbrRetireDone s.me.gid s.me.w s.me.cur.id) s fun t => holds k (s.rd32 k + 1) 0 0 0 0 t ∧
        t = { s with me := { s.me with cur := { s.me.cur with st := .ready } }, mem := t.mem, journal := t.journal })

/-! ### Streams, fibres and expert routing (12_streams) -/

/-- Stream and fibre registers (12_streams R276, R278, R281, R282, R284): a malformed block, an open of a register that is not closed, and an advance or a
test of one that is not open are program errors, of which fib.open meets the second first; str.open, str.openi and fib.open set the register from their block, a store stream with its hull
in the own local memory as one registered operation that locks the hull; str.adv, str.tend, str.close, fib.tend and fib.close do as R281
and R283 say; the address engine changes nothing but how far it has read ahead for a warp that is on its core, and that only where what it reads neither faults nor meets a locked range. -/
def Obligations.StreamRegisters : Prop := ∀ s : State,
  let w (u : BitVec 6) (k : Nat) : Word := s.un (u.toNat + k)
  let only (n : BitVec 3) (x : StreamReg) (t : State) : Prop :=
    t = { s with me := { s.me with streams := t.me.streams } } ∧ ∀ k, t.stream k = if k = n.toNat then x else s.stream k
  let onlyF (n : BitVec 2) (x : FibreReg) (t : State) : Prop :=
    t = { s with me := { s.me with fibres := t.me.fibres } } ∧ ∀ k, t.fibre k = if k = n.toNat then x else s.fibre k
  let bad (i : Instr) (code : Nat) : Prop := ∃ info, exec i s = .next (s.progErr code info)
  (∀ n u,
    let ctl := w u 5
    let size := 2 ^ (ctl.toNat % 4)
    let x : StreamReg := { abase := s.uuAt u 0, istr := w u 2, lstr := w u 3, count := w u 4, sext := ctl.getLsbD 3, dir := ctl.getLsbD 2,
                           size := ctl.setWidth 2, st := .affine }
    let malformed : Prop := ctl.toNat / 32 ≠ 0 ∨ x.count = 0 ∨ (x.sext = true ∧ (2 ≤ ctl.toNat % 4 ∨ x.dir = true)) ∨ ctl.getLsbD 4 = true ∨
      (x.dir = true ∧ (x.abase.toNat % size ≠ 0 ∨ x.istr.toNat % size ≠ 0 ∨ x.lstr.toNat % size ≠ 0))
    (malformed → bad (.strOpen n u) 0x0C01) ∧
    (¬ malformed → (s.stream n.toNat).st ≠ .closed → bad (.strOpen n u) 0x0C02) ∧
    (¬ malformed → (s.stream n.toNat).st = .closed → x.dir = false → Gives (.strOpen n u) s (only n x)) ∧
    (¬ malformed → (s.stream n.toNat).st = .closed → x.dir = true → s.ops = [] → s.sys.migs = [] → s.coreNo < 96 → s.gang.poolHeld = false →
      s.gang.localk ≤ 1024 → s.gang.base + s.gang.localk * 1024 ≤ 2 ^ 20 → ∀ off : Nat → Nat → Nat,
      (∀ i l, i < x.count.toNat → l < 32 → (x.abase.toNat : Int) + i * x.istr.toInt + l * x.lstr.toInt = 0xFFF0 * 2 ^ 48 + (off i l : Int) ∧
        off i l + size ≤ s.gang.localk * 1024) →
      Gives (.strOpen n u) s fun t => ∃ o,
        t = { s with me := { s.me with streams := t.me.streams }, ops := [o], sys := { s.sys with nextOp := s.sys.nextOp + 1 } } ∧
        (∀ k, t.stream k = if k = n.toNat then { x with op := some s.sys.nextOp } else s.stream k) ∧
        o.id = s.sys.nextOp ∧ o.phase = .started ∧ o.closing = false ∧ o.writes = [] ∧
        ∀ i l, i < x.count.toNat → l < 32 → ∃ e ∈ o.locks, e.full = true ∧ e.base ≤ localKey s.coreNo (s.gang.base + off i l) ∧
          localKey s.coreNo (s.gang.base + off i l) + size ≤ e.base + e.len)) ∧
  (∀ n u,
    let ctl := w u 7
    let x : StreamReg := { abase := s.uuAt u 0, ibase := s.uuAt u 2, istr := w u 4, lstr := w u 5, count := w u 6, isgn := ctl.getLsbD 4,
                           sext := ctl.getLsbD 3, size := ctl.setWidth 2, st := .indirect }
    let malformed : Prop := ctl.toNat / 32 ≠ 0 ∨ x.count = 0 ∨ (x.sext = true ∧ 2 ≤ ctl.toNat % 4) ∨ ctl.getLsbD 2 = true
    (malformed → bad (.strOpeni n u) 0x0C01) ∧
    (¬ malformed → (s.stream n.toNat).st ≠ .closed → bad (.strOpeni n u) 0x0C02) ∧
    (¬ malformed → (s.stream n.toNat).st = .closed → Gives (.strOpeni n u) s (only n x))) ∧
  (∀ n : BitVec 3,
    let x := s.stream n.toNat
    let isOpen : Prop := x.st = .affine ∨ x.st = .indirect
    (¬ isOpen → (∀ u, bad (.strAdv n u) 0x0C02) ∧ (∀ p, bad (.strTend p n) 0x0C02) ∧ Gives (.strClose n) s (· = s)) ∧
    (isOpen →
      (∀ u, Gives (.strAdv n u) s (only n { x with pos := BitVec.ofNat 32 (min (x.pos.toNat + (s.u u).toNat) x.count.toNat), ahead := 0 })) ∧
      (∀ p, Gives (.strTend p n) s fun t => PredResult s t p fun _ => decide (x.pos = x.count)) ∧
      (x.dir = false → Gives (.strClose n) s (only n { x with st := .closed, ahead := 0 })) ∧
      (x.dir = true → Gives (.strClose n) s fun t =>
        t = { s with me := { s.me with streams := t.me.streams }, ops := s.ops.map fun o => if x.op = some o.id then { o with closing := true } else o } ∧
        ∀ k, t.stream k = if k = n.toNat then { x with st := .closing } else s.stream k))) ∧
  (∀ n u,
    let ctl := w u 6
    let malformed : Prop := (w u 5).toNat < (w u 4).toNat ∨ ctl.toNat / 16 ≠ 0 ∨ ctl.getLsbD 2 = true ∨ (ctl.getLsbD 3 = true ∧ ctl.getLsbD 1 = true)
    ((s.fibre n.toNat).isOpen = true → bad (.fibOpen n u) 0x0C02) ∧
    ((s.fibre n.toNat).isOpen = false → malformed → bad (.fibOpen n u) 0x0C01) ∧
    ((s.fibre n.toNat).isOpen = false → ¬ malformed → Gives (.fibOpen n u) s
      (onlyF n { crd := s.uuAt u 0, val := s.uuAt u 2, cur := w u 4, fin := w u 5, size := ctl.setWidth 2, sext := ctl.getLsbD 3, isOpen := true }))) ∧
  (∀ n : BitVec 2,
    ((s.fibre n.toNat).isOpen = false → ∀ p, bad (.fibTend p n) 0x0C02) ∧
    ((s.fibre n.toNat).isOpen = true → ∀ p, Gives (.fibTend p n) s fun t =>
      PredResult s t p fun _ => decide ((s.fibre n.toNat).cur = (s.fibre n.toNat).fin)) ∧
    Gives (.fibClose n) s (onlyF n { s.fibre n.toNat with isOpen := false, ahead := 0 })) ∧
  (s.me.gid ≠ 0 → s.gang.gid = s.me.gid → (∀ x ∈ s.warps, x.gid ≠ s.me.gid ∨ x.w ≠ s.me.w) → ∀ q : BitVec 4,
    let there : Prop := s.me.exited = false ∧ s.me.pre.st ≠ .saved ∧ s.gang.st = .resident
    (¬ there → Gives (.addressEngineRunAhead s.me.gid s.me.w q) s (· = s)) ∧
    (there → Gives (.addressEngineRunAhead s.me.gid s.me.w q) s fun t =>
    t = { s with me := { s.me with streams := t.me.streams, fibres := t.me.fibres } } ∧
    (∀ k,
      let x := s.stream k
      let more : Prop := k = q.toNat ∧ k < 8 ∧ (x.st = .affine ∨ x.st = .indirect) ∧ x.dir = false ∧ x.ahead < 8 ∧ x.pos.toNat + x.ahead < x.count.toNat ∧
        s.streamEarly x = true
      (more → t.stream k = { x with ahead := x.ahead + 1 }) ∧ (¬ more → t.stream k = x)) ∧
    ∀ k,
      let x := s.fibre k
      let more : Prop := k + 8 = q.toNat ∧ x.isOpen = true ∧ x.ahead < 8 ∧ x.cur.toNat + x.ahead < x.fin.toNat ∧ s.fibreEarly x = true
      (more → t.fibre k = { x with ahead := x.ahead + 1 }) ∧ (¬ more → t.fibre k = x)))

/-- Elements of streams and fibres (12_streams R277, R279, R281, R283): where every lane reaches its bytes, str.pop gives each its element of an
affine or indirect stream, extended as the stream says; str.push keeps the bytes with the stream's operation, which writes them at its completion, the
last push of a byte standing; fib.adv gives consecutive entries to the active lanes; POS and CUR go on, and all else stays. That a replayed pop
reads where it first did is R279's; that POS goes on from where it then is, is the model's choice (log 49). -/
def Obligations.StreamElements : Prop := ∀ s : State, s.here.trapped = false → s.me.cur.st = .ready → s.me.cur.mask ≠ 0 →
  let on (l : Nat) : Bool := s.memMask.getLsbD l
  let value (z : BitVec 2) (sext : Bool) (y : Nat) : BitVec 64 :=
    if sext = true ∧ z = 0 then ((BitVec.ofNat 8 y).signExtend 32).setWidth 64
    else if sext = true ∧ z = 1 then ((BitVec.ofNat 16 y).signExtend 32).setWidth 64 else BitVec.ofNat 64 y
  let bad (i : Instr) (code : Nat) : Prop := exec i s = .next (s.progErr code 0)
  (∀ (d : BitVec 7) (n : BitVec 3),
    let x := s.stream n.toNat
    let pos : Word := if s.me.cur.replay.isSome then s.me.cur.rpos.getD x.pos else x.pos
    let size := 2 ^ x.size.toNat
    let elem : MemForm := { op := .load (loadOf x.size x.sext), kind := .read, allow := .plain, size := size, dreg := some d.toNat }
    let slot (b : BitVec 64) (l : Nat) : BitVec 64 := b + pos.setWidth 64 * x.istr.signExtend 64 + BitVec.ofNat 64 l * x.lstr.signExtend 64
    let popped (k : Nat → Nat) (t : State) : Prop :=
      t = { s with me := { s.me with regs := { s.me.regs with v := t.me.regs.v }, obs := t.me.obs, streams := t.me.streams } } ∧
      (∀ j, t.stream j = if j = n.toNat then
        { x with pos := BitVec.ofNat 32 (min (x.pos.toNat + 1) x.count.toNat), ahead := x.ahead - 1 } else s.stream j) ∧
      ∀ r l, l < 32 → t.me.regs.getV r l =
        if r = d.toNat ∧ on l = true then (value x.size x.sext (s.rd (k l) size)).setWidth 32
        else if r = d.toNat + 1 ∧ on l = true ∧ x.size = 3 then (value x.size x.sext (s.rd (k l) size) >>> 32).setWidth 32 else s.me.regs.getV r l
    let isOpen : Prop := x.st = .affine ∨ x.st = .indirect
    (¬ (isOpen ∧ x.dir = false) ∨ (x.size = 3 ∧ d.getLsbD 0 = true) → bad (.strPop d n) 0x0C02) ∧
    (isOpen → x.dir = false → (x.size = 3 → d.getLsbD 0 = false) →
      (pos = x.count → bad (.strPop d n) 0x0C04) ∧
      (pos ≠ x.count → x.st = .affine → ∀ k, Reaches s elem (fun l => { lane := l, addr := slot x.abase l }) k → Gives (.strPop d n) s (popped k)) ∧
      (pos ≠ x.count → x.st = .indirect → ∀ ki k,
        Reaches s { op := .load .b32, kind := .read, allow := .plain, size := 4 } (fun l => { lane := l, addr := slot x.ibase l }) ki →
        Reaches s elem (fun l =>
          let idx : Word := s.rd32 (ki l)
          { lane := l, addr := x.abase + (if x.isgn then idx.signExtend 64 else idx.setWidth 64) * BitVec.ofNat 64 size }) k →
        Gives (.strPop d n) s (popped k)))) ∧
  (∀ (n : BitVec 3) (a : BitVec 7),
    let x := s.stream n.toNat
    let size := 2 ^ x.size.toNat
    let slot (l : Nat) : BitVec 64 := x.abase + x.pos.setWidth 64 * x.istr.signExtend 64 + BitVec.ofNat 64 l * x.lstr.signExtend 64
    (¬ (x.st = .affine ∧ x.dir = true) ∧ x.st ≠ .indirect ∨ x.dir = false ∨ (x.size = 3 ∧ a.getLsbD 0 = true) → bad (.strPush n a) 0x0C02) ∧
    (x.st = .affine → x.dir = true → (x.size = 3 → a.getLsbD 0 = false) →
      (x.pos = x.count → bad (.strPush n a) 0x0C04) ∧
      (x.pos ≠ x.count → ∀ k : Nat → Nat, (∀ l, l < 32 → s.act l = true → (∃ y, s.steer l .plain size size false (slot l) = .ok y) ∧
          (∀ o ∈ s.ops, x.op = some o.id → segKey o.segs (slot l).toNat = some (k l)) ∧ ∀ y ∈ s.conflicts (k l) size true, x.op = some y.1) →
        Gives (.strPush n a) s fun t =>
          t = { s with me := { s.me with streams := t.me.streams, obs := t.me.obs }, ops := t.ops } ∧
          (∀ j, t.stream j = if j = n.toNat then { x with pos := x.pos + 1 } else s.stream j) ∧
          t.ops = s.ops.map fun o => if x.op = some o.id then { o with writes := o.writes ++ (s.lanes.flatMap fun l =>
            ((List.range size).map fun j => (k l + j, ((if x.size = 3 then s.vv a l else (s.v a l).setWidth 64) >>> (8 * j)).setWidth 8))) } else o))) ∧
  (∀ o n y, s.ops = [o] → s.sys.migs = [] → s.sys.mclkEnd = none → (∀ g ∈ s.gang :: s.gangs, g.array = none) → o.body = .stream n y → o.cls = 5 →
    o.phase = .started → o.more = false → o.closing = true → o.bounced = [] → o.results = [] → o.stamp = none → o.slot = none → s.me.gid = o.gid → s.me.w = o.w →
    (s.stream n).op = some o.id → (s.stream n).st = .closing →
    Gives (.engineCompletion o.id) s fun t => t.ops = [] ∧ t.stream n = { s.stream n with st := .closed, op := none } ∧
      ∀ m, t.byte m = ((o.writes.reverse.find? fun b => b.1 == m).map Prod.snd).getD (s.byte m)) ∧
  ∀ (d a : BitVec 7) (n : BitVec 2),
    let x := s.fibre n.toNat
    let size := 2 ^ x.size.toNat
    let before (l : Nat) : Nat := ((List.range l).filter s.act).length
    let entry (l : Nat) : Nat := x.cur.toNat + before l
    let reaches (f : MemForm) (r : Req) (k : Nat) : Prop :=
      (∃ pg, s.prepare f r = (s, .ok (.mem k) pg)) ∧ s.defers f (.mem k) = false ∧ s.conflicts k f.size f.writes = []
    (x.isOpen = false ∨ (x.size = 3 ∧ d.getLsbD 0 = true) → bad (.fibAdv d a n) 0x0C02) ∧
    (x.isOpen = true → (x.size = 3 → d.getLsbD 0 = false) → s.me.cur.replay = none → s.inFlight s.me s.me.cur = false → ∀ kc kv : Nat → Nat,
      (∀ l, l < 32 → s.act l = true → entry l < x.fin.toNat →
        reaches { op := .load .b32, kind := .read, allow := .plain, size := 4, dreg := some a.toNat }
          { lane := l, addr := x.crd + BitVec.ofNat 64 (4 * entry l) } (kc l) ∧
        reaches { op := .load (loadOf x.size x.sext), kind := .read, allow := .plain, size := size, dreg := some d.toNat }
          { lane := l, addr := x.val + BitVec.ofNat 64 (size * entry l) } (kv l)) →
      Gives (.fibAdv d a n) s fun t =>
        t = { s with me := { s.me with regs := { s.me.regs with v := t.me.regs.v }, obs := t.me.obs, fibres := t.me.fibres } } ∧
        (∀ j, t.fibre j = if j = n.toNat then { x with cur := BitVec.ofNat 32 (min (entry 32) x.fin.toNat), ahead := 0 } else s.fibre j) ∧
        ∀ r l, l < 32 →
          let hit : Prop := entry l < x.fin.toNat
          let v := value x.size x.sext (s.rd (kv l) size)
          (s.act l = false → t.me.regs.getV r l = s.me.regs.getV r l) ∧
          (s.act l = true → r = a.toNat → (hit → t.me.regs.getV r l = BitVec.ofNat 32 (s.rd (kc l) 4)) ∧ (¬ hit → t.me.regs.getV r l = 0xFFFFFFFF)) ∧
          (s.act l = true → r ≠ a.toNat → r = d.toNat →
            (hit → t.me.regs.getV r l = v.setWidth 32) ∧ (¬ hit → t.me.regs.getV r l = 0)) ∧
          (s.act l = true → r ≠ a.toNat → r = d.toNat + 1 → x.size = 3 →
            (hit → t.me.regs.getV r l = (v >>> 32).setWidth 32) ∧ (¬ hit → t.me.regs.getV r l = 0)) ∧
          (r ≠ a.toNat → r ≠ d.toNat → ¬ (r = d.toNat + 1 ∧ x.size = 3) → t.me.regs.getV r l = s.me.regs.getV r l))

/-- Expert routing (12_streams R285, R286): malformed operands are program errors and a bad table switches the path's lanes off; xr.cap sets the
capacity of every expert word and empties it; xr.route gives each active lane, in lane order, the next slot of its expert, or the residual flag over
the old FILL where the capacity is reached; no range is locked here. -/
def Obligations.ExpertRouting : Prop := ∀ (s : State) (u : BitVec 6),
  let tbl := s.uuAt u 0
  let n := (s.un (u.toNat + 2)).toNat
  let cap := (s.un (u.toNat + 3)).toNat
  let at_ (m : List Host.Cell) : State := { s with mem := m }
  (n = 0 ∨ 4096 < n → ∀ d a, exec (.xrCap u) s = .next (s.progErr 0x0C01 (BitVec.ofNat 64 n)) ∧ exec (.xrRoute d a u) s = .next (s.progErr 0x0C01 (BitVec.ofNat 64 n))) ∧
  (0 < n → n ≤ 4096 →
    (2 ^ 31 ≤ cap → exec (.xrCap u) s = .next (s.progErr 0x0C01 (BitVec.ofNat 64 cap))) ∧
    (∀ c, (s.steer s.first .commons 8 8 false tbl = .error c ∨ (c = 6 ∧ (∃ k, s.steer s.first .commons 8 8 false tbl = .ok (.mem k)) ∧
        2 ^ 24 < tbl.toNat % 2 ^ 24 + 8 * n)) → ∀ d a,
      (cap < 2 ^ 31 → exec (.xrCap u) s = .next (s.allOff s.me.cur.mask c tbl.toNat)) ∧ exec (.xrRoute d a u) s = .next (s.allOff s.me.cur.mask c tbl.toNat)) ∧
    ∀ k, s.steer s.first .commons 8 8 false tbl = .ok (.mem k) → tbl.toNat % 2 ^ 24 + 8 * n ≤ 2 ^ 24 → s.locks = [] →
      (cap < 2 ^ 31 → Gives (.xrCap u) s fun t => t = { s with mem := t.mem, journal := t.journal } ∧
        (∀ e, e < n → t.rd (k + 8 * e) 8 = cap * 2 ^ 32) ∧ ∀ j, ¬ (k ≤ j ∧ j < k + 8 * n) → t.byte j = s.byte j) ∧
      ∀ d a, Gives (.xrRoute d a u) s fun t =>
        t = { s with me := { s.me with regs := { s.me.regs with v := t.me.regs.v }, obs := t.me.obs }, mem := t.mem, journal := t.journal } ∧
        ∃ m : Nat → List Host.Cell, m 0 = s.mem ∧ t.mem = m 32 ∧
          (∀ l, l < 32 →
            let e := (s.v a l).toNat
            let fill (i : Nat) : Nat := (at_ (m i)).rd (k + 8 * e) 4
            let room := (at_ (m l)).rd (k + 8 * e + 4) 4
            (s.act l = false ∨ n ≤ e → m (l + 1) = m l) ∧
            (s.act l = true → n ≤ e → t.me.regs.getV d.toNat l = 0xFFFFFFFF) ∧
            (s.act l = true → e < n →
              fill (l + 1) = min (fill l + 1) 0xFFFFFFFF ∧
              (∀ j, ¬ (k + 8 * e ≤ j ∧ j < k + 8 * e + 4) → (at_ (m (l + 1))).byte j = (at_ (m l)).byte j) ∧
              t.me.regs.getV d.toNat l = BitVec.ofNat 32 (if fill l < room then fill l else 2 ^ 31 + fill l % 2 ^ 31))) ∧
          ∀ r l, l < 32 → ¬ (r = d.toNat ∧ s.act l = true) → t.me.regs.getV r l = s.me.regs.getV r l)

/-! ### Tasks, groups and the distributor (03_tasks) -/

/-- Task, tile-buffer and group instructions (03_tasks R63, R64, R75, R76, R78, R81, R89, R90): the result codes of task.post, task.spawn, tbuf.full, tbuf.empty
and tbuf.stat and what they write, with the word's page cached and no range locked (a table base with bits 63:48 set names no global address, and
tbuf.stat is a plain read: the model's choices, log 48), a word that misses in the window of the memory clock being issued again (16_stack R360); grp.meet, grp.mark and grp.hold arrive and wait, the last
arrival begins the next phase and releases the waiting paths of the members, and no group or no membership is a program error. -/
def Obligations.TasksAndGroups : Prop := ∀ s : State,
  let c := s.ctx s.gang.asid
  let wrote (t : State) (d : BitVec 6) (x : Word) (P : State → Prop) : Prop :=
    ∃ s', s' = { s with mem := s'.mem, journal := s'.journal } ∧ UniformResult s' t (one d x) ∧ P s'
  let others (k n : Nat) (t : State) : Prop := ∀ j, ¬ (k ≤ j ∧ j < k + n) → t.byte j = s.byte j
  let waits (t : State) : Prop := t = { s with
    here := { s.here with trapped := true, retry := true }, me := { s.me with cur := { s.me.cur with pc := s.here.pc, wpos := s.here.wpos } } }
  let post (i : Instr) (d a : BitVec 6) (arg : Option (BitVec 64)) : Prop :=
    let e := (s.u a).toNat
    let va : BitVec 64 := c.ttbase + BitVec.ofNat 64 (64 * e)
    (1023 < e → Gives i s fun t => UniformResult s t (one d 3)) ∧
    (e ≤ 1023 → c.ttbase = 0 ∨ c.ttbase.toNat % 65536 ≠ 0 → Gives i s fun t => UniformResult s t (one d 2)) ∧
    (e ≤ 1023 → c.ttbase ≠ 0 → c.ttbase.toNat % 65536 = 0 →
      (2 ^ 48 ≤ va.toNat → exec i s = .next (s.park 1 1 va 2 s.me.cur.mask)) ∧
      (∀ u f, va.toNat < 2 ^ 48 → s.translate .write va.toNat = (u, .error f) → exec i s = .next (s.park 1 f va 2 s.me.cur.mask)) ∧
      ∀ k, va.toNat < 2 ^ 48 → s.translate .write va.toNat = (s, .ok k) → s.locks = [] →
        (k < gddrTop → s.windowMiss = true → Gives i s waits) ∧ (s.windowMiss = false →
        (s.rd (k + 62) 2 % 4 ≠ 0 → Gives i s fun t => UniformResult s t (one d 1)) ∧
        (s.rd (k + 62) 2 % 4 = 0 → Gives i s fun t => wrote t d 0 fun s' => s'.rd (k + 62) 2 = s.rd (k + 62) 2 + 1 ∧
          (∀ x, arg = some x → s'.rd64 (k + 16) = x) ∧
          ∀ j, ¬ (k + 62 ≤ j ∧ j < k + 64) → ¬ (arg.isSome = true ∧ k + 16 ≤ j ∧ j < k + 24) → s'.byte j = s.byte j)))
  let tbuf (i : Instr) (d a : BitVec 6) (want : Nat) (new : Nat → Nat) : Prop :=
    let e := (s.u a).toNat
    let va : BitVec 64 := c.tbbase + BitVec.ofNat 64 (8 * e)
    (4095 < e → Gives i s fun t => UniformResult s t (one d 3)) ∧
    (e ≤ 4095 → c.tbbase = 0 ∨ c.tbbase.toNat % 32768 ≠ 0 → Gives i s fun t => UniformResult s t (one d 2)) ∧
    (e ≤ 4095 → c.tbbase ≠ 0 → c.tbbase.toNat % 32768 = 0 → ∀ k, va.toNat < 2 ^ 48 → s.translate .write va.toNat = (s, .ok k) → s.locks = [] →
      s.windowMiss = false →
      let w := s.rd k 8
      let clean : Prop := w / 4 % 2 ^ 10 = 0 ∧ w / 2 ^ 22 % 2 ^ 10 = 0
      (¬ clean → Gives i s fun t => UniformResult s t (one d 4)) ∧
      (clean → w % 4 ≠ want → Gives i s fun t => UniformResult s t (one d 1)) ∧
      (clean → w % 4 = want → Gives i s fun t => wrote t d 0 fun s' => s'.rd k 8 = new w ∧ others k 8 s'))
  (∀ d a, post (.taskPost d a) d a none) ∧ (∀ d a b, post (.taskSpawn d a b) d a (some (s.uu b))) ∧
  (∀ d a, tbuf (.tbufFull d a) d a 0 fun w => (w / 2 ^ 32 + 1) % 2 ^ 32 * 2 ^ 32 + 1) ∧
  (∀ d a, tbuf (.tbufEmpty d a) d a 1 fun w => w / 2 ^ 32 * 2 ^ 32) ∧
  (∀ d a,
    let e := (s.u a).toNat
    let va : BitVec 64 := c.tbbase + BitVec.ofNat 64 (8 * e)
    (4095 < e ∨ c.tbbase = 0 ∨ c.tbbase.toNat % 32768 ≠ 0 → Gives (.tbufStat d a) s fun t => UniformResult s t (pair d 0xFFFFFFFFFFFFFFFF)) ∧
    (e ≤ 4095 → c.tbbase ≠ 0 → c.tbbase.toNat % 32768 = 0 → ∀ k, va.toNat < 2 ^ 48 → s.translate .read va.toNat = (s, .ok k) → s.locks = [] →
      s.windowMiss = false → Gives (.tbufStat d a) s fun t => UniformResult s t (pair d (s.rd64 k)))) ∧
  ∀ g : BitVec 8,
    let m := 32 * s.gang.index + s.me.w
    let bad (i : Instr) : Prop := exec i s = .next (s.progErr 0x0301 (g.setWidth 64))
    (s.inst? s.gang.inst = none → bad (.grpMeet g) ∧ bad (.grpMark g) ∧ bad (.grpHold g)) ∧
    ∀ i, s.inst? s.gang.inst = some i →
      let G := i.group g.toNat
      (i.entry.ngroups ≤ g.toNat ∨ m ∉ G.members → bad (.grpMeet g) ∧ bad (.grpMark g) ∧ bad (.grpHold g)) ∧
      (g.toNat < i.entry.ngroups → m ∈ G.members →
        let held : Path := { s.me.cur with st := .held (.grp g.toNat) }
        let now (t : State) (G' : Group) : Prop := ∃ i', t.inst? s.gang.inst = some i' ∧ ∀ k, i'.group k = if k = g.toNat then G' else i.group k
        let marks (p : Path) (G' : Group) (t : State) : Prop := t = { s with me := { s.me with cur := p }, insts := t.insts } ∧ now t G'
        let more : Group := { G with arrived := G.arrived ++ [m], aphase := smPut 0 G.aphase m G.phase }
        let next : Path := if G.phase = smGet 0 G.aphase m then held else s.me.cur
        let opens (t : State) : Prop := t = { s with me := t.me, warps := t.warps, insts := t.insts, journal := t.journal } ∧
          now t { members := G.members.filter fun x => !G.gone.contains x, arrived := [], gone := [], phase := G.phase + 1
                  aphase := smPut 0 G.aphase m G.phase } ∧
          t.me.cur.st = s.me.cur.st ∧
          ∀ x ∈ t.me :: t.warps, ∀ k, s.gangOf? x.gid = some k → k.inst = s.gang.inst → 32 * k.index + x.w ∈ G.members →
            ∀ p ∈ x.cur :: x.paths, p.st ≠ .held (.grp g.toNat)
        Gives (.grpHold g) s (· = { s with me := { s.me with cur := next } }) ∧
        (m ∈ G.arrived → Gives (.grpMark g) s (marks s.me.cur G) ∧ Gives (.grpMeet g) s (marks next G)) ∧
        (m ∉ G.arrived → G.arrived.length + 1 ≠ G.members.length → Gives (.grpMark g) s (marks s.me.cur more) ∧ Gives (.grpMeet g) s (marks held more)) ∧
        (m ∉ G.arrived → G.arrived.length + 1 = G.members.length → s.me.cur.st = .ready → (∀ x ∈ G.members, x = m ∨ x ∈ G.arrived) →
          (∀ x ∈ G.arrived, smGet 0 G.aphase x = G.phase) → Gives (.grpMark g) s opens ∧ Gives (.grpMeet g) s opens))

/-- Claims and completion (03_tasks R60 to R67, R72, R75; 02_encoding R57): an ARMED entry that fails a check gets state ERROR and the code of its first
failing check; one that passes becomes RUNNING once its buffers can be had, all or none, with an instance whose groups have the members of its records
and whose gangs wait for placement, and no other byte changes; when every gang of an instance has exited and nothing of it is outstanding, nor a copy to
its memory, its buffers are released in order, the entry becomes IDLE or ARMED again, and the instance is gone. What the checks read is readable here.
That an entry is looked at only where its page can be written, and that the words released are those to which TBBASE points then, are the model's
choices (logs 36, 48). -/
def Obligations.ClaimsAndCompletion : Prop := ∀ s : State,
  (∀ asid task k,
    let x := s.ctx asid
    let va := x.ttbase.toNat + 64 * task
    task < 1024 → s.runs asid task = false → s.sys.mclkEnd = none → x.st = .bound → x.ending = none → x.ttbase ≠ 0 → x.ttbase.toNat % 65536 = 0 → x.tbbase ≠ 0 → x.tbbase.toNat % 32768 = 0 →
    s.q3Walk asid .read va = (s, .ok k) → s.q3Walk asid .write va = (s, .ok k) → s.rd (k + 62) 2 % 4 = 1 →
    let field (o n : Nat) : Nat := s.rd (k + o) n
    let ctl : BitVec 16 := BitVec.ofNat 16 (field 62 2)
    let gangs := field 40 4
    let ng := field 44 4
    let warps := field 48 1
    let regs := field 49 1
    let localk := field 50 2
    let ngroups := field 54 2
    let ins := field 56 1
    let n := ins + field 57 1
    let keep := ctl.getLsbD 3
    let alm := (smGet (0 : BitVec 64) s.pkg.alm (field 59 1 % 32)).toNat
    let e : Entry := parseEntry (s.bytes k 64)
    ∀ (gb lb : List (BitVec 8)) (ls : List Nat),
      (ng = 0 → gb = []) → (ng ≠ 0 → s.q3Read asid (field 24 8) (12 * ng) = (s, some gb)) →
      (n = 0 ∨ 32 < n → lb = []) → (0 < n → n ≤ 32 → s.q3Read asid (field 32 8) (2 * n) = (s, some lb)) →
      ls = (List.range (if 32 < n then 0 else n)).map (fun j => fieldAt lb (2 * j) 2) →
      (∀ b ∈ ls, b < 4096 → ∃ a, s.q3Walk asid .read (x.tbbase.toNat + 8 * b) = (s, .ok a)) →
      let group (j : Nat) : Nat := fieldAt gb (12 * j) 2
      let gang (j : Nat) : Nat := fieldAt gb (12 * j + 4) 4
      let mask (j : Nat) : Word := BitVec.ofNat 32 (fieldAt gb (12 * j + 8) 4)
      let lies (g G w : Nat) : Prop := ∃ j, j < ng ∧ group j = g ∧ gang j = G ∧ (mask j).getLsbD w = true
      let badGroup : Prop := 256 < ngroups ∨
        (∃ j, j < ng ∧ (ngroups ≤ group j ∨ gangs ≤ gang j ∨ 2 ^ warps ≤ (mask j).toNat)) ∨
        ∃ (gs : List Nat) (G w : Nat), w < 32 ∧ gs.Nodup ∧ 4 < gs.length ∧ ∀ g ∈ gs, lies g G w
      let tooLarge : Prop := ∃ c ∈ cosetsOf (parseGRecs gb ng), s.capacity asid e < c.length
      let claimed (t : State) : Prop :=
        (∃ i, t.insts = s.insts ++ [i] ∧ i.id = s.sys.claims + 1 ∧ i.asid = asid ∧ i.task = task ∧ i.entry = e ∧ i.ins = ls.take ins ∧ i.outs = ls.drop ins ∧
          i.time = s.now ∧ ∀ g, (i.group g).arrived = [] ∧ (i.group g).gone = [] ∧ (i.group g).phase = 0 ∧ (i.group g).aphase = [] ∧ (i.group g).members.Nodup ∧
            ∀ m, m ∈ (i.group g).members ↔ ∃ G w, w < 32 ∧ m = 32 * G + w ∧ lies g G w) ∧
        (∃ gs, t.gangs = s.gangs ++ gs ∧ gs.length = gangs ∧ ∀ n g, gs[n]? = some g → g.gid = s.sys.nextGid + n ∧ g.st = .queued ∧ g.asid = asid ∧
          g.task = task ∧ g.index = n ∧ g.inst = s.sys.claims + 1 ∧ g.warpsN = warps ∧ g.regsN = regs ∧ g.localk = localk ∧ g.prio = field 58 1 % 4) ∧
        t.warps = s.warps ∧ t.me = s.me ∧ t.gang = s.gang
      let fails : List (Prop × Nat) := [
        (gangs = 0 ∨ 65536 < gangs ∨ warps = 0 ∨ 32 < warps ∨ regs < 8 ∨ 128 < regs ∨ regs % 8 ≠ 0 ∨ 640 < localk, 1),
        (field 52 2 ≠ 0 ∧ localk * 1024 < 64 + 160 * field 52 2, 2),
        (badGroup, 3),
        (tooLarge, 4),
        (16 < ins ∨ 16 < field 57 1 ∨ (∃ b ∈ ls, 4096 ≤ b) ∨ ¬ ls.Nodup, 5),
        (alm % 16 ≠ 1 ∨ alm / 2 ^ 16 % 2 ^ 12 ≠ asid, 6),
        (field 0 8 % 12 ≠ 0 ∨ field 8 8 % 12 ≠ 0, 7),
        (field 58 1 / 4 ≠ 0 ∨ field 59 1 / 32 ≠ 0 ∨ field 62 2 / 16 % 16 ≠ 0 ∨ ∃ j, j < ng ∧ fieldAt gb (12 * j + 2) 2 ≠ 0, 8)]
      (∀ (before after : List (Prop × Nat)) (c : Nat) (P : Prop), fails = before ++ (P, c) :: after → P → (∀ y ∈ before, ¬ y.1) →
        Gives (.eligibilityEvaluation asid task) s fun t => t.rd (k + 62) 2 = ctl.toNat % 256 / 4 * 4 + 3 + c * 256 ∧
          (∀ j, ¬ (k + 62 ≤ j ∧ j < k + 64) → t.byte j = s.byte j) ∧ t.insts = s.insts ∧ t.gangs = s.gangs) ∧
      ((∀ y ∈ fails, ¬ y.1) → ∀ ks : List Nat, ks.length = n →
        (∀ j b a : Nat, ls[j]? = some b → ks[j]? = some a → s.q3Walk asid .read (x.tbbase.toNat + 8 * b) = (s, .ok a) ∧
          (keep = false ∨ ins ≤ j → s.q3Walk asid .write (x.tbbase.toNat + 8 * b) = (s, .ok a))) →
        (∀ i j a b : Nat, ks[i]? = some a → ks[j]? = some b → i ≠ j → a + 8 ≤ b ∨ b + 8 ≤ a) → (∀ a ∈ ks, a + 8 ≤ k ∨ k + 64 ≤ a) →
        let fits (j a : Nat) : Prop := s.rd a 8 / 4 % 2 ^ 10 = 0 ∧ s.rd a 8 / 2 ^ 22 % 2 ^ 10 = 0 ∧ s.rd a 8 % 4 = if j < ins then 1 else 0
        ((∃ j a : Nat, ks[j]? = some a ∧ ¬ fits j a) → Gives (.eligibilityEvaluation asid task) s (· = s)) ∧
        ((∀ j a : Nat, ks[j]? = some a → fits j a) → Gives (.eligibilityEvaluation asid task) s fun t =>
          t.rd (k + 62) 2 = ctl.toNat / 4 * 4 + 2 ∧ claimed t ∧
          (∀ j a : Nat, ks[j]? = some a → t.rd a 8 =
            if j < ins then (if keep = true then s.rd a 8 else s.rd a 8 / 2 ^ 32 * 2 ^ 32 + task * 2 ^ 12 + 2)
            else s.rd a 8 / 2 ^ 32 * 2 ^ 32 + task * 2 ^ 12 + 3) ∧
          ∀ m, ¬ (k + 62 ≤ m ∧ m < k + 64) → (∀ a ∈ ks, ¬ (a ≤ m ∧ m < a + 8)) → t.byte m = s.byte m))) ∧
  ∀ i, s.inst? i.id = some i → i.ended = false → s.sys.mclkEnd = none →
    (∀ g ∈ s.gang :: s.gangs, g.gid ≠ 0 → g.inst = i.id → g.st = .exited ∧ g.queue = [] ∧ g.array = none ∧ (∀ o ∈ s.ops, o.gid ≠ g.gid) ∧
      (∀ o ∈ s.ops, ∀ r ∈ (o.ranges.map fun r => (r.base, r.len)) ++ (o.stamp.toList.map fun y => (y.1, 8)),
        localKey (32 * g.stk + g.core) g.base + g.localk * 1024 ≤ r.1 ∨ r.1 + r.2 ≤ localKey (32 * g.stk + g.core) g.base) ∧
      ∀ a ∈ s.accs, a.gid ≠ g.gid) →
    let gone (t : State) : Prop := t.insts = s.insts.filter (fun x => x.id != i.id) ∧
      (∀ g ∈ t.gang :: t.gangs, g.gid ≠ 0 → g.inst ≠ i.id) ∧ ∀ g ∈ s.gang :: s.gangs, g.gid ≠ 0 → g.inst = i.id → ∀ x ∈ t.me :: t.warps, x.gid ≠ g.gid
    let bs := i.outs ++ if i.entry.ctl.getLsbD 3 = true then [] else i.ins
    let result (j : Nat) : Bool := decide (j < i.outs.length)
    let after (j a : Nat) : Nat :=
      let w := s.rd a 8
      if w % 4 ≠ (if result j = true then 3 else 2) ∨ w / 2 ^ 12 % 2 ^ 10 ≠ i.task then w
      else if result j = true then (w / 2 ^ 32 + 1) % 2 ^ 32 * 2 ^ 32 + 1 else w / 2 ^ 32 * 2 ^ 32
    ∀ (ks : List Nat) (k : Nat), ks.length = bs.length →
      (∀ i j a b : Nat, ks[i]? = some a → ks[j]? = some b → i ≠ j → a + 8 ≤ b ∨ b + 8 ≤ a) → (∀ a ∈ ks, a + 8 ≤ k + 62 ∨ k + 64 ≤ a) →
      -- the state after the first n releases
      let m (n : Nat) : State := (List.range n).foldl (fun t j => match ks[j]? with
        | some a => if after j a = s.rd a 8 then t else t.wr a 8 (after j a)
        | none => t) s
      (∀ j b a : Nat, bs[j]? = some b → ks[j]? = some a → (m j).q3Walk i.asid .write ((s.ctx i.asid).tbbase.toNat + 8 * b) = (m j, .ok a)) →
      (m bs.length).q3Walk i.asid .write ((s.ctx i.asid).ttbase.toNat + 64 * i.task) = (m bs.length, .ok k) →
      Gives (.instanceCompletion i.id) s fun t => gone t ∧
        (t.rd (k + 62) 2 =
          let ctl := s.rd (k + 62) 2
          if ctl % 4 = 2 then ctl / 4 * 4 + (if ctl / 4 % 2 = 1 then 1 else 0) else ctl) ∧
        (∀ j a : Nat, ks[j]? = some a → t.rd a 8 = after j a) ∧
        ∀ j, ¬ (k + 62 ≤ j ∧ j < k + 64) → (∀ a ∈ ks, ¬ (a ≤ j ∧ j < a + 8)) → t.byte j = s.byte j

/-- Placement and carve-outs (03_tasks R66, R68, R70, R79; 08_memory R199, R202): where no core keeps anything for a set, a plan for one gang names a core
that has every resource, at the best level of preference, then with the fewest warps, then the lowest; the first gang of the queue is placed by its plan,
with its local memory and its stacks cleared and its warps at the start, unless its activity is over budget on every core that could take it; a growing
carve-out that is done makes its ways local and places the gang it was for; a shrinking one that is done gives its ways back. That a warp's stacks lie
at LSAREA and its slot times 65,536 bytes (log 2), and how an activity is over budget on a core (logs 36, 48), are the model's choices. -/
def Obligations.Placement : Prop := ∀ s : State,
  (∀ (unit : List Nat) (g : Gang) (p : Spotting), (s.ctx g.asid).yoked = false → (∀ c, (s.core c).kept = none) → 0 < g.warpsN → s.bestCore unit [] [] g = some p →
    let size := g.localk * 1024
    let free (c b limit : Nat) : Prop := b + size ≤ limit ∧ ∀ h ∈ s.coreGangs c, b + size ≤ h.base ∨ h.base + h.localk * 1024 ≤ b ∨ size = 0
    let level (c : Nat) : Nat :=
      let powered := [0, 1, 2].filter s.powered
      let x := (g.aff - 1) % (16 * max powered.length 1)
      if g.aff = 0 then 0 else if powered.getD (x / 16) 0 ≠ c / 32 then 3 else if c % 16 = x % 16 then 0 else if c % 16 / 4 = x % 16 / 4 then 1 else 2
    let takes (c : Nat) : Prop := c < 96 ∧ s.choosable c unit = true ∧ (s.room c []).gangs < 16 ∧
      (s.room c []).warps + g.warpsN ≤ min 128 (4 * (s.core c).active) ∧ (g.mx = true → (s.room c []).mx < 2)
    p.gid = g.gid ∧ takes p.core ∧ free p.core p.base (10 * 65536) ∧ p.base + size ≤ p.lw * 65536 ∧
    ∀ c b, takes c → b % 1024 = 0 → b + size ≤ 10 * 65536 → free c b (s.core c).localLimit → (size = 0 → b = 0) →
      p.base + size ≤ (s.core p.core).localLimit ∧
      (level p.core < level c ∨ (level p.core = level c ∧
        ((s.room p.core []).warps < (s.room c []).warps ∨ ((s.room p.core []).warps = (s.room c []).warps ∧ p.core ≤ c))))) ∧
  (∀ (g : Gang) (i : Inst) (p : Spotting), g.gid ≠ 0 → g.st = .queued → g.saves = false → p.gid = g.gid → (s.ctx g.asid).yoked = false →
    g.warpsN ≤ 32 → s.gangHeld g = false → g ∈ s.gangs → (∀ h ∈ s.gangs, h.gid = g.gid → h = g) → s.gang.gid ≠ g.gid → s.inst? g.inst = some i → (∀ x ∈ s.me :: s.warps, x.gid ≠ g.gid) →
    s.unitOf g = some [g] →
    let placed (s t : State) : Prop :=
      (∃ h, t.gangOf? g.gid = some h ∧ h.st = .resident ∧ 32 * h.stk + h.core = p.core ∧ h.base = p.base ∧ h.warpsN = g.warpsN ∧
        (g.mx = true → h.seq.st = .running ∧ h.seq.pc = i.entry.mcode.setWidth 48)) ∧
      (∀ j,
        let cleared : Prop := (localKey p.core p.base ≤ j ∧ j < localKey p.core p.base + g.localk * 1024) ∨
          ∃ x ∈ t.warps, x.gid = g.gid ∧ x.stack ≤ j ∧ j < x.stack + 65536
        (cleared → t.byte j = 0) ∧ (¬ cleared → t.byte j = s.byte j)) ∧
      (∀ w, w < g.warpsN → ∃ x ∈ t.warps, x.gid = g.gid ∧ x.w = w ∧ x.stack = (s.core p.core).lsarea.toNat + x.slot * 65536 ∧ x.cur.pc = i.entry.code.setWidth 48 ∧ x.cur.wpos = 0 ∧ x.cur.mask = 0xFFFFFFFF ∧
        x.cur.st = .ready ∧ x.paths = [] ∧ x.regs.v = [] ∧ x.regs.p = [] ∧ x.regs.flags = [] ∧ x.regs.rdep = [] ∧ x.ev = [] ∧ x.streams = [] ∧ x.fibres = [] ∧
        ∀ n, uniGet x.regs.u n = if n = 2 then i.entry.arg.setWidth 32 else if n = 3 then (i.entry.arg >>> 32).setWidth 32
          else if n = 4 then BitVec.ofNat 32 i.entry.gangs else 0) ∧
      t.me = s.me ∧ ∀ x ∈ s.warps, x ∈ t.warps
    (∀ rest, s.placeQueue = g :: rest → s.overEverywhere [g.gid] g = false → s.growsFor [g.gid] = false → s.plan [g.gid] [] [] [g] = some [p] → p.lw * 65536 ≤ (s.core p.core).localLimit →
      Gives .gangPlacement s (placed s)) ∧
    ∀ n,
      let s' := s.setCore p.core { s.core p.core with lw := n, carve := .stable }
      (s.core p.core).carve = .growing n → (s.core p.core).reserved = some g.gid → s'.unitOf g = some [g] → s'.growsFor [g.gid] = false →
      s'.plan [g.gid] [(g.gid, p.core)] [] [g] = some [p] → p.lw ≤ n →
      Gives (.carveOutGrowDone p.core) s fun t => placed s t ∧ (t.core p.core).lw = n ∧ (t.core p.core).reserved = none) ∧
  ∀ c n,
    let x := s.core c
    (x.carve = .growing n → x.reserved = none → Gives (.carveOutGrowDone c) s fun t =>
      t = { s with cores := t.cores } ∧ ∀ k, t.core k = if k = c then { x with lw := n, carve := .stable } else s.core k) ∧
    (x.carve = .shrinking n → (∀ g ∈ s.coreGangs c, g.base + g.localk * 1024 ≤ n * 65536) → Gives (.carveOutShrinkDone c) s fun t =>
      t = { s with cores := t.cores } ∧ ∀ k, t.core k = if k = c then { x with lw := n, carve := .stable } else s.core k) ∧
    (x.carve = .shrinking n → (∃ g ∈ s.coreGangs c, n * 65536 < g.base + g.localk * 1024) → Gives (.carveOutShrinkDone c) s (· = s))

/-- Pre-emption and saves (05_events R133 to R138; 03_tasks R72, R74; 17_debug R370): a request to a running warp goes to the hard save where a path is
STOPPED or there is no handler, waits while the warp is masked or in a trap handler, and else goes to its handler with a frame on every lane's stack; a
second request waits with its own hard-save time, and any request to a warp with a STOPPED path takes the hard save at once; at its hard-save time a request goes to the hard save; a warp that drained
is saved with its handler paths joined, a hard save keeps all of it; a gang whose warps are all saved leaves its core with its local memory and
stacks, and where it is placed again they come back, and each warp as it was saved with its run-ahead to be made anew; for a set that waited a period
every core that could hold a gang of it keeps from then on what frees there and the set needs, and notes what was free, which others may still take; a
PRIO 3 gang that waited a period has gangs below PRIO 2 pre-empted on a core, or on the two of a yoked pair. Which cores keep for a set, one set a core,
and that a victim's set counts with all its gangs, are the model's choices (logs 36, 48), and so is where the stacks lie (log 2). -/
def Obligations.PreemptionAndSaves : Prop :=
  let calm (s : State) : Prop := (∀ e ∈ s.me.ev, e.2.obj.toNat / 2 ^ 48 ≠ 0xFFF0) ∧
    ∀ q ∈ s.me.live, ∀ c wide a v since frame past, q.st = .held (.mwait c wide a v since frame past) → a.toNat / 2 ^ 48 ≠ 0xFFF0
  (∀ s : State,
  s.me.gid ≠ 0 → s.gang.gid = s.me.gid → s.gang.st = .resident → (∀ x ∈ s.warps, x.gid ≠ s.me.gid) → s.me.exited = false → s.me.trc.on = false → s.me.w < 32 →
  let gid := s.me.gid
  let w := s.me.w
  let stopped (r : PreReason) (t : State) (x : Warp) : Prop :=
    exec (.preemptionRequest gid r) s = .next t ∧ t.me = x ∧ t.gang = { s.gang with seq := { s.gang.seq with stop := true } } ∧ t.warps = s.warps
  let asked (r : PreReason) (st : PreSt) : Preempt := { s.me.pre with st := st, reason := r, hard := s.now + 20000, hnd := false, byDone := false }
  (∀ r, s.me.pre.st = .run → (s.ctx s.gang.asid).tvbase = 0 ∨ (∃ q ∈ s.me.live, ∃ k, q.st = .stopped k) →
    ∃ t, stopped r t { s.me with pre := asked r .hard } ∧ t.mem = s.mem) ∧
  (∀ (r : PreReason) (h : BitVec 64),
    let p : State := { s with me := { s.me with pre := asked r .pending } }
    s.me.pre.st = .run → p.vector 7 = (p, .ok h) → h ≠ 0 → (∀ q ∈ s.me.live, ∀ k, q.st ≠ .stopped k) →
      (s.me.pre.mask = true ∨ (∃ p ∈ s.me.live, p.hmode = .trap) → ∃ t, stopped r t { s.me with pre := asked r .pending } ∧ t.mem = s.mem) ∧
      (s.me.pre.mask = false → (∀ p ∈ s.me.live, p.hmode ≠ .trap) →
      let m := s.me.lanes
      let frame (l : Nat) : Nat := s.me.stackAt l 512
      ∃ t, stopped r t { s.me with cur := { id := 32, pc := h.setWidth 48, mask := m, hmode := .pre }, paths := s.me.live, overflow := t.me.overflow
                                   pre := { asked r .hnd with hnd := true } } ∧
        (∀ l, l < 32 → m.getLsbD l = true → t.rd (frame l) 8 = 0 ∧ t.rd (frame l + 8) 1 = 0 ∧ t.rd (frame l + 9) 1 = 2 ∧ t.rd (frame l + 10) 1 = 32 ∧
          t.rd (frame l + 12) 4 = m.toNat ∧ t.rd (frame l + 16) 2 = 7 ∧
          t.rd (frame l + 18) 2 = (match r with | .stacks => 1 | .priority => 2 | .supervisor => 3 | .repair => 4) ∧ t.rd (frame l + 24) 8 = 0 ∧
          t.rd64 (frame l + 32) = s.now ∧ t.rd64 (frame l + 40) = s.now + 20000) ∧
        ∀ j, (∀ l, l < 32 → m.getLsbD l = true → ¬ (frame l ≤ j ∧ j < frame l + 64)) → t.byte j = s.byte j)) ∧
  (∀ r, (∃ q ∈ s.me.live, ∃ k, q.st = .stopped k) → s.me.pre.st = .pending ∨ s.me.pre.st = .hnd ∨ s.me.pre.st = .resumed →
    ∃ t, stopped r t { s.me with pre := { s.me.pre with st := .hard, byDone := false } } ∧ t.mem = s.mem) ∧
  (∀ r, (∀ q ∈ s.me.live, ∀ k, q.st ≠ .stopped k) → s.me.pre.st = .hnd ∨ s.me.pre.st = .resumed →
    ∃ t, stopped r t { s.me with pre := { s.me.pre with second := some (s.me.pre.second.getD (r, s.now + 20000)) } } ∧ t.mem = s.mem) ∧
  (s.me.pre.st = .hnd ∨ s.me.pre.st = .pending →
    (s.me.pre.hard ≤ s.now → Gives (.hardSaveTime gid w) s (· = { s with me := { s.me with pre := { s.me.pre with st := .hard } } })) ∧
    (s.now < s.me.pre.hard → Gives (.hardSaveTime gid w) s (· = s))) ∧
  ((∀ a ∈ s.accs, a.gid ≠ gid ∨ a.w ≠ w) → (∀ o ∈ s.ops, o.cls = 5 → o.gid ≠ gid ∨ o.w ≠ w) → (∀ q ∈ s.me.streams, q.2.st = .closed) →
    (s.me.pre.st = .drain → Gives (.warpSave gid w) s fun t =>
      t = { s with me := t.me, clus := t.clus } ∧ t.me.pre = { s.me.pre with st := .saved, byDone := true } ∧ t.me.regs = { s.me.regs with v := [], p := [] } ∧
      t.me.paths = s.me.live.filter (fun p => p.hmode != .pre) ∧ t.me.cur.id = 32 ∧ t.me.cur.hmode = .pre ∧ t.me.cur.st = .ready ∧ t.me.cur.wpos = 0 ∧
      (∀ l, l < 32 → (t.me.cur.mask.getLsbD l = true ↔ ∃ p ∈ s.me.live, p.hmode = .pre ∧ p.mask.getLsbD l = true)) ∧
      ∀ p r, p ∈ s.me.live → p.hmode = .pre → p.st = .held (.preDone r) → (∀ q ∈ s.me.live, q.hmode = .pre → q = p ∨ p.id < q.id) →
        t.me.cur.pc = r.setWidth 48) ∧
    (s.me.pre.st = .hard → Gives (.hardSave gid w) s fun t =>
      t = { s with me := { s.me with pre := { s.me.pre with st := .saved, byDone := false }, fibres := t.me.fibres }, clus := t.clus } ∧
      ∀ k, t.fibre k = { s.fibre k with ahead := 0 })) ∧
  (s.me.pre.st = .saved → (∀ o ∈ s.ops, o.gid ≠ gid) → (∀ a ∈ s.accs, a.gid ≠ gid) → s.gang.queue = [] → s.gang.array = none →
    s.coreNo < 96 → s.gang.base + s.gang.localk * 1024 ≤ 2 ^ 20 → calm s →
    let here := localKey s.coreNo s.gang.base
    let there := savedKey gid 0
    let n := s.gang.localk * 1024
    let kept := savedStack gid w
    s.me.stack + 65536 ≤ gddrTop → (∀ o ∈ s.ops, ∀ r ∈ o.ranges, here + n ≤ r.base ∨ r.base + r.len ≤ here) →
    (∀ o ∈ s.ops, ∀ k x, o.stamp = some (k, x) → here + n ≤ k ∨ k + 8 ≤ here) →
    Gives (.gangSave gid) s fun t =>
      t.gang = { s.gang with st := .saved, since := s.now, sinceP := s.pkg.periods, saves := true } ∧ t.me = s.me ∧
      (∀ j, j < n → t.byte (there + j) = s.byte (here + j) ∧ t.byte (here + j) = 0) ∧
      (∀ j, j < 65536 → t.byte (kept + j) = s.byte (s.me.stack + j) ∧ t.byte (s.me.stack + j) = 0) ∧
      ∀ j, ¬ (here ≤ j ∧ j < here + n) → ¬ (there ≤ j ∧ j < there + n) → ¬ (kept ≤ j ∧ j < kept + 65536) →
        ¬ (s.me.stack ≤ j ∧ j < s.me.stack + 65536) → t.byte j = s.byte j) ∧
  (∀ i c, s.inst? i.id = some i → i.cosets = [c] →
    let waiting (g : Gang) : Prop := g ∈ s.gang :: s.gangs ∧ g.gid ≠ 0 ∧ (g.st = .queued ∨ g.st = .saved) ∧ g.inst = i.id ∧ g.index ∈ c
    let e := i.entry
    let holds (k : Nat) : Nat := min (min 16 (min 128 (4 * (s.core k).active) / max e.warps 1))
      (min (if e.localk = 0 then 16 else 640 / e.localk) (if e.mcode ≠ 0 then 2 else 16))
    let free (k : Nat) : Prop :=
      k < 96 ∧ s.placeableCore k = true ∧ s.stackTakes (k / 32) = true ∧ (s.core k).kept = none ∧ 0 < holds k
    let others (k : Nat) : List Gang := s.coreGangs k
    let all := ((s.gang :: s.gangs).filter fun g => g.gid != 0 && (g.st == .queued || g.st == .saved) && g.inst == i.id && c.contains g.index).length
    let residents (k : Nat) : List Gang := (others k).filter fun g => g.st == .resident
    (∃ g, waiting g) → (∀ g, waiting g → s.periodsSince g.since g.sinceP ≠ 0) → Gives (.coresidencyReservation i.id) s fun t =>
      ∃ g : Gang, waiting g ∧ t = { s with cores := t.cores } ∧
        ∀ k, (free k → t.core k = { s.core k with kept := some { gid := g.gid, n := min all (holds k), warps := e.warps, localk := e.localk,
                                                                  mx := decide (e.mcode ≠ 0), gangsFree := 16 - (residents k).length,
                                                                  warpsFree := min 128 (4 * (s.core k).active) - (s.coreWarps k).length,
                                                                  mxFree := 2 - ((residents k).filter Gang.mx).length,
                                                                  spans := gapsOf ((others k).map fun g => (g.base, g.localk * 1024)) } }) ∧
          (¬ free k → t.core k = s.core k)) ∧
  ∀ c vs g, s.priorityChoice = some (c, vs, g) →
    (∃ h rest i, s.placeQueue = h :: rest ∧ g = h.gid ∧ h.prio = 3 ∧ s.inst? h.inst = some i ∧ s.periodsSince i.time i.period ≠ 0 ∧
      ∃ us, s.unitOf h = some us ∧ s.roomFor us = false ∧ s.served (us.map Gang.gid) = false) ∧
    let yoked := ((s.gangOf? g).map fun h => (s.ctx h.asid).yoked).getD false
    let its (k : Nat) : Prop := k = c ∨ (yoked = true ∧ k = c + 16)
    c < 96 ∧ (∀ k, k = c → s.placeableCore k = true ∧ (s.core k).evicting = none) ∧
    (∀ v ∈ vs, ∃ k, (k = c ∨ k = c + 16) ∧ ∃ h ∈ s.coreGangs k, h.st = .resident ∧ h.prio < 2 ∧ v ∈ (s.setOf h).map Gang.gid) ∧
    (vs = [gid] → Gives .priorityPreemption s fun t => ∃ t', exec (.preemptionRequest gid .priority) s = .next t' ∧ t = { t' with cores := t.cores } ∧
      ∀ k, (its k → t.core k = { t'.core k with reserved := some g, evicting := some g }) ∧ (¬ its k → t.core k = t'.core k))) ∧
  ∀ (s : State) (i : Inst) (p : Spotting) (rest : List Gang), s.me.gid ≠ 0 → s.gang.gid = s.me.gid → s.gang.st = .saved → s.gang.saves = true →
    (∀ x ∈ s.warps, x.gid ≠ s.me.gid) → (∀ g ∈ s.gangs, g.gid ≠ s.me.gid) → s.me.exited = false → s.me.trc.on = false → s.me.w < 32 →
    s.me.pre.st = .saved → s.me.live ≠ [] → (∀ q ∈ s.me.live, q.st ≠ .held .trapBusy ∧ q.kept = none ∧ ∀ k, q.st = .parked k → k.action = none) → calm s →
    (∀ h, s.me.toRelease h = none) → (∀ q ∈ s.me.streams, q.2.st = .closed) → (∀ k, s.gang.seq.st = .parked k → k.action = none) →
    s.inst? s.gang.inst = some i → (s.ctx s.gang.asid).yoked = false → s.placeQueue = s.gang :: rest → s.unitOf s.gang = some [s.gang] →
    s.gangHeld s.gang = false → s.overEverywhere [s.gang.gid] s.gang = false → s.growsFor [s.gang.gid] = false →
    p.gid = s.gang.gid → s.plan [s.gang.gid] [] [] [s.gang] = some [p] → p.lw * 65536 ≤ (s.core p.core).localLimit → Gives .gangPlacement s fun t =>
      let st : PreSt := if s.me.pre.byDone = true ∨ s.me.pre.hnd = true then .resumed else .run
      t.me = { s.me with pre := { s.me.pre with st := st, second := if st = .run then none else s.me.pre.second }, top := false, issued := 0
                         streams := s.me.streams.map fun q => (q.1, { q.2 with ahead := 0 }), fibres := s.me.fibres.map fun q => (q.1, { q.2 with ahead := 0 })
                         track := t.me.track, slot := t.me.slot, stack := (s.core p.core).lsarea.toNat + t.me.slot * 65536 } ∧
      t.gang.gid = s.gang.gid ∧ t.gang.st = .resident ∧ 32 * t.gang.stk + t.gang.core = p.core ∧ t.gang.base = p.base ∧
      (∀ j, j < s.gang.localk * 1024 → t.byte (localKey p.core p.base + j) = s.byte (savedKey s.me.gid j)) ∧
      ∀ j, j < 65536 → t.byte (t.me.stack + j) = s.byte (savedStack s.me.gid s.me.w + j)

/-! ### The matrix side (13_matrix) -/

/-- Tokens, barriers, loops and the array queue (13_matrix R289, R291 to R296, R303): tok.give and tok.take, the pass of a given token, the arrivals of
warps and sequencer at a barrier and its next phase, loops and the sequencer's end with the error of a warp that waits at a barrier then, a matrix word's
issue into the queue, its stall and its TOKEN trap, the regions of each queued operation, the start of the operation at the queue's head with what its
sources hold then, or its program error, and the turns of two gangs that share an array. That a path waits for a barrier at its own place
(log 15), that a word which must wait is issued again (log 16), what INFO tok.give's error has beyond a missing ownership (log 42), and that a warp's
further gifts of a token lapse when it passes (log 48) are the model's choices. -/
def Obligations.MatrixOrder : Prop := ∀ s : State, s.gang.gid ≠ 0 → (∀ g ∈ s.gangs, g.gid ≠ s.gang.gid) → s.issue ≠ .none →
  let g := s.gang
  let q := g.seq
  let mine : Nat := if s.issue = .seq then 0 else s.me.w + 1
  let owner (t : State) (k : Nat) : Nat := smGet 0 t.gang.tokens k
  let bad (i : Instr) (code : Nat) (info : BitVec 64) : Prop := exec i s = .next (s.progErr code info)
  let onlySeq (x : Seqr) (t : State) : Prop := t = { s with gang := { g with seq := x } }
  let passed (t : State) (k : BitVec 4) (o : Nat) : Prop := (∀ j, owner t j = if j = k.toNat then o else owner s j) ∧ t.mem = s.mem ∧
    (o = 0 → q.st = .atTok k.toNat → t.gang.seq.st = .running) ∧
    ∀ x ∈ t.me :: t.warps, x.gid = g.gid → x.w + 1 = o → ∀ p ∈ x.cur :: x.paths, p.st ≠ .held (.tokTake k)
  (g.mx = false → ∀ (k : BitVec 4) (a : BitVec 6), bad (.tokGive k a) 0x0D06 0 ∧ bad (.tokTake k) 0x0D06 0 ∧ bad (.seqBar k) 0x0D06 0) ∧
  (g.mx = true → ∀ (k : BitVec 4) (a : BitVec 6),
    let r := (s.u a).toNat
    let to_ : Nat := if r = 32 then 0 else r + 1
    let noWarp : Prop := 32 < r ∨ (r ≠ 32 ∧ (g.warpsN ≤ r ∨ ∃ x ∈ s.me :: s.warps, x.gid = g.gid ∧ x.w = r ∧ x.exited = true))
    (owner s k.toNat ≠ mine → bad (.tokGive k a) 0x0D02 0) ∧
    (owner s k.toNat = mine → noWarp → bad (.tokGive k a) 0x0D02 ((s.u a).setWidth 64)) ∧
    (¬ noWarp → owner s k.toNat = mine → to_ = mine → Gives (.tokGive k a) s (· = s)) ∧
    (¬ noWarp → owner s k.toNat = mine → to_ ≠ mine → s.issue = .lane →
      Gives (.tokGive k a) s (· = { s with gang := { g with passing := g.passing ++ [(k.toNat, to_)] } })) ∧
    (¬ noWarp → owner s k.toNat = mine → to_ ≠ mine → s.issue = .seq → Gives (.tokGive k a) s fun t => passed t k to_) ∧
    (owner s k.toNat = mine → Gives (.tokTake k) s (· = s)) ∧
    (owner s k.toNat ≠ mine → s.issue = .lane → Gives (.tokTake k) s (· = { s with me := { s.me with cur := { s.me.cur with st := .held (.tokTake k) } } })) ∧
    (owner s k.toNat ≠ mine → s.issue = .seq → Gives (.tokTake k) s (onlySeq { q with st := .atTok k.toNat })) ∧
    (∀ p, g.passing.find? (fun p => p.1 == k.toNat) = some p →
      let stores : Prop := ∃ x ∈ s.accs, x.gid = g.gid ∧ x.w + 1 = owner s k.toNat ∧ x.op = .accSt ∧ tileOf x.key = k.toNat
      let locked : Prop := ∃ l ∈ s.locks, l.2.base < tileKey g.gid k.toNat (2 ^ 14) ∧ tileKey g.gid k.toNat 0 < l.2.base + l.2.len
      (stores ∨ locked → Gives (.tokenPass g.gid k) s (· = s)) ∧
      (¬ stores → ¬ locked → Gives (.tokenPass g.gid k) s fun t => passed t k p.2 ∧ t.gang.passing = g.passing.filter fun q => q.1 != k.toNat))) ∧
  (g.mx = true → s.issue = .lane → s.me.gid = g.gid → s.me.w < 32 → ∀ b : BitVec 4,
    let x : Bar := smGet {} g.bars b.toNat
    let came : Bool := x.arrived.getLsbD s.me.w
    let x' : Bar := if came = true then x else { x with arrived := x.arrived ||| BitVec.ofNat 32 (2 ^ s.me.w), aphase := smPut 0 x.aphase s.me.w x.phase }
    let waiting : Path := { s.me.cur with pc := s.here.pc, wpos := s.here.wpos, st := .held (.seqBar b s.here.npc s.here.nwpos) }
    (q.st = .ended → bad (.seqBar b) 0x0D03 0) ∧
    (q.st ≠ .ended → (∃ o ∈ s.ops, o.gid = g.gid ∧ o.w = s.me.w ∧ (o.phase = .waitPlace ∨ o.phase = .waitEntries) ∧ o.dmask &&& s.me.cur.mask ≠ 0) →
      exec (.seqBar b) s = .next s.retry) ∧
    (q.st ≠ .ended → (∀ o ∈ s.ops, o.phase = .registered ∨ o.phase = .started) →
      (¬ (x.seq = true ∧ x'.arrived &&& x.mask = x.mask) → Gives (.seqBar b) s fun t =>
        t = { s with me := { s.me with cur := waiting }, gang := { g with bars := t.gang.bars } } ∧
        ∀ j, smGet {} t.gang.bars j = if j = b.toNat then x' else smGet {} g.bars j) ∧
      (x.seq = true → x'.arrived &&& x.mask = x.mask → came = false → Gives (.seqBar b) s fun t =>
        (∀ j, smGet {} t.gang.bars j = if j = b.toNat then { x' with phase := x.phase + 1, arrived := 0, seq := false } else smGet {} g.bars j) ∧
        t.gang.seq = { q with st := if q.st = .atBar b.toNat then .running else q.st } ∧
        t.me.cur = { s.me.cur with pc := s.here.npc, wpos := s.here.nwpos, st := s.me.woken } ∧ t.mem = s.mem))) ∧
  (s.issue = .seq → ∀ (b : BitVec 4) (a : BitVec 6),
    let x : Bar := smGet {} g.bars b.toNat
    let m := s.u a
    let x' : Bar := { x with seq := true, mask := m }
    (m = 0 ∨ m.toNat / 2 ^ g.warpsN ≠ 0 → bad (.seqBarMatrix b a) 0x0D03 (m.setWidth 64)) ∧
    (m ≠ 0 → m.toNat / 2 ^ g.warpsN = 0 →
      (x.arrived &&& m ≠ m → Gives (.seqBarMatrix b a) s fun t =>
        t = { s with gang := { g with bars := t.gang.bars, seq := { q with st := .atBar b.toNat } } } ∧
        ∀ j, smGet {} t.gang.bars j = if j = b.toNat then x' else smGet {} g.bars j) ∧
      (x.arrived &&& m = m → Gives (.seqBarMatrix b a) s fun t =>
        (∀ j, smGet {} t.gang.bars j = if j = b.toNat then { x' with phase := x.phase + 1, arrived := 0, seq := false } else smGet {} g.bars j) ∧
        t.gang.seq = { q with st := .running } ∧ t.mem = s.mem ∧
        ∀ w ∈ t.me :: t.warps, w.gid = g.gid → smGet 0 x.aphase w.w = x.phase → ∀ p ∈ w.cur :: w.paths, ∀ n k, p.st ≠ .held (.seqBar b n k)))) ∧
  (s.issue = .seq →
    (∀ d a, (s.u a = 0 ∨ q.loops.length = 4 → bad (.seqLoop d a) 0x0D04 0) ∧
      (s.u a ≠ 0 → q.loops.length ≠ 4 → Gives (.seqLoop d a) s fun t => ∃ s',
        s' = { s with gang := { g with seq := { q with loops := { pc := s.here.npc, wpos := s.here.nwpos, count := s.u a, trip := 0, reg := d } :: q.loops } } } ∧
        UniformResult s' t (one d 0))) ∧
    (q.loops = [] → (∀ x ∈ s.me :: s.warps, ∀ p ∈ x.cur :: x.paths, ∀ c n k, p.st ≠ .held (.seqBar c n k)) →
      Gives .seqEnd s (onlySeq { q with st := .ended })) ∧
    (∀ b n k, q.loops = [] → s.me.gid = g.gid → (∀ x ∈ s.warps, x.gid ≠ g.gid) → s.me.exited = false → s.me.halted = false → s.me.trc.on = false →
      s.me.cur.mask ≠ 0 → s.me.cur.st = .held (.seqBar b n k) → (∀ p ∈ s.me.paths, p.mask ≠ 0 → ∀ c n k, p.st ≠ .held (.seqBar c n k)) →
      (∀ p ∈ s.me.live, p.hmode = .none) →
      let p := s.me.cur
      let v : State := { s with gang := { g with seq := { q with st := .ended } }, issue := .lane, here := { pc := p.pc, wpos := p.wpos, npc := n, nwpos := k } }
      ((s.ctx g.asid).tvbase = 0 → (s.ctx g.asid).ending = none → Gives .seqEnd s fun t => t.gang.seq.st = .ended ∧ ∃ e,
        (t.ctx g.asid).ending = some e ∧ e.cls = 1 ∧ e.code = 0x0D03 ∧ e.info = 0 ∧ e.path = p.id ∧ e.warp = BitVec.ofNat 32 s.me.w ∧ e.tpc = p.pc.setWidth 64) ∧
      ∀ h : BitVec 64, v.vector 1 = (v, .ok h) → h ≠ 0 → Gives .seqEnd s fun t => t.gang.seq.st = .ended ∧
        t.me.cur = { p with hmode := .trap, pc := h.setWidth 48, wpos := 0, st := .ready, replay := none, snap := none, rpos := none, phase := 0, after := none
                            tpc := p.pc, twpos := p.wpos, tnpc := (p.after.getD (n, k)).1, tnwpos := (p.after.getD (n, k)).2 } ∧
        ∀ l, l < 32 → s.act l = true → t.rd (s.me.stackAt l 512 + 16) 2 = 1 ∧ t.rd (s.me.stackAt l 512 + 18) 2 = 0x0D03) ∧
    ∀ l ls, q.loops = l :: ls →
      (l.trip + 1 < l.count → Gives .seqEnd s fun t => ∃ s',
        s' = { s with gang := { g with seq := { q with loops := { l with trip := l.trip + 1 } :: ls, pc := l.pc, wpos := l.wpos } } } ∧
        UniformResult s' t (one l.reg (l.trip + 1))) ∧
      (¬ l.trip + 1 < l.count → Gives .seqEnd s (onlySeq { q with loops := ls }))) ∧
  (let queues (i : Instr) (o : MxOp) (ts : List Nat) : Prop :=
    (4 ≤ g.queue.length → Gives i s (onlySeq { q with pc := s.here.pc, wpos := s.here.wpos })) ∧
    (g.queue.length < 4 →
      (∀ k ∈ ts, owner s k ≠ 0 → (∀ j ∈ ts, owner s j ≠ 0 → k ≤ j) → exec i s = .next (s.trap 3 k 0)) ∧
      ((∀ k ∈ ts, owner s k = 0) → Gives i s (· = { s with gang := { g with queue := g.queue ++ [{ o with pc := s.here.pc }] } })))
  (∀ t a b f acc k, queues (.mm t a b f acc k) { kind := .mm f acc k, d := t.toNat, pa := s.uu a, pb := s.uu b } [t.toNat]) ∧
  (∀ t a b f acc k, queues (.mmSp t a b f acc k) { kind := .sp f acc k, d := t.toNat, pa := s.uu a, pb := s.uu b } [t.toNat]) ∧
  (∀ t, queues (.mmZero t) { kind := .zero, d := t.toNat } [t.toNat]) ∧
  ∀ t u,
    queues (.mmXpose t u) { kind := .xpose, d := t.toNat, a := u.toNat } [t.toNat, u.toNat] ∧
    (∀ b, queues (.mmPerm t u b) { kind := .perm, d := t.toNat, a := u.toNat, pb := s.uu b } [t.toNat, u.toNat]) ∧
    queues (.mmRsumF32 t u) { kind := .rsumF32, d := t.toNat, a := u.toNat } [t.toNat, u.toNat] ∧
    queues (.mmRsumI32 t u) { kind := .rsumI32, d := t.toNat, a := u.toNat } [t.toNat, u.toNat] ∧
    (∀ b, queues (.mmScacc t u b) { kind := .scacc, d := t.toNat, a := u.toNat, pb := s.uu b } [t.toNat, u.toNat]) ∧
    queues (.mmCvtF32I32 t u) { kind := .cvtF32I32, d := t.toNat, a := u.toNat } [t.toNat, u.toNat] ∧
    queues (.mmCvtI32F32 t u) { kind := .cvtI32F32, d := t.toNat, a := u.toNat } [t.toNat, u.toNat]) ∧
  (∀ o : MxOp,
    let rb (k : Kb) : Nat := match k with | .k512 => 512 | .k256 => 256 | .k128 => 128
    let part (k : Keep) : Nat := match k with | .keep8 => 8 | .keep4 => 4 | .keep2 => 2
    (∀ f acc k, o.kind = .mm f acc k →
      let n := 64 * rb k + if f = .q4 then 64 * (rb k / 8) else 0
      o.regions = [(o.pa, n, 128), (o.pb, n, 128)]) ∧
    (∀ f acc k, o.kind = .sp f acc k → o.regions =
      [(o.pa, 64 * 512 + (if f = .q4 then 64 * (512 / 8) else 0) + 64 * (512 * 8 / mmWidth f / 2), 128),
       (o.pb, 64 * 512 * 16 / part k + (if f = .q4 then 64 * (512 * 2 / part k) else 0), 128)]) ∧
    (o.kind = .perm → o.regions = [(o.pb, 64, 64)]) ∧ (o.kind = .scacc → o.regions = [(o.pb, 512, 16)]) ∧
    (o.kind = .zero ∨ o.kind = .xpose ∨ o.kind = .rsumF32 ∨ o.kind = .rsumI32 ∨ o.kind = .cvtF32I32 ∨ o.kind = .cvtI32F32 → o.regions = []) ∧
    ∀ k, (∃ r ∈ o.regions, localKey s.coreNo (g.base + r.1.toNat % 2 ^ 48) ≤ k ∧ k < localKey s.coreNo (g.base + r.1.toNat % 2 ^ 48) + r.2.1) →
      smGet unwritten (s.mxCells g o) k = s.byte k) ∧
  (∀ h o p, s.gangs = [h] → h.gid ≠ 0 → h.mx = true → g.mx = true → h.st = .resident → g.st = .resident → 32 * h.stk + h.core = s.coreNo → g.array = none →
    h.array = none → s.locks = [] → (g.queue = [o] ∨ g.queue = []) → h.queue = [p] → (∀ r ∈ p.regions, h.badRegion r = false) → (∀ r ∈ o.regions, g.badRegion r = false) →
    let starts (x : Gang) (o : MxOp) : Gang :=
      { x with queue := [], array := some { o with srcs := o.regions.map fun r => (r.1.toNat % 2 ^ 48, r.2.1), snap := s.mxCells x o } }
    let first : Prop := g.queue = [o] ∧ (s.core s.coreNo).mxlast = h.gid
    (first → Gives (.matrixOpStart s.coreNo) s fun t => t.gang = starts g o ∧ t.gangs = [h] ∧ (t.core s.coreNo).mxlast = g.gid) ∧
    (g.queue = [] ∨ (s.core s.coreNo).mxlast = g.gid → Gives (.matrixOpStart s.coreNo) s fun t => t.gang = g ∧ t.gangs = [starts h p] ∧
      (t.core s.coreNo).mxlast = h.gid)) ∧
  ∀ o rest, g.mx = true → g.st = .resident → g.array = none → g.queue = o :: rest → (∀ h ∈ s.gangs, 32 * h.stk + h.core ≠ s.coreNo) →
    let fits (r : BitVec 64 × Nat × Nat) : Prop := r.1.toNat / 2 ^ 48 = 0xFFF0 ∧ r.1.toNat % 2 ^ 48 % r.2.2 = 0 ∧
      r.1.toNat % 2 ^ 48 + r.2.1 + (if g.poolHeld = true then 64 + 160 * g.pool else 0) ≤ g.localk * 1024
    ((∀ r ∈ o.regions, fits r) → s.locks = [] → Gives (.matrixOpStart s.coreNo) s fun t =>
      t = { s with gang := { g with queue := rest, array := some { o with srcs := o.regions.map fun r => (r.1.toNat % 2 ^ 48, r.2.1), snap := s.mxCells g o } }, cores := t.cores } ∧
      ∀ c, t.core c = if c = s.coreNo then { s.core c with mxlast := g.gid } else s.core c) ∧
    ∀ (pre post : List (BitVec 64 × Nat × Nat)) (r : BitVec 64 × Nat × Nat), o.regions = pre ++ r :: post → (∀ y ∈ pre, fits y) → ¬ fits r → Gives (.matrixOpStart s.coreNo) s fun t =>
      t = { s with gang := { g with queue := rest }, ctxs := t.ctxs } ∧ ∃ e, (t.ctx g.asid).ending = some e ∧
        ((s.ctx g.asid).ending = none → e.cls = 1 ∧ e.code = 0x0D01 ∧ e.info = r.1 ∧ e.tpc = o.pc.setWidth 64 ∧ e.path = 0xFE ∧ e.warp = 0xFFFFFFFF ∧ e.tmask = 0)

/-- What the array computes, and the lanes' access to tiles (13_matrix R296 to R302, R305, R306): the retiring operation writes every element of its tile from
its sources as its start event found them, and adds its flags to TFLAGS; acc.ld and acc.st read and write a tile whose token the warp holds, trap RANGE where a lock covers an element, and wait, as accesses in flight,
while an operation that names the tile has not retired; plane.pack and plane.unpack move the bits of
the lanes' chunk. -/
def Obligations.MatrixResults : Prop := ∀ s : State,
  let g := s.gang
  let cell (m : State) (t i j : Nat) : BitVec 32 := m.rd32 (tileKey g.gid t (4 * (64 * i + j)))
  let f32 (t i j : Nat) : FVal := fmtF32.decode (cell s t i j).toNat
  let flags (t : Nat) : Nat := tileKey g.gid 16 (4 * t)
  let source (a : BitVec 64) : Nat := localKey s.coreNo (g.base + a.toNat % 2 ^ 48)
  let one : FVal := .fin false 1 0
  let sat (n : Int) : FRes := ⟨(BitVec.ofInt 32 (max (-2 ^ 31) (min (2 ^ 31 - 1) n))).toNat, if n < -2 ^ 31 ∨ 2 ^ 31 - 1 < n then flagST else 0⟩
  let results (o : MxOp) (P : Nat → Nat → FRes → Prop) : Prop := g.array = some o → Gives (.matrixOpRetire s.coreNo) s fun t =>
    t = { s with gang := { g with array := none }, mem := t.mem, journal := t.journal } ∧
    ∃ r : Nat → Nat → FRes,
      (∀ i j, i < 64 → j < 64 → P i j (r i j) ∧ cell t o.d i j = BitVec.ofNat 32 (r i j).bits) ∧
      (∀ b, b < 32 → ((t.rd32 (flags o.d)).getLsbD b = true ↔
        o.kind ≠ .zero ∧ ((s.rd32 (flags o.d)).getLsbD b = true ∨ ∃ i j, i < 64 ∧ j < 64 ∧ (r i j).fl.getLsbD b = true))) ∧
      ∀ k, ¬ (tileKey g.gid o.d 0 ≤ k ∧ k < tileKey g.gid o.d 0 + 2 ^ 14) → ¬ (flags o.d ≤ k ∧ k < flags o.d + 4) → t.byte k = s.byte k
  (g.gid ≠ 0 → g.mx = true → g.st = .resident → (∀ h ∈ s.gangs, h.gid ≠ g.gid ∧ 32 * h.stk + h.core ≠ s.coreNo) → ∀ o : MxOp, o.d < 16 → o.a < 16 →
    let v := s.mxView g o
    (∀ k, v.byte k = if (o.srcs.any fun r => decide (localKey s.coreNo g.base + r.1 ≤ k) && decide (k < localKey s.coreNo g.base + r.1 + r.2)) = true
      then smGet unwritten o.snap k else s.byte k) ∧
    let reduced (f : MmFmt) (acc : Bool) (i j n : Nat) (x y : Nat → MxElt) (r : FRes) : Prop :=
      let int (m : Nat) : Int := (BitVec.ofNat (mmWidth f) m).toInt
      if f = .i2 ∨ f = .i4 ∨ f = .i8 then
        r = sat ((if acc then (cell s o.d i j).toInt else 0) + ((List.range n).map fun k => int (x k).1 * int (y k).1).sum)
      else WindowSum (decide (f ≠ .e4m3)) ((if acc then [(f32 o.d i j, one)] else []) ++ (List.range n).map fun k => (mmValue f (x k), mmValue f (y k))) r
    (∀ f acc k, o.kind = .mm f acc k →
      let rb := match k with | .k512 => 512 | .k256 => 256 | .k128 => 128
      results o fun i j r => reduced f acc i j (rb * 8 / mmWidth f) (v.mxElt f rb (source o.pa) i) (v.mxElt f rb (source o.pb) j) r) ∧
    (∀ f acc k, o.kind = .sp f acc k →
      let keep := match k with | .keep8 => 8 | .keep4 => 4 | .keep2 => 2
      results o fun i j r => reduced f acc i j (512 * 8 / mmWidth f) (v.mxElt f 512 (source o.pa) i)
        (fun m => v.spElt f keep (source o.pb) j (16 * (m / keep) + v.spIdx f (source o.pa) i m)) r) ∧
    (o.kind = .zero → results o fun _ _ r => r = ⟨0, 0⟩) ∧
    (o.kind = .xpose → results o fun i j r => r = ⟨(cell s o.a j i).toNat, 0⟩) ∧
    (o.kind = .perm → results o fun i j r =>
      let n := (v.byte (source o.pb + i)).toNat
      r = ⟨if 64 ≤ n then 0 else (cell s o.a n j).toNat, 0⟩) ∧
    (o.kind = .rsumI32 → results o fun i _ r => r = sat ((List.range 64).map fun k => (cell s o.a i k).toInt).sum) ∧
    (o.kind = .rsumF32 → results o fun i _ r => WindowSum true ((List.range 64).map fun k => (f32 o.a i k, one)) r) ∧
    (o.kind = .scacc → results o fun i j r =>
      let x (n k : Nat) : FVal := fmtF32.decode (v.rd (source o.pb + 256 * n + 4 * k) 4)
      ∃ p q, ProductOf fmtF32 .ne (x 0 i) (x 1 j) p ∧ FusedOf fmtF32 .ne (f32 o.a i j) (fmtF32.decode p.bits) (f32 o.d i j) q ∧ r = ⟨q.bits, p.fl ||| q.fl⟩) ∧
    (o.kind = .cvtF32I32 → results o fun i j r =>
      let n := (cell s o.a i j).toInt
      if n = 0 then r = ⟨0, 0⟩ else Rounds fmtF32 .ne (n : ℚ) r) ∧
    (o.kind = .cvtI32F32 → results o fun i j r => match f32 o.a i j with
      | .nan _ => r.bits % 2 ^ 32 = 0 ∧ r.fl = flagNV
      | .inf n => r.bits % 2 ^ 32 = (if n then 0x80000000 else 0x7FFFFFFF) ∧ r.fl = flagST
      | .fin n m e =>
        let y := roundInt .ne (ratOf n m e)
        r.bits % 2 ^ 32 = (sat y).bits ∧ r.fl = (sat y).fl ||| (if (y : ℚ) = ratOf n m e then 0 else flagNX))) ∧
  (∀ f rb k a i j,
    (∀ b, b < mmWidth f → (s.mxElt f rb a i k).1.testBit b = (s.byte (a + i * rb + b * (rb / mmWidth f) + k / 8)).getLsbD (k % 8)) ∧
    (f = .q4 → (s.mxElt f rb a i k).2 = (s.byte (a + 64 * rb + i * (rb / 8) + k / 16)).toNat) ∧
    ∀ c, c < 4 → (s.spIdx f a i j).testBit c =
      (s.byte (a + 64 * 512 + (if f = .q4 then 64 * 64 else 0) + i * (512 * 8 / mmWidth f / 2) + j / 2)).getLsbD (4 * (j % 2) + c)) ∧
  (∀ f k a i e,
    let keep := match k with | Keep.keep8 => 8 | .keep4 => 4 | .keep2 => 2
    let kst := 512 * 8 / mmWidth f
    let row := a + i * (512 * (16 / keep)) + e / kst * 512
    (∀ b, b < mmWidth f → (s.spElt f keep a i e).1.testBit b = (s.byte (row + b * (512 / mmWidth f) + e % kst / 8)).getLsbD (e % kst % 8)) ∧
    (f = .q4 → (s.spElt f keep a i e).2 = (s.byte (a + 64 * (512 * (16 / keep)) + i * (512 * 2 / keep) + e / 16)).toNat)) ∧
  (let on (l : Nat) : Bool := s.memMask.getLsbD l
  let key (t : BitVec 4) (x : Word) : Nat := if x = 0x1000 then flags t.toNat else tileKey g.gid t.toNat (4 * x.toNat)
  ∀ (d b : BitVec 7) (t : BitVec 4),
    (g.mx = false → exec (.accLd d t b) s = .next (s.progErr 0x0D06 0) ∧ exec (.accSt d t b) s = .next (s.progErr 0x0D06 0)) ∧
    (g.mx = true → smGet 0 g.tokens t.toNat ≠ s.me.w + 1 → exec (.accLd d t b) s = .next (s.trap 3 t.toNat 0) ∧ exec (.accSt d t b) s = .next (s.trap 3 t.toNat 0)) ∧
    (g.mx = true → smGet 0 g.tokens t.toNat = s.me.w + 1 → s.me.cur.mask ≠ 0 → s.locks = [] → s.sys.mclkEnd = none → (∀ h ∈ g :: s.gangs, h.array = none) →
      (∀ o ∈ g.queue, t.toNat ≠ o.d ∧ t.toNat ≠ o.a) → (∀ l, l < 32 → on l = true → (s.v b l).toNat ≤ 0x1000) →
      Gives (.accLd d t b) s (fun u => OnlyRegs s u ∧ u.me.regs = { s.me.regs with v := u.me.regs.v } ∧
        ∀ n l, l < 32 → u.me.regs.getV n l = if n = d.toNat ∧ on l = true then s.rd32 (key t (s.v b l)) else s.me.regs.getV n l) ∧
      Gives (.accSt d t b) s fun u => u = { s with mem := u.mem, journal := u.journal } ∧
        (∀ l, l < 32 → on l = true → (∀ m, l < m → m < 32 → on m = true → s.v b m ≠ s.v b l) →
          u.rd32 (key t (s.v b l)) = if s.v b l = 0x1000 then s.v d l &&& 0x3F else s.v d l) ∧
        ∀ k, (∀ l, l < 32 → on l = true → ¬ (key t (s.v b l) ≤ k ∧ k < key t (s.v b l) + 4)) → u.byte k = s.byte k) ∧
    (g.mx = true → smGet 0 g.tokens t.toNat = s.me.w + 1 → s.locks = [] → (∃ o ∈ g.queue ++ g.array.toList, t.toNat ∈ o.tiles) →
      (∀ l, l < 32 → on l = true → (s.v b l).toNat ≤ 0x1000) → ∀ i op, (i = .accLd d t b ∧ op = AccOp.accLd) ∨ (i = .accSt d t b ∧ op = .accSt) →
      Gives i s fun u => u = { s with accs := u.accs, sys := u.sys } ∧ ∃ as, u.accs = s.accs ++ as ∧ as.map Acc.lane = lanesOf s.memMask ∧
        ∀ a ∈ as, a.gid = g.gid ∧ a.w = s.me.w ∧ a.op = op ∧ a.st = .waiting ∧ a.size = 4 ∧ a.key = key t (s.v b a.lane) ∧
          (op = .accSt → a.val.setWidth 32 = if s.v b a.lane = 0x1000 then s.v d a.lane &&& 0x3F else s.v d a.lane)) ∧
    (g.mx = true → smGet 0 g.tokens t.toNat = s.me.w + 1 → (∀ x ∈ s.locks, x.1 ∉ s.ownStreams) → (s.ctx g.asid).priv = false →
      let hit (full : Bool) : Prop := ∃ l, l < 32 ∧ on l = true ∧ (s.v b l).toNat ≤ 0x1000 ∧ ∃ x ∈ s.locks, (full = true → x.2.full = true) ∧ s.hits (key t (s.v b l)) 4 x.2 = true
      (hit true → ∃ c a ids, exec (.accLd d t b) s = .next (s.trapOn 2 c a ids)) ∧ (hit false → ∃ c a ids, exec (.accSt d t b) s = .next (s.trapOn 2 c a ids))) ∧
    (g.mx = true → smGet 0 g.tokens t.toNat = s.me.w + 1 → s.locks = [] → s.me.cur.replay = none → s.me.trc.on = false →
      (∀ p ∈ s.me.paths, p.mask &&& s.me.cur.mask = 0) → (∃ l, l < 32 ∧ s.act l = true ∧ (s.v b l).toNat ≤ 0x1000) → ∀ i ∈ [Instr.accLd d t b, .accSt d t b], Gives i s fun u =>
        ∀ l, l < 32 → u.act l = (s.act l && decide ((s.v b l).toNat ≤ 0x1000)) ∧
          smGet 0 u.me.fm.codes l = if s.act l = true ∧ 0x1000 < (s.v b l).toNat then 0x0B else smGet 0 s.me.fm.codes l)) ∧
  ∀ d a b : BitVec 7,
    let x := s.v b s.first
    let w := 2 ^ (x.toNat % 4 + 1)
    let n := 1024 / w
    let chunk (p : Nat) : Bool := s.act (p / 32) && (s.v a (p / 32)).getLsbD (p % 32)
    let moves (i : Instr) (src : Nat → Nat) : Prop :=
      (3 < x.toNat % 8 → exec i s = .next (s.progErr 0x0D05 (x.setWidth 64))) ∧
      (x.toNat % 8 ≤ 3 → Gives i s fun t => ∃ f, LaneResult s t d f ∧ ∀ l j, l < 32 → j < 32 → (f l).getLsbD j = chunk (src (32 * l + j)))
    moves (.planePack d a b) (fun p => p % n * w + p / n) ∧ moves (.planeUnpack d a b) fun p => p % w * n + p / w

/-! ### Graphics (14_beams) -/

/-- The issue of graphics operations (14_beams R308 to R311, R316, R320 to R323, R326 to R329): the program errors of their operands; and, with descriptors, slots,
records and buffers in the own local memory and no other operation there, the registration, with the lanes' words, the descriptors and the scene header as they
stand, and FULL-LOCK entries over what will be written. What a hull's error has as INFO is the model's choice (log 38). -/
def Obligations.GraphicsIssue : Prop := ∀ s : State, s.ops = [] → s.sys.migs = [] → s.me.cur.mask ≠ 0 → s.gang.localk ≤ 1024 →
  let g := s.gang
  let registers (k : GfxKind) (cls n d : Nat) (lanes : Nat → List (BitVec 32)) (block : List (BitVec 64)) (rs : List (Nat × Nat)) (t : State) : Prop := ∃ o,
    t = { s with ops := [o], sys := { s.sys with nextOp := s.sys.nextOp + 1 }, gang := if k = .bpoolInit then { g with poolHeld := true } else g } ∧
    o.id = s.sys.nextOp ∧ o.phase = .registered ∧ o.gid = g.gid ∧ o.w = s.me.w ∧ o.cls = cls ∧ o.body = .gfx k d (s.lanes.map fun l => (l, lanes l)) block ∧
    o.dmask = s.me.cur.mask ∧ o.dregs = (List.range n).map (d + ·) ∧
    ∀ r ∈ rs, ∃ e ∈ o.locks, e.full = true ∧ e.base ≤ r.1 ∧ r.1 + r.2 ≤ e.base + e.len
  let v (a : BitVec 7) (n l : Nat) : List (BitVec 32) := (List.range n).map fun i => s.me.regs.getV (a.toNat + i) l
  let bad (i : Instr) (code : Nat) (info : BitVec 64) : Prop := exec i s = .next (s.progErr code info)
  let pool : Nat := if g.poolHeld = true then 64 + 160 * g.pool else 0
  let loc (off : Nat) : Nat := localKey s.coreNo (g.base + off)
  let inLocal (a : BitVec 64) (n off : Nat) : Prop := a.toNat = 0xFFF0 * 2 ^ 48 + off ∧ off + n + pool ≤ g.localk * 1024
  let sane : Prop := s.coreNo < 96 ∧ g.localk ≤ 1024 ∧ g.base + g.localk * 1024 ≤ 2 ^ 20
  (g.pool = 0 → bad .bpoolInit 0x0E01 0) ∧
  (g.pool ≠ 0 → Gives .bpoolInit s (registers .bpoolInit 0 0 0 (fun _ => []) [] [])) ∧
  (g.pool = 0 ∨ g.poolHeld = false → ∀ (d a : BitVec 7) (u : BitVec 6), bad (.beamMake d a) 0x0E01 0 ∧ bad (.beamFree d a) 0x0E01 0 ∧ bad (.beamStat d a) 0x0E01 0 ∧
    bad (.beamCast d a u) 0x0E01 0 ∧ bad (.beamNext d a u) 0x0E01 0) ∧
  (∀ d a : BitVec 7, g.pool ≠ 0 → g.poolHeld = true →
    Gives (.beamFree d a) s (registers .beamFree 0 1 d.toNat (v a 1) [] []) ∧ Gives (.beamStat d a) s (registers .beamStat 0 1 d.toNat (v a 1) [] [])) ∧
  (∀ (d a b : BitVec 7) (off : Nat → Nat), (∀ l, l < 32 → s.act l = true → inLocal (s.vv a l) 64 (off l) ∧ off l % 64 = 0) →
    let desc (l : Nat) : List (BitVec 32) := (List.range 16).map fun i => s.rd32 (loc (off l) + 4 * i)
    (g.pool ≠ 0 → g.poolHeld = true → Gives (.beamMake d a) s (registers .beamMake 0 1 d.toNat (fun l => v a 2 l ++ desc l) [] [])) ∧
    Gives (.texSamp d a b) s (registers .texSamp 2 4 d.toNat (fun l => v a 2 l ++ v b 3 l ++ desc l) [] []) ∧
    Gives (.texFoot d a b) s (registers .texFoot 2 4 d.toNat (fun l => v a 2 l ++ v b 6 l ++ desc l) [] []) ∧
    Gives (.texLod d a b) s (registers .texLod 2 1 d.toNat (fun l => v a 2 l ++ v b 6 l ++ desc l) [] [])) ∧
  (∀ (d a : BitVec 7) (u : BitVec 6), g.pool ≠ 0 → g.poolHeld = true → ∀ x ∈ [(Instr.beamCast d a u, GfxKind.beamCast), (.beamNext d a u, .beamNext)],
    let buf := s.uuAt u 2
    let cap := s.un (u.toNat + 4)
    (buf.toNat % 128 ≠ 0 ∨ (buf.toNat / 2 ^ 48 ≠ 0 ∧ buf.toNat / 2 ^ 48 ≠ 0xFFF0) → bad x.1 0x0E02 buf) ∧
    (buf.toNat % 128 = 0 → buf.toNat / 2 ^ 48 = 0 ∨ buf.toNat / 2 ^ 48 = 0xFFF0 →
      (cap = 0 ∨ 131071 < cap.toNat → bad x.1 0x0E02 (cap.setWidth 64)) ∧
      (cap ≠ 0 → cap.toNat ≤ 131071 → hdrPlace (s.uuAt u 0).toNat = false → bad x.1 0x0E03 (s.uuAt u 0)) ∧
      ∀ h off, cap ≠ 0 → cap.toNat ≤ 131071 → sane → s.sceneHdr (s.uuAt u 0) = .ok (s, h) → inLocal buf (128 + 128 * cap.toNat) off →
        Gives x.1 s (registers x.2 0 2 d.toNat (v a 1) ([s.uuAt u 0, buf, cap.setWidth 64] ++ h) [(loc off, 128 + 128 * cap.toNat)]))) ∧
  ∀ (d a : BitVec 7) (u : BitVec 6),
    let wide (size : Nat) : Prop := ∃ l m, l < 32 ∧ m < 32 ∧ s.act l = true ∧ s.act m = true ∧ 2 ^ 16 + (s.vv a l).toNat < (s.vv a m).toNat + size
    let records (size align : Nat) (off : Nat → Nat) : Prop := sane ∧ ¬ wide size ∧
      ∀ l, l < 32 → s.act l = true → inLocal (s.vv a l) size (off l) ∧ off l % align = 0
    let cover (size : Nat) (off : Nat → Nat) : List (Nat × Nat) := s.lanes.map fun l => (loc (off l), size)
    (∀ x ∈ [(Instr.rayCast d a u, GfxKind.rayCast), (.rayNext d a u, .rayNext), (.rayResume d a u, .rayResume)],
      (hdrPlace (s.uu u).toNat = false → bad x.1 0x0E03 (s.uu u)) ∧
      ∀ h, s.sceneHdr (s.uu u) = .ok (s, h) →
        (wide 128 → bad x.1 0x0E04 (s.vv a s.first)) ∧
        ∀ off, records 128 128 off → Gives x.1 s (registers x.2 1 1 d.toNat (v a 2) (s.uu u :: h) (cover 128 off))) ∧
    ∀ x ∈ [(Instr.rastTri d a u, GfxKind.rastTri), (.rastNext d a u, .rastNext)],
      let w := s.u u
      let h := s.un (u.toNat + 1)
      (wide 192 → bad x.1 0x0E04 (s.vv a s.first)) ∧
      (¬ wide 192 → w = 0 ∨ 65536 < w.toNat → bad x.1 0x0E05 (w.setWidth 64)) ∧
      (¬ wide 192 → w ≠ 0 → w.toNat ≤ 65536 → h = 0 ∨ 65536 < h.toNat → bad x.1 0x0E05 (h.setWidth 64)) ∧
      ∀ off, w ≠ 0 → w.toNat ≤ 65536 → h ≠ 0 → h.toNat ≤ 65536 → records 192 64 off →
        Gives x.1 s (registers x.2 3 1 d.toNat (v a 2) [w.setWidth 64, h.setWidth 64] (cover 192 off))

/-- What a graphics operation that is alone does between its start and its completion (14_beams R308, R309, R314 to R327, R329): one event reads each record of a
scene and each texel, whose pages the operation then uses; the beam pool's header and entries, the statuses of bad slots and descriptors; over what it has read, a beam's lanes that are skipped,
refused, out of room or done, and the piece that no triangle meets or one covers; a ray's miss, hit and stop at the root of a scene; bilinear samples
and levels of detail; and raster coverage: the first tile after the record's that has a pixel whose centre the triangle covers, exactly, with the mask
of its pixels, or the end. Results arrive in the lanes of vD, and the .beam count rises by one. That a finished ray's trail is empty, and NaN texels
where a coordinate overflows, are the model's choices (log 39). -/
def Obligations.GraphicsEffects : Prop := ∀ (s : State) (o : EngOp) (tape : List ((Nat × Nat) × Option (List (BitVec 8)))),
  s.ops = [o] → s.me.gid ≠ 0 → s.gang.gid = s.me.gid → o.gid = s.me.gid → o.w = s.me.w → (o.phase = .registered ∧ o.more = false) ∨ (o.phase = .started ∧ o.more = true) →
  o.tape = some tape → o.closing = true → o.bounced = [] → o.stamp = none → o.slot = none → o.cls < 4 → s.sys.migs = [] → s.sys.mclkEnd = none →
  s.enforced = false → s.me.pre.st ≠ .saved → (∀ g ∈ s.gang :: s.gangs, g.array = none) → (s.core s.coreNo).wps = [] → s.me.stops = [] →
  let g := s.gang
  let runs (P : State → Prop) : Prop := ∃ u t, exec (.engineQueueStart o.id) s = .next u ∧ exec (.engineCompletion o.id) u = .next t ∧ t.ops = [] ∧
    t.me.beams = s.me.beams + 1 ∧ P t
  let lanes (d : Nat) (f : Nat → Option Word) (t : State) : Prop :=
    ∀ n l, l < 32 → t.me.regs.getV n l = if n = d then (f l).getD (s.me.regs.getV n l) else s.me.regs.getV n l
  let onlyLane (l : Nat) (x : Word) (m : Nat) : Option Word := if m = l then some x else none
  let keep (k n : Nat) (t : State) : Prop := ∀ j, ¬ (k ≤ j ∧ j < k + n) → t.byte j = s.byte j
  let pk := localKey (32 * g.stk + g.core) (g.base + g.localk * 1024 - (64 + 160 * g.pool))
  let hdr (m : State) (i : Nat) : Word := m.rd32 (pk + 4 * i)
  let entry (e : Nat) : Nat := pk + 64 + 160 * e
  let state (e : Nat) : Nat := s.rd (entry e + 56) 4 / 2 ^ 8 % 4
  let got (a n : Nat) : Option (Option (List (BitVec 8))) := tape.lookup (a, n)
  (∀ a n, s.engineRun o = .error (a, n) →
    let reads (x : Option (List (BitVec 8))) : Prop := Gives (.engineQueueStart o.id) s fun t =>
      t = { s with ops := [{ o with phase := .started, more := true, tape := some (tape ++ [((a, n), x)])
                                    pages := (o.pages ++ if a / 2 ^ 48 = 0 ∧ x ≠ none then (cutVa a 3 n).map (fun (c : Nat × Nat) => (o.asid, c.1 / 2 ^ 16)) else []).eraseDups }]
                   cores := t.cores }
    (∀ bs, s.engLoad o a n = (s, .ok bs) → reads (some bs)) ∧ (s.engLoad o a n = (s, .error .sfault) → reads none)) ∧
  (∀ d ls b, o.body = .gfx .bpoolInit d ls b → g.pool < 2 ^ 16 → runs fun t =>
    (∀ i, i < 16 → hdr t i = if i = 0 ∨ i = 1 then BitVec.ofNat 32 g.pool else if i = 7 then 1 else 0) ∧
    (∀ j, j < 160 * g.pool → t.byte (pk + 64 + j) = 0) ∧ keep pk (64 + 160 * g.pool) t ∧ lanes 0 (fun _ => none) t) ∧
  (∀ d ls b, o.body = .gfx .beamStat d ls b → (ls.map Prod.fst).Nodup → runs fun t => t.mem = s.mem ∧ lanes d (fun l => (ls.find? fun x => x.1 == l).map fun x =>
    let v := (x.2.getD 0 0).toNat
    let e := v % 2 ^ 16
    let w := v / 2 ^ 16 % 64
    if v / 2 ^ 22 = 0 ∧ e = 0xFFFF ∧ w ≤ 15 then hdr s w
    else if v / 2 ^ 22 = 0 ∧ e < g.pool ∧ w ≤ 39 then s.rd32 (entry e + 4 * w) else 0xFFFFFFFF) t) ∧
  (∀ d l x b, l < 32 → o.body = .gfx .beamFree d [(l, [x])] b →
    let e := x.toNat
    (¬ (e < g.pool ∧ state e = 1) → runs fun t => t.mem = s.mem ∧ lanes d (onlyLane l 1) t) ∧
    (e < g.pool → state e = 1 → g.pool ≤ s.rd (entry e + 72) 4 → runs fun t => lanes d (onlyLane l 0) t ∧ (∀ j, j < 160 → t.byte (entry e + j) = 0) ∧
      hdr t 1 = hdr s 1 + 1 ∧ hdr t 4 = hdr s 4 + 1 ∧ keep pk (64 + 160 * g.pool) t)) ∧
  (∀ (d l : Nat) (a0 a1 : Word) (w : List Word) (b : List (BitVec 64)), l < 32 → w.length = 16 → o.body = .gfx .beamMake d [(l, a0 :: a1 :: w)] b →
    let at_ (i : Nat) : Nat := (w.getD i 0).toNat
    let frame : Frame := { P := [at_ 0, at_ 1, at_ 2], Q := [at_ 3, at_ 4, at_ 5], E1 := [at_ 6, at_ 7, at_ 8], E2 := [at_ 9, at_ 10, at_ 11], tlo := at_ 12, thi := at_ 13 }
    let fails (x : Word) : Prop := runs fun t => t.mem = s.mem ∧ lanes d (onlyLane l x) t
    (at_ 14 / 2 % 2 ^ 23 ≠ 0 → fails 0xFFFFFFFD) ∧
    (at_ 14 / 2 % 2 ^ 23 = 0 → frame.ok = false → fails 0xFFFFFFFE) ∧
    (at_ 14 / 2 % 2 ^ 23 = 0 → frame.ok = true → hdr s 1 = 0 → fails 0xFFFFFFFF) ∧
    (at_ 14 / 2 % 2 ^ 23 = 0 → frame.ok = true → hdr s 1 ≠ 0 → ∀ e, e < g.pool → e < 2 ^ 16 → state e = 0 → (∀ i, i < e → state i ≠ 0) → runs fun t =>
      lanes d (onlyLane l (BitVec.ofNat 32 e)) t ∧
      (∀ i, i < 16 → i ≠ 14 → t.rd32 (entry e + 4 * i) = w.getD i 0) ∧ t.rd32 (entry e + 56) = w.getD 14 0 ||| 0x4100 ∧
      t.rd32 (entry e + 72) = 0xFFFFFFFF ∧
      (∀ i, i < 8 → t.rd32 (entry e + 96 + 4 * i) = if i = 2 ∨ i = 4 ∨ i = 5 ∨ i = 7 then 0x3F800000 else 0) ∧
      hdr t 1 = hdr s 1 - 1 ∧ hdr t 3 = hdr s 3 + 1 ∧ keep pk (64 + 160 * g.pool) t)) ∧
  (∀ (d l : Nat) (ws : List Word) (b : List (BitVec 64)) (cast : Bool) (kb n : Nat), l < 32 →
    o.body = .gfx (if cast then .beamCast else .beamNext) d [(l, ws)] b → o.segs = [{ addr := (b.getD 1 0).toNat, len := n, key := kb }] → 4 ≤ n →
    kb + n ≤ pk ∨ pk + (64 + 160 * g.pool) ≤ kb → g.pool < 2 ^ 16 →
    let r := (ws.getD 0 0).toNat
    let h := hdrOf b .beamCast
    let cap := (b.getD 2 0).toNat
    let count := s.rd kb 4
    let at_ (m : State) (e off : Nat) : Word := m.rd32 (entry e + off)
    let next := s.rd (entry r + 72) 4
    let results (st written esc : Nat) (t : State) : Prop := ∀ i m, m < 32 → t.me.regs.getV i m =
      if m = l ∧ i = d then BitVec.ofNat 32 (st * 2 ^ 28 + written) else if m = l ∧ i = d + 1 then BitVec.ofNat 32 esc else s.me.regs.getV i m
    let same (t : State) : Prop := ∀ j, t.byte j = s.byte j
    let made : Prop := r < g.pool ∧ state r = 1
    (r = 0xFFFFFFFF → runs fun t => results 5 0 0 t ∧ same t) ∧
    (r ≠ 0xFFFFFFFF → ¬ made → runs fun t => results 2 0 0x7FC00000 t ∧ same t) ∧
    (made → cast = false → g.pool ≤ next → runs fun t => results 0 0 (s.rd (entry r + 76) 4) t ∧ same t) ∧
    (made → cast = true → g.pool ≤ next → hdr s 1 = 0 → cap ≤ count → runs fun t => results 6 0 0 t ∧ at_ t r 72 = 0xFFFFFFFF ∧ at_ t r 76 = 0 ∧
      ∀ j, ¬ (entry r + 72 ≤ j ∧ j < entry r + 80) → t.byte j = s.byte j) ∧
    ∀ (nb tb : List (BitVec 8)), made → h.level = 0 → 0 < h.nnode → got (h.nodes % 2 ^ 64) 32 = some (some nb) → field nb 24 1 = 1 → field nb 25 1 = 1 →
      let j := field nb 28 4
      let y : List Vec := [floats tb 0 3, floats tb 12 3, floats tb 24 3]
      let frame := s.pFrame pk r
      let outside (e : Nat) (t : State) : Prop := ∀ i, ¬ (pk ≤ i ∧ i < pk + 64) → ¬ (entry r + 72 ≤ i ∧ i < entry r + 80) →
        ¬ (entry e ≤ i ∧ i < entry e + 160) → t.byte i = s.byte i
      let freed (e : Nat) (t : State) : Prop := (∀ i, i < 160 → t.byte (entry e + i) = 0) ∧ hdr t 4 = hdr s 4 + 1
      j < h.nitem → got ((h.items + 48 * j) % 2 ^ 64) 48 = some (some tb) →
      (∀ e, cast = true → g.pool ≤ next → hdr s 1 ≠ 0 → e < g.pool → state e = 0 → (∀ i, i < e → state i ≠ 0) → overlap frame (s.pPoly pk r) y = none →
        let esc := fAdd 0 (area (s.pPoly pk r))
        runs fun t => results 0 0 esc t ∧ at_ t r 72 = 0xFFFFFFFF ∧ at_ t r 76 = BitVec.ofNat 32 esc ∧ freed e t ∧ hdr t 1 = hdr s 1 ∧ hdr t 3 = hdr s 3 + 1 ∧
          (hdr t 2).toNat = max (hdr s 2).toNat (g.pool - ((hdr s 1).toNat - 1)) ∧ (∀ i, 5 ≤ i → i < 16 → hdr t i = hdr s i) ∧ outside e t) ∧
      (cast = false → next < g.pool → next ≠ r → g.pool ≤ s.rd (entry next + 72) 4 → s.rd (entry next + 64) 4 = 0 → s.rd (entry next + 68) 4 = 0 →
        let piece := s.pPoly pk next
        (overlap frame piece y = none →
          let esc := fAdd (s.rd (entry r + 76) 4) (area piece)
          runs fun t => results 0 0 esc t ∧ at_ t r 72 = at_ s next 72 ∧ at_ t r 76 = BitVec.ofNat 32 esc ∧ freed next t ∧ hdr t 1 = hdr s 1 + 1 ∧
            (∀ i, i < 16 → i ≠ 1 → i ≠ 4 → hdr t i = hdr s i) ∧ outside next t) ∧
        ∀ x, overlap frame piece y = some x → x.kept = [] → (s.below o h h.nnode [0]).any (s.triOverlaps o h frame piece) = true →
          let visible : Prop := (at_ s r 56).getLsbD 0 = false
          let c := x.covered
          let centre := mean c
          let nv := if c.length ≤ 15 then c.length else 0
          let vertex (i : Nat) : Nat := (((c.take 8).getD (i / 2) []).c (i % 2))
          let fragment : List Nat := [0xFFFFFFFF, j, 0xFFFFFFFF, field tb 36 4, x.tnear, x.tfar, centre.c 0, centre.c 1, 0, 0, 1 + nv * 2 ^ 8 + l * 2 ^ 16,
            area c, (at_ s r 60).toNat, 0, 0, 0] ++ (List.range 16).map vertex
          (visible → cap ≤ count → runs fun t => results 1 0 (s.rd (entry r + 76) 4) t ∧ same t) ∧
          ((visible → count < cap ∧ 128 * (count + 2) ≤ n) →
            let written := if visible then 1 else 0
            runs fun t => results 0 written (s.rd (entry r + 76) 4) t ∧ at_ t r 72 = at_ s next 72 ∧ at_ t r 76 = at_ s r 76 ∧ freed next t ∧
              hdr t 1 = hdr s 1 + 1 ∧ hdr t 6 = hdr s 6 + 1 ∧ t.rd32 kb = BitVec.ofNat 32 (count + written) ∧
              (visible → ∀ i, i < 32 → t.rd32 (kb + 128 * (count + 1) + 4 * i) = BitVec.ofNat 32 (fragment.getD i 0)) ∧
              ∀ i, ¬ (kb ≤ i ∧ i < kb + 4) → ¬ (kb + 128 * (count + 1) ≤ i ∧ i < kb + 128 * (count + 2)) → ¬ (pk ≤ i ∧ i < pk + 64) →
                ¬ (entry r + 72 ≤ i ∧ i < entry r + 80) → ¬ (entry next ≤ i ∧ i < entry next + 160) → t.byte i = s.byte i))) ∧
  (∀ (d l k a : Nat) (ws : List Word) (b : List (BitVec 64)), l < 32 → o.body = .gfx .rayCast d [(l, ws)] b → addrOf ws = a → o.segs = [{ addr := a, len := 128, key := k }] →
    slotBad (s.bytes k 128) = false →
    let h := hdrOf b .rayCast
    let f (i : Nat) : Nat := s.rd (k + i) 4
    let from_ : Vec := [f 0, f 4, f 8]
    let dir : Vec := [f 16, f 20, f 24]
    let ends (st : Nat) (hit : List Nat) : Prop := runs fun t => lanes d (onlyLane l (BitVec.ofNat 32 st)) t ∧ t.rd (k + 76) 4 = st ∧
      (∀ i, i < 7 → t.rd32 (k + 48 + 4 * i) = BitVec.ofNat 32 (hit.getD i 0)) ∧ t.rd (k + 80) 8 = 0 ∧ t.rd (k + 88) 4 = 0 ∧ t.rd32 (k + 92) = 0xFFFFFFFF ∧
      t.rd (k + 96) 4 = 0 ∧ (∀ j, j < 16 → t.byte (k + 112 + j) = 0) ∧ (∀ j, j < 48 ∨ (100 ≤ j ∧ j < 112) → t.byte (k + j) = s.byte (k + j)) ∧ keep k 128 t
    let miss : List Nat := [0x7F800000, 0xFFFFFFFF, 0xFFFFFFFF, 0, 0, 0xFFFFFFFF, 0xFFFFFFFF]
    0 < h.nnode → h.level = 0 →
    (got (h.nodes % 2 ^ 64) 32 = some none → ends 5 miss) ∧
    ∀ nb, got (h.nodes % 2 ^ 64) 32 = some (some nb) →
      let low (c : Nat) : Nat := field nb (4 * c) 4
      let high (c : Nat) : Nat := field nb (12 + 4 * c) 4
      let t0 (c : Nat) : Nat := fMul (fSub (low c) (from_.c c)) (fDiv 0x3F800000 (dir.c c))
      let t1 (c : Nat) : Nat := fMul (fSub (high c) (from_.c c)) (fDiv 0x3F800000 (dir.c c))
      let narrow (r : Nat × Nat) (c : Nat) : Nat × Nat :=
        if fZero (dir.c c) || isNanF32 (t0 c) || isNanF32 (t1 c) then r else (fMax r.1 (fMin (t0 c) (t1 c)), fMin r.2 (fMax (t0 c) (t1 c)))
      let span := narrow (narrow (narrow (0xFF800000, 0x7F800000) 0) 1) 2
      let passes : Prop := (∀ c, c < 3 → fLe (low c) (high c) = true ∧
          (fZero (dir.c c) = true → fLt (from_.c c) (low c) = false ∧ fLt (high c) (from_.c c) = false)) ∧
        fLe span.1 span.2 = true ∧ fLe (f 12) span.2 = true ∧ fLe span.1 (f 28) = true
      let kind := field nb 24 1
      let count := field nb 25 1
      let j := field nb 28 4
      (¬ passes → ends 0 miss) ∧
      (passes → 1 < kind ∨ (kind = 1 ∧ count = 0) ∨ (kind = 0 ∧ (count < 2 ∨ 4 < count)) → ends 4 miss) ∧
      (passes → kind = 1 → count = 1 →
        (h.nitem ≤ j → ends 4 miss) ∧
        (j < h.nitem →
          (got ((h.items + 48 * j) % 2 ^ 64) 48 = some none → ends 5 miss) ∧
          ∀ tb, got ((h.items + 48 * j) % 2 ^ 64) 48 = some (some tb) →
            let e1 := sub3 (floats tb 12 3) (floats tb 0 3)
            let e2 := sub3 (floats tb 24 3) (floats tb 0 3)
            let x := cross3 dir e2
            let det := dot3 e1 x
            let y := sub3 from_ (floats tb 0 3)
            let u := fDiv (dot3 y x) det
            let z := cross3 y e1
            let v := fDiv (dot3 dir z) det
            let at_ := fDiv (dot3 e2 z) det
            let hits : Prop := fZero det = false ∧ fLe 0 u = true ∧ fLe 0 v = true ∧ fLe (fAdd u v) 0x3F800000 = true ∧ fLe (f 12) at_ = true ∧ fLe at_ (f 28) = true
            (hits → ends 1 [at_, 0xFFFFFFFF, j, u, v, 0xFFFFFFFF, field tb 36 4]) ∧ (¬ hits → ends 0 miss)))) ∧
  (∀ (d l k a : Nat) (ws : List Word) (b : List (BitVec 64)) (kind : GfxKind), l < 32 → kind.cls = 1 → o.body = .gfx kind d [(l, ws)] b → addrOf ws = a → o.segs = [{ addr := a, len := 128, key := k }] →
    let slot := s.bytes k 128
    (kind = .rayResume → s.rd (k + 76) 4 ≠ 2 → runs fun t => t.mem = s.mem ∧ lanes d (onlyLane l 6) t) ∧
    (kind ≠ .rayResume → slotBad slot = true → runs fun t => lanes d (onlyLane l 3) t ∧ t.rd32 (k + 76) = 3 ∧ keep (k + 76) 4 t) ∧
    ∀ st bs, st ≠ 6 → bs.length = 128 → s.rayLane o (hdrOf b kind) kind slot = .ok (s, bs, st) → runs fun t =>
      lanes d (onlyLane l (BitVec.ofNat 32 st)) t ∧ t.bytes k 128 = bs ∧ keep k 128 t) ∧
  (∀ (d l : Nat) (ws : List Word) (b : List (BitVec 64)) (kind : GfxKind), l < 32 → kind.cls = 2 → o.body = .gfx kind d [(l, ws)] b →
    let desc := (ws.drop kind.words).flatMap fun w => leBytes 4 w.toNat
    let args := ((ws.take kind.words).drop 2).map BitVec.toNat
    let gets (cs : List Nat) : Prop := runs fun t => t.mem = s.mem ∧ ∀ n m, m < 32 → t.me.regs.getV n m =
      if m = l ∧ d ≤ n ∧ n < d + cs.length then BitVec.ofNat 32 (cs.getD (n - d) 0) else s.me.regs.getV n m
    (parseTex desc = none → gets (if kind = .texLod then [0x7FC00000] else [0x7FC00000, 0x7FC00000, 0x7FC00000, 0x7FC00000])) ∧
    (∀ cs, s.texLane o kind desc args = .ok (s, cs) → gets cs) ∧
    ∀ x, parseTex desc = some x → args.all fFinite = true →
      (∀ (u v lam : Nat) (m : Nat), kind = .texSamp → args = [u, v, lam] → (∀ n, fFloor lam = some n → (m : Int) = max 0 (min n (x.levels - 1))) →
        let px := fSub (fMul u (fOfInt (x.width m))) fHalf
        let py := fSub (fMul v (fOfInt (x.height m))) fHalf
        let wrap (clamp : Bool) (i : Int) (n : Nat) : Int := if clamp = true then max 0 (min i (n - 1)) else i % n
        let texel (i j : Int) : Option (Option (List (BitVec 8))) :=
          got (x.base + x.levelAt m + ((wrap x.wrapV j (x.height m)).toNat * x.width m + (wrap x.wrapU i (x.width m)).toNat) * x.size) x.size
        let lerp (a b f : Nat) : Nat := fAdd a (fMul f (fSub b a))
        (fFloor px = none ∨ fFloor py = none → gets [0x7FC00000, 0x7FC00000, 0x7FC00000, 0x7FC00000]) ∧
        ∀ (x0 y0 : Int) (a b c e : List (BitVec 8)), fFloor px = some x0 → fFloor py = some y0 → texel x0 y0 = some (some a) → texel (x0 + 1) y0 = some (some b) →
          texel x0 (y0 + 1) = some (some c) → texel (x0 + 1) (y0 + 1) = some (some e) →
          gets ((List.range 4).map fun k => lerp (lerp (x.channel a k) (x.channel b k) (fFrac px)) (lerp (x.channel c k) (x.channel e k) (fFrac px)) (fFrac py))) ∧
      ∀ u v u1 v1 u2 v2 : Nat, kind = .texLod → args = [u, v, u1, v1, u2, v2] →
        let len (a b : Nat) : Nat :=
          let y := fMul a (fOfInt (2 ^ x.logw : Nat))
          let z := fMul b (fOfInt (2 ^ x.logh : Nat))
          (sqrtBits (fAdd (fMul y y) (fMul z z))).bits
        let big := fMax (len u1 v1) (len u2 v2)
        let small := fMin (len u1 v1) (len u2 v2)
        let q := fDiv big small
        let top := fOfInt (x.levels - 1)
        ∀ k : Nat, (fZero small = true → k = 16) → (fZero small = false → isNanF32 q = false ∧ ∀ n, (fCeil q = none → k = 16) ∧ (fCeil q = some n → (k : Int) = min 16 n)) →
          let lam := if fZero big = true then 0 else (log2Bits (fDiv big (fOfInt k))).bits
          gets [if fLt lam 0 = true then 0 else if fLt top lam = true then top else lam]) ∧
  ∀ (d l k a : Nat) (ws : List Word) (w h : BitVec 64) (next : Bool), l < 32 → o.body = .gfx (if next then .rastNext else .rastTri) d [(l, ws)] [w, h] → addrOf ws = a →
    o.segs = [{ addr := a, len := 192, key := k }] →
    let coordinate (i : Nat) : FVal := fmtF32.decode (s.rd (k + 4 * i) 4)
    let finite : Prop := ∀ i, i < 6 → ∃ n m e, coordinate i = .fin n m e
    let x (i : Nat) : ℚ := match coordinate i with | .fin n m e => ratOf n m e | _ => 0
    let p (i : Nat) : ℚ × ℚ := (x (2 * i), x (2 * i + 1))
    let edge (a b c : ℚ × ℚ) : ℚ := (b.1 - a.1) * (c.2 - a.2) - (b.2 - a.2) * (c.1 - a.1)
    let inside (a b c : ℚ × ℚ) : Prop := 0 < edge a b c ∨ (edge a b c = 0 ∧ (0 < b.2 - a.2 ∨ (b.2 = a.2 ∧ b.1 < a.1)))
    let covered (px py : Nat) : Prop :=
      let c : ℚ × ℚ := (px + 1 / 2, py + 1 / 2)
      let area := edge (p 0) (p 1) (p 2)
      finite ∧ ((0 < area ∧ inside (p 0) (p 1) c ∧ inside (p 1) (p 2) c ∧ inside (p 2) (p 0) c) ∨
        (area < 0 ∧ inside (p 0) (p 2) c ∧ inside (p 2) (p 1) c ∧ inside (p 1) (p 0) c))
    let pixel (tx ty i j : Nat) : Prop := i < 32 ∧ j < 32 ∧ 32 * tx + i < w.toNat ∧ 32 * ty + j < h.toNat ∧ covered (32 * tx + i) (32 * ty + j)
    let old := s.rd (k + 28) 4
    let after (tx ty : Nat) : Prop := ¬ (next = true ∧ old = 1) ∨ s.rd (k + 26) 2 < ty ∨ (s.rd (k + 26) 2 = ty ∧ s.rd (k + 24) 2 < tx)
    let mask (t : State) (i j : Nat) : Bool := (t.rd32 (k + 64 + 4 * j)).getLsbD i
    w.toNat ≤ 65536 → h.toNat ≤ 65536 →
    (next = true → old = 2 → runs fun t => t.mem = s.mem ∧ lanes 0 (fun _ => none) t) ∧
    (¬ (next = true ∧ old = 2) → runs fun t => keep (k + 24) 168 t ∧ (∀ j, j < 28 → t.byte (k + 36 + j) = 0) ∧
      ((t.rd32 (k + 28) = 2 ∧ t.rd32 (k + 32) = 0 ∧ (∀ i j, i < 32 → j < 32 → mask t i j = false) ∧ lanes d (onlyLane l 0xFFFFFFFF) t ∧
          ∀ tx ty i j, after tx ty → ¬ pixel tx ty i j) ∨
       ∃ tx ty, after tx ty ∧ t.rd32 (k + 28) = 1 ∧ t.rd (k + 24) 2 = tx ∧ t.rd (k + 26) 2 = ty ∧
          (∀ i j, i < 32 → j < 32 → (mask t i j = true ↔ pixel tx ty i j)) ∧ (∃ i j, pixel tx ty i j) ∧
          t.rd (k + 32) 4 = ((List.range 1024).filter fun q => mask t (q % 32) (q / 32)).length ∧ lanes d (onlyLane l (t.rd32 (k + 32))) t ∧
          ∀ tx' ty' i j, after tx' ty' → ty' < ty ∨ (ty' = ty ∧ tx' < tx) → ¬ pixel tx' ty' i j))

/-! ### Power, time and system registers (15_power; 03_tasks R80 to R84) -/

/-- The instructions of power, time and system registers (15_power R332, R333, R341, R342, R344, R345, R347, R348; 03_tasks R82): plvl requests a level, answers the
grant, and the cluster's target is the largest grant; plvl.rd, time, cyc, dline and cnt.rd read; sys.rd answers ones for a bad register or selector; sys.wr
reports 1 for no such or a read-only register, 2 for a bad selector, 3 for a refused value, else it writes, and an RW register reads as written; alm.set
refuses an entry that breaks R82. Of two requests of one activity in one cycle, the one of the higher core and warp slot stands. That PKGCAP refuses a level
above 8 and SUPMBX reads its upper bits as 0 is the model's choice (log 31). -/
def Obligations.PowerInstructions : Prop := ∀ s : State,
  let cl := clusterOf s.coreNo
  let c := s.clu cl
  let alm := s.gang.alm
  let cap : Nat := if (s.stk (cl / 4)).warn = true then 2 else 8
  let grant (a r : Nat) : Nat := min (min r ((smGet (0x28 : BitVec 64) s.pkg.lvl a).toNat % 16)) (min s.pkg.pkgcap cap)
  (∀ d a,
    let r := (s.u a).toNat
    (8 < r → exec (.plvl d a) s = .next (s.progErr 0x0F01 ((s.u a).setWidth 64))) ∧
    (r ≤ 8 → s.gang.gid ≠ 0 → s.gang.st = .resident → s.me.gid = s.gang.gid → s.me.exited = false → s.me.pre.st ≠ .saved →
      let last := smGet (0, 0) c.asked alm
      let late : Prop := last.1 = (s.core s.coreNo).cyc.toNat ∧ 128 * s.coreNo + s.me.slot < last.2
      Gives (.plvl d a) s fun t => ∃ s', s' = { s with clus := s'.clus } ∧ UniformResult s' t (one d (BitVec.ofNat 32 (grant alm r))) ∧ ∃ mine : Nat,
        (late → mine = s.request cl alm) ∧ (¬ late → mine = r ∧ smGet (0, 0) (s'.clu cl).asked alm = ((s.core s.coreNo).cyc.toNat, 128 * s.coreNo + s.me.slot)) ∧
        let asks (x : Nat) : Nat := grant x (if x = alm then mine else s.request cl x)
        s'.request cl alm = mine ∧ (∀ x ∈ s.clusterActs cl, asks x ≤ (s'.clu cl).tgt) ∧ (∃ x ∈ s.clusterActs cl, (s'.clu cl).tgt = asks x) ∧
        (s'.clu cl).cur = c.cur ∧ (s'.clu cl).chg = c.chg ∧ ∀ k, k ≠ cl → s'.clu k = s.clu k)) ∧
  (∀ d, Gives (.plvlRd d) s fun t => UniformResult s t (one d (BitVec.ofNat 32 (c.cur % 16 + c.tgt % 16 * 2 ^ 4 + grant alm (s.request cl alm) * 2 ^ 8 +
    (if c.chg = none then 0 else 2 ^ 12) + match c.str with
      | some x => if x.lead = 0 ∧ x.len < x.need then 2 ^ 13 else 0
      | none => 0)))) ∧
  (∀ d, Gives (.time d) s fun t => UniformResult s t (pair d s.pkg.time)) ∧
  (∀ d, Gives (.cyc d) s fun t => UniformResult s t (pair d (s.core s.coreNo).cyc)) ∧
  (∀ d a, Gives (.dline d a) s fun t => UniformResult s t (pair d (BitVec.ofNat 64 (min (s.pkg.time.toNat + (s.uu a).toNat) (2 ^ 64 - 1))))) ∧
  (∀ d a, Gives (.cntRd d a) s fun t => UniformResult s t (pair d (
    let k := (s.u a).toNat
    if 10 < k then 0xFFFFFFFFFFFFFFFF else if k = 7 then c.strcyc else if k = 8 then c.strev else smGet 0 (s.core s.coreNo).cnt k))) ∧
  (let assigned (n : Nat) : Prop := n ≤ 9 ∨ n = 0x40 ∨ n = 0x41 ∨ n = 0x60 ∨ n = 0x61 ∨ (0x80 ≤ n ∧ n ≤ 0x82) ∨ (0xC0 ≤ n ∧ n ≤ 0xC4) ∨ (0x100 ≤ n ∧ n ≤ 0x13F)
  let readOnly (n : Nat) : Prop := n = 8 ∨ n = 0x41 ∨ n = 0x60 ∨ n = 0x81 ∨ n = 0x82 ∨ (0x100 ≤ n ∧ n ≤ 0x11F)
  let badSel (n : Nat) (sel : Word) : Prop := sel.toNat / 2 ^ 24 ≠ 0 ∨ sel.toNat / 2 ^ 12 % 16 ≠ 0 ∨
    (0x40 ≤ n ∧ n ≤ 0x82 ∧ s.powered (sel.toNat / 2 ^ 21 % 8) = false) ∨ (0xC0 ≤ n ∧ n ≤ 0xC4 ∧ (s.ctx (sel.toNat % 2 ^ 12)).st ≠ .bound)
  (∀ d a (n : BitVec 10), ¬ assigned n.toNat ∨ badSel n.toNat (s.u a) → Gives (.sysRd d a n) s fun t => UniformResult s t (pair d 0xFFFFFFFFFFFFFFFF)) ∧
  (∀ d a (n : BitVec 10), assigned n.toNat → ¬ badSel n.toNat (s.u a) →
    let core := 32 * ((s.u a).toNat / 2 ^ 21 % 8) + (s.u a).toNat / 2 ^ 16 % 32
    Gives (.sysRd d a n) s fun t => ∃ s', UniformResult s' t (pair d (s.regRead n.toNat (s.u a))) ∧ (n ≠ 0x082 → s' = s) ∧
      (n = 0x082 → s' = { s with cores := s'.cores } ∧ ∀ k, s'.core k = if k = core then { s.core core with rlcount := 0 } else s.core k)) ∧
  (∀ d a (n : BitVec 10),
    let v := s.uu a
    let sel := s.un (a.toNat + 2)
    let answers (x : Word) : Prop := Gives (.sysWr d a n) s fun t => UniformResult s t (one d x)
    let lvlBad : Prop := v.toNat / 256 ≠ 0 ∨ 8 < v.toNat % 16 ∨ 8 < v.toNat / 16 ∨ v.toNat % 16 < v.toNat / 16
    let refused : Prop := (n = 4 ∧ 8 < v.toNat % 16) ∨ (n = 5 ∧ (v.toNat % 32 < 10 ∨ 24 < v.toNat % 32 ∨ 16 < v.toNat / 2 ^ 8 % 32)) ∨
      (n = 0x61 ∧ (v.toNat < 16 ∨ 4096 < v.toNat)) ∨ (0x120 ≤ n.toNat ∧ n.toNat ≤ 0x13F ∧ lvlBad) ∨ (n = 9 ∧ s.prereqBad v = true)
    (¬ assigned n.toNat ∨ readOnly n.toNat → answers 1) ∧
    (assigned n.toNat → ¬ readOnly n.toNat →
      (badSel n.toNat sel → answers 2) ∧
      (¬ badSel n.toNat sel → n = 9 → s.windowMiss = true → exec (.sysWr d a n) s = .next s.retry) ∧
      (¬ badSel n.toNat sel → ¬ (n = 9 ∧ s.windowMiss = true) → refused → answers 3) ∧
      (¬ badSel n.toNat sel → ¬ (n = 9 ∧ s.windowMiss = true) → ¬ refused → Gives (.sysWr d a n) s fun t => ∃ s', UniformResult s' t (one d 0) ∧
        (n ≠ 9 → s'.mem = s.mem ∧ s'.me = s.me ∧ s'.gang = s.gang) ∧
        (n = 2 ∨ n = 0x40 ∨ n = 0x80 ∨ (0xC0 ≤ n.toNat ∧ n.toNat ≤ 0xC4) ∨ 0x120 ≤ n.toNat → s'.regRead n.toNat sel = v) ∧
        (n = 1 → s'.pkg.supmbx = v &&& 0x3FFF) ∧
        (n = 4 → s'.regRead 4 sel = BitVec.ofNat 64 (v.toNat % 16)) ∧
        (n = 6 → s'.pkg.tsBase = v &&& 0xFFFFFFC000) ∧
        (n = 0 → s'.pkg.norec = (s.pkg.norec && !v.getLsbD 3) ∧ s'.pkg.tsdrop = (s.pkg.tsdrop && !v.getLsbD 1) ∧ s'.pkg.tokdrop = (s.pkg.tokdrop && !v.getLsbD 0)) ∧
        (n = 7 → if v.getLsbD 63 = true then s'.pkg.trip = false ∧ s'.pkg.trips = 0 else s' = s) ∧
        (n = 3 → s' = { s with sys := { s.sys with effs := s.sys.effs ++ [.almper v] } }) ∧
        (n = 5 → s' = { s with sys := { s.sys with effs := s.sys.effs ++ [.tsctl v] } }) ∧
        (n = 9 → let u := (s.prereqEntry v).1
          s' = { u with sys := { u.sys with effs := u.sys.effs ++ [.prereq v] } }) ∧
        (n = 0x61 → s' = { s with sys := { s.sys with effs := s.sys.effs ++
          [.drooptst (clusterOf (32 * (sel.toNat / 2 ^ 21 % 8) + sel.toNat / 2 ^ 16 % 32)) v.toNat] } }))))) ∧
  ∀ d a (e : BitVec 5),
    let v := s.uu a
    let field (x : BitVec 64) (lo : Nat) : Nat := x.toNat / 2 ^ lo % 2 ^ 9
    let now (i : Nat) : BitVec 64 := if i = e.toNat then v else smGet 0 s.pkg.almN i
    let total (lo : Nat) : Nat := ((List.range 32).map fun i => field (now i) lo).sum
    let bad : Prop := 256 < field v 55 ∨ 256 < field v 46 ∨ 256 < field v 37 ∨ 256 < field v 28 ∨ field v 37 < field v 28 ∨ field v 55 < field v 46 ∨
      256 < total 28 ∨ 256 < total 46 ∨ 4 < v.toNat % 16 ∨ v.toNat / 16 % 2 ^ 12 ≠ 0
    (bad → Gives (.almSet d a e) s fun t => UniformResult s t (one d 3)) ∧
    (¬ bad → Gives (.almSet d a e) s fun t => ∃ s', UniformResult s' t (one d 0) ∧ s'.mem = s.mem ∧ s'.me = s.me ∧ s'.gang = s.gang ∧
      (∀ i, smGet 0 s'.pkg.almN i = now i) ∧ s'.pkg.alm = if s.enforced = true then s.pkg.alm else s'.pkg.almN)

/-- Events of power and time (15_power R334 to R338, R340, R341, R343, R345; 03_tasks R83, R84; 16_stack R356): level changes, stretches and calm windows, the
start of a period, frame ticks, thermal warnings and trips, the time kept without power, the life record's hours, the time series with its latch, its sample
and, in a later event, its SEQ, and a pre-emption that the supervisor asks for; what a stretch's cycles count, and the results that it finds suspect. The
model's choices here: which cycles hold a group's results (log 6), what a loss of power leaves (log 28), when a window of the memory clock begins (log 30),
deferred writes while the almanac is off (log 31), how long a droop lasts and a prolonged stretch (log 32), the first sample of a series (log 33), and that
an entry which the Q3 cannot read is not RUNNING (log 48). -/
def Obligations.PowerEvents : Prop := ∀ s : State, (s.cores.map Prod.fst).Nodup →
  let now := s.pkg.time
  let onlyClu (k : Nat) (x : Cluster) (t : State) : Prop := t = { s with clus := t.clus } ∧ ∀ j, t.clu j = if j = k then x else s.clu j
  let life (t : State) (w : Nat) : Nat := (smGet (0 : BitVec 64) t.sys.life w).toNat
  let counts (t : State) (w : Nat) (by_ : Nat → Nat) : Prop := life t w = min (life s w + by_ w) (2 ^ 64 - 1)
  (∀ k,
    let c := s.clu k
    let lower : Bool := decide (c.tgt / 3 < c.cur / 3)
    let ended : Prop := ∃ x, c.str = some x ∧ x.lead = 0 ∧ x.need ≤ x.len
    let due : Prop := s.powered (k / 4) = true ∧ c.chg = none ∧ c.cur ≠ c.tgt ∧ (c.tgt < c.cur ∨ (c.calm = none ∧ ¬ ended))
    (due → Gives (.levelChangeStart k) s (onlyClu k { c with
      cur := if lower = true then c.tgt else c.cur, chg := some { goal := c.tgt, ends := now + (if c.tgt / 3 = c.cur / 3 then 2000 else 20000), early := lower } })) ∧
    (¬ due → Gives (.levelChangeStart k) s (· = s)) ∧
    (∀ g, c.chg = some g → (g.ends ≤ now → Gives (.levelChangeComplete k) s (onlyClu k { c with cur := g.goal, chg := none })) ∧
      (now < g.ends → Gives (.levelChangeComplete k) s (· = s))) ∧
    (k < 12 → s.powered (k / 4) = true →
      let stretched (n lead : Nat) (t : State) : Prop := t = { s with clus := t.clus } ∧ (∀ j, j ≠ k → t.clu j = s.clu j) ∧
        (c.str = none → t.clu k = { c with str := some { lead := lead, len := 0, need := n } }) ∧
        (ended → t.clu k = { c with str := some { lead := lead, len := 0, need := n }, calm := some (now + 10000) }) ∧
        ∀ x, ¬ ended → c.str = some x → t.clu k = { c with str := some { x with need := min 4096 (max x.need (x.len + lead + n - x.lead)) } }
      (Gives (.droopDetect k) s fun t => ∃ n, 16 ≤ n ∧ n ≤ 4096 ∧ stretched n 2 t) ∧
      ∀ n, 16 ≤ n → n ≤ 4096 → Gives (.drooptstWrite k n) s (stretched n 4)) ∧
    (∀ x, c.str = some x →
      let ends : State → Prop := onlyClu k { c with str := none, calm := some (now + 10000) }
      (x.lead = 0 → x.need ≤ x.len → x.len < 4096 → Gives (.stretchEnd k) s ends) ∧ (4096 ≤ x.len → Gives (.stretchLimit k) s ends) ∧
      (x.lead ≠ 0 ∨ x.len < x.need → Gives (.stretchEnd k) s (· = s)) ∧ (x.len < 4096 → Gives (.stretchLimit k) s (· = s)) ∧
      ∀ n : Nat,
        let b := c.phase + n * levelClock c.cur
        let m := min (x.need - x.len) ((b - 10 * x.lead) / 20)
        let u := c.advance n
        (b / 10 < x.lead → u = ({ c with phase := b % 10, str := some { x with lead := x.lead - b / 10 } }, b / 10)) ∧
        (x.lead ≤ b / 10 → u.1 = { c with phase := u.1.phase, str := some { x with lead := 0, len := x.len + m }, strcyc := c.strcyc + BitVec.ofNat 64 m
                                          strev := if x.len = 0 ∧ 0 < m then c.strev + 1 else c.strev } ∧
          u.2 = x.lead + m + if x.len + m < x.need then 0 else (b - 10 * x.lead - 20 * m) / 10)) ∧
    (∀ j n t : Nat, smGet 0 (s.coreAfter j n t).cnt 9 = smGet 0 (s.core j).cnt 9 + BitVec.ofNat 64 (match s.beginsAt j t with
      | none => 0
      | some f => ((s.core j).made.map fun (m : Made) => (if m.slow = 0 then 0 else ((lanesOf m.mask).filter fun l =>
            decide (m.cyc + m.slow * l + 1 = f ∨ m.cyc + m.slow * l + 2 = f)).length) +
          if m.uni = true ∧ (m.cyc + 1 = f ∨ m.cyc + 2 = f) then 1 else 0).sum)) ∧
    (∀ e, c.calm = some e → (e ≤ now → Gives (.calmWindowEnd k) s fun t => t = { s with clus := t.clus } ∧ (t.clu k).calm = none ∧ (t.clu k).cur = c.cur ∧
      ∀ j, j ≠ k → t.clu j = s.clu j) ∧ (now < e → Gives (.calmWindowEnd k) s (· = s)))) ∧
  (let enforced : Prop := s.pkg.almSrc = true ∨ s.pkg.almLen ≠ 0
  let len : BitVec 64 := if s.pkg.almSrc = true then 0x4000000 else if s.pkg.almLen.toNat < 1000 then 1000 else s.pkg.almLen.setWidth 64
  let starts (p : Pkg) (at_ : BitVec 64) (carries : Bool) (t : State) : Prop :=
    t.pkg = { p with pstart := at_, periods := p.periods + 1, alm := p.almN, lvl := p.lvlN, pkgcap := p.pkgcapN.getD p.pkgcap, pkgcapN := none } ∧
    (∀ k, t.core k = { s.core k with used := [], pcyc := 0 }) ∧ t.mem = s.mem ∧ t.me = s.me ∧
    t.sys.mclkUsed = [] ∧ t.sys.mclkEnd = if carries = true ∧ s.sys.mclk = true ∧ s.sys.mclkEnd = none then some (now + 120000) else s.sys.mclkEnd
  (enforced → len ≤ now - s.pkg.pstart → Gives .periodStart s (starts s.pkg (s.pkg.pstart + len) (!s.pkg.almSrc))) ∧
  (¬ enforced ∨ now - s.pkg.pstart < len → Gives .periodStart s (· = s)) ∧
  (s.pkg.almSrc = true → Gives .frameTick s (starts s.pkg now true)) ∧
  (s.pkg.almSrc = false → Gives .frameTick s (· = s)) ∧
  ∀ v : BitVec 64,
    let p : Pkg := { s.pkg with almSrc := v.getLsbD 63, almLen := v.setWidth 32 }
    (p.almSrc = true ∨ p.almLen ≠ 0 → Gives (.almperWrite v) s (starts p now (!p.almSrc))) ∧
    (p.almSrc = false → p.almLen = 0 → Gives (.almperWrite v) s fun t => t.mem = s.mem ∧ t.me = s.me ∧
      t.pkg = { p with alm := p.almN, lvl := p.lvlN, pkgcap := p.pkgcapN.getD p.pkgcap, pkgcapN := none })) ∧
  (∀ k (tj : BitVec 30), s.powered k = true →
    let x := s.stk k
    let tier (i : Nat) : Nat := tj.toNat / 2 ^ (10 * i) % 1024
    let warn : Bool := x.warn || decide (840 < tier 0 ∨ 840 < tier 1 ∨ 840 < tier 2)
    let cool : Option (BitVec 64) := if tier 0 < 800 ∧ tier 1 < 800 ∧ tier 2 < 800 then some (x.cool.getD now) else none
    let senses (w : Bool) (t : State) : Prop := t = { s with stks := t.stks, clus := t.clus } ∧ ∀ j, t.stk j = if j = k then { x with tj := tj, warn := w, cool := cool } else s.stk j
    Gives (.thermalWarning k tj) s (senses warn) ∧ (x.warn = false → warn = true →
      ∀ e ∈ [Instr.thermalWarning k tj, .thermalWarningEnd k tj], Gives e s fun t => ∀ i, i < 4 → (t.clu (4 * k + i)).tgt ≤ 2) ∧
    Gives (.thermalWarningEnd k tj) s (senses (warn && !(match cool with | some e => decide (1000000 ≤ (now - e).toNat) | none => false)))) ∧
  (let dark (t : State) : Prop := (∀ k, t.powered k = false) ∧ t.mem = [] ∧ t.me = {} ∧ t.warps = [] ∧ t.gang = {} ∧ t.gangs = [] ∧ t.insts = [] ∧ t.ctxs = [] ∧ t.ops = [] ∧
    t.pkg.stage = .aon ∧ t.sys.mode = .one
  (∀ k tier, s.powered k = true → Gives (.thermalTrip k tier) s fun t => dark t ∧ t.pkg.time = now ∧ t.pkg.trip = true ∧
    t.pkg.trips.toNat = min (s.pkg.trips.toNat + 1) 255 ∧ t.pkg.tripStk = k ∧ t.pkg.tripTier = (match tier with | .base => 0 | .lower => 1 | .upper => 2) ∧
    t.pkg.thtime = now ∧ ∀ w, counts t w fun w => if w = 2 then 1 else 0) ∧
  Gives (.lossOfPower false) s (fun t => dark t ∧ t.pkg.time = now ∧ t.sys.life = s.sys.life) ∧
  Gives (.lossOfPower true) s (fun t => dark t ∧ t.pkg.time = BitVec.ofNat 64 ((now.toNat / 2 ^ 30 + 1) * 2 ^ 30) ∧ t.sys.life = s.sys.life) ∧
  Gives .timePersist s fun t => t = { s with pkg := { s.pkg with ptime := t.pkg.ptime } } ∧ t.pkg.ptime.toNat = now.toNat / 2 ^ 30 * 2 ^ 30) ∧
  (s.pkg.hour.toNat < 3600000000000 → Gives (.lifeRecordHour ()) s (· = s)) ∧
  (∀ hottest : Nat, let tier (k i : Nat) : Nat := (s.stk k).tj.toNat / 2 ^ (10 * i) % 1024
    3600000000000 ≤ s.pkg.hour.toNat → (∀ k i, k < 3 → s.powered k = true → i < 3 → tier k i ≤ hottest) →
    (∃ k i, k < 3 ∧ s.powered k = true ∧ i < 3 ∧ tier k i = hottest) → Gives (.lifeRecordHour ()) s fun t =>
      t.pkg = { s.pkg with hour := s.pkg.hour - 3600000000000 } ∧ t = { s with pkg := t.pkg, sys := { s.sys with life := t.sys.life } } ∧
      ∀ w, counts t w fun w => if w = 0 ∨ w = 8 + min 15 (hottest / 64) then 1 else 0) ∧
  (∀ v : BitVec 64, Gives (.tsctlWrite v) s fun t => t = { s with pkg := t.pkg } ∧
    t.pkg = { s.pkg with tsEn := v.getLsbD 63, tsLogn := v.toNat / 2 ^ 8 % 32, tsK := v.toNat % 32
                         tsSeq := if v.getLsbD 63 = true then 0 else s.pkg.tsSeq, tsLast := if v.getLsbD 63 = true then now else s.pkg.tsLast }) ∧
  (∀ v : BitVec 64, (s.prereqBad v = true → Gives (.prereqWrite v) s (· = s)) ∧
    (s.prereqBad v = true ↔ v.toNat / 2 ^ 44 % 2 ^ 19 ≠ 0 ∨ v.toNat / 2 ^ 26 % 2 ^ 6 ≠ 0 ∨ (s.ctx (v.toNat / 2 ^ 32 % 2 ^ 12)).st ≠ .bound ∨
      (∀ u k, s.q3Walk (v.toNat / 2 ^ 32 % 2 ^ 12) .read ((s.ctx (v.toNat / 2 ^ 32 % 2 ^ 12)).ttbase.toNat + 64 * (v.toNat / 2 ^ 16 % 2 ^ 10)) = (u, .ok k) →
        u.rd (k + 62) 2 % 4 ≠ 2) ∨
      v.getLsbD 63 = false ∧ s.prereqGangs v = []) ∧
    (∀ g, s.prereqBad v = false → s.prereqGangs v = [g] → exec (.prereqWrite v) s = exec (.preemptionRequest g .supervisor) s) ∧
    (s.prereqBad v = false → s.prereqGangs v = [s.me.gid] → s.gang.gid = s.me.gid → s.gang.st = .resident → (∀ x ∈ s.warps, x.gid ≠ s.me.gid) →
      s.me.exited = false → s.me.trc.on = false → s.me.w < 32 → s.me.pre.st = .run → (s.ctx s.gang.asid).tvbase = 0 ∨ (∃ q ∈ s.me.live, ∃ k, q.st = .stopped k) →
      Gives (.prereqWrite v) s fun t => t.warps = s.warps ∧ t.mem = s.mem ∧ t.gang = { s.gang with seq := { s.gang.seq with stop := true } } ∧
        t.me = { s.me with pre := { s.me.pre with st := .hard, reason := .supervisor, hard := now + 20000, hnd := false, byDone := false } })) ∧
  let p := s.pkg
  let tick := (p.tsLast.toNat / 2 ^ p.tsK + 1) * 2 ^ p.tsK
  let k := p.tsBase.toNat + 16384 * (p.tsSeq.toNat % 2 ^ p.tsLogn)
  let due : Prop := p.tsEn = true ∧ tick ≤ now.toNat
  (¬ due → Gives (.timeSeriesLatch false) s (· = s)) ∧
  (p.latch = none → Gives (.timeSeriesLatch true) s (· = s)) ∧
  (∀ l, due → p.latch = some l → Gives (.timeSeriesLatch false) s (· = { s with pkg := { p with tsLast := BitVec.ofNat 64 tick, tsdrop := true } })) ∧
  (due → p.latch = none → Gives (.timeSeriesLatch false) s fun u =>
    u = { s with pkg := { p with tsLast := BitVec.ofNat 64 tick, tsSeq := p.tsSeq + 1, latch := u.pkg.latch } } ∧
    (6 * 2 ^ 32 < k + 16384 → Gives (.timeSeriesLatch true) u fun v => v.mem = s.mem ∧ Gives (.timeSeriesLatch true) v fun t => t.mem = s.mem ∧ t.pkg.latch = none) ∧
    (k + 16384 ≤ 6 * 2 ^ 32 → Gives (.timeSeriesLatch true) u fun v =>
      v = { u with mem := v.mem, journal := v.journal, pkg := { u.pkg with latch := v.pkg.latch } } ∧
      v.rd64 k = BitVec.ofNat 64 tick ∧ (∀ j, j < 3 → (v.byte (k + 16)).getLsbD j = s.powered j) ∧
      (∀ c i, c < 96 → i < 11 → v.rd64 (k + 128 + 128 * c + 8 * i) =
        if s.powered (c / 32) = false then 0xFFFFFFFFFFFFFFFF
        else if i = 7 then (s.clu (clusterOf c)).strcyc else if i = 8 then (s.clu (clusterOf c)).strev else smGet 0 (s.core c).cnt i) ∧
      (∀ j, ¬ (k ≤ j ∧ j < k + 8) → ¬ (k + 16 ≤ j ∧ j < k + 16384) → v.byte j = s.byte j) ∧
      Gives (.timeSeriesLatch true) v fun t => t = { v with mem := t.mem, journal := t.journal, pkg := { v.pkg with latch := none } } ∧
        t.rd64 (k + 8) = p.tsSeq ∧ ∀ j, ¬ (k + 8 ≤ j ∧ j < k + 16) → t.byte j = v.byte j))

/-! ### The package (16_stack) -/

/-- Bring-up, the change of powered stacks, the memory clock and yoked contexts (16_stack R351, R357 to R360, R363): each stage, what a failure
locks, and what is powered; the result codes of mode.stacks, mclk.sw and yoke; and the end of growing and shrinking, with their tokens, and of the
switch, with what it is charged. How a failed growth ends and when a shrink's write-back is done (log 26), and that a switch is pending until its
window ends (log 30), are the model's choices. -/
def Obligations.PackageModes : Prop := ∀ s : State,
  let staged (st : Stage) (why : BitVec 64) (t : State) : Prop := t = { s with pkg := { s.pkg with stage := st, why := why } }
  let off (c : Nat) (t : State) : Prop := (t.core c).lw = 0 ∧ (t.core c).tlb = [] ∧ (t.core c).icache = [] ∧ (t.core c).active = (s.core c).active ∧
    (t.core c).spares = (s.core c).spares ∧ (t.core c).retired = (s.core c).retired
  (s.pkg.stage = .aon → Gives .powerUp s fun t => t.pkg = { s.pkg with stage := .verify } ∧
    (smGet (0 : BitVec 64) t.sys.life 1).toNat = min ((smGet (0 : BitVec 64) s.sys.life 1).toNat + 1) (2 ^ 64 - 1)) ∧
  (s.pkg.stage ≠ .aon → Gives .powerUp s (· = s)) ∧
  (s.pkg.stage = .verify → Gives (.firmwareVerify true) s (staged .train s.pkg.why) ∧ Gives (.firmwareVerify false) s (staged .locked 1)) ∧
  (s.pkg.stage = .train → Gives (.gddrTrain 0) s (staged .stack0 s.pkg.why) ∧
    ∀ c : BitVec 6, c ≠ 0 → Gives (.gddrTrain c) s (staged .locked (BitVec.ofNat 64 (2 + c.toNat * 2 ^ 8)))) ∧
  ((s.cores.map Prod.fst).Nodup → s.pkg.stage = .stack0 → ∀ (bad : BitVec 32) root, Gives (.stack0SelfTest bad root) s fun t =>
    t.pkg = { s.pkg with stage := .serve } ∧ t.ctx 0 = { st := .bound, priv := true, root := root } ∧ t.powered 0 = true ∧
    (∀ k, 0 < k → t.stk k = s.stk k) ∧ (∀ c, c < 32 → off c t ∧ (bad.getLsbD c = true → (t.core c).placeable = false)) ∧
    (∀ j, j < 2 ^ 24 → t.byte (commonsKey 0 j) = 0)) ∧
  (∀ d a,
    let x := (s.u a).toNat
    let answers (c : Word) : Prop := Gives (.modeStacks d a) s fun t => UniformResult s t (one d c)
    let steady : Prop := s.sys.mode = .one ∨ s.sys.mode = .three
    (x ≠ 1 ∧ x ≠ 3 → answers 2) ∧
    (x = 1 ∨ x = 3 →
      (¬ steady ∨ s.poweredList.length = x → answers 1) ∧
      (steady → s.poweredList.length ≠ x →
        ((s.stk 1).avail = false ∨ (s.stk 2).avail = false → answers 3) ∧
        ((s.stk 1).avail = true → (s.stk 2).avail = true →
          (x = 3 → Gives (.modeStacks d a) s fun t => ∃ s', UniformResult s' t (one d 0) ∧ s'.sys = { s.sys with mode := .growing } ∧
            s'.powered 1 = true ∧ s'.powered 2 = true ∧ s'.stk 0 = s.stk 0 ∧ s'.me = s.me ∧ ∀ j, j < 2 ^ 24 → s'.byte (commonsKey 1 j) = 0 ∧ s'.byte (commonsKey 2 j) = 0) ∧
          (x = 1 → (∀ g ∈ s.gang :: s.gangs, g.gid = 0 ∨ g.st ≠ .resident ∨ g.stk = 0) →
            Gives (.modeStacks d a) s fun t => UniformResult { s with sys := { s.sys with mode := .shrinking false } } t (one d 0)))))) ∧
  (s.sys.mode = .growing →
    (∀ (v : BitVec 3) (bad : BitVec 64), v.getLsbD 1 = true → v.getLsbD 2 = true → s.locks = [] → Gives (.satellitesInService ⟨v, bad⟩) s fun t =>
      ∃ s' : State, t = s'.sendToken 0x300000004 ∧ s' = { s with cores := s'.cores, sys := { s.sys with mode := .three } } ∧
        ∀ c, s'.core c = if 32 ≤ c ∧ c < 96 ∧ bad.getLsbD (c - 32) = true then { s.core c with placeable := false } else s.core c) ∧
    (∀ (v : BitVec 3) bad, v.getLsbD 1 = false ∨ v.getLsbD 2 = false → Gives (.satellitesInService ⟨v, bad⟩) s fun t => t.sys.mode = .one ∧ t.powered 1 = false ∧ t.powered 2 = false ∧
      (t.stk 1).avail = v.getLsbD 1 ∧ (t.stk 2).avail = v.getLsbD 2 ∧ t.sys.toks = s.sys.toks ∧ t.me = s.me)) ∧
  (s.sys.mode = .shrinking false →
    ((∀ c, c < 64 → s.coreGangs (32 + c) = []) → Gives .shrinkGangsSaved s fun t => t.sys.mode = .shrinking true ∧ t.mem = s.mem ∧ t.me = s.me) ∧
    ((∃ c, c < 64 ∧ s.coreGangs (32 + c) ≠ []) → Gives .shrinkGangsSaved s (· = s))) ∧
  (s.sys.mode = .shrinking true →
    ((∀ a ∈ s.accs, a.key < commonsKey 1 0 ∨ commonsKey 3 0 ≤ a.key) → Gives .shrinkWritebackDone s fun t => ∃ s',
      t = s'.sendToken 0x100000004 ∧ s'.pkg = s.pkg ∧ s'.sys = { s.sys with mode := .one, life := s'.sys.life } ∧ s'.powered 1 = false ∧ s'.powered 2 = false ∧
      s'.stk 0 = s.stk 0 ∧ s'.me = s.me ∧ ((s.cores.map Prod.fst).Nodup → ∀ k c, k < 3 → c < 32 → k ≠ 0 → off (32 * k + c) s') ∧
      (∀ j, j < 2 ^ 24 → s'.byte (commonsKey 0 j) = s.byte (commonsKey 0 j) ∧ s'.byte (commonsKey 1 j) = 0 ∧ s'.byte (commonsKey 2 j) = 0) ∧
      ∀ j, j < gddrTop → s'.byte j = s.byte j) ∧
    ((∃ a ∈ s.accs, commonsKey 1 0 ≤ a.key ∧ a.key < commonsKey 3 0) → Gives .shrinkWritebackDone s (· = s))) ∧
  (∀ d a,
    let x := s.u a
    let budget : Prop := ∃ e, e < 32 ∧ (smGet (0 : BitVec 64) s.pkg.alm e).toNat % 16 = 3 ∧ 1 ≤ (smGet (0 : BitVec 64) s.pkg.alm e).toNat / 2 ^ 55
    let answers (c : Word) : Prop := Gives (.mclkSw d a) s fun t => UniformResult s t (one d c)
    let here : Prop := s.sys.mclk = true ∨ s.sys.rate = decide (x = 1)
    (2 ≤ x.toNat → answers 2) ∧ (x.toNat < 2 → here → answers 1) ∧
    (x.toNat < 2 → ¬ here → ¬ budget ∨ s.enforced = false → answers 3) ∧
    (x.toNat < 2 → ¬ here → budget → s.enforced = true → Gives (.mclkSw d a) s fun t => UniformResult { s with sys := { s.sys with mclk := true } } t (one d 0))) ∧
  (∀ e, s.sys.mclkEnd = some e →
    let kind3 (k : Nat) : Prop := k < 32 ∧ (smGet (0 : BitVec 64) s.pkg.alm k).toNat % 16 = 3 ∧ 1 ≤ (smGet (0 : BitVec 64) s.pkg.alm k).toNat / 2 ^ 55
    let ticks : Nat := if s.pkg.time < e then 120000 - (e - s.pkg.time).toNat else 120000
    Gives .mclkWindowEnd s fun t => t = { s with sys := { s.sys with mclk := false, mclkEnd := none, rate := !s.sys.rate, mclkUsed := t.sys.mclkUsed } } ∧
      ((∀ k, ¬ kind3 k) → t.sys.mclkUsed = s.sys.mclkUsed) ∧
      ∀ k, kind3 k → (∀ j, kind3 j → k ≤ j) → ∀ j, smGet 0 t.sys.mclkUsed j = smGet 0 s.sys.mclkUsed j + if j = k then ticks * 7 / 5 else 0) ∧
  (s.sys.mclkEnd = none → Gives .mclkWindowEnd s (· = s)) ∧
  ∀ d a,
    let x := s.u a
    let asid := x.toNat % 2 ^ 12
    let busy : Prop := (∃ i ∈ s.insts, i.asid = asid ∧ i.ended = false) ∨ ∃ g ∈ s.gang :: s.gangs, g.gid ≠ 0 ∧ g.asid = asid ∧ (g.st = .resident ∨ g.st = .saved)
    let answers (c : Word) : Prop := Gives (.yoke d a) s fun t => UniformResult s t (one d c)
    (2 ^ 13 ≤ x.toNat → answers 2) ∧
    (x.toNat < 2 ^ 13 → (s.ctx asid).st ≠ .bound → answers 1) ∧
    (x.toNat < 2 ^ 13 → (s.ctx asid).st = .bound → busy → answers 3) ∧
    (x.toNat < 2 ^ 13 → (s.ctx asid).st = .bound → ¬ busy → Gives (.yoke d a) s fun t => ∃ s', s' = { s with ctxs := s'.ctxs } ∧ UniformResult s' t (one d 0) ∧
      ∀ k, s'.ctx k = if k = asid then { s.ctx asid with yoked := x.getLsbD 12 } else s.ctx k)

/-- Repair, status and attestation (16_stack R351 to R356, R361, R364): a miscompare that agrees on recomputation counts, one that does not ends the context and
marks the pair suspect; a retired track takes a spare or is lost, and the gangs of its warps are pre-empted with reason 4; a bundle's receiver, in each
direction, holds on a bad beat until the stitch map is updated for the wire that the check blamed, and takes each number once, in order, with the data it
was first sent with, and the sender sends every beat from the one asked for again before a new one; a failed wire gets the first good spare, a spare that
fails in turn another one; routers and paths close, switch once no packet is in them, when packets on the way get new routes under their numbers, and
retire, with a spare in place of a router, and a token; rep.stat reads the items; a request is answered with the identity, the life record and the
signature. The model's choices here: the functions of the signature (log 5), the ITEM in a retirement's token and which route a packet takes (log 26), how
rep.stat and WIRES count the two directions of a bundle and its spares (log 27), which warp a miscompare is charged to (log 29), and the byte order of the
identity and of the attestation's fields (log 34). -/
def Obligations.RepairAndStatus : Prop := ∀ s : State,
  let life (t : State) (w n : Nat) : Prop := ∀ k, (smGet (0 : BitVec 64) t.sys.life k).toNat = min ((smGet (0 : BitVec 64) s.sys.life k).toNat + if k = w then n else 0) (2 ^ 64 - 1)
  let onlyCores (f : Nat → Core) (t : State) : Prop := t = { s with cores := t.cores } ∧ ∀ c, t.core c = f c
  let onlyStk (k : Nat) (x : Stk) (t : State) : Prop := t = { s with stks := t.stks } ∧ ∀ j, t.stk j = if j = k then x else s.stk j
  (∀ (stk k : Nat) (x : Warp), s.yokedWarp (32 * stk + k % 16) = some x →
    (Gives (.yokedMiscompare stk k true) s fun t => t = { s with sys := { s.sys with life := t.sys.life } } ∧ life t 3 1) ∧
    (x = s.me → s.me.gid ≠ 0 → s.gang.gid = s.me.gid → s.me.cur.mask ≠ 0 → Gives (.yokedMiscompare stk k false) s fun t =>
      (t.core (32 * stk + k % 16)).suspect = true ∧ (t.core (32 * stk + k % 16 + 16)).suspect = true ∧ t.mem = s.mem ∧
      ∃ e, (t.ctx s.gang.asid).ending = some e ∧ ((s.ctx s.gang.asid).ending = none → e.cls = 1 ∧ e.code = 0x1001 ∧ e.info = 0))) ∧
  (∀ stk k : Nat,
    let c := 32 * stk + k % 16
    Gives (.suspectPairSelfTest stk k) s (onlyCores fun j => if j = c ∨ j = c + 16 then { s.core j with suspect := false } else s.core j)) ∧
  (∀ c n : Nat,
    let x := s.core c
    let x' : Core := if 0 < x.spares then { x with spares := x.spares - 1 } else { x with retired := x.retired ++ [n], active := x.active - 1 }
    (s.powered (c / 32) = false ∨ 64 ≤ n ∨ n ∈ x.retired → Gives (.trackRetire c n) s (· = s)) ∧
    (s.powered (c / 32) = true → n < 64 → n ∉ x.retired → (∀ w ∈ s.coreWarps c, w.track ≠ n) → Gives (.trackRetire c n) s fun t =>
      t = { s with cores := t.cores, sys := { s.sys with life := t.sys.life } } ∧ life t 5 1 ∧
      ∀ j, t.core j = if j = c then x' else s.core j) ∧
    (∀ g, s.powered (c / 32) = true → n < 64 → n ∉ x.retired → (∃ w ∈ s.coreWarps c, w.track = n) → (∀ w ∈ s.coreWarps c, w.track = n → w.gid = g) →
      Gives (.trackRetire c n) s fun t => ∃ s', exec (.preemptionRequest g .repair) s' = .next t ∧
        s' = { s with cores := s'.cores, sys := { s.sys with life := s'.sys.life } } ∧ life s' 5 1 ∧ ∀ j, s'.core j = if j = c then x' else s.core j)) ∧
  (∀ (c : Nat) (dn : Bool), s.powered (c / 32) = true →
    let b : Bundle := if dn = true then (s.core c).bundleDn else (s.core c).bundle
    let with_ (b' : Bundle) : Core := if dn = true then { s.core c with bundleDn := b' } else { s.core c with bundle := b' }
    (∀ (n : BitVec 8) (v : BitVec 64) (w : BitVec 7),
      let becomes (good : Bool) (b' : Bundle) : Prop := Gives (.beatReceive c ⟨dn, n, v⟩ good w) s (onlyCores fun j => if j = c then with_ b' else s.core j)
      let out : List (BitVec 64) := if (n - b.expect).toNat = b.out.length ∧ b.out.length < 64 ∧ b.again = 0 then b.out ++ [v] else b.out
      let stays : Bundle := { b with out := out }
      let taken : Bundle := { b with hold := false, ask := none, fixed := false, again := b.again - 1, expect := b.expect + 1, out := out.tail, got := b.got + 1, last := out.headD b.last }
      let holds : Bundle := { stays with hold := true, ask := some b.expect, blame := w.toNat % 84, fixed := false }
      (b.hold = false → becomes false holds) ∧
      (b.hold = false → n = b.expect → becomes true taken) ∧
      (b.hold = false → n ≠ b.expect → becomes true stays) ∧
      (b.hold = true → n = b.expect → b.fixed = true → becomes true taken ∧ becomes false holds) ∧
      (b.hold = true → n ≠ b.expect ∨ b.fixed = false → ∀ good, becomes good stays)) ∧
    (∀ w : BitVec 7, b.hold = false ∨ b.fixed = true ∨ b.blame ≠ w.toNat → Gives (.stitchMapUpdate c ⟨dn, w⟩) s (· = s)) ∧
    ((b.map.map Prod.fst).Nodup → (b.map.map Prod.snd).Nodup → (∀ m ∈ b.map, m.1 < 80 ∧ 80 ≤ m.2 ∧ m.2 < 84) → b.hold = true → b.fixed = false →
      ∀ (w : BitVec 7) (bad : Nat), w.toNat < 84 → b.blame = w.toNat → (bad = w.toNat ∧ ∀ m ∈ b.map, m.1 ≠ w.toNat) ∨ (w.toNat, bad) ∈ b.map →
      let failed : List Nat := if bad ∈ b.failed then b.failed else b.failed ++ [bad]
      let rest := b.map.filter fun m => decide (m.2 ≠ bad)
      let free (p : Nat) : Prop := 80 ≤ p ∧ p < 84 ∧ p ∉ failed ∧ ∀ m ∈ rest, m.2 ≠ p
      let served (o : Nat) : Prop := (bad < 80 ∧ o = bad) ∨ (o, bad) ∈ b.map
      let becomes (map : List (Nat × Nat)) (n : Nat) : Prop := Gives (.stitchMapUpdate c ⟨dn, w⟩) s fun t =>
        t = { s with cores := t.cores, sys := { s.sys with life := t.sys.life } } ∧ life t 6 n ∧
        let lost : Nat := (failed.filter fun x => decide (x < 64 ∧ ∀ m ∈ map, m.1 ≠ x)).length
        ∀ j, t.core j = if j = c then
          { with_ { b with failed := failed, map := map, fixed := true, again := b.out.length, resent := b.resent + 1 } with placeable := (s.core c).placeable && decide (lost ≤ 32) } else s.core j
      (∀ o p, served o → free p → (∀ q, free q → p ≤ q) → becomes (rest ++ [(o, p)]) 1) ∧
      ((∀ o, ¬ served o) ∨ (∀ p, ¬ free p) → becomes rest 0))) ∧
  (∀ k i, s.powered k = true → i < 10 →
    let x := s.stk k
    let r : NetItem := .router k i
    (x.router i = .active → Gives (.retirementBegin r) s (onlyStk k (x.setRouter i .closing))) ∧
    (x.router i ≠ .active → Gives (.retirementBegin r) s (· = s)) ∧
    (x.router i = .closing → (∀ a ∈ s.accs, r ∉ a.via) →
      ((∀ j, j < 10 → x.router j ≠ .spare) → Gives (.routerDrained r) s (onlyStk k (x.setRouter i .switching))) ∧
      ∀ j, j < 10 → x.router j = .spare → (∀ m, m < j → x.router m ≠ .spare) → Gives (.routerDrained r) s (onlyStk k ((x.setRouter i .switching).setRouter j .active))) ∧
    (x.router i = .switching → Gives (.routingAcknowledged r) s fun t => ∃ s', t = s'.sendToken 0x400000005 ∧ life s' 7 1 ∧
      s' = { s with stks := s'.stks, sys := { s.sys with life := s'.sys.life } } ∧ ∀ j, s'.stk j = if j = k then x.setRouter i .retired else s.stk j)) ∧
  (∀ k i, s.powered k = true → s.powered ((k + 1) % 3) = true → i < 4 →
    let x := s.stk k
    let r : NetItem := .path k i
    let other : Prop := ∃ j, j < 4 ∧ j ≠ i ∧ x.path j = .active
    (x.path i = .active → other → Gives (.retirementBegin r) s (onlyStk k (x.setPath i .closing))) ∧
    (x.path i = .active → ¬ other → Gives (.retirementBegin r) s (· = s)) ∧
    (x.path i = .closing → (∀ a ∈ s.accs, r ∉ a.via) → Gives (.routerDrained r) s (onlyStk k (x.setPath i .switching))) ∧
    (x.path i = .switching → Gives (.routingAcknowledged r) s fun t => ∃ s', t = s'.sendToken 0x500000005 ∧ life s' 7 1 ∧
      s' = { s with stks := s'.stks, sys := { s.sys with life := s'.sys.life } } ∧ ∀ j, s'.stk j = if j = k then x.setPath i .retired else s.stk j)) ∧
  (∀ r : NetItem, s.netSt r = some .closing →
    ((∃ a ∈ s.accs, a.st ≠ .waiting ∧ r ∈ a.via) → Gives (.routerDrained r) s (· = s)) ∧
    ((∀ a ∈ s.accs, a.st ≠ .waiting → r ∉ a.via) → Gives (.routerDrained r) s fun t =>
      t = { s with accs := t.accs, stks := t.stks } ∧ (t.accs.map fun a => { a with via := [] }) = (s.accs.map fun a => { a with via := [] }) ∧
      (∀ a ∈ s.accs, r ∉ a.via → a ∈ t.accs) ∧ ∀ a ∈ t.accs, a.remote ≠ none → s.gangOf? a.gid ≠ none → r ∉ a.via)) ∧
  (∀ d a,
    let x := (s.u a).toNat
    let idx := x / 2 ^ 8 % 2 ^ 8
    let k := x / 2 ^ 16 % 8
    let c := s.core (32 * k + idx)
    let reads (v : BitVec 64) : Prop := Gives (.repStat d a) s fun t => UniformResult s t (pair d v)
    let ones : BitVec 64 := 0xFFFFFFFFFFFFFFFF
    let netCode : NetSt → BitVec 64
      | .active => 0 | .spare => 1 | .closing => 2 | .switching => 2 | .retired => 3
    (2 ^ 19 ≤ x ∨ 6 < x % 2 ^ 8 ∨ (2 ≤ x % 2 ^ 8 ∧ x % 2 ^ 8 ≤ 5 ∧ s.powered k = false) → reads ones) ∧
    (x < 2 ^ 19 →
      (x % 2 ^ 8 = 6 → reads (smGet 0 s.sys.life idx)) ∧
      (x % 2 ^ 8 = 1 → reads (if idx = 0 then 0x5A330000 + (if Config.isB1 = true then 0xB1 else 0xB0)
        else if idx ≤ 6 then (Config.identity >>> (64 * (idx - 1))).setWidth 64 else ones)) ∧
      (x % 2 ^ 8 = 2 → s.powered k = true → reads (if 32 ≤ idx then ones else BitVec.ofNat 64 ((if c.mayPlace = true then 1 else 0) + c.active * 2 + c.spares * 2 ^ 8 +
        if c.suspect = true then 2 ^ 10 else 0))) ∧
      (x % 2 ^ 8 = 3 → s.powered k = true → reads (if 32 ≤ idx then ones else BitVec.ofNat 64 (max c.bundle.map.length c.bundleDn.map.length +
        (if 4 < c.bundle.failed.length ∨ 4 < c.bundleDn.failed.length then 8 else 0) + (c.bundle.resent + c.bundleDn.resent).toNat * 2 ^ 8))) ∧
      (x % 2 ^ 8 = 4 → s.powered k = true → reads (if 10 ≤ idx then ones else netCode ((s.stk k).router idx))) ∧
      (x % 2 ^ 8 = 5 → s.powered k = true → reads (if 4 ≤ idx then ones else netCode ((s.stk k).path idx))) ∧
      (x % 2 ^ 8 = 0 → idx = 0 → ∃ v, reads v ∧ v.toNat % 4 = s.poweredList.length ∧
        v.toNat / 4 % 4 = (match s.sys.mode with | .one => 0 | .three => 0 | .growing => 1 | .shrinking _ => 2) ∧
        v.getLsbD 4 = s.sys.rate ∧ v.getLsbD 5 = s.sys.mclk ∧ ∀ i, i < 3 → v.getLsbD (8 + i) = (s.stk i).avail))) ∧
  (s.pkg.stage = .serve → ∀ nonce, Gives (.attestationRequest nonce) s fun t =>
    let words := (List.range 8).map fun i => smGet (0 : BitVec 64) s.sys.life i
    let step : BitVec 8 := if Config.isB1 = true then 0xB1 else 0xB0
    let key := Config.sha384 (Config.publicOf Config.privateKey)
    let fields := leBytes 48 key.toNat ++ [step] ++ leBytes 48 Config.firmwareDigest.toNat ++ words.flatMap (fun v => leBytes 8 v.toNat) ++ leBytes 48 nonce.toNat
    t = { s with sys := { s.sys with replies := s.sys.replies ++
      [.attest key step Config.firmwareDigest words nonce (Config.ecdsa Config.privateKey (Config.sha384 fields))] } }) ∧
  (s.pkg.stage ≠ .serve → ∀ nonce, Gives (.attestationRequest nonce) s (· = s))

/-! ### Watch predicates, halts and inspection (17_debug) -/

/-- Watch predicates, halts, steps and inspection (17_debug R365, R368, R371 to R376): the status of each instruction; a predicate is written whole, on both
cores of a yoked pair; a halted lane, path, warp or gang is STOPPED with its kept state, its halt record and the halt's token; it goes on where it stood; a
step of a path, or of one lane of it, begins and completes; items read and written; the debug port's answers, and the instructions that it issues. The warp
named is any resident one that is not the issuer's own business: the issuer's warp and every other one are as before, but for sD. What a predicate matches,
and what one match does (R366, R369): a count, and for ACT 2 the halt of the warp with its record. A halt of a lane or path that is HELD, which waits, what
the record of a warp's halt names, a step of a JOIN path and the port's status 0 outside LOCKED are the model's choices (log 35). -/
def Obligations.WatchHaltInspect : Prop := ∀ s : State,
  let stk (v : Word) : Nat := v.toNat / 2 ^ 13 % 8
  let coreOf (v : Word) : Nat := 32 * stk v + v.toNat / 2 ^ 8 % 32
  let slot (v : Word) : Nat := v.toNat % 2 ^ 7
  let lane (v : Word) : Nat := v.toNat / 2 ^ 21 % 32
  let pid (v : Word) : Nat := v.toNat / 2 ^ 16 % 32 + if v.getLsbD 7 = true then 32 else 0
  let scope (v : Word) : Nat := v.toNat / 2 ^ 26 % 4
  let fits (v : Word) : Prop := v.toNat < 2 ^ 28 ∧ s.powered (stk v) = true
  let stopped (st : PState) : Prop := ∃ j, st = .stopped j
  let stop : PState → PState
    | .ready => .stopped none
    | .join a b => .stopped (some (a, b))
    | st => st
  let start : PState → PState
    | .stopped none => .ready
    | .stopped (some (a, b)) => .join a b
    | st => st
  let names (v : Word) (x : Warp) : Prop := fits v ∧ x ∈ s.coreWarps (coreOf v) ∧ x.slot = slot v ∧ x.pre.st ≠ .saved ∧ ∀ y ∈ s.coreWarps (coreOf v), y.slot = slot v → y = x
  let nameless (v : Word) : Prop := ¬ fits v ∨ ∀ x ∈ s.coreWarps (coreOf v), x.slot ≠ slot v ∨ x.pre.st = .saved
  let answers (i : Instr) (d : BitVec 6) (c : Word) : Prop := Gives i s fun t => UniformResult s t (one d c)
  let stopPath (p : Path) : Path := { p with st := stop p.st, step := if p.step = 1 ∧ p.st = .ready then 0 else p.step }
  let rec_ (p : Path) (l : Nat) : HaltRec := { cause := 2, lane := l, path := p.id, time := s.now, pc := p.pc, wpos := p.wpos }
  let lowest (m : Word) (l : Nat) : Prop := m.getLsbD l = true ∧ ∀ k, k < l → m.getLsbD k = false
  -- the warp x becomes one of which P holds; every other warp, and all gangs, are as before
  let alone (x : Warp) (P : Warp → Prop) (u : State) : Prop := (∃ y, u.warpOf? x.gid x.w = some y ∧ P y) ∧ (∀ g w, (g ≠ x.gid ∨ w ≠ x.w) → u.warpOf? g w = s.warpOf? g w) ∧ (∀ g, u.gangOf? g = s.gangOf? g) ∧
    u.me.gid = s.me.gid ∧ u.me.w = s.me.w ∧ u.gang = s.gang ∧ u.cores = s.cores ∧ u.accs = s.accs ∧ u.ops = s.ops
  let turns (i : Instr) (d : BitVec 6) (x : Warp) (P : Warp → Prop) : Prop := Gives i s fun t => ∃ u : State, UniformResult u t (one d 0) ∧ alone x P u
  -- the same, and the halt's token is sent
  let token (x : Warp) : BitVec 64 := match s.gangOf? x.gid with
    | some g => BitVec.ofNat 64 (g.stk * 2 ^ 45 + g.core * 2 ^ 40 + x.slot * 2 ^ 32 + g.asid * 2 ^ 16 + 2 * 2 ^ 8 + 6)
    | none => 0
  let halts (i : Instr) (d : BitVec 6) (x : Warp) (P : Warp → Prop) : Prop := Gives i s fun t => ∃ u : State, UniformResult (u.sendToken (token x)) t (one d 0) ∧ alone x P u ∧
    u.mem = s.mem ∧ u.sys = s.sys ∧ u.pkg = s.pkg
  let setsWp (i : Instr) (d : BitVec 6) (c n : Nat) (w : Wp) : Prop := Gives i s fun t => ∃ u : State, UniformResult u t (one d 0) ∧ u = { s with cores := u.cores } ∧
    let low := 32 * (c / 32) + c % 16
    let pair : Prop := ∃ g ∈ s.gang :: s.gangs, g.gid ≠ 0 ∧ g.st = .resident ∧ g.yoked = true ∧ 32 * g.stk + g.core = low
    ∀ k, u.core k = { s.core k with wps := (u.core k).wps } ∧ ∀ j, smGet ({} : Wp) (u.core k).wps j =
      if j = n ∧ (k = c ∨ (pair ∧ (k = low ∨ k = low + 16))) then w else smGet {} (s.core k).wps j
  (∀ d a (n : BitVec 3),
    let v := s.u a
    let ctl := s.un (a.toNat + 1)
    let lo := s.uuAt a 2
    let hi := s.uuAt a 4
    let vm := s.un (a.toNat + 6)
    let filt := s.un (a.toNat + 7)
    let kind := ctl.toNat % 8
    let acc := ctl.toNat / 8 % 8
    let good : Prop := ctl.toNat < 2 ^ 11 ∧ ctl.getLsbD 7 = false ∧ filt.toNat < 2 ^ 13 ∧ kind ≤ 2 ∧ (kind = 0 → acc ≠ 0) ∧ (kind ≠ 0 → acc = 0) ∧ lo.toNat ≤ hi.toNat ∧
      (kind = 1 → lo.toNat < 2 ^ 32 ∧ hi.toNat < 2 ^ 32) ∧ (kind = 2 → lo = 0 ∧ hi = 0 ∧ vm.toNat < 2 ^ 6)
    (¬ fits v → answers (.wpSet d a n) d 1 ∧ answers (.wpClr d a n) d 1) ∧
    (fits v → setsWp (.wpClr d a n) d (coreOf v) n.toNat {} ∧ (¬ good → answers (.wpSet d a n) d 3) ∧
      (good → setsWp (.wpSet d a n) d (coreOf v) n.toNat
        { kind := kind, acc := BitVec.ofNat 3 acc, neg := ctl.getLsbD 6, en := true, act := ctl.toNat / 2 ^ 8 % 4, trc := ctl.getLsbD 10
          asid := BitVec.ofNat 12 filt.toNat, any := filt.getLsbD 12, lo := lo, hi := hi, vmask := vm, hits := 0, since := s.sys.seq + 1 }))) ∧
  (∀ d a, nameless (s.u a) →
    answers (.dbgHalt d a) d 1 ∧ answers (.dbgRes d a) d 1 ∧ answers (.dbgStep d a) d 1 ∧
    Gives (.dbgPaths d a) s fun t => UniformResult s t fun n => if d.toNat ≤ n ∧ n < d.toNat + 4 then some 0xFFFFFFFF else none) ∧
  (∀ d a x p, names (s.u a) x → p ∈ x.live → p.id = pid (s.u a) → (∀ q ∈ x.live, q.id = p.id → q = p) →
    let v := s.u a
    let mode := s.un (a.toNat + 1)
    (scope v = 0 → answers (.dbgRes d a) d (if p.mask.getLsbD (lane v) = true then 3 else 1)) ∧
    (scope v = 1 → ¬ stopped p.st → answers (.dbgRes d a) d 2) ∧
    (scope v = 1 → stopped p.st → answers (.dbgHalt d a) d 0) ∧
    ((mode.toNat % 2 = 0 ∨ p.mask.getLsbD (lane v) = true) →
      (2 ≤ mode.toNat → answers (.dbgStep d a) d 3) ∧
      (mode.toNat < 2 → stop p.st = p.st → ¬ stopped p.st → answers (.dbgStep d a) d 5) ∧
      (mode.toNat < 2 → stop p.st ≠ p.st → answers (.dbgStep d a) d 2)) ∧
    (Gives (.dbgPaths d a) s fun t => UniformResult s t fun n => if d.toNat ≤ n ∧ n < d.toNat + 4 then
      some ((BitVec.ofNat 128 (p.mask.toNat * 2 ^ 96 + p.pc.toNat * 2 ^ 48 + p.wpos * 2 ^ 46 +
        (match p.st with | .ready => 1 | .join _ _ => 2 | .held _ => 3 | .parked _ => 4 | .stopped _ => 5) * 2 ^ 43 +
        if p.id ∈ x.overflow then 2 ^ 42 else 0)).extractLsb' (32 * (n - d.toNat)) 32) else none) ∧
    (s.me.gid ≠ 0 → s.gang.gid = s.me.gid → (s.allWarps.map fun y => (y.gid, y.w)).Nodup → x.trc.on = false →
      (scope v = 1 → stop p.st ≠ p.st → ∀ l, lowest p.mask l → halts (.dbgHalt d a) d x fun y =>
        y = { x with cur := y.cur, paths := y.paths, halt := rec_ p l } ∧ y.path? p.id = some (stopPath p) ∧ ∀ i, i ≠ p.id → y.path? i = x.path? i) ∧
      (scope v = 1 → stop p.st = p.st → ¬ stopped p.st → ∀ l, lowest p.mask l → turns (.dbgHalt d a) d x fun y =>
        y = { x with stops := x.stops ++ [(32 + p.id, rec_ p l)] }) ∧
      (scope v = 3 → ∀ l g, lowest x.cur.mask l → s.gangOf? x.gid = some g → Gives (.dbgHalt d a) s fun t => ∃ u : State, UniformResult u t (one d 0) ∧
        (∃ k, u.gangOf? x.gid = some k ∧ k = { g with halted := true, seq := { g.seq with halted := g.mx } }) ∧
        ∀ y ∈ s.allWarps, y.gid = x.gid → y.exited = false → y.w < 32 → ∃ z, u.warpOf? y.gid y.w = some z ∧
          z = { y with cur := z.cur, paths := z.paths, halted := true, halt := { rec_ x.cur l with cause := if y.w = x.w then 2 else 4 } } ∧
          ∀ i, z.path? i = (y.path? i).map stopPath) ∧
      (scope v = 2 → ∀ l, lowest x.cur.mask l → halts (.dbgHalt d a) d x fun y =>
        y = { x with cur := y.cur, paths := y.paths, halt := rec_ x.cur l, halted := true } ∧ ∀ i, y.path? i = (x.path? i).map stopPath) ∧
      (scope v = 0 → p.st = .ready → p.mask.getLsbD (lane v) = true → p.mask ≠ laneBit (lane v) → (∃ i, (i < 32 ↔ p.id < 32) ∧ i < 64 ∧ x.path? i = none) → p.id < 64 →
        (∀ q ∈ x.live, q.mask.getLsbD (lane v) = true → (q.id < 32 ↔ p.id < 32) → q = p) → halts (.dbgHalt d a) d x fun y =>
          y = { x with cur := y.cur, paths := y.paths, overflow := y.overflow, halt := y.halt } ∧
          (y.path? p.id = some { p with mask := p.mask &&& ~~~laneBit (lane v), replay := p.replay.map (· &&& ~~~laneBit (lane v)) }) ∧
          ∃ i q, x.path? i = none ∧ y.path? i = some q ∧ q.mask = laneBit (lane v) ∧ q.st = .stopped none ∧ q.pc = p.pc ∧ q.wpos = p.wpos ∧ (i < 32 ↔ p.id < 32) ∧
            y.halt = { rec_ p (lane v) with path := i } ∧ ∀ j, j ≠ i → j ≠ p.id → y.path? j = x.path? j) ∧
      (scope v = 0 → p.mask.getLsbD (lane v) = true → stop p.st = p.st → ¬ stopped p.st →
        (∀ q ∈ x.live, q.mask.getLsbD (lane v) = true → (q.id < 32 ↔ p.id < 32) → q = p) → turns (.dbgHalt d a) d x fun y =>
          y = { x with stops := x.stops ++ [(lane v, rec_ p (lane v))] }) ∧
      (scope v = 1 → p.st = .stopped none → x.pre.st = .run → x.exited = false →
        (∀ q ∈ x.live, q.st ≠ .held .trapBusy ∧ q.kept = none ∧ (∀ m w, q.st ≠ .join m w) ∧ ∀ k, q.st = .parked k → k.action = none) → turns (.dbgRes d a) d x fun y =>
          y = { x with cur := y.cur, paths := y.paths, halted := y.halted } ∧ y.path? p.id = some { p with st := .ready } ∧ (∀ i, i ≠ p.id → y.path? i = x.path? i) ∧
          (y.halted = true ↔ x.halted = true ∧ ∃ q ∈ y.live, stopped q.st)) ∧
      (mode = 1 → stopped p.st → p.mask.getLsbD (lane v) = true → p.mask ≠ laneBit (lane v) → p.id < 64 →
        ∀ i, (i < 32 ↔ p.id < 32) → i < 64 → x.path? i = none → (∀ j, j < i → (j < 32 ↔ p.id < 32) → x.path? j ≠ none) → turns (.dbgStep d a) d x fun y =>
          y = { x with cur := y.cur, paths := y.paths, overflow := y.overflow } ∧
          y.path? p.id = some { p with mask := p.mask &&& ~~~laneBit (lane v), replay := p.replay.map (· &&& ~~~laneBit (lane v)) } ∧
          (∃ q, y.path? i = some q ∧ q.mask = laneBit (lane v) ∧ q.st = start p.st ∧ q.step = (if p.st = .stopped none then 1 else 2) ∧ q.pc = p.pc ∧
            q.wpos = p.wpos ∧ q.spc = p.pc ∧ q.swpos = p.wpos) ∧ ∀ j, j ≠ i → j ≠ p.id → y.path? j = x.path? j) ∧
      (mode = 0 ∨ (mode = 1 ∧ p.mask = laneBit (lane v)) → stopped p.st → turns (.dbgStep d a) d x fun y =>
        y = { x with cur := y.cur, paths := y.paths, halted := y.halted } ∧ (∀ i, i ≠ p.id → y.path? i = x.path? i) ∧
        (y.halted = true ↔ x.halted = true ∧ ∃ q ∈ y.live, stopped q.st) ∧
        y.path? p.id = some { p with st := start p.st, step := if p.st = .stopped none then 1 else 2, spc := p.pc, swpos := p.wpos }))) ∧
  (∀ p ∈ s.me.live, s.me.gid ≠ 0 → s.gang.gid = s.me.gid → (∀ q ∈ s.me.live, q.id = p.id → q = p) →
    let done : Prop := ((p.step = 2 ∧ p.replay = none ∧ stop p.st ≠ p.st) ∨ (p.step ≠ 0 ∧ stopped p.st)) ∧
      (∀ a ∈ s.accs, ¬ (a.gid = s.me.gid ∧ a.w = s.me.w ∧ a.dreg ≠ none ∧ (a.path = p.id ∨ p.id ∈ a.heirs) ∧ a.pc = p.spc ∧ a.wpos = p.swpos)) ∧
      ∀ o ∈ s.ops, ¬ (o.gid = s.me.gid ∧ o.w = s.me.w ∧ o.dregs ≠ [] ∧ (o.path = p.id ∨ o.dmask &&& p.mask ≠ 0) ∧ o.pc = p.spc ∧ o.wpos = p.swpos)
    (¬ done → Gives (.stepComplete s.me.gid s.me.w p.id) s (· = s)) ∧
    (done → ∀ l, lowest p.mask l → Gives (.stepComplete s.me.gid s.me.w p.id) s fun t =>
      t.me = { s.me with cur := t.me.cur, paths := t.me.paths, halt := { cause := 3, lane := l, path := p.id, time := s.now, pc := p.spc, wpos := p.swpos } } ∧
      t.me.path? p.id = some { p with st := stop p.st, step := 0 } ∧ t.gang = s.gang ∧ t.warps = s.warps)) ∧
  (∀ d a,
    let v := s.u a
    let item := s.un (a.toNat + 1)
    let file := item.toNat % 16
    let i := item.toNat / 2 ^ 8
    let plain : Prop := item.toNat / 16 % 16 = 0 ∧ item.toNat < 2 ^ 16
    let reads (x : BitVec 64) (c : Word) : Prop := Gives (.dbgRdv d a) s fun t => UniformResult s t fun n => if n = d.toNat + 2 then some c else pair d x n
    let writes (u : State) : Prop := Gives (.dbgWrv d a) s fun t => UniformResult u t (one d 0)
    let value := s.uuAt a 2
    let whole (x : Warp) : Prop := (∃ q ∈ x.live, stopped q.st) ∧ ∀ q ∈ x.live, q.st ≠ .ready
    (nameless v → file ≠ 7 → reads 0 1 ∧ answers (.dbgWrv d a) d 1) ∧
    (∀ x, names v x → 12 ≤ file → reads 0 3 ∧ answers (.dbgWrv d a) d 3) ∧
    (∀ x p, names v x → plain → p ∈ x.live → p.id = pid v → (∀ q ∈ x.live, q.id = p.id → q = p) →
      let l := lane v
      let regs := match s.gangOf? x.gid with | some g => g.regsN | none => 0
      let out : Prop := ∃ b ∈ s.accs, b.gid = x.gid ∧ b.w = x.w ∧ b.lane = l ∧ ∃ r, b.dreg = some r ∧ (r = i ∨ (b.op.wide = true ∧ r + 1 = i))
      (file = 0 → p.mask.getLsbD l = true →
        (regs ≤ i → reads 0 3 ∧ answers (.dbgWrv d a) d 3) ∧
        (i < regs → ¬ stopped p.st → reads 0 2 ∧ (¬ out → answers (.dbgWrv d a) d 2)) ∧
        (i < regs → out → answers (.dbgWrv d a) d 5) ∧
        (i < regs → stopped p.st → reads ((x.regs.getV i l).setWidth 64) 0 ∧
          (¬ out → writes (s.setWarp { x with regs := x.regs.putV i (laneBit l) fun _ => value.setWidth 32 })))) ∧
      (file = 2 → stopped p.st →
        (7 ≤ i → reads 0 3 ∧ answers (.dbgWrv d a) d 3) ∧
        (i < 7 → reads ((x.regs.getP i &&& p.mask).setWidth 64) 0 ∧ writes (s.setWarp { x with regs := x.regs.putP i p.mask (value.setWidth 32) }))) ∧
      (file = 3 → p.mask.getLsbD l = true → stopped p.st → i = 0 → reads ((x.regs.getF l).setWidth 64) 0 ∧
        writes (s.setWarp { x with regs := { x.regs with flags := smPut 0 x.regs.flags l (value.setWidth 6) } })) ∧
      (file = 9 → p.mask.getLsbD l = true → stopped p.st → i = 0 → reads (BitVec.ofNat 64 (x.regs.getD l)) 0 ∧ answers (.dbgWrv d a) d 4)) ∧
    (∀ x, names v x → plain →
      (file = 1 → i < 64 →
        (whole x → reads ((uniGet x.regs.u i).setWidth 64) 0 ∧ writes (s.setWarp { x with regs := { x.regs with u := uniPut x.regs.u i (value.setWidth 32) } })) ∧
        (¬ whole x → reads 0 2 ∧ answers (.dbgWrv d a) d 2)) ∧
      (file = 8 → i = 0 → reads ((smGet (0 : BitVec 8) x.fm.codes (lane v)).setWidth 64) 0 ∧ answers (.dbgWrv d a) d 4) ∧
      (file = 10 → i = 2 → reads x.halt.time 0) ∧ (file = 10 → i = 1 → reads x.halt.word1 0) ∧
      (file = 10 → i = 3 → reads (BitVec.ofNat 64 (x.halt.pc.toNat + x.halt.wpos * 2 ^ 48)) 0)) ∧
    (fits v → plain → file = 7 → i < 32 →
      let w := smGet ({} : Wp) (s.core (coreOf v)).wps (i / 4)
      answers (.dbgWrv d a) d 4 ∧ (i % 4 = 1 → reads w.lo 0) ∧ (i % 4 = 2 → reads w.hi 0) ∧ (i % 4 = 3 → reads (BitVec.ofNat 64 (w.hits.toNat * 2 ^ 32 + w.vmask.toNat)) 0))) ∧
  (∀ (w : Wp) (o : Obs) (regs : Regs) (active : Word) (isLane : Bool) (l : Nat),
    let matches_ : Prop := w.hit o regs active isLane l ≠ none
    let kindBit : AccKind → Nat
      | .read => 0 | .write => 1 | .atomic => 2
    let values (x : Word) : Prop := (∃ q ∈ o.regs, q.2.getLsbD l = true ∧ x = regs.getV q.1 l) ∨ (l, x) ∈ o.data
    (w.kind = 0 → (matches_ ↔ ∃ a ∈ o.accs, a.1 = l ∧ w.acc.getLsbD (kindBit a.2.2.2.1) = true ∧
      ((a.2.1.toNat ≤ w.hi.toNat ∧ w.lo.toNat ≤ a.2.1.toNat + a.2.2.1 - 1) ↔ w.neg = false))) ∧
    (w.kind = 1 → (matches_ ↔ ∃ x, values x ∧ ((w.lo.toNat ≤ (x &&& w.vmask).toNat ∧ (x &&& w.vmask).toNat ≤ w.hi.toNat) ↔ w.neg = false))) ∧
    (w.kind = 2 → (matches_ ↔ isLane = true ∧ active.getLsbD l = true ∧ ((∃ q ∈ o.flags, q.1 = l ∧ q.2.setWidth 32 &&& w.vmask ≠ 0) ↔ w.neg = false)))) ∧
  (∀ (p : Path) (l n : Nat) (w : Wp) (x : BitVec 64) (pc : BitVec 48) (wpos : Nat), s.me.exited = false → p ∈ s.me.live → p.mask.getLsbD l = true →
    (∀ q ∈ s.me.live, q.mask.getLsbD l = true → (q.id < 32 ↔ p.id < 32) → q = p) → w.trc = false →
    (∀ g ∈ s.gang :: s.gangs, g.gid = 0 ∨ g.yoked = false) →
    let t := s.watched p.id pc wpos [(l, [(n, w, x)])]
    let was := smGet ({} : Wp) (s.core s.coreNo).wps n
    smGet ({} : Wp) (t.core s.coreNo).wps n = { was with hits := if was.hits = 0xFFFFFFFF then was.hits else was.hits + 1 } ∧
    (∀ k, k ≠ n → smGet ({} : Wp) (t.core s.coreNo).wps k = smGet {} (s.core s.coreNo).wps k) ∧ (∀ c, c ≠ s.coreNo → t.core c = s.core c) ∧
    (w.act = 0 → t = { s with cores := t.cores }) ∧
    (w.act = 2 → t.me = { s.me with cur := t.me.cur, paths := t.me.paths, halted := true
                                    halt := { cause := 1, w := n, lane := l, path := p.id, word1 := x, time := s.now, pc := pc, wpos := wpos } } ∧
      ∀ i, t.me.path? i = (s.me.path? i).map stopPath)) ∧
  (∀ r,
    let told (x : Reply) : Prop := Gives (.debugPortAccess r) s (· = { s with sys := { s.sys with replies := s.sys.replies ++ [x] } })
    (r = .identity → told (.identity Config.identity)) ∧
    (r = .status → told (.status (if s.pkg.stage = .locked then s.pkg.why else 0))) ∧
    ∀ w regs, r = .issue w regs → (s.pkg.stage ≠ .serve → Gives (.debugPortAccess r) s (· = s)) ∧
      (s.pkg.stage = .serve → w.toNat / 2 ^ 25 % 2 ^ 6 ≠ 0x37 ∨ 10 ≤ w.toNat % 2 ^ 7 → told (.debug [])) ∧
      ∀ f v, s.pkg.stage = .serve → portOp w = some f →
        f { s with me := { regs := { u := uniOf regs } }, gang := {}, issue := .lane
                   warps := s.allWarps.filter fun x => x.gid != 0, gangs := s.allGangs.filter fun g => g.gid != 0 } = .next v →
        Gives (.debugPortAccess r) s fun t => t.sys.replies = v.sys.replies ++ [.debug v.me.regs.u] ∧ t.mem = v.mem ∧ t.cores = v.cores) ∧
  ∀ (d a : BitVec 6) (n : BitVec 3),
    let word (b f : Nat) : BitVec 32 := BitVec.ofNat 32 (0x37 * 2 ^ 25 + d.toNat * 2 ^ 19 + a.toNat * 2 ^ 13 + b * 2 ^ 7 + f)
    portOp (word n.toNat 1) = some (exec (.wpClr d a n)) ∧ portOp (word 0 2) = some (exec (.dbgHalt d a)) ∧ portOp (word 0 3) = some (exec (.dbgRes d a)) ∧
    (a.toNat % 2 = 0 → portOp (word 0 4) = some (exec (.dbgStep d a))) ∧ portOp (word 0 9) = some (exec (.trcOff d a))

/-- Trace (17_debug R377 to R379): trc.on begins an empty ring with one SYNC packet for each live path, refuses a bad ring and a traced warp; trc.off writes
an EXIT packet for each live path and stops the trace, and both act on every warp of a gang with SCOPE 3; trc.mark writes one MARK packet where the warp
is traced and its ring has room, counts a loss where it has none, writes a DROP packet and SYNC packets first after a loss, and does nothing in a warp
that is not traced. That trc.off of an untraced warp answers 0 is the model's choice (log 25). -/
def Obligations.TraceInstructions : Prop := ∀ s : State, s.me.gid ≠ 0 → s.gang.gid = s.me.gid → (s.allWarps.map fun y => (y.gid, y.w)).Nodup →
  let coreOf (v : Word) : Nat := 32 * (v.toNat / 2 ^ 13 % 8) + v.toNat / 2 ^ 8 % 32
  let scope (v : Word) : Nat := v.toNat / 2 ^ 26 % 4
  let names (v : Word) (x : Warp) : Prop := v.toNat < 2 ^ 28 ∧ s.powered (v.toNat / 2 ^ 13 % 8) = true ∧ x ∈ s.coreWarps (coreOf v) ∧ x.slot = v.toNat % 2 ^ 7 ∧
    x.pre.st ≠ .saved ∧ ∀ y ∈ s.coreWarps (coreOf v), y.slot = x.slot → y = x
  let size (n : Nat) : Nat := (64 + 16 * 2 ^ n + 4095) / 4096 * 4096
  let state : PState → Nat
    | .ready => 1 | .join _ _ => 2 | .held _ => 3 | .parked _ => 4 | .stopped _ => 5
  let place (p : Path) : Nat := (p.pc.toNat + p.wpos * 2 ^ 48 + state p.st * 2 ^ 50) % 2 ^ 64
  let slotOf (ring n k : Nat) : Nat := ring + 64 + 16 * (k % 2 ^ n)
  -- what a packet holds
  let packet (u : State) (k ty path dcyc a b : Nat) : Prop := u.rd k 4 = ty + path % 64 * 2 ^ 4 + dcyc * 2 ^ 16 ∧ u.rd (k + 4) 4 = a ∧ u.rd (k + 8) 8 = b
  let since (x : Warp) (cyc : BitVec 64) : Nat := min (cyc - x.trc.last).toNat 0xFFFF
  let filled (ring : Nat) : Nat := (s.rd ring 8 + 2 ^ 64 - s.rd (ring + 8) 8) % 2 ^ 64
  let others (u : State) (x : Warp) : Prop := (∀ g w, (g ≠ x.gid ∨ w ≠ x.w) → u.warpOf? g w = s.warpOf? g w) ∧ (∀ g, u.gangOf? g = s.gangOf? g) ∧
    u.me.gid = s.me.gid ∧ u.me.w = s.me.w ∧ u.gang = s.gang ∧ u.cores = s.cores ∧ u.accs = s.accs ∧ u.ops = s.ops
  (∀ d a x g,
    let v := s.u a
    let ctl := (s.un (a.toNat + 1)).toNat
    let base := s.uuAt a 2
    let n := ctl % 32
    let ring := base.toNat + x.w * size n
    let good : Prop := 2 ≤ scope v ∧ ctl < 2 ^ 9 ∧ ctl / 2 ^ 5 % 8 = 0 ∧ 6 ≤ n ∧ n ≤ 20 ∧ base.toNat % 4096 = 0 ∧ base.toNat < 2 ^ 40
    let answers (c : Word) : Prop := Gives (.trcOn d a) s fun t => UniformResult s t (one d c)
    let cyc := (s.core (32 * g.stk + g.core)).cyc
    names v x → s.gangOf? x.gid = some g →
      (¬ good → answers 3) ∧
      (good → scope v = 2 →
        (gddrTop < ring + size n → answers 3) ∧
        (ring + size n ≤ gddrTop →
          (x.trc.on = true → answers 5) ∧
          (x.trc.on = false → x.live.length ≤ 2 ^ n → (x.live.map Machine.Path.id).Nodup → Gives (.trcOn d a) s fun t => ∃ (u : State) (y : Warp),
            UniformResult u t (one d 0) ∧ u.warpOf? x.gid x.w = some y ∧ others u x ∧
            y = { x with cur := y.cur, paths := y.paths, trc := { on := true, base := base, logn := n, ev := decide (ctl / 2 ^ 8 = 1), last := cyc, dropped := false } } ∧
            u.rd ring 8 = x.live.length ∧ u.rd (ring + 8) 8 = 0 ∧ u.rd (ring + 16) 8 = 0 ∧
            (∀ (k : Nat) p, x.live[k]? = some p → packet u (slotOf ring n k) 1 p.id 0 p.mask.toNat (place p)) ∧
            ∀ j, (j < ring ∨ ring + 64 + 16 * 2 ^ n ≤ j) → u.byte j = s.byte j))) ∧
      (good → scope v = 3 →
        let ws (y : Warp) : Prop := y ∈ s.allWarps ∧ y.gid = x.gid ∧ y.exited = false ∧ y.w < 32
        ((∃ y, ws y ∧ gddrTop < base.toNat + (y.w + 1) * size n) → answers 3) ∧
        ((∀ y, ws y → base.toNat + (y.w + 1) * size n ≤ gddrTop) →
          ((∃ y, ws y ∧ y.trc.on = true) → answers 5) ∧
          ((∀ y, ws y → y.trc.on = false) → Gives (.trcOn d a) s fun t => ∃ u : State, UniformResult u t (one d 0) ∧
            ∀ y, ws y → ∃ z, u.warpOf? y.gid y.w = some z ∧ z = { y with cur := z.cur, paths := z.paths, trc := z.trc } ∧
              z.trc.on = true ∧ z.trc.base = base ∧ z.trc.logn = n)))) ∧
  (∀ d a x g,
    let v := s.u a
    let n := x.trc.logn
    let ring := x.trc.base.toNat + x.w * size n
    let wp := s.rd ring 8
    let cyc := (s.core (32 * g.stk + g.core)).cyc
    names v x → s.gangOf? x.gid = some g →
      (scope v < 3 → x.trc.on = false → Gives (.trcOff d a) s fun t => ∃ u : State, UniformResult u t (one d 0) ∧
        (∀ i w, u.warpOf? i w = s.warpOf? i w) ∧ others u x ∧ u.mem = s.mem) ∧
      (scope v < 3 → x.trc.on = true → x.trc.dropped = false → n ≤ 20 → x.live ≠ [] → (x.live.map Machine.Path.id).Nodup → filled ring + x.live.length ≤ 2 ^ n →
        Gives (.trcOff d a) s fun t => ∃ (u : State) (y : Warp), UniformResult u t (one d 0) ∧ u.warpOf? x.gid x.w = some y ∧ others u x ∧
          y = { x with cur := y.cur, paths := y.paths, trc := { x.trc with on := false, last := cyc } } ∧ u.rd ring 8 = (wp + x.live.length) % 2 ^ 64 ∧
          (∀ (k : Nat) p, x.live[k]? = some p → packet u (slotOf ring n (wp + k)) 13 p.id (if k = 0 then since x cyc else 0) p.mask.toNat 0) ∧
          ∀ j, ¬ (ring ≤ j ∧ j < ring + 8) → (∀ k, k < x.live.length → ¬ (slotOf ring n (wp + k) ≤ j ∧ j < slotOf ring n (wp + k) + 16)) → u.byte j = s.byte j) ∧
      (scope v = 3 → Gives (.trcOff d a) s fun t => ∃ u : State, UniformResult u t (one d 0) ∧
        ∀ y ∈ s.allWarps, y.gid = x.gid → y.exited = false → y.w < 32 → ∃ z, u.warpOf? y.gid y.w = some z ∧ z.trc.on = false ∧
          z = { y with cur := z.cur, paths := z.paths, trc := z.trc })) ∧
  (∀ d a, (s.u a).toNat / 2 ^ 28 ≠ 0 ∨ s.powered ((s.u a).toNat / 2 ^ 13 % 8) = false ∨
      (∀ x ∈ s.coreWarps (coreOf (s.u a)), x.slot ≠ (s.u a).toNat % 2 ^ 7 ∨ x.pre.st = .saved) →
    Gives (.trcOn d a) s (fun t => UniformResult s t (one d 1)) ∧ Gives (.trcOff d a) s fun t => UniformResult s t (one d 1)) ∧
  ∀ a,
    let n := s.me.trc.logn
    let ring := s.me.trc.base.toNat + s.me.w * size n
    let wp := s.rd ring 8
    let cyc := (s.core s.coreNo).cyc
    let live := s.me.live
    let place (p : Path) : Nat :=
      place (if s.here.gid ≠ 0 ∧ s.here.gid = s.me.gid ∧ s.here.w = s.me.w ∧ p.id = s.me.cur.id then { p with pc := s.here.pc, wpos := s.here.wpos } else p)
    let only (x : Trace) (t : State) : Prop := t = { s with mem := t.mem, journal := t.journal, me := { s.me with cur := t.me.cur, paths := t.me.paths, trc := x } }
    (s.me.trc.on = false → Gives (.trcMark a) s (· = s)) ∧
    (s.me.trc.on = true → n ≤ 20 →
      (s.me.trc.dropped = false → filled ring ≠ 2 ^ n → Gives (.trcMark a) s fun t => only { s.me.trc with last := cyc } t ∧
        t.rd ring 8 = (wp + 1) % 2 ^ 64 ∧ packet t (slotOf ring n wp) 11 s.me.cur.id (since s.me cyc) (s.u a).toNat cyc.toNat ∧
        ∀ j, ¬ (ring ≤ j ∧ j < ring + 8) → ¬ (slotOf ring n wp ≤ j ∧ j < slotOf ring n wp + 16) → t.byte j = s.byte j) ∧
      (filled ring = 2 ^ n → Gives (.trcMark a) s fun t => only { s.me.trc with dropped := true } t ∧
        t.rd (ring + 16) 8 = (s.rd (ring + 16) 8 + 1) % 2 ^ 64 ∧ ∀ j, ¬ (ring + 16 ≤ j ∧ j < ring + 24) → t.byte j = s.byte j) ∧
      (s.me.trc.dropped = true → filled ring + live.length + 2 ≤ 2 ^ n → Gives (.trcMark a) s fun t => only { s.me.trc with last := cyc, dropped := false } t ∧
        t.rd ring 8 = (wp + live.length + 2) % 2 ^ 64 ∧ packet t (slotOf ring n wp) 14 s.me.cur.id (since s.me cyc) (s.rd (ring + 16) 8 % 2 ^ 32) 0 ∧
        (∀ (k : Nat) p, live[k]? = some p → packet t (slotOf ring n (wp + 1 + k)) 1 p.id 0 p.mask.toNat (place p)) ∧
        packet t (slotOf ring n (wp + 1 + live.length)) 11 s.me.cur.id 0 (s.u a).toNat cyc.toNat ∧
        ∀ j, ¬ (ring ≤ j ∧ j < ring + 8) → (∀ k, k < live.length + 2 → ¬ (slotOf ring n (wp + k) ≤ j ∧ j < slotOf ring n (wp + k) + 16)) → t.byte j = s.byte j))

/-! ### Issue, regroup, and the end of a context (01_machine, 03_tasks, 04_control, 05_events, 06_integer, 08_memory, 09_ordering) -/

/-- Regroup (06_integer R161 to R163): its three errors; the wait at its own place; nothing moves before every participant is there; and what the move leaves in
every lane slot: registers, predicates, flags, return depth, fault code and stack of the slot that comes there in the order live lanes first by
key, warp and lane, then the others, vD with the slot's number, and the lanes' path at the place after. That the keys are those which vA held before the
group of regroup issued (log 13), that the wait stands at its own place (log 15), and that each destination warp writes the vD of its own regroup and the
slots of switched-off lanes follow in the order of warp and lane (log 20) are the model's choices. -/
def Obligations.Regroup : Prop := ∀ s : State,
  (∀ d a b,
    let m := fun l => s.v b l
    let lanesSame (x : Word) : Prop := ∀ l, l < 32 → s.act l = true → m l = x
    let names (x : Word) (w : Nat) : Prop := w < 32 ∧ x.getLsbD w = true
    let there (w : Nat) (x : Warp) : Prop := s.warpNo w = some x ∧ x.exited = false
    let whole : Prop := s.me.cur.hmode ≠ .pre ∧ s.me.cur.mask = s.me.lanes
    (¬ whole → exec (.regroup d a b) s = .next (s.progErr 0x0601 0)) ∧
    ∀ l0, whole → s.act l0 = true → l0 < 32 → (∀ l, l < l0 → s.act l = false) →
      let x := m l0
      (lanesSame x → x.getLsbD s.me.w = false ∨ (∃ w, names x w ∧ ∀ y, ¬ there w y) → exec (.regroup d a b) s = .next (s.progErr 0x0602 (x.setWidth 64))) ∧
      (∀ l1, s.act l1 = true → l1 < 32 → m l1 ≠ x → (∀ l, l < l1 → s.act l = true → m l = x) →
        exec (.regroup d a b) s = .next (s.progErr 0x0602 ((m l1).setWidth 64))) ∧
      (lanesSame x → x.getLsbD s.me.w = true → (∀ w, names x w → ∃ y, there w y) →
        let other : Prop := ∃ w y, names x w ∧ s.warpNo w = some y ∧ ∃ p ∈ y.live, ∃ n e f c k, p.st = .held (.regroup n e f c k) ∧ n ≠ x
        (other → exec (.regroup d a b) s = .next (s.progErr 0x0603 (x.setWidth 64))) ∧
        (¬ other → exec (.regroup d a b) s = .next { s with me := { s.me with cur := { s.me.cur with
          pc := s.here.pc, wpos := s.here.wpos, st := .held (.regroup x d ((List.range 32).map (s.v a)) s.here.npc s.here.nwpos) } } }))) ∧
  ∀ (gid : Nat) (m : Word),
    (s.gangOf? gid = none ∨ m = 0 ∨ (∃ w, w < 32 ∧ m.getLsbD w = true ∧ s.atRendezvous gid w m = false) → Gives (.regroupMove gid m) s (· = s)) ∧
    ∀ (g : Gang) (x : Nat → Warp) (p : Nat → Path) (d : Nat → BitVec 7) (ks : Nat → List Word) (c : Nat → BitVec 48) (k : Nat → Nat),
      let ws := (List.range 32).filter fun w => m.getLsbD w
      let live (q : Nat × Nat) : Bool := (p q.1).mask.getLsbD q.2
      let key (q : Nat × Nat) : Nat := ((ks q.1).getD q.2 0).toNat
      let place (q r : Nat × Nat) : Prop := q.1 < r.1 ∨ (q.1 = r.1 ∧ q.2 < r.2)
      let before (q r : Nat × Nat) : Prop := (live q = true ∧ live r = false) ∨ (live q = true ∧ live r = true ∧ (key q < key r ∨ (key q = key r ∧ place q r))) ∨
        (live q = false ∧ live r = false ∧ place q r)
      let count := (ws.map fun w => ((List.range 32).filter fun l => live (w, l)).length).sum
      s.gangOf? gid = some g → s.me.gid ≠ 0 → s.gang.gid = s.me.gid → (s.allWarps.map fun y => (y.gid, y.w)).Nodup → m ≠ 0 → 32 * ws.length < count + 32 →
      (∀ w ∈ ws, s.atRendezvous gid w m = true ∧ s.warpOf? gid w = some (x w) ∧ (x w).live = [p w] ∧ (p w).st = .held (.regroup m (d w) (ks w) (c w) (k w)) ∧
        (p w).snap = none ∧ (p w).kept = none ∧ (x w).pre.st = .run ∧ (x w).trc.on = false) →
      (∀ w ∈ ws, ∀ w' ∈ ws, w ≠ w' → (x w).stack + 65536 ≤ (x w').stack ∨ (x w').stack + 65536 ≤ (x w).stack) →
      Gives (.regroupMove gid m) s fun t => ∃ q : Nat → Nat × Nat,
        (∀ i, i < 32 * ws.length → (q i).1 ∈ ws ∧ (q i).2 < 32) ∧ (∀ i j, i < j → j < 32 * ws.length → before (q i) (q j)) ∧
        (∀ j, (∀ w ∈ ws, ¬ ((x w).stack ≤ j ∧ j < (x w).stack + 65536)) → t.byte j = s.byte j) ∧
        ∀ (i w : Nat), ws[i]? = some w →
          let src (l : Nat) := q (32 * i + l)
          let from_ (l : Nat) : Regs := (x (src l).1).regs
          ∃ y, t.warpOf? gid w = some y ∧ y = { x w with cur := y.cur, paths := y.paths, regs := y.regs, fm := { (x w).fm with codes := y.fm.codes } } ∧
            y.regs.u = (x w).regs.u ∧
            (∃ z, y.live = [{ p w with mask := z, st := .ready, pc := c w, wpos := k w }] ∧ ∀ l, l < 32 → z.getLsbD l = live (src l)) ∧
            ∀ l, l < 32 →
              (∀ n, n < g.regsN → y.regs.getV n l = if n = (d w).toNat ∧ live (src l) = true then BitVec.ofNat 32 ((src l).1 * 32 + (src l).2) else (from_ l).getV n (src l).2) ∧
              (∀ n, n < 7 → (y.regs.getP n).getLsbD l = ((from_ l).getP n).getLsbD (src l).2) ∧
              y.regs.getF l = (from_ l).getF (src l).2 ∧ y.regs.getD l = (from_ l).getD (src l).2 ∧
              smGet (0 : BitVec 8) y.fm.codes l = smGet 0 (x (src l).1).fm.codes (src l).2 ∧
              ∀ j, j < 2048 → t.byte ((x w).stack + l * 2048 + j) = s.byte ((x (src l).1).stack + (src l).2 * 2048 + j)

/-- What comes to issue (03_tasks R81; 04_control R94, R109; 08_memory R204; 09_ordering R230): a track chooses by handler, issue floor, effective priority, then
the least recently issued, and within the warp the path that issued least recently, with nothing chosen where none is ready; every ready warp is among
the candidates, and one that is not chosen ages by the cycles that pass; a packet fetched is cached as
memory holds it, a fetch that faults parks the path; overflow paths come in where there is room, or in place of one that cannot issue; a warp that
comes to the top register tier sends those that issued least recently out. Which of two warps that never issued goes first (log 4) is the model's choice and
left open here; which words of an older copy a fill keeps is open too (log 12). -/
def Obligations.WhatIssues : Prop := ∀ s : State, s.me.gid ≠ 0 → s.gang.gid = s.me.gid → (s.allWarps.map fun y => (y.gid, y.w)).Nodup →
  let gid := s.me.gid
  let w := s.me.w
  let c := s.coreNo
  (∀ core track,
    let ok (k : Cand) : Prop := k ∈ s.cands core track ∧ (k.handles = true ∨ s.overTrack core track k.g.alm = false)
    let handles (k : Cand) : Prop := ∃ p ∈ k.x.live, p.hmode ≠ .none
    let under (k : Cand) : Prop := s.underTrack core track k.g.alm = true
    let prio (k : Cand) : Nat := min 3 (k.g.prio + k.x.age / 256)
    (∀ k ∈ s.cands core track, k.p ∈ k.x.live ∧ k.x.open k.p = true ∧ k.p.id ∈ k.x.board ∧
      ∀ q ∈ k.x.live, k.x.open q = true → q.id ∈ k.x.board → k.p.issued < q.issued ∨ (k.p.issued = q.issued ∧ k.p.id ≤ q.id)) ∧
    (c = core → s.me.track = track → s.gang.st = .resident → s.me.exited = false → (s.ctx s.gang.asid).ending = none →
      s.me.pre.st ≠ .saved → s.me.pre.st ≠ .hard → s.me.pre.st ≠ .drain → s.me.overflow = [] → (∀ q ∈ s.me.streams, q.2.st = .closed) → s.gang.seq.lead = false →
      ∀ p ∈ s.me.live, p.st = .ready → p.step = 0 → (p.hmode = .pre ∨ ∀ q ∈ s.me.live, q.hmode ≠ .pre) → p.id ∈ s.me.board →
        ∃ k ∈ s.cands core track, k.x = s.me ∧ k.g = s.gang ∧ (k.p.issued < p.issued ∨ (k.p.issued = p.issued ∧ k.p.id ≤ p.id))) ∧
    (∀ y ∈ s.allWarps, ∀ g, s.gangOf? y.gid = some g → ∃ z ∈ s.aged.allWarps, z = { y with age := z.age } ∧
      let ready : Prop := ∃ k ∈ s.cands (32 * g.stk + g.core) y.track, k.x = y
      (ready → ¬ (s.issue = .lane ∧ y.gid = gid ∧ y.w = w) → z.age = y.age + s.stepCycles (32 * g.stk + g.core)) ∧
      (¬ ready ∨ (s.issue = .lane ∧ y.gid = gid ∧ y.w = w) → z.age = y.age)) ∧
    ((∀ y ∈ s.allWarps, y.stops = []) →
      ((∀ k, ¬ ok k) → Gives (.warpSchedule core track) s (· = s)) ∧
      ((∃ k, ok k) → Gives (.warpSchedule core track) s fun t => ∃ k, ok k ∧ t.issue = .lane ∧ t.me.gid = k.x.gid ∧ t.me.w = k.x.w ∧ t.me.cur.id = k.p.id ∧
        t.mem = s.mem ∧ t.me.regs = k.x.regs ∧
        ∀ j, ok j → (handles j → handles k) ∧ ((handles k ↔ handles j) → (under j → under k) ∧ ((under k ↔ under j) → prio j ≤ prio k ∧
          (prio j = prio k → k.x.issued ≤ j.x.issued)))))) ∧
  (∀ p, p = s.me.cur → p.mask ≠ 0 → p.id ≠ 0xFE → s.me.exited = false → s.me.pre.st ≠ .saved → s.gang.st = .resident → s.sys.mclkEnd = none →
      (p.st ≠ .ready → Gives (.icacheFill gid w p.id) s (· = s)) ∧
      (p.st = .ready →
        let f : State := { s with issue := .lane, here := { pc := p.pc, wpos := p.wpos, npc := p.pc, nwpos := p.wpos } }
        (∀ k, p.pc.toNat % 2 ^ 16 + 12 ≤ 2 ^ 16 → f.translate .fetch p.pc.toNat = (f, .ok k) → Gives (.icacheFill gid w p.id) s fun t =>
          t = { s with cores := t.cores } ∧ t.core c = { s.core c with icache := (t.core c).icache } ∧
          let usable (o : ILine) : Prop := o ∈ (s.core c).icache ∧ o.asid = s.gang.asid ∧ o.pc = p.pc ∧ p.fenced < o.at_
          ∃ l ∈ (t.core c).icache, l.asid = s.gang.asid ∧ l.pc = p.pc ∧ (∀ l' ∈ (t.core c).icache, l'.asid = l.asid → l'.pc = l.pc → l' = l) ∧
            ((∀ o, ¬ usable o) → l.w0.toNat = s.rd k 4 ∧ l.w1.toNat = s.rd (k + 4) 4 ∧ l.w2.toNat = s.rd (k + 8) 4 ∧ l.at_ = s.sys.seq + 1) ∧
            ((∃ o, usable o) → ∃ o, usable o ∧ (l.w0.toNat = s.rd k 4 ∨ l.w0 = o.w0) ∧ (l.w1.toNat = s.rd (k + 4) 4 ∨ l.w1 = o.w1) ∧
              (l.w2.toNat = s.rd (k + 8) 4 ∨ l.w2 = o.w2))) ∧
        ∀ code, f.translate .fetch p.pc.toNat = (f, .error code) → Gives (.icacheFill gid w p.id) s fun t =>
          t = { s with me := { s.me with cur := t.me.cur } } ∧
          ∃ k, t.me.cur = { p with st := .parked k } ∧ k.kind = 2 ∧ k.code = code ∧ k.access = 3 ∧ k.va = BitVec.ofNat 64 p.pc.toNat ∧ k.mask = p.mask)) ∧
  (s.me.exited = false →
    let resident (p : Path) : Prop := p ∈ s.me.live ∧ p.id ∉ s.me.overflow
    let n := (s.me.live.filter fun p => decide (p.id ∉ s.me.overflow)).length
    let issues (p : Path) : Prop := p ∈ s.me.live ∧ p.st = .ready ∧ (p.hmode = .pre ∨ ∀ q ∈ s.me.live, q.hmode ≠ .pre)
    (s.me.overflow = [] ∨ (8 ≤ n ∧ ∃ p, resident p ∧ issues p) ∨ (8 ≤ n ∧ ∀ p, p.id ∈ s.me.overflow → ¬ issues p) → Gives (.pathBringIn gid w) s (· = s)) ∧
    (∀ i rest, s.me.overflow = i :: rest → n < 8 → Gives (.pathBringIn gid w) s (· = { s with me := { s.me with overflow := rest } })) ∧
    (8 ≤ n → (∀ p, resident p → p.st = .ready) → Gives (.pathBringIn gid w) s (· = s)) ∧
    (8 ≤ n → (∀ p, resident p → ¬ issues p) → (∃ p, resident p ∧ p.st ≠ .ready) → ∀ as i bs, s.me.overflow = as ++ i :: bs → i ∉ as → i ∉ bs → (∃ p, issues p ∧ p.id = i) →
      (∀ j ∈ as, ∀ p, issues p → p.id ≠ j) → Gives (.pathBringIn gid w) s fun t => ∃ q, resident q ∧ q.st ≠ .ready ∧
        (∀ r, resident r → r.st ≠ .ready → r.pc < q.pc ∨ (r.pc = q.pc ∧ r.id ≤ q.id)) ∧ t = { s with me := { s.me with overflow := as ++ bs ++ [q.id] } })) ∧
  (s.me.exited = false → s.me.pre.st ≠ .saved → s.gang.st = .resident →
    let others := (s.coreWarps c).filter fun y => y.top && !(y.gid == gid && y.w == w)
    let regs (y : Warp) : Nat := match s.gangOf? y.gid with | some g => g.regsN | none => 0
    let room := 64 * 128 - s.gang.regsN
    (s.me.top = true → Gives (.registerBringIn gid w) s (· = s)) ∧
    (s.me.top = false → others.length ≤ 128 → Gives (.registerBringIn gid w) s fun t => ∃ out : List Warp, (∀ y ∈ out, y ∈ others) ∧
      t = { s with me := { s.me with top := true }, warps := s.warps.map fun y => if y ∈ out then { y with top := false } else y } ∧
      ((others.filter fun y => decide (y ∉ out)).map regs).sum ≤ room ∧ ((others.map regs).sum ≤ room → out = []) ∧
      ∀ y ∈ out, ∀ z ∈ others, z ∉ out → y.issued ≤ z.issued))

/-- The end of a context (05_events R132): while anything that it began is still to perform, what it has not begun is dropped and nothing else happens; then
its record is written where CTXFR takes one and lost otherwise, each of its instances' entries that is RUNNING goes to ERROR with FCODE 10, in turn,
the token (ASID << 16) | 1 is sent, its instances, gangs and warps are gone, and every other gang and warp is as before. That the first event gives the
record and that all of this is one event is the model's choice (log 17). -/
def Obligations.ContextEnd : Prop := ∀ (s : State) (asid : Nat), s.sys.mclkEnd = none →
  let gangOf (g : Gang) : Prop := g ∈ s.gang :: s.gangs ∧ g.gid ≠ 0 ∧ g.asid = asid
  let going : Prop := (∃ a ∈ s.accs, ∃ g, gangOf g ∧ g.gid = a.gid) ∨ (∃ o ∈ s.ops, o.asid = asid ∧ (o.phase = .registered ∨ o.phase = .started)) ∨
    ∃ g, gangOf g ∧ g.array ≠ none
  let b := (s.ctx asid).ctxfr.toNat
  let takes : Prop := b ≠ 0 ∧ b % 64 = 0 ∧ b + 64 ≤ gddrTop
  let entry (i : Inst) : Nat := (s.ctx asid).ttbase.toNat + 64 * i.task
  let mine (x : Nat) : Prop := ∃ g, gangOf g ∧ g.gid = x
  let is := s.insts.filter fun i => decide (i.asid = asid)
  ((s.ctx asid).ending = none → Gives (.contextFaultRecord asid) s (· = s)) ∧
  ∀ r, (s.ctx asid).ending = some r →
    (going → Gives (.contextFaultRecord asid) s fun t => t.ctxs = s.ctxs ∧ t.mem = s.mem ∧ t.accs = s.accs ∧ t.insts = s.insts ∧
      ∀ o, o ∈ t.ops ↔ (o ∈ s.ops ∧ o.asid ≠ asid) ∨ ∃ p ∈ s.ops, p.asid = asid ∧ (p.phase = .registered ∨ p.phase = .started) ∧ o = { p with closing := true }) ∧
    (¬ going → (s.insts.map Inst.id).Nodup → Gives (.contextFaultRecord asid) s fun t =>
      t.ctx asid = { s.ctx asid with ending := none } ∧ (∀ k, k ≠ asid → t.ctx k = s.ctx k) ∧ t.insts = s.insts.filter (fun i => i.asid != asid) ∧
      t.ops = s.ops.filter (fun o => o.asid != asid) ∧
      ((∀ g h, g ∈ s.gang :: s.gangs → h ∈ s.gang :: s.gangs → g.gid = h.gid → g.gid ≠ 0 → g.asid = h.asid) →
        (∀ g, gangOf g → ∃ i ∈ is, g.inst = i.id) → (∀ g ∈ s.gang :: s.gangs, g.gid ≠ 0 → g.asid ≠ asid → ∀ i ∈ is, g.inst ≠ i.id) →
        t.gangs = s.gangs.filter (fun g => decide (g.gid = 0 ∨ g.asid ≠ asid)) ∧ (gangOf s.gang → t.gang = {}) ∧ (¬ gangOf s.gang → t.gang = s.gang) ∧
        (∀ x ∈ s.warps, ¬ mine x.gid → x ∈ t.warps) ∧ (∀ x ∈ t.warps, ¬ mine x.gid ∧ x ∈ s.warps) ∧ (mine s.me.gid → t.me = {}) ∧ (¬ mine s.me.gid → t.me = s.me)) ∧
      ∃ us : Nat → State,
        (us 0 = { s with me := (us 0).me, warps := (us 0).warps, gang := (us 0).gang, gangs := (us 0).gangs, ops := (us 0).ops
                         mem := (us 0).mem, journal := (us 0).journal, pkg := (us 0).pkg } ∧
          (takes → let t := us 0
            t.rd b 2 = asid % 2 ^ 16 ∧ t.rd (b + 2) 2 = r.cls % 2 ^ 16 ∧ t.rd (b + 4) 2 = r.code % 2 ^ 16 ∧ t.rd (b + 6) 1 = r.hmode % 2 ^ 8 ∧ t.rd (b + 7) 1 = r.path % 2 ^ 8 ∧
            t.rd (b + 8) 4 = r.task % 2 ^ 32 ∧ t.rd (b + 12) 4 = r.gang % 2 ^ 32 ∧ t.rd (b + 16) 4 = r.warp.toNat ∧ t.rd (b + 20) 4 = r.tmask.toNat ∧
            t.rd64 (b + 24) = r.tpc ∧ t.rd64 (b + 32) = r.info ∧ t.rd64 (b + 40) = r.time ∧ t.rd64 (b + 48) = 0 ∧ t.rd64 (b + 56) = 0 ∧ t.pkg = s.pkg ∧
            ∀ j, ¬ (b ≤ j ∧ j < b + 64) → t.byte j = s.byte j) ∧
          (¬ takes → (us 0).mem = s.mem ∧ (us 0).pkg = { s.pkg with norec := true })) ∧
        (∀ (k : Nat) i, is[k]? = some i →
          (∀ c u, (us k).q3Walk asid .write (entry i) = (u, .error c) → us (k + 1) = us k) ∧
          ∀ u p, (us k).q3Walk asid .write (entry i) = (u, .ok p) →
            (u.rd (p + 62) 2 % 4 ≠ 2 → us (k + 1) = us k) ∧
            (u.rd (p + 62) 2 % 4 = 2 → us (k + 1) = { u with mem := (us (k + 1)).mem, journal := (us (k + 1)).journal } ∧
              (us (k + 1)).rd (p + 62) 1 = u.rd (p + 62) 1 / 4 * 4 + 3 ∧ (us (k + 1)).rd (p + 63) 1 = 10 ∧
              ∀ j, j ≠ p + 62 → j ≠ p + 63 → (us (k + 1)).byte j = u.byte j)) ∧
        let v := (us is.length).sendToken (BitVec.ofNat 64 (asid * 2 ^ 16 + 1))
        t.mem = v.mem ∧ t.sys.toks = v.sys.toks ∧ t.pkg = v.pkg)

/-! ### The whole machine -/

/-- Words of the spec stand for the instructions that it names beside them (02_encoding R25 to R48, and the worked encodings of 03_tasks to 17_debug). -/
def Obligations.SampleWords : Prop :=
  (∀ x ∈ [(0x02C00000, Instr.bra 3 false 0), (0x03C00002, .bra 7 false 2), (0x03DFFFFF, .call 7 false 0xFFFFF), (0x060020C0, .brx 4 6), (0x06000004, .exit),
      (0x06000005, .nop), (0x08280140, .evArm .stamp 2 10), (0x08800140, .evArm .mbox 0 10), (0x0A008007, .trap 4 7), (0x0A000401, .trapRet .next),
      (0x0A010800, .preDone 8), (0x0A000C01, .preMask true), (0x0C102050, .iadd 4 4 5), (0x0C0C0825, .imad 3 1 2), (0x0E18085E, .bilv 6 1 5),
      (0x12440820, .icmp .ltI 1 1 2), (0x12142023, .lscanAdd 5 4 false 2), (0x16182006, .lredAdd 6 4), (0x161C1002, .voteBall 7 2),
      (0x18930D0D, .iadd64U 18 24 26), (0x1828C3A6, .icmpU 5 6 7 .ltN), (0x1A1043FF, .iaddUimm 2 2 (.short 0x3FF)), (0x200C0820, .fadd 3 1 2 .ne),
      (0x2010082B, .ffma 4 1 2 .u), (0x22480830, .fcmp .lt 2 1 3), (0x24142000, .rcp 5 4), (0x260C1180, .cvt 3 2 .e4m3 .f32 .ne false),
      (0x26101202, .cvt 4 2 .i32 .f32 .z false), (0x28180820, .qhist 6 1 2), (0x30043024, .ld 1 6 (.short 4) .b32), (0x3208300C, .st 2 6 (.short 1) .b32),
      (0x34143070, .atomAdd 5 6 7), (0x3400307B, .atomXacc 6 7), (0x360C0012, .stSB32 3 0 1), (0x36143078, .cmnRedAddF32 5 6 7), (0x38183081, .mwait true .ge 6 8),
      (0x3A000000, .fenceT), (0x3A008301, .tlbInv 4 6), (0x3A294587, .pfResume 5 10 11), (0x40010000, .cpy 8 0), (0x40A20003, .tbrArrive 20 16), (0x44080003, .strPop 2 0),
      (0x440C120C, .xrRoute 3 2 16), (0x4830A002, .tbufFull 6 5), (0x4A000803, .grpHold 3), (0x50010520, .mm 0 8 10 .i8 false .k512), (0x5C000002, .seqBar 0),
      (0x5C018002, .seqBarMatrix 0 12), (0x5E380010, .accLd 14 0 1), (0x5E182872, .planePack 6 5 7), (0x6828C000, .plvl 5 6), (0x6AA20461, .sysWr 20 16 0x61),
      (0x6CA20000, .yoke 20 16), (0x6EA10180, .wpSet 20 8 3), (0x6E00A00A, .trcMark 5)], decodeTableWord 32 x.1 = some x.2) ∧
  decodeWords .lane [0x1014072C, 0x7E000001] = .ok (.movi 5 (.long 300)) ∧ decodeWords .lane [0x10140702, 0x7E000002] = .ok (.movi 5 (.long 0x202)) ∧
  decodeWords .matrix [0x1A481C00, 0x7E3FFC00] = .ok (.moviU 9 (.long 0xFFF00000)) ∧
  decodeWord .lane true 0 none = .error .zero ∧ decodeWord .lane false 0x6EA10180 none = .error .priv ∧ decodeWord .lane true 0x50010520 none = .error .stream

/-- Decoding and encoding agree (02_encoding R25 to R48): every well-formed instruction that has words is read back from them, with every operand; and a word
that decodes is well-formed and is the word of the instruction it stands for, but for its chain bit. -/
def Obligations.DecodeEncode : Prop :=
  (∀ i : Instr, i.wf = true → encode i ≠ [] → decodeWords (streamOf i) (encode i) = .ok i) ∧
  ∀ st priv w x i, decodeWord st priv w x = .ok i → i.wf = true ∧ ∃ v, encodeOwner i = some v ∧ v.toNat = w.toNat % 2 ^ 31

/-- One step (02_encoding R36 to R41; 05_events R126; 13_matrix R289; 16_stack R360): a chain group of one word is run by `exec`, from the place after it and with
the charges of its issue, and then the path has nothing of a replay left and nothing is issued; a word that must wait, or that traps while an earlier group
of its path has not retired, or that the window of the memory clock holds, does not issue; so is a sequencer's word run; so is the first event of the
agenda, where nothing else comes first; the words of a checked packet are those that decode at their positions; no instruction stops the machine, and a step stops only where a state
that no run reaches issues from nothing. Watch predicates are the subject of 17_debug; here the core has none. What the package does in one step, and
that the agenda's events come before what is due (log 4), and that a step which issues from nothing stops (log 10), are the model's choices. -/
def Obligations.StepRuns : Prop :=
  (∀ i s, ∃ t, exec i s = .next t) ∧
  (∀ s, (∃ t, step s = .next t) ∨ (step s = .fault .noIssuer ∧ s.issue ≠ .none)) ∧
  (∀ (l : ILine) st priv n ws, l.check st priv n = .ok ws → ∀ w ∈ ws, w.pos < 3 ∧ ∃ v x, [l.w0, l.w1, l.w2][w.pos]? = some v ∧ decodeWord st priv v x = .ok w.i) ∧
  (∀ s : State,
    let p := s.me.cur
    s.issue = .lane → p.mask ≠ 0 → p.st = .ready → ∀ l ws w, s.lineFor s.gang.asid p.pc p.fenced = some l → l.check .lane s.priv s.gang.regsN = .ok ws → groupAt ws p.wpos = [w] →
      let n := placeAfter p.pc ws [w]
      ∃ t : State, t = { s with here := { pc := p.pc, wpos := p.wpos, word := w.pos, npc := n.1, nwpos := n.2, gid := s.me.gid, w := s.me.w }, cores := t.cores
                                warps := s.aged.warps
                                me := { s.me with obs := {}, issued := s.point, age := 0
                                                  cur := { p with pc := n.1, wpos := n.2, issued := s.point, groups := p.groups + if p.phase = 0 then 1 else 0
                                                                  whole := if p.replay = none then p.mask else p.whole, rpos := if p.replay = none then none else p.rpos
                                                                  step := if p.step = 1 then 2 else p.step } } } ∧
        (∀ c, t.core c = { s.core c with used := (t.core c).used }) ∧
        ∀ u, exec w.i t = .next u → (u.core u.coreNo).wps = [] → u.me.stops = [] →
          let q := u.me.cur
          let trapped : Bool := u.here.trapped
          let kept : Path := { q with replay := p.replay, snap := p.snap, whole := t.me.cur.whole, phase := p.phase, after := p.after }
          let done : Path := { q with replay := none, snap := none, phase := 0, after := none }
          let parked : Bool := match q.st with | .parked _ => true | _ => false
          let left : Path := if trapped = true then (if q.hmode = p.hmode then kept else q) else match q.st with | .parked _ => q | _ => done
          let cur : Path := if q.id = p.id ∧ (trapped = true ∨ parked = true) then
            { left with groups := if left.phase = 0 then left.groups - 1 else left.groups, step := if trapped = true ∧ q.hmode = p.hmode then p.step else left.step } else left
          let waits : Prop := u.here.retry = true ∨ (trapped = true ∧ s.unretired s.me p = true) ∨ s.windowStops u = true ∨ (s.windowMiss = true ∧ parked = true)
          let made : Made := { slow := (groupCycles [w]).2 / 32, mask := if trapped = true then 0 else s.memMask, uni := !trapped && w.pipe == .uniform }
          (waits → step s = .next (State.advance { s.aged with issue := .none, here := {}, me := { s.me with obs := {} } })) ∧
          (¬ waits → step s = .next (State.advance { u.noteMade made with issue := .none, here := {}, me := { u.me with obs := {}, cur := cur } }))) ∧
  (∀ s : State,
    let q := s.gang.seq
    s.issue = .seq → q.st = .running → ∀ l ws w, s.lineFor s.gang.asid q.pc 0 = some l → l.check .matrix s.priv s.gang.regsN = .ok ws →
      ws.find? (fun x => decide (q.wpos ≤ x.pos)) = some w →
      let n := placeAfter q.pc ws [w]
      let t : State := { s.aged with here := { pc := q.pc, wpos := q.wpos, word := w.pos, npc := n.1, nwpos := n.2 }
                                     gang := { s.gang with seq := { q with pc := n.1, wpos := n.2, lead := false } } }
      let ends (u : State) : State := State.advance { u with issue := .none, here := {}, me := { u.me with obs := {} } }
      ∀ u, exec w.i t = .next u → step s = .next (ends (if s.windowStops u = true then s.aged else u.noteMade { uni := w.pipe == .uniform }))) ∧
  (∀ (s : State) (m : Made), s.noteMade m = { s with cores := (s.noteMade m).cores } ∧ ∀ c, (s.noteMade m).core c =
    if c = s.coreNo ∨ (s.gang.yoked = true ∧ c = s.coreNo + 16) then { s.core c with made := (s.core c).made ++ [{ m with cyc := (s.core c).cyc.toNat }] } else s.core c) ∧
  ∀ s : State, s.issue = .none → s.sys.effs = [] → ∀ i is, s.agenda = i :: is → encodeOwner i = none →
    let v : State := s.scored.aged
    ∀ u, exec i { v with agenda := is } = .next u → step s = .next (State.advance (if s.windowStops u = true then v else u))

/-- Memory keeps its canonical form in every step: addresses strictly rising, and no listed byte equal to what an unlisted one reads as (the model's own form of
memory; 08_memory R192, 09_ordering R217 for the bytes themselves). -/
def Obligations.MemoryKept : Prop := ∀ s t : State, s.MemOk → step s = .next t → t.MemOk

/-- The package after reset, before its power-up (16_stack R357 to R359, 15_power R332, R340; 10_translation R253; 05_events R132): stage AON with no stack
powered, every context FREE, every cluster at level 0, no almanac entry in force, no gang, warp, operation or access, no byte of memory listed, and no time
passed; every register of sys.rd at the reset value of 15_power R333, R343 and R344; memory has its canonical form. The values that the spec does not give
are the model's choice (log 1). -/
def Obligations.AtReset : Prop :=
  let s := State.reset
  s.MemOk ∧ s.mem = [] ∧ s.pkg.stage = .aon ∧ s.sys.mode = .one ∧ s.poweredList = [] ∧ s.pkg.time = 0 ∧ (∀ k, (s.ctx k).st = .free ∧ (s.ctx k).ending = none) ∧
    (∀ c, (s.clu c).cur = 0 ∧ (s.clu c).chg = none) ∧ (∀ e, smGet (0 : BitVec 64) s.pkg.alm e = 0) ∧ s.pkg.almLen = 0 ∧
    (∀ n sel, n < 0x140 → s.regRead n sel = if n = 4 then 2 else if n = 5 then 10 else if 0x120 ≤ n then 0x28 else 0) ∧ s.pkg.pkgcap = 2 ∧
    (∀ e, smGet (0x28 : BitVec 64) s.pkg.lvl e = 0x28) ∧ s.pkg.tsEn = false ∧ s.pkg.tsLogn = 0 ∧ s.pkg.tsK = 10 ∧ (∀ c, (s.core c).tlb = [] ∧ (s.core c).icache = [] ∧
    (s.core c).wps = []) ∧ s.me.gid = 0 ∧ s.gang.gid = 0 ∧ s.warps = [] ∧ s.gangs = [] ∧ s.insts = [] ∧ s.ops = [] ∧ s.accs = [] ∧ s.sys.toks = [] ∧ s.sys.replies = [] ∧
    (∀ n, s.un n = 0) ∧ (∀ n l, s.me.regs.getV n l = 0 ∧ s.me.regs.getF l = 0 ∧ (s.me.regs.getP 7).getLsbD l = decide (l < 32)) ∧ s.issue = .none ∧ s.agenda = []
end

