-- ==== Sys2Proof/Laws/Results.lean ====
section
/-! SUPPORT. What the writes of registers do, said once for each: the predicates of Sys2Proof/Safety.lean hold of them. -/

namespace Sys2Proof.Machine

/-- A read after a write of a register in the lanes of a mask. -/
theorem Regs.getV_putV (r : Regs) (n : Nat) (m : BitVec 32) (f : Nat → Word) (k l : Nat) (hl : l < 32) :
    (r.putV n m f).getV k l = if k = n ∧ m.getLsbD l = true then f l else r.getV k l := by
  unfold Regs.putV Regs.getV
  simp only [smGet_smPuts, List.length_map, List.length_range, List.getElem_map, List.getElem_range]
  by_cases hk : k = n
  · subst hk
    have h : 32 * k ≤ 32 * k + l ∧ 32 * k + l < 32 * k + 32 := by omega
    have e : 32 * k + l - 32 * k = l := by omega
    simp [h, e]
  · have h : ¬ (32 * n ≤ 32 * k + l ∧ 32 * k + l < 32 * n + 32) := by omega
    simp [h, hk]

/-- A read after a write of the flags of every lane. -/
theorem Regs.getF_putF (r : Regs) (g : Nat → Flags) (l : Nat) (hl : l < 32) :
    smGet 0 (smPuts 0 r.flags 0 ((List.range 32).map g)) l = g l := by
  rw [smGet_smPuts]
  have h : 0 ≤ l ∧ l < 0 + ((List.range 32).map g).length := by simp; omega
  simp [h, hl]

theorem Regs.getP_putP (r : Regs) (n : Nat) (m x : BitVec 32) (k l : Nat) (hl : l < 32) :
    ((r.putP n m x).getP k).getLsbD l =
      if k = 7 then true else if k = n ∧ m.getLsbD l = true then x.getLsbD l else (r.getP k).getLsbD l := by
  by_cases h7 : k = 7
  · subst h7; simp only [Regs.getP, if_true]; interval_cases l <;> rfl
  · unfold Regs.putP
    by_cases hn : n = 7
    · have : k ≠ n := by omega
      simp [hn, h7]
    · simp only [hn, if_false, h7, Regs.getP, smGet_smPut]
      by_cases hk : k = n
      · subst hk
        have hb : (((smGet 0 r.p k) &&& ~~~m) ||| (x &&& m)).getLsbD l = if m.getLsbD l = true then x.getLsbD l else (smGet 0 r.p k).getLsbD l := by
          rw [BitVec.getLsbD_or, BitVec.getLsbD_and, BitVec.getLsbD_and, BitVec.getLsbD_not]
          cases m.getLsbD l <;> simp [hl]
        simpa using hb
      · simp [hk]

theorem OnlyRegs.rfl' (s : State) : OnlyRegs s s := rfl

/-- What a write of a lane register does. -/
theorem setV_result (s : State) (d : BitVec 7) (f : Nat → Word) : LaneResult s (s.setV d f) d f := by
  refine ⟨rfl, rfl, fun n l hl => ?_⟩
  exact Regs.getV_putV s.me.regs d.toNat s.me.cur.mask f n l hl

/-- What a write of a lane register pair does. -/
theorem setVV_result (s : State) (d : BitVec 7) (f : Nat → BitVec 64) : LanePairResult s (s.setVV d f) d f := by
  refine ⟨rfl, rfl, fun n l hl => ?_⟩
  have h : (s.setVV d f).me.regs.getV n l = _ := Regs.getV_putV (s.me.regs.putV d.toNat s.me.cur.mask fun l => (f l).setWidth 32)
    (d.toNat + 1) s.me.cur.mask (fun l => (f l >>> 32).setWidth 32) n l hl
  rw [h, Regs.getV_putV _ _ _ _ _ _ hl]
  unfold State.act
  by_cases h1 : n = d.toNat
  · subst h1
    have h2 : ¬ d.toNat = d.toNat + 1 := by omega
    simp only [h2, false_and, if_false, true_and]
  · simp only [h1, false_and, if_false]

/-- What a write of a lane register with flags does. -/
theorem setF_result (s : State) (d : BitVec 7) (f : Nat → FRes) : FloatResult s (s.setF d f) d f := by
  refine ⟨rfl, rfl, fun n l hl => ?_, fun l hl => ?_⟩
  · exact Regs.getV_putV s.me.regs d.toNat s.me.cur.mask (fun l => BitVec.ofNat 32 (f l).bits) n l hl
  · exact Regs.getF_putF s.me.regs (fun l => if s.me.cur.mask.getLsbD l then s.me.regs.getF l ||| (f l).fl else s.me.regs.getF l) l hl

theorem maskNat_lt (f : Nat → Bool) (n : Nat) : maskNat f n < 2 ^ n := by
  induction n with
  | zero => simp [maskNat]
  | succ n ih => simp only [maskNat, Nat.pow_succ]; split <;> omega

theorem maskNat_testBit (f : Nat → Bool) (n l : Nat) : (maskNat f n).testBit l = (decide (l < n) && f l) := by
  induction n with
  | zero => simp [maskNat]
  | succ n ih =>
    have hb := maskNat_lt f n
    have hb' := maskNat_lt f (n + 1)
    rcases Nat.lt_trichotomy l n with hl | hl | hl
    · have h1 : l < n + 1 := by omega
      simp only [maskNat]
      by_cases hf : f n = true
      · rw [if_pos hf, Nat.add_comm, Nat.testBit_two_pow_add_gt hl, ih]; simp [hl, h1]
      · rw [if_neg hf, Nat.add_zero, ih]; simp [hl, h1]
    · subst hl
      simp only [maskNat]
      by_cases hf : f l = true
      · rw [if_pos hf, Nat.add_comm, Nat.testBit_two_pow_add_eq, Nat.testBit_lt_two_pow hb]; simp [hf]
      · rw [if_neg hf, Nat.add_zero, Nat.testBit_lt_two_pow hb]; simp [hf]
    · have h1 : ¬ l < n + 1 := by omega
      rw [Nat.testBit_lt_two_pow (Nat.lt_of_lt_of_le hb' (Nat.pow_le_pow_right (by omega) (by omega)))]
      simp [h1]

/-- The bit of a lane in a mask made from a test. -/
theorem maskOf_getLsbD (f : Nat → Bool) (l : Nat) (hl : l < 32) : (maskOf f).getLsbD l = f l := by
  unfold maskOf
  rw [BitVec.getLsbD_ofNat, maskNat_testBit]
  simp [hl]

/-- What a write of a predicate does. -/
theorem setP_result (s : State) (d : BitVec 3) (f : Nat → Bool) : PredResult s (s.setP d f) d f := by
  refine ⟨rfl, ?_, fun n l hn hl => ?_⟩
  · simp only [State.setP, State.setRegs, Regs.putP]; split <;> rfl
  · have h := Regs.getP_putP s.me.regs d.toNat s.me.cur.mask (maskOf f) n l hl
    rw [maskOf_getLsbD f l hl] at h
    exact h

theorem uniGet_uniPut (u : List (Nat × Word)) (d : Nat) (x : Word) (n : Nat) :
    uniGet (uniPut u d x) n = if n = 0 then 0 else if n = d then x else uniGet u n := by
  unfold uniGet uniPut
  by_cases hn : n = 0
  · simp [hn]
  · by_cases hd : d = 0
    · have : ¬ n = d := by omega
      simp [hn, hd]
    · simp [hn, hd]

theorem un_setUn (s : State) (d : Nat) (x : Word) (n : Nat) :
    (s.setUn d x).un n = if n = 0 then 0 else if n = d then x else s.un n := by
  unfold State.setUn State.setUni State.un State.uni
  cases h : s.issue <;> simp only [State.setRegs, h] <;> exact uniGet_uniPut _ _ _ _

theorem onlyUniform_setUni (s : State) (u : List (Nat × Word)) : OnlyUniform s (s.setUni u) := by
  unfold OnlyUniform State.setUni
  cases h : s.issue <;> simp [State.setRegs, h]

@[simp] theorem setUn_issue (s : State) (d : Nat) (x : Word) : (s.setUn d x).issue = s.issue := by
  unfold State.setUn State.setUni; cases h : s.issue <;> simp only [State.setRegs, h]

/-- What a write of a uniform register does. -/
theorem setU_result (s : State) (d : BitVec 6) (x : Word) : UniformResult s (s.setU d x) (one d x) := by
  refine ⟨onlyUniform_setUni s _, fun n => ?_⟩
  rw [State.setU, un_setUn]
  by_cases h0 : n = 0
  · simp [h0]
  · by_cases hd : n = d.toNat <;> simp [h0, one, hd]

/-- What a write of a uniform pair does. -/
theorem setUU_result (s : State) (d : BitVec 6) (x : BitVec 64) : UniformResult s (s.setUU d x) (pair d x) := by
  refine ⟨?_, fun n => ?_⟩
  · unfold OnlyUniform State.setUU State.setUn State.setUni
    cases h : s.issue <;> simp [State.setRegs, h]
  · rw [State.setUU, un_setUn, un_setUn]
    by_cases h0 : n = 0
    · simp [h0]
    · by_cases h1 : n = d.toNat + 1
      · have : n ≠ d.toNat := by omega
        simp [pair, h1]
      · by_cases hd : n = d.toNat
        · have : d.toNat ≠ 0 := by omega
          simp [pair, hd, this]
        · simp [h0, pair, h1, hd]

/-! An instruction that answers one such write gives its result. -/

theorem gives_setV {i : Instr} {s : State} {d : BitVec 7} {f g : Nat → Word} (h : exec i s = .next (s.setV d f)) (hf : ∀ l, f l = g l) :
    Gives i s fun t => LaneResult s t d g := ⟨_, h, funext hf ▸ setV_result s d f⟩

theorem gives_setV_bits {i : Instr} {s : State} {d : BitVec 7} {f : Nat → Word} {g : Nat → Nat → Bool} (h : exec i s = .next (s.setV d f))
    (hf : ∀ l k, k < 32 → (f l).getLsbD k = g l k) :
    Gives i s fun t => ∃ f, LaneResult s t d f ∧ ∀ l k, l < 32 → k < 32 → (f l).getLsbD k = g l k :=
  ⟨_, h, f, setV_result s d f, fun l k _ hk => hf l k hk⟩

theorem gives_setVV {i : Instr} {s : State} {d : BitVec 7} {f g : Nat → BitVec 64} (h : exec i s = .next (s.setVV d f)) (hf : ∀ l, f l = g l) :
    Gives i s fun t => LanePairResult s t d g := ⟨_, h, funext hf ▸ setVV_result s d f⟩

theorem gives_setF {i : Instr} {s : State} {d : BitVec 7} {f g : Nat → FRes} (h : exec i s = .next (s.setF d f)) (hf : ∀ l, f l = g l) :
    Gives i s fun t => FloatResult s t d g := ⟨_, h, funext hf ▸ setF_result s d f⟩

theorem gives_setP {i : Instr} {s : State} {d : BitVec 3} {f g : Nat → Bool} (h : exec i s = .next (s.setP d f)) (hf : ∀ l, f l = g l) :
    Gives i s fun t => PredResult s t d g := ⟨_, h, funext hf ▸ setP_result s d f⟩

theorem gives_setU {i : Instr} {s : State} {d : BitVec 6} {x y : Word} (h : exec i s = .next (s.setU d x)) (hx : x = y) :
    Gives i s fun t => UniformResult s t (one d y) := ⟨_, h, hx ▸ setU_result s d x⟩

theorem gives_setU_bits {i : Instr} {s : State} {d : BitVec 6} {x : Word} {g : Nat → Bool} (h : exec i s = .next (s.setU d x))
    (hx : ∀ k, k < 32 → x.getLsbD k = g k) :
    Gives i s fun t => ∃ r, UniformResult s t (one d r) ∧ ∀ k, k < 32 → r.getLsbD k = g k := ⟨_, h, x, setU_result s d x, hx⟩

theorem gives_setUU {i : Instr} {s : State} {d : BitVec 6} {x y : BitVec 64} (h : exec i s = .next (s.setUU d x)) (hx : x = y) :
    Gives i s fun t => UniformResult s t (pair d y) := ⟨_, h, hx ▸ setUU_result s d x⟩

end Sys2Proof.Machine
end

