-- ==== Sys2Proof/Laws/Arith.lean ====
section
/-! SUPPORT. What the integer helpers compute, in terms of integers and bits. -/

namespace Sys2Proof.Machine

theorem add_ofNat (a b : Word) : a + b = BitVec.ofNat 32 (a.toNat + b.toNat) := by
  apply BitVec.eq_of_toNat_eq; simp

theorem mul_ofNat (a b : Word) : a * b = BitVec.ofNat 32 (a.toNat * b.toNat) := by
  apply BitVec.eq_of_toNat_eq; simp

theorem mad_ofNat (a b d : Word) : a * b + d = BitVec.ofNat 32 (a.toNat * b.toNat + d.toNat) := by
  apply BitVec.eq_of_toNat_eq; simp

theorem sub_ofInt (a b : Word) : a - b = BitVec.ofInt 32 ((a.toNat : Int) - b.toNat) := by
  apply BitVec.eq_of_toInt_eq
  rw [BitVec.toInt_sub, BitVec.toInt_ofInt]
  simp [BitVec.toInt_eq_toNat_bmod, Int.sub_bmod]

theorem neg_ofInt (a : Word) : -a = BitVec.ofInt 32 (-(a.toNat : Int)) := by
  have h := sub_ofInt 0 a
  simpa using h

/-- imulh.n32 (06_integer R146). -/
theorem mulhN_eq (a b : Word) : mulhN a b = BitVec.ofNat 32 (a.toNat * b.toNat / 2 ^ 32) := by
  apply BitVec.eq_of_toNat_eq
  have h : a.toNat * b.toNat < 2 ^ 64 := by
    have := Nat.mul_lt_mul'' a.isLt b.isLt
    simpa using this
  simp only [mulhN, BitVec.toNat_setWidth, BitVec.toNat_ushiftRight, BitVec.toNat_mul, BitVec.toNat_ofNat, Nat.shiftRight_eq_div_pow]
  rw [Nat.mod_eq_of_lt (a := a.toNat) (by have := a.isLt; omega), Nat.mod_eq_of_lt (a := b.toNat) (by have := b.isLt; omega),
    Nat.mod_eq_of_lt h]

/-- imulh.i32 (06_integer R146). -/
theorem mulhI_eq (a b : Word) : mulhI a b = BitVec.ofInt 32 (a.toInt * b.toInt / 2 ^ 32) := by
  have ha := BitVec.toInt_lt (x := a); have ha' := BitVec.le_toInt (x := a)
  have hb := BitVec.toInt_lt (x := b); have hb' := BitVec.le_toInt (x := b)
  have e : a.signExtend 64 * b.signExtend 64 = BitVec.ofInt 64 (a.toInt * b.toInt) := by
    apply BitVec.eq_of_toInt_eq
    rw [BitVec.toInt_mul, BitVec.toInt_signExtend_of_le (by omega), BitVec.toInt_signExtend_of_le (by omega), BitVec.toInt_ofInt]
  norm_num at ha ha' hb hb'
  have h1 : -2 ^ 63 ≤ a.toInt * b.toInt := by nlinarith
  have h2 : a.toInt * b.toInt < 2 ^ 63 := by nlinarith
  unfold mulhI
  rw [e]
  apply BitVec.eq_of_toNat_eq
  simp only [BitVec.toNat_setWidth, BitVec.toNat_ushiftRight, BitVec.toNat_ofInt, Nat.shiftRight_eq_div_pow]
  push_cast
  omega

theorem minI_eq (a b : Word) : minI a b = if a.toInt ≤ b.toInt then a else b := by
  simp [minI, BitVec.sle]
theorem maxI_eq (a b : Word) : maxI a b = if b.toInt ≤ a.toInt then a else b := by
  simp [maxI, BitVec.sle]
theorem minN_eq (a b : Word) : minN a b = if a.toNat ≤ b.toNat then a else b := by
  simp [minN, BitVec.le_def]
theorem maxN_eq (a b : Word) : maxN a b = if b.toNat ≤ a.toNat then a else b := by
  simp [maxN, BitVec.le_def]

theorem absW_eq (a : Word) : absW a = BitVec.ofNat 32 a.toInt.natAbs := by
  unfold absW
  have hl := a.isLt
  by_cases h : a.slt 0
  · rw [if_pos h]
    have hn : a.toInt < 0 := by simpa [BitVec.slt] using h
    have e : a.toInt.natAbs = 2 ^ 32 - a.toNat := by
      rw [BitVec.toInt_eq_toNat_cond] at hn ⊢; split at hn <;> omega
    apply BitVec.eq_of_toNat_eq
    rw [e, BitVec.toNat_neg, BitVec.toNat_ofNat]
  · rw [if_neg h]
    have hn : 0 ≤ a.toInt := by simpa [BitVec.slt] using h
    have e : a.toInt.natAbs = a.toNat := by
      rw [BitVec.toInt_eq_toNat_cond] at hn ⊢; split at hn <;> omega
    rw [e]; simp

theorem lea_eq (a : BitVec 64) (b : Word) : a + b.signExtend 64 = BitVec.ofInt 64 (a.toNat + b.toInt) := by
  apply BitVec.eq_of_toInt_eq
  rw [BitVec.toInt_add, BitVec.toInt_ofInt, BitVec.toInt_signExtend_of_le (by omega), BitVec.toInt_eq_toNat_bmod, Int.bmod_add_bmod]

theorem add64_ofNat (a b : BitVec 64) : a + b = BitVec.ofNat 64 (a.toNat + b.toNat) := by
  apply BitVec.eq_of_toNat_eq; simp

/-- shl (06_integer R143): a count of 32 or more leaves 0. -/
theorem shl_eq (a c : Word) : a <<< c = BitVec.ofNat 32 (a.toNat * 2 ^ c.toNat) := by
  apply BitVec.eq_of_toNat_eq
  simp [BitVec.shiftLeft_eq', Nat.shiftLeft_eq]

theorem shr_eq (a c : Word) : a >>> c = BitVec.ofNat 32 (a.toNat / 2 ^ c.toNat) := by
  apply BitVec.eq_of_toNat_eq
  have : a.toNat / 2 ^ c.toNat < 2 ^ 32 := Nat.lt_of_le_of_lt (Nat.div_le_self _ _) a.isLt
  simp only [BitVec.ushiftRight_eq', BitVec.toNat_ushiftRight, BitVec.toNat_ofNat, Nat.shiftRight_eq_div_pow]
  exact (Nat.mod_eq_of_lt this).symm

theorem sarW_eq (a c : Word) : sarW a c = BitVec.ofInt 32 (a.toInt / 2 ^ c.toNat) := by
  apply BitVec.eq_of_toInt_eq
  rw [sarW, BitVec.toInt_sshiftRight, BitVec.toInt_ofInt, Int.shiftRight_eq_div_pow]
  push_cast
  symm
  have h1 := BitVec.toInt_lt (x := a); have h2 := BitVec.le_toInt (x := a)
  norm_num at h1 h2
  have hp : (1 : Int) ≤ 2 ^ c.toNat := one_le_pow₀ (by norm_num)
  have hq : a.toInt / 2 ^ c.toNat < 2 ^ 31 := by
    apply Int.ediv_lt_of_lt_mul (by omega); nlinarith
  have hr : -2 ^ 31 ≤ a.toInt / 2 ^ c.toNat := by
    apply Int.le_ediv_of_mul_le (by omega); nlinarith
  rw [Int.bmod_eq_of_le] <;> omega

theorem rotW_getLsbD (a c : Word) (i : Nat) (h : i < 32) :
    (rotW a c).getLsbD i = a.getLsbD ((i + (32 - c.toNat % 32)) % 32) := by
  have hm : c.toNat % 32 < 32 := Nat.mod_lt _ (by omega)
  unfold rotW
  rw [BitVec.getLsbD_rotateLeft]
  simp only [Nat.mod_mod]
  by_cases hi : i < c.toNat % 32
  · simp only [hi, decide_true, cond_true]
    congr 1; omega
  · simp only [hi, h, decide_false, decide_true, cond_false, Bool.true_and]
    congr 1; omega

theorem popNat_eq (a : Word) (n : Nat) : popNat a n = ((List.range n).filter fun i => a.getLsbD i).length := by
  induction n with
  | zero => rfl
  | succ n ih => rw [popNat, List.range_succ, List.filter_append, List.length_append, ih]; by_cases h : a.getLsbD n <;> simp [h]; omega

theorem shl_bit (a c : Word) (i : Nat) (h : i < 32) : (a <<< c).getLsbD i = (decide (c.toNat ≤ i) && a.getLsbD (i - c.toNat)) := by
  by_cases hc : c.toNat ≤ i
  · rw [BitVec.shiftLeft_eq', BitVec.getLsbD_shiftLeft]
    simp [h, hc, Nat.not_lt.2 hc]
  · simp [BitVec.shiftLeft_eq', hc, Nat.lt_of_not_le hc]

theorem shr_bit (a c : Word) (i : Nat) : (a >>> c).getLsbD i = a.getLsbD (i + c.toNat) := by
  simp [BitVec.ushiftRight_eq', Nat.add_comm]

theorem sarW_bit (a c : Word) (i : Nat) (h : i < 32) : (sarW a c).getLsbD i = a.getLsbD (min (i + c.toNat) 31) := by
  unfold sarW
  rw [BitVec.getLsbD_sshiftRight]
  by_cases hi : c.toNat + i < 32
  · have : min (i + c.toNat) 31 = c.toNat + i := by omega
    simp [h, hi, this]
  · have : min (i + c.toNat) 31 = 31 := by omega
    simp [h, hi, this, BitVec.msb_eq_getLsbD_last]

theorem clzW_eq (a : Word) : clzW a = BitVec.ofNat 32 ((List.range 32).takeWhile fun i => !a.getLsbD (31 - i)).length := by
  have key : ∀ n, n ≤ 32 → clzNat a n = (((List.range n).map fun i => 32 - n + i).takeWhile fun i => !a.getLsbD (31 - i)).length := by
    intro n
    induction n with
    | zero => intro _; rfl
    | succ n ih =>
      intro hn
      have e : (List.range (n + 1)).map (fun i => 32 - (n + 1) + i) = (32 - (n + 1)) :: (List.range n).map (fun i => 32 - n + i) := by
        rw [List.range_succ_eq_map]; simp; intro x _; omega
      rw [e, List.takeWhile_cons, clzNat]
      have e2 : 31 - (32 - (n + 1)) = n := by omega
      rw [e2]
      by_cases hb : a.getLsbD n <;> simp [hb, ih (by omega)]
      omega
  unfold clzW
  rw [key 32 (by omega)]
  simp

theorem popW_eq (a : Word) : popW a = BitVec.ofNat 32 ((List.range 32).filter fun i => a.getLsbD i).length := by
  unfold popW; rw [popNat_eq]

theorem brevW_bit (a : Word) (i : Nat) (h : i < 32) : (brevW a).getLsbD i = a.getLsbD (31 - i) := by
  unfold brevW; exact maskOf_getLsbD _ i h

theorem brevW_eq (a : Word) : brevW a = BitVec.ofNat 32 ((List.range 32).map fun i => if a.getLsbD i then 2 ^ (31 - i) else 0).sum := by
  have h1 : ∀ (f : Nat → Bool) n, maskNat f n = ∑ i ∈ Finset.range n, if f i then 2 ^ i else 0 := by
    intro f n
    induction n with
    | zero => rfl
    | succ n ih => rw [maskNat, Finset.sum_range_succ, ih]
  have h2 : ∀ (g : Nat → Nat) n, ((List.range n).map g).sum = ∑ i ∈ Finset.range n, g i := by
    intro g n
    induction n with
    | zero => rfl
    | succ n ih => simp [List.range_succ, Finset.sum_range_succ, ih]
  unfold brevW maskOf
  rw [h1, h2, ← Finset.sum_range_reflect]
  congr 1

theorem intOf_eq (n x : Nat) (h : 0 < n) : intOf n true x = (BitVec.ofNat n x).toInt := by
  obtain ⟨m, rfl⟩ : ∃ m, n = m + 1 := ⟨n - 1, by omega⟩
  unfold intOf
  have e : (2 : Nat) ^ (m + 1) = 2 * 2 ^ m := by rw [Nat.pow_succ, Nat.mul_comm]
  rw [BitVec.toInt_eq_toNat_cond]
  simp only [BitVec.toNat_ofNat, Bool.true_and, Nat.add_sub_cancel, decide_eq_true_eq]
  by_cases hc : 2 ^ m ≤ x % 2 ^ (m + 1)
  · have : ¬ 2 * (x % 2 ^ (m + 1)) < 2 ^ (m + 1) := by omega
    rw [if_pos hc, if_neg this]
  · have : 2 * (x % 2 ^ (m + 1)) < 2 ^ (m + 1) := by omega
    rw [if_neg hc, if_pos this]

theorem bfeI_bit (a b : Word) (i : Nat) (h : i < 32) :
    (bfeI a b).getLsbD i = (decide (0 < fieldLen b) && a.getLsbD (min i (fieldLen b - 1) + fieldPos b)) := by
  unfold bfeI
  by_cases hl : fieldLen b = 0
  · simp [hl]
  · rw [if_neg hl, intOf_eq _ _ (by omega)]
    have e : BitVec.ofInt 32 (BitVec.ofNat (fieldLen b) (a.toNat / 2 ^ fieldPos b)).toInt =
        (BitVec.ofNat (fieldLen b) (a.toNat / 2 ^ fieldPos b)).signExtend 32 := rfl
    rw [e, BitVec.getLsbD_signExtend]
    have h0 : 0 < fieldLen b := by omega
    by_cases hi : i < fieldLen b
    · have : min i (fieldLen b - 1) = i := by omega
      simp [h, hi, h0, this, Nat.testBit_div_two_pow, BitVec.getLsbD]
    · have : min i (fieldLen b - 1) = fieldLen b - 1 := by omega
      simp [h, hi, h0, this, BitVec.msb_eq_getLsbD_last, Nat.testBit_div_two_pow, BitVec.getLsbD]

theorem bfeN_bit (a b : Word) (i : Nat) : (bfeN a b).getLsbD i = (decide (i < fieldLen b) && a.getLsbD (i + fieldPos b)) := by
  have hl : fieldLen b ≤ 32 := by unfold fieldLen; omega
  unfold bfeN
  rw [BitVec.getLsbD_ofNat, Nat.testBit_mod_two_pow, Nat.testBit_div_two_pow]
  by_cases h : i < fieldLen b
  · have : i < 32 := by omega
    simp [h, this, BitVec.getLsbD]
  · simp [h]

theorem bilvW_bit (a b : Word) (i : Nat) (h : i < 32) :
    (bilvW a b).getLsbD i = (List.range 32).any fun j => decide (ilvStr b * j + ilvOfs b = i) && a.getLsbD j := by
  unfold bilvW
  rw [maskOf_getLsbD _ i h, Bool.eq_iff_iff]
  have hs : 0 < ilvStr b := by unfold ilvStr; omega
  simp only [Bool.and_eq_true, decide_eq_true_eq, beq_iff_eq, List.any_eq_true, List.mem_range]
  constructor
  · rintro ⟨⟨h1, h2⟩, h3⟩
    refine ⟨(i - ilvOfs b) / ilvStr b, ?_, ?_, h3⟩
    · exact Nat.lt_of_le_of_lt (Nat.div_le_self _ _) (by omega)
    · rw [Nat.mul_div_cancel' (Nat.dvd_of_mod_eq_zero h2)]; omega
  · rintro ⟨j, _, rfl, hj⟩
    refine ⟨⟨by omega, by simp⟩, ?_⟩
    rwa [Nat.add_sub_cancel, Nat.mul_div_cancel_left _ hs]

theorem bdlvW_bit (a b : Word) (i : Nat) (h : i < 32) : (bdlvW a b).getLsbD i = a.getLsbD (ilvStr b * i + ilvOfs b) := by
  unfold bdlvW
  rw [maskOf_getLsbD _ i h]
  by_cases hk : ilvStr b * i + ilvOfs b ≤ 31
  · simp [hk]
  · simp [hk, BitVec.getLsbD_of_ge a (ilvStr b * i + ilvOfs b) (by omega)]

theorem bfiW_bit (d a b : Word) (i : Nat) (h : i < 32) : (bfiW d a b).getLsbD i =
    if fieldPos b ≤ i ∧ i < fieldPos b + fieldLen b then a.getLsbD (i - fieldPos b) else d.getLsbD i := by
  unfold bfiW
  simp only [BitVec.getLsbD_or, BitVec.getLsbD_and, BitVec.getLsbD_not, BitVec.getLsbD_ofNat, h, decide_true, Bool.true_and,
    Nat.testBit_mul_two_pow, Nat.testBit_two_pow_sub_one]
  by_cases h1 : fieldPos b ≤ i
  · by_cases h2 : i < fieldPos b + fieldLen b
    · have : i - fieldPos b < fieldLen b := by omega
      simp [h1, h2, this, BitVec.getLsbD]
    · have : ¬ i - fieldPos b < fieldLen b := by omega
      simp [h1, h2, this]
  · simp [h1]

theorem mul_const_toNat (x : Word) (k : Nat) : (x * BitVec.ofNat 32 k).toNat = x.toNat * (k % 2^32) % 2 ^ 32 := by
  rw [BitVec.toNat_mul, BitVec.toNat_ofNat]
theorem mix32_steps (k1 k2 k3 k4 : Nat) (h1 : k1 % 2^32 = k1) (h2 : k2 % 2^32 = k2) (h3 : k3 % 2^32 = k3) (h4 : k4 % 2^32 = k4) (a b : Word) :
  (let x := a ^^^ (b * BitVec.ofNat 32 k1)
  let x := x + BitVec.ofNat 32 k2
  let x := x ^^^ (x >>> 16)
  let x := x * BitVec.ofNat 32 k3
  let x := x ^^^ (x >>> 15)
  let x := x * BitVec.ofNat 32 k4
  x ^^^ (x >>> 16)) = (let x := a.toNat ^^^ (b.toNat * k1 % 2 ^ 32)
    let x := (x + k2) % 2 ^ 32
    let x := x ^^^ (x / 2 ^ 16)
    let x := x * k3 % 2 ^ 32
    let x := x ^^^ (x / 2 ^ 15)
    let x := x * k4 % 2 ^ 32
    BitVec.ofNat 32 (x ^^^ (x / 2 ^ 16))) := by
  extract_lets x1 x2 x3 x4 x5 x6 y1 y2 y3 y4 y5 y6
  have e1 : x1.toNat = y1 := by simp only [x1, y1, BitVec.toNat_xor, mul_const_toNat, h1]
  have e2 : x2.toNat = y2 := by simp only [x2, y2, BitVec.toNat_add, BitVec.toNat_ofNat, h2, e1]
  have e3 : x3.toNat = y3 := by simp only [x3, y3, BitVec.toNat_xor, BitVec.toNat_ushiftRight, Nat.shiftRight_eq_div_pow, e2]
  have e4 : x4.toNat = y4 := by simp only [x4, y4, mul_const_toNat, h3, e3]
  have e5 : x5.toNat = y5 := by simp only [x5, y5, BitVec.toNat_xor, BitVec.toNat_ushiftRight, Nat.shiftRight_eq_div_pow, e4]
  have e6 : x6.toNat = y6 := by simp only [x6, y6, mul_const_toNat, h4, e5]
  apply BitVec.eq_of_toNat_eq
  rw [BitVec.toNat_ofNat, ← e6, BitVec.toNat_xor, BitVec.toNat_ushiftRight, Nat.shiftRight_eq_div_pow]
  symm
  apply Nat.mod_eq_of_lt
  exact Nat.xor_lt_two_pow x6.isLt (Nat.lt_of_le_of_lt (Nat.div_le_self _ _) x6.isLt)
/-- mix32 (06_integer R154), over natural numbers. -/
theorem mix32_eq (a b : Word) : mix32 a b = (
    let x := a.toNat ^^^ (b.toNat * 0x9E3B71A5 % 2 ^ 32)
    let x := (x + 0x3C6EF372) % 2 ^ 32
    let x := x ^^^ (x / 2 ^ 16)
    let x := x * 0x6A5D39C3 % 2 ^ 32
    let x := x ^^^ (x / 2 ^ 15)
    let x := x * 0xB45F2E1B % 2 ^ 32
    BitVec.ofNat 32 (x ^^^ (x / 2 ^ 16))) := mix32_steps 0x9E3B71A5 0x3C6EF372 0x6A5D39C3 0xB45F2E1B (by norm_num) (by norm_num) (by norm_num) (by norm_num) a b

end Sys2Proof.Machine
end

