-- ==== Sys2Proof/Laws/Memory.lean ====
section
/-! SUPPORT. Reads and writes of memory: what a byte and a little-endian value read as after a write, that a write changes memory and the
journal alone, and that every memory operation keeps the canonical form. -/

namespace Sys2Proof.Machine

@[simp] theorem length_leBytes (n v : Nat) : (leBytes n v).length = n := by
  induction n generalizing v with
  | zero => rfl
  | succ n ih => simp [leBytes, ih]

/-- Little-endian bytes read back (00_scope R3). -/
theorem leNat_leBytes (n v : Nat) : leNat (leBytes n v) = v % 256 ^ n := by
  induction n generalizing v with
  | zero => simp [leBytes, leNat, Nat.mod_one]
  | succ n ih =>
    rw [leBytes, leNat, ih, BitVec.toNat_ofNat, Nat.pow_succ 256, Nat.mul_comm (256 ^ n), Nat.mod_mul]


theorem leNat_lt (bs : List (BitVec 8)) : leNat bs < 256 ^ bs.length := by
  induction bs with
  | nil => simp [leNat]
  | cons b bs ih => simp only [leNat, List.length_cons, Nat.pow_succ]; have := b.isLt; omega

theorem rd_lt (s : State) (k n : Nat) : s.rd k n < 256 ^ n := by
  have h := leNat_lt (s.bytes k n)
  simpa [State.bytes, smGets, State.rd] using h

/-- A write of bytes changes memory and the journal alone. -/
theorem put_frame (s : State) (k : Nat) (bs : List (BitVec 8)) : s.put k bs = { s with mem := (s.put k bs).mem, journal := (s.put k bs).journal } := by
  unfold State.put; split <;> rfl

theorem wr_frame (s : State) (k n v : Nat) : s.wr k n v = { s with mem := (s.wr k n v).mem, journal := (s.wr k n v).journal } :=
  put_frame s k _

/-- A byte after a write of bytes. -/
theorem byte_put (s : State) (k : Nat) (bs : List (BitVec 8)) (a : Nat) :
    (s.put k bs).byte a = if h : k ≤ a ∧ a < k + bs.length then bs[a - k]'(by omega) else s.byte a := by
  unfold State.put
  cases bs with
  | nil => simp
  | cons b bs => simp only [State.byte]; exact smGet_smPuts _ _ _ _

theorem byte_put_ne (s : State) (k : Nat) (bs : List (BitVec 8)) (a : Nat) (h : ¬ (k ≤ a ∧ a < k + bs.length)) : (s.put k bs).byte a = s.byte a := by
  rw [byte_put, dif_neg h]

theorem byte_wr_ne (s : State) (k n v a : Nat) (h : ¬ (k ≤ a ∧ a < k + n)) : (s.wr k n v).byte a = s.byte a :=
  byte_put_ne s k _ a (by simpa using h)

theorem rd_congr {s t : State} {k n : Nat} (h : ∀ a, k ≤ a → a < k + n → t.byte a = s.byte a) : t.rd k n = s.rd k n := by
  unfold State.rd State.bytes smGets
  congr 1
  apply List.map_congr_left
  intro i hi
  have := List.mem_range.1 hi
  exact h (k + i) (by omega) (by omega)

theorem rd_put_ne (s : State) (k : Nat) (bs : List (BitVec 8)) (a n : Nat) (h : a + n ≤ k ∨ k + bs.length ≤ a) : (s.put k bs).rd a n = s.rd a n :=
  rd_congr fun x _ _ => byte_put_ne s k bs x (by omega)

theorem rd_wr_ne (s : State) (k m v a n : Nat) (h : a + n ≤ k ∨ k + m ≤ a) : (s.wr k m v).rd a n = s.rd a n :=
  rd_put_ne s k _ a n (by simpa using h)

/-- Reading a field of bytes just written. -/
theorem rd_put (s : State) (k : Nat) (bs : List (BitVec 8)) (j n : Nat) (h : j + n ≤ bs.length) :
    (s.put k bs).rd (k + j) n = leNat ((bs.drop j).take n) := by
  unfold State.rd State.bytes smGets
  congr 1
  apply List.ext_getElem
  · simp; omega
  · intro i h1 h2
    simp only [List.length_map, List.length_range] at h1
    rw [List.getElem_map, List.getElem_range, List.getElem_take, List.getElem_drop]
    show (s.put k bs).byte (k + j + i) = _
    rw [byte_put, dif_pos (by omega)]
    congr 1; omega

/-- Reading back a value just written. -/
theorem rd_wr (s : State) (k n v : Nat) : (s.wr k n v).rd k n = v % 256 ^ n := by
  have h := rd_put s k (leBytes n v) 0 n (by simp)
  simp only [Nat.add_zero, List.drop_zero] at h
  rw [State.wr, h, List.take_of_length_le (by simp), leNat_leBytes]

theorem rd64_wr (s : State) (k : Nat) (v : BitVec 64) : (s.wr k 8 v.toNat).rd64 k = v := by
  unfold State.rd64
  rw [rd_wr]
  apply BitVec.eq_of_toNat_eq
  rw [BitVec.toNat_ofNat]
  have := v.isLt
  have h : (256 : Nat) ^ 8 = 2 ^ 64 := by norm_num
  rw [h]; omega

/-- Every write keeps the canonical form of memory. -/
theorem put_wf (s : State) (k : Nat) (bs : List (BitVec 8)) (h : s.MemOk) : (s.put k bs).MemOk := by
  unfold State.put
  cases bs with
  | nil => exact h
  | cons b bs => exact smWf_smPuts s.mem k _ h

theorem wr_wf (s : State) (k n v : Nat) (h : s.MemOk) : (s.wr k n v).MemOk := put_wf s k _ h

theorem clear_wf (s : State) (k n : Nat) (h : s.MemOk) : (s.clear k n).MemOk := smWf_smClear s.mem k n h

/-- A region's bytes at another place keep the canonical form, where that place holds nothing. -/
theorem smWf_shift (m : List Host.Cell) (src dst n : Nat) (h : smWf unwritten 0 m = true) (r : List Host.Cell) (hr : smWf unwritten src r = true)
    (hn : ∀ x ∈ r, src ≤ x.1 ∧ x.1 < src + n) (hm : ∀ x ∈ m, x.1 < dst ∨ dst + n ≤ x.1) :
    smWf unwritten 0 (m.filter (fun x => decide (x.1 < dst)) ++ r.map (fun x => (x.1 - src + dst, x.2)) ++ m.filter (fun x => decide (dst ≤ x.1))) = true := by
  have key : ∀ (q : List Host.Cell) (lo : Nat), src ≤ lo → smWf unwritten lo q = true → smWf unwritten (lo - src + dst) (q.map fun x => (x.1 - src + dst, x.2)) = true := by
    intro q
    induction q with
    | nil => intros; rfl
    | cons x t ih =>
      intro lo hlo w
      obtain ⟨a, v⟩ := x
      simp only [smWf, Bool.and_eq_true, decide_eq_true_eq, List.map_cons] at w ⊢
      refine ⟨⟨by omega, w.1.2⟩, ?_⟩
      have := ih (a + 1) (by omega) w.2
      rwa [show a + 1 - src + dst = a - src + dst + 1 by omega] at this
  apply smWf_append (mid := dst + n)
  · apply smWf_append (mid := dst)
    · exact smWf_filter m 0 _ h
    · simpa using key r src le_rfl hr
    · intro x hx; simp at hx; exact hx.2
    · omega
  · have e : (m.filter fun x => decide (dst ≤ x.1)) = m.filter fun x => decide (dst + n ≤ x.1) := by
      apply List.filter_congr; intro x hx; have := hm x hx; rw [decide_eq_decide]; omega
    rw [e]; exact smWf_filter_ge m 0 _ h
  · intro x hx
    rcases List.mem_append.1 hx with hx | hx
    · simp at hx; omega
    · obtain ⟨y, hy, rfl⟩ := List.mem_map.1 hx; have := hn y hy; show y.1 - src + dst < dst + n; omega
  · omega

theorem smWf_run (m : List Host.Cell) (src n : Nat) (h : smWf unwritten 0 m = true) :
    smWf unwritten src (m.filter fun x => decide (src ≤ x.1) && decide (x.1 < src + n)) = true := by
  have e : (m.filter fun x => decide (src ≤ x.1) && decide (x.1 < src + n)) = (m.filter fun x => decide (src ≤ x.1)).filter fun x => decide (x.1 < src + n) := by
    rw [List.filter_filter]; apply List.filter_congr; intro x _; rw [Bool.and_comm]
  rw [e]; exact smWf_filter _ src _ (smWf_filter_ge m 0 src h)

theorem mem_smClear (m : List Host.Cell) (k n : Nat) (x : Host.Cell) (h : x ∈ smClear m k n) : x ∈ m ∧ (x.1 < k ∨ k + n ≤ x.1) := by
  simpa [smClear] using h

/-- Moving a region keeps the canonical form (05_events R138). -/
theorem move_wf (s : State) (src dst n : Nat) (h : s.MemOk) : (s.move src dst n).MemOk :=
  smWf_shift _ src dst n (smWf_smClear _ src n (smWf_smClear s.mem dst n h)) _ (smWf_run s.mem src n h)
    (fun x hx => by simpa using (List.mem_filter.1 hx).2) fun x hx => (mem_smClear _ _ _ x (mem_smClear _ _ _ x hx).1).2

/-- Copying a range keeps the canonical form (10_translation R249). -/
theorem copyRange_wf (s : State) (src dst n : Nat) (h : s.MemOk) : (s.copyRange src dst n).MemOk :=
  smWf_shift _ src dst n (smWf_smClear s.mem dst n h) _ (smWf_run s.mem src n h)
    (fun x hx => by simpa using (List.mem_filter.1 hx).2) fun x hx => (mem_smClear _ _ _ x hx).2

/-- Writes at several places keep the canonical form. -/
theorem putAll_wf (s : State) (ws : List (Nat × BitVec 8)) (h : s.MemOk) : (s.putAll ws).MemOk := by
  unfold State.putAll State.MemOk Memory.wf
  have key : ∀ (q : List (Nat × BitVec 8)) (m : List Host.Cell), smWf unwritten 0 m = true → smWf unwritten 0 (q.foldl (fun m w => smPut unwritten m w.1 w.2) m) = true := by
    intro q
    induction q with
    | nil => intro m h; exact h
    | cons w t ih => intro m h; exact ih _ (smWf_smPut m _ _ h)
  exact key ws s.mem h

end Sys2Proof.Machine
end

