-- ==== Sys2Proof/Laws/Paths.lean ====
section
/-! SUPPORT. What the operations on paths do in a warp that is not traced: moves and splits (04_control R97). -/

namespace Sys2Proof.Machine

theorem trace_off (s : State) (ty path : Nat) (a : BitVec 32) (b : BitVec 64) (h : s.me.trc.on = false) : s.trace ty path a b = s := by
  unfold State.trace; simp [h]

theorem traceLoss_off (s : State) (path : Nat) (h : s.me.trc.on = false) : s.traceLoss path = s := by
  unfold State.traceLoss; simp [h]

theorem traceBranch_off (s : State) (f t : BitVec 48) (h : s.me.trc.on = false) : s.traceBranch f t = s := by
  unfold State.traceBranch; simp [traceLoss_off _ _ h, trace_off _ _ _ _ _ h]

theorem laneBit_getLsbD (l m : Nat) (hm : m < 32) : (laneBit l).getLsbD m = decide (m = l) := by
  unfold laneBit
  rw [BitVec.getLsbD_ofNat, Nat.testBit_two_pow]
  by_cases h : l = m <;> simp [hm, h, eq_comm]

theorem mem_lanes (s : State) (l : Nat) : l ∈ s.lanes ↔ l < 32 ∧ s.act l = true := by
  simp [State.lanes, lanesOf, State.act]

/-- What a list of sets says of the lanes that went into it. -/
structure SetsOf (dest : Nat → Place) (done : List Nat) (sets : List (Place × BitVec 32)) : Prop where
  mask : ∀ x ∈ sets, ∀ m, m < 32 → x.2.getLsbD m = (decide (m ∈ done) && decide (dest m = x.1))
  all : ∀ m ∈ done, ∃ x ∈ sets, x.1 = dest m
  head : sets.head?.map Prod.fst = done.head?.map dest

theorem setsBy_spec (dest : Nat → Place) (ls done : List Nat) (acc : List (Place × BitVec 32)) (hls : ∀ l ∈ ls, l < 32)
    (h : SetsOf dest done acc) : SetsOf dest (done ++ ls) (setsBy dest ls acc) := by
  induction ls generalizing done acc with
  | nil => simpa [setsBy] using h
  | cons l ls ih =>
    have hl : l < 32 := hls l (by simp)
    have e : done ++ l :: ls = (done ++ [l]) ++ ls := by simp
    rw [setsBy, e]
    apply ih _ _ (fun x hx => hls x (by simp [hx]))
    by_cases hany : (acc.any fun x => x.1 == dest l) = true
    · rw [if_pos hany]
      refine ⟨?_, ?_, ?_⟩
      · intro x hx m hm
        obtain ⟨y, hy, rfl⟩ := List.mem_map.1 hx
        have hb := h.mask y hy m hm
        by_cases hd : (y.1 == dest l) = true
        · have hd' : y.1 = dest l := by simpa using hd
          rw [if_pos hd, BitVec.getLsbD_or, hb, laneBit_getLsbD l m hm, hd']
          by_cases hml : m = l <;> simp [hml]
        · have hd' : ¬ y.1 = dest l := by simpa using hd
          rw [if_neg hd, hb]
          by_cases hml : m = l
          · subst hml
            have : dest m ≠ y.1 := fun h' => hd' h'.symm
            simp [this]
          · simp [hml]
      · intro m hm
        rcases List.mem_append.1 hm with hm | hm
        · obtain ⟨x, hx, hxm⟩ := h.all m hm
          refine ⟨_, List.mem_map_of_mem hx, ?_⟩
          split <;> exact hxm
        · have : m = l := by simpa using hm
          subst this
          obtain ⟨x, hx, hxd⟩ := List.any_eq_true.1 hany
          refine ⟨_, List.mem_map_of_mem hx, ?_⟩
          rw [if_pos hxd]; simpa using hxd
      · have hne : done ≠ [] := by
          obtain ⟨x, hx, _⟩ := List.any_eq_true.1 hany
          intro h0
          have := h.head; rw [h0] at this
          cases acc with
          | nil => simp at hx
          | cons => simp at this
        have h1 := h.head
        cases done with
        | nil => exact absurd rfl hne
        | cons d ds =>
          cases acc with
          | nil => simp at h1
          | cons a as =>
            simp only [List.map_cons, List.head?_cons, Option.map_some, List.cons_append] at h1 ⊢
            split <;> exact h1
    · rw [if_neg hany]
      refine ⟨?_, ?_, ?_⟩
      · intro x hx m hm
        rcases List.mem_append.1 hx with hx' | hx
        · rw [h.mask x hx' m hm]
          by_cases hml : m = l
          · subst hml
            have : x.1 ≠ dest m := by
              intro hc; apply hany; rw [List.any_eq_true]; exact ⟨x, hx', by simpa using hc⟩
            simp [Ne.symm this]
          · simp [hml]
        · have : x = (dest l, laneBit l) := by simpa using hx
          subst this
          rw [laneBit_getLsbD l m hm]
          by_cases hml : m = l
          · simp [hml]
          · have : ¬ (m ∈ done ∧ dest m = dest l) := by
              rintro ⟨a, b⟩
              obtain ⟨y, hy, hyd⟩ := h.all m a
              apply hany; rw [List.any_eq_true]; exact ⟨y, hy, by simpa [hyd] using b⟩
            simp [hml]; intro a; exact fun b => this ⟨a, b⟩
      · intro m hm
        rcases List.mem_append.1 hm with hm | hm
        · obtain ⟨x, hx, hxm⟩ := h.all m hm
          exact ⟨x, List.mem_append_left _ hx, hxm⟩
        · have : m = l := by simpa using hm
          subst this
          exact ⟨(dest m, laneBit m), List.mem_append.2 (.inr (List.mem_singleton.2 rfl)), rfl⟩
      · have h1 := h.head
        cases acc with
        | nil => cases done with
          | nil => simp
          | cons d ds => simp at h1
        | cons a as => cases done with
          | nil => simp at h1
          | cons d ds => simpa using h1

theorem OnlyPaths.refl (s : State) : OnlyPaths s s := ⟨rfl, rfl⟩

theorem OnlyPaths.trans {s t u : State} (h : OnlyPaths s t) (k : OnlyPaths t u) : OnlyPaths s u := by
  refine ⟨?_, k.2.trans h.2⟩
  rw [k.1, h.1]

theorem inherit_heirs (s : State) (p i : Nat) :
    (s.inherit p i).accs.map (fun a => { a with heirs := [] }) = s.accs.map fun a => { a with heirs := [] } := by
  unfold State.inherit
  simp only [List.map_map]
  apply List.map_congr_left
  intro a _
  simp only [Function.comp]
  split <;> rfl

/-- The new paths of a split, in order. -/
def newPaths (st : PState) (parent : Path) (rest : List (Place × BitVec 32)) (u : State) : State :=
  rest.foldl (fun s x =>
    let i := s.me.freeId parent.id
    let q : Path := { parent with id := i, pc := x.1.1, wpos := x.1.2, mask := x.2, st := st, issued := 0, groups := 0 }
    let s := ({ s with me := s.me.addPath q } : State).inherit parent.id i
    s.trace 4 parent.id x.2 (BitVec.ofNat 64 (x.1.1.toNat + x.1.2 * 2 ^ 48 + i * 2 ^ 52))) u

/-- What a split leaves: the first set on the path in focus, one new path for each other set, and nothing else changed. -/
theorem splitInto_spec (s : State) (st : PState) (pl : Place) (m : BitVec 32) (rest : List (Place × BitVec 32)) (h : s.me.trc.on = false) :
    let t := s.splitInto st ((pl, m) :: rest)
    OnlyPaths s t ∧ t.me.cur = { s.me.cur with pc := pl.1, wpos := pl.2, mask := m, st := st } ∧
      ∀ x ∈ rest, ∃ q ∈ t.me.paths, q.pc = x.1.1 ∧ q.wpos = x.1.2 ∧ q.mask = x.2 ∧ q.st = st ∧ q.hmode = s.me.cur.hmode := by
  have key : ∀ (rest : List (Place × BitVec 32)) (parent : Path) (u : State), u.me.trc.on = false →
      let t := newPaths st parent rest u
      OnlyPaths u t ∧ t.me.cur = u.me.cur ∧ (∀ q ∈ u.me.paths, q ∈ t.me.paths) ∧
        ∀ x ∈ rest, ∃ q ∈ t.me.paths, q.pc = x.1.1 ∧ q.wpos = x.1.2 ∧ q.mask = x.2 ∧ q.st = st ∧ q.hmode = parent.hmode := by
    intro rest parent
    induction rest with
    | nil => intro u _; exact ⟨.refl u, rfl, fun q hq => hq, by simp⟩
    | cons x rest ih =>
      intro u hu t
      generalize hq : ({ parent with id := u.me.freeId parent.id, pc := x.1.1, wpos := x.1.2, mask := x.2, st := st, issued := 0, groups := 0 } : Path) = q
      generalize hv : ({ u with me := u.me.addPath q } : State).inherit parent.id (u.me.freeId parent.id) = v
      have hon : v.me.trc.on = false := by subst hv; exact hu
      have htr : ∀ a b c d, v.trace a b c d = v := fun a b c d => trace_off v a b c d hon
      have ht : t = newPaths st parent rest v := by
        simp only [t, newPaths, List.foldl_cons, hq, hv, htr]
      obtain ⟨h1, h2, h3, h4⟩ := ih v hon
      rw [← ht] at h1 h2 h3 h4
      have hvp : v.me.paths = u.me.paths ++ [q] := by subst hv; rfl
      refine ⟨?_, ?_, ?_, ?_⟩
      · refine OnlyPaths.trans ⟨?_, ?_⟩ h1
        · subst hv; rfl
        · subst hv; exact inherit_heirs { u with me := u.me.addPath q } _ _
      · rw [h2]; subst hv; rfl
      · intro y hy; exact h3 y (by rw [hvp]; simp [hy])
      · intro y hy
        rcases List.mem_cons.1 hy with rfl | hy
        · exact ⟨q, h3 q (by rw [hvp]; simp), by subst hq; exact ⟨rfl, rfl, rfl, rfl, rfl⟩⟩
        · exact h4 y hy
  intro t
  obtain ⟨h1, h2, _, h4⟩ := key rest { s.me.cur with pc := pl.1, wpos := pl.2, mask := m, st := st } (s.setCur { s.me.cur with pc := pl.1, wpos := pl.2, mask := m, st := st }) h
  exact ⟨OnlyPaths.trans ⟨rfl, rfl⟩ h1, h2, h4⟩

/-- Each active lane goes to its place (04_control R97). -/
theorem moveLanes_spec (s : State) (dest : Nat → Place) (taken : Nat → Bool) (h : s.me.trc.on = false) (hst : s.me.cur.st = .ready)
    (hw : ∀ l, taken l = true → (dest l).2 = 0) :
    OnlyPaths s (s.moveLanes dest taken) ∧ LanesGo s (s.moveLanes dest taken) dest := by
  have hlt : ∀ l ∈ s.lanes, l < 32 := fun l hl => ((mem_lanes s l).1 hl).1
  have hs := setsBy_spec dest s.lanes [] [] hlt ⟨by simp, by simp, rfl⟩
  rw [List.nil_append] at hs
  have hmem : ∀ m, m < 32 → decide (m ∈ s.lanes) = s.act m := by
    intro m hm; rw [Bool.eq_iff_iff, decide_eq_true_eq, mem_lanes]; simp [hm]
  -- the lowest active lane heads the list
  have hfirst : ∀ l, l < 32 → s.act l = true → (∀ m, m < l → s.act m = false) → s.lanes.head? = some l := by
    intro l hl ha hm
    have hsort : s.lanes.Pairwise (· < ·) := List.Pairwise.filter _ List.pairwise_lt_range
    have hin : l ∈ s.lanes := (mem_lanes s l).2 ⟨hl, ha⟩
    cases hc : s.lanes with
    | nil => rw [hc] at hin; simp at hin
    | cons x xs =>
      rw [hc] at hin hsort
      have hx := (mem_lanes s x).1 (by rw [hc]; simp)
      rcases List.mem_cons.1 hin with rfl | hin
      · rfl
      · have := (List.pairwise_cons.1 hsort).1 l hin
        have := hm x this; rw [hx.2] at this; exact absurd this (by decide)
  unfold State.moveLanes
  cases hc : setsBy dest s.lanes [] with
  | nil =>
    rw [hc] at hs
    refine ⟨.refl s, fun _ => {}, fun l hl ha => ?_⟩
    obtain ⟨x, hx, _⟩ := hs.all l ((mem_lanes s l).2 ⟨hl, ha⟩)
    simp at hx
  | cons x rest =>
    obtain ⟨pl, mk⟩ := x
    rw [hc] at hs
    cases rest with
    | nil =>
      -- all lanes go to one place
      have hpl : ∀ l, l < 32 → s.act l = true → dest l = pl := by
        intro l hl ha
        obtain ⟨x, hx, hxd⟩ := hs.all l ((mem_lanes s l).2 ⟨hl, ha⟩)
        have : x = (pl, mk) := by simpa using hx
        rw [← hxd, this]
      have hgo : ∀ u, u = s.goto pl.1 pl.2 → OnlyPaths s u ∧ LanesGo s u dest := by
        rintro u rfl
        refine ⟨⟨rfl, rfl⟩, fun _ => (s.goto pl.1 pl.2).me.cur, fun l hl ha => ⟨by simp, hst, ?_, rfl, ?_, fun _ => ⟨rfl, rfl⟩⟩⟩
        · rw [hpl l hl ha]; rfl
        · intro m hm
          show s.me.cur.mask.getLsbD m = _
          by_cases hma : s.act m = true
          · rw [hpl l hl ha, hpl m hm hma]; simp; rfl
          · have : s.act m = false := by simpa using hma
            rw [this]; exact this
      show OnlyPaths s (if s.lanes.any taken then s.jump pl.1 else s.goto pl.1 pl.2) ∧ LanesGo s (if s.lanes.any taken then s.jump pl.1 else s.goto pl.1 pl.2) dest
      split
      · rename_i ht
        obtain ⟨l, hl, hlt⟩ := List.any_eq_true.1 ht
        have hl' := (mem_lanes s l).1 hl
        apply hgo
        unfold State.jump
        rw [traceBranch_off _ _ _ h]
        rw [← hpl l hl'.1 hl'.2, hw l hlt]
      · exact hgo _ rfl
    | cons y rest =>
      show OnlyPaths s (s.splitInto .ready ((pl, mk) :: y :: rest)) ∧ _
      obtain ⟨h1, h2, h3⟩ := splitInto_spec s .ready pl mk (y :: rest) h
      refine ⟨h1, ?_⟩
      have hex : ∀ l, l < 32 → s.act l = true → ∃ q ∈ (s.splitInto .ready ((pl, mk) :: y :: rest)).me.cur :: (s.splitInto .ready ((pl, mk) :: y :: rest)).me.paths,
          q.st = .ready ∧ (q.pc, q.wpos) = dest l ∧ q.hmode = s.me.cur.hmode ∧ (∀ m, m < 32 → q.mask.getLsbD m = (s.act m && decide (dest m = dest l))) ∧
          (dest l = pl → q = (s.splitInto .ready ((pl, mk) :: y :: rest)).me.cur ∧ q.id = s.me.cur.id) := by
        intro l hl ha
        have hm : ∀ x ∈ (pl, mk) :: y :: rest, x.1 = dest l → ∀ m, m < 32 → x.2.getLsbD m = (s.act m && decide (dest m = dest l)) := by
          intro x hx hxd m hm
          rw [hs.mask x hx m hm, hmem m hm, hxd]
        by_cases hd : dest l = pl
        · refine ⟨_, List.mem_cons_self .., ?_, ?_, ?_, ?_, fun _ => ⟨rfl, ?_⟩⟩
          · rw [h2]
          · rw [h2, hd]
          · rw [h2]
          · rw [h2]; exact hm (pl, mk) (by simp) hd.symm
          · rw [h2]
        · obtain ⟨x, hx, hxd⟩ := hs.all l ((mem_lanes s l).2 ⟨hl, ha⟩)
          have hx' : x ∈ y :: rest := by
            rcases List.mem_cons.1 hx with rfl | hx
            · exact absurd hxd.symm hd
            · exact hx
          obtain ⟨q, hq, a1, a2, a3, a4, a5⟩ := h3 x hx'
          refine ⟨q, List.mem_cons_of_mem _ hq, a4, ?_, a5, ?_, fun h => absurd h hd⟩
          · rw [a1, a2, ← hxd]
          · rw [a3]; exact hm x hx hxd
      classical
      refine ⟨fun l => if hl : l < 32 ∧ s.act l = true then Classical.choose (hex l hl.1 hl.2) else {}, fun l hl ha => ?_⟩
      have hcond : l < 32 ∧ s.act l = true := ⟨hl, ha⟩
      simp only [hcond, and_self, dif_pos]
      obtain ⟨b1, b2, b3, b4, b5, b6⟩ := Classical.choose_spec (hex l hl ha)
      refine ⟨b1, b2, b3, b4, b5, fun hm => b6 ?_⟩
      have h4 := hs.head
      rw [hfirst l hl ha hm] at h4
      simpa using h4.symm

end Sys2Proof.Machine
end

