-- ==== Sys2Proof/Laws/LaneMem.lean ====
section
/-! SUPPORT. A memory word whose lanes all reach their bytes (08_memory R195): it performs the lanes' accesses one after another, in lane order;
and what loads, stores and atomics do there. -/

namespace Sys2Proof.Machine

/-- The accesses of lanes, each request with its key, one after another. -/
def State.runAll (s : State) (f : MemForm) (r : Nat → Req) (k : Nat → Nat) (ls : List Nat) : State :=
  ls.foldl (fun s l => ((s.accessAt f.op (k l) (r l).val (r l).old).1).arrive1 f.dreg f.op.wide (r l).lane (s.accessAt f.op (k l) (r l).val (r l).old).2) s

theorem prepareAll_ok (s : State) (f : MemForm) (q : Req → Nat) (pg : Req → Option (Nat × Nat)) (rs : List Req)
    (h : ∀ r ∈ rs, s.prepare f r = (s, .ok (.mem (q r)) (pg r))) :
    s.prepareAll f rs = (s, rs.map fun r => (r, .ok (.mem (q r)) (pg r))) := by
  induction rs with
  | nil => rfl
  | cons r rs ih =>
    rw [State.prepareAll, h r (by simp)]
    simp only
    rw [ih fun x hx => h x (by simp [hx])]
    rfl

theorem lanesOf_mem (m : BitVec 32) (l : Nat) : l ∈ lanesOf m ↔ l < 32 ∧ m.getLsbD l = true := by simp [lanesOf]

/-- Whether an access stays in flight does not hang on memory or registers. -/
theorem defers_congr (s t : State) (f : MemForm) (x : Spot) (h1 : t.gang = s.gang) (h2 : t.gangs = s.gangs) (h3 : t.sys = s.sys) (h4 : t.pkg = s.pkg) :
    t.defers f x = s.defers f x := by
  unfold State.defers State.mxHolds State.windowHolds State.windowMiss State.now State.allGangs
  rw [h1, h2, h3, h4]

theorem accessAt_frame (s : State) (op : AccOp) (k : Nat) (v o : BitVec 64) :
    (s.accessAt op k v o).1 = { s with mem := (s.accessAt op k v o).1.mem, journal := (s.accessAt op k v o).1.journal } := by
  unfold State.accessAt
  cases op <;> simp only
  · exact wr_frame _ _ _ _
  · split
    · rfl
    · exact wr_frame _ _ _ _
  · exact wr_frame _ _ _ _

theorem arrive1_frame (s : State) (d : Option Nat) (w : Bool) (l : Nat) (x : BitVec 64) :
    s.arrive1 d w l x = { s with me := { s.me with regs := { s.me.regs with v := (s.arrive1 d w l x).me.regs.v }, obs := (s.arrive1 d w l x).me.obs } } := by
  unfold State.arrive1 Regs.putLane
  cases d with
  | none => rfl
  | some d => cases w <;> rfl

/-- One access changes memory, the journal, the lane registers and what watches look at. -/
theorem access_frame (s : State) (f : MemForm) (k : Nat) (v o : BitVec 64) (l : Nat) :
    let t := ((s.accessAt f.op k v o).1).arrive1 f.dreg f.op.wide l (s.accessAt f.op k v o).2
    t = { s with me := { s.me with regs := { s.me.regs with v := t.me.regs.v }, obs := t.me.obs }, mem := t.mem, journal := t.journal } := by
  intro t
  have h1 := arrive1_frame (s.accessAt f.op k v o).1 f.dreg f.op.wide l (s.accessAt f.op k v o).2
  have h2 := accessAt_frame s f.op k v o
  have e : t = ((s.accessAt f.op k v o).1).arrive1 f.dreg f.op.wide l (s.accessAt f.op k v o).2 := rfl
  rw [← e] at h1
  rw [h1, h2]

theorem runAll_frame (f : MemForm) (r : Nat → Req) (k : Nat → Nat) (ls : List Nat) (s : State) :
    s.runAll f r k ls = { s with me := { s.me with regs := { s.me.regs with v := (s.runAll f r k ls).me.regs.v }, obs := (s.runAll f r k ls).me.obs },
                                 mem := (s.runAll f r k ls).mem, journal := (s.runAll f r k ls).journal } := by
  induction ls generalizing s with
  | nil => rfl
  | cons l ls ih =>
    have h1 := access_frame s f (k l) (r l).val (r l).old (r l).lane
    have h2 := ih (((s.accessAt f.op (k l) (r l).val (r l).old).1).arrive1 f.dreg f.op.wide (r l).lane (s.accessAt f.op (k l) (r l).val (r l).old).2)
    have e : s.runAll f r k (l :: ls) = State.runAll (((s.accessAt f.op (k l) (r l).val (r l).old).1).arrive1 f.dreg f.op.wide (r l).lane
        (s.accessAt f.op (k l) (r l).val (r l).old).2) f r k ls := rfl
    rw [← e] at h2
    rw [h2, h1]

theorem performAll_run (f : MemForm) (r : Nat → Req) (k : Nat → Nat) (pg : Nat → Option (Nat × Nat)) (ls : List Nat) (s : State)
    (h : ∀ l ∈ ls, s.defers f (.mem (k l)) = false) :
    s.performAll f false (ls.map fun l => (r l, .mem (k l), pg l)) = s.runAll f r k ls := by
  induction ls generalizing s with
  | nil => rfl
  | cons l ls ih =>
    rw [List.map_cons, State.performAll, h l (by simp)]
    simp only [Bool.or_self, Bool.false_eq_true, if_false]
    have hf := access_frame s f (k l) (r l).val (r l).old (r l).lane
    rw [ih _ fun m hm => by
      rw [defers_congr s _ f _ (by rw [hf]) (by rw [hf]) (by rw [hf]) (by rw [hf])]; exact h m (by simp [hm])]
    rfl

/-- A memory word whose lanes all reach their bytes. -/
theorem laneMem_run (s : State) (f : MemForm) (r : Nat → Req) (k : Nat → Nat) (h : Reaches s f r k) (hr : ∀ l, (r l).lane = l) :
    s.laneMem f (s.reqs r) = (s.sawAccs f (s.reqs r)).runAll f r k (lanesOf s.memMask) := by
  obtain ⟨h0, hfl, h⟩ := h
  have hon : ∀ l ∈ lanesOf s.memMask, l < 32 ∧ s.memMask.getLsbD l = true := fun l hl => (lanesOf_mem _ l).1 hl
  have hex : ∀ l, ∃ pg, l < 32 ∧ s.memMask.getLsbD l = true → s.prepare f (r l) = (s, .ok (.mem (k l)) pg) := by
    intro l
    by_cases hl : l < 32 ∧ s.memMask.getLsbD l = true
    · obtain ⟨pg, hp⟩ := (h l hl.1 hl.2).1
      exact ⟨pg, fun _ => hp⟩
    · exact ⟨none, fun hc => absurd hc hl⟩
  choose pg hpg using hex
  have hprep : s.prepareAll f (s.reqs r) = (s, (lanesOf s.memMask).map fun l => (r l, .ok (.mem (k l)) (pg l))) := by
    unfold State.reqs
    rw [prepareAll_ok s f (fun q => k q.lane) (fun q => pg q.lane) _ ?_]
    · rw [List.map_map]
      congr 1
      apply List.map_congr_left
      intro l _
      simp [hr]
    · intro q hq
      obtain ⟨l, hl, rfl⟩ := List.mem_map.1 hq
      rw [hr]; exact hpg l (hon l hl)
  have hhit : s.rangeHits f ((lanesOf s.memMask).map fun l => (r l, .ok (.mem (k l)) (pg l))) = [] := by
    unfold State.rangeHits
    rw [List.filterMap_eq_nil_iff]
    intro x hx
    obtain ⟨l, hl, rfl⟩ := List.mem_map.1 hx
    simp only [(h l (hon l hl).1 (hon l hl).2).2.2.2]
  have hoff : offsOf ((lanesOf s.memMask).map fun l => (r l, Pre.ok (.mem (k l)) (pg l))) = [] := by
    unfold offsOf
    rw [List.filterMap_eq_nil_iff]
    intro x hx
    obtain ⟨l, hl, rfl⟩ := List.mem_map.1 hx
    rfl
  have hfault : faultsOf ((lanesOf s.memMask).map fun l => (r l, Pre.ok (.mem (k l)) (pg l))) = [] := by
    unfold faultsOf
    rw [List.filterMap_eq_nil_iff]
    intro x hx
    obtain ⟨l, hl, rfl⟩ := List.mem_map.1 hx
    rfl
  have hgood : goodOf ((lanesOf s.memMask).map fun l => (r l, Pre.ok (.mem (k l)) (pg l))) = (lanesOf s.memMask).map fun l => (r l, .mem (k l), pg l) := by
    unfold goodOf
    rw [List.filterMap_map]
    exact List.filterMap_eq_map' (f := fun l => (r l, Spot.mem (k l), pg l)) ▸ rfl
  have hpass : passedOf ((lanesOf s.memMask).map fun l => (r l, Pre.ok (.mem (k l)) (pg l))) = s.reqs r := by
    unfold passedOf State.reqs
    rw [List.filterMap_map]
    exact List.filterMap_eq_map' (f := r) ▸ rfl
  have hwalk : (s.reqs r).any (s.walks f) = false := by
    unfold State.reqs
    rw [List.any_map, List.any_eq_false]
    intro l hl
    simpa using (h l (hon l hl).1 (hon l hl).2).2.1
  unfold State.laneMem
  rw [hwalk, Bool.and_false, if_neg Bool.false_ne_true, hprep]
  simp only [State.laneFinish]
  rw [hhit]
  simp only [hoff, hfault, hgood, hpass]
  have e1 : (s.sawAccs f (s.reqs r)).laneOff [] = s.sawAccs f (s.reqs r) := rfl
  rw [e1]
  have e2 : (s.sawAccs f (s.reqs r)).parkFaults f [] = s.sawAccs f (s.reqs r) := rfl
  rw [e2, hfl, performAll_run f r k pg _ _ fun l hl => by
    rw [defers_congr s (s.sawAccs f (s.reqs r)) f _ rfl rfl rfl rfl]; exact (h l (hon l hl).1 (hon l hl).2).2.2.1]
  unfold State.settleFrom
  rw [runAll_frame]
  exact if_neg (lt_irrefl _)

/-! ### What loads leave -/

theorem getV_putLane (r : Regs) (d : Nat) (w : Bool) (l : Nat) (x : BitVec 64) (n m : Nat) (hm : m < 32) :
    (r.putLane d w l x).getV n m =
      if n = d ∧ m = l then x.setWidth 32 else if n = d + 1 ∧ m = l ∧ w = true then (x >>> 32).setWidth 32 else r.getV n m := by
  unfold Regs.putLane
  cases w
  · simp only [Bool.false_eq_true, if_false, and_false]
    rw [Regs.getV_putV _ _ _ _ _ _ hm, laneBit_getLsbD l m hm]
    simp
  · simp only [if_true, and_true]
    rw [Regs.getV_putV _ _ _ _ _ _ hm, Regs.getV_putV _ _ _ _ _ _ hm, laneBit_getLsbD l m hm]
    by_cases h1 : m = l
    · by_cases h2 : n = d
      · have : n ≠ d + 1 := by omega
        simp [h1, h2]
      · simp [h1, h2]
    · simp [h1]

theorem arrive1_getV (s : State) (d : Nat) (w : Bool) (l : Nat) (x : BitVec 64) (n m : Nat) (hm : m < 32) :
    (s.arrive1 (some d) w l x).me.regs.getV n m =
      if n = d ∧ m = l then x.setWidth 32 else if n = d + 1 ∧ m = l ∧ w = true then (x >>> 32).setWidth 32 else s.me.regs.getV n m :=
  getV_putLane s.me.regs d w l x n m hm

/-- Loads: memory stays, and each lane of the list takes what it read. -/
theorem runAll_load (f : MemForm) (z : MemSize) (d : Nat) (hf : f.op = .load z) (hd : f.dreg = some d) (r : Nat → Req) (hr : ∀ l, (r l).lane = l)
    (k : Nat → Nat) (ls : List Nat) (hn : ls.Nodup) (s : State) :
    (s.runAll f r k ls).mem = s.mem ∧ (s.runAll f r k ls).journal = s.journal ∧ ∀ n m, m < 32 → (s.runAll f r k ls).me.regs.getV n m =
      if n = d ∧ m ∈ ls then (extendLd z (s.rd (k m) (Machine.sizeOf z))).setWidth 32
      else if n = d + 1 ∧ m ∈ ls ∧ f.op.wide = true then (extendLd z (s.rd (k m) (Machine.sizeOf z)) >>> 32).setWidth 32
      else s.me.regs.getV n m := by
  induction ls generalizing s with
  | nil => exact ⟨rfl, rfl, fun n m _ => by simp [State.runAll]⟩
  | cons l ls ih =>
    obtain ⟨hl, hn⟩ := List.nodup_cons.1 hn
    have e : s.runAll f r k (l :: ls) = State.runAll (s.arrive1 (some d) f.op.wide l (extendLd z (s.rd (k l) (Machine.sizeOf z)))) f r k ls := by
      simp only [State.runAll, List.foldl_cons, hf, hd, hr, State.accessAt]
    obtain ⟨h1, h2, h3⟩ := ih hn (s.arrive1 (some d) f.op.wide l (extendLd z (s.rd (k l) (Machine.sizeOf z))))
    rw [e]
    refine ⟨h1, h2, fun n m hm => ?_⟩
    rw [h3 n m hm]
    have hrd : ∀ a b, (s.arrive1 (some d) f.op.wide l (extendLd z (s.rd (k l) (Machine.sizeOf z)))).rd a b = s.rd a b := fun a b => rfl
    rw [hrd, arrive1_getV _ _ _ _ _ _ _ hm]
    by_cases hm1 : m = l
    · subst hm1
      simp [hl]
    · simp [hm1]

/-! ### What stores leave -/

/-- Stores: registers stay, the last lane of the list that covers a byte decides it. -/
theorem runAll_store (f : MemForm) (n : Nat) (hf : f.op = .store n) (hd : f.dreg = none) (r : Nat → Req)
    (k : Nat → Nat) (ls : List Nat) (hs : ls.Pairwise (· < ·)) (s : State) :
    (s.runAll f r k ls).me = s.me ∧
    (∀ l ∈ ls, (∀ m ∈ ls, l < m → k m + n ≤ k l ∨ k l + n ≤ k m) → (s.runAll f r k ls).rd (k l) n = (r l).val.toNat % 256 ^ n) ∧
    ∀ j, (∀ l ∈ ls, ¬ (k l ≤ j ∧ j < k l + n)) → (s.runAll f r k ls).byte j = s.byte j := by
  induction ls generalizing s with
  | nil => exact ⟨rfl, by simp, fun _ _ => rfl⟩
  | cons l ls ih =>
    obtain ⟨hl, hs⟩ := List.pairwise_cons.1 hs
    have e : s.runAll f r k (l :: ls) = State.runAll (s.wr (k l) n (r l).val.toNat) f r k ls := by
      simp only [State.runAll, List.foldl_cons, hf, hd, State.accessAt, State.arrive1]
    obtain ⟨h1, h2, h3⟩ := ih hs (s.wr (k l) n (r l).val.toNat)
    rw [e]
    refine ⟨by rw [h1, wr_frame], fun m hm hd => ?_, fun j hj => ?_⟩
    · rcases List.mem_cons.1 hm with rfl | hm
      · rw [rd_congr (s := s.wr (k m) n (r m).val.toNat)]
        · exact rd_wr s _ _ _
        · intro a ha1 ha2
          apply h3
          intro x hx hc
          rcases hd x (by simp [hx]) (hl x hx) with h | h <;> omega
      · exact h2 m hm fun x hx hlt => hd x (by simp [hx]) hlt
    · rw [h3 j fun x hx => hj x (by simp [hx])]
      exact byte_wr_ne s _ _ _ _ (hj l (by simp))

theorem lanesOf_sorted (m : BitVec 32) : (lanesOf m).Pairwise (· < ·) := List.Pairwise.filter _ List.pairwise_lt_range

theorem lanesOf_nodup (m : BitVec 32) : (lanesOf m).Nodup := List.Nodup.filter _ List.nodup_range

end Sys2Proof.Machine
end

