-- ==== Sys2Proof/Laws/Rounding.lean ====
section
/-! SUPPORT. The rounding procedure of the model computes what 07_numbers R169 and R170 say, over any ordered field with a floor. -/

namespace Sys2Proof.Machine

set_option linter.unusedSectionVars false

variable {K : Type} [Field K] [LinearOrder K] [IsStrictOrderedRing K] [FloorRing K]

theorem two_zpow_pos (e : Int) : (0 : K) < 2 ^ e := zpow_pos (by norm_num) e

theorem abs_valueOf (neg : Bool) (m : Nat) (e : Int) : |valueOf K neg m e| = m * 2 ^ e := by
  have h := two_zpow_pos (K := K) e
  unfold valueOf
  cases neg <;> simp [abs_mul, abs_of_pos h]

theorem valueOf_eq_zero (neg : Bool) (m : Nat) (e : Int) : valueOf K neg m e = 0 ↔ m = 0 := by
  rw [← abs_eq_zero, abs_valueOf]
  have h := two_zpow_pos (K := K) e
  simp [h.ne']

theorem valueOf_neg_iff (neg : Bool) (m : Nat) (e : Int) (hm : m ≠ 0) : valueOf K neg m e < 0 ↔ neg = true := by
  have h := two_zpow_pos (K := K) e
  have hm' : (0 : K) < m := by exact_mod_cast Nat.pos_of_ne_zero hm
  have := mul_pos hm' h
  unfold valueOf
  cases neg <;> simp <;> linarith

theorem valueOf_div (neg : Bool) (m : Nat) (e q : Int) : valueOf K neg m e / 2 ^ q = valueOf K neg m (e - q) := by
  unfold valueOf
  rw [zpow_sub₀ (by norm_num : (2 : K) ≠ 0), mul_div_assoc]

theorem int_log_value (m : Nat) (e : Int) (hm : m ≠ 0) : Int.log 2 ((m : K) * 2 ^ e) = e + Nat.log2 m := by
  have h := two_zpow_pos (K := K) e
  have h1 : 2 ^ Nat.log2 m ≤ m := Nat.log2_self_le hm
  have h2 : m < 2 ^ (Nat.log2 m + 1) := Nat.lt_log2_self
  have h1' : ((2 : K)) ^ (Nat.log2 m : Int) ≤ m := by rw [zpow_natCast]; exact_mod_cast h1
  have h2' : (m : K) < (2 : K) ^ ((Nat.log2 m : Int) + 1) := by
    have : ((Nat.log2 m : Int) + 1) = ((Nat.log2 m + 1 : Nat) : Int) := by push_cast; rfl
    rw [this, zpow_natCast]; exact_mod_cast h2
  have hpos : (0 : K) < m * 2 ^ e := mul_pos (by exact_mod_cast Nat.pos_of_ne_zero hm) h
  apply le_antisymm
  · rw [← Int.lt_add_one_iff, ← Int.lt_zpow_iff_log_lt (by norm_num) hpos]
    have : (2 : K) ^ (e + Nat.log2 m + 1) = 2 ^ ((Nat.log2 m : Int) + 1) * 2 ^ e := by
      rw [← zpow_add₀ (by norm_num : (2 : K) ≠ 0)]; congr 1; ring
    push_cast
    rw [this]
    exact mul_lt_mul_of_pos_right h2' h
  · rw [← Int.zpow_le_iff_le_log (by norm_num) hpos]
    push_cast
    rw [zpow_add₀ (by norm_num : (2 : K) ≠ 0), mul_comm]
    exact mul_le_mul_of_nonneg_right h1' h.le

theorem roundInt_intCast (mode : RoundMode) (z : Int) : roundInt mode (z : K) = z := by
  cases mode <;> simp [roundInt]

/-- Rounding to an integer (R169). -/
theorem roundNat_spec (mode : RoundMode) (neg : Bool) (m : Nat) (k : Int) :
    roundInt mode (valueOf K neg m k) = (if neg then -1 else 1) * ((roundNat mode neg m k).1 : Int) ∧
      ((roundNat mode neg m k).2 = true ↔ ((roundNat mode neg m k).1 : K) ≠ m * 2 ^ k) := by
  cases k with
  | ofNat k =>
    have hv : valueOf K neg m (Int.ofNat k) = (((if neg then -1 else 1) * ((m * 2 ^ k : Nat) : Int) : Int) : K) := by
      unfold valueOf; cases neg <;> simp
    constructor
    · rw [hv, roundInt_intCast]; rfl
    · simp [roundNat]
  | negSucc k =>
    let d := 2 ^ (k + 1)
    have hd : 0 < d := by positivity
    have hdK : (0 : K) < (d : K) := by exact_mod_cast hd
    have hz : (m : K) * 2 ^ (Int.negSucc k) = (m / d : Nat) + ((m % d : Nat) : K) / d := by
      have hm : (m : K) = d * (m / d : Nat) + (m % d : Nat) := by exact_mod_cast (Nat.div_add_mod m d).symm
      have hp : (2 : K) ^ (Int.negSucc k) = 1 / d := by rw [zpow_negSucc]; simp [d]
      rw [hp]
      field_simp
      exact hm
    have hr : m % d < d := Nat.mod_lt _ hd
    have hrK : ((m % d : Nat) : K) / d < 1 := by rw [div_lt_one hdK]; exact_mod_cast hr
    have hr0 : (0 : K) ≤ ((m % d : Nat) : K) / d := by positivity
    have hhalf : ((m % d : Nat) : K) / d < 1 / 2 ↔ 2 * (m % d) < d := by
      rw [div_lt_div_iff₀ hdK (by norm_num)]; constructor
      · intro h; have h' : ((m % d : Nat) : K) * (2 : Nat) < (1 : Nat) * (d : Nat) := by exact_mod_cast h
        have : m % d * 2 < 1 * d := by exact_mod_cast h'
        omega
      · intro h; have : m % d * 2 < 1 * d := by omega
        exact_mod_cast this
    have hhalf' : ((m % d : Nat) : K) / d = 1 / 2 ↔ 2 * (m % d) = d := by
      rw [div_eq_div_iff hdK.ne' (by norm_num)]; constructor
      · intro h; have h' : ((m % d : Nat) : K) * (2 : Nat) = (1 : Nat) * (d : Nat) := by exact_mod_cast h
        have : m % d * 2 = 1 * d := by exact_mod_cast h'
        omega
      · intro h; have : m % d * 2 = 1 * d := by omega
        exact_mod_cast this
    have hzero : ((m % d : Nat) : K) / d = 0 ↔ m % d = 0 := by
      rw [div_eq_zero_iff]; simp [hdK.ne']
    generalize hq : m / d = q at *
    generalize hrr : m % d = r at *
    have hrn : roundNat mode neg m (Int.negSucc k) = (if (match mode with
      | .ne => decide (d < 2 * r) || (2 * r == d && q % 2 == 1)
      | .z => false
      | .d => neg && r != 0
      | .u => !neg && r != 0) then q + 1 else q, r != 0) := by
      subst hq hrr; rfl
    rw [hrn]
    generalize hφ : ((r : Nat) : K) / d = φ at *
    have hf1 : ⌊((q : Nat) : K) + φ⌋ = q := by
      rw [Int.floor_eq_iff]; constructor
      · push_cast; linarith
      · push_cast; linarith
    have hneg : -(((q : Nat) : K) + φ) = ((-(q : Int) : Int) : K) - φ := by push_cast; ring
    have hf2 : ⌊-(((q : Nat) : K) + φ)⌋ = if r = 0 then -(q : Int) else -(q : Int) - 1 := by
      rw [Int.floor_eq_iff, hneg]
      by_cases h0 : r = 0
      · have : φ = 0 := hzero.2 h0
        rw [if_pos h0, this]; simp
      · have : 0 < φ := lt_of_le_of_ne hr0 fun h => h0 (hzero.1 h.symm)
        rw [if_neg h0]; push_cast; constructor <;> linarith
    have hc1 : ⌈((q : Nat) : K) + φ⌉ = if r = 0 then (q : Int) else q + 1 := by
      have := Int.floor_neg (a := ((q : Nat) : K) + φ)
      rw [hf2] at this
      split at this <;> rename_i h0 <;> simp only [h0, if_true, if_false] <;> omega
    have hc2 : ⌈-(((q : Nat) : K) + φ)⌉ = -(q : Int) := by
      rw [Int.ceil_neg, hf1]
    have hpos : (0 : K) ≤ ((q : Nat) : K) + φ := by positivity
    constructor
    · have hv : valueOf K neg m (Int.negSucc k) = if neg then -(((q : Nat) : K) + φ) else ((q : Nat) : K) + φ := by
        rw [← hz]; unfold valueOf; cases neg <;> simp
      rw [hv]
      cases neg
      · simp only [Bool.false_eq_true, if_false, one_mul]
        cases mode
        · simp only [roundInt, hf1]
          have e : ((q : Nat) : K) + φ - ((q : Int) : K) = φ := by push_cast; ring
          simp only [e, hhalf, hhalf']
          by_cases h1 : 2 * r < d
          · have h2 : ¬ d < 2 * r := by omega
            have h3 : ¬ 2 * r = d := by omega
            simp [h1, h2, h3]
          · by_cases h3 : 2 * r = d
            · have h2 : ¬ d < 2 * r := by omega
              rcases Nat.mod_two_eq_zero_or_one q with hp | hp
              · have : (q : Int) % 2 = 0 := by omega
                simp [h3, hp, this]
              · have : (q : Int) % 2 = 1 := by omega
                simp [h3, hp, this]
            · have h2 : d < 2 * r := by omega
              simp [h1, h2, h3]
        · simp [roundInt, hf1, hpos]
        · simp [roundInt, hf1]
        · simp only [roundInt, hc1]
          by_cases h0 : r = 0 <;> simp [h0]
      · simp only [if_true]
        cases mode
        · simp only [roundInt, hf2]
          by_cases h0 : r = 0
          · have hφ0 : φ = 0 := hzero.2 h0
            have h2 : ¬ d < 2 * r := by omega
            have h3 : ¬ 2 * r = d := by omega
            simp only [h0, if_true, hφ0] at *
            have e : -(((q : Nat) : K) + 0) - ((-(q : Int) : Int) : K) = 0 := by push_cast; ring
            simp only [e]
            simp [h2, h3, hd.ne']
            intro h; omega
          · simp only [h0, if_false]
            have e : -(((q : Nat) : K) + φ) - ((-(q : Int) - 1 : Int) : K) = 1 - φ := by push_cast; ring
            simp only [e]
            have g1 : (1 : K) - φ < 1 / 2 ↔ ¬ (2 * r < d) ∧ ¬ 2 * r = d := by
              rw [← hhalf, ← hhalf']
              constructor
              · intro h; constructor <;> intro h' <;> linarith
              · rintro ⟨a, b⟩
                have : (1 : K) / 2 < φ := lt_of_le_of_ne (not_lt.1 a) (Ne.symm b)
                linarith
            have g2 : (1 : K) - φ = 1 / 2 ↔ 2 * r = d := by
              rw [← hhalf']; constructor <;> intro h <;> linarith
            simp only [g1, g2]
            by_cases h1 : 2 * r < d
            · have h2 : ¬ d < 2 * r := by omega
              have h3 : ¬ 2 * r = d := by omega
              simp [h1, h2, h3]
            · by_cases h3 : 2 * r = d
              · rcases Nat.mod_two_eq_zero_or_one q with hp | hp
                · have : ¬ (-(q : Int) - 1) % 2 = 0 := by omega
                  simp [h3, hp, this]
                · have : (-(q : Int) - 1) % 2 = 0 := by omega
                  simp [h3, hp, this]; omega
              · have h2 : d < 2 * r := by omega
                simp [h1, h2, h3]; omega
        · have : ¬ (0 : K) ≤ -(((q : Nat) : K) + φ) ∨ r = 0 ∧ q = 0 := by
            by_cases h : (0 : K) ≤ -(((q : Nat) : K) + φ)
            · right
              have hq0 : (0 : K) ≤ q := by positivity
              have hq : ((q : Nat) : K) = 0 := by linarith
              have : φ = 0 := by linarith
              exact ⟨hzero.1 this, by exact_mod_cast hq⟩
            · left; exact h
          rcases this with h | ⟨h0, hq0⟩
          · simp only [roundInt, if_neg h, hc2]; simp
          · have hφ0 : φ = 0 := hzero.2 h0
            simp only [roundInt, hc2, hf2, h0, hq0]; simp [hφ0]
        · simp only [roundInt, hf2]
          by_cases h0 : r = 0 <;> simp [h0]; omega
        · simp only [roundInt, hc2]; simp
    · rw [hz]
      have key : ∀ n : Nat, (n = q ∨ n = q + 1) → r ≠ 0 → (n : K) ≠ (q : K) + φ := by
        intro n hn h0
        have hp : 0 < φ := lt_of_le_of_ne hr0 fun h => h0 (hzero.1 h.symm)
        rcases hn with rfl | rfl
        · intro h; linarith
        · push_cast; intro h; linarith
      by_cases h0 : r = 0
      · have hφ0 : φ = 0 := hzero.2 h0
        have h2 : ¬ d < 2 * r := by omega
        have h3 : ¬ 2 * r = d := by omega
        have h2' : ¬ d < 0 := by omega
        have h3' : ¬ 0 = d := by omega
        cases mode <;> simp [h0, hφ0, h3']
      · have hb : (r != 0) = true := by simpa using h0
        simp only [hb, true_iff]
        refine key _ ?_ h0
        exact (ite_eq_or_eq ..).symm

theorem dyLt_spec (m n : Nat) (a b : Int) : dyLt m a n b = true ↔ (m : K) * 2 ^ a < n * 2 ^ b := by
  unfold dyLt
  simp only [decide_eq_true_eq]
  have h := two_zpow_pos (K := K) (min a b)
  have e1 : (m : K) * 2 ^ a = ((m * 2 ^ (a - min a b).toNat : Nat) : K) * 2 ^ (min a b) := by
    have : (2 : K) ^ a = 2 ^ (((a - min a b).toNat : Nat) : Int) * 2 ^ (min a b) := by
      rw [← zpow_add₀ (by norm_num : (2 : K) ≠ 0)]; congr 1; omega
    rw [this, zpow_natCast]; push_cast; ring
  have e2 : (n : K) * 2 ^ b = ((n * 2 ^ (b - min a b).toNat : Nat) : K) * 2 ^ (min a b) := by
    have : (2 : K) ^ b = 2 ^ (((b - min a b).toNat : Nat) : Int) * 2 ^ (min a b) := by
      rw [← zpow_add₀ (by norm_num : (2 : K) ≠ 0)]; congr 1; omega
    rw [this, zpow_natCast]; push_cast; ring
  rw [e1, e2, mul_lt_mul_iff_left₀ h]
  exact_mod_cast Iff.rfl

/-- What a format with infinities is like (R165). -/
structure Fmt.Ieee (f : Fmt) : Prop where
  infs : f.infs = true
  p2 : 2 ≤ f.p
  wp : f.p < f.w
  maxN : f.maxN = 2 ^ f.p - 1
  top : (f.maxQ - (f.emin - (f.p - 1 : Nat))).toNat + 2 = 2 ^ (f.w - f.p) - 1
  maxQ : f.emin - (f.p - 1 : Nat) ≤ f.maxQ

theorem fmtF32_ieee : fmtF32.Ieee := ⟨rfl, by decide, by decide, by decide, by decide, by decide⟩
theorem fmtF16_ieee : fmtF16.Ieee := ⟨rfl, by decide, by decide, by decide, by decide, by decide⟩
theorem fmtBf16_ieee : fmtBf16.Ieee := ⟨rfl, by decide, by decide, by decide, by decide, by decide⟩

/-- Reading back an encoding (R165). -/
theorem decode_enc (f : Fmt) (hf : f.Ieee) (neg : Bool) (n : Nat) (q : Int) (hq : f.emin - (f.p - 1 : Nat) ≤ q)
    (hn : n ≤ 2 ^ f.p) (hlow : n < 2 ^ (f.p - 1) → q = f.emin - (f.p - 1 : Nat)) (hmax : ¬ valueOf K false f.maxN f.maxQ < n * 2 ^ q) :
    ∃ m e, f.decode (f.enc neg n q) = .fin neg m e ∧ valueOf K neg m e = valueOf K neg n q := by
  obtain ⟨hinf, hp2, hwp, hmaxN, htop, hmaxQ⟩ := hf
  obtain ⟨mb, hmb⟩ : ∃ mb, f.p = mb + 1 := ⟨f.p - 1, by omega⟩
  obtain ⟨k, hk⟩ : ∃ k : Nat, q = f.emin - (mb : Nat) + k := ⟨(q - (f.emin - (mb : Nat))).toNat, by rw [hmb] at hq; simp at hq; omega⟩
  have e1 : f.p - 1 = mb := by omega
  rw [e1] at hq hlow hmaxQ htop
  have hkk : (q - (f.emin - (mb : Nat))).toNat = k := by omega
  have hpw : 2 ^ (f.w - 1) = 2 ^ (f.w - f.p) * 2 ^ mb := by rw [← pow_add]; congr 1; omega
  have hmbpos : 0 < 2 ^ mb := by positivity
  have hnp : n ≤ 2 * 2 ^ mb := by rw [hmb, pow_succ] at hn; omega
  generalize hT : 2 ^ (f.w - f.p) = T at *
  -- the exponent field stays below the top
  have hexp : k + (if n < 2 ^ mb then 0 else if n < 2 * 2 ^ mb then 1 else 2) < T - 1 := by
    have hval : (n : K) * 2 ^ q ≤ ((2 ^ f.p - 1 : Nat) : K) * 2 ^ f.maxQ := by
      have := not_lt.1 hmax; rw [hmaxN] at this
      simpa [valueOf] using this
    have hlt : ((2 ^ f.p - 1 : Nat) : K) * 2 ^ f.maxQ < 2 ^ ((f.p : Int) + f.maxQ) := by
      rw [zpow_add₀ (by norm_num : (2 : K) ≠ 0), zpow_natCast]
      apply mul_lt_mul_of_pos_right _ (two_zpow_pos _)
      have : (2 ^ f.p - 1 : Nat) < 2 ^ f.p := by have : 0 < 2 ^ f.p := by positivity
                                                 omega
      exact_mod_cast this
    have hgt : ∀ j : Nat, 2 ^ j ≤ n → (j : Int) + q < f.p + f.maxQ := by
      intro j hj
      have : (2 : K) ^ ((j : Int) + q) ≤ n * 2 ^ q := by
        rw [zpow_add₀ (by norm_num : (2 : K) ≠ 0), zpow_natCast]
        apply mul_le_mul_of_nonneg_right _ (two_zpow_pos _).le
        exact_mod_cast hj
      exact (zpow_lt_zpow_iff_right₀ (by norm_num : (1 : K) < 2)).1 (lt_of_le_of_lt this (lt_of_le_of_lt hval hlt))
    by_cases h1 : n < 2 ^ mb
    · have := hlow h1; rw [if_pos h1]; omega
    · rw [if_neg h1]
      by_cases h2 : n < 2 * 2 ^ mb
      · have := hgt mb (by omega); rw [if_pos h2]; omega
      · have := hgt (mb + 1) (by rw [pow_succ]; omega); rw [if_neg h2]; omega
  have hT1 : 1 ≤ T := by rw [← hT]; exact Nat.one_le_two_pow
  have henc : f.enc neg n q = (if neg then T * 2 ^ mb else 0) + (k * 2 ^ mb + n) := by
    unfold Fmt.enc; rw [e1, hkk, hpw]
  have hmag : k * 2 ^ mb + n < T * 2 ^ mb := by
    split at hexp
    · have : k + 1 ≤ T := by omega
      calc k * 2 ^ mb + n < k * 2 ^ mb + 2 ^ mb := by omega
        _ = (k + 1) * 2 ^ mb := by ring
        _ ≤ _ := Nat.mul_le_mul_right _ this
    · have h3 : k + 3 ≤ T ∨ (k + 2 ≤ T ∧ n < 2 * 2 ^ mb) := by split at hexp <;> omega
      rcases h3 with h | ⟨h, h'⟩
      · calc k * 2 ^ mb + n < k * 2 ^ mb + 3 * 2 ^ mb := by omega
          _ = (k + 3) * 2 ^ mb := by ring
          _ ≤ _ := Nat.mul_le_mul_right _ h
      · calc k * 2 ^ mb + n < k * 2 ^ mb + 2 * 2 ^ mb := by omega
          _ = (k + 2) * 2 ^ mb := by ring
          _ ≤ _ := Nat.mul_le_mul_right _ h
  have hTm : 0 < T * 2 ^ mb := Nat.mul_pos hT1 hmbpos
  have hsign : (f.enc neg n q) / 2 ^ (f.w - 1) % 2 = if neg then 1 else 0 := by
    rw [henc, hpw]
    cases neg
    · simp [Nat.div_eq_of_lt hmag]
    · simp only [if_true]
      rw [Nat.add_div_left _ hTm, Nat.div_eq_of_lt hmag]
  have hrest : (f.enc neg n q) % 2 ^ (f.w - 1) = k * 2 ^ mb + n := by
    rw [henc, hpw]
    cases neg
    · simp [Nat.mod_eq_of_lt hmag]
    · simp only [if_true]
      rw [Nat.add_mod_left, Nat.mod_eq_of_lt hmag]
  have hneg : ((f.enc neg n q) / 2 ^ (f.w - 1) % 2 == 1) = neg := by rw [hsign]; cases neg <;> rfl
  have hdec : f.decode (f.enc neg n q) =
      if (k * 2 ^ mb + n) / 2 ^ mb = 0 then .fin neg ((k * 2 ^ mb + n) % 2 ^ mb) (f.emin - mb)
      else .fin neg (2 ^ mb + (k * 2 ^ mb + n) % 2 ^ mb) (f.emin - mb + ((k * 2 ^ mb + n) / 2 ^ mb - 1 : Nat)) := by
    have hne : ¬ (k * 2 ^ mb + n) / 2 ^ mb = T - 1 := by
      rw [Nat.add_comm, Nat.add_mul_div_right _ _ hmbpos]
      split at hexp
      · rename_i h; rw [Nat.div_eq_of_lt h]; omega
      · split at hexp
        · rename_i h1 h2; have : n / 2 ^ mb = 1 := Nat.div_eq_of_lt_le (by omega) (by omega)
          omega
        · rename_i h1 h2; have : n = 2 * 2 ^ mb := by omega
          rw [this, Nat.mul_div_cancel _ hmbpos]; omega
    unfold Fmt.decode
    simp only [e1, hneg, hrest, hinf, hT, Bool.true_and, Bool.not_true, Bool.and_false, Bool.false_and, Bool.false_eq_true, if_false, beq_iff_eq, hne]
  rw [hdec, Nat.add_comm, Nat.add_mul_div_right _ _ hmbpos, Nat.add_mul_mod_self_right]
  by_cases h1 : n < 2 ^ mb
  · have hk0 : k = 0 := by have := hlow h1; omega
    subst hk0
    rw [Nat.div_eq_of_lt h1, Nat.mod_eq_of_lt h1]
    refine ⟨_, _, rfl, ?_⟩
    rw [hk]; simp
  · by_cases h2 : n < 2 * 2 ^ mb
    · have hd : n / 2 ^ mb = 1 := Nat.div_eq_of_lt_le (by omega) (by omega)
      have hm : n % 2 ^ mb = n - 2 ^ mb := by rw [Nat.mod_eq_sub_mod (by omega), Nat.mod_eq_of_lt (by omega)]
      rw [hd, hm, if_neg (by omega)]
      refine ⟨_, _, rfl, ?_⟩
      have a1 : 2 ^ mb + (n - 2 ^ mb) = n := by omega
      have a2 : 1 + k - 1 = k := by omega
      rw [a1, a2, hk]
    · have hn2 : n = 2 * 2 ^ mb := by omega
      have hd : n / 2 ^ mb = 2 := by rw [hn2, Nat.mul_div_cancel _ hmbpos]
      have hm : n % 2 ^ mb = 0 := by rw [hn2]; exact Nat.mul_mod_left _ _
      rw [hd, hm, if_neg (by omega)]
      refine ⟨_, _, rfl, ?_⟩
      have a2 : ((2 + k - 1 : Nat) : Int) = k + 1 := by omega
      rw [a2, hk, hn2]
      unfold valueOf
      rw [← add_assoc, zpow_add_one₀ (by norm_num : (2 : K) ≠ 0)]
      push_cast; ring

/-- Rounding a value once gives what R169 and R170 say. -/
theorem put_rounds (f : Fmt) (hf : f.Ieee) (mode : RoundMode) (neg : Bool) (m : Nat) (e : Int) (hm : m ≠ 0) :
    Rounds f mode (valueOf K neg m e) (f.put mode (.fin neg m e)) := by
  have hdec : decide (valueOf K neg m e < 0) = neg := by
    have := valueOf_neg_iff (K := K) neg m e hm
    cases neg <;> simp_all
  unfold Rounds RoundsTo
  simp only [abs_valueOf (K := K) neg m e, int_log_value m e hm, hdec, valueOf_div]
  generalize hex : e + (Nat.log2 m : Int) = ex
  generalize hq : max ex f.emin - ((f.p - 1 : Nat) : Int) = q
  generalize hqt : ex - ((f.p - 1 : Nat) : Int) = qt
  obtain ⟨r1, r2⟩ := roundNat_spec (K := K) mode neg m (e - q)
  obtain ⟨t1, _⟩ := roundNat_spec (K := K) mode neg m (e - qt)
  rw [r1, t1]
  generalize hn : (roundNat mode neg m (e - q)).1 = n at *
  generalize hi : (roundNat mode neg m (e - q)).2 = inexact at *
  generalize ht : (roundNat mode neg m (e - qt)).1 = t at *
  have hy : (((if neg then -1 else 1) * (n : Int) : Int) : K) * 2 ^ q = valueOf K neg n q := by
    unfold valueOf; cases neg <;> simp
  have hty : (((if neg then -1 else 1) * (t : Int) : Int) : K) * 2 ^ qt = valueOf K neg t qt := by
    unfold valueOf; cases neg <;> simp
  simp only [hy, hty, abs_valueOf]
  have hov : dyLt f.maxN f.maxQ n q = true ↔ valueOf K false f.maxN f.maxQ < n * 2 ^ q := by
    rw [dyLt_spec (K := K)]; simp [valueOf]
  have htiny : dyLt t qt 1 f.emin = true ↔ (t : K) * 2 ^ qt < 2 ^ f.emin := by
    rw [dyLt_spec (K := K)]; simp
  have hinex : inexact = true ↔ valueOf K neg n q ≠ valueOf K neg m e := by
    rw [r2]
    have h2 : (2 : K) ^ e = 2 ^ (e - q) * 2 ^ q := by rw [← zpow_add₀ (by norm_num : (2 : K) ≠ 0)]; congr 1; ring
    have hqp := (two_zpow_pos (K := K) q).ne'
    unfold valueOf
    rw [h2]
    cases neg <;> simp [← mul_assoc, hqp]
  have hput : f.put mode (.fin neg m e) = if dyLt f.maxN f.maxQ n q then ⟨f.overflow mode neg, flagOF ||| flagNX⟩
      else ⟨f.enc neg n q, (if inexact then flagNX else 0) ||| (if inexact && dyLt t qt 1 f.emin then flagUF else 0)⟩ := by
    subst hn hi ht hq hqt hex
    simp only [Fmt.put, Fmt.rnd, hm, if_false]
    rfl
  rw [hput]
  by_cases hc : valueOf K false f.maxN f.maxQ < (n : K) * 2 ^ q
  · rw [if_pos hc, if_pos (hov.2 hc)]
    have h3 := valueOf_neg_iff (K := K) neg m e hm
    cases neg
    · have h3' : ¬ valueOf K false m e < 0 := by rw [h3]; simp
      cases mode <;> simp [Fmt.overflow, h3']
    · have h3' : valueOf K true m e < 0 := by rw [h3]
      cases mode <;> simp [Fmt.overflow, h3']
  · rw [if_neg hc, if_neg (fun h => hc (hov.1 h))]
    refine ⟨?_, ?_⟩
    · by_cases hin : inexact = true
      · have h4 := hinex.1 hin
        simp only [hin, h4, if_false, if_true, Bool.true_and, ne_eq, not_false_eq_true, true_and]
        by_cases h5 : (t : K) * 2 ^ qt < 2 ^ f.emin
        · simp [h5, htiny.2 h5]
        · have : ¬ dyLt t qt 1 f.emin = true := fun h => h5 (htiny.1 h)
          simp [h5, this]
      · have h4 : valueOf K neg n q = valueOf K neg m e := by by_contra h; exact hin (hinex.2 h)
        simp [hin, h4]
    · have hlo : 2 ^ Nat.log2 m ≤ m := Nat.log2_self_le hm
      have hhi : m < 2 ^ (Nat.log2 m + 1) := Nat.lt_log2_self
      have hp2 := hf.p2
      have hround := r1
      -- the significand lies between 2^(p-1), where q is not the least, and 2^p
      have hge : ∀ j : Nat, (2 : K) ^ j ≤ m * 2 ^ (e - q) → 2 ^ j ≤ n := by
        intro j hj
        have hb : ((2 ^ j : Nat) : Int) ≤ n := by
          have hc1 : ((2 ^ j : Nat) : K) = (((2 ^ j : Nat) : Int) : K) := by push_cast; rfl
          have hj' : (((2 ^ j : Nat) : Int) : K) ≤ valueOf K false m (e - q) := by
            rw [← hc1]; simpa [valueOf] using hj
          cases neg
          · simp only [Bool.false_eq_true, if_false, one_mul] at r1
            rw [← r1]
            have hfl : ((2 ^ j : Nat) : Int) ≤ ⌊valueOf K false m (e - q)⌋ := Int.le_floor.2 hj'
            have hce := Int.floor_le_ceil (valueOf K false m (e - q))
            cases mode <;> simp only [roundInt] <;> (try split) <;> omega
          · simp only [if_true] at r1
            have hv : valueOf K true m (e - q) = -valueOf K false m (e - q) := by simp [valueOf]
            have hfl : ((2 ^ j : Nat) : Int) ≤ ⌊valueOf K false m (e - q)⌋ := Int.le_floor.2 hj'
            have hce := Int.floor_le_ceil (valueOf K false m (e - q))
            have hf1 : ⌊valueOf K true m (e - q)⌋ = -⌈valueOf K false m (e - q)⌉ := by rw [hv, Int.floor_neg]
            have hc1 : ⌈valueOf K true m (e - q)⌉ = -⌊valueOf K false m (e - q)⌋ := by rw [hv, Int.ceil_neg]
            have hx1 : ⌊valueOf K true m (e - q)⌋ + 1 ≤ -((2 ^ j : Nat) : Int) ∨ (⌊valueOf K true m (e - q)⌋ ≤ -((2 ^ j : Nat) : Int) ∧
                ⌊valueOf K true m (e - q)⌋ = valueOf K true m (e - q)) := by
              rcases Int.lt_or_eq_of_le hce with h | h
              · left; omega
              · right
                refine ⟨by omega, ?_⟩
                apply le_antisymm (Int.floor_le _)
                rw [hf1, hv]; push_cast
                have h1 := Int.floor_le (valueOf K false m (e - q))
                have h2 := Int.le_ceil (valueOf K false m (e - q))
                rw [h] at h1; linarith
            have hfin : roundInt mode (valueOf K true m (e - q)) ≤ -((2 ^ j : Nat) : Int) := by
              rcases hx1 with h | ⟨h, h'⟩
              · cases mode <;> simp only [roundInt] <;> (try split) <;> omega
              · rw [← h']; rw [roundInt_intCast]; exact h
            omega
        exact_mod_cast hb
      have hle : (m : K) * 2 ^ (e - q) ≤ 2 ^ f.p → n ≤ 2 ^ f.p := by
        intro hj
        have hb : (n : Int) ≤ ((2 ^ f.p : Nat) : Int) := by
          have hc1 : ((2 ^ f.p : Nat) : K) = (((2 ^ f.p : Nat) : Int) : K) := by push_cast; rfl
          have hj' : valueOf K false m (e - q) ≤ (((2 ^ f.p : Nat) : Int) : K) := by
            rw [← hc1]; simpa [valueOf] using hj
          have hce : ⌈valueOf K false m (e - q)⌉ ≤ ((2 ^ f.p : Nat) : Int) := Int.ceil_le.2 hj'
          have hfc := Int.floor_le_ceil (valueOf K false m (e - q))
          cases neg
          · simp only [Bool.false_eq_true, if_false, one_mul] at r1
            rw [← r1]
            rcases Int.lt_or_eq_of_le hfc with h | h
            · cases mode <;> simp only [roundInt] <;> (try split) <;> omega
            · have h' : (⌊valueOf K false m (e - q)⌋ : K) = valueOf K false m (e - q) := by
                have h1 := Int.floor_le (valueOf K false m (e - q))
                have h2 := Int.le_ceil (valueOf K false m (e - q))
                rw [← h] at h2; exact le_antisymm h1 h2
              rw [← h', roundInt_intCast]; omega
          · simp only [if_true] at r1
            have hv : valueOf K true m (e - q) = -valueOf K false m (e - q) := by simp [valueOf]
            have hf1 : ⌊valueOf K true m (e - q)⌋ = -⌈valueOf K false m (e - q)⌉ := by rw [hv, Int.floor_neg]
            have hc1 : ⌈valueOf K true m (e - q)⌉ = -⌊valueOf K false m (e - q)⌋ := by rw [hv, Int.ceil_neg]
            have hfin : -((2 ^ f.p : Nat) : Int) ≤ roundInt mode (valueOf K true m (e - q)) := by
              cases mode <;> simp only [roundInt] <;> (try split) <;> omega
            omega
        exact_mod_cast hb
      have hz : ∀ a b : Int, (2 : K) ^ a * 2 ^ b = 2 ^ (a + b) := fun a b => (zpow_add₀ (by norm_num : (2 : K) ≠ 0) a b).symm
      have hup : n ≤ 2 ^ f.p := by
        apply hle
        have : (m : K) ≤ 2 ^ ((Nat.log2 m + 1 : Nat) : Int) := by rw [zpow_natCast]; exact_mod_cast hhi.le
        calc (m : K) * 2 ^ (e - q) ≤ 2 ^ ((Nat.log2 m + 1 : Nat) : Int) * 2 ^ (e - q) := mul_le_mul_of_nonneg_right this (two_zpow_pos _).le
          _ = 2 ^ (((Nat.log2 m + 1 : Nat) : Int) + (e - q)) := hz _ _
          _ ≤ 2 ^ (f.p : Int) := by
            apply zpow_le_zpow_right₀ (by norm_num); omega
          _ = 2 ^ f.p := zpow_natCast _ _
      have hlow : n < 2 ^ (f.p - 1) → q = f.emin - ((f.p - 1 : Nat) : Int) := by
        intro hlt
        by_contra hne
        have hexq : f.emin < ex := by omega
        have : 2 ^ (f.p - 1) ≤ n := by
          apply hge
          have hmm : (2 : K) ^ (Nat.log2 m : Int) ≤ m := by rw [zpow_natCast]; exact_mod_cast hlo
          calc (2 : K) ^ (f.p - 1) = 2 ^ (((f.p - 1 : Nat) : Int)) := (zpow_natCast _ _).symm
            _ = 2 ^ ((Nat.log2 m : Int) + (e - q)) := by congr 1; omega
            _ = 2 ^ (Nat.log2 m : Int) * 2 ^ (e - q) := (hz _ _).symm
            _ ≤ m * 2 ^ (e - q) := mul_le_mul_of_nonneg_right hmm (two_zpow_pos _).le
        omega
      obtain ⟨m', e', hd, hv⟩ := decode_enc (K := K) f hf neg n q (by omega) hup hlow hc
      exact ⟨m', e', hd, hv⟩

set_option linter.unusedSimpArgs false

/-! ### Sums, products and fused sums (R171, R175) -/

/-- The exact sum of finite values. -/
theorem add_fin (mode : RoundMode) (s t : Bool) (m n : Nat) (e g : Int) :
    (FVal.add mode (.fin s m e) (.fin t n g)).2 = false ∧
    (if ratOf s m e + ratOf t n g = 0 then
      ∃ k, (FVal.add mode (.fin s m e) (.fin t n g)).1 = .fin (if m = 0 ∧ s = t then s else decide (mode = .d)) 0 k
    else ∃ u k h, (FVal.add mode (.fin s m e) (.fin t n g)).1 = .fin u k h ∧ k ≠ 0 ∧ valueOf ℚ u k h = ratOf s m e + ratOf t n g) := by
  have hmode : (mode == RoundMode.d) = decide (mode = .d) := by cases mode <;> rfl
  unfold FVal.add
  by_cases h0 : m = 0 ∧ n = 0
  · obtain ⟨rfl, rfl⟩ := h0
    have : ratOf s 0 e + ratOf t 0 g = 0 := by simp [valueOf]
    rw [if_pos this]
    refine ⟨by simp, 0, by simp [hmode]⟩
  · have hb : (decide (m = 0) && decide (n = 0)) = false := by
      rw [Bool.and_eq_false_iff]; rcases not_and_or.1 h0 with h | h
      · left; simpa using h
      · right; simpa using h
    simp only [hb, Bool.false_eq_true, if_false]
    generalize hG : min e g = G
    have hm2 : ∀ (neg : Bool) (k : Nat) (a : Int), G ≤ a → ratOf neg k a = (((if neg then -1 else 1) * (k * 2 ^ (a - G).toNat : Nat) : Int) : ℚ) * 2 ^ G := by
      intro neg k a ha
      have : (2 : ℚ) ^ a = 2 ^ (((a - G).toNat : Nat) : Int) * 2 ^ G := by
        rw [← zpow_add₀ (by norm_num : (2 : ℚ) ≠ 0)]; congr 1; omega
      unfold ratOf valueOf
      rw [this, zpow_natCast]
      cases neg <;> push_cast <;> simp <;> ring
    have e1 := hm2 s m e (by omega)
    have e2 := hm2 t n g (by omega)
    have hGp := two_zpow_pos (K := ℚ) G
    generalize hx : ((if s then -1 else 1) * (m * 2 ^ (e - G).toNat : Nat) + (if t then -1 else 1) * (n * 2 ^ (g - G).toNat : Nat) : Int) = x
    have hsum : ratOf s m e + ratOf t n g = (x : ℚ) * 2 ^ G := by rw [e1, e2, ← add_mul, ← hx]; push_cast; ring
    have hiff : ratOf s m e + ratOf t n g = 0 ↔ x = 0 := by rw [hsum]; simp [hGp.ne']
    by_cases hx0 : x = 0
    · rw [if_pos (hiff.2 hx0), if_pos hx0]
      refine ⟨rfl, 0, ?_⟩
      have : ¬ (m = 0 ∧ s = t) := by
        rintro ⟨rfl, rfl⟩
        have : ratOf s n g = 0 := by have := hiff.2 hx0; simpa [valueOf] using this
        have := (valueOf_eq_zero (K := ℚ) s n g).1 this
        exact h0 ⟨rfl, this⟩
      rw [if_neg this, hmode]
    · rw [if_neg (fun h => hx0 (hiff.1 h)), if_neg hx0]
      refine ⟨rfl, _, _, _, rfl, by simpa using hx0, ?_⟩
      rw [hsum]
      unfold valueOf
      congr 1
      rcases lt_or_ge x 0 with h | h
      · simp only [h, decide_true, if_true]
        have : ((x.natAbs : Nat) : ℚ) = -(x : ℚ) := by rw [Nat.cast_natAbs, abs_of_neg h]; push_cast; rfl
        rw [this]; ring
      · have : ¬ x < 0 := by omega
        simp only [this, decide_false, Bool.false_eq_true, if_false]
        have : ((x.natAbs : Nat) : ℚ) = (x : ℚ) := by rw [Nat.cast_natAbs, abs_of_nonneg h]
        rw [this]; ring

/-- A rounded result with the flags of its operands and of an invalid operation. -/
def roundedRes (f : Fmt) (mode : RoundMode) (v : FVal × Bool) (fl : Flags) : FRes := ⟨(f.put mode v.1).bits, (f.put mode v.1).fl ||| fl ||| nvIf v.2⟩

theorem put_zero (f : Fmt) (mode) (s : Bool) (k : Int) : f.put mode (.fin s 0 k) = f.zeroRes s := by simp [Fmt.put, Fmt.zeroRes]

theorem sum_spec (f : Fmt) (hf : f.Ieee) (mode : RoundMode) (x y : FVal) (fl : Flags) (h : fl = if x.signals || y.signals then flagNV else 0) :
    SumOf f mode x y (roundedRes f mode (x.add mode y) fl) := by
  subst h
  cases x with
  | nan a => cases y <;> cases a <;> simp [SumOf, FVal.add, roundedRes, Fmt.put, Fmt.nanRes, FVal.signals, nvIf]
  | inf a =>
    cases y with
    | nan b => simp [SumOf, FVal.add, roundedRes, Fmt.put, Fmt.nanRes, FVal.signals, nvIf]
    | inf b => by_cases hab : a = b <;> simp [SumOf, FVal.add, roundedRes, Fmt.put, Fmt.nanRes, FVal.signals, nvIf, hab]
    | fin t n g => simp [SumOf, FVal.add, roundedRes, Fmt.put, Fmt.nanRes, FVal.signals, nvIf]
  | fin s m e =>
    cases y with
    | nan b => simp [SumOf, FVal.add, roundedRes, Fmt.put, Fmt.nanRes, FVal.signals, nvIf]
    | inf b => simp [SumOf, FVal.add, roundedRes, Fmt.put, Fmt.nanRes, FVal.signals, nvIf]
    | fin t n g =>
      obtain ⟨h1, h2⟩ := add_fin mode s t m n e g
      have hr : roundedRes f mode (FVal.add mode (.fin s m e) (.fin t n g)) (if (FVal.fin s m e).signals || (FVal.fin t n g).signals then flagNV else 0) =
          f.put mode (FVal.add mode (.fin s m e) (.fin t n g)).1 := by
        unfold roundedRes; rw [h1]; simp [FVal.signals, nvIf]
      rw [hr]
      simp only [SumOf]
      split
      · rename_i h0; rw [if_pos h0] at h2
        obtain ⟨k, hk⟩ := h2
        rw [hk]; exact put_zero ..
      · rename_i h0; rw [if_neg h0] at h2
        obtain ⟨u, k, h, hk, hk0, hv⟩ := h2
        rw [hk, ← hv]; exact put_rounds (K := ℚ) f hf mode u k h hk0

theorem mul_fin (s t : Bool) (m n : Nat) (e g : Int) :
    valueOf ℚ (s != t) (m * n) (if m = 0 ∨ n = 0 then 0 else e + g) = ratOf s m e * ratOf t n g := by
  by_cases h : m = 0 ∨ n = 0
  · rw [if_pos h]; rcases h with rfl | rfl <;> simp [valueOf]
  · rw [if_neg h]
    unfold ratOf valueOf
    rw [zpow_add₀ (by norm_num : (2 : ℚ) ≠ 0)]
    cases s <;> cases t <;> push_cast <;> simp <;> ring

theorem prod_spec (f : Fmt) (hf : f.Ieee) (mode : RoundMode) (x y : FVal) (fl : Flags) (h : fl = if x.signals || y.signals then flagNV else 0) :
    ProductOf f mode x y (roundedRes f mode (x.mul y) fl) := by
  subst h
  cases x with
  | nan a => cases y <;> cases a <;> simp [ProductOf, FVal.mul, roundedRes, Fmt.put, Fmt.nanRes, FVal.signals, nvIf]
  | inf a =>
    cases y with
    | nan b => simp [ProductOf, FVal.mul, roundedRes, Fmt.put, Fmt.nanRes, FVal.signals, nvIf]
    | inf b => simp [ProductOf, FVal.mul, roundedRes, Fmt.put, Fmt.nanRes, FVal.signals, nvIf]
    | fin t n g => by_cases hn : n = 0 <;> simp [ProductOf, FVal.mul, roundedRes, Fmt.put, Fmt.nanRes, FVal.signals, nvIf, hn]
  | fin s m e =>
    cases y with
    | nan b => simp [ProductOf, FVal.mul, roundedRes, Fmt.put, Fmt.nanRes, FVal.signals, nvIf]
    | inf b => by_cases hn : m = 0 <;> simp [ProductOf, FVal.mul, roundedRes, Fmt.put, Fmt.nanRes, FVal.signals, nvIf, hn]
    | fin t n g =>
      have hr : roundedRes f mode (FVal.mul (.fin s m e) (.fin t n g)) (if (FVal.fin s m e).signals || (FVal.fin t n g).signals then flagNV else 0) =
          f.put mode (.fin (s != t) (m * n) (if m = 0 ∨ n = 0 then 0 else e + g)) := by
        simp [roundedRes, FVal.signals, nvIf, FVal.mul]
      rw [hr]
      simp only [ProductOf]
      split
      · rename_i h0
        have : m * n = 0 := by rcases h0 with rfl | rfl <;> simp
        rw [this]; exact put_zero ..
      · rename_i h0
        rw [← mul_fin, if_neg h0]
        have hmn : m * n ≠ 0 := by rw [Nat.mul_ne_zero_iff]; exact not_or.1 h0
        exact put_rounds (K := ℚ) f hf mode _ _ _ hmn

theorem fused_spec (f : Fmt) (hf : f.Ieee) (mode : RoundMode) (x y z : FVal) (fl : Flags)
    (h : fl = if x.signals || y.signals || z.signals then flagNV else 0) :
    FusedOf f mode x y z (roundedRes f mode ((x.mul y).1.add mode z) (fl ||| nvIf (x.mul y).2)) := by
  subst h
  cases x with
  | nan a => cases y <;> cases a <;> cases z <;> simp [FusedOf, FVal.mul, FVal.add, roundedRes, Fmt.put, Fmt.nanRes, FVal.signals, nvIf]
  | inf a =>
    cases y with
    | nan b => cases z <;> simp [FusedOf, FVal.mul, FVal.add, roundedRes, Fmt.put, Fmt.nanRes, FVal.signals, nvIf]
    | inf b =>
      cases z with
      | nan c => simp [FusedOf, FVal.mul, FVal.add, roundedRes, Fmt.put, Fmt.nanRes, FVal.signals, nvIf]
      | inf c => by_cases hc : c = (a != b) <;> cases a <;> cases b <;> cases c <;> simp_all [FusedOf, FVal.mul, FVal.add, roundedRes, Fmt.put, Fmt.nanRes, FVal.signals, nvIf]
      | fin c k q => simp [FusedOf, FVal.mul, FVal.add, roundedRes, Fmt.put, Fmt.nanRes, FVal.signals, nvIf]
    | fin t n g =>
      by_cases hn : n = 0
      · cases z with
        | nan c => cases c <;> simp [FusedOf, FVal.mul, FVal.add, roundedRes, Fmt.put, Fmt.nanRes, FVal.signals, nvIf, hn]
        | inf c => simp [FusedOf, FVal.mul, FVal.add, roundedRes, Fmt.put, Fmt.nanRes, FVal.signals, nvIf, hn]
        | fin c k q => simp [FusedOf, FVal.mul, FVal.add, roundedRes, Fmt.put, Fmt.nanRes, FVal.signals, nvIf, hn]
      · cases z with
        | nan c => simp [FusedOf, FVal.mul, FVal.add, roundedRes, Fmt.put, Fmt.nanRes, FVal.signals, nvIf, hn]
        | inf c => cases a <;> cases t <;> cases c <;> simp [FusedOf, FVal.mul, FVal.add, roundedRes, Fmt.put, Fmt.nanRes, FVal.signals, nvIf, hn]
        | fin c k q => simp [FusedOf, FVal.mul, FVal.add, roundedRes, Fmt.put, Fmt.nanRes, FVal.signals, nvIf, hn]
  | fin s m e =>
    cases y with
    | nan b => cases z <;> simp [FusedOf, FVal.mul, FVal.add, roundedRes, Fmt.put, Fmt.nanRes, FVal.signals, nvIf]
    | inf b =>
      by_cases hn : m = 0
      · cases z with
        | nan c => cases c <;> simp [FusedOf, FVal.mul, FVal.add, roundedRes, Fmt.put, Fmt.nanRes, FVal.signals, nvIf, hn]
        | inf c => simp [FusedOf, FVal.mul, FVal.add, roundedRes, Fmt.put, Fmt.nanRes, FVal.signals, nvIf, hn]
        | fin c k q => simp [FusedOf, FVal.mul, FVal.add, roundedRes, Fmt.put, Fmt.nanRes, FVal.signals, nvIf, hn]
      · cases z with
        | nan c => simp [FusedOf, FVal.mul, FVal.add, roundedRes, Fmt.put, Fmt.nanRes, FVal.signals, nvIf, hn]
        | inf c => cases s <;> cases b <;> cases c <;> simp [FusedOf, FVal.mul, FVal.add, roundedRes, Fmt.put, Fmt.nanRes, FVal.signals, nvIf, hn]
        | fin c k q => simp [FusedOf, FVal.mul, FVal.add, roundedRes, Fmt.put, Fmt.nanRes, FVal.signals, nvIf, hn]
    | fin t n g =>
      have hmul : FVal.mul (.fin s m e) (.fin t n g) = (.fin (s != t) (m * n) (if m = 0 ∨ n = 0 then 0 else e + g), false) := by
        simp [FVal.mul]
      cases z with
      | nan c => simp [FusedOf, FVal.mul, FVal.add, roundedRes, Fmt.put, Fmt.nanRes, FVal.signals, nvIf]
      | inf c => simp [FusedOf, FVal.mul, FVal.add, roundedRes, Fmt.put, Fmt.nanRes, FVal.signals, nvIf]
      | fin u k q =>
        have := sum_spec f hf mode (.fin (s != t) (m * n) (if m = 0 ∨ n = 0 then 0 else e + g)) (.fin u k q) 0 (by simp [FVal.signals])
        rw [hmul]
        simp only [SumOf, mul_fin] at this
        have e0 : (0 : Flags) ||| nvIf false = 0 := by decide
        simp only [FusedOf, FVal.signals, Bool.or_self, Bool.false_eq_true, if_false, e0]
        split
        · rename_i h0; rw [if_pos h0] at this; rw [this]; congr 1
          have hmn : (m * n = 0 ∧ (s != t) = u) ↔ (k = 0 ∧ (s != t) = u) := by
            constructor
            · rintro ⟨a, b⟩
              refine ⟨?_, b⟩
              have : ratOf s m e * ratOf t n g = 0 := by rw [← mul_fin, a]; simp [valueOf]
              rw [this, zero_add] at h0; exact (valueOf_eq_zero (K := ℚ) _ _ _).1 h0
            · rintro ⟨a, b⟩
              refine ⟨?_, b⟩
              have h1 : ratOf u k q = 0 := by rw [a]; simp [valueOf]
              rw [h1, add_zero, ← mul_fin] at h0; exact (valueOf_eq_zero (K := ℚ) _ _ _).1 h0
          simp only [hmn]
          split
          · rename_i h; exact h.2
          · rfl
        · rename_i h0; rw [if_neg h0] at this; exact this

theorem signals_nv (x : FVal) : x.nv = if x.signals then flagNV else 0 := by cases x with | nan s => cases s <;> rfl | _ => rfl
theorem nv_or (a b : Bool) : ((if a then flagNV else 0) ||| (if b then flagNV else 0) : Flags) = if a || b then flagNV else 0 := by cases a <;> cases b <;> rfl
theorem signals_neg (x : FVal) : x.neg.signals = x.signals := by cases x <;> rfl

theorem addBits_eq (f : Fmt) (mode) (a b : Nat) : f.addBits mode a b = roundedRes f mode ((f.decode a).add mode (f.decode b)) (if (f.decode a).signals || (f.decode b).signals then flagNV else 0) := by
  unfold Fmt.addBits roundedRes
  simp only [signals_nv, BitVec.or_assoc]
  rw [← BitVec.or_assoc (if (f.decode a).signals = true then _ else _), nv_or]
theorem subBits_eq (f : Fmt) (a b : Nat) : f.subBits a b = roundedRes f .ne ((f.decode a).add .ne (f.decode b).neg) (if (f.decode a).signals || (f.decode b).neg.signals then flagNV else 0) := by
  unfold Fmt.subBits roundedRes
  simp only [signals_nv, BitVec.or_assoc, signals_neg]
  rw [← BitVec.or_assoc (if (f.decode a).signals = true then _ else _), nv_or]
theorem mulBits_eq (f : Fmt) (mode) (a b : Nat) : f.mulBits mode a b = roundedRes f mode ((f.decode a).mul (f.decode b)) (if (f.decode a).signals || (f.decode b).signals then flagNV else 0) := by
  unfold Fmt.mulBits roundedRes
  simp only [signals_nv, BitVec.or_assoc]
  rw [← BitVec.or_assoc (if (f.decode a).signals = true then _ else _), nv_or]
theorem fmaBits_eq (f : Fmt) (mode) (a b c : Nat) : f.fmaBits mode a b c = roundedRes f mode (((f.decode a).mul (f.decode b)).1.add mode (f.decode c))
    ((if (f.decode a).signals || (f.decode b).signals || (f.decode c).signals then flagNV else 0) ||| nvIf ((f.decode a).mul (f.decode b)).2) := by
  unfold Fmt.fmaBits roundedRes
  have h : ∀ a b : Bool, nvIf (a || b) = nvIf a ||| nvIf b := by intro a b; cases a <;> cases b <;> rfl
  simp only [signals_nv, h, ← nv_or, BitVec.or_assoc]


end Sys2Proof.Machine
end

