-- ==== Sys2Proof/Laws/State.lean ====
section
/-! SUPPORT. What each update of the state leaves in each field, and what the sparse tables hold after a write. -/

namespace Sys2Proof.Machine

variable (s : State)

@[simp] theorem setCtx_issue (k : Nat) (x : Ctx) : (s.setCtx k x).issue = s.issue := rfl
@[simp] theorem setCtx_here (k : Nat) (x : Ctx) : (s.setCtx k x).here = s.here := rfl
@[simp] theorem setCtx_me (k : Nat) (x : Ctx) : (s.setCtx k x).me = s.me := rfl
@[simp] theorem setCtx_gang (k : Nat) (x : Ctx) : (s.setCtx k x).gang = s.gang := rfl
@[simp] theorem setCtx_warps (k : Nat) (x : Ctx) : (s.setCtx k x).warps = s.warps := rfl
@[simp] theorem setCtx_gangs (k : Nat) (x : Ctx) : (s.setCtx k x).gangs = s.gangs := rfl
@[simp] theorem setCtx_insts (k : Nat) (x : Ctx) : (s.setCtx k x).insts = s.insts := rfl
@[simp] theorem setCtx_ctxs (k : Nat) (x : Ctx) : (s.setCtx k x).ctxs = smPut {} s.ctxs k x := rfl
@[simp] theorem setCtx_cores (k : Nat) (x : Ctx) : (s.setCtx k x).cores = s.cores := rfl
@[simp] theorem setCtx_clus (k : Nat) (x : Ctx) : (s.setCtx k x).clus = s.clus := rfl
@[simp] theorem setCtx_stks (k : Nat) (x : Ctx) : (s.setCtx k x).stks = s.stks := rfl
@[simp] theorem setCtx_mem (k : Nat) (x : Ctx) : (s.setCtx k x).mem = s.mem := rfl
@[simp] theorem setCtx_journal (k : Nat) (x : Ctx) : (s.setCtx k x).journal = s.journal := rfl
@[simp] theorem setCtx_ops (k : Nat) (x : Ctx) : (s.setCtx k x).ops = s.ops := rfl
@[simp] theorem setCtx_accs (k : Nat) (x : Ctx) : (s.setCtx k x).accs = s.accs := rfl
@[simp] theorem setCtx_pkg (k : Nat) (x : Ctx) : (s.setCtx k x).pkg = s.pkg := rfl
@[simp] theorem setCtx_sys (k : Nat) (x : Ctx) : (s.setCtx k x).sys = s.sys := rfl
@[simp] theorem setCtx_agenda (k : Nat) (x : Ctx) : (s.setCtx k x).agenda = s.agenda := rfl

@[simp] theorem setCore_issue (k : Nat) (x : Core) : (s.setCore k x).issue = s.issue := rfl
@[simp] theorem setCore_here (k : Nat) (x : Core) : (s.setCore k x).here = s.here := rfl
@[simp] theorem setCore_me (k : Nat) (x : Core) : (s.setCore k x).me = s.me := rfl
@[simp] theorem setCore_gang (k : Nat) (x : Core) : (s.setCore k x).gang = s.gang := rfl
@[simp] theorem setCore_warps (k : Nat) (x : Core) : (s.setCore k x).warps = s.warps := rfl
@[simp] theorem setCore_gangs (k : Nat) (x : Core) : (s.setCore k x).gangs = s.gangs := rfl
@[simp] theorem setCore_insts (k : Nat) (x : Core) : (s.setCore k x).insts = s.insts := rfl
@[simp] theorem setCore_ctxs (k : Nat) (x : Core) : (s.setCore k x).ctxs = s.ctxs := rfl
@[simp] theorem setCore_cores (k : Nat) (x : Core) : (s.setCore k x).cores = smPut {} s.cores k x := rfl
@[simp] theorem setCore_clus (k : Nat) (x : Core) : (s.setCore k x).clus = s.clus := rfl
@[simp] theorem setCore_stks (k : Nat) (x : Core) : (s.setCore k x).stks = s.stks := rfl
@[simp] theorem setCore_mem (k : Nat) (x : Core) : (s.setCore k x).mem = s.mem := rfl
@[simp] theorem setCore_journal (k : Nat) (x : Core) : (s.setCore k x).journal = s.journal := rfl
@[simp] theorem setCore_ops (k : Nat) (x : Core) : (s.setCore k x).ops = s.ops := rfl
@[simp] theorem setCore_accs (k : Nat) (x : Core) : (s.setCore k x).accs = s.accs := rfl
@[simp] theorem setCore_pkg (k : Nat) (x : Core) : (s.setCore k x).pkg = s.pkg := rfl
@[simp] theorem setCore_sys (k : Nat) (x : Core) : (s.setCore k x).sys = s.sys := rfl
@[simp] theorem setCore_agenda (k : Nat) (x : Core) : (s.setCore k x).agenda = s.agenda := rfl

@[simp] theorem setClu_issue (k : Nat) (x : Cluster) : (s.setClu k x).issue = s.issue := rfl
@[simp] theorem setClu_here (k : Nat) (x : Cluster) : (s.setClu k x).here = s.here := rfl
@[simp] theorem setClu_me (k : Nat) (x : Cluster) : (s.setClu k x).me = s.me := rfl
@[simp] theorem setClu_gang (k : Nat) (x : Cluster) : (s.setClu k x).gang = s.gang := rfl
@[simp] theorem setClu_warps (k : Nat) (x : Cluster) : (s.setClu k x).warps = s.warps := rfl
@[simp] theorem setClu_gangs (k : Nat) (x : Cluster) : (s.setClu k x).gangs = s.gangs := rfl
@[simp] theorem setClu_insts (k : Nat) (x : Cluster) : (s.setClu k x).insts = s.insts := rfl
@[simp] theorem setClu_ctxs (k : Nat) (x : Cluster) : (s.setClu k x).ctxs = s.ctxs := rfl
@[simp] theorem setClu_cores (k : Nat) (x : Cluster) : (s.setClu k x).cores = s.cores := rfl
@[simp] theorem setClu_clus (k : Nat) (x : Cluster) : (s.setClu k x).clus = smPut {} s.clus k x := rfl
@[simp] theorem setClu_stks (k : Nat) (x : Cluster) : (s.setClu k x).stks = s.stks := rfl
@[simp] theorem setClu_mem (k : Nat) (x : Cluster) : (s.setClu k x).mem = s.mem := rfl
@[simp] theorem setClu_journal (k : Nat) (x : Cluster) : (s.setClu k x).journal = s.journal := rfl
@[simp] theorem setClu_ops (k : Nat) (x : Cluster) : (s.setClu k x).ops = s.ops := rfl
@[simp] theorem setClu_accs (k : Nat) (x : Cluster) : (s.setClu k x).accs = s.accs := rfl
@[simp] theorem setClu_pkg (k : Nat) (x : Cluster) : (s.setClu k x).pkg = s.pkg := rfl
@[simp] theorem setClu_sys (k : Nat) (x : Cluster) : (s.setClu k x).sys = s.sys := rfl
@[simp] theorem setClu_agenda (k : Nat) (x : Cluster) : (s.setClu k x).agenda = s.agenda := rfl

@[simp] theorem setStk_issue (k : Nat) (x : Stk) : (s.setStk k x).issue = s.issue := rfl
@[simp] theorem setStk_here (k : Nat) (x : Stk) : (s.setStk k x).here = s.here := rfl
@[simp] theorem setStk_me (k : Nat) (x : Stk) : (s.setStk k x).me = s.me := rfl
@[simp] theorem setStk_gang (k : Nat) (x : Stk) : (s.setStk k x).gang = s.gang := rfl
@[simp] theorem setStk_warps (k : Nat) (x : Stk) : (s.setStk k x).warps = s.warps := rfl
@[simp] theorem setStk_gangs (k : Nat) (x : Stk) : (s.setStk k x).gangs = s.gangs := rfl
@[simp] theorem setStk_insts (k : Nat) (x : Stk) : (s.setStk k x).insts = s.insts := rfl
@[simp] theorem setStk_ctxs (k : Nat) (x : Stk) : (s.setStk k x).ctxs = s.ctxs := rfl
@[simp] theorem setStk_cores (k : Nat) (x : Stk) : (s.setStk k x).cores = s.cores := rfl
@[simp] theorem setStk_clus (k : Nat) (x : Stk) : (s.setStk k x).clus = s.clus := rfl
@[simp] theorem setStk_stks (k : Nat) (x : Stk) : (s.setStk k x).stks = smPut {} s.stks k x := rfl
@[simp] theorem setStk_mem (k : Nat) (x : Stk) : (s.setStk k x).mem = s.mem := rfl
@[simp] theorem setStk_journal (k : Nat) (x : Stk) : (s.setStk k x).journal = s.journal := rfl
@[simp] theorem setStk_ops (k : Nat) (x : Stk) : (s.setStk k x).ops = s.ops := rfl
@[simp] theorem setStk_accs (k : Nat) (x : Stk) : (s.setStk k x).accs = s.accs := rfl
@[simp] theorem setStk_pkg (k : Nat) (x : Stk) : (s.setStk k x).pkg = s.pkg := rfl
@[simp] theorem setStk_sys (k : Nat) (x : Stk) : (s.setStk k x).sys = s.sys := rfl
@[simp] theorem setStk_agenda (k : Nat) (x : Stk) : (s.setStk k x).agenda = s.agenda := rfl

@[simp] theorem setPkg_issue (x : Pkg) : (s.setPkg x).issue = s.issue := rfl
@[simp] theorem setPkg_here (x : Pkg) : (s.setPkg x).here = s.here := rfl
@[simp] theorem setPkg_me (x : Pkg) : (s.setPkg x).me = s.me := rfl
@[simp] theorem setPkg_gang (x : Pkg) : (s.setPkg x).gang = s.gang := rfl
@[simp] theorem setPkg_warps (x : Pkg) : (s.setPkg x).warps = s.warps := rfl
@[simp] theorem setPkg_gangs (x : Pkg) : (s.setPkg x).gangs = s.gangs := rfl
@[simp] theorem setPkg_insts (x : Pkg) : (s.setPkg x).insts = s.insts := rfl
@[simp] theorem setPkg_ctxs (x : Pkg) : (s.setPkg x).ctxs = s.ctxs := rfl
@[simp] theorem setPkg_cores (x : Pkg) : (s.setPkg x).cores = s.cores := rfl
@[simp] theorem setPkg_clus (x : Pkg) : (s.setPkg x).clus = s.clus := rfl
@[simp] theorem setPkg_stks (x : Pkg) : (s.setPkg x).stks = s.stks := rfl
@[simp] theorem setPkg_mem (x : Pkg) : (s.setPkg x).mem = s.mem := rfl
@[simp] theorem setPkg_journal (x : Pkg) : (s.setPkg x).journal = s.journal := rfl
@[simp] theorem setPkg_ops (x : Pkg) : (s.setPkg x).ops = s.ops := rfl
@[simp] theorem setPkg_accs (x : Pkg) : (s.setPkg x).accs = s.accs := rfl
@[simp] theorem setPkg_pkg (x : Pkg) : (s.setPkg x).pkg = x := rfl
@[simp] theorem setPkg_sys (x : Pkg) : (s.setPkg x).sys = s.sys := rfl
@[simp] theorem setPkg_agenda (x : Pkg) : (s.setPkg x).agenda = s.agenda := rfl

@[simp] theorem setSys_issue (x : Sys) : (s.setSys x).issue = s.issue := rfl
@[simp] theorem setSys_here (x : Sys) : (s.setSys x).here = s.here := rfl
@[simp] theorem setSys_me (x : Sys) : (s.setSys x).me = s.me := rfl
@[simp] theorem setSys_gang (x : Sys) : (s.setSys x).gang = s.gang := rfl
@[simp] theorem setSys_warps (x : Sys) : (s.setSys x).warps = s.warps := rfl
@[simp] theorem setSys_gangs (x : Sys) : (s.setSys x).gangs = s.gangs := rfl
@[simp] theorem setSys_insts (x : Sys) : (s.setSys x).insts = s.insts := rfl
@[simp] theorem setSys_ctxs (x : Sys) : (s.setSys x).ctxs = s.ctxs := rfl
@[simp] theorem setSys_cores (x : Sys) : (s.setSys x).cores = s.cores := rfl
@[simp] theorem setSys_clus (x : Sys) : (s.setSys x).clus = s.clus := rfl
@[simp] theorem setSys_stks (x : Sys) : (s.setSys x).stks = s.stks := rfl
@[simp] theorem setSys_mem (x : Sys) : (s.setSys x).mem = s.mem := rfl
@[simp] theorem setSys_journal (x : Sys) : (s.setSys x).journal = s.journal := rfl
@[simp] theorem setSys_ops (x : Sys) : (s.setSys x).ops = s.ops := rfl
@[simp] theorem setSys_accs (x : Sys) : (s.setSys x).accs = s.accs := rfl
@[simp] theorem setSys_pkg (x : Sys) : (s.setSys x).pkg = s.pkg := rfl
@[simp] theorem setSys_sys (x : Sys) : (s.setSys x).sys = x := rfl
@[simp] theorem setSys_agenda (x : Sys) : (s.setSys x).agenda = s.agenda := rfl

@[simp] theorem setRegs_issue (r : Regs) : (s.setRegs r).issue = s.issue := rfl
@[simp] theorem setRegs_here (r : Regs) : (s.setRegs r).here = s.here := rfl
@[simp] theorem setRegs_me (r : Regs) : (s.setRegs r).me = { s.me with regs := r } := rfl
@[simp] theorem setRegs_gang (r : Regs) : (s.setRegs r).gang = s.gang := rfl
@[simp] theorem setRegs_warps (r : Regs) : (s.setRegs r).warps = s.warps := rfl
@[simp] theorem setRegs_gangs (r : Regs) : (s.setRegs r).gangs = s.gangs := rfl
@[simp] theorem setRegs_insts (r : Regs) : (s.setRegs r).insts = s.insts := rfl
@[simp] theorem setRegs_ctxs (r : Regs) : (s.setRegs r).ctxs = s.ctxs := rfl
@[simp] theorem setRegs_cores (r : Regs) : (s.setRegs r).cores = s.cores := rfl
@[simp] theorem setRegs_clus (r : Regs) : (s.setRegs r).clus = s.clus := rfl
@[simp] theorem setRegs_stks (r : Regs) : (s.setRegs r).stks = s.stks := rfl
@[simp] theorem setRegs_mem (r : Regs) : (s.setRegs r).mem = s.mem := rfl
@[simp] theorem setRegs_journal (r : Regs) : (s.setRegs r).journal = s.journal := rfl
@[simp] theorem setRegs_ops (r : Regs) : (s.setRegs r).ops = s.ops := rfl
@[simp] theorem setRegs_accs (r : Regs) : (s.setRegs r).accs = s.accs := rfl
@[simp] theorem setRegs_pkg (r : Regs) : (s.setRegs r).pkg = s.pkg := rfl
@[simp] theorem setRegs_sys (r : Regs) : (s.setRegs r).sys = s.sys := rfl
@[simp] theorem setRegs_agenda (r : Regs) : (s.setRegs r).agenda = s.agenda := rfl

@[simp] theorem setCur_issue (p : Path) : (s.setCur p).issue = s.issue := rfl
@[simp] theorem setCur_here (p : Path) : (s.setCur p).here = s.here := rfl
@[simp] theorem setCur_me (p : Path) : (s.setCur p).me = { s.me with cur := p } := rfl
@[simp] theorem setCur_gang (p : Path) : (s.setCur p).gang = s.gang := rfl
@[simp] theorem setCur_warps (p : Path) : (s.setCur p).warps = s.warps := rfl
@[simp] theorem setCur_gangs (p : Path) : (s.setCur p).gangs = s.gangs := rfl
@[simp] theorem setCur_insts (p : Path) : (s.setCur p).insts = s.insts := rfl
@[simp] theorem setCur_ctxs (p : Path) : (s.setCur p).ctxs = s.ctxs := rfl
@[simp] theorem setCur_cores (p : Path) : (s.setCur p).cores = s.cores := rfl
@[simp] theorem setCur_clus (p : Path) : (s.setCur p).clus = s.clus := rfl
@[simp] theorem setCur_stks (p : Path) : (s.setCur p).stks = s.stks := rfl
@[simp] theorem setCur_mem (p : Path) : (s.setCur p).mem = s.mem := rfl
@[simp] theorem setCur_journal (p : Path) : (s.setCur p).journal = s.journal := rfl
@[simp] theorem setCur_ops (p : Path) : (s.setCur p).ops = s.ops := rfl
@[simp] theorem setCur_accs (p : Path) : (s.setCur p).accs = s.accs := rfl
@[simp] theorem setCur_pkg (p : Path) : (s.setCur p).pkg = s.pkg := rfl
@[simp] theorem setCur_sys (p : Path) : (s.setCur p).sys = s.sys := rfl
@[simp] theorem setCur_agenda (p : Path) : (s.setCur p).agenda = s.agenda := rfl

@[simp] theorem setTrc_issue (t : Trace) : (s.setTrc t).issue = s.issue := rfl
@[simp] theorem setTrc_here (t : Trace) : (s.setTrc t).here = s.here := rfl
@[simp] theorem setTrc_me (t : Trace) : (s.setTrc t).me = { s.me with trc := t } := rfl
@[simp] theorem setTrc_gang (t : Trace) : (s.setTrc t).gang = s.gang := rfl
@[simp] theorem setTrc_warps (t : Trace) : (s.setTrc t).warps = s.warps := rfl
@[simp] theorem setTrc_gangs (t : Trace) : (s.setTrc t).gangs = s.gangs := rfl
@[simp] theorem setTrc_insts (t : Trace) : (s.setTrc t).insts = s.insts := rfl
@[simp] theorem setTrc_ctxs (t : Trace) : (s.setTrc t).ctxs = s.ctxs := rfl
@[simp] theorem setTrc_cores (t : Trace) : (s.setTrc t).cores = s.cores := rfl
@[simp] theorem setTrc_clus (t : Trace) : (s.setTrc t).clus = s.clus := rfl
@[simp] theorem setTrc_stks (t : Trace) : (s.setTrc t).stks = s.stks := rfl
@[simp] theorem setTrc_mem (t : Trace) : (s.setTrc t).mem = s.mem := rfl
@[simp] theorem setTrc_journal (t : Trace) : (s.setTrc t).journal = s.journal := rfl
@[simp] theorem setTrc_ops (t : Trace) : (s.setTrc t).ops = s.ops := rfl
@[simp] theorem setTrc_accs (t : Trace) : (s.setTrc t).accs = s.accs := rfl
@[simp] theorem setTrc_pkg (t : Trace) : (s.setTrc t).pkg = s.pkg := rfl
@[simp] theorem setTrc_sys (t : Trace) : (s.setTrc t).sys = s.sys := rfl
@[simp] theorem setTrc_agenda (t : Trace) : (s.setTrc t).agenda = s.agenda := rfl

@[simp] theorem setPre_issue (p : Preempt) : (s.setPre p).issue = s.issue := rfl
@[simp] theorem setPre_here (p : Preempt) : (s.setPre p).here = s.here := rfl
@[simp] theorem setPre_me (p : Preempt) : (s.setPre p).me = { s.me with pre := p } := rfl
@[simp] theorem setPre_gang (p : Preempt) : (s.setPre p).gang = s.gang := rfl
@[simp] theorem setPre_warps (p : Preempt) : (s.setPre p).warps = s.warps := rfl
@[simp] theorem setPre_gangs (p : Preempt) : (s.setPre p).gangs = s.gangs := rfl
@[simp] theorem setPre_insts (p : Preempt) : (s.setPre p).insts = s.insts := rfl
@[simp] theorem setPre_ctxs (p : Preempt) : (s.setPre p).ctxs = s.ctxs := rfl
@[simp] theorem setPre_cores (p : Preempt) : (s.setPre p).cores = s.cores := rfl
@[simp] theorem setPre_clus (p : Preempt) : (s.setPre p).clus = s.clus := rfl
@[simp] theorem setPre_stks (p : Preempt) : (s.setPre p).stks = s.stks := rfl
@[simp] theorem setPre_mem (p : Preempt) : (s.setPre p).mem = s.mem := rfl
@[simp] theorem setPre_journal (p : Preempt) : (s.setPre p).journal = s.journal := rfl
@[simp] theorem setPre_ops (p : Preempt) : (s.setPre p).ops = s.ops := rfl
@[simp] theorem setPre_accs (p : Preempt) : (s.setPre p).accs = s.accs := rfl
@[simp] theorem setPre_pkg (p : Preempt) : (s.setPre p).pkg = s.pkg := rfl
@[simp] theorem setPre_sys (p : Preempt) : (s.setPre p).sys = s.sys := rfl
@[simp] theorem setPre_agenda (p : Preempt) : (s.setPre p).agenda = s.agenda := rfl

@[simp] theorem setEv_issue (n : Nat) (e : EvReg) : (s.setEv n e).issue = s.issue := rfl
@[simp] theorem setEv_here (n : Nat) (e : EvReg) : (s.setEv n e).here = s.here := rfl
@[simp] theorem setEv_me (n : Nat) (e : EvReg) : (s.setEv n e).me = { s.me with ev := smPut {} s.me.ev n e } := rfl
@[simp] theorem setEv_gang (n : Nat) (e : EvReg) : (s.setEv n e).gang = s.gang := rfl
@[simp] theorem setEv_warps (n : Nat) (e : EvReg) : (s.setEv n e).warps = s.warps := rfl
@[simp] theorem setEv_gangs (n : Nat) (e : EvReg) : (s.setEv n e).gangs = s.gangs := rfl
@[simp] theorem setEv_insts (n : Nat) (e : EvReg) : (s.setEv n e).insts = s.insts := rfl
@[simp] theorem setEv_ctxs (n : Nat) (e : EvReg) : (s.setEv n e).ctxs = s.ctxs := rfl
@[simp] theorem setEv_cores (n : Nat) (e : EvReg) : (s.setEv n e).cores = s.cores := rfl
@[simp] theorem setEv_clus (n : Nat) (e : EvReg) : (s.setEv n e).clus = s.clus := rfl
@[simp] theorem setEv_stks (n : Nat) (e : EvReg) : (s.setEv n e).stks = s.stks := rfl
@[simp] theorem setEv_mem (n : Nat) (e : EvReg) : (s.setEv n e).mem = s.mem := rfl
@[simp] theorem setEv_journal (n : Nat) (e : EvReg) : (s.setEv n e).journal = s.journal := rfl
@[simp] theorem setEv_ops (n : Nat) (e : EvReg) : (s.setEv n e).ops = s.ops := rfl
@[simp] theorem setEv_accs (n : Nat) (e : EvReg) : (s.setEv n e).accs = s.accs := rfl
@[simp] theorem setEv_pkg (n : Nat) (e : EvReg) : (s.setEv n e).pkg = s.pkg := rfl
@[simp] theorem setEv_sys (n : Nat) (e : EvReg) : (s.setEv n e).sys = s.sys := rfl
@[simp] theorem setEv_agenda (n : Nat) (e : EvReg) : (s.setEv n e).agenda = s.agenda := rfl

@[simp] theorem setStream_issue (n : Nat) (x : StreamReg) : (s.setStream n x).issue = s.issue := rfl
@[simp] theorem setStream_here (n : Nat) (x : StreamReg) : (s.setStream n x).here = s.here := rfl
@[simp] theorem setStream_me (n : Nat) (x : StreamReg) : (s.setStream n x).me = { s.me with streams := smPut {} s.me.streams n x } := rfl
@[simp] theorem setStream_gang (n : Nat) (x : StreamReg) : (s.setStream n x).gang = s.gang := rfl
@[simp] theorem setStream_warps (n : Nat) (x : StreamReg) : (s.setStream n x).warps = s.warps := rfl
@[simp] theorem setStream_gangs (n : Nat) (x : StreamReg) : (s.setStream n x).gangs = s.gangs := rfl
@[simp] theorem setStream_insts (n : Nat) (x : StreamReg) : (s.setStream n x).insts = s.insts := rfl
@[simp] theorem setStream_ctxs (n : Nat) (x : StreamReg) : (s.setStream n x).ctxs = s.ctxs := rfl
@[simp] theorem setStream_cores (n : Nat) (x : StreamReg) : (s.setStream n x).cores = s.cores := rfl
@[simp] theorem setStream_clus (n : Nat) (x : StreamReg) : (s.setStream n x).clus = s.clus := rfl
@[simp] theorem setStream_stks (n : Nat) (x : StreamReg) : (s.setStream n x).stks = s.stks := rfl
@[simp] theorem setStream_mem (n : Nat) (x : StreamReg) : (s.setStream n x).mem = s.mem := rfl
@[simp] theorem setStream_journal (n : Nat) (x : StreamReg) : (s.setStream n x).journal = s.journal := rfl
@[simp] theorem setStream_ops (n : Nat) (x : StreamReg) : (s.setStream n x).ops = s.ops := rfl
@[simp] theorem setStream_accs (n : Nat) (x : StreamReg) : (s.setStream n x).accs = s.accs := rfl
@[simp] theorem setStream_pkg (n : Nat) (x : StreamReg) : (s.setStream n x).pkg = s.pkg := rfl
@[simp] theorem setStream_sys (n : Nat) (x : StreamReg) : (s.setStream n x).sys = s.sys := rfl
@[simp] theorem setStream_agenda (n : Nat) (x : StreamReg) : (s.setStream n x).agenda = s.agenda := rfl

@[simp] theorem setFibre_issue (n : Nat) (x : FibreReg) : (s.setFibre n x).issue = s.issue := rfl
@[simp] theorem setFibre_here (n : Nat) (x : FibreReg) : (s.setFibre n x).here = s.here := rfl
@[simp] theorem setFibre_me (n : Nat) (x : FibreReg) : (s.setFibre n x).me = { s.me with fibres := smPut {} s.me.fibres n x } := rfl
@[simp] theorem setFibre_gang (n : Nat) (x : FibreReg) : (s.setFibre n x).gang = s.gang := rfl
@[simp] theorem setFibre_warps (n : Nat) (x : FibreReg) : (s.setFibre n x).warps = s.warps := rfl
@[simp] theorem setFibre_gangs (n : Nat) (x : FibreReg) : (s.setFibre n x).gangs = s.gangs := rfl
@[simp] theorem setFibre_insts (n : Nat) (x : FibreReg) : (s.setFibre n x).insts = s.insts := rfl
@[simp] theorem setFibre_ctxs (n : Nat) (x : FibreReg) : (s.setFibre n x).ctxs = s.ctxs := rfl
@[simp] theorem setFibre_cores (n : Nat) (x : FibreReg) : (s.setFibre n x).cores = s.cores := rfl
@[simp] theorem setFibre_clus (n : Nat) (x : FibreReg) : (s.setFibre n x).clus = s.clus := rfl
@[simp] theorem setFibre_stks (n : Nat) (x : FibreReg) : (s.setFibre n x).stks = s.stks := rfl
@[simp] theorem setFibre_mem (n : Nat) (x : FibreReg) : (s.setFibre n x).mem = s.mem := rfl
@[simp] theorem setFibre_journal (n : Nat) (x : FibreReg) : (s.setFibre n x).journal = s.journal := rfl
@[simp] theorem setFibre_ops (n : Nat) (x : FibreReg) : (s.setFibre n x).ops = s.ops := rfl
@[simp] theorem setFibre_accs (n : Nat) (x : FibreReg) : (s.setFibre n x).accs = s.accs := rfl
@[simp] theorem setFibre_pkg (n : Nat) (x : FibreReg) : (s.setFibre n x).pkg = s.pkg := rfl
@[simp] theorem setFibre_sys (n : Nat) (x : FibreReg) : (s.setFibre n x).sys = s.sys := rfl
@[simp] theorem setFibre_agenda (n : Nat) (x : FibreReg) : (s.setFibre n x).agenda = s.agenda := rfl

@[simp] theorem clear_issue (k n : Nat) : (s.clear k n).issue = s.issue := rfl
@[simp] theorem clear_here (k n : Nat) : (s.clear k n).here = s.here := rfl
@[simp] theorem clear_me (k n : Nat) : (s.clear k n).me = s.me := rfl
@[simp] theorem clear_gang (k n : Nat) : (s.clear k n).gang = s.gang := rfl
@[simp] theorem clear_warps (k n : Nat) : (s.clear k n).warps = s.warps := rfl
@[simp] theorem clear_gangs (k n : Nat) : (s.clear k n).gangs = s.gangs := rfl
@[simp] theorem clear_insts (k n : Nat) : (s.clear k n).insts = s.insts := rfl
@[simp] theorem clear_ctxs (k n : Nat) : (s.clear k n).ctxs = s.ctxs := rfl
@[simp] theorem clear_cores (k n : Nat) : (s.clear k n).cores = s.cores := rfl
@[simp] theorem clear_clus (k n : Nat) : (s.clear k n).clus = s.clus := rfl
@[simp] theorem clear_stks (k n : Nat) : (s.clear k n).stks = s.stks := rfl
@[simp] theorem clear_mem (k n : Nat) : (s.clear k n).mem = smClear s.mem k n := rfl
@[simp] theorem clear_journal (k n : Nat) : (s.clear k n).journal = s.journal := rfl
@[simp] theorem clear_ops (k n : Nat) : (s.clear k n).ops = s.ops := rfl
@[simp] theorem clear_accs (k n : Nat) : (s.clear k n).accs = s.accs := rfl
@[simp] theorem clear_pkg (k n : Nat) : (s.clear k n).pkg = s.pkg := rfl
@[simp] theorem clear_sys (k n : Nat) : (s.clear k n).sys = s.sys := rfl
@[simp] theorem clear_agenda (k n : Nat) : (s.clear k n).agenda = s.agenda := rfl

@[simp] theorem note_issue (k : Nat) (v : BitVec 64) : (s.note k v).issue = s.issue := rfl
@[simp] theorem note_here (k : Nat) (v : BitVec 64) : (s.note k v).here = s.here := rfl
@[simp] theorem note_me (k : Nat) (v : BitVec 64) : (s.note k v).me = s.me := rfl
@[simp] theorem note_gang (k : Nat) (v : BitVec 64) : (s.note k v).gang = s.gang := rfl
@[simp] theorem note_warps (k : Nat) (v : BitVec 64) : (s.note k v).warps = s.warps := rfl
@[simp] theorem note_gangs (k : Nat) (v : BitVec 64) : (s.note k v).gangs = s.gangs := rfl
@[simp] theorem note_insts (k : Nat) (v : BitVec 64) : (s.note k v).insts = s.insts := rfl
@[simp] theorem note_ctxs (k : Nat) (v : BitVec 64) : (s.note k v).ctxs = s.ctxs := rfl
@[simp] theorem note_cores (k : Nat) (v : BitVec 64) : (s.note k v).cores = s.cores := rfl
@[simp] theorem note_clus (k : Nat) (v : BitVec 64) : (s.note k v).clus = s.clus := rfl
@[simp] theorem note_stks (k : Nat) (v : BitVec 64) : (s.note k v).stks = s.stks := rfl
@[simp] theorem note_mem (k : Nat) (v : BitVec 64) : (s.note k v).mem = s.mem := rfl
@[simp] theorem note_journal (k : Nat) (v : BitVec 64) : (s.note k v).journal = (k, v) :: s.journal := rfl
@[simp] theorem note_ops (k : Nat) (v : BitVec 64) : (s.note k v).ops = s.ops := rfl
@[simp] theorem note_accs (k : Nat) (v : BitVec 64) : (s.note k v).accs = s.accs := rfl
@[simp] theorem note_pkg (k : Nat) (v : BitVec 64) : (s.note k v).pkg = s.pkg := rfl
@[simp] theorem note_sys (k : Nat) (v : BitVec 64) : (s.note k v).sys = s.sys := rfl
@[simp] theorem note_agenda (k : Nat) (v : BitVec 64) : (s.note k v).agenda = s.agenda := rfl

@[simp] theorem mapOps_issue (f : EngOp → EngOp) : (s.mapOps f).issue = s.issue := rfl
@[simp] theorem mapOps_here (f : EngOp → EngOp) : (s.mapOps f).here = s.here := rfl
@[simp] theorem mapOps_me (f : EngOp → EngOp) : (s.mapOps f).me = s.me := rfl
@[simp] theorem mapOps_gang (f : EngOp → EngOp) : (s.mapOps f).gang = s.gang := rfl
@[simp] theorem mapOps_warps (f : EngOp → EngOp) : (s.mapOps f).warps = s.warps := rfl
@[simp] theorem mapOps_gangs (f : EngOp → EngOp) : (s.mapOps f).gangs = s.gangs := rfl
@[simp] theorem mapOps_insts (f : EngOp → EngOp) : (s.mapOps f).insts = s.insts := rfl
@[simp] theorem mapOps_ctxs (f : EngOp → EngOp) : (s.mapOps f).ctxs = s.ctxs := rfl
@[simp] theorem mapOps_cores (f : EngOp → EngOp) : (s.mapOps f).cores = s.cores := rfl
@[simp] theorem mapOps_clus (f : EngOp → EngOp) : (s.mapOps f).clus = s.clus := rfl
@[simp] theorem mapOps_stks (f : EngOp → EngOp) : (s.mapOps f).stks = s.stks := rfl
@[simp] theorem mapOps_mem (f : EngOp → EngOp) : (s.mapOps f).mem = s.mem := rfl
@[simp] theorem mapOps_journal (f : EngOp → EngOp) : (s.mapOps f).journal = s.journal := rfl
@[simp] theorem mapOps_ops (f : EngOp → EngOp) : (s.mapOps f).ops = s.ops.map f := rfl
@[simp] theorem mapOps_accs (f : EngOp → EngOp) : (s.mapOps f).accs = s.accs := rfl
@[simp] theorem mapOps_pkg (f : EngOp → EngOp) : (s.mapOps f).pkg = s.pkg := rfl
@[simp] theorem mapOps_sys (f : EngOp → EngOp) : (s.mapOps f).sys = s.sys := rfl
@[simp] theorem mapOps_agenda (f : EngOp → EngOp) : (s.mapOps f).agenda = s.agenda := rfl

@[simp] theorem mapWarps_issue (f : Warp → Warp) : (s.mapWarps f).issue = s.issue := rfl
@[simp] theorem mapWarps_here (f : Warp → Warp) : (s.mapWarps f).here = s.here := rfl
@[simp] theorem mapWarps_me (f : Warp → Warp) : (s.mapWarps f).me = f s.me := rfl
@[simp] theorem mapWarps_gang (f : Warp → Warp) : (s.mapWarps f).gang = s.gang := rfl
@[simp] theorem mapWarps_warps (f : Warp → Warp) : (s.mapWarps f).warps = s.warps.map f := rfl
@[simp] theorem mapWarps_gangs (f : Warp → Warp) : (s.mapWarps f).gangs = s.gangs := rfl
@[simp] theorem mapWarps_insts (f : Warp → Warp) : (s.mapWarps f).insts = s.insts := rfl
@[simp] theorem mapWarps_ctxs (f : Warp → Warp) : (s.mapWarps f).ctxs = s.ctxs := rfl
@[simp] theorem mapWarps_cores (f : Warp → Warp) : (s.mapWarps f).cores = s.cores := rfl
@[simp] theorem mapWarps_clus (f : Warp → Warp) : (s.mapWarps f).clus = s.clus := rfl
@[simp] theorem mapWarps_stks (f : Warp → Warp) : (s.mapWarps f).stks = s.stks := rfl
@[simp] theorem mapWarps_mem (f : Warp → Warp) : (s.mapWarps f).mem = s.mem := rfl
@[simp] theorem mapWarps_journal (f : Warp → Warp) : (s.mapWarps f).journal = s.journal := rfl
@[simp] theorem mapWarps_ops (f : Warp → Warp) : (s.mapWarps f).ops = s.ops := rfl
@[simp] theorem mapWarps_accs (f : Warp → Warp) : (s.mapWarps f).accs = s.accs := rfl
@[simp] theorem mapWarps_pkg (f : Warp → Warp) : (s.mapWarps f).pkg = s.pkg := rfl
@[simp] theorem mapWarps_sys (f : Warp → Warp) : (s.mapWarps f).sys = s.sys := rfl
@[simp] theorem mapWarps_agenda (f : Warp → Warp) : (s.mapWarps f).agenda = s.agenda := rfl

@[simp] theorem mapGangs_issue (f : Gang → Gang) : (s.mapGangs f).issue = s.issue := rfl
@[simp] theorem mapGangs_here (f : Gang → Gang) : (s.mapGangs f).here = s.here := rfl
@[simp] theorem mapGangs_me (f : Gang → Gang) : (s.mapGangs f).me = s.me := rfl
@[simp] theorem mapGangs_gang (f : Gang → Gang) : (s.mapGangs f).gang = f s.gang := rfl
@[simp] theorem mapGangs_warps (f : Gang → Gang) : (s.mapGangs f).warps = s.warps := rfl
@[simp] theorem mapGangs_gangs (f : Gang → Gang) : (s.mapGangs f).gangs = s.gangs.map f := rfl
@[simp] theorem mapGangs_insts (f : Gang → Gang) : (s.mapGangs f).insts = s.insts := rfl
@[simp] theorem mapGangs_ctxs (f : Gang → Gang) : (s.mapGangs f).ctxs = s.ctxs := rfl
@[simp] theorem mapGangs_cores (f : Gang → Gang) : (s.mapGangs f).cores = s.cores := rfl
@[simp] theorem mapGangs_clus (f : Gang → Gang) : (s.mapGangs f).clus = s.clus := rfl
@[simp] theorem mapGangs_stks (f : Gang → Gang) : (s.mapGangs f).stks = s.stks := rfl
@[simp] theorem mapGangs_mem (f : Gang → Gang) : (s.mapGangs f).mem = s.mem := rfl
@[simp] theorem mapGangs_journal (f : Gang → Gang) : (s.mapGangs f).journal = s.journal := rfl
@[simp] theorem mapGangs_ops (f : Gang → Gang) : (s.mapGangs f).ops = s.ops := rfl
@[simp] theorem mapGangs_accs (f : Gang → Gang) : (s.mapGangs f).accs = s.accs := rfl
@[simp] theorem mapGangs_pkg (f : Gang → Gang) : (s.mapGangs f).pkg = s.pkg := rfl
@[simp] theorem mapGangs_sys (f : Gang → Gang) : (s.mapGangs f).sys = s.sys := rfl
@[simp] theorem mapGangs_agenda (f : Gang → Gang) : (s.mapGangs f).agenda = s.agenda := rfl

/-- A table's entries after one is written. -/
@[simp] theorem setCtx_ctx (k j : Nat) (x : Ctx) : (s.setCtx k x).ctx j = if j = k then x else s.ctx j := smGet_smPut _ _ _ _

/-- A table's entries after one is written. -/
@[simp] theorem setCore_core (k j : Nat) (x : Core) : (s.setCore k x).core j = if j = k then x else s.core j := smGet_smPut _ _ _ _

/-- A table's entries after one is written. -/
@[simp] theorem setClu_clu (k j : Nat) (x : Cluster) : (s.setClu k x).clu j = if j = k then x else s.clu j := smGet_smPut _ _ _ _

/-- A table's entries after one is written. -/
@[simp] theorem setStk_stk (k j : Nat) (x : Stk) : (s.setStk k x).stk j = if j = k then x else s.stk j := smGet_smPut _ _ _ _

end Sys2Proof.Machine
end

