-- ==== Sys2Proof/Tests/Slice0.lean ====
section
/-! SUPPORT. Small checks of the model: ill-formed terms that `wf` refuses, each constructor's word, witnesses for the hypotheses of the statements,
and single steps with results worked from the spec. -/

open Sys2Proof Sys2Proof.Machine

/-! One ill-formed term for each check of the operands (02_encoding R33 to R35). -/

theorem test_wf_refuses_control_and_events : ([.brx 0 1, .callx 0 1, .evArm .dline 0 1, .evArm .dline 0 62, .evPend 1 0, .mboxSend 0 1, .mboxSend 0 62, .mboxRecv 1 0, .trap 1 0, 
    .preDone 1] : List Instr).all (fun i => !i.wf) = true := by decide
theorem test_wf_refuses_arithmetic_and_moves : ([.lea 1 0 0, .lea 0 1 0, .iadd64 1 0 0, .iadd64 0 1 0, .iadd64 0 0 1, .movs 1 .time, .leaU 1 0 0, .leaU 0 1 0, .iadd64U 1 0 0, .iadd64U 0 1 0, 
    .iadd64U 0 0 1, .movsU 1 .cyc, .movsU 0 .lane] : List Instr).all (fun i => !i.wf) = true := by decide
theorem test_wf_refuses_floating_point : ([.cvt 1 0 .i64 .f32 .ne false, .cvt 0 1 .f32 .n64 .ne false, .cvt 0 0 .f32 .f32 .ne false, .cvt 0 0 .f16 .f32 .ne true, 
    .cvt 0 0 .i8 .i32 .z false] : List Instr).all (fun i => !i.wf) = true := by decide
theorem test_wf_refuses_memory : ([.ld 1 0 (.short 0) .b64, .ld 0 1 (.short 0) .b32, .st 1 0 (.short 0) .b64, .st 0 1 (.short 0) .n8, .atomAdd 0 1 0, .atomAnd 0 1 0, 
    .atomOr 0 1 0, .atomXor 0 1 0, .atomMinI32 0 1 0, .atomMaxI32 0 1 0, .atomMinN32 0 1 0, .atomMaxN32 0 1 0, .atomXchg 0 1 0, .atomCas 0 1 0, 
    .atomFadd 0 1 0, .atomXacc 1 0, .xaccRd 0 1, .xaccRdClr 0 1, .pref 1, .prefSc 1, .atomAddN64 1 0 0, .atomAddN64 0 1 0, .atomAddN64 0 0 1, 
    .atomCasB64 1 0 0, .atomCasB64 0 1 0, .atomCasB64 0 0 1, .ldSB64 1 0 0, .stSB64 1 0 0, .cmnEwAddI32 1 0, .cmnEwAddF32 1 0, .cmnEwMaxF32 1 0, 
    .cmnRedAddI32 0 1 0, .cmnRedAddF32 0 1 0, .cmnRedMaxF32 0 1 0] : List Instr).all (fun i => !i.wf) = true := by decide
theorem test_wf_refuses_translation : ([.mwait false .ne 1 0, .mwait true .ne 0 1, .tlbInv 0 1, .asidBind 0 0 1, .pgMig 0 1 0, .pgMig 0 0 1, .bbMove 0 0 1] : List Instr).all (fun i => !i.wf) = true := by decide
theorem test_wf_refuses_copy_and_streams : ([.cpy 1 0, .cpy 58 0, .cpy 0 1, .cpy 0 62, .cpyFill 1 0, .cpyFill 58 0, .cpyFill 0 1, .cpyFill 0 62, .tbrInit 1 0, .tbrArrive 0 1, 
    .tbrOwe 1 0, .tbrRetire 1, .strOpen 0 1, .strOpen 0 62, .strOpeni 0 1, .strOpeni 0 62, .fibOpen 0 1, .fibOpen 0 62, .xrCap 1, .xrCap 62, 
    .xrRoute 0 0 1, .xrRoute 0 0 62] : List Instr).all (fun i => !i.wf) = true := by decide
theorem test_wf_refuses_tasks_and_matrix : ([.taskSpawn 0 0 1, .tbufStat 1 0, .mm 0 1 0 .i8 false .k512, .mm 0 0 1 .i8 false .k512, .mmSp 0 1 0 .i8 false .keep8, 
    .mmSp 0 0 1 .i8 false .keep8, .mmPerm 0 0 1, .mmScacc 0 0 1] : List Instr).all (fun i => !i.wf) = true := by decide
theorem test_wf_refuses_graphics : ([.beamMake 0 1, .beamCast 1 0 0, .beamCast 0 0 1, .beamCast 0 0 62, .beamNext 1 0 0, .beamNext 0 0 1, .beamNext 0 0 62, .rayCast 0 1 0, 
    .rayCast 0 0 1, .rayNext 0 1 0, .rayNext 0 0 1, .rayResume 0 1 0, .rayResume 0 0 1, .texSamp 0 1 0, .texSamp 1 0 0, .texSamp 0 0 1, 
    .texSamp 0 0 126, .texFoot 0 1 0, .texFoot 1 0 0, .texFoot 0 0 1, .texFoot 0 0 126, .texLod 0 1 0, .texLod 0 0 1, .texLod 0 0 126, 
    .rastTri 0 1 0, .rastTri 0 0 1, .rastNext 0 1 0, .rastNext 0 0 1] : List Instr).all (fun i => !i.wf) = true := by decide
theorem test_wf_refuses_system_and_debug : ([.time 1, .cyc 1, .dline 1 0, .dline 0 1, .cntRd 1 0, .sysRd 1 0 0, .sysWr 0 1 0, .sysWr 0 62 0, .almSet 0 1 0, .repStat 1 0, .wpSet 0 1 0, 
    .wpSet 0 62 0, .dbgStep 0 1, .dbgRdv 0 1, .dbgRdv 1 0, .dbgRdv 62 0, .dbgWrv 0 1, .dbgWrv 0 62, .dbgPaths 1 0, .trcOn 0 1, .trcOn 0 62] : List Instr).all (fun i => !i.wf) = true := by decide
/-! Every instruction's word, put together from the fields of its encoding (02_encoding R25 to R48 and the encoding tables of the chapters), decodes to
it, with different operands in its fields. -/

theorem test_decode_bra_to_iadd64 :
    ∀ x ∈ [(0x02E00008, Instr.bra 3 true 8), (0x02F00008, .call 3 true 8), (0x04E00008, .brp 3 true 8), (0x06000002, .ret), (0x06000003, .join), (0x06000004,
      .exit), (0x06000005, .nop), (0x06000006, .pyield), (0x06002100, .brx 4 8), (0x06002101, .callx 4 8), (0x08000082, .waitAny 4), (0x080C0001, .evDisarm
      3), (0x08100104, .mboxSend 4 8), (0x08100105, .mboxRecv 4 8), (0x08101803, .evPend 4 3), (0x082C0100, .evArm .stamp 3 8), (0x0A000401, .trapRet
      .next), (0x0A000C01, .preMask true), (0x0A008008, .trap 4 8), (0x0A008800, .preDone 4), (0x0C10400A, .iabs 4 8), (0x0C10400B, .ineg 4 8), (0x0C1040C0,
      .iadd 4 8 12), (0x0C1040C1, .isub 4 8 12), (0x0C1040C2, .imul 4 8 12), (0x0C1040C3, .imulhI32 4 8 12), (0x0C1040C4, .imulhN32 4 8 12), (0x0C1040C5,
      .imad 4 8 12), (0x0C1040C6, .iminI32 4 8 12), (0x0C1040C7, .iminN32 4 8 12), (0x0C1040C8, .imaxI32 4 8 12), (0x0C1040C9, .imaxN32 4 8 12),
      (0x0C1040CC, .lea 4 8 12), (0x0C1040CD, .iadd64 4 8 12)],
      decodeTableWord 32 x.1 = some x.2 := by decide

theorem test_decode_clz_to_icmp :
    ∀ x ∈ [(0x0E104008, Instr.clz 4 8), (0x0E104009, .popc 4 8), (0x0E10400A, .brev 4 8), (0x0E1040C0, .and 4 8 12), (0x0E1040C1, .or 4 8 12), (0x0E1040C2, .xor
      4 8 12), (0x0E1040C3, .andn 4 8 12), (0x0E1040C4, .shl 4 8 12), (0x0E1040C5, .shr 4 8 12), (0x0E1040C6, .sar 4 8 12), (0x0E1040C7, .rot 4 8 12),
      (0x0E1040CB, .bfeN32 4 8 12), (0x0E1040CC, .bfeI32 4 8 12), (0x0E1040CD, .bfi 4 8 12), (0x0E1040CE, .bilv 4 8 12), (0x0E1040CF, .bdlv 4 8 12),
      (0x10100705, .movi 4 (.short 5)), (0x10104005, .iaddImm 4 8 (.short 5)), (0x10104105, .andImm 4 8 (.short 5)), (0x10104205, .orImm 4 8 (.short 5)),
      (0x10104305, .xorImm 4 8 (.short 5)), (0x10104405, .shlImm 4 8 (.short 5)), (0x10104505, .shrImm 4 8 (.short 5)), (0x10104605, .sarImm 4 8 (.short
      5)), (0x121040B3, .lscanAdd 4 8 true 3), (0x121040B4, .lscanAnd 4 8 true 3), (0x121040B5, .lscanOr 4 8 true 3), (0x121040B6, .lscanXor 4 8 true 3),
      (0x121040B7, .lscanMinI32 4 8 true 3), (0x121040B8, .lscanMaxI32 4 8 true 3), (0x121040C1, .mix32 4 8 12), (0x121040C2, .shfl 4 8 12), (0x121040C9,
      .regroup 4 8 12), (0x122C40C0, .icmp .ne 3 8 12)],
      decodeTableWord 32 x.1 = some x.2 := by decide

theorem test_decode_movs_to_lbcast :
    ∀ x ∈ [(0x140C2809, Instr.movs 3 .stack), (0x14104008, .mov 4 8), (0x14104009, .movs 4 .time), (0x141040C3, .sel 4 8 12 3), (0x16002103, .v2s 4 8),
      (0x160C1800, .voteAny 3 3), (0x160C1801, .voteAll 3 3), (0x16100104, .s2v 4 8), (0x16101802, .voteBall 4 3), (0x16104006, .lredAdd 4 8), (0x16104007,
      .lredAnd 4 8), (0x16104008, .lredOr 4 8), (0x16104009, .lredXor 4 8), (0x1610400A, .lredMinI32 4 8), (0x1610400B, .lredMaxI32 4 8), (0x16104185,
      .lbcast 4 8 12)],
      decodeTableWord 32 x.1 = some x.2 := by decide

theorem test_decode_movsU_to_mix32U :
    ∀ x ∈ [(0x18182030, Instr.movsU 3 .warp), (0x1821000A, .iabsU 4 8), (0x1821000B, .inegU 4 8), (0x18210018, .clzU 4 8), (0x18210019, .popcU 4 8), (0x1821001A,
      .brevU 4 8), (0x18210031, .movU 4 8), (0x18210600, .iaddU 4 8 12), (0x18210601, .isubU 4 8 12), (0x18210602, .imulU 4 8 12), (0x18210603, .imulhI32U 4
      8 12), (0x18210604, .imulhN32U 4 8 12), (0x18210605, .imadU 4 8 12), (0x18210606, .iminI32U 4 8 12), (0x18210607, .iminN32U 4 8 12), (0x18210608,
      .imaxI32U 4 8 12), (0x18210609, .imaxN32U 4 8 12), (0x1821060C, .leaU 4 8 12), (0x1821060D, .iadd64U 4 8 12), (0x18210610, .andU 4 8 12), (0x18210611,
      .orU 4 8 12), (0x18210612, .xorU 4 8 12), (0x18210613, .andnU 4 8 12), (0x18210614, .shlU 4 8 12), (0x18210615, .shrU 4 8 12), (0x18210616, .sarU 4 8
      12), (0x18210617, .rotU 4 8 12), (0x1821061B, .bfeN32U 4 8 12), (0x1821061C, .bfeI32U 4 8 12), (0x1821061D, .bfiU 4 8 12), (0x1821061E, .bilvU 4 8
      12), (0x1821061F, .bdlvU 4 8 12), (0x18210621, .icmpU 4 8 12 .ne), (0x18210632, .mix32U 4 8 12)],
      decodeTableWord 32 x.1 = some x.2 := by decide

theorem test_decode_moviU_to_fcmp :
    ∀ x ∈ [(0x1A201C05, Instr.moviU 4 (.short 5)), (0x1A210005, .iaddUimm 4 8 (.short 5)), (0x1A210405, .andUimm 4 8 (.short 5)), (0x1A210805, .orUimm 4 8
      (.short 5)), (0x1A210C05, .xorUimm 4 8 (.short 5)), (0x1A211005, .shlUimm 4 8 (.short 5)), (0x1A211405, .shrUimm 4 8 (.short 5)), (0x1A211805,
      .sarUimm 4 8 (.short 5)), (0x201040C1, .fadd 4 8 12 .z), (0x201040C5, .fmul 4 8 12 .z), (0x201040C9, .ffma 4 8 12 .z), (0x201040CC, .fsub 4 8 12),
      (0x201040CD, .fmin 4 8 12), (0x201040CE, .fmax 4 8 12), (0x22100011, .fclassFlg 4), (0x22100021, .fclassFlgclr 4), (0x22104001, .fclass 4 8),
      (0x22104002, .frnd 4 8), (0x22104003, .frndRz 4 8), (0x22104004, .frndRd 4 8), (0x22104005, .frndRu 4 8), (0x221040C6, .hadd2F16 4 8 12), (0x221040C7,
      .hadd2Bf16 4 8 12), (0x221040C8, .hmul2F16 4 8 12), (0x221040C9, .hmul2Bf16 4 8 12), (0x221040CA, .hfma2F16 4 8 12), (0x221040CB, .hfma2Bf16 4 8 12),
      (0x222C40C0, .fcmp .ne 3 8 12)],
      decodeTableWord 32 x.1 = some x.2 := by decide

theorem test_decode_rcp_to_atomCasB64 :
    ∀ x ∈ [(0x24104000, Instr.rcp 4 8), (0x24104001, .rsq 4 8), (0x24104002, .sqrt 4 8), (0x24104003, .exp2 4 8), (0x24104004, .log2 4 8), (0x24104005, .sin 4
      8), (0x24104006, .cos 4 8), (0x260C1180, .cvt 3 2 .e4m3 .f32 .ne false), (0x26101202, .cvt 4 2 .i32 .f32 .z false), (0x281040C0, .qhist 4 8 12),
      (0x281040C1, .qscale 4 8 12), (0x281040C2, .qpack 4 8 12), (0x30104029, .ld 4 8 (.short 5) .i8), (0x32104029, .st 4 8 (.short 5) .i8), (0x3400200D,
      .pref 4), (0x3400201D, .prefSc 4), (0x3400208B, .atomXacc 4 8), (0x3410400C, .xaccRd 4 8), (0x3410401C, .xaccRdClr 4 8), (0x341040C0, .atomAdd 4 8
      12), (0x341040C1, .atomAnd 4 8 12), (0x341040C2, .atomOr 4 8 12), (0x341040C3, .atomXor 4 8 12), (0x341040C4, .atomMinI32 4 8 12), (0x341040C5,
      .atomMaxI32 4 8 12), (0x341040C6, .atomMinN32 4 8 12), (0x341040C7, .atomMaxN32 4 8 12), (0x341040C8, .atomXchg 4 8 12), (0x341040C9, .atomCas 4 8
      12), (0x341040CA, .atomFadd 4 8 12), (0x341040CE, .atomAddN64 4 8 12), (0x341040CF, .atomCasB64 4 8 12)],
      decodeTableWord 32 x.1 = some x.2 := by decide

theorem test_decode_cmnEwAddI32_to_tbrArrive :
    ∀ x ∈ [(0x36002084, Instr.cmnEwAddI32 4 8), (0x36002085, .cmnEwAddF32 4 8), (0x36002086, .cmnEwMaxF32 4 8), (0x361040C0, .ldSB32 4 8 12), (0x361040C1,
      .ldSB64 4 8 12), (0x361040C2, .stSB32 4 8 12), (0x361040C3, .stSB64 4 8 12), (0x361040C7, .cmnRedAddI32 4 8 12), (0x361040C8, .cmnRedAddF32 4 8 12),
      (0x361040C9, .cmnRedMaxF32 4 8 12), (0x38000030, .fenceE 3), (0x38142081, .mwait true .eq 4 8), (0x3A000000, .fenceT), (0x3A000002, .tlbSync),
      (0x3A008401, .tlbInv 4 8), (0x3A210004, .asidFree 4 8), (0x3A210005, .asidStat 4 8), (0x3A210603, .asidBind 4 8 12), (0x3A210606, .pgMig 4 8 12),
      (0x3A210607, .pfResume 4 8 12), (0x3A210608, .bbMove 4 8 12), (0x40008005, .tbrRetire 4), (0x40008400, .cpy 4 8), (0x40008401, .cpyFill 4 8),
      (0x40008402, .tbrInit 4 8), (0x40008404, .tbrOwe 4 8), (0x40210003, .tbrArrive 4 8)],
      decodeTableWord 32 x.1 = some x.2 := by decide

theorem test_decode_xrCap_to_seqLoop :
    ∀ x ∈ [(0x4400008B, Instr.xrCap 4), (0x440C0006, .strClose 3), (0x440C000A, .fibClose 3), (0x440C0100, .strOpen 3 8), (0x440C0101, .strOpeni 3 8),
      (0x440C0102, .strAdv 3 8), (0x440C0107, .fibOpen 3 8), (0x440C1805, .strTend 3 3), (0x440C1809, .fibTend 3 3), (0x440C4004, .strPush 3 8),
      (0x44101803, .strPop 4 3), (0x44104068, .fibAdv 4 8 3), (0x4410418C, .xrRoute 4 8 12), (0x48210000, .taskPost 4 8), (0x48210002, .tbufFull 4 8),
      (0x48210003, .tbufEmpty 4 8), (0x48210004, .tbufStat 4 8), (0x48210601, .taskSpawn 4 8 12), (0x4A000004, .grpMeet 4), (0x4A000404, .grpMark 4),
      (0x4A000804, .grpHold 4), (0x5019061A, .mm 3 8 12 .i4 true .k256), (0x5219061A, .mmSp 3 8 12 .i4 true .keep8), (0x54180003, .mmZero 3), (0x54186000,
      .mmXpose 3 3), (0x54186002, .mmRsumF32 3 3), (0x54186005, .mmCvtF32I32 3 3), (0x54186082, .mmRsumI32 3 3), (0x54186085, .mmCvtI32F32 3 3),
      (0x54186601, .mmPerm 3 3 12), (0x54186604, .mmScacc 3 3 12), (0x56000001, .seqEnd), (0x56210000, .seqLoop 4 8)],
      decodeTableWord 32 x.1 = some x.2 := by decide

theorem test_decode_tokTake_to_almSet :
    ∀ x ∈ [(0x5C180001, Instr.tokTake 3), (0x5C180002, .seqBar 3), (0x5C190000, .tokGive 3 8), (0x5C190002, .seqBarMatrix 3 8), (0x5E1018C0, .accLd 4 3 12),
      (0x5E1018C1, .accSt 4 3 12), (0x5E1040C2, .planePack 4 8 12), (0x5E1040C3, .planeUnpack 4 8 12), (0x60000000, .bpoolInit), (0x60104001, .beamMake 4
      8), (0x60104004, .beamFree 4 8), (0x60104005, .beamStat 4 8), (0x60104182, .beamCast 4 8 12), (0x60104183, .beamNext 4 8 12), (0x62104180, .rayCast 4
      8 12), (0x62104181, .rayNext 4 8 12), (0x62104182, .rayResume 4 8 12), (0x641040C0, .texSamp 4 8 12), (0x641040C1, .texFoot 4 8 12), (0x641040C2,
      .texLod 4 8 12), (0x66104180, .rastTri 4 8 12), (0x66104181, .rastNext 4 8 12), (0x68200001, .plvlRd 4), (0x68200002, .time 4), (0x68200003, .cyc 4),
      (0x68210000, .plvl 4 8), (0x68210004, .dline 4 8), (0x68210005, .cntRd 4 8), (0x6A21000C, .sysRd 4 8 12), (0x6A21040C, .sysWr 4 8 12), (0x6A21080C,
      .almSet 4 8 12)],
      decodeTableWord 32 x.1 = some x.2 := by decide

theorem test_decode_yoke_to_wpClr :
    ∀ x ∈ [(0x6C210000, Instr.yoke 4 8), (0x6C210001, .modeStacks 4 8), (0x6C210002, .mclkSw 4 8), (0x6C210003, .repStat 4 8), (0x6E00800A, .trcMark 4),
      (0x6E210002, .dbgHalt 4 8), (0x6E210003, .dbgRes 4 8), (0x6E210004, .dbgStep 4 8), (0x6E210005, .dbgRdv 4 8), (0x6E210006, .dbgWrv 4 8), (0x6E210007,
      .dbgPaths 4 8), (0x6E210008, .trcOn 4 8), (0x6E210009, .trcOff 4 8), (0x6E210180, .wpSet 4 8 3), (0x6E210181, .wpClr 4 8 3)],
      decodeTableWord 32 x.1 = some x.2 := by decide

/-! ### The hypotheses of the statements can be met

Each theorem names the statement; its parts, in order, are its clauses, at the ends of their ranges where a clause has a range. -/

set_option maxRecDepth 8000

namespace Sys2Proof.Tests

/-- Gang 1 with its only warp, resident on core 0 of the one powered stack, in a bound supervisor context whose page table maps the first 2 MiB
of addresses to 0x200000. Lanes 0 and 31 are active. -/
def world : State :=
  { issue := .lane
    here := { pc := 0x6000, npc := 0x600C }
    me := { gid := 1, stack := 0x800000, cur := { pc := 0x6000, mask := 0x80000001 } }
    gang := { gid := 1, inst := 1, st := .resident, localk := 64, pool := 16, regsN := 128, warpsN := 1, mx := true, seq := { st := .running } }
    ctxs := [(0, { st := .bound, priv := true, root := 0x10000 })]
    cores := [(0, { lw := 4 })]
    stks := [(0, { powered := true })]
    sys := { seq := 5 } }

/-- With registers: lane registers by 32 × register + lane, uniform registers, predicates. -/
def regs (s : State) (v u : List (Nat × BitVec 32)) (p : List (Nat × BitVec 32) := []) (rdep : List (Nat × BitVec 7) := []) : State :=
  { s with me := { s.me with regs := { v := v, u := u, p := p, rdep := rdep } } }
/-- With another path in focus. -/
def path (s : State) (f : Path → Path) : State := { s with me := { s.me with cur := f s.me.cur } }
/-- With other paths. -/
def others (s : State) (ps : List Path) : State := { s with me := { s.me with paths := ps } }
/-- With the page table of `world`, every right given; A and D are set. -/
def mapped (s : State) : State := ((s.wr 0x10000 8 0x11001).wr 0x11000 8 0x12001).wr 0x12000 8 0x2000DB
/-- With the one page of `mapped` in the core's cache of translations. -/
def cached (s : State) : State :=
  { mapped s with cores := [(0, { lw := 4, tlb := [{ big := true, pa := 0x200000, w := true, x := true, d := true, at_ := 1 }] })] }
/-- With lane 0 alone. -/
def single (s : State) : State := path s fun p => { p with mask := 1 }
/-- Issued by the sequencer. -/
def sequenced (s : State) (u : List (Nat × BitVec 32) := []) : State :=
  { s with issue := .seq, gang := { s.gang with seq := { s.gang.seq with u := u } } }

/-- In the window of a switch of the memory clock. -/
def inWindow (s : State) : State := { s with sys := { s.sys with mclkEnd := some 1 } }
/-- Whether a read or write of GDDR misses the cache there is the configuration's own draw, of any value. -/
theorem inWindow_draws (s : State) (h : s.now < 1) : (inWindow s).windowMiss = Config.missesCache s.sys.seq := by
  show (decide (s.now < 1) && Config.missesCache s.sys.seq) = _
  rw [decide_eq_true h, Bool.true_and]

/-- Where all lanes reach their bytes without a translation. -/
theorem reaches_untranslated {s : State} {f : MemForm} {r : Nat → Req} {k : Nat → Nat}
    (h : s.me.cur.mask ≠ 0 ∧ s.inFlight s.me s.me.cur = false ∧ ∀ l, l < 32 → s.memMask.getLsbD l = true →
      s.prepare f (r l) = (s, .ok (.mem (k l)) none) ∧ s.walks f (r l) = false ∧ s.defers f (.mem (k l)) = false ∧ s.conflicts (k l) f.size f.writes = []) :
    Reaches s f r k := ⟨h.1, h.2.1, fun l hl hm => let x := h.2.2 l hl hm; ⟨⟨none, x.1⟩, x.2⟩⟩

theorem test_meets_CrossLane : (∃ l, l < 32 ∧ world.act l = true ∧ ∀ m, m < l → world.act m = false) ∧
    ∃ l, l < 32 ∧ (path world fun p => { p with mask := 0x80000000 }).act l = true ∧
      ∀ m, m < l → (path world fun p => { p with mask := 0x80000000 }).act m = false :=
  ⟨⟨0, by decide⟩, 31, by decide⟩

theorem test_meets_Quantisation : ((regs world [(64, 0x7F)] []).v 2 0).toNat.testBit 8 = false ∧ ((regs world [(64, 0x17F)] []).v 2 0).toNat.testBit 8 = true := by
  decide

def brTarget (s : State) (a : BitVec 7) (b : BitVec 6) (l : Nat) : Nat := ((s.uu b).toNat + 12 * (s.v a l).toNat) % 2 ^ 64
/-- v1 is the index and s4:s5 the base. -/
def brWorld (base : BitVec 32) (hi : BitVec 32) (x y : BitVec 32) : State := regs world [(32, x), (63, y)] [(4, base), (5, hi)]

theorem test_meets_Branches :
    (world.issue = .lane ∧ world.me.cur.st = .ready ∧ world.me.trc.on = false) ∧
    (∀ l, l < 32 → (brWorld 0xFFFFFFFC 0xFFFF 0 0).act l = true →
      brTarget (brWorld 0xFFFFFFFC 0xFFFF 0 0) 1 4 l % 12 = 0 ∧ brTarget (brWorld 0xFFFFFFFC 0xFFFF 0 0) 1 4 l < 2 ^ 48) ∧
    (∃ l, l < 32 ∧ (brWorld 1 0 0 1).act l = true ∧ brTarget (brWorld 1 0 0 1) 1 4 l % 12 ≠ 0) ∧
    ((∀ l, l < 32 → (brWorld 0xFFFFFFFC 0xFFFF 0 1).act l = true → brTarget (brWorld 0xFFFFFFFC 0xFFFF 0 1) 1 4 l % 12 = 0) ∧
      (brWorld 0xFFFFFFFC 0xFFFF 0 1).act 31 = true ∧ 2 ^ 48 ≤ brTarget (brWorld 0xFFFFFFFC 0xFFFF 0 1) 1 4 31 ∧
      ∀ m, m < 31 → (brWorld 0xFFFFFFFC 0xFFFF 0 1).act m = true → brTarget (brWorld 0xFFFFFFFC 0xFFFF 0 1) 1 4 m < 2 ^ 48) ∧
    (sequenced world).issue = .seq := by
  and_intros <;> decide

/-- Lanes 0 and 31 at return depths `a` and `b`, p1 true in lane 31. -/
def depths (a b : BitVec 7) : State := regs world [] [(4, 12)] [(1, 0x80000000)] [(0, a), (31, b)]

theorem test_meets_CallsAndReturns :
    ((depths 0 0).issue = .lane ∧ (depths 0 0).me.cur.st = .ready ∧ (depths 0 0).me.trc.on = false) ∧
    (∃ l, l < 32 ∧ (depths 0 64).act l = true ∧ ((depths 0 64).p 1 l != false) = true ∧ (depths 0 64).me.regs.getD l = 64) ∧
    (∀ l, l < 32 → (depths 64 63).act l = true → ((depths 64 63).p 1 l != false) = true → (depths 64 63).me.regs.getD l < 64) ∧
    ((∀ l, l < 32 → (depths 63 0).act l = true → brTarget (depths 63 0) 1 4 l % 12 = 0 ∧ brTarget (depths 63 0) 1 4 l < 2 ^ 48) ∧
      ∀ l, l < 32 → (depths 63 0).act l = true → (depths 63 0).me.regs.getD l < 64) ∧
    ((∀ l, l < 32 → (depths 64 0).act l = true → brTarget (depths 64 0) 1 4 l % 12 = 0 ∧ brTarget (depths 64 0) 1 4 l < 2 ^ 48) ∧
      ∃ l, l < 32 ∧ (depths 64 0).act l = true ∧ (depths 64 0).me.regs.getD l = 64) ∧
    (∃ l, l < 32 ∧ (depths 1 0).act l = true ∧ (depths 1 0).me.regs.getD l = 0) ∧
    ((∀ l, l < 32 → (depths 1 64).act l = true → 0 < (depths 1 64).me.regs.getD l ∧ (depths 1 64).me.regs.getD l ≤ 64) ∧
      ∀ l, l < 32 → (depths 1 64).act l = true → (depths 1 64).rd (world.me.stackAt l (8 * ((depths 1 64).me.regs.getD l - 1))) 8 = 0) ∧
    ((∀ l, l < 32 → (depths 1 1).act l = true → 0 < (depths 1 1).me.regs.getD l ∧ (depths 1 1).me.regs.getD l ≤ 64) ∧
      ((depths 1 1).wr (world.me.stackAt 31 0) 8 13).rd (world.me.stackAt 31 0) 8 % 12 ≠ 0) := by
  and_intros <;> decide

def waits (p : Path) : Bool := match p.st with
  | .ready => true
  | .parked _ => true
  | .stopped _ => true
  | .held _ => true
  | _ => false
/-- A path of lane 1. -/
def second : Path := { id := 1, pc := 0x7000, mask := 2 }

theorem test_meets_JoinAndExit :
    (world.me.trc.on = false ∧ world.me.exited = false ∧ world.me.pre.st = .run ∧ world.me.cur.mask ≠ 0 ∧ world.me.cur.st = .ready ∧ world.me.paths = [] ∧ world.warps = [] ∧
      ∀ p ∈ world.me.cur :: world.me.paths, p.mask ≠ 0 ∧ p.hmode = .none) ∧
    ((∀ p ∈ (others world [second]).me.cur :: (others world [second]).me.paths, p.mask ≠ 0 ∧ p.hmode = .none) ∧
      (∀ p ∈ [second], p.st ≠ .held .trapBusy ∧ p.mask &&& world.me.cur.mask = 0) ∧ (∃ p ∈ [second], p.st = .ready) ∧ ∀ p ∈ [second], waits p = true) ∧
    (let q : Path := { id := 2, pc := 0x6000, mask := 4, st := .join 0x600C 0 }
     world.me.cur.id ≠ q.id ∧ [second, q].Nodup ∧ (∀ p ∈ [second, q], p.st ≠ .held .trapBusy) ∧ (∃ p ∈ [second, q], p.id ≠ q.id ∧ p.st = .ready) ∧
      ((others world [second, q]).me.paths.find? fun p => decide (p.pc = (others world [second, q]).here.pc ∧ p.wpos = (others world [second, q]).here.wpos) &&
        (match p.st with | .join _ _ => true | _ => false)) = some q) := by
  and_intros <;> decide

theorem test_meets_JoinAndExit_apart : ∃ s : State, (∃ p ∈ s.me.paths, p.st = .ready) ∧
    ∀ p ∈ s.me.paths, ∀ a b, p.st = .join a b → (p.pc, p.wpos) ≠ (s.here.pc, s.here.wpos) :=
  ⟨others world [second, { id := 2, pc := 0x8000, mask := 4, st := .join 0x800C 0 }], ⟨second, by decide⟩, by
    intro p hp a b h
    simp only [others, List.mem_cons, List.not_mem_nil, or_false] at hp
    rcases hp with rfl | rfl <;> decide⟩

theorem test_meets_JoinAndExit_calm : ∀ p ∈ [second, { id := 2, pc := 0x6000, mask := 4, st := .join 0x600C 0 }],
    p.st ≠ .held .trapBusy ∧ p.kept = none := by
  decide

/-- A path that waits at its join, at 0x7000. -/
def joinedPath : Path := { second with st := .join 0x700C 0 }

/-- Every path in JOIN: after a join the one in focus is the lowest, after an exit the other one. -/
theorem test_meets_JoinAndExit_lowest :
    (∀ p ∈ (others world [joinedPath]).me.paths, p.mask &&& world.me.cur.mask = 0 ∧ ∃ a b, p.st = .join a b ∧ (p.pc, p.wpos) ≠ (world.here.pc, world.here.wpos)) ∧
    (∀ p ∈ [joinedPath], world.here.pc < p.pc ∧ p.id ≠ world.me.cur.id) ∧ joinedPath.st = .join 0x700C 0 ∧ ∀ p ∈ [joinedPath], p = joinedPath := by
  refine ⟨fun p hp => ?_, by decide, rfl, by simp⟩
  simp only [others, List.mem_singleton] at hp
  subst hp
  exact ⟨by decide, 0x700C, 0, rfl, by decide⟩

/-- The last path of a warp of group 0, alone in it and beside another member. -/
theorem test_meets_JoinAndExit_groups (ms : List Nat) (h : ms = [0] ∨ ms = [0, 1]) :
    let i : Inst := { id := 1, groups := [(0, { members := ms })] }
    let s : State := { world with insts := [i] }
    s.me.paths = [] ∧ s.inst? s.gang.inst = some i ∧ i.groups = [(0, { members := ms })] ∧ (∀ x ∈ s.warps, x.gid = 0) ∧
      32 * s.gang.index + s.me.w ∈ ms ∧ 32 * s.gang.index + s.me.w ∉ ({ members := ms } : Group).arrived ++ ({ members := ms } : Group).gone ∧
      s.outstanding s.me.gid s.me.w = false := by
  rcases h with rfl | rfl <;> decide

/-- Object, argument and handler address of an arm block in s8 to s13. -/
def armed (obj arg h : BitVec 64) : State :=
  regs world [] [(8, obj.setWidth 32), (9, (obj >>> 32).setWidth 32), (10, arg.setWidth 32), (11, (arg >>> 32).setWidth 32),
    (12, h.setWidth 32), (13, (h >>> 32).setWidth 32)]
/-- An instance whose group 0 has the one warp as its member. -/
def theInst : Inst := { id := 1, entry := { ngroups := 1, gangs := 1, warps := 1 }, groups := [(0, { members := [0] })] }

theorem test_meets_EventRegisters_a :
    2 ^ 48 ≤ ((armed 0 0 0x1000000000000).uuAt 8 4).toNat ∧ ((armed 0 0 13).uuAt 8 4).toNat % 12 ≠ 0 := by decide
theorem test_meets_EventRegisters_b :
    ((armed 1 0 0xFFFFFFFFFFFC).uuAt 8 4).toNat < 2 ^ 48 ∧ ((armed 1 0 0xFFFFFFFFFFFC).uuAt 8 4).toNat % 12 = 0 ∧ (armed 1 0 0xFFFFFFFFFFFC).uuAt 8 0 ≠ 0 := by decide
theorem test_meets_EventRegisters_c :
    15 < ((armed 16 0 12).uuAt 8 0).toNat ∧ ((armed 15 0 12).uuAt 8 0).toNat ≤ 15 ∧ (armed 15 0 12).gang.mx = true := by decide
theorem test_meets_EventRegisters_d :
    (armed 0 0 12).uuAt 8 0 = 0 := by decide
theorem test_meets_EventRegisters_e :
    let s := armed 0xFFF000000000FFF0 0 12
    (s.uuAt 8 0).toNat / 2 ^ 48 = 0xFFF0 ∧ (s.uuAt 8 0).toNat % 16 = 0 ∧ (s.uuAt 8 0).toNat % 2 ^ 48 + 16 ≤ s.gang.localk * 1024 ∧
      s.gang.localk ≤ 1024 ∧ s.gang.poolHeld = false ∧ s.gang.base % 8 = 0 ∧ s.gang.st ≠ .saved := by decide
theorem test_meets_EventRegisters_f :
    (armed 0 0 12).mboxKey ((armed 0 0 12).uuAt 8 0 |>.setWidth 32) = some (commonsKey 0 0xFFC000) := by decide
theorem test_meets_EventRegisters_g :
    let s : State := { armed 0 0 12 with insts := [theInst] }
    s.inst? s.gang.inst = some theInst ∧ (s.uuAt 8 0).toNat < theInst.entry.ngroups ∧ (theInst.group 0).members.contains (memberNo s.gang.index s.me.w) = true := by decide


/-- With an event register. -/
def event (n : Nat) (e : EvReg) : State := { world with me := { world.me with ev := [(n, e)] } }

/-- A stamp register whose slot, the last of the own local memory, took the value 3. -/
def stamped : State := { event 0 { kind := .stamp, armed := true, obj := 0xFFF000000000FFF8 } with journal := [(localKey 0 0xFFF8 / 8, 3)] }

theorem stamped_key : stamped.watchKey stamped.gang (stamped.evReg 0).obj (stamped.evReg 0).frame = some (localKey 0 0xFFF8) := by decide

theorem test_meets_WaitsAndDeliveries_a :
    ∀ k, k < 8 → ((((regs world [] [(4, 0xFF)]).u 4).setWidth 8 : BitVec 8).getLsbD k && ((regs world [] [(4, 0xFF)]).evReg k).armed) = false := by decide
theorem test_meets_WaitsAndDeliveries_b :
    let s : State := { world with me := { (regs world [] [(4, 0x80)]).me with ev := [(7, { armed := true })] } }
    ((s.u 4).setWidth 8 : BitVec 8).getLsbD 7 = true ∧ (s.evReg 7).armed = true := by decide
theorem test_meets_WaitsAndDeliveries_c :
    world.me.gid ≠ 0 ∧ world.gang.gid = world.me.gid ∧ world.me.exited = false := by decide
theorem test_meets_WaitsAndDeliveries_d :
    let s := event 7 { kind := .dline, armed := true }
    (s.evReg 7).armed = true ∧ (s.evReg 7).pend = false ∧ (s.evReg 7).kind = .dline ∧ (s.evReg 7).arg ≤ s.now := by decide
theorem test_meets_WaitsAndDeliveries_e :
    let s := event 7 { kind := .beam, armed := true }
    (s.evReg 7).armed = true ∧ (s.evReg 7).pend = false ∧ (s.evReg 7).kind = .beam ∧ (s.evReg 7).arg ≤ s.me.beams := by decide
theorem test_meets_WaitsAndDeliveries_f :
    (stamped.evReg 0).armed = true ∧ (stamped.evReg 0).pend = false ∧ (stamped.evReg 0).kind = .stamp := by decide
theorem test_meets_WaitsAndDeliveries_g :
    ∃ v ∈ stamped.valuesOf stamped.gang (stamped.evReg 0) false, (stamped.evReg 0).arg ≤ v := ⟨3, by
    unfold State.valuesOf; rw [if_neg (by decide), stamped_key]; simp [State.valuesSince, stamped, event, State.evReg, smGet], by decide⟩
theorem test_meets_WaitsAndDeliveries_h :
    let s := path (event 7 { armed := true, pend := true }) fun p => { p with st := .held (.events 0x80 3) }
    s.gang.st = .resident ∧ s.me.pre.st ≠ .saved ∧ s.me.cur.mask ≠ 0 ∧ s.me.halted = false ∧ s.me.trc.on = false ∧ s.me.paths = [] ∧
      s.me.cur.st = .held (.events 0x80 3) ∧ (0x80 : BitVec 8).getLsbD 7 = true ∧ (s.evReg 7).pend = true ∧
      ∀ k, k < 7 → ((0x80 : BitVec 8).getLsbD k && (s.evReg k).pend) = false := by and_intros <;> decide


/-- A token 5 in s8:s9 for mailbox `t`. -/
def sends (t : BitVec 32) : State := regs world [] [(8, 5), (10, t)]

theorem test_meets_Mailboxes_a :
    world.locks = [] := by decide
theorem test_meets_Mailboxes_b :
    (sends 0x7FF).mboxKey ((sends 0x7FF).un 10) = some (commonsKey 0 0xFFFFF8) ∧ (sends 0x7FF).uu 8 ≠ 0 ∧
      (sends 0x7FF).rd (commonsKey 0 0xFFFFF8) 8 = 0 ∧ ((sends 0x7FF).wr (commonsKey 0 0xFFFFF8) 8 9).rd (commonsKey 0 0xFFFFF8) 8 ≠ 0 := by decide
theorem test_meets_Mailboxes_c :
    (sends 0x4000).mboxKey ((sends 0x4000).un 10) = none ∧ (sends 0x800).mboxKey ((sends 0x800).u 10) = none := by decide
theorem test_meets_Mailboxes_d :
    (sends 0).mboxKey ((sends 0).u 10) = some (commonsKey 0 0xFFC000) ∧ (regs world [] [(10, 0)]).uu 8 = 0 := by decide
theorem test_meets_Mailboxes_e :
    let s : State := { world with sys := { world.sys with toks := [7] } }
    s.sys.toks = 7 :: [] ∧ s.pkg.supmbx.toNat < 2 ^ 32 ∧ s.mboxKey (s.pkg.supmbx.setWidth 32) = some (commonsKey 0 0xFFC000) ∧ s.rd (commonsKey 0 0xFFC000) 8 = 0 := by decide


/-- A vector table at 0x100 of the mapped page, with a handler for SOFT traps. -/
def vectored (h : Nat) : State :=
  let s := cached world
  ({ s with ctxs := [(0, { st := .bound, priv := true, root := 0x10000, tvbase := 0x100 })] } : State).wr 0x200120 8 h

theorem test_meets_TrapEntry_a :
    world.issue = .lane ∧ world.me.trc.on = false ∧ world.me.cur.hmode = .none ∧ (world.ctx 0).ending = none := by decide
theorem test_meets_TrapEntry_b :
    (path world fun p => { p with hmode := .trap }).me.cur.hmode ≠ .none := by decide
theorem test_meets_TrapEntry_c :
    ∃ q ∈ (others world [{ second with hmode := .trap }]).me.live, q.hmode ≠ .none := by decide
theorem test_meets_TrapEntry_d :
    (∀ q ∈ world.me.live, q.hmode = .none) ∧ (world.ctx world.gang.asid).tvbase = 0 := by decide
theorem test_meets_TrapEntry_e :
    let s := vectored 0x6000
    (∀ q ∈ s.me.live, q.hmode = .none) ∧ (s.ctx s.gang.asid).tvbase ≠ 0 ∧ (s.ctx s.gang.asid).tvbase.toNat % 64 = 0 ∧
      (s.ctx s.gang.asid).tvbase.toNat + 32 < 2 ^ 48 := by decide
theorem test_meets_TrapEntry_f :
    (vectored 0x6000).translate .read 0x120 = (vectored 0x6000, .ok 0x200120) := by decide
theorem test_meets_TrapEntry_g :
    (vectored 0x6000).rd64 0x200120 = 0x6000 := by decide
theorem test_meets_TrapEntry_h :
    let s := path (vectored 0x6000) fun p => { p with replay := some 1, phase := 2, after := some (0x6030, 0) }
    (∀ q ∈ s.me.live, q.hmode = .none) ∧ s.me.cur.hmode = .none ∧ s.me.cur.after = some (0x6030, 0) := by decide


/-- A vector table whose entry for pre-emption is a handler. -/
def withHandler (h : Nat) : State :=
  let s := cached world
  ({ s with ctxs := [(0, { st := .bound, priv := true, root := 0x10000, tvbase := 0x100 })] } : State).wr 0x200138 8 h

/-- With the pre-emption machine in a state, and a mode of the path. -/
def preempted (h : Hmode) (st : PreSt) (ps : List Path) : State :=
  let s := path (others world ps) fun p => { p with hmode := h }
  { s with me := { s.me with pre := { s.me.pre with st := st } } }

theorem test_meets_HandlerReturns_a :
    world.me.trc.on = false ∧ world.me.exited = false ∧ world.me.cur.mask ≠ 0 ∧ ∀ p ∈ (others world [second]).me.paths, p.hmode = .none ∧ p.st ≠ .held .trapBusy ∧ p.kept = none ∧ p.st = .ready := by decide
theorem test_meets_HandlerReturns_b :
    let s := preempted .trap .run [second]
    s.me.cur.hmode = .trap ∧ s.me.cur.st = .ready ∧ s.me.pre.st = .run := by decide
theorem test_meets_HandlerReturns_c :
    let s := preempted .pre .resumed [second]
    s.me.cur.hmode = .pre ∧ s.me.cur.st = .ready ∧ s.me.pre.st = .resumed ∧ s.me.pre.second = none ∧ ∃ q ∈ s.me.paths, q.mask ≠ 0 ∧ q.st = .ready := by decide
theorem test_meets_HandlerReturns_d :
    world.me.cur.hmode ≠ .trap ∧ world.me.cur.hmode ≠ .pre ∧ world.me.pre.st ≠ .resumed ∧ world.me.pre.st ≠ .pending := by decide
theorem test_meets_HandlerReturns_e :
    (preempted .pre .hnd []).me.cur.hmode = .pre ∧ (preempted .pre .hnd []).me.pre.st = .hnd := by decide
theorem test_meets_HandlerReturns_f :
    let s := preempted .none .pending []
    s.me.cur.hmode ≠ .trap ∧ s.me.pre.st = .pending ∧ (s.ctx s.gang.asid).tvbase = 0 := by decide
theorem test_meets_HandlerReturns_g :
    let s := preempted .pre .resumed [second]
    let s : State := { s with me := { s.me with pre := { s.me.pre with second := some (.priority, 900) } } }
    s.me.cur.hmode = .pre ∧ s.me.cur.st = .ready ∧ s.me.pre.st = .resumed ∧ (∃ q ∈ s.me.paths, q.mask ≠ 0 ∧ q.st = .ready) ∧ (s.ctx s.gang.asid).tvbase = 0 ∧
      s.me.pre.second = some (.priority, 900) := by decide
theorem test_meets_HandlerReturns_h :
    let s := withHandler 0x6000
    let s : State := { s with me := { s.me with pre := { s.me.pre with st := .pending, mask := true } } }
    s.me.pre.st = .pending ∧ (∀ q ∈ s.me.live, q.st = .ready) ∧ (s.vector 7).2 = .ok 0x6000 ∧ (s.vector 7).1.me = s.me := by decide


/-- v2:v3 holds addresses whose upper halves are `hi`: 0 in lane 0, and `x` in lane 31; v4 is 4 in lane 0 and `x` in lane 31. -/
def pointing (hi x : BitVec 32) : State := regs world [(64, 0), (95, x), (96, hi), (127, hi), (128, 4), (159, x)] []
/-- The place that a load or store names. -/
def place (s : State) (a : BitVec 7) (o : Imm 8) (n l : Nat) : BitVec 64 :=
  s.vv a l + (match o with | .short v => v.signExtend 64 | .long v => v.signExtend 64) * BitVec.ofNat 64 n
def loadForm (z : MemSize) (d : BitVec 7) : MemForm := { op := .load z, kind := .read, allow := .plain, size := Machine.sizeOf z, dreg := some d.toNat }
def storeForm (n : Nat) : MemForm := { op := .store n, kind := .write, allow := .plain, size := n }
/-- The last byte, the last word and the last pair of the allocation in lane 31, by a negative index. -/
theorem test_meets_LoadsAndStores_a :
    Reaches (pointing 0xFFF00000 0x10000) (loadForm .i8 5) (fun l => { lane := l, addr := place (pointing 0xFFF00000 0x10000) 2 (.short (if l = 0 then 0 else 0xFF)) 1 l })
        (fun l => localKey 0 (if l = 0 then 0 else 0xFFFF)) := reaches_untranslated (by decide)
theorem test_meets_LoadsAndStores_b :
    Reaches (pointing 0xFFF00000 0xFFF8) (loadForm .b64 6) (fun l => { lane := l, addr := place (pointing 0xFFF00000 0xFFF8) 2 (.long 0) 8 l })
        (fun l => localKey 0 (if l = 0 then 0 else 0xFFF8)) := reaches_untranslated (by decide)
theorem test_meets_LoadsAndStores_c :
    let s := single (regs world [(64, 0xFFFFFFF8), (96, 0xFFF0FFFF)] [])
    s.me.cur.mask ≠ 0 ∧ ∀ l, l < 32 → s.memMask.getLsbD l = true → place s 2 (.short 0) 8 l = 0xFFF0FFFFFFFFFFF8 := by decide
theorem test_meets_LoadsAndStores_d :
    Reaches (pointing 0xFFF00000 0xFFFC) (storeForm 4) (fun l => { lane := l, addr := place (pointing 0xFFF00000 0xFFFC) 2 (.short 0) 4 l, val := 0 })
        (fun l => localKey 0 (if l = 0 then 0 else 0xFFFC)) := reaches_untranslated (by decide)
theorem test_meets_LoadsAndStores_e :
    let s := pointing 0 0x7F8
    Reaches s (loadForm .b64 6) (fun l => { lane := l, addr := BitVec.ofNat 64 (0xFFF1000000000000 + (s.v 2 l + s.v 5 l).toNat) })
      (fun l => world.me.stackAt l (if l = 0 then 0 else 0x7F8)) := reaches_untranslated (by decide)
theorem test_meets_LoadsAndStores_f :
    let s := pointing 0 0x7FC
    Reaches s (storeForm 4) (fun l => { lane := l, addr := BitVec.ofNat 64 (0xFFF1000000000000 + (s.v 2 l + s.v 5 l).toNat), val := (s.v 4 l).setWidth 64 })
      (fun l => world.me.stackAt l (if l = 0 then 0 else 0x7FC)) := reaches_untranslated (by decide)


/-- An atomic on global memory through the cached page, in lane 0. -/
def cachedLane : State := single (regs (cached world) [(64, 0x1FFFF8), (128, 7)] [])

theorem test_meets_Atomics_a :
    let s := pointing 0xFFF00000 0xFFFC
    Reaches s { op := .atom .cas, kind := .atomic, allow := .atomic, size := 4, dreg := some 5 }
      (fun l => { lane := l, addr := s.vv 2 l, val := (s.v 4 l).setWidth 64, old := (s.v 5 l).setWidth 64 }) (fun l => localKey 0 (if l = 0 then 0 else 0xFFFC)) := reaches_untranslated (by decide)
theorem test_meets_Atomics_b :
    Reaches cachedLane { op := .atom .add64, kind := .atomic, allow := .atomic, size := 8, dreg := some 6 }
      (fun l => { lane := l, addr := cachedLane.vv 2 l, val := cachedLane.vv 4 l, old := cachedLane.vv 6 l }) (fun _ => 0x3FFFF8) := ⟨by decide, by decide, fun l hl hm => by
    obtain rfl : l = 0 := (by decide : ∀ l, l < 32 → cachedLane.memMask.getLsbD l = true → l = 0) l hl hm
    exact ⟨⟨some (0, 31), by decide⟩, by decide⟩⟩


/-- One address of each kind, in lane 0 beside a good one in lane 31: v2:v3. -/
def oneBad (lo hi : BitVec 32) : State := regs world [(64, lo), (95, 8), (96, hi), (127, 0xFFF00000)] []

theorem test_meets_LaneChecks_a :
    (∀ p ∈ (others world [second]).me.paths, p.mask ≠ 0 ∧ ∃ l, l < 32 ∧ p.mask.getLsbD l = true ∧ world.act l = false) ∧
      (∃ l, l < 32 ∧ world.act l = true) ∧ world.locks = [] ∧ world.me.cur.replay = none ∧ world.me.trc.on = false ∧ world.sys.mclkEnd = none := by decide
theorem test_meets_LaneChecks_b :
    let s := oneBad 0 0xFFF40000
    (∀ l, l < 32 → s.act l = true → (s.vv 2 l).toNat / 2 ^ 48 ≠ 0) ∧ s.act 31 = true ∧ s.vv 2 31 = 0xFFF0000000000008 := by decide
theorem test_meets_LaneChecks_c :
    let s := oneBad 0x10000 0xFFF00000
    (∀ l, l < 32 → s.act l = true → (s.vv 2 l).toNat / 2 ^ 48 ≠ 0) ∧ s.act 31 = true ∧ s.vv 2 31 = 0xFFF0000000000008 := by decide
theorem test_meets_LaneChecks_d :
    let s := oneBad 0x800 0xFFF10000
    (∀ l, l < 32 → s.act l = true → (s.vv 2 l).toNat / 2 ^ 48 ≠ 0) ∧ s.act 31 = true ∧ s.vv 2 31 = 0xFFF0000000000008 := by decide
theorem test_meets_LaneChecks_e :
    let s := oneBad 2 0xFFF00000
    (∀ l, l < 32 → s.act l = true → (s.vv 2 l).toNat / 2 ^ 48 ≠ 0) ∧ s.act 31 = true ∧ s.vv 2 31 = 0xFFF0000000000008 := by decide
theorem test_meets_LaneChecks_f :
    let s := oneBad 0 0xFFF30100
    (∀ l, l < 32 → s.act l = true → (s.vv 2 l).toNat / 2 ^ 48 ≠ 0) ∧ s.act 31 = true ∧ s.vv 2 31 = 0xFFF0000000000008 := by decide
theorem test_meets_LaneChecks_g :
    let s := oneBad 0xFFFFFFF8 0xFFF0FFFF
    (∀ l, l < 32 → s.act l = true → (s.vv 2 l).toNat / 2 ^ 48 ≠ 0) ∧ s.act 31 = true ∧ s.vv 2 31 = 0xFFF0000000000008 := by decide
theorem test_meets_LaneChecks_h :
    let s : State := { oneBad 0xFFF8 0xFFF00000 with gang := { world.gang with poolHeld := true } }
    s.gang.poolHeld = true ∧ s.gang.localk * 1024 < (s.vv 2 0).toNat % 2 ^ 48 + 8 + (64 + 160 * s.gang.pool) ∧ (s.vv 2 0).toNat % 2 ^ 48 + 8 ≤ s.gang.localk * 1024 ∧
      s.act 31 = true ∧ s.vv 2 31 = 0xFFF0000000000008 := by decide


/-- A user's warp whose lanes name local bytes 0 to 7 and 8 to 15, the latter in the range of a copy. -/
def lockedWorld : State :=
  { pointing 0xFFF00000 8 with
    ctxs := [(0, { st := .bound, root := 0x10000 })]
    ops := [{ id := 5, phase := .started, locks := [{ base := localKey 0 8, len := 8, full := true }] }] }

theorem test_meets_LaneChecks_locked_a :
    lockedWorld.ownStreams = [] ∧ lockedWorld.priv = false ∧ lockedWorld.me.cur.replay = none ∧ lockedWorld.sys.mclkEnd = none ∧ lockedWorld.issue = .lane ∧
      lockedWorld.me.cur.hmode = .none ∧ (∀ q ∈ lockedWorld.me.live, q.hmode = .none) ∧ (lockedWorld.ctx lockedWorld.gang.asid).tvbase = 0 ∧
      lockedWorld.inFlight lockedWorld.me lockedWorld.me.cur = false := by decide
theorem test_meets_LaneChecks_locked_b :
    ∀ l, l < 32 → lockedWorld.act l = true → lockedWorld.prepare (loadForm .b64 6) { lane := l, addr := place lockedWorld 2 (.short 0) 8 l } =
      (lockedWorld, .ok (.mem (localKey 0 (if l = 0 then 0 else 8))) none) := by decide
theorem test_meets_LaneChecks_locked_c :
    lockedWorld.act 31 = true ∧ lockedWorld.conflicts (localKey 0 8) 8 false ≠ [] ∧ lockedWorld.conflicts (localKey 0 0) 8 false = [] := by decide


/-- Lane 0 names the unmapped first page, lane 31 the start of the local memory. -/
def parking : State := regs world [(64, 0), (95, 0), (96, 0), (127, 0xFFF00000)] []

theorem test_meets_LaneChecks_parks_a :
    parking.me.cur.mask ≠ 0 ∧ parking.inFlight parking.me parking.me.cur = false := by decide
theorem test_meets_LaneChecks_parks_b :
    parking.prepare (loadForm .b32 6) { lane := 0, addr := place parking 2 (.short 0) 4 0 } = (parking, .fault 1) := by decide
theorem test_meets_LaneChecks_parks_c :
    let s := parking
    s.prepare (loadForm .b32 6) { lane := 31, addr := place s 2 (.short 0) 4 31 } = (s, .ok (.mem (localKey 0 0)) none) ∧ s.defers (loadForm .b32 6) (.mem (localKey 0 0)) = false ∧
      s.conflicts (localKey 0 0) 4 false = [] := by decide


def cell : State := single (regs world [(64, 0x40), (96, 0xFFF30000), (128, 0x3F800000)] [])
def cellForm (o : AccOp) : MemForm := { op := o, kind := .atomic, allow := .commons, size := 64 }

theorem test_meets_ExactCells_a :
    0 < 32 ∧ (∀ m, m < 32 → cell.act m = decide (m = 0)) ∧ cell.me.cur.replay = none := by decide
theorem test_meets_ExactCells_b :
    Reaches cell (cellForm (.store 64)) (fun l => { lane := l, addr := cell.vv 2 l, val := (cell.v 4 l).setWidth 64 }) (fun _ => commonsKey 0 0x40) := reaches_untranslated (by decide)
theorem test_meets_ExactCells_c :
    Reaches cell (cellForm (.load .b32)) (fun l => { lane := l, addr := cell.vv 2 l }) (fun _ => commonsKey 0 0x40) := reaches_untranslated (by decide)


/-- v2:v3 of lane 0 is the row at the end of the 12 KiB under the mailboxes, with a path of lane 1 beside. -/
def bank (lo hi : BitVec 32) : State := others (regs world [(64, lo), (96, hi)] []) [second]

theorem test_meets_BankOperations_a :
    (bank 0xFFBF80 0xFFF30000).locks = [] ∧ (bank 0xFFBF80 0xFFF30000).steer (bank 0xFFBF80 0xFFF30000).first .commons 4 128 false
      ((bank 0xFFBF80 0xFFF30000).vv 2 (bank 0xFFBF80 0xFFF30000).first) = .ok (.mem (commonsKey 0 0xFFBF80)) := by decide
theorem test_meets_BankOperations_b :
    (bank 0xFFBFFC 0xFFF30000).locks = [] ∧ (bank 0xFFBFFC 0xFFF30000).steer (bank 0xFFBFFC 0xFFF30000).first .commons 4 4 false
      ((bank 0xFFBFFC 0xFFF30000).vv 2 (bank 0xFFBFFC 0xFFF30000).first) = .ok (.mem (commonsKey 0 0xFFBFFC)) := by decide
theorem test_meets_BankOperations_c :
    let s := bank 0 0xFFF00000
    s.me.trc.on = false ∧ s.me.exited = false ∧ s.me.pre.st = .run ∧ (∀ q ∈ s.me.cur :: s.me.paths, q.hmode = .none ∧ q.st = .ready ∧ q.kept = none) ∧
      (∃ q ∈ s.me.paths, q.mask ≠ 0 ∧ q.st = .ready ∧ q.mask &&& s.me.cur.mask = 0) ∧ s.me.cur.mask ≠ 0 := by decide
theorem test_meets_BankOperations_d :
    (bank 0 0xFFF00000).steer 0 .commons 4 128 false ((bank 0 0xFFF00000).vv 2 0) = .error 2 ∧ (bank 4 0xFFF30000).steer 0 .commons 4 128 false ((bank 4 0xFFF30000).vv 2 0) = .error 3 := by decide
theorem test_meets_BankOperations_e :
    (bank 2 0xFFF30000).steer 0 .commons 4 4 false ((bank 2 0xFFF30000).vv 2 0) = .error 3 := by decide


/-- An engine operation of gang 1. -/
def anOp : EngOp := { id := 3, gid := 1, phase := .started, fence := 2 }
def withOps (os : List EngOp) : State := { world with ops := os }
/-- Held, with other paths. -/
def heldBy (w : Wait) : State := path world fun p => { p with st := .held w }

theorem test_meets_FencesAndWaits_a :
    (∀ o ∈ world.ops, ¬ o.gid = world.gang.gid) ∧
      (∃ o ∈ (withOps [anOp]).ops, o.gid = (withOps [anOp]).gang.gid ∧ o.w = (withOps [anOp]).me.w ∧ (o.phase = .registered ∨ o.phase = .started) ∧ o.closing = true ∧
        ((4 : BitVec 3) = 0 ∨ (4 : BitVec 3).getLsbD o.fence = true)) := by decide
theorem test_meets_FencesAndWaits_b :
    let s := pointing 0xFFF00000 0
    s.locks = [] ∧ s.windowMiss = false ∧ s.steer s.first .atomic 8 8 false (s.vv 2 s.first) = .ok (.mem (localKey 0 0)) ∧ BitVec.ofNat 64 (s.rd (localKey 0 0) 8) = (0 : BitVec 64) ∧ s.vv 4 s.first ≠ 0 := by decide
theorem test_meets_FencesAndWaits_c :
    let s := cachedLane
    s.locks = [] ∧ s.steer s.first .atomic 8 8 false (s.vv 2 s.first) = .ok (.global 0x1FFFF8) ∧ s.translate .read 0x1FFFF8 = (s, .ok 0x3FFFF8) := by decide
theorem test_meets_FencesAndWaits_d :
    let s : State := { pointing 0xFFF20100 8 with gangs := [{ gid := 2, st := .resident, core := 1, localk := 64 }], cores := [(1, { lw := 1 })] }
    s.steer s.first .atomic 8 8 false (s.vv 2 s.first) = .ok (.remote 1 0) ∧ s.inAllocation 1 s.gang.asid 0 8 = true := by decide
theorem test_meets_FencesAndWaits_e :
    let s := others (heldBy (.mwait .ne true 0xFFF0000000000008 0 0 (localKey 0 8) [])) [second]
    s.me.gid ≠ 0 ∧ s.gang.gid = s.me.gid ∧ s.me.halted = false ∧ s.me.cur.mask ≠ 0 ∧ (∀ q ∈ s.me.paths, q.id ≠ s.me.cur.id) ∧ s.warps = [] ∧
      s.watchKey s.gang 0xFFF0000000000008 (localKey 0 8) = some (localKey 0 8) := by decide
theorem test_meets_FencesAndWaits_f :
    ∃ s : State, s.me.cur.st = .held (.mwait .ne true 0xFFF0000000000008 0 0 (localKey 0 8) []) ∧ (∃ v ∈ s.valuesPast [] ++ s.valuesSince (localKey 0 8) 0, v ≠ 0) := ⟨{ heldBy (.mwait .ne true 0xFFF0000000000008 0 0 (localKey 0 8) []) with journal := [(localKey 0 8 / 8, 1)] }, rfl, 1, by simp [State.valuesSince, State.valuesPast], by decide⟩
theorem test_meets_FencesAndWaits_g :
    ∃ s : State, s.me.cur.st = .held (.mwait .ne true 0xFFF0000000000008 0 0 (localKey 0 8) []) ∧ ∀ v ∈ s.valuesPast [] ++ s.valuesSince (localKey 0 8) 0, ¬ v ≠ 0 := ⟨heldBy (.mwait .ne true 0xFFF0000000000008 0 0 (localKey 0 8) []), rfl, by simp [State.valuesSince, State.valuesPast, heldBy, path, world]⟩
theorem test_meets_FencesAndWaits_h :
    ∃ s : State, s.me.cur.st = .held (.mwait .eq true 0xFFF0000000000008 1 1 (localKey 0 8) [(localKey 1 8, 0, 1)]) ∧
      ∃ v ∈ s.valuesPast [(localKey 1 8, 0, 1)] ++ s.valuesSince (localKey 0 8) 1, v = 1 := ⟨{ heldBy (.mwait .eq true 0xFFF0000000000008 1 1 (localKey 0 8) [(localKey 1 8, 0, 1)]) with journal := [(localKey 1 8 / 8, 1)] }, rfl, 1,
    by simp [State.valuesPast], rfl⟩
theorem test_meets_FencesAndWaits_i :
    let s := heldBy (.range [3])
    s.me.cur.st = .held (.range [3]) ∧ (∀ i ∈ [3], (∀ o ∈ s.ops, o.id ≠ i) ∧ ∀ m ∈ s.sys.migs, m.id ≠ i) := ⟨rfl, by decide⟩
theorem test_meets_FencesAndWaits_j :
    ∃ i ∈ [3], (∃ o ∈ (withOps [anOp]).ops, o.id = i) ∨ ∃ m ∈ (withOps [anOp]).sys.migs, m.id = i := by decide


/-- One access in flight. -/
def flying (a : Acc) : State := { world with accs := [a] }
def anAcc : Acc := { id := 4, gid := 1, lane := 31, op := .load .b64, addr := 0xFFF0000000000008, key := localKey 0 8, size := 8, dreg := some 6 }
/-- Its twin at core 1, whose local memory ends with the gang's allocation there, or is not covered by it. -/
def farAcc (o : Nat) : Acc := { anAcc with remote := some (1, o), key := localKey 1 o }
def farWorld (o : Nat) : State :=
  { flying (farAcc o) with cores := [(0, { lw := 4 }), (1, { lw := 1 })], gangs := [{ gid := 2, st := .resident, core := 1, localk := 64 }] }

theorem test_meets_AccessesInFlight_a :
    let s := flying anAcc
    s.accs = [anAcc] ∧ s.me.gid ≠ 0 ∧ anAcc.gid = s.me.gid ∧ anAcc.w = s.me.w ∧ s.gang.gid = s.me.gid ∧ anAcc.lane < 32 ∧ s.me.stops = [] ∧ s.me.trc.on = false := by decide
theorem test_meets_AccessesInFlight_b :
    let s := flying anAcc
    (s.core s.coreNo).wps = [] ∧ s.sys.mclkEnd = none ∧ (∀ g ∈ s.gang :: s.gangs, g.array = none) ∧ s.gang.queue = [] ∧ (∀ x ∈ s.me :: s.warps, x.leaves = false) ∧ s.locks = [] ∧ anAcc.remote = none ∧ anAcc.st = .waiting := by decide
theorem test_meets_AccessesInFlight_c :
    let s := farWorld 0xFFF8
    (farAcc 0xFFF8).remote = some (1, 0xFFF8) ∧ (farAcc 0xFFF8).st = .waiting ∧ (s.now - (farAcc 0xFFF8).time).toNat ≤ 65536 ∧ s.powered (1 / 32) = true ∧ s.locks = [] ∧ 0xFFF8 + (farAcc 0xFFF8).size ≤ (s.core 1).lw * 65536 := by decide
theorem test_meets_AccessesInFlight_d :
    ∃ g ∈ (farWorld 0xFFF8).gang :: (farWorld 0xFFF8).gangs, g.gid ≠ 0 ∧ g.st = .resident ∧ g.asid = (farAcc 0xFFF8).asid ∧ g.poolHeld = false ∧ 32 * g.stk + g.core = 1 ∧ g.base ≤ 0xFFF8 ∧
      0xFFF8 + 8 ≤ g.base + g.localk * 1024 := by decide
theorem test_meets_AccessesInFlight_e :
    ¬ 0x10000 + (farAcc 0x10000).size ≤ ((farWorld 0x10000).core 1).lw * 65536 := by decide
theorem test_meets_AccessesInFlight_f :
    let s : State := { farWorld 0xFFF8 with gangs := [{ gid := 2, st := .resident, core := 1, localk := 64, poolHeld := true }] }
    ∃ g ∈ s.gang :: s.gangs, g.gid ≠ 0 ∧ g.st = .resident ∧ g.poolHeld = true ∧ 32 * g.stk + g.core = 1 ∧
      g.base + g.localk * 1024 < 0xFFF8 + 8 + (64 + 160 * g.pool) ∧ 0xFFF8 < g.base + g.localk * 1024 := by decide
theorem test_meets_AccessesInFlight_g :
    (flying { anAcc with st := .sent, ret := 7 }).accs = [{ anAcc with st := .sent, ret := 7 }] := by decide
theorem test_meets_AccessesInFlight_h :
    let s := flying { anAcc with st := .refused, code := 8 }
    s.act 31 = true ∧ s.me.exited = false ∧ (∃ l, l < 32 ∧ l ≠ 31 ∧ s.act l = true) ∧
      ∀ p ∈ s.me.paths, p.mask.getLsbD 31 = true → ∃ l, l < 32 ∧ l ≠ 31 ∧ p.mask.getLsbD l = true := by decide
theorem test_meets_AccessesInFlight_i :
    let s : State := { flying { anAcc with key := localKey 0 0xFFF8 } with gang := { world.gang with poolHeld := true } }
    (∃ g ∈ s.gang :: s.gangs, g.gid ≠ 0 ∧ g.st = .resident ∧ g.poolHeld = true ∧ 32 * g.stk + g.core = 0 ∧
        g.base + g.localk * 1024 < 0xFFF8 + 8 + (64 + 160 * g.pool) ∧ 0xFFF8 < g.base + g.localk * 1024) ∧
      ∀ g ∈ (flying anAcc).gang :: (flying anAcc).gangs, g.poolHeld = false := by decide
theorem test_meets_AccessesInFlight_j :
    let a : Acc := { anAcc with op := .atom .cas, size := 4, val := 7, old := 3 }
    a.size = AtomKind.cas.size ∧ a.val.toNat < 256 ^ 4 ∧ a.old.toNat < 256 ^ 4 := by decide
theorem test_meets_AccessesInFlight_k :
    let s : State := { farWorld 8 with pkg := { (farWorld 8).pkg with time := 65536 } }
    65536 ≤ (s.now - (farAcc 8).time).toNat := by decide


def hostOp (t : HostTarget) (n : Nat) : HostOp := { target := t, size := n, act := .store 1 }

def serving (s : State) : State := { s with pkg := { s.pkg with stage := .serve } }

theorem test_meets_HostAccesses_a :
    let h := hostOp (.mbox 0x7FF) 8
    let s := serving world
    world.pkg.stage ≠ .serve ∧ s.pkg.stage = .serve ∧ 0 < h.size ∧ h.size ≤ 8 ∧ s.sys.mclkEnd = none ∧ s.mboxKey 0x7FF = some (commonsKey 0 0xFFFFF8) ∧
      s.conflicts (commonsKey 0 0xFFFFF8) 8 true = [] := by decide
theorem test_meets_HostAccesses_b :
    let l : Lock := { base := commonsKey 0 0xFFFFF8, len := 1, full := true }
    (serving (withOps [{ anOp with locks := [l] }])).conflicts (commonsKey 0 0xFFFFF8) 8 true ≠ [] := by decide
theorem test_meets_HostAccesses_c :
    let s := serving (cached world)
    s.q3Walk 0 .write 0x1FFFFF = (s, .ok 0x3FFFFF) ∧ s.conflicts 0x3FFFFF 1 true = [] ∧ 0x1FFFFF % 2 ^ 16 + 1 ≤ 2 ^ 16 := by decide
theorem test_meets_HostAccesses_d :
    (serving world).q3Walk 0 .read 0 = (serving world, .error 1) := by decide
theorem test_meets_HostAccesses_e :
    ∀ _ : Config.missesCache 5 = true, (inWindow (serving world)).windowMiss = true ∧ (inWindow (serving world)).pkg.stage = .serve := fun h => ⟨(inWindow_draws _ (by decide)).trans h, rfl⟩


/-- The conditions that the walk statement names. -/
def nextTable (e : BitVec 64) : Nat := e.toNat / 2 ^ 8 % 2 ^ 32 * 2 ^ 8
def isPointer (s : State) (level a : Nat) : Prop :=
  a + 8 ≤ gddrTop ∧ (s.rd64 a).getLsbD 0 = true ∧ (s.rd64 a).getLsbD 1 = false ∧ (s.rd64 a).toNat / 2 ^ 52 = 0 ∧
    (s.rd64 a).toNat / 2 ^ 40 % 2 ^ 8 = 0 ∧ (s.rd64 a).toNat / 2 ^ 2 % 2 ^ 6 = 0 ∧ (2 ≤ level → nextTable (s.rd64 a) % 4096 = 0)
def isLeaf (s : State) (a size : Nat) : Prop :=
  a + 8 ≤ gddrTop ∧ (s.rd64 a).getLsbD 0 = true ∧ (s.rd64 a).getLsbD 1 = true ∧ (s.rd64 a).getLsbD 2 = false ∧
    (s.rd64 a).toNat / 2 ^ 52 = 0 ∧ (s.rd64 a).toNat / 2 ^ 40 % 2 ^ 8 = 0 ∧ nextTable (s.rd64 a) % size = 0
def isGranted (s : State) (sup : Bool) (want : Want) (a : Nat) : Prop :=
  nextTable (s.rd64 a) < gddrTop ∧ ((s.rd64 a).getLsbD 5 = true → sup = true) ∧ (want = .write → (s.rd64 a).getLsbD 3 = true) ∧
    (want = .fetch → (s.rd64 a).getLsbD 4 = true)
/-- With a 64 KiB page under the last entry of the last table: address 0x1F0000 maps to 0x30000, readable alone. -/
def smallPage : State := (((world.wr 0x10000 8 0x11001).wr 0x11000 8 0x12001).wr 0x12000 8 0x13001).wr 0x130F8 8 0x30003

theorem test_meets_Walks_a :
    0x1FFFFF < 2 ^ 48 ∧ (world.ctx 1).st ≠ .bound ∧ (world.ctx 0).st = .bound ∧ (world.ctx 0).root.toNat = 0x10000 := by decide
theorem test_meets_Walks_b :
    isPointer smallPage 3 0x10000 ∧ isPointer smallPage 2 0x11000 ∧ isPointer smallPage 1 0x12000 := by unfold isPointer; decide
theorem test_meets_Walks_c :
    isLeaf smallPage (0x13000 + 8 * (0x1FFFFF / 2 ^ 16 % 32)) (2 ^ 16) ∧ isGranted smallPage false .read 0x130F8 ∧ ¬ isGranted smallPage true .write 0x130F8 := by unfold isLeaf isGranted; decide
theorem test_meets_Walks_d :
    isPointer (mapped world) 3 0x10000 ∧ isPointer (mapped world) 2 0x11000 := by unfold isPointer; decide
theorem test_meets_Walks_e :
    isLeaf (mapped world) 0x12000 (2 ^ 21) ∧ isGranted (mapped world) false .write 0x12000 ∧ ¬ isGranted (world.wr 0x12000 8 0x2000FB) false .write 0x12000 := by unfold isLeaf isGranted; decide
theorem test_meets_Walks_f :
    0x10000 + 8 ≤ gddrTop ∧ (world.rd64 0x10000).getLsbD 0 = false := by decide
theorem test_meets_Walks_g :
    let s : State := { world with ctxs := [(0, { st := .bound, root := BitVec.ofNat 64 gddrTop })] }
    (s.ctx 0).st = .bound ∧ gddrTop < (s.ctx 0).root.toNat + 8 := by decide
theorem test_meets_Walks_h :
    let s := world.wr 0x10000 8 3
    (s.rd64 0x10000).getLsbD 0 = true ∧ (s.rd64 0x10000).getLsbD 1 = true := by decide
theorem test_meets_Walks_i :
    0x13000 + 8 ≤ gddrTop ∧ (smallPage.rd64 0x13000).getLsbD 0 = false ∧ ((smallPage.wr 0x13000 8 1).rd64 0x13000).getLsbD 0 = true ∧
      ((smallPage.wr 0x13000 8 1).rd64 0x13000).getLsbD 1 = false := by decide
theorem test_meets_Walks_j :
    isPointer (smallPage.wr 0x11000 8 0x3001) 3 0x10000 ∧ (smallPage.rd64 0x11FF8).getLsbD 0 = false ∧
      ((smallPage.wr 0x11000 8 3).rd64 0x11000).getLsbD 0 = true ∧ ((smallPage.wr 0x11000 8 3).rd64 0x11000).getLsbD 1 = true ∧
      ((smallPage.wr 0x11000 8 0x10000000012001).rd64 0x11000).toNat / 2 ^ 52 ≠ 0 := by unfold isPointer; decide
theorem test_meets_Walks_k :
    isPointer smallPage 3 0x10000 ∧ isPointer smallPage 2 0x11000 ∧ ((smallPage.wr 0x12000 8 0x1F0003).rd64 0x12000).getLsbD 1 = true ∧
      nextTable ((smallPage.wr 0x12000 8 0x1F0003).rd64 0x12000) % 2 ^ 21 ≠ 0 ∧ ((smallPage.wr 0x12000 8 0x13009).rd64 0x12000).getLsbD 1 = false ∧
      ((smallPage.wr 0x12000 8 0x13009).rd64 0x12000).toNat / 2 ^ 3 % 2 ^ 5 ≠ 0 := by unfold isPointer; decide
theorem test_meets_Walks_l :
    let s : State := smallPage.wr 0x12000 8 0xFFFFFFFF01
    gddrTop < nextTable (s.rd64 0x12000) + 8 * 31 + 8 ∧ nextTable ((smallPage.wr 0x130F8 8 0x38003).rd64 0x130F8) % 2 ^ 16 ≠ 0 := by decide


/-- s4 is the control word, s6:s7 the address. -/
def invalidates (c : BitVec 32) (va : BitVec 64) : State := regs world [] [(4, c), (6, va.setWidth 32), (7, (va >>> 32).setWidth 32)]
def aShoot : Shoot := { id := 9, gid := 1 }

theorem test_meets_Shootdowns_a :
    2 ^ 16 ≤ ((invalidates 0x10000 0).u 4).toNat ∧ ((invalidates 0x1000 0).u 4).toNat / 2 ^ 12 % 4 ≠ 0 ∧ ((invalidates 0xC001 0).u 4).toNat / 2 ^ 14 = 3 ∧
      ((invalidates 0xC001 0).u 4).toNat % 2 ^ 12 ≠ 0 := by decide
theorem test_meets_Shootdowns_b :
    let s := invalidates 0x4FFF 0x1000000000000
    ¬ (2 ^ 16 ≤ (s.u 4).toNat ∨ (s.u 4).toNat / 2 ^ 12 % 4 ≠ 0) ∧ (s.u 4).toNat / 2 ^ 14 < 2 ∧ 2 ^ 48 ≤ (s.uu 6).toNat := by decide
theorem test_meets_Shootdowns_c :
    let s := invalidates 0x4FFF 0xFFFFFFFFFFFF
    ¬ (2 ^ 16 ≤ (s.u 4).toNat ∨ (s.u 4).toNat / 2 ^ 12 % 4 ≠ 0) ∧ (s.u 4).toNat / 2 ^ 14 < 2 ∧ (s.uu 6).toNat < 2 ^ 48 ∧ s.sys.shoots.length < 32 := by decide
theorem test_meets_Shootdowns_d :
    32 ≤ ({ world with sys := { world.sys with shoots := List.replicate 32 aShoot } } : State).sys.shoots.length := by decide
theorem test_meets_Shootdowns_e :
    (∀ x ∈ world.sys.shoots, x.gid ≠ world.gang.gid ∨ x.w ≠ world.me.w) ∧ aShoot.gid = world.gang.gid ∧ aShoot.w = world.me.w := by decide
theorem test_meets_Shootdowns_f :
    smWf {} 0 world.cores = true ∧ smWf {} 0 world.stks = true ∧ aShoot.acked = false := by decide
theorem test_meets_Shootdowns_g :
    let x : Shoot := { aShoot with acked := true, accs := [1], ops := [1] }
    x.acked = true ∧ (∀ a ∈ world.accs, a.id ∉ x.accs) ∧ (∀ o ∈ (withOps [anOp]).ops, o.id ∉ x.ops) := by decide


/-- s4 is an identifier with its bits, s6:s7 a root. -/
def binds (c : BitVec 32) (root : BitVec 64) (cs : List (Nat × Ctx)) : State := { invalidates c root with ctxs := cs }

theorem test_meets_Asids_a :
    2 ^ 13 ≤ ((binds 0x2000 0 []).u 4).toNat ∧ 2 ^ 12 ≤ ((binds 0x1000 0 []).u 4).toNat := by decide
theorem test_meets_Asids_b :
    let s := binds 0x1FFF 0 [(0xFFF, { st := .bound })]
    (s.u 4).toNat < 2 ^ 13 ∧ (s.ctx ((s.u 4).toNat % 2 ^ 12)).st ≠ .free := by decide
theorem test_meets_Asids_c :
    let s := binds 0x1FFF (BitVec.ofNat 64 (gddrTop - 4095)) []
    (s.ctx ((s.u 4).toNat % 2 ^ 12)).st = .free ∧ ¬ ((s.uu 6).toNat % 4096 = 0 ∧ (s.uu 6).toNat + 4096 ≤ gddrTop) := by decide
theorem test_meets_Asids_d :
    let s := binds 0x1FFF (BitVec.ofNat 64 (gddrTop - 4096)) ((List.range 16).map fun n => (n, { st := .bound }))
    (s.ctx ((s.u 4).toNat % 2 ^ 12)).st = .free ∧ ((s.uu 6).toNat % 4096 = 0 ∧ (s.uu 6).toNat + 4096 ≤ gddrTop) ∧ 16 ≤ (s.ctxs.filter fun c => c.2.st == .bound).length := by decide
theorem test_meets_Asids_e :
    (((binds 0 0 ((List.range 15).map fun n => (n, { st := .bound }))).ctxs.filter fun c => c.2.st == .bound).length) < 16 := by decide
theorem test_meets_Asids_f :
    let s := binds 0xFFF 0 [(0xFFF, { st := .bound })]
    (s.u 4).toNat < 2 ^ 12 ∧ (s.ctx 0xFFF).st = .bound ∧ (∀ i ∈ s.insts, i.asid = 0xFFF → i.ended = true) ∧ smWf {} 0 s.cores = true ∧ smWf {} 0 s.stks = true ∧
      ∀ g ∈ s.gang :: s.gangs, g.gid ≠ 0 → g.asid = 0xFFF → g.st ≠ .resident ∧ g.st ≠ .saved := by decide
theorem test_meets_Asids_g :
    ((binds 0 0 [(7, { st := .purging })]).ctx 7).st = .purging ∧ ∀ o ∈ (withOps [anOp]).ops, o.asid ≠ 7 := by decide


/-- s4:s5 names the page of `smallPage`, s6:s7 where it goes. -/
def migrates (hi : BitVec 32) (dest : BitVec 64) : State :=
  regs smallPage [] [(4, 0x1F0000), (5, hi), (6, dest.setWidth 32), (7, (dest >>> 32).setWidth 32)]
def aMig : Mig := { id := 5, gid := 1, va := 0x1F0000, leaf := 0x130F8, old := 0x30003, from_ := 0x30000, dest := 0x40000 }

theorem test_meets_Migration_a :
    2 ^ 61 ≤ ((regs world [] [(5, 0x20000000)]).uu 4).toNat ∧ ((regs world [] [(4, 0x8000)]).uu 4).toNat % 2 ^ 16 ≠ 0 := by decide
theorem test_meets_Migration_b :
    ((migrates 0 0x40000).uu 4).toNat < 2 ^ 61 ∧ ((migrates 0 0x40000).uu 4).toNat % 2 ^ 16 = 0 ∧ (world.ctx 1).st ≠ .bound ∧ ((migrates 0 0x40000).ctx 0).st = .bound ∧
      (migrates 0 0x40000).windowMiss = false := by decide
theorem test_meets_Migration_c :
    ∀ _ : Config.missesCache 5 = true, (inWindow (migrates 0 0x40000)).windowMiss = true := fun h => (inWindow_draws (migrates 0 0x40000) (by decide)).trans h
theorem test_meets_Migration_d :
    ∃ e, world.walkFrom (fun _ => none) 0x1F0000 4 (world.ctx 0).root.toNat = .error e := ⟨1, by decide⟩
theorem test_meets_Migration_e :
    ∃ f ps, smallPage.walkFrom (fun _ => none) 0x1F0000 4 (smallPage.ctx 0).root.toNat = .ok (f, ps) ∧ f.val.toNat / 2 ^ 8 % 2 ^ 32 * 2 ^ 8 = 0x30000 ∧
      (f.level == 1) = false ∧ (f.level == 1) ≠ true := ⟨_, _, rfl, by decide⟩
theorem test_meets_Migration_f :
    0x40000 % 2 ^ 16 = 0 ∧ ¬ gddrTop < 0x40000 + 2 ^ 16 ∧ ¬ (0x30000 < 0x40000 + 2 ^ 16 ∧ 0x40000 < 0x30000 + 2 ^ 16) ∧ 0x38000 % 2 ^ 16 ≠ 0 ∧
      gddrTop < gddrTop + 2 ^ 16 ∧ 0x30000 < 0x30000 + 2 ^ 16 := by decide
theorem test_meets_Migration_g :
    let s := smallPage.wr 0x130F8 8 (gddrTop + 3)
    ∃ f ps, s.walkFrom (fun _ => none) 0x1F0000 4 (s.ctx 0).root.toNat = .ok (f, ps) ∧ gddrTop < f.val.toNat / 2 ^ 8 % 2 ^ 32 * 2 ^ 8 + 2 ^ 16 := ⟨_, _, rfl, by decide⟩
theorem test_meets_Migration_h :
    ((State.takeId world).2.entriesFor (cut64 false 0x30000 33 (2 ^ 16) ++ cut64 true 0x40000 33 (2 ^ 16)) (fun x => !lexLt [0, 0, 0, 0, 0] x)).isSome = true := by decide
theorem test_meets_Migration_i :
    let s : State := { world with ops := [{ (default : EngOp) with arr := [0, 0, 0, 0, 0], phase := .waitEntries, ranges := cut64 false 0x30000 33 (2 ^ 16) }] }
    ((State.takeId s).2.entriesFor (cut64 false 0x30000 33 (2 ^ 16) ++ cut64 true 0x40000 33 (2 ^ 16)) (fun x => !lexLt [0, 0, 0, 0, 1] x)) = none := by decide
theorem test_meets_Migration_j :
    let s : State := { smallPage with sys := { smallPage.sys with migs := [aMig] } }
    s.sys.shoots.length < 32 ∧ aMig.arr = [] ∧ aMig.shoot = none ∧ s.blocked aMig.id aMig.locks = false ∧ aMig.from_ + 2 ^ 16 ≤ aMig.dest ∧ aMig.leaf + 8 ≤ aMig.dest ∧ aMig.dest % 2 ^ 16 = 0 ∧ aMig.dest < 2 ^ 40 := by decide
theorem test_meets_Migration_k :
    ∀ x ∈ world.me :: world.warps, x.ev = [] ∧ ∀ p ∈ x.cur :: x.paths, ∀ a b c d e f g, p.st ≠ .held (.mwait a b c d e f g) := by simp [world]
theorem test_meets_Migration_l :
    let m : Mig := { aMig with shoot := some 9 }
    m.shoot = some 9 ∧ (∀ x ∈ world.sys.shoots, x.id ≠ 9) ∧ m.gid = world.me.gid ∧ m.w = world.me.w ∧ world.warps = [] := by decide


def aPark : Park := { kind := 1, code := 1, va := 0x1F0000, mask := 0x80000000 }
/-- The path in focus is parked, and fault slots up to the last but one are taken. -/
def parkedWorld (n : Nat) : State :=
  let s := others (path world fun p => { p with st := .parked aPark }) [second]
  { s with pkg := { s.pkg with pfqbase := BitVec.ofNat 64 (gddrTop - 2 ^ 18) }
           sys := { s.sys with faults := (List.range n).map fun i => (i, .path 2 0 0, 1) } }
/-- The issuing path, whose s4 and s6 name a slot and an action, beside a parked path of lanes 1 and 2. -/
def resumer (fid act : BitVec 32) : State :=
  let s := regs (others world [{ id := 1, pc := 0x7000, mask := 6, st := .parked { aPark with mask := 2, fid := some 7 } }]) [] [(4, fid), (6, act)]
  { s with sys := { s.sys with faults := [(7, .path 1 0 1, 1)] } }

theorem test_meets_FaultsAndResumes_a :
    let s := parkedWorld 3
    s.me.gid ≠ 0 ∧ s.gang.gid = s.me.gid ∧ s.me.cur.mask ≠ 0 ∧ s.me.cur.id < 64 ∧ (∀ q ∈ s.me.paths, q.id ≠ s.me.cur.id) ∧ s.warps = [] ∧ s.sys.mclkEnd = none := by decide
theorem test_meets_FaultsAndResumes_b :
    let s : State := { parkedWorld 3 with pkg := { (parkedWorld 3).pkg with supmbx := 0 } }
    s.sys.toks = [] ∧ s.pkg.supmbx.toNat < 2 ^ 32 ∧ ∃ m, s.mboxKey (s.pkg.supmbx.setWidth 32) = some m ∧ s.rd m 8 = 0 := ⟨rfl, by decide, _, rfl, by decide⟩
theorem test_meets_FaultsAndResumes_c :
    2 ^ 32 ≤ ({ world.pkg with supmbx := 0x100000000 } : Pkg).supmbx.toNat ∧ (List.replicate 15 (0 : BitVec 64)).length < 16 := by decide
theorem test_meets_FaultsAndResumes_d :
    (parkedWorld 3).me.cur.st = .parked aPark ∧ aPark.fid = none ∧ aPark.action = none := ⟨rfl, rfl, rfl⟩
theorem test_meets_FaultsAndResumes_e :
    let base := (parkedWorld 3).pkg.pfqbase.toNat
    base ≠ 0 ∧ base % 2 ^ 16 = 0 ∧ base + 2 ^ 18 ≤ gddrTop := by decide
theorem test_meets_FaultsAndResumes_f :
    (∀ f ∈ (parkedWorld 3).sys.faults, f.1 ≠ 3) ∧ ∀ i, i < 3 → ∃ f ∈ (parkedWorld 3).sys.faults, f.1 = i := by decide
theorem test_meets_FaultsAndResumes_g :
    2 ^ 12 ≤ ((resumer 0x1000 0).u 4).toNat ∧ ((resumer 0xFFF 4).u 4).toNat < 2 ^ 12 ∧ 4 ≤ ((resumer 0xFFF 4).u 6).toNat := by decide
theorem test_meets_FaultsAndResumes_h :
    (∀ f ∈ (resumer 0xFFF 3).sys.faults, f.1 = 0xFFF → f.2.2 = 4) ∧ ((resumer 7 3).u 6).toNat = 3 ∧ ∃ f ∈ (resumer 7 3).sys.faults, f.1 = ((resumer 7 3).u 4).toNat ∧ f.2.2 ≠ 4 := by decide
theorem test_meets_FaultsAndResumes_i :
    let s := resumer 7 1
    s.issue = .lane ∧ s.me.gid ≠ 0 ∧ s.gang.gid = s.me.gid ∧ s.gang.st ≠ .saved ∧ s.me.pre.st ≠ .saved ∧ s.me.halted = false ∧ s.me.trc.on = false := by decide
theorem test_meets_FaultsAndResumes_j :
    let s := resumer 7 1
    s.me.exited = false ∧ s.me.cur.mask ≠ 0 ∧ s.me.cur.id ≠ 1 ∧ s.warps = [] ∧ (∀ q ∈ s.me.paths, q.id = 1 ∧ q.mask = 6 ∧ q.hmode = .none) ∧ s.me.cur.hmode = .none ∧
      aPark.trap = none ∧ (s.ctx s.gang.asid).tvbase = 0 ∧ (s.ctx s.gang.asid).ending = none := by decide
theorem test_meets_FaultsAndResumes_k :
    let s : State := { cached ((resumer 7 2).wr 0x200168 8 12) with ctxs := [(0, { st := .bound, priv := true, root := 0x10000, tvbase := 0x140 })] }
    ∃ e, (s.ctx 0).tvbase = 0x140 ∧ (s.core s.coreNo).tlb.find? (fun e => e.serves s.gang.asid s.priv 0 .read (0x140 + 40)) = some e ∧
      s.rd64 (e.target (0x140 + 40)) = 12 := ⟨_, rfl, rfl, by decide⟩
theorem test_meets_FaultsAndResumes_l :
    (∃ l, l < 32 ∧ (6 : BitVec 32).getLsbD l = true ∧ (2 : BitVec 32).getLsbD l = false) ∧ ∀ l, l < 32 → ¬ ((6 : BitVec 32).getLsbD l = true ∧ (resumer 7 1).act l = true) := by decide
theorem test_meets_FaultsAndResumes_m :
    let s : State := { resumer 7 0 with sys := { world.sys with faults := [(7, .bounce 0 2, 4)] } }
    s.sys.faults = [(7, .bounce 0 2, 4)] ∧ (smGet {} (s.stk 0).bslots 2).users = []  := ⟨rfl, by decide⟩
theorem test_meets_FaultsAndResumes_n :
    ∃ s : State, (s.rebaseAll 0x200000 0x10000 2 [(0, 8)] [9]).isSome = true := ⟨{ world with ops := [{ (default : EngOp) with id := 9, ranges := [{ base := 0x200000, len := 8, full := true }] }] }, by decide⟩
theorem test_meets_FaultsAndResumes_o :
    ∃ s : State, s.rebaseAll 0x200000 0x10000 2 [(0, 8)] [9] = none := ⟨{ world with ops := [{ (default : EngOp) with id := 9, ranges := [{ base := 0x200000, len := 8, full := true }], locks := (List.range 256).map fun i => { tbl := 1, stk := (world.home 0x10000).1, slc := (world.home 0x10000).2, idx := i } }] }, by decide⟩
theorem test_meets_FaultsAndResumes_p :
    let s : State := { world with stks := [(0, { powered := true, bslots := [(2, { taken := true, marks := [(0xFFF8, 8)] })] })] }
    ∃ m ∈ (smGet {} (s.stk 0).bslots 2).marks, m.1 ≤ 0xFFFF ∧ 0xFFFF < m.1 + m.2 := by decide
theorem test_meets_FaultsAndResumes_q :
    let s : State := { world with stks := [(0, { powered := true, bslots := [(2, { taken := true, marks := [(0xFFF8, 8)] })] })] }
    ∀ i, (∃ m ∈ (smGet {} (s.stk 0).bslots 2).marks, m.1 ≤ i ∧ i < m.1 + m.2) → i < 2 ^ 16 := by
    rintro s i ⟨m, hm, h⟩
    simp [s, State.stk, smGet] at hm
    subst hm; omega

/-- A 64-byte layout record: base, row stride, extents, box, fill. -/
def aRecord (base stride d0 d1 b0 b1 fill : Nat) : Nat :=
  base + stride <<< 64 + d0 <<< 192 + d1 <<< 224 + 1 <<< 256 + b0 <<< 288 + b1 <<< 304 + 1 <<< 320 + 1 <<< 336 + 2 <<< 344 + fill <<< 352
/-- Two records at the start of the own local memory, one 4 × 2 box each, that begins a column before the first; s8 to s15 name them. -/
def copying : State :=
  ((regs world [] [(9, 0xFFF00000), (10, 64), (11, 0xFFF00000), (12, 0x0000FFFF), (13, 0xFFFF0000)]).wr (localKey 0 0) 64 (aRecord 0x100 4 3 2 4 2 0)).wr
    (localKey 0 64) 64 (aRecord 0xFFF0 8 4 2 4 2 0x55)
def srcRec : LRec := { base := 0x100, stride1 := 4, dim0 := 3, dim1 := 2, dim2 := 1, box0 := 4, box1 := 2, box2 := 1, space := 1, x := -1 }
def dstRec : LRec := { base := 0xFFF0, stride1 := 8, dim0 := 4, dim1 := 2, dim2 := 1, box0 := 4, box1 := 2, box2 := 1, space := 1, fill := 0x55, x := -1 }
def halfOf (s : State) (i j : Nat) : Int := ((s.un (8 + i) >>> (16 * j)).setWidth 16).toInt

theorem test_meets_CopiesMoveBoxes_a :
    copying.issue = .lane ∧ copying.un (8 + 7) = 0 ∧ copying.uuAt 8 2 = BitVec.ofNat 64 (0xFFF0 * 2 ^ 48 + 64) ∧ copying.ops = [] ∧ copying.sys.migs = [] ∧
      copying.uuAt 8 0 = BitVec.ofNat 64 (0xFFF0 * 2 ^ 48 + 0) := by decide
theorem test_meets_CopiesMoveBoxes_b :
    copying.gang.poolHeld = false ∧ copying.gang.localk ≤ 1024 ∧ copying.coreNo < 96 ∧ copying.gang.base + copying.gang.localk * 1024 ≤ 2 ^ 20 ∧ copying.gang.gid ≠ 0 ∧
      copying.enforced = false ∧ copying.sys.mclkEnd = none ∧ ∀ g ∈ copying.gang :: copying.gangs, g.array = none := by decide
theorem test_meets_CopiesMoveBoxes_c :
    LocalBytes copying 64 (halfOf copying 5 1) (halfOf copying 6 0) (halfOf copying 6 1) dstRec := ⟨by decide, by decide, by decide, by decide, by decide, by decide, by decide, (0, 11), by decide⟩
theorem test_meets_CopiesMoveBoxes_d :
    ((List.range 8).all fun x => (List.range 8).all fun y => decide (x = y) || !dstRec.inside (x % 4) (x / 4) 0 || !dstRec.inside (y % 4) (y / 4) 0 ||
      decide (LocalElem dstRec (x % 4) (x / 4) 0 ≠ LocalElem dstRec (y % 4) (y / 4) 0)) = true := by decide
theorem test_meets_CopiesMoveBoxes_e :
    LocalBytes copying 0 (halfOf copying 4 0) (halfOf copying 4 1) (halfOf copying 5 0) srcRec := ⟨by decide, by decide, by decide, by decide, by decide, by decide, by decide, (0, 7), by decide⟩
theorem test_meets_CopiesMoveBoxes_f :
    srcRec.agrees dstRec = true := by decide


/-- A fill that waits for a place in its queue. -/
def waitingFill : EngOp :=
  { id := 3, gid := 1, pc := 0x6000, npc := 0x600C, phase := .waitPlace, dmask := 0x80000001, arr := [0, 0, 0, 0, 31]
    body := .copy true ((List.range 8).map fun i => copying.un (8 + i)) {} dstRec }
/-- One that arrived after it. -/
def laterFill : EngOp := { waitingFill with id := 4, arr := [0, 0, 0, 1, 0] }
def waitingWorld : State := { copying with ops := [laterFill, waitingFill] }

theorem test_meets_WaitingOperations_a :
    waitingWorld.ops = [laterFill, waitingFill] ∧ waitingFill.id ≠ laterFill.id ∧ lexLt waitingFill.arr laterFill.arr = true ∧ laterFill.phase = waitingFill.phase ∧
      laterFill.locks = [] ∧ waitingWorld.gang.gid ≠ 0 ∧ waitingFill.gid = waitingWorld.gang.gid ∧ waitingWorld.me.gid = waitingFill.gid ∧
      waitingWorld.me.w = waitingFill.w ∧ waitingWorld.issue = .lane ∧ waitingWorld.me.cur.id = waitingFill.path ∧ waitingWorld.me.cur.mask ≠ 0 := by decide
theorem test_meets_WaitingOperations_b :
    waitingWorld.here = { pc := waitingFill.pc, wpos := waitingFill.wpos, npc := waitingFill.npc, nwpos := waitingFill.nwpos } ∧ waitingFill.cls = 4 ∧
      waitingWorld.sys.migs = [] ∧ waitingFill.phase = .waitPlace ∧ ({ waitingFill with phase := .waitEntries } : EngOp).phase = .waitEntries ∧
      waitingWorld.windowMiss = false ∧ ∀ x ∈ waitingWorld.me :: waitingWorld.warps, x.leaves = false := by decide
theorem test_meets_WaitingOperations_c :
    ∃ o, ({ waitingWorld with ops := [laterFill] } : State).evalCopy true ((List.range 8).map fun i => copying.un (8 + i)) waitingFill.dmask =
        .ok { waitingWorld with ops := [laterFill] } o ∧ o.cls = 4 ∧ o.bounced = [] ∧ o.ranges.length ≤ 1 ∧ ∀ r ∈ o.ranges, 2 ^ 40 ≤ r.base ∧ r.base < 2 ^ 41 := ⟨_, rfl, by decide, by decide, by decide, by decide⟩


/-- s4:s5 names the last slot of the own local memory, whose bytes are `x`; s6 is a count. -/
def slotted (x : Nat) (n : BitVec 32) : State := (regs world [] [(4, 0xFFF0), (5, 0xFFF00000), (6, n)]).wr (localKey 0 0xFFF0) 16 x
def slotNamed (s : State) (a : BitVec 64) : Prop := a.toNat / 2 ^ 48 = 0xFFF0 ∧ a.toNat % 16 = 0 ∧ a.toNat % 2 ^ 48 + 16 ≤ s.gang.localk * 1024
def slotClean (s : State) (k : Nat) : Prop := s.rd (k + 13) 3 = 0 ∧ s.rd (k + 12) 1 < 8
/-- What a slot holds: phase, count, arrivals, owed and flags. -/
def slotOf (phase acount arrivals owed flags : Nat) : Nat := phase + acount * 2 ^ 32 + arrivals * 2 ^ 48 + owed * 2 ^ 64 + flags * 2 ^ 96

theorem test_meets_TransactionBarriers_a :
    ¬ slotNamed world (world.uu 4) ∧ slotNamed (slotted 0 0) ((slotted 0 0).uu 4) ∧ localKey (slotted 0 0).coreNo ((slotted 0 0).gang.base + ((slotted 0 0).uu 4).toNat % 2 ^ 48) = localKey 0 0xFFF0 ∧
      (slotted 0 0).mxHolds (localKey 0 0xFFF0) 16 = false := by unfold slotNamed; decide
theorem test_meets_TransactionBarriers_b :
    let s := slotted 0 0
    let s : State := { s with gang := { s.gang with array := some { srcs := [(0xFFFC, 4)] } } }
    slotNamed s (s.uu 4) ∧ s.mxHolds (localKey 0 0xFFF0) 16 = true := by unfold slotNamed; decide
theorem test_meets_TransactionBarriers_c :
    ¬ slotClean (slotted (2 ^ 99) 0) (localKey 0 0xFFF0) ∧ slotClean (slotted 0 0) (localKey 0 0xFFF0) ∧ ¬ (slotted 0 0).rd (localKey 0 0xFFF0 + 12) 1 % 2 = 1 := by unfold slotClean; decide
theorem test_meets_TransactionBarriers_d :
    ((slotted 0 0).u 6).toNat = 0 ∧ 65535 < ((slotted 0 65536).u 6).toNat ∧ 0 < ((slotted 0 65535).u 6).toNat ∧ ((slotted 0 65535).u 6).toNat ≤ 65535 := by decide
theorem test_meets_TransactionBarriers_e :
    slotClean (slotted (slotOf 9 0 1 5 1) 1) (localKey 0 0xFFF0) ∧ (slotted (slotOf 9 0 1 5 1) 1).rd (localKey 0 0xFFF0 + 12) 1 % 2 = 1 := by unfold slotClean; decide
theorem test_meets_TransactionBarriers_f :
    (∀ o ∈ world.ops, ¬ (o.gid = world.gang.gid)) ∧
      let o : EngOp := { anOp with slot := some 0xFFF0 }
      o.gid = world.gang.gid ∧ o.slot = some 0xFFF0 ∧ o.phase = .started := by decide
theorem test_meets_TransactionBarriers_g :
    let s := heldBy (.tbrRetire 0xFFF0)
    s.me.gid ≠ 0 ∧ s.gang.gid = s.me.gid ∧ s.gang.st = .resident ∧ s.me.halted = false ∧ s.me.cur.mask ≠ 0 ∧ s.me.paths = [] ∧ s.warps = [] ∧ s.ops = [] ∧
      s.me.cur.st = .held (.tbrRetire 0xFFF0) := ⟨by decide, by decide, by decide, by decide, by decide, by decide, by decide, by decide, rfl⟩

/-- The pre-emption machine in a state with a mask. -/
def asked (st : PreSt) (m : Bool) : State := { world with me := { world.me with pre := { world.me.pre with st := st, mask := m } } }

/-- An open block of a stream in s8 to s15: an affine one uses s8 to s13, an indirect one s8 to s15. -/
def block (w : List (BitVec 32)) : State := regs world [] (w.zipIdx.map fun x => (8 + x.2, x.1))
/-- A store stream of 32-bit elements whose hull ends with the own local memory. -/
def storing : State := block [0xFF80, 0xFFF00000, 0, 4, 1, 6]
def withStream (n : Nat) (x : StreamReg) : State := { regs world [] [(4, 1)] with me := { (regs world [] [(4, 1)]).me with streams := [(n, x)] } }
def withFibre (n : Nat) (x : FibreReg) : State := { world with me := { world.me with fibres := [(n, x)] } }

theorem test_meets_StreamRegisters_a :
    32 / 32 ≠ 0 ∧ ((block [0, 0, 0, 0, 0, 2]).un 12) = 0 ∧ ((block [0, 0, 0, 0, 1, 32]).un 13).toNat / 32 ≠ 0 := by decide
theorem test_meets_StreamRegisters_b :
    let s := block [0, 0, 4, 4, 1, 2]
    (s.un 13).toNat / 32 = 0 ∧ s.un 12 ≠ 0 ∧ (s.un 13).getLsbD 3 = false ∧ (s.un 13).getLsbD 4 = false ∧ (s.un 13).getLsbD 2 = false ∧ (s.stream 7).st = .closed := by decide
theorem test_meets_StreamRegisters_c :
    let s := storing
    ¬ (s.un 13).toNat / 32 ≠ 0 ∧ s.un 12 ≠ 0 ∧ (s.un 13).getLsbD 3 = false ∧ (s.un 13).getLsbD 4 = false ∧ (s.un 13).getLsbD 2 = true ∧ (s.uuAt 8 0).toNat % 4 = 0 ∧
      (s.un 10).toNat % 4 = 0 ∧ (s.un 11).toNat % 4 = 0 := by decide
theorem test_meets_StreamRegisters_d :
    let s := storing
    (s.stream 7).st = .closed ∧ s.ops = [] ∧ s.sys.migs = [] ∧ s.coreNo < 96 ∧ s.gang.poolHeld = false ∧ s.gang.localk ≤ 1024 ∧ s.gang.base + s.gang.localk * 1024 ≤ 2 ^ 20 := by decide
theorem test_meets_StreamRegisters_e :
    ∀ i : Nat, i < 1 → ∀ l : Nat, l < 32 → ((storing.uuAt 8 0).toNat : Int) + (i : Int) * (storing.un 10).toInt + (l : Int) * (storing.un 11).toInt = 0xFFF0 * 2 ^ 48 + ((0xFF80 + 4 * l : Nat) : Int) ∧
      0xFF80 + 4 * l + 4 ≤ storing.gang.localk * 1024 := by decide
theorem test_meets_StreamRegisters_f :
    (withStream 7 { st := .affine }).stream 7 ≠ {} ∧ ((withStream 7 { st := .affine }).stream 7).st ≠ .closed := by decide
theorem test_meets_StreamRegisters_g :
    let s := block [0, 0, 0, 0, 4, 4, 1, 0x12]
    (s.un 15).toNat / 32 = 0 ∧ s.un 14 ≠ 0 ∧ (s.un 15).getLsbD 3 = false ∧ (s.un 15).getLsbD 2 = false := by decide
theorem test_meets_StreamRegisters_h :
    let s := withStream 0 { st := .affine, dir := true, count := 1 }
    ((s.stream 0).st = .affine ∨ (s.stream 0).st = .indirect) ∧ (s.stream 0).dir = true ∧ ((withStream 0 { st := .indirect }).stream 0).dir = false := by decide
theorem test_meets_StreamRegisters_i :
    ((block [0, 0, 0, 0, 1, 0, 0]).un 13).toNat < ((block [0, 0, 0, 0, 1, 0, 0]).un 12).toNat ∧ ¬ ((block [0, 0, 0, 0, 1, 1, 0xB]).un 13).toNat < 1 ∧ ((block [0, 0, 0, 0, 1, 1, 3]).un 14).getLsbD 3 = false := by decide
theorem test_meets_StreamRegisters_j :
    ((withFibre 3 { isOpen := true }).fibre 3).isOpen = true ∧ (world.fibre 3).isOpen = false ∧ ((block [0, 0, 0, 0, 1, 0, 0]).fibre 3).isOpen = false := by decide
theorem test_meets_StreamRegisters_k :
    let s := withStream 7 { st := .affine, abase := 0xFFF0000000000000, count := 9, pos := 1, ahead := 7 }
    s.me.exited = false ∧ s.me.pre.st ≠ .saved ∧ s.gang.st = .resident ∧ s.streamEarly (s.stream 7) = true ∧ s.gang.gid = s.me.gid ∧ s.me.gid ≠ 0 ∧ s.warps = [] ∧ (s.stream 7).ahead < 8 ∧ (s.stream 7).pos.toNat + (s.stream 7).ahead < (s.stream 7).count.toNat ∧ ¬ 9 < (s.stream 7).count.toNat := by decide
theorem test_meets_StreamRegisters_l :
    let s := withFibre 3 { isOpen := true, crd := 0xFFF0000000000000, val := 0xFFF000000000FFF0, fin := 1, size := 3 }
    s.fibreEarly (s.fibre 3) = true ∧ (s.fibre 3).isOpen = true ∧ (s.fibre 3).ahead < 8 ∧ (s.fibre 3).cur.toNat + (s.fibre 3).ahead < (s.fibre 3).fin.toNat := by decide
theorem test_meets_StreamRegisters_m :
    let s := withStream 7 { st := .affine, count := 1 }
    s.streamEarly (s.stream 7) = false := by decide
theorem test_meets_StreamRegisters_n :
    (asked .saved false).me.pre.st = .saved ∧ (asked .saved false).me.gid ≠ 0 ∧ (asked .saved false).gang.gid = (asked .saved false).me.gid ∧ (asked .saved false).warps = [] := by decide


/-- An affine load stream over the own local memory; each lane's element is 4 bytes further. -/
def popping : State := withStream 7 { st := .affine, abase := 0xFFF000000000FF80, lstr := 4, istr := 4, count := 1, size := 2 }
/-- An indirect one, with one index for each lane. -/
def gathering : State := withStream 7 { st := .indirect, abase := 0xFFF000000000FF80, ibase := 0xFFF0000000000000, lstr := 4, count := 1, size := 0 }
def fibring : State := withFibre 3 { isOpen := true, crd := 0xFFF0000000000000, val := 0xFFF000000000FFF0, cur := 0, fin := 1, size := 3 }
/-- A closing store stream that wrote one byte. -/
def streamOp : EngOp :=
  { id := 3, gid := 1, cls := 5, phase := .started, body := .stream 7 {}, writes := [(localKey 0 0, 5)] }

theorem test_meets_StreamElements_a :
    popping.here.trapped = false ∧ popping.me.cur.st = .ready ∧ popping.me.cur.mask ≠ 0 ∧ ((withStream 7 {}).stream 7).st = .closed ∧ (popping.stream 7).pos ≠ (popping.stream 7).count := by decide
theorem test_meets_StreamElements_b :
    ((withStream 7 { st := .affine, pos := 1, count := 1 }).stream 7).pos = ((withStream 7 { st := .affine, pos := 1, count := 1 }).stream 7).count := by decide
theorem test_meets_StreamElements_c :
    let x := popping.stream 7
    Reaches popping { op := .load (loadOf x.size x.sext), kind := .read, allow := .plain, size := 4, dreg := some 5 }
      (fun l => { lane := l, addr := x.abase + x.pos.setWidth 64 * x.istr.signExtend 64 + BitVec.ofNat 64 l * x.lstr.signExtend 64 }) (fun l => localKey 0 (0xFF80 + 4 * l)) := reaches_untranslated (by decide)
theorem test_meets_StreamElements_d :
    let s := path (withStream 7 { st := .affine, abase := 0xFFF000000000FF7C, lstr := 4, istr := 4, pos := 2, count := 2, size := 2 })
      fun p => { p with replay := some 0x80000000, rpos := some 1 }
    let x := s.stream 7
    s.me.cur.replay.isSome = true ∧ s.me.cur.rpos = some 1 ∧ (1 : BitVec 32) ≠ x.count ∧
      Reaches s { op := .load (loadOf x.size x.sext), kind := .read, allow := .plain, size := 4, dreg := some 5 }
        (fun l => { lane := l, addr := x.abase + 4 + BitVec.ofNat 64 l * 4 }) (fun l => localKey 0 (0xFF80 + 4 * l)) := ⟨by decide, by decide, by decide, reaches_untranslated (by decide)⟩
theorem test_meets_StreamElements_e :
    let x := gathering.stream 7
    Reaches gathering { op := .load .b32, kind := .read, allow := .plain, size := 4 }
      (fun l => { lane := l, addr := x.ibase + x.pos.setWidth 64 * x.istr.signExtend 64 + BitVec.ofNat 64 l * x.lstr.signExtend 64 }) (fun l => localKey 0 (4 * l)) := reaches_untranslated (by decide)
theorem test_meets_StreamElements_f :
    let x := gathering.stream 7
    Reaches gathering { op := .load (loadOf x.size x.sext), kind := .read, allow := .plain, size := 1, dreg := some 5 }
      (fun l =>
        let idx : Word := gathering.rd32 (localKey 0 (4 * l))
        { lane := l, addr := x.abase + (if x.isgn then idx.signExtend 64 else idx.setWidth 64) * BitVec.ofNat 64 1 }) (fun _ => localKey 0 0xFF80) := reaches_untranslated (by decide)
theorem test_meets_StreamElements_g :
    let s := withStream 7 { st := .affine, dir := true, abase := 0xFFF000000000FF80, lstr := 4, count := 1, size := 2, op := some 3 }
    ∀ l, l < 32 → s.act l = true → s.steer l .plain 4 4 false ((s.stream 7).abase + BitVec.ofNat 64 l * (s.stream 7).lstr.signExtend 64) = .ok (.mem (localKey 0 (0xFF80 + 4 * l))) := by decide
theorem test_meets_StreamElements_h :
    let seg : Seg := { addr := 0xFFF000000000FF80, len := 128, key := localKey 0 0xFF80 }
    let o : EngOp := { streamOp with closing := false, segs := [seg], locks := [{ base := localKey 0 0xFF80, len := 128, full := true }] }
    let s : State := { withStream 7 { st := .affine, dir := true, abase := 0xFFF000000000FF80, lstr := 4, count := 1, size := 2, op := some 3 } with ops := [o] }
    ∀ l, l < 32 → s.act l = true → segKey o.segs (0xFFF000000000FF80 + 4 * l) = some (localKey 0 (0xFF80 + 4 * l)) ∧
      ∀ y ∈ s.conflicts (localKey 0 (0xFF80 + 4 * l)) 4 true, (s.stream 7).op = some y.1 := by decide
theorem test_meets_StreamElements_i :
    let s : State := { withStream 7 { st := .closing, op := some 3 } with ops := [streamOp] }
    s.ops = [streamOp] ∧ s.sys.migs = [] ∧ s.sys.mclkEnd = none ∧ (∀ g ∈ s.gang :: s.gangs, g.array = none) ∧ streamOp.body = .stream 7 {} ∧ streamOp.cls = 5 ∧
      streamOp.phase = .started ∧ streamOp.more = false ∧ streamOp.closing = true := by decide
theorem test_meets_StreamElements_j :
    let s : State := { withStream 7 { st := .closing, op := some 3 } with ops := [streamOp] }
    streamOp.bounced = [] ∧ streamOp.results = [] ∧ streamOp.stamp = none ∧ streamOp.slot = none ∧ s.me.gid = streamOp.gid ∧ s.me.w = streamOp.w ∧
      (s.stream 7).op = some streamOp.id ∧ (s.stream 7).st = .closing := by decide
theorem test_meets_StreamElements_k :
    let x := fibring.fibre 3
    x.isOpen = true ∧ (6 : BitVec 7).getLsbD 0 = false ∧ fibring.me.cur.replay = none ∧ fibring.inFlight fibring.me fibring.me.cur = false ∧ ((List.range 0).filter fibring.act).length < x.fin.toNat ∧
      ¬ ((List.range 31).filter fibring.act).length < x.fin.toNat := by decide
theorem test_meets_StreamElements_l :
    let f : MemForm := { op := .load .b32, kind := .read, allow := .plain, size := 4, dreg := some 5 }
    fibring.prepare f { lane := 0, addr := 0xFFF0000000000000 } = (fibring, .ok (.mem (localKey 0 0)) none) ∧ fibring.defers f (.mem (localKey 0 0)) = false ∧
      fibring.conflicts (localKey 0 0) 4 false = [] := by decide
theorem test_meets_StreamElements_m :
    let f : MemForm := { op := .load (loadOf 3 false), kind := .read, allow := .plain, size := 8, dreg := some 6 }
    fibring.prepare f { lane := 0, addr := 0xFFF000000000FFF0 } = (fibring, .ok (.mem (localKey 0 0xFFF0)) none) ∧ fibring.defers f (.mem (localKey 0 0xFFF0)) = false ∧
      fibring.conflicts (localKey 0 0xFFF0) 8 false = [] := by decide


/-- An expert table of `n` words at `off` of the commons, of capacity `cap`. -/
def experts (off hi n cap : BitVec 32) : State := block [off, hi, n, cap]

theorem test_meets_ExpertRouting_a :
    ((experts 0 0xFFF30000 0 0).un 10).toNat = 0 ∧ 4096 < ((experts 0 0xFFF30000 4097 0).un 10).toNat ∧ 2 ^ 31 ≤ ((experts 0 0xFFF30000 1 0x80000000).un 11).toNat := by decide
theorem test_meets_ExpertRouting_b :
    let s := experts 0xFF8000 0xFFF30000 4096 0x7FFFFFFF
    0 < (s.un 10).toNat ∧ (s.un 10).toNat ≤ 4096 ∧ (s.un 11).toNat < 2 ^ 31 ∧ s.locks = [] ∧ (s.uuAt 8 0).toNat % 2 ^ 24 + 8 * (s.un 10).toNat ≤ 2 ^ 24 ∧
      s.steer s.first .commons 8 8 false (s.uuAt 8 0) = .ok (.mem (commonsKey 0 0xFF8000)) := by decide
theorem test_meets_ExpertRouting_c :
    let s := experts 4 0xFFF30000 1 0
    s.steer s.first .commons 8 8 false (s.uuAt 8 0) = .error 3 := by decide
theorem test_meets_ExpertRouting_d :
    let s := experts 0xFF8008 0xFFF30000 4096 0
    s.steer s.first .commons 8 8 false (s.uuAt 8 0) = .ok (.mem (commonsKey 0 0xFF8008)) ∧ 2 ^ 24 < (s.uuAt 8 0).toNat % 2 ^ 24 + 8 * (s.un 10).toNat := by decide


/-- A warp whose handler path is done, beside a kept one; and its vector table. -/
def drained : State :=
  let s := preempted .pre .drain [second]
  path s fun p => { p with st := .held (.preDone 0x9000) }
def preVectored : State :=
  let s := cached world
  ({ s with ctxs := [(0, { st := .bound, priv := true, root := 0x10000, tvbase := 0x100 })] } : State).wr 0x200138 8 0x6000
/-- A saved-up set of one gang whose instance waited a period, with the issuer's gang on the one core below PRIO 2. -/
def waitingGang : Gang := { gid := 5, inst := 2, index := 0, prio := 3, warpsN := 1, regsN := 8, localk := 600 }
def waitingSet : State :=
  { world with cores := [(0, { lsarea := 0x800000, lw := 4 })], gangs := [waitingGang], insts := [{ id := 2, entry := { gangs := 1, warps := 1, prio := 3 }, cosets := [[0]] }]
               pkg := { world.pkg with time := 2 ^ 30, almLen := 1000, periods := 3 } }

/-- The gang of `world` with its warp, saved; its core could take it again. -/
def savedWorld : State :=
  { world with me := { world.me with pre := { world.me.pre with st := .saved } }, gang := { world.gang with st := .saved, saves := true }
               insts := [theInst], cores := [(0, { lsarea := 0x800000, lw := 4 })] }

theorem test_meets_PreemptionAndSaves_a :
    world.me.gid ≠ 0 ∧ world.gang.gid = world.me.gid ∧ world.gang.st = .resident ∧ (∀ x ∈ world.warps, x.gid ≠ world.me.gid) ∧ world.me.exited = false ∧ world.me.trc.on = false ∧
      world.me.w < 32 := by decide
theorem test_meets_PreemptionAndSaves_b :
    (asked .run true).me.pre.st = .run ∧ (asked .run true).me.pre.mask = true ∧ ∃ p ∈ (preempted .trap .run []).me.live, p.hmode = .trap := by decide
theorem test_meets_PreemptionAndSaves_c :
    (asked .run false).me.pre.mask = false ∧ (∀ p ∈ (asked .run false).me.live, p.hmode ≠ .trap) ∧ ((asked .run true).ctx 0).tvbase = 0 ∧ (asked .run true).me.pre.st = .run := by decide
theorem test_meets_PreemptionAndSaves_d :
    ∃ k, ∃ q ∈ (path (asked .run true) fun p => { p with st := .stopped k }).me.live, q.st = .stopped k := ⟨default, _, List.mem_cons_self, rfl⟩
theorem test_meets_PreemptionAndSaves_e :
    ∀ st : PreSt, st = .pending ∨ st = .hnd ∨ st = .resumed → ∃ k, ∃ q ∈ (path (asked st true) fun p => { p with st := .stopped k }).me.live, q.st = .stopped k := by rintro st (rfl | rfl | rfl) <;> exact ⟨default, _, List.mem_cons_self, rfl⟩
theorem test_meets_PreemptionAndSaves_f :
    let p : State := { preVectored with me := { preVectored.me with pre := { preVectored.me.pre with st := .pending, hard := preVectored.now + 20000 } } }
    p.vector 7 = (p, .ok 0x6000) := by decide
theorem test_meets_PreemptionAndSaves_g :
    preVectored.me.live = [world.me.cur] ∧ ∀ k, world.me.cur.st ≠ .stopped k := ⟨by decide, fun k h => by simp [world] at h⟩
theorem test_meets_PreemptionAndSaves_h :
    (asked .hnd false).me.pre.st = .hnd ∧ (asked .resumed false).me.pre.st = .resumed ∧ (asked .pending false).me.pre.st = .pending ∧
      (asked .hnd false).me.pre.hard ≤ (asked .hnd false).now := by decide
theorem test_meets_PreemptionAndSaves_i :
    (∀ a ∈ drained.accs, a.gid ≠ 1 ∨ a.w ≠ 0) ∧ (∀ o ∈ drained.ops, o.cls = 5 → o.gid ≠ 1 ∨ o.w ≠ 0) ∧ (∀ q ∈ drained.me.streams, q.2.st = .closed) ∧ drained.me.pre.st = .drain ∧ (asked .hard false).me.pre.st = .hard := by decide
theorem test_meets_PreemptionAndSaves_j :
    drained.me.cur ∈ drained.me.live ∧ drained.me.cur.hmode = .pre ∧ drained.me.cur.st = .held (.preDone 0x9000) ∧
      ∀ q ∈ drained.me.live, q.hmode = .pre → q = drained.me.cur ∨ drained.me.cur.id < q.id := by decide
theorem test_meets_PreemptionAndSaves_k :
    let s := asked .saved false
    s.me.pre.st = .saved ∧ (∀ o ∈ s.ops, o.gid ≠ 1) ∧ (∀ a ∈ s.accs, a.gid ≠ 1) ∧ s.gang.queue = [] ∧ s.gang.array = none ∧ s.coreNo < 96 ∧ s.gang.base + s.gang.localk * 1024 ≤ 2 ^ 20 ∧
      s.me.stack + 65536 ≤ gddrTop := by decide
theorem test_meets_PreemptionAndSaves_l :
    -- nothing of the warp waits for its own local memory
    (asked .saved false).me.ev = [] ∧ savedWorld.me.ev = [] ∧ ∀ s ∈ [asked .saved false, savedWorld], ∀ q ∈ s.me.live, q.st = .ready ∧ q.kept = none := by decide
theorem test_meets_PreemptionAndSaves_m :
    ∃ i, waitingSet.inst? 2 = some i ∧ i.id = 2 ∧ i.cosets = [[0]] ∧ waitingSet.periodsSince waitingGang.since waitingGang.sinceP ≠ 0 ∧ waitingGang ∈ waitingSet.gang :: waitingSet.gangs ∧
      waitingGang.gid ≠ 0 ∧ waitingGang.st = .queued ∧ waitingGang.inst = i.id ∧ waitingGang.index ∈ [0] ∧
      ∀ g ∈ waitingSet.gang :: waitingSet.gangs, g.inst = i.id → g = waitingGang := ⟨_, rfl, by decide⟩
theorem test_meets_PreemptionAndSaves_n :
    waitingSet.priorityChoice = some (0, [1], 5) := by decide
theorem test_meets_PreemptionAndSaves_o :
    let s : State := { waitingSet with
      cores := [(0, { lsarea := 0x800000, lw := 4 }), (16, { lsarea := 0x1000000, lw := 4 })]
      ctxs := [(0, { st := .bound, priv := true, root := 0x10000, yoked := true })], gang := { world.gang with yoked := true } }
    s.priorityChoice = some (0, [1], 5) ∧ ((s.gangOf? 5).map fun h => (s.ctx h.asid).yoked) = some true := by decide
theorem test_meets_PreemptionAndSaves_p :
    let c := waitingSet.core 0
    c.kept = none ∧ waitingSet.placeableCore 0 = true ∧ waitingSet.stackTakes 0 = true ∧ 0 < min (min 16 (min 128 (4 * c.active) / 1)) (min 16 16) := by decide
theorem test_meets_PreemptionAndSaves_q :
    savedWorld.me.gid ≠ 0 ∧ savedWorld.gang.gid = savedWorld.me.gid ∧ savedWorld.gang.st = .saved ∧ savedWorld.gang.saves = true ∧ savedWorld.warps = [] ∧ savedWorld.gangs = [] ∧
      savedWorld.me.exited = false ∧ savedWorld.me.trc.on = false ∧ savedWorld.me.w < 32 ∧ savedWorld.me.pre.st = .saved ∧ savedWorld.me.live = [savedWorld.me.cur] := by decide
theorem test_meets_PreemptionAndSaves_r :
    savedWorld.me.cur.st = .ready ∧ (∀ h, savedWorld.me.toRelease h = none) ∧ (∀ q ∈ savedWorld.me.streams, q.2.st = .closed) ∧ savedWorld.gang.seq.st = .running := ⟨rfl, fun h => by cases h <;> rfl, by decide, rfl⟩
theorem test_meets_PreemptionAndSaves_s :
    savedWorld.inst? savedWorld.gang.inst = some theInst ∧ (savedWorld.ctx savedWorld.gang.asid).yoked = false ∧ savedWorld.placeQueue = [savedWorld.gang] ∧
      savedWorld.unitOf savedWorld.gang = some [savedWorld.gang] ∧ savedWorld.gangHeld savedWorld.gang = false ∧ savedWorld.overEverywhere [1] savedWorld.gang = false := by decide
theorem test_meets_PreemptionAndSaves_t :
    ∃ p : Spotting, savedWorld.growsFor [1] = false ∧ p.gid = 1 ∧ savedWorld.plan [1] [] [] [savedWorld.gang] = some [p] ∧
      p.lw * 65536 ≤ (savedWorld.core p.core).localLimit := ⟨_, by decide, rfl, rfl, by decide⟩

/-- Task and tile-buffer tables in the mapped page. -/
def tabled (s : State) : State :=
  { s with ctxs := [(0, { st := .bound, priv := true, root := 0x10000, ttbase := 0x10000, tbbase := 0x8000 })] }
/-- s4 is an entry's number. -/
def posting (e : BitVec 32) : State := tabled (regs (cached world) [] [(4, e)])

theorem test_meets_TasksAndGroups_a :
    1023 < ((posting 1024).u 4).toNat ∧ 4095 < ((posting 4096).u 4).toNat ∧ ((posting 1023).u 4).toNat ≤ 1023 ∧ (world.ctx 0).ttbase = 0 ∧ (world.ctx 0).tbbase = 0 := by decide
theorem test_meets_TasksAndGroups_b :
    let s := tabled (regs world [] [(4, 1023)])
    (s.ctx s.gang.asid).ttbase ≠ 0 ∧ (s.ctx s.gang.asid).ttbase.toNat % 65536 = 0 ∧ (s.translate .write (0x10000 + 64 * 1023)).2 = .error 1 := by decide
theorem test_meets_TasksAndGroups_c :
    let s : State := { posting 1023 with ctxs := [(0, { st := .bound, ttbase := 0xFFFFFFFFFFF0000, tbbase := 0x8000 })] }
    (s.ctx 0).ttbase ≠ 0 ∧ (s.ctx 0).ttbase.toNat % 65536 = 0 ∧ 2 ^ 48 ≤ ((s.ctx 0).ttbase + BitVec.ofNat 64 (64 * 1023)).toNat := by decide
theorem test_meets_TasksAndGroups_d :
    0x10000 + 64 * 1023 < 2 ^ 48 ∧ (posting 1023).translate .write (0x10000 + 64 * 1023) = (posting 1023, .ok 0x21FFC0) ∧ (posting 1023).locks = [] ∧
      (posting 1023).windowMiss = false := by decide
theorem test_meets_TasksAndGroups_e :
    ∀ _ : Config.missesCache 5 = true, (inWindow (posting 1023)).windowMiss = true ∧ 0x21FFC0 < gddrTop := fun h => ⟨(inWindow_draws (posting 1023) (by decide)).trans h, by decide⟩
theorem test_meets_TasksAndGroups_f :
    (posting 1023).rd (0x21FFC0 + 62) 2 % 4 = 0 ∧ ((posting 1023).wr (0x21FFC0 + 62) 2 0xFFFF).rd (0x21FFC0 + 62) 2 % 4 ≠ 0 := by decide
theorem test_meets_TasksAndGroups_g :
    ((posting 4095).u 4).toNat ≤ 4095 ∧ ((posting 4095).ctx 0).tbbase ≠ 0 ∧ ((posting 4095).ctx 0).tbbase.toNat % 32768 = 0 ∧
      (posting 4095).translate .write (0x8000 + 8 * 4095) = (posting 4095, .ok 0x20FFF8) ∧ (posting 4095).translate .read (0x8000 + 8 * 4095) = (posting 4095, .ok 0x20FFF8) := by decide
theorem test_meets_TasksAndGroups_h :
    let w (x : Nat) : Nat := ((posting 4095).wr 0x20FFF8 8 x).rd 0x20FFF8 8
    ¬ (w 4 / 4 % 2 ^ 10 = 0 ∧ w 4 / 2 ^ 22 % 2 ^ 10 = 0) ∧ (w 1 / 4 % 2 ^ 10 = 0 ∧ w 1 / 2 ^ 22 % 2 ^ 10 = 0) ∧ w 1 % 4 ≠ 0 ∧ w 1 % 4 = 1 ∧ w 0 % 4 = 0 := by decide
theorem test_meets_TasksAndGroups_i :
    world.inst? world.gang.inst = none := by decide
theorem test_meets_TasksAndGroups_j :
    let s : State := { world with insts := [theInst] }
    s.inst? s.gang.inst = some theInst ∧ theInst.entry.ngroups ≤ (1 : BitVec 8).toNat ∧ (0 : BitVec 8).toNat < theInst.entry.ngroups ∧ 32 * s.gang.index + s.me.w ∈ (theInst.group 0).members := by decide
theorem test_meets_TasksAndGroups_k :
    let G : Group := { members := [0], arrived := [0], gone := [] }
    0 ∈ G.arrived ∧ 0 ∉ (theInst.group 0).arrived ∧ (theInst.group 0).arrived.length + 1 = (theInst.group 0).members.length ∧ (∀ x ∈ (theInst.group 0).members, x = 0 ∨ x ∈ (theInst.group 0).arrived) ∧
      (∀ x ∈ (theInst.group 0).arrived, smGet 0 (theInst.group 0).aphase x = (theInst.group 0).phase) ∧ world.me.cur.st = .ready := by decide
theorem test_meets_TasksAndGroups_l :
    let G : Group := { members := [0, 1] }
    0 ∉ G.arrived ∧ G.arrived.length + 1 ≠ G.members.length := by decide


/-- An entry of task 0, one gang of one warp of 8 registers, ARMED, as its 64 bytes. -/
def anEntry (gangs nout : Nat) : Nat :=
  0x6000 + 0x20000 <<< 256 + gangs <<< 320 + 1 <<< 384 + 8 <<< 392 + nout <<< 456 + 1 <<< 496
def claiming (gangs nout : Nat) : State :=
  let s := (tabled (mapped world)).wr 0x210000 64 (anEntry gangs nout)
  { (s.wr 0x220000 2 5) with pkg := { s.pkg with alm := [(0, 1)] } }
/-- An entry of two gangs whose two records make both members of group 0, of `n` groups. -/
def recorded (n : Nat) : State :=
  let s := ((claiming 2 0).wr 0x210018 8 0x20100 |>.wr 0x21002C 4 2 |>.wr 0x210036 2 n).wr 0x220100 24 (1 <<< 64 + (1 <<< 32 + 1 <<< 64) <<< 96)
  { s with cores := [(0, { lsarea := 0x800000, lw := 4 })] }
def theRecords : List (BitVec 8) := [0, 0, 0, 0, 0, 0, 0, 0, 1, 0, 0, 0, 0, 0, 0, 0, 1, 0, 0, 0, 1, 0, 0, 0]

theorem test_meets_ClaimsAndCompletion_a :
    let s := claiming 1 0
    let x := s.ctx 0
    x.st = .bound ∧ x.ending = none ∧ x.ttbase ≠ 0 ∧ x.ttbase.toNat % 65536 = 0 ∧ x.tbbase ≠ 0 ∧ x.tbbase.toNat % 32768 = 0 ∧ s.runs 0 0 = false ∧
      s.sys.mclkEnd = none := by decide
theorem test_meets_ClaimsAndCompletion_b :
    (claiming 1 0).q3Walk 0 .read 0x10000 = (claiming 1 0, .ok 0x210000) := by decide
theorem test_meets_ClaimsAndCompletion_c :
    (claiming 1 0).q3Walk 0 .write 0x10000 = (claiming 1 0, .ok 0x210000) := by decide
theorem test_meets_ClaimsAndCompletion_d :
    let s := claiming 1 0
    s.rd (0x210000 + 62) 2 % 4 = 1 ∧ s.rd (0x210000 + 44) 4 = 0 ∧ s.rd (0x210000 + 56) 1 + s.rd (0x210000 + 57) 1 = 0 := by decide
theorem test_meets_ClaimsAndCompletion_e :
    let s := claiming 65536 0
    s.rd (0x210000 + 40) 4 = 65536 ∧ s.rd (0x210000 + 48) 1 = 1 ∧ s.rd (0x210000 + 49) 1 = 8 ∧ s.rd (0x210000 + 50) 2 = 0 ∧ s.rd (0x210000 + 52) 2 = 0 ∧ s.rd (0x210000 + 54) 2 = 0 := by decide
theorem test_meets_ClaimsAndCompletion_f :
    let s := claiming 1 0
    (smGet (0 : BitVec 64) s.pkg.alm (s.rd (0x210000 + 59) 1 % 32)).toNat = 1 ∧ s.rd 0x210000 8 % 12 = 0 ∧ s.rd 0x210008 8 = 0 ∧ s.rd (0x210000 + 58) 1 = 0 ∧ s.rd (0x210000 + 62) 2 = 1 := by decide
theorem test_meets_ClaimsAndCompletion_g :
    (claiming 0 0).rd (0x210000 + 40) 4 = 0 ∧ 65536 < (claiming 65537 0).rd (0x210000 + 40) 4 := by decide
theorem test_meets_ClaimsAndCompletion_h :
    let s := claiming 1 1
    s.rd (0x210000 + 56) 1 + s.rd (0x210000 + 57) 1 = 1 ∧ s.rd (0x210000 + 32) 8 = 0x20000 := by decide
theorem test_meets_ClaimsAndCompletion_i :
    (claiming 1 1).q3Read 0 0x20000 2 = (claiming 1 1, some [5, 0]) ∧ (List.range 1).map (fun j => fieldAt [5, 0] (2 * j) 2) = [5] := by decide
theorem test_meets_ClaimsAndCompletion_j :
    (claiming 1 1).q3Walk 0 .read (0x8000 + 8 * 5) = (claiming 1 1, .ok 0x208028) ∧ (claiming 1 1).q3Walk 0 .write (0x8000 + 8 * 5) = (claiming 1 1, .ok 0x208028) := by decide
theorem test_meets_ClaimsAndCompletion_k :
    let s := recorded 1
    s.rd (0x210000 + 44) 4 = 2 ∧ s.rd (0x210000 + 40) 4 = 2 ∧ s.rd (0x210000 + 54) 2 = 1 ∧ s.q3Walk 0 .write 0x10000 = (s, .ok 0x210000) ∧
      s.rd (0x210000 + 24) 8 = 0x20100 ∧ s.q3Read 0 0x20100 24 = (s, some theRecords) := by decide
theorem test_meets_ClaimsAndCompletion_l :
    fieldAt theRecords 0 2 = 0 ∧ fieldAt theRecords 4 4 = 0 ∧ fieldAt theRecords 8 4 = 1 ∧ fieldAt theRecords 12 2 = 0 ∧ fieldAt theRecords 16 4 = 1 ∧
      fieldAt theRecords 20 4 = 1 ∧ cosetsOf (parseGRecs theRecords 2) = [[0, 1]] ∧
      2 ≤ (recorded 1).capacity 0 (parseEntry ((recorded 1).bytes 0x210000 64)) := by decide
theorem test_meets_ClaimsAndCompletion_m :
    (recorded 0).rd (0x210000 + 54) 2 ≤ fieldAt theRecords 0 2 ∧
      let s : State := { recorded 1 with stks := [] }
      s.capacity 0 (parseEntry (s.bytes 0x210000 64)) < [0, 1].length ∧ s.q3Walk 0 .write 0x10000 = (s, .ok 0x210000) := by decide
theorem test_meets_ClaimsAndCompletion_n :
    0x208028 + 8 ≤ 0x210000 ∧ (claiming 1 1).rd 0x208028 8 = 0 ∧ ((claiming 1 1).wr 0x208028 8 1).rd 0x208028 8 % 4 ≠ 0 := by decide
theorem test_meets_ClaimsAndCompletion_o :
    let g : Gang := { world.gang with st := .exited }
    let s : State := { mapped world with gang := g, insts := [theInst] }
    s.inst? theInst.id = some theInst ∧ theInst.ended = false ∧ theInst.ins = [] ∧ theInst.outs = [] ∧ (∀ h ∈ s.gang :: s.gangs, h.gid ≠ 0 → h.inst = theInst.id →
      h.st = .exited ∧ h.queue = [] ∧ h.array = none ∧ s.ops = [] ∧ s.sys.mclkEnd = none ∧ ∀ a ∈ s.accs, a.gid ≠ h.gid) := by decide
theorem test_meets_ClaimsAndCompletion_p :
    -- a result in word 5 and a source in word 6, both of task 0: the second release and the entry are reached after the first release
    let s := (((claiming 2 0).wr 0x208028 8 3).wr 0x208030 8 2).wr 0x21003E 2 2
    s.q3Walk 0 .write (0x8000 + 8 * 5) = (s, .ok 0x208028) ∧ s.rd 0x208028 8 % 4 = 3 ∧ s.rd 0x208028 8 / 2 ^ 12 % 2 ^ 10 = 0 ∧ s.rd 0x208030 8 % 4 = 2 ∧
      let m := s.wr 0x208028 8 0x100000001
      m.q3Walk 0 .write (0x8000 + 8 * 6) = (m, .ok 0x208030) ∧
      let m' := m.wr 0x208030 8 0
      m'.q3Walk 0 .write 0x10000 = (m', .ok 0x210000) ∧ s.rd (0x210000 + 62) 2 % 4 = 2 ∧ 0x208028 + 8 ≤ 0x208030 ∧ 0x208030 + 8 ≤ 0x210000 + 62 := by decide


/-- A queued gang of 1 KiB, and cores 0 and 1 free. -/
def queuedGang : Gang := { gid := 5, inst := 2, warpsN := 1, regsN := 8, localk := 1 }
def queueing (lw : Nat) (k : Carve) (r : Option Nat) : State :=
  { world with cores := [(0, { lsarea := 0x800000, lw := lw, carve := k, reserved := r })], gangs := [queuedGang]
               insts := [{ id := 2, entry := { gangs := 1, warps := 1, code := 0x6000 } }] }

theorem test_meets_Placement_a :
    ((queueing 2 .stable none).ctx queuedGang.asid).yoked = false ∧ (queueing 2 .stable none).bestCore [5] [] [] queuedGang = some { gid := 5, core := 0, base := 65536, lw := 2 } ∧ 0 < queuedGang.warpsN := by decide
theorem test_meets_Placement_b :
    ∀ c, ((queueing 2 .stable none).core c).kept = none := fun c => by
    simp only [queueing, State.core, smGet]; split <;> rfl
theorem test_meets_Placement_c :
    let s := queueing 2 .stable none
    queuedGang.warpsN ≤ 32 ∧ s.gangHeld queuedGang = false ∧ s.overEverywhere [5] queuedGang = false ∧ queuedGang.gid ≠ 0 ∧ queuedGang.st = .queued ∧ queuedGang.saves = false ∧ queuedGang ∈ s.gangs ∧ (∀ h ∈ s.gangs, h.gid = queuedGang.gid → h = queuedGang) ∧ s.gang.gid ≠ 5 := by decide
theorem test_meets_Placement_d :
    let s := queueing 2 .stable none
    (s.inst? queuedGang.inst).isSome = true ∧ (∀ x ∈ s.me :: s.warps, x.gid ≠ 5) ∧ s.unitOf queuedGang = some [queuedGang] := by decide
theorem test_meets_Placement_e :
    let s := queueing 2 .stable none
    s.placeQueue = [queuedGang] ∧ s.growsFor [5] = false ∧ s.plan [5] [] [] [queuedGang] = some [{ gid := 5, core := 0, base := 65536, lw := 2 }] ∧
      2 * 65536 ≤ (s.core 0).localLimit := by decide
theorem test_meets_Placement_f :
    let s := queueing 1 (.growing 2) (some 5)
    let t := s.setCore 0 { s.core 0 with lw := 2, carve := .stable }
    (s.core 0).carve = .growing 2 ∧ (s.core 0).reserved = some 5 ∧ t.unitOf queuedGang = some [queuedGang] ∧ t.growsFor [5] = false ∧
      t.plan [5] [(5, 0)] [] [queuedGang] = some [{ gid := 5, core := 0, base := 65536, lw := 2 }] := by decide
theorem test_meets_Placement_g :
    ((queueing 1 (.growing 2) none).core 0).carve = .growing 2 ∧ ((queueing 1 (.growing 2) none).core 0).reserved = none := by decide
theorem test_meets_Placement_h :
    let s := queueing 2 (.shrinking 1) none
    (s.core 0).carve = .shrinking 1 ∧ (∀ g ∈ s.coreGangs 0, g.base + g.localk * 1024 ≤ 1 * 65536) ∧ ∃ g ∈ s.coreGangs 0, 0 * 65536 < g.base + g.localk * 1024 := by decide

/-- With tokens, s4 a warp's number. -/
def tokened (ts : List (Nat × Nat)) (u : BitVec 32) : State :=
  let s := regs world [] [(4, u)]
  { s with gang := { s.gang with tokens := ts } }
def seqTokened (ts : List (Nat × Nat)) (u : BitVec 32) : State := sequenced { world with gang := { world.gang with tokens := ts } } [(4, u)]
def withBar (x : Bar) : State := { world with gang := { world.gang with bars := [(15, x)] } }
def withLoops (ls : List Loop) (u : BitVec 32) : State :=
  let s := sequenced world [(4, u)]
  { s with gang := { s.gang with seq := { s.gang.seq with loops := ls } } }
def withQueue (q : List MxOp) (ts : List (Nat × Nat)) : State := { world with gang := { world.gang with queue := q, tokens := ts } }
def anMm : MxOp := { kind := .mm .i8 false .k512, pa := 0xFFF0000000000000, pb := 0xFFF0000000008000 }
/-- The sequencer's group ends while the warp waits at barrier 15; its context has a vector table at `tv`, with handler `h` for program errors. -/
def atBarrier (tv h : Nat) : State :=
  let s := sequenced (others (path (cached world) fun p => { p with st := .held (.seqBar 15 0x600C 0) }) [second])
  ({ s with ctxs := [(0, { st := .bound, priv := true, root := 0x10000, tvbase := BitVec.ofNat 64 tv })] } : State).wr 0x200108 8 h

theorem test_meets_MatrixOrder_a :
    world.gang.gid ≠ 0 ∧ (∀ g ∈ world.gangs, g.gid ≠ world.gang.gid) ∧ world.issue ≠ .none ∧ world.gang.mx = true ∧ ({ world.gang with mx := false } : Gang).mx = false := by decide
theorem test_meets_MatrixOrder_b :
    32 < ((tokened [] 33).u 4).toNat ∧ ((tokened [] 1).u 4).toNat ≠ 32 ∧ (tokened [] 1).gang.warpsN ≤ ((tokened [] 1).u 4).toNat := by decide
theorem test_meets_MatrixOrder_c :
    ¬ (32 < ((tokened [] 0).u 4).toNat) ∧ ¬ ((tokened [] 0).gang.warpsN ≤ ((tokened [] 0).u 4).toNat) ∧ (∀ x ∈ (tokened [] 0).me :: (tokened [] 0).warps, x.exited = false) ∧
      smGet 0 (tokened [] 0).gang.tokens 15 ≠ (tokened [] 0).me.w + 1 := by decide
theorem test_meets_MatrixOrder_d :
    smGet 0 (tokened [(15, 1)] 0).gang.tokens 15 = (tokened [(15, 1)] 0).me.w + 1 ∧ ((tokened [(15, 1)] 0).u 4).toNat + 1 = 1 ∧ ((tokened [(15, 1)] 32).u 4).toNat = 32 ∧
      (tokened [(15, 1)] 32).issue = .lane := by decide
theorem test_meets_MatrixOrder_e :
    smGet 0 (tokened [(15, 1)] 33).gang.tokens 15 = (tokened [(15, 1)] 33).me.w + 1 ∧ 32 < ((tokened [(15, 1)] 33).u 4).toNat := by decide
theorem test_meets_MatrixOrder_f :
    smGet 0 (seqTokened [] 0).gang.tokens 15 = 0 ∧ ((seqTokened [] 0).u 4).toNat + 1 ≠ 0 ∧ (seqTokened [] 0).issue = .seq ∧ smGet 0 (seqTokened [(15, 1)] 0).gang.tokens 15 ≠ 0 := by decide
theorem test_meets_MatrixOrder_g :
    let s : State := { tokened [(15, 1)] 0 with gang := { (tokened [(15, 1)] 0).gang with passing := [(15, 0)] } }
    s.gang.passing.find? (fun p => p.1 == 15) = some (15, 0) ∧ s.locks = [] ∧ s.accs = [] := by decide
theorem test_meets_MatrixOrder_h :
    let x : Acc := { id := 4, gid := 1, op := .accSt, key := tileKey 1 15 (2 ^ 14 - 4), size := 4 }
    x.gid = world.gang.gid ∧ x.w + 1 = smGet 0 (tokened [(15, 1)] 0).gang.tokens 15 ∧ x.op = .accSt ∧ tileOf x.key = 15 := by decide
theorem test_meets_MatrixOrder_i :
    ∃ l ∈ (withOps [{ anOp with locks := [{ base := tileKey 1 15 (2 ^ 14 - 4), len := 4, full := true }] }]).locks,
      l.2.base < tileKey 1 15 (2 ^ 14) ∧ tileKey 1 15 0 < l.2.base + l.2.len := ⟨_, List.mem_cons_self, by decide⟩
theorem test_meets_MatrixOrder_j :
    world.me.gid = world.gang.gid ∧ world.me.w < 32 ∧ world.gang.seq.st ≠ .ended ∧ ({ world.gang.seq with st := .ended } : Seqr).st = .ended := by decide
theorem test_meets_MatrixOrder_k :
    let o : EngOp := { anOp with phase := .waitEntries, dmask := 1 }
    o.gid = world.gang.gid ∧ o.w = world.me.w ∧ o.phase = .waitEntries ∧ o.dmask &&& world.me.cur.mask ≠ 0 := by decide
theorem test_meets_MatrixOrder_l :
    (∀ o ∈ (withOps [anOp]).ops, o.phase = .registered ∨ o.phase = .started) ∧ (smGet {} world.gang.bars 15 : Bar).seq = false := by decide
theorem test_meets_MatrixOrder_m :
    let x : Bar := { seq := true, mask := 1 }
    (smGet {} (withBar x).gang.bars 15 : Bar) = x ∧ x.seq = true ∧ (x.arrived ||| BitVec.ofNat 32 (2 ^ 0)) &&& x.mask = x.mask ∧ x.arrived.getLsbD 0 = false := by decide
theorem test_meets_MatrixOrder_n :
    ((seqTokened [] 0).u 4) = 0 ∧ ((seqTokened [] 2).u 4).toNat / 2 ^ (seqTokened [] 2).gang.warpsN ≠ 0 ∧ ((seqTokened [] 1).u 4).toNat / 2 ^ (seqTokened [] 1).gang.warpsN = 0 := by decide
theorem test_meets_MatrixOrder_o :
    (smGet {} world.gang.bars 15 : Bar).arrived &&& (1 : BitVec 32) ≠ 1 ∧ (smGet {} (withBar { arrived := 1 }).gang.bars 15 : Bar).arrived &&& (1 : BitVec 32) = 1 := by decide
theorem test_meets_MatrixOrder_p :
    (withLoops [] 0).issue = .seq ∧ (withLoops [] 0).u 4 = 0 ∧ (withLoops [{}, {}, {}, {}] 1).gang.seq.loops.length = 4 ∧ (withLoops [{}, {}, {}] 1).u 4 ≠ 0 ∧
      (withLoops [{}, {}, {}] 1).gang.seq.loops.length ≠ 4 := by decide
theorem test_meets_MatrixOrder_q :
    (withLoops [] 1).gang.seq.loops = [] ∧ (withLoops [{ count := 2, trip := 0 }] 1).gang.seq.loops = [{ count := 2, trip := 0 }] ∧ (0 : BitVec 32) + 1 < 2 ∧ ¬ (1 : BitVec 32) + 1 < 2 := by decide
theorem test_meets_MatrixOrder_r :
    let s := atBarrier 0 0
    s.gang.seq.loops = [] ∧ s.me.gid = s.gang.gid ∧ s.warps = [] ∧ s.me.exited = false ∧ s.me.halted = false ∧ s.me.trc.on = false ∧ s.me.cur.mask ≠ 0 ∧
      s.me.cur.st = .held (.seqBar 15 0x600C 0) ∧ s.me.paths = [second] ∧ second.st = .ready ∧ (∀ p ∈ s.me.live, p.hmode = .none) ∧
      (s.ctx s.gang.asid).tvbase = 0 ∧ (s.ctx s.gang.asid).ending = none := by decide
theorem test_meets_MatrixOrder_s :
    let s := atBarrier 0x100 0x6000
    let v : State := { s with gang := { s.gang with seq := { s.gang.seq with st := .ended } }, issue := .lane
                              here := { pc := s.me.cur.pc, wpos := s.me.cur.wpos, npc := 0x600C, nwpos := 0 } }
    v.vector 1 = (v, .ok 0x6000) := by decide
theorem test_meets_MatrixOrder_t :
    let h : Gang := { gid := 2, st := .resident, mx := true, localk := 64, base := 0x10000, queue := [anMm] }
    let s : State := { withQueue [anMm] [] with gangs := [h], cores := [(0, { lw := 4, mxlast := 2 })] }
    h.gid ≠ 0 ∧ 32 * h.stk + h.core = s.coreNo ∧ h.array = none ∧ s.gang.array = none ∧ s.locks = [] ∧ (s.core s.coreNo).mxlast = h.gid ∧
      (∀ r ∈ anMm.regions, h.badRegion r = false ∧ s.gang.badRegion r = false) ∧ (withQueue [anMm] []).gang.gid ≠ 2 := by decide
theorem test_meets_MatrixOrder_u :
    4 ≤ (withQueue [{}, {}, {}, {}] []).gang.queue.length ∧ (withQueue [{}, {}, {}] []).gang.queue.length < 4 ∧ smGet 0 (withQueue [] [(3, 1)]).gang.tokens 3 ≠ 0 ∧
      (∀ j ∈ [3, 5], smGet 0 (withQueue [] [(3, 1)]).gang.tokens j ≠ 0 → 3 ≤ j) ∧ ∀ k ∈ [3, 5], smGet 0 (withQueue [] []).gang.tokens k = 0 := by decide
theorem test_meets_MatrixOrder_v :
    let s := withQueue [anMm] []
    s.gang.mx = true ∧ s.gang.st = .resident ∧ s.gang.array = none ∧ s.gang.queue = [anMm] ∧ s.gangs = [] ∧ s.locks = [] := by decide
theorem test_meets_MatrixOrder_w :
    ∀ r ∈ anMm.regions, r.1.toNat / 2 ^ 48 = 0xFFF0 ∧ r.1.toNat % 2 ^ 48 % r.2.2 = 0 ∧ r.1.toNat % 2 ^ 48 + r.2.1 + 0 ≤ world.gang.localk * 1024 := by decide
theorem test_meets_MatrixOrder_x :
    ∃ r ∈ ({ anMm with pb := 0xFFF0000000008200 } : MxOp).regions, ¬ r.1.toNat % 2 ^ 48 + r.2.1 ≤ world.gang.localk * 1024 := by decide


/-- A warp that holds token 15, with v4 the words of a tile that its lanes take; `x` in lane 31. -/
def tiling (x : BitVec 32) : State :=
  let s := regs world [(159, x)] []
  { s with gang := { s.gang with tokens := [(15, 1)] } }

theorem test_meets_MatrixResults_a :
    world.gang.gid ≠ 0 ∧ world.gang.mx = true ∧ world.gang.st = .resident ∧ (∀ h ∈ world.gangs, h.gid ≠ world.gang.gid ∧ 32 * h.stk + h.core ≠ world.coreNo) ∧
      ({ d := 15, a := 15 } : MxOp).d < 16 := by decide
theorem test_meets_MatrixResults_b :
    ∀ k ∈ [MxKind.mm .i8 true .k512, .mm .q4 false .k128, .sp .e4m3 true .keep2, .xpose, .perm, .rsumF32, .rsumI32, .zero, .scacc, .cvtF32I32, .cvtI32F32],
      ({ world.gang with array := some { kind := k, d := 15 } } : Gang).array = some { kind := k, d := 15 } := by
    intro k _; rfl
theorem test_meets_MatrixResults_c :
    (tiling 0).gang.mx = true ∧ smGet 0 (tiling 0).gang.tokens 14 ≠ (tiling 0).me.w + 1 ∧ smGet 0 (tiling 0).gang.tokens 15 = (tiling 0).me.w + 1 := by decide
theorem test_meets_MatrixResults_d :
    let s := tiling 0x1000
    s.me.cur.mask ≠ 0 ∧ s.locks = [] ∧ s.sys.mclkEnd = none ∧ (∀ h ∈ s.gang :: s.gangs, h.array = none) ∧ (∀ o ∈ s.gang.queue, 15 ≠ o.d ∧ 15 ≠ o.a) ∧
      ∀ l, l < 32 → s.memMask.getLsbD l = true → (s.v 4 l).toNat ≤ 0x1000 := by decide
theorem test_meets_MatrixResults_e :
    let s := tiling 0x1001
    s.me.cur.replay = none ∧ s.me.trc.on = false ∧ (∀ p ∈ (others s [second]).me.paths, p.mask &&& s.me.cur.mask = 0) ∧
      (∃ l, l < 32 ∧ s.act l = true ∧ (s.v 4 l).toNat ≤ 0x1000) ∧ s.act 31 = true ∧ 0x1000 < (s.v 4 31).toNat := by decide
theorem test_meets_MatrixResults_f :
    let s : State := { tiling 0x1000 with gang := { (tiling 0x1000).gang with queue := [{ d := 3, a := 15, kind := .xpose }] } }
    (∃ o ∈ s.gang.queue ++ s.gang.array.toList, 15 ∈ o.tiles) ∧ s.gang.mx = true ∧ smGet 0 s.gang.tokens 15 = s.me.w + 1 ∧ s.locks = [] ∧
      ∀ l, l < 32 → s.memMask.getLsbD l = true → (s.v 4 l).toNat ≤ 0x1000 := by decide
theorem test_meets_MatrixResults_g :
    ∀ full : Bool,
      let s : State := { tiling 5 with
        ops := [{ anOp with locks := [{ base := tileKey 1 15 20, len := 4, full := full }] }], ctxs := [(0, { st := .bound, root := 0x10000 })] }
      (∀ x ∈ s.locks, x.1 ∉ s.ownStreams) ∧ (s.ctx s.gang.asid).priv = false ∧ s.memMask.getLsbD 31 = true ∧ (s.v 4 31).toNat = 5 ∧
        ∃ x ∈ s.locks, x.2.full = full ∧ s.hits (tileKey 1 15 20) 4 x.2 = true := by decide
theorem test_meets_MatrixResults_h :
    3 < (4 : BitVec 32).toNat % 8 ∧ (3 : BitVec 32).toNat % 8 ≤ 3 := by decide


/-- v2:v3 of both lanes is the descriptor at the start of the own local memory; with a pool or none. -/
def drawing (held : Bool) (pool : Nat) : State :=
  let s := pointing 0xFFF00000 0
  { s with gang := { s.gang with pool := pool, poolHeld := held } }
/-- The uniform block of beam.cast and beam.next: scene, buffer, capacity. -/
def casting (buf : BitVec 64) (cap : BitVec 32) : State :=
  let s := block [0, 0xFFF00000, buf.setWidth 32, (buf >>> 32).setWidth 32, cap]
  { s with gang := { s.gang with poolHeld := true } }

theorem test_meets_GraphicsIssue_a :
    let s := drawing false 0
    s.ops = [] ∧ s.sys.migs = [] ∧ s.me.cur.mask ≠ 0 ∧ s.gang.localk ≤ 1024 ∧ s.gang.pool = 0 ∧ s.gang.poolHeld = false ∧ (drawing true 16).gang.pool ≠ 0 ∧ (drawing true 16).gang.poolHeld = true := by decide
theorem test_meets_GraphicsIssue_b :
    ∀ l, l < 32 → (drawing true 16).act l = true → ((drawing true 16).vv 2 l).toNat = 0xFFF0 * 2 ^ 48 + 0 ∧ 0 + 64 + (64 + 160 * 16) ≤ (drawing true 16).gang.localk * 1024 ∧ 0 % 64 = 0 := by decide
theorem test_meets_GraphicsIssue_c :
    let s := casting 0xFFF0000000000040 1
    (s.uuAt 8 2).toNat % 128 ≠ 0 ∧ ((casting 0xFFF3000000000000 1).uuAt 8 2).toNat / 2 ^ 48 ≠ 0 ∧ ((casting 0xFFF3000000000000 1).uuAt 8 2).toNat / 2 ^ 48 ≠ 0xFFF0 := by decide
theorem test_meets_GraphicsIssue_d :
    let s := casting 0xFFF0000000000080 0
    (s.uuAt 8 2).toNat % 128 = 0 ∧ (s.uuAt 8 2).toNat / 2 ^ 48 = 0xFFF0 ∧ s.un 12 = 0 ∧ 131071 < ((casting 0 131072).un 12).toNat ∧ ((casting 0 131071).un 12).toNat ≤ 131071 := by decide
theorem test_meets_GraphicsIssue_e :
    hdrPlace 0xFFF3000000000000 = false ∧ hdrPlace ((casting 0xFFF0000000000080 1).uuAt 8 0).toNat = true := by decide
theorem test_meets_GraphicsIssue_f :
    let s := casting 0xFFF0000000000080 1
    s.coreNo < 96 ∧ s.gang.base + s.gang.localk * 1024 ≤ 2 ^ 20 ∧ (s.uuAt 8 2).toNat = 0xFFF0 * 2 ^ 48 + 128 ∧ 128 + (128 + 128 * 1) + (64 + 160 * 16) ≤ s.gang.localk * 1024 := by decide
theorem test_meets_GraphicsIssue_g :
    ∃ (s : State) (h : List (BitVec 64)), s.sceneHdr 0xFFF0000000000000 = .ok (s, h) := ⟨(casting 0xFFF0000000000080 1).wr (localKey 0 0) 24 (1 <<< 128 + 1 <<< 160), [0, 0, 0x100000001, 0, 0, 0, 0, 0], by decide⟩
theorem test_meets_GraphicsIssue_h :
    let s := pointing 0 0x10001
    2 ^ 16 + (s.vv 2 0).toNat < (s.vv 2 31).toNat + 128 ∧ ¬ 2 ^ 16 + ((pointing 0 0xFF80).vv 2 0).toNat < ((pointing 0 0xFF80).vv 2 31).toNat + 128 := by decide
theorem test_meets_GraphicsIssue_i :
    let s := regs world [] [(8, 65536), (9, 65537)]
    s.u 8 ≠ 0 ∧ (s.u 8).toNat ≤ 65536 ∧ 65536 < (s.un 9).toNat ∧ world.u 8 = 0 := by decide
theorem test_meets_GraphicsIssue_j :
    ∀ l, l < 32 → (drawing false 16).act l = true → ((drawing false 16).vv 2 l).toNat = 0xFFF0 * 2 ^ 48 + 0 ∧ 0 + 192 + 0 ≤ (drawing false 16).gang.localk * 1024 ∧ 0 % 128 = 0 := by decide


/-- One registered graphics operation of the warp. -/
def gfxOp (b : OpBody) (segs : List Seg := []) : EngOp := { id := 3, gid := 1, cls := 0, body := b, dmask := 1, segs := segs }
def gfxWorld (o : EngOp) : State := { drawing true 16 with ops := [o] }
/-- A triangle with whole corners (0, 0), (0, 8), (8, 0), in a record at the start of the own local memory. -/
def triangle (x : Nat) : Nat := x + 0x41000000 <<< 96 + 0x41000000 <<< 128
/-- Lists of bytes as numbers; a node over the unit square at depth 1 with triangle 0; the triangle (x, x), (y, x), (x, y) at depth 1. -/
def aNode (kind count child : Nat) : List (BitVec 8) :=
  leBytes 32 (0x3F800000 <<< 64 + 0x3F800000 <<< 96 + 0x3F800000 <<< 128 + 0x3F800000 <<< 160 + kind <<< 192 + count <<< 200 + child <<< 224)
def aTri (x y : Nat) : List (BitVec 8) :=
  leBytes 48 (x + x <<< 32 + 0x3F800000 <<< 64 + y <<< 96 + x <<< 128 + 0x3F800000 <<< 160 + x <<< 192 + y <<< 224 + 0x3F800000 <<< 256)
/-- A header of one node and one triangle, after `n` words of a block. -/
def aHeader (pre : List (BitVec 64)) : List (BitVec 64) := pre ++ [0xFFF0000000000100, 0xFFF0000000000200, 0x100000001, 0, 0, 0, 0, 0]
def unitFrame : Frame := { P := [0, 0, 0], Q := [0, 0, 0x3F800000], E1 := [0x3F800000, 0, 0], E2 := [0, 0x3F800000, 0], tlo := 0x3F000000, thi := 0x40000000 }
def unitPiece : List Vec := [[0, 0], [0x3F800000, 0], [0x3F800000, 0x3F800000], [0, 0x3F800000]]
/-- A pool whose entry 0 is a root over `unitFrame`, its first child `next`, with header word 1 `free`. -/
def pooled (free next : Nat) (o : EngOp) : State :=
  let k := localKey 0 (64 * 1024 - (64 + 160 * 16))
  let e : Nat := 0x3F800000 <<< 160 + 0x3F800000 <<< 192 + 0x3F800000 <<< 320 + 0x3F000000 <<< 384 + 0x40000000 <<< 416 + 0x4100 <<< 448 + next <<< 576 +
    0x3F800000 <<< 832 + 0x3F800000 <<< 896 + 0x3F800000 <<< 928 + 0x3F800000 <<< 992
  let s := (((gfxWorld o).wr (k + 4) 4 free).wr (k + 64) 160 e).wr (k + 64 + 160) 160 (e - 0x100 <<< 448 + 0x200 <<< 448 - next <<< 576 + 16 <<< 576)
  if next = 1 then s else s.wr (k + 64 + 160) 160 0
def beamOp (cast : Bool) (r : Word) (tape : List ((Nat × Nat) × Option (List (BitVec 8)))) : EngOp :=
  { gfxOp (.gfx (if cast then .beamCast else .beamNext) 5 [(31, [r])] (aHeader [0, 0xFFF0000000000080, 1])) [{ addr := 0xFFF0000000000080, len := 256, key := localKey 0 128 }] with
    tape := some tape }
def rayOp (tape : List ((Nat × Nat) × Option (List (BitVec 8)))) : EngOp :=
  { gfxOp (.gfx .rayCast 5 [(31, [0, 0xFFF00000])] (aHeader [0])) [{ addr := 0xFFF0000000000000, len := 128, key := localKey 0 0 }] with tape := some tape }
/-- A ray from (1/4, 1/4, 0) along depth. -/
def rayWorld (tape : List ((Nat × Nat) × Option (List (BitVec 8)))) : State :=
  (gfxWorld (rayOp tape)).wr (localKey 0 0) 128 (0x3E800000 + 0x3E800000 <<< 32 + 0x3F800000 <<< 192 + 0x7F800000 <<< 224)
def aTexture : List (BitVec 8) := leBytes 64 (1 <<< 64 + 1 <<< 72 + 1 <<< 80 + 2 <<< 88)

theorem test_meets_GraphicsEffects_a :
    let o := gfxOp (.gfx .bpoolInit 0 [] [])
    let s := gfxWorld o
    s.ops = [o] ∧ s.me.gid ≠ 0 ∧ s.gang.gid = s.me.gid ∧ o.gid = s.me.gid ∧ o.w = s.me.w ∧ (o.phase = .registered ∧ o.more = false) ∧ o.tape = some [] ∧ o.closing = true ∧ o.bounced = [] ∧
      o.stamp = none ∧ (s.core s.coreNo).wps = [] ∧ s.me.stops = [] := by decide
theorem test_meets_GraphicsEffects_b :
    let o := gfxOp (.gfx .bpoolInit 0 [] [])
    let s := gfxWorld o
    o.slot = none ∧ o.cls < 4 ∧ s.sys.migs = [] ∧ s.sys.mclkEnd = none ∧ s.enforced = false ∧ s.me.pre.st ≠ .saved ∧ (∀ g ∈ s.gang :: s.gangs, g.array = none) ∧ s.gang.pool < 2 ^ 16 := by decide
theorem test_meets_GraphicsEffects_c :
    ∃ s t, (rayWorld []).engineRun (rayOp []) = .error (0xFFF0000000000100, 32) ∧ (rayWorld []).engLoad (rayOp []) 0xFFF0000000000100 32 = (s, .ok t) := ⟨_, _, rfl, rfl⟩
theorem test_meets_GraphicsEffects_d :
    let o : EngOp := { rayOp [] with phase := .started, more := true }
    (o.phase = .started ∧ o.more = true) ∧ (rayWorld []).engLoad o (2 ^ 48 - 1) 32 = (rayWorld [], .error .sfault) := by decide
theorem test_meets_GraphicsEffects_e :
    let b := aHeader [0, 0xFFF0000000000080, 1]
    (beamOp true 0 []).body = .gfx .beamCast 5 [(31, [0])] b ∧ (beamOp false 0 []).body = .gfx .beamNext 5 [(31, [0])] b ∧ (b.getD 1 0).toNat = 0xFFF0000000000080 ∧
      localKey 0 128 + 256 ≤ localKey 0 (64 * 1024 - (64 + 160 * 16)) ∧ (hdrOf b .beamCast).level = 0 ∧ 0 < (hdrOf b .beamCast).nnode ∧ 0 < (hdrOf b .beamCast).nitem := by decide
theorem test_meets_GraphicsEffects_f :
    let k := localKey 0 (64 * 1024 - (64 + 160 * 16))
    let s := pooled 15 16 (beamOp true 0 [])
    s.rd (k + 64 + 56) 4 / 2 ^ 8 % 4 = 1 ∧ s.rd (k + 64 + 72) 4 = 16 ∧ s.rd32 (k + 4) ≠ 0 ∧ s.rd (k + 224 + 56) 4 / 2 ^ 8 % 4 = 0 ∧ s.pFrame k 0 = unitFrame ∧ s.pPoly k 0 = unitPiece := by decide
theorem test_meets_GraphicsEffects_g :
    let k := localKey 0 (64 * 1024 - (64 + 160 * 16))
    let s := pooled 14 1 (beamOp false 0 [])
    s.rd (k + 64 + 56) 4 / 2 ^ 8 % 4 = 1 ∧ s.rd (k + 64 + 72) 4 = 1 ∧ s.rd (k + 224 + 72) 4 = 16 ∧ s.rd (k + 224 + 64) 4 = 0 ∧ s.rd (k + 224 + 68) 4 = 0 ∧ s.pFrame k 0 = unitFrame ∧
      s.pPoly k 1 = unitPiece ∧ (s.rd32 (k + 64 + 56)).getLsbD 0 = false := by decide
theorem test_meets_GraphicsEffects_h :
    let k := localKey 0 (64 * 1024 - (64 + 160 * 16))
    let s := pooled 0 16 (beamOp true 0 [])
    s.rd32 (k + 4) = 0 ∧ (1 : BitVec 64).toNat ≤ (s.wr (localKey 0 128) 4 1).rd (localKey 0 128) 4 ∧ s.rd (localKey 0 128) 4 < 1 := by decide
theorem test_meets_GraphicsEffects_i :
    overlap unitFrame unitPiece [[0x40000000, 0x40000000, 0x3F800000], [0x40800000, 0x40000000, 0x3F800000], [0x40000000, 0x40800000, 0x3F800000]] = none := by decide
theorem test_meets_GraphicsEffects_j :
    ∃ x, overlap unitFrame unitPiece [floats (aTri 0xBF800000 0x40800000) 0 3, floats (aTri 0xBF800000 0x40800000) 12 3, floats (aTri 0xBF800000 0x40800000) 24 3] = some x ∧
      x.kept = [] := ⟨⟨unitPiece, [], 0x3F800000, 0x3F800000⟩, by decide⟩
theorem test_meets_GraphicsEffects_k :
    let o := beamOp false 0 []
    let s := ((pooled 14 1 o).put (localKey 0 0x100) (aNode 1 1 0)).put (localKey 0 0x200) (aTri 0xBF800000 0x40800000)
    (s.below o (hdrOf (aHeader [0, 0xFFF0000000000080, 1]) .beamCast) 1 [0]).any
      (s.triOverlaps o (hdrOf (aHeader [0, 0xFFF0000000000080, 1]) .beamCast) unitFrame unitPiece) = true := by decide
theorem test_meets_GraphicsEffects_l :
    let s := rayWorld []
    (rayOp []).body = .gfx .rayCast 5 [(31, [0, 0xFFF00000])] (aHeader [0]) ∧ slotBad (s.bytes (localKey 0 0) 128) = false ∧ 0 < (hdrOf (aHeader [0]) .rayCast).nnode ∧
      (hdrOf (aHeader [0]) .rayCast).level = 0 ∧ (hdrOf (aHeader [0]) .rayCast).nodes % 2 ^ 64 = 0xFFF0000000000100 ∧ (hdrOf (aHeader [0]) .rayCast).nitem = 1 := by decide
theorem test_meets_GraphicsEffects_m :
    let v (n : Nat) : Nat := field (aNode 1 1 0) n 4
    let t0 := fMul (fSub (v 8) 0) (fDiv 0x3F800000 0x3F800000)
    let t1 := fMul (fSub (v 20) 0) (fDiv 0x3F800000 0x3F800000)
    let r := (fMax 0xFF800000 (fMin t0 t1), fMin 0x7F800000 (fMax t0 t1))
    fLe (v 0) (v 12) = true ∧ fZero 0 = true ∧ fZero 0x3F800000 = false ∧ fLt 0x3E800000 (v 0) = false ∧ fLt (v 12) 0x3E800000 = false ∧ fLe r.1 r.2 = true ∧
      fLe 0 r.2 = true ∧ fLe r.1 0x7F800000 = true ∧ fLt (v 12) 0x40000000 = true := by decide
theorem test_meets_GraphicsEffects_n :
    field (aNode 1 1 0) 24 1 = 1 ∧ field (aNode 1 1 0) 25 1 = 1 ∧ field (aNode 2 1 0) 24 1 = 2 ∧ field (aNode 1 0 0) 25 1 = 0 ∧ field (aNode 0 5 0) 25 1 = 5 ∧ field (aNode 1 1 1) 28 4 = 1 := by decide
theorem test_meets_GraphicsEffects_o :
    let tb := aTri 0 0x3F800000
    let e1 := sub3 (floats tb 12 3) (floats tb 0 3)
    let e2 := sub3 (floats tb 24 3) (floats tb 0 3)
    let x := cross3 [0, 0, 0x3F800000] e2
    let y := sub3 [0x3E800000, 0x3E800000, 0] (floats tb 0 3)
    let u := fDiv (dot3 y x) (dot3 e1 x)
    let v := fDiv (dot3 [0, 0, 0x3F800000] (cross3 y e1)) (dot3 e1 x)
    fZero (dot3 e1 x) = false ∧ fLe 0 u = true ∧ fLe 0 v = true ∧ fLe (fAdd u v) 0x3F800000 = true ∧ fLe 0 (fDiv (dot3 e2 (cross3 y e1)) (dot3 e1 x)) = true := by decide
theorem test_meets_GraphicsEffects_p :
    fZero (dot3 [0, 0, 0x3F800000] [0x3F800000, 0, 0]) = true := by decide
theorem test_meets_GraphicsEffects_q :
    ∃ x, parseTex aTexture = some x ∧ x.width 0 = 2 ∧ x.levels = 1 ∧ x.size = 16 ∧ [(0x3F000000 : Nat), 0x3F000000, 0].all fFinite = true ∧ fFloor 0 = some 0 ∧
      fFloor (fSub (fMul 0x3F000000 (fOfInt (x.width 0))) fHalf) = some 0 := ⟨_, rfl, by decide⟩
theorem test_meets_GraphicsEffects_r :
    fFinite 0x7F7FFFFF = true ∧ fFloor (fSub (fMul 0x7F7FFFFF (fOfInt 2)) fHalf) = none := by decide
theorem test_meets_GraphicsEffects_s :
    let tape : List ((Nat × Nat) × Option (List (BitVec 8))) := [((0, 16), some []), ((16, 16), some []), ((32, 16), some []), ((48, 16), some [])]
    tape.lookup (0, 16) = some (some []) ∧ tape.lookup (16, 16) = some (some []) ∧ tape.lookup (32, 16) = some (some []) ∧ tape.lookup (48, 16) = some (some []) := by decide
theorem test_meets_GraphicsEffects_t :
    let q := fDiv (sqrtBits (fAdd (fMul 0x40000000 0x40000000) 0)).bits (sqrtBits (fAdd 0 (fMul 0x40000000 0x40000000))).bits
    fZero 0 = true ∧ isNanF32 q = false ∧ fCeil q = some 1 ∧ fCeil 0x7F800000 = none := by decide
theorem test_meets_GraphicsEffects_u :
    (gfxOp (.gfx .beamStat 5 [(0, [0x7FFFF]), (31, [0])] [])).body = .gfx .beamStat 5 [(0, [0x7FFFF]), (31, [0])] [] ∧ ([(0, [(0x7FFFF : Word)]), (31, [0])].map Prod.fst).Nodup := by decide
theorem test_meets_GraphicsEffects_v :
    let s := gfxWorld (gfxOp (.gfx .beamFree 5 [(31, [15])] []))
    let e := localKey 0 (64 * 1024 - (64 + 160 * 16)) + 64 + 160 * 15
    31 < 32 ∧ (15 : Word).toNat < s.gang.pool ∧ (s.wr (e + 56) 4 0x100).rd (e + 56) 4 / 2 ^ 8 % 4 = 1 ∧ (s.wr (e + 72) 4 16).rd (e + 72) 4 = 16 ∧ ¬ (16 : Word).toNat < s.gang.pool ∧
      ¬ s.rd (e + 56) 4 / 2 ^ 8 % 4 = 1 := by decide
theorem test_meets_GraphicsEffects_w :
    let k := localKey 0 (64 * 1024 - (64 + 160 * 16))
    let s := (gfxWorld (gfxOp (.gfx .bpoolInit 0 [] []))).wr (k + 4) 4 16
    s.rd32 (k + 4) ≠ 0 ∧ (gfxWorld (gfxOp (.gfx .bpoolInit 0 [] []))).rd32 (k + 4) = 0 ∧ s.rd (k + 64 + 56) 4 / 2 ^ 8 % 4 = 0 ∧ 0 < s.gang.pool := by decide
theorem test_meets_GraphicsEffects_x :
    let f : Frame := { P := [0, 0, 0], Q := [0, 0, 0x3F800000], E1 := [0x3F800000, 0, 0], E2 := [0, 0x3F800000, 0], tlo := 0x3F000000, thi := 0x3F800000 }
    f.ok = true ∧ ({ f with tlo := 0x7FC00000 } : Frame).ok = false ∧ 2 / 2 % 2 ^ 23 ≠ 0 ∧ 0x800001 / 2 % 2 ^ 23 ≠ 0 ∧ 1 / 2 % 2 ^ 23 = 0 := by decide
theorem test_meets_GraphicsEffects_y :
    let k := localKey 0 0
    let s := gfxWorld (gfxOp (.gfx .rayCast 5 [(0, [0, 0xFFF00000])] [0]) [{ addr := 0xFFF0000000000000, len := 128, key := k }])
    addrOf [0, 0xFFF00000] = 0xFFF0000000000000 ∧ GfxKind.rayCast.cls = 1 ∧ s.rd (k + 76) 4 ≠ 2 ∧ slotBad ((s.wr (k + 76) 4 9).bytes k 128) = slotBad ((s.wr (k + 76) 4 9).bytes k 128) := by decide
theorem test_meets_GraphicsEffects_z :
    ∃ bs, slotBad bs = true := ⟨List.replicate 12 0 ++ List.replicate 116 0xFF, by decide⟩
theorem test_meets_GraphicsEffects_za :
    GfxKind.texSamp.cls = 2 ∧ parseTex (List.replicate 64 0xFF) = none := by decide
theorem test_meets_GraphicsEffects_zb :
    let k := localKey 0 0
    let s := (gfxWorld (gfxOp (.gfx .rastTri 5 [(31, [0, 0xFFF00000])] [8, 8]) [{ addr := 0xFFF0000000000000, len := 192, key := k }])).wr k 24 (triangle 0)
    s.rd (k + 12) 4 = 0x41000000 ∧ s.rd (k + 28) 4 = 0 ∧ (s.wr (k + 28) 4 2).rd (k + 28) 4 = 2 ∧ (8 : BitVec 64).toNat ≤ 65536 ∧ (65536 : BitVec 64).toNat ≤ 65536 := by decide
theorem test_meets_GraphicsEffects_zc :
    fmtF32.decode 0x41000000 = .fin false 0x800000 (-20) ∧ fmtF32.decode 0x7FC00000 = .nan false := by decide


/-- s4 and s6:s7 as the operands of a power or register instruction. -/
def sysWorld (a : BitVec 32) (v : BitVec 64) (sel : BitVec 32 := 0) : State :=
  regs world [] [(4, a), (6, v.setWidth 32), (7, (v >>> 32).setWidth 32), (8, sel)]

theorem test_meets_PowerInstructions_a :
    8 < ((sysWorld 9 0).u 4).toNat ∧ ((sysWorld 8 0).u 4).toNat ≤ 8 ∧ (sysWorld 8 0).me.pre.st ≠ .saved := by decide
theorem test_meets_PowerInstructions_b :
    -- a request of a higher slot in the same cycle, and none before
    let s : State := { sysWorld 8 0 with clus := [(0, { asked := [(0, (0, 5))] })] }
    (smGet (0, 0) (s.clu 0).asked 0).1 = (s.core s.coreNo).cyc.toNat ∧ 128 * s.coreNo + s.me.slot < (smGet (0, 0) (s.clu 0).asked 0).2 ∧
      ¬ 128 * world.coreNo + world.me.slot < (smGet (0, 0) (world.clu 0).asked 0).2 ∧ s.gang.asid = 0 ∧ s.coreNo = 0 := by decide
theorem test_meets_PowerInstructions_c :
    world.windowMiss = false ∧ ∀ _ : Config.missesCache 5 = true, (inWindow (sysWorld 0 0)).windowMiss = true := ⟨by decide, fun h => (inWindow_draws (sysWorld 0 0) (by decide)).trans h⟩
theorem test_meets_PowerInstructions_d :
    ((sysWorld 0x1000000 0).u 4).toNat / 2 ^ 24 ≠ 0 ∧ ((sysWorld 0x1000 0).u 4).toNat / 2 ^ 12 % 16 ≠ 0 ∧ world.powered (((sysWorld 0x600000 0).u 4).toNat / 2 ^ 21 % 8) = false ∧
      (world.ctx (((sysWorld 0xFFF 0).u 4).toNat % 2 ^ 12)).st ≠ .bound ∧ world.powered (((sysWorld 0x1F0000 0).u 4).toNat / 2 ^ 21 % 8) = true := by decide
theorem test_meets_PowerInstructions_e :
    8 < ((sysWorld 0 9).uu 6).toNat % 16 ∧ ((sysWorld 0 9).uu 6).toNat % 32 < 10 ∧ ((sysWorld 0 15).uu 6).toNat < 16 ∧ 4096 < ((sysWorld 0 4097).uu 6).toNat ∧ ((sysWorld 0 0x100).uu 6).toNat / 256 ≠ 0 := by decide
theorem test_meets_PowerInstructions_f :
    ¬ 8 < ((sysWorld 0 8).uu 6).toNat % 16 ∧ ¬ (((sysWorld 0 0x100A).uu 6).toNat % 32 < 10 ∨ 24 < ((sysWorld 0 0x100A).uu 6).toNat % 32 ∨ 16 < ((sysWorld 0 0x100A).uu 6).toNat / 2 ^ 8 % 32) := by decide
theorem test_meets_PowerInstructions_g :
    ¬ (((sysWorld 0 4096).uu 6).toNat < 16 ∨ 4096 < ((sysWorld 0 4096).uu 6).toNat) ∧ (world.prereqBad 0xFFFFFFFFFFFFFFFF = true) := by decide
theorem test_meets_PowerInstructions_h :
    256 < (0x8080000000000001 : BitVec 64).toNat / 2 ^ 55 % 2 ^ 9 ∧ 4 < (5 : BitVec 64).toNat % 16 ∧ (0x10 : BitVec 64).toNat / 16 % 2 ^ 12 ≠ 0 := by decide
theorem test_meets_PowerInstructions_i :
    let v : BitVec 64 := 0x8040201000000001
    ¬ 256 < v.toNat / 2 ^ 55 % 2 ^ 9 ∧ ¬ 256 < v.toNat / 2 ^ 46 % 2 ^ 9 ∧ ¬ 256 < v.toNat / 2 ^ 37 % 2 ^ 9 ∧ ¬ 256 < v.toNat / 2 ^ 28 % 2 ^ 9 ∧
      v.toNat / 2 ^ 28 % 2 ^ 9 ≤ v.toNat / 2 ^ 37 % 2 ^ 9 ∧ v.toNat / 2 ^ 46 % 2 ^ 9 ≤ v.toNat / 2 ^ 55 % 2 ^ 9 := by decide


def withClu (c : Cluster) : State := { world with clus := [(3, c)], pkg := { world.pkg with time := 30000 } }
def withPkg (p : Pkg) : State := { world with pkg := p }
/-- The entry of task 0, whose gang is resident, in state `st`. -/
def asking (st : Nat) : State := { (tabled (mapped world)).wr 0x21003E 2 st with insts := [theInst] }

theorem test_meets_PowerEvents_a :
    (world.cores.map Prod.fst).Nodup ∧ world.powered (3 / 4) = true := by decide
theorem test_meets_PowerEvents_b :
    let c : Cluster := { cur := 4, tgt := 2, calm := some 5 }
    (withClu c).clu 3 = c ∧ c.chg = none ∧ c.cur ≠ c.tgt ∧ c.tgt < c.cur ∧ ¬ ((world.clu 3).cur ≠ (world.clu 3).tgt) := by decide
theorem test_meets_PowerEvents_c :
    let c : Cluster := { chg := some { goal := 3, ends := 30000 } }
    ((withClu c).clu 3).chg = some { goal := 3, ends := 30000 } ∧ (30000 : BitVec 64) ≤ (withClu c).now ∧ (withClu c).now < (30001 : BitVec 64) := by decide
theorem test_meets_PowerEvents_d :
    -- a stretch that has run its length, and one in its lead
    let x : Stretch := { lead := 0, len := 16, need := 16 }
    let c : Cluster := { str := some x, cur := 2, tgt := 4 }
    ((withClu c).clu 3).str = some x ∧ x.lead = 0 ∧ x.need ≤ x.len ∧ x.len < 4096 ∧ c.calm = none ∧ c.tgt ≠ c.cur := by decide
theorem test_meets_PowerEvents_e :
    let x : Stretch := { lead := 2, len := 0, need := 16 }
    let c : Cluster := { str := some x }
    ((withClu c).clu 3).str = some x ∧ (x.lead ≠ 0 ∨ x.len < x.need) ∧ ¬ x.lead ≤ (c.phase + 0 * levelClock c.cur) / 10 ∧
      x.lead ≤ (c.phase + 20 * levelClock c.cur) / 10 := by decide
theorem test_meets_PowerEvents_f :
    let x : Stretch := { lead := 2, len := 4096, need := 4096 }
    let c : Cluster := { str := some x, calm := some 30000 }
    ((withClu c).clu 3).str = some x ∧ ((withClu c).clu 3).calm = some 30000 ∧ 4096 ≤ 4096 ∧ ¬ 4096 < 4096 ∧ 15 < 16 := by decide
theorem test_meets_PowerEvents_g :
    let s := withPkg { almLen := 1000, time := 1000 }
    s.pkg.almLen ≠ 0 ∧ (1000 : BitVec 64) ≤ s.pkg.time - s.pkg.pstart ∧ (withPkg { almLen := 1000, time := 999 }).pkg.time - 0 < 1000 ∧ (withPkg { almSrc := true }).pkg.almSrc = true := by decide
theorem test_meets_PowerEvents_h :
    (0x8000000000000000 : BitVec 64).getLsbD 63 = true ∧ (1000 : BitVec 64).setWidth 32 ≠ (0 : BitVec 32) ∧ (0 : BitVec 64).getLsbD 63 = false := by decide
theorem test_meets_PowerEvents_i :
    (withPkg { hour := 3600000000000 }).pkg.hour.toNat = 3600000000000 ∧ (withPkg { hour := 3599999999999 }).pkg.hour.toNat < 3600000000000 := by decide
theorem test_meets_PowerEvents_j :
    let s : State := { withPkg { hour := 3600000000000 } with stks := [(0, { powered := true, tj := 1023 * 2 ^ 20 })] }
    let tier (k i : Nat) : Nat := (s.stk k).tj.toNat / 2 ^ (10 * i) % 1024
    (∀ k, k < 3 → ∀ i, i < 3 → s.powered k = true → tier k i ≤ 1023) ∧ s.powered 0 = true ∧ tier 0 2 = 1023 := by decide
theorem test_meets_PowerEvents_k :
    let p := (withPkg { tsEn := true, tsK := 10, time := 1024 }).pkg
    p.tsEn = true ∧ (p.tsLast.toNat / 2 ^ p.tsK + 1) * 2 ^ p.tsK ≤ p.time.toNat ∧ p.tsSeq = 0 ∧ p.tsBase.toNat + 16384 * (p.tsSeq.toNat % 2 ^ p.tsLogn) + 16384 ≤ 6 * 2 ^ 32 := by decide
theorem test_meets_PowerEvents_l :
    let p := (withPkg { tsEn := true, tsK := 10, time := 1023, tsSeq := 1 }).pkg
    p.time.toNat < (p.tsLast.toNat / 2 ^ p.tsK + 1) * 2 ^ p.tsK ∧ p.latch = none := by decide
theorem test_meets_PowerEvents_m :
    let p : Pkg := { tsEn := true, tsK := 10, time := 1024, latch := some default }
    p.latch = some default ∧ p.tsEn = true ∧ (p.tsLast.toNat / 2 ^ p.tsK + 1) * 2 ^ p.tsK ≤ p.time.toNat := by decide
theorem test_meets_PowerEvents_n :
    6 * 2 ^ 32 < (BitVec.ofNat 64 (6 * 2 ^ 32) : BitVec 64).toNat + 16384 * (0 % 2 ^ 0) + 16384 := by decide
theorem test_meets_PowerEvents_o :
    let s := asking 1
    (s.ctx 0).st = .bound ∧ s.q3Walk 0 .read 0x10000 = (s, .ok 0x210000) ∧ s.rd (0x210000 + 62) 2 % 4 ≠ 2 := by decide
theorem test_meets_PowerEvents_p :
    let s := asking 2
    s.prereqBad 0 = false ∧ s.prereqGangs 0 = [1] ∧ s.me.gid = 1 ∧ s.gang.gid = s.me.gid ∧ s.gang.st = .resident ∧ s.warps = [] ∧ s.me.exited = false ∧ s.me.trc.on = false ∧
      s.me.w < 32 ∧ s.me.pre.st = .run ∧ (s.ctx s.gang.asid).tvbase = 0 := by decide


def staged (st : Stage) : State := { world with pkg := { world.pkg with stage := st } }
def moded (m : ModeSt) (a : Bool) : State :=
  { sysWorld 3 0 with sys := { world.sys with mode := m }, stks := [(0, { powered := true }), (1, { avail := a }), (2, {})] }
def switching (x : BitVec 32) (e : BitVec 64) : State := { sysWorld x 0 with pkg := { world.pkg with almLen := 1000, alm := [(31, e)] } }

theorem test_meets_PackageModes_a :
    (staged .aon).pkg.stage = .aon ∧ (staged .verify).pkg.stage = .verify ∧ (staged .train).pkg.stage = .train ∧ (staged .stack0).pkg.stage = .stack0 ∧
      ((staged .stack0).cores.map Prod.fst).Nodup ∧ (63 : BitVec 6) ≠ 0 := by decide
theorem test_meets_PackageModes_b :
    ((sysWorld 2 0).u 4).toNat = 2 ∧ ((moded .one true).u 4).toNat = 3 ∧ (moded .growing true).sys.mode = .growing ∧ (moded .one true).poweredList.length ≠ 3 ∧
      ((moded .one false).stk 1).avail = false ∧ ((moded .one true).stk 1).avail = true ∧ ((moded .one true).stk 2).avail = true := by decide
theorem test_meets_PackageModes_c :
    let s : State := { moded .three true with stks := [(0, { powered := true }), (1, { powered := true }), (2, { powered := true })] }
    s.sys.mode = .three ∧ s.poweredList.length = 3 ∧ ∀ g ∈ s.gang :: s.gangs, g.gid = 0 ∨ g.st ≠ .resident ∨ g.stk = 0 := by decide
theorem test_meets_PackageModes_d :
    (6 : BitVec 3).getLsbD 1 = true ∧ (6 : BitVec 3).getLsbD 2 = true ∧ (4 : BitVec 3).getLsbD 1 = false ∧ (moded .growing true).locks = [] := by decide
theorem test_meets_PackageModes_e :
    let s := moded (.shrinking false) true
    s.sys.mode = .shrinking false ∧ (moded (.shrinking true) true).sys.mode = .shrinking true ∧ (∀ c, c < 64 → s.coreGangs (32 + c) = []) ∧
      ({ s with gangs := [{ gid := 2, st := .resident, stk := 2, core := 31 }] } : State).coreGangs (32 + 63) ≠ [] := by decide
theorem test_meets_PackageModes_f :
    (∀ a ∈ world.accs, a.key < commonsKey 1 0 ∨ commonsKey 3 0 ≤ a.key) ∧ commonsKey 1 0 ≤ ({ key := commonsKey 2 0xFFFFFF } : Acc).key ∧ commonsKey 2 0xFFFFFF < commonsKey 3 0 := by decide
theorem test_meets_PackageModes_g :
    2 ≤ ((switching 2 0).u 4).toNat ∧ (switching 0 0).sys.rate = decide ((switching 0 0).u 4 = 1) ∧ ¬ ((switching 1 0).sys.rate = decide ((switching 1 0).u 4 = 1)) ∧
      (switching 1 0).sys.mclk = false ∧ (switching 1 0).enforced = true := by decide
theorem test_meets_PackageModes_h :
    let s := switching 1 0x80000000000003
    ∃ e, e < 32 ∧ (smGet (0 : BitVec 64) s.pkg.alm e).toNat % 16 = 3 ∧ 1 ≤ (smGet (0 : BitVec 64) s.pkg.alm e).toNat / 2 ^ 55 := ⟨31, by decide⟩
theorem test_meets_PackageModes_i :
    let s : State := { switching 1 0x80000000000003 with sys := { (switching 1 0).sys with mclkEnd := some 5 } }
    s.sys.mclkEnd = some 5 ∧ s.pkg.time < 5 ∧ ∀ j, j < 32 → (smGet (0 : BitVec 64) s.pkg.alm j).toNat % 16 = 3 → 31 ≤ j := by decide
theorem test_meets_PackageModes_j :
    world.sys.mclkEnd = none ∧ (world.cores.map Prod.fst).Nodup := by decide
theorem test_meets_PackageModes_k :
    2 ^ 13 ≤ ((sysWorld 0x2000 0).u 4).toNat ∧ (world.ctx (((sysWorld 0x1001 0).u 4).toNat % 2 ^ 12)).st ≠ .bound ∧ (∃ g ∈ world.gang :: world.gangs, g.gid ≠ 0 ∧ g.asid = 0 ∧ g.st = .resident) := by decide
theorem test_meets_PackageModes_l :
    let s : State := { sysWorld 0x1FFF 0 with ctxs := [(0xFFF, { st := .bound })] }
    (s.ctx 0xFFF).st = .bound ∧ (∀ i ∈ s.insts, ¬ (i.asid = 0xFFF ∧ i.ended = false)) ∧ ∀ g ∈ s.gang :: s.gangs, ¬ (g.gid ≠ 0 ∧ g.asid = 0xFFF) := by decide


def withBundle (b : Bundle) : State := { world with cores := [(31, { bundle := b })] }
def withRouters (rs : List (Nat × NetSt)) (ps : List (Nat × NetSt)) : State :=
  { world with stks := [(0, { powered := true, routers := rs, paths := ps }), (1, { powered := true })] }

theorem test_meets_RepairAndStatus_a :
    ∃ x, ({ world with gang := { world.gang with yoked := true, asid := 0 } } : State).yokedWarp (32 * 0 + 0 % 16) = some x ∧ x.gid = 1 := ⟨_, rfl, rfl⟩
theorem test_meets_RepairAndStatus_b :
    world.powered (64 / 32) = false ∧ world.powered (31 / 32) = true ∧ 63 < 64 ∧ 63 ∉ (world.core 31).retired ∧ (∀ w ∈ world.coreWarps 31, w.track ≠ 63) ∧
      ({ retired := [63] } : Core).retired = [63] := by decide
theorem test_meets_RepairAndStatus_c :
    (∃ w ∈ world.coreWarps 0, w.track = 0) ∧ (∀ w ∈ world.coreWarps 0, w.track = 0 → w.gid = 1) ∧ 0 ∉ (world.core 0).retired := by decide
theorem test_meets_RepairAndStatus_d :
    let b : Bundle := { hold := true, map := [(79, 80)], failed := [79] }
    let s : State := { world with cores := [(31, { bundleDn := b })] }
    (s.core 31).bundleDn = b ∧ (b.map.map Prod.fst).Nodup ∧ (b.map.map Prod.snd).Nodup ∧ (∀ m ∈ b.map, m.1 < 80 ∧ 80 ≤ m.2 ∧ m.2 < 84) ∧ b.hold = true ∧ b.fixed = false ∧
      b.blame ≠ (79 : BitVec 7).toNat ∧ ({ b with blame := 79 } : Bundle).blame = (79 : BitVec 7).toNat := by decide
theorem test_meets_RepairAndStatus_e :
    let b : Bundle := { hold := true, map := [(79, 80)], failed := [79] }
    ((78 : BitVec 7).toNat < 84 ∧ ∀ m ∈ b.map, m.1 ≠ (78 : BitVec 7).toNat) ∧ ((79 : BitVec 7).toNat, 80) ∈ b.map ∧ 81 ∉ b.failed ++ [78] ∧ 81 ∉ b.failed ++ [80] ∧
      (∀ m ∈ b.map, m.2 ≠ 81) ∧ (∀ q, q < 84 → 80 ≤ q → (∀ m ∈ b.map, m.2 ≠ q) → 81 ≤ q) := by decide
theorem test_meets_RepairAndStatus_f :
    let b : Bundle := { hold := true, map := [(76, 80), (77, 81), (78, 82), (79, 83)], failed := [76, 77, 78, 79] }
    (∀ p, p < 84 → 80 ≤ p → ∃ m ∈ b.map, m.2 = p) ∧ ∀ o, o < 84 → (o, 83) ∈ b.map → o = 79 := by decide
theorem test_meets_RepairAndStatus_g :
    let b : Bundle := { hold := true }
    (83 : BitVec 7).toNat < 84 ∧ (∀ m ∈ b.map, m.1 ≠ (83 : BitVec 7).toNat) ∧ ¬ (83 : BitVec 7).toNat < 80 ∧ ∀ o : Nat, o < 84 → (o, 83) ∉ b.map := by decide
theorem test_meets_RepairAndStatus_h :
    ((withBundle {}).core 31).bundle.hold = false ∧ ((withBundle { hold := true, fixed := true, expect := 255 }).core 31).bundle.expect = 255 ∧
      ((withBundle { hold := true }).core 31).bundle.fixed = false := by decide
theorem test_meets_RepairAndStatus_i :
    let s := withRouters [(9, .closing)] [(3, .closing)]
    s.powered 0 = true ∧ s.powered ((0 + 1) % 3) = true ∧ (s.stk 0).router 9 = .closing ∧ (s.stk 0).path 3 = .closing ∧ (s.stk 0).router 0 = .active ∧
      s.accs = [] ∧ ((withRouters [(9, .switching)] []).stk 0).router 9 = .switching ∧ ((withRouters [] [(3, .switching)]).stk 0).path 3 = .switching := by decide
theorem test_meets_RepairAndStatus_j :
    let s : State := { withRouters [(9, .closing)] [] with accs := [{ id := 4, gid := 1, st := .sent, via := [.router 0 9] }] }
    s.netSt (.router 0 9) = some .closing ∧ ∃ a ∈ s.accs, a.st ≠ .waiting ∧ .router 0 9 ∈ a.via := ⟨by decide, _, List.mem_cons_self, by decide, by decide⟩
theorem test_meets_RepairAndStatus_k :
    let s : State := { withRouters [(9, .closing)] [] with accs := [{ id := 4, gid := 1, remote := some (1, 0), via := [.router 0 9] }] }
    s.netSt (.router 0 9) = some .closing ∧ (∀ a ∈ s.accs, a.st ≠ .waiting → .router 0 9 ∉ a.via) ∧ (∃ a ∈ s.accs, a.remote ≠ none) ∧ s.gangOf? 1 ≠ none := by decide
theorem test_meets_RepairAndStatus_l :
    let x := (withRouters [(0, .spare), (9, .closing)] []).stk 0
    x.router 0 = .spare ∧ ∀ m, m < 0 → x.router m ≠ .spare := by decide
theorem test_meets_RepairAndStatus_m :
    ∃ j, j < 4 ∧ j ≠ 3 ∧ ((withRouters [] []).stk 0).path j = .active := ⟨0, by decide⟩
theorem test_meets_RepairAndStatus_n :
    2 ^ 19 ≤ (0x80000 : BitVec 32).toNat ∧ 6 < (7 : BitVec 32).toNat % 2 ^ 8 ∧ (0x70006 : BitVec 32).toNat < 2 ^ 19 ∧ (0x70006 : BitVec 32).toNat % 2 ^ 8 = 6 := by decide
theorem test_meets_RepairAndStatus_o :
    (staged .serve).pkg.stage = .serve ∧ (staged .train).pkg.stage ≠ .serve := by decide


/-- The issuer's warp as a debugger names it: slot 0 of core 0, scope 1, path 0; with a halted state, or none. -/
def debugging (v : BitVec 32) (mode : BitVec 32) (p : Path) : State :=
  let s := regs world [] [(4, v), (5, mode)]
  { s with me := { s.me with cur := { s.me.cur with id := 9 }, paths := [p] } }
def haltedPath : Path := { id := 31, pc := 0x7000, mask := 6, st := .stopped none }
/-- v names path 31, lane 1, of a scope. -/
def named (scope : Nat) : BitVec 32 := BitVec.ofNat 32 (31 * 2 ^ 16 + 2 ^ 21 + scope * 2 ^ 26)

theorem test_meets_WatchHaltInspect_a :
    2 ^ 28 ≤ (0x10000000 : BitVec 32).toNat ∧ world.powered ((0x2000 : BitVec 32).toNat / 2 ^ 13 % 8) = false ∧ (named 3).toNat < 2 ^ 28 ∧ world.powered ((named 3).toNat / 2 ^ 13 % 8) = true := by decide
theorem test_meets_WatchHaltInspect_b :
    ∀ x ∈ world.coreWarps 31, x.slot ≠ 127 ∨ x.pre.st = .saved := by decide
theorem test_meets_WatchHaltInspect_c :
    let s := debugging (named 1) 0 haltedPath
    s.me ∈ s.coreWarps 0 ∧ s.me.slot = (named 1).toNat % 2 ^ 7 ∧ s.me.pre.st ≠ .saved ∧ ∀ y ∈ s.coreWarps 0, y.slot = 0 → y = s.me := by decide
theorem test_meets_WatchHaltInspect_d :
    let s := debugging (named 1) 0 haltedPath
    haltedPath ∈ s.me.live ∧ haltedPath.id = (named 1).toNat / 2 ^ 16 % 32 ∧ (∀ q ∈ s.me.live, q.id = haltedPath.id → q = haltedPath) ∧ haltedPath.mask.getLsbD 1 = true ∧
      s.me.gid ≠ 0 ∧ s.gang.gid = s.me.gid ∧ (s.allWarps.map fun y => (y.gid, y.w)).Nodup ∧ s.me.trc.on = false := by decide
theorem test_meets_WatchHaltInspect_e :
    ∃ j, haltedPath.st = .stopped j := ⟨none, rfl⟩
theorem test_meets_WatchHaltInspect_f :
    let p : Path := { haltedPath with st := .ready }
    let s := debugging (named 0) 0 p
    s.me.gid ≠ 0 ∧ (s.gangOf? s.me.gid).isSome = true ∧ p.st = .ready ∧ p.mask ≠ laneBit 1 ∧ (∃ i, i < 32 ∧ s.me.path? i = none) ∧ p.id < 64 ∧ ∀ q ∈ s.me.live, q.mask.getLsbD 1 = true → q = p := by decide
theorem test_meets_WatchHaltInspect_g :
    let p : Path := { haltedPath with st := .held .trapBusy }
    let s := debugging (named 0) 0 p
    (named 0).toNat / 2 ^ 26 % 4 = 0 ∧ p.mask.getLsbD ((named 0).toNat / 2 ^ 21 % 32) = true ∧ p.st = .held .trapBusy ∧ ∀ q ∈ s.me.live, q.mask.getLsbD 1 = true → q = p := by decide
theorem test_meets_WatchHaltInspect_h :
    -- HELD at a wait: the halt of the path waits
    let p : Path := { haltedPath with st := .held .trapBusy }
    let s := debugging (named 1) 0 p
    (named 1).toNat / 2 ^ 26 % 4 = 1 ∧ p ∈ s.me.live ∧ p.mask.getLsbD 1 = true ∧ (∀ k, k < 1 → p.mask.getLsbD k = false) := by decide
theorem test_meets_WatchHaltInspect_i :
    let s := debugging (named 3) 0 haltedPath
    (named 3).toNat / 2 ^ 26 % 4 = 3 ∧ s.me.cur.mask.getLsbD 0 = true ∧ s.gangOf? s.me.gid = some s.gang ∧
      ∀ y ∈ s.allWarps, y.gid = s.me.gid → y.exited = false ∧ y.w < 32 := by decide
theorem test_meets_WatchHaltInspect_j :
    -- a step of lane 1 alone: it takes identifier 0
    let s := debugging (named 1) 1 haltedPath
    haltedPath.mask.getLsbD 1 = true ∧ haltedPath.mask ≠ laneBit 1 ∧ haltedPath.id < 64 ∧ s.me.path? 0 = none ∧ s.un 5 = 1 ∧
      ({ haltedPath with mask := 2 } : Path).mask = laneBit 1 := by decide
theorem test_meets_WatchHaltInspect_k :
    (named 2).toNat / 2 ^ 26 % 4 = 2 ∧ world.me.cur.mask.getLsbD 0 = true := by decide
theorem test_meets_WatchHaltInspect_l :
    let s := debugging (named 1) 0 haltedPath
    s.me.pre.st = .run ∧ s.me.exited = false ∧ (∀ q ∈ s.me.live, (q.st = .ready ∨ q.st = .stopped none) ∧ q.kept = none) ∧ (s.un 5).toNat % 2 = 0 ∧ 2 ≤ (2 : BitVec 32).toNat := by refine ⟨by decide, by decide, ?_, by decide, by decide⟩; decide
theorem test_meets_WatchHaltInspect_m :
    let p : Path := { haltedPath with st := .ready, step := 2 }
    let s := debugging 0 0 p
    p ∈ s.me.live ∧ p.step = 2 ∧ p.replay = none ∧ p.st = .ready ∧ s.accs = [] ∧ s.ops = [] ∧ s.me.gid ≠ 0 ∧ s.gang.gid = s.me.gid ∧ (∀ q ∈ s.me.live, q.id = p.id → q = p) ∧ p.mask.getLsbD 1 = true ∧ ∀ k, k < 1 → p.mask.getLsbD k = false := by decide
theorem test_meets_WatchHaltInspect_n :
    let s := debugging (named 1) (127 * 256) haltedPath
    let i := (s.un 5).toNat
    i % 16 = 0 ∧ i / 16 % 16 = 0 ∧ i < 2 ^ 16 ∧ i / 2 ^ 8 = 127 ∧ i / 2 ^ 8 < s.gang.regsN ∧ ∀ b ∈ s.accs, b.lane ≠ 1 := by decide
theorem test_meets_WatchHaltInspect_o :
    ∃ b ∈ (flying anAcc).accs, b.gid = 1 ∧ b.w = 0 ∧ b.lane = 31 ∧ ∃ r, b.dreg = some r ∧ (r = 7 ∨ (b.op.wide = true ∧ r + 1 = 7)) := ⟨anAcc, by simp [flying], rfl, rfl, rfl, 6, rfl, by decide⟩
theorem test_meets_WatchHaltInspect_p :
    let p : Path := { haltedPath with step := 2 }
    p.step ≠ 0 ∧ p.st = .stopped none := ⟨by decide, rfl⟩
theorem test_meets_WatchHaltInspect_q :
    world.me.exited = false ∧ world.me.cur ∈ world.me.live ∧ world.me.cur.mask.getLsbD 31 = true ∧
      (∀ q ∈ world.me.live, q.mask.getLsbD 31 = true → (q.id < 32 ↔ world.me.cur.id < 32) → q = world.me.cur) ∧ ({ act := 2 } : Wp).trc = false ∧ ({ act := 2 } : Wp).act = 2 ∧
      ∀ g ∈ world.gang :: world.gangs, g.gid = 0 ∨ g.yoked = false := by decide
theorem test_meets_WatchHaltInspect_r :
    ({ kind := 2 } : Wp).kind = 2 ∧ ({ kind := 1 } : Wp).kind = 1 ∧ ({} : Wp).kind = 0 := by decide
theorem test_meets_WatchHaltInspect_s :
    (0x6E210000 : BitVec 32).toNat / 2 ^ 25 % 2 ^ 6 = 0x37 ∧ 10 ≤ (0x6E21000A : BitVec 32).toNat % 2 ^ 7 ∧ (staged .serve).pkg.stage = .serve := by decide
theorem test_meets_WatchHaltInspect_t :
    let s := staged .serve
    let port : State := { s with
      me := { regs := { u := uniOf [] } }
      gang := {}
      issue := .lane
      warps := s.allWarps.filter fun x => x.gid != 0
      gangs := s.allGangs.filter fun g => g.gid != 0 }
    ∃ f v, portOp 0x6E210001 = some f ∧ f port = .next v := ⟨_, _, rfl, rfl⟩


/-- The issuer's warp named with scope 2, a ring of 2⁶ packets at 0x1000. -/
def tracing (ctl : BitVec 32) (on : Bool) : State :=
  let s := regs world [] [(4, 0x8000000), (5, ctl), (6, 0x1000)]
  { s with me := { s.me with trc := { on := on, base := 0x1000, logn := 6 } } }
/-- The same with a scope, of a ring of which `wp` packets are written and none read. -/
def traced (scope : BitVec 32) (n wp : Nat) (dropped : Bool) : State :=
  let s := regs (world.wr 0x1000 8 wp) [] [(4, scope <<< 26), (5, 6), (6, 0x1000)]
  { s with me := { s.me with trc := { on := true, base := 0x1000, logn := n, dropped := dropped } } }

theorem test_meets_TraceInstructions_a :
    let s := tracing 6 false
    s.gangOf? s.me.gid = some s.gang ∧ s.me.gid ≠ 0 ∧ s.gang.gid = s.me.gid ∧ (s.allWarps.map fun y => (y.gid, y.w)).Nodup ∧ s.powered ((s.u 4).toNat / 2 ^ 13 % 8) = true ∧ (s.u 4).toNat < 2 ^ 28 := by decide
theorem test_meets_TraceInstructions_b :
    let s := tracing 6 false
    s.me ∈ s.coreWarps 0 ∧ s.me.slot = (s.u 4).toNat % 2 ^ 7 ∧ s.me.pre.st ≠ .saved ∧ ∀ y ∈ s.coreWarps 0, y.slot = s.me.slot → y = s.me := by decide
theorem test_meets_TraceInstructions_c :
    let s := tracing 0x106 false
    2 ≤ (s.u 4).toNat / 2 ^ 26 % 4 ∧ (s.un 5).toNat < 2 ^ 9 ∧ (s.un 5).toNat / 2 ^ 5 % 8 = 0 ∧ 6 ≤ (s.un 5).toNat % 32 ∧ (s.un 5).toNat % 32 ≤ 20 ∧ (s.uuAt 4 2).toNat % 4096 = 0 ∧
      (s.uuAt 4 2).toNat < 2 ^ 40 := by decide
theorem test_meets_TraceInstructions_d :
    let s := tracing 6 false
    (s.uuAt 4 2).toNat + 0 + (64 + 16 * 2 ^ 6 + 4095) / 4096 * 4096 ≤ gddrTop ∧ gddrTop < gddrTop - 4096 + (64 + 16 * 2 ^ 8 + 4095) / 4096 * 4096 ∧ s.me.trc.on = false ∧
      s.me.live.length ≤ 2 ^ 6 ∧ (s.me.live.map Machine.Path.id).Nodup := by decide
theorem test_meets_TraceInstructions_e :
    let s := regs world [] [(4, 0xC000000), (5, 6), (6, 0x1000)]
    (s.u 4).toNat / 2 ^ 26 % 4 = 3 ∧ (s.un 5).toNat < 2 ^ 9 ∧ (s.un 5).toNat % 32 = 6 ∧ ∀ y ∈ s.allWarps, y.trc.on = false ∧ (s.uuAt 4 2).toNat + (y.w + 1) * 4096 ≤ gddrTop := by decide
theorem test_meets_TraceInstructions_f :
    let s := traced 3 6 0 false
    (∃ y ∈ s.allWarps, y.gid = s.me.gid ∧ y.exited = false ∧ y.w < 32 ∧ y.trc.on = true) ∧ ∃ y ∈ s.allWarps, gddrTop < gddrTop - 4096 + (y.w + 2) * 4096 := by decide
theorem test_meets_TraceInstructions_g :
    let s := traced 2 20 63 false
    (s.u 4).toNat / 2 ^ 26 % 4 < 3 ∧ s.me.trc.on = true ∧ s.me.trc.dropped = false ∧ s.me.trc.logn ≤ 20 ∧ s.me.live ≠ [] ∧ (s.me.live.map Machine.Path.id).Nodup ∧
      (s.rd 0x1000 8 + 2 ^ 64 - s.rd 0x1008 8) % 2 ^ 64 + s.me.live.length ≤ 2 ^ 20 := by decide
theorem test_meets_TraceInstructions_h :
    let s := traced 2 6 61 true
    s.me.trc.on = true ∧ s.me.trc.dropped = true ∧ (s.rd 0x1000 8 + 2 ^ 64 - s.rd 0x1008 8) % 2 ^ 64 + s.me.live.length + 2 ≤ 2 ^ 6 := by decide
theorem test_meets_TraceInstructions_i :
    ¬ 6 ≤ ((tracing 5 false).un 5).toNat % 32 ∧ (tracing 6 true).me.trc.on = true ∧ (tracing 6 true).me.trc.dropped = false ∧ (0x10000000 : BitVec 32).toNat / 2 ^ 28 ≠ 0 := by decide
theorem test_meets_TraceInstructions_j :
    let s := tracing 6 true
    (s.rd 0x1000 8 + 2 ^ 64 - s.rd 0x1008 8) % 2 ^ 64 ≠ 2 ^ 6 ∧ ((s.wr 0x1000 8 64).rd 0x1000 8 + 2 ^ 64 - (s.wr 0x1000 8 64).rd 0x1008 8) % 2 ^ 64 = 2 ^ 6 := by decide


/-- v4 is a mask of warps in both lanes. -/
def regrouping (x y : BitVec 32) : State := regs world [(128, x), (159, y)] []
/-- A warp at its rendezvous, alone. -/
def theKeys : List Word := List.replicate 32 7
def atRendezvous : State := heldBy (.regroup 1 5 theKeys 0x600C 0)

theorem test_meets_Regroup_a :
    (regrouping 1 1).me.cur.hmode ≠ .pre ∧ (regrouping 1 1).me.cur.mask = (regrouping 1 1).me.lanes ∧ (regrouping 1 1).act 0 = true ∧ (∀ l, l < 0 → (regrouping 1 1).act l = false) ∧
      (others (regrouping 1 1) [second]).me.cur.mask ≠ (others (regrouping 1 1) [second]).me.lanes := by decide
theorem test_meets_Regroup_b :
    (∀ l, l < 32 → (regrouping 1 1).act l = true → (regrouping 1 1).v 4 l = 1) ∧ (1 : Word).getLsbD (regrouping 1 1).me.w = true ∧ (2 : Word).getLsbD (regrouping 2 2).me.w = false := by decide
theorem test_meets_Regroup_c :
    (regrouping 1 1).warpNo 0 = some (regrouping 1 1).me ∧ (regrouping 1 1).warpNo 31 = none ∧ (regrouping 1 1).me.exited = false := by decide
theorem test_meets_Regroup_d :
    (regrouping 1 3).act 31 = true ∧ (regrouping 1 3).v 4 31 ≠ (regrouping 1 3).v 4 0 ∧ ∀ l, l < 31 → (regrouping 1 3).act l = true → (regrouping 1 3).v 4 l = 1 := by decide
theorem test_meets_Regroup_e :
    atRendezvous.gangOf? 1 = some atRendezvous.gang ∧ atRendezvous.me.gid ≠ 0 ∧ atRendezvous.gang.gid = atRendezvous.me.gid ∧ (atRendezvous.allWarps.map fun y => (y.gid, y.w)).Nodup ∧
      (1 : Word) ≠ 0 ∧ 32 * 1 < 2 + 32 := by decide
theorem test_meets_Regroup_f :
    ∀ w ∈ (List.range 32).filter (fun w => (1 : Word).getLsbD w), atRendezvous.atRendezvous 1 w 1 = true ∧ atRendezvous.warpOf? 1 w = some atRendezvous.me ∧
      atRendezvous.me.live = [atRendezvous.me.cur] ∧ atRendezvous.me.pre.st = .run ∧ atRendezvous.me.trc.on = false ∧ atRendezvous.me.cur.snap = none ∧
      atRendezvous.me.cur.kept = none := by decide
theorem test_meets_Regroup_g :
    atRendezvous.me.cur.st = .held (.regroup 1 5 theKeys 0x600C 0) ∧ world.gangOf? 7 = none ∧ world.atRendezvous 1 0 1 = false := ⟨rfl, by decide, by decide⟩
theorem test_meets_Regroup_h :
    ({ world.me with stack := 0x800000 } : Warp).stack + 65536 ≤ ({ world.me with stack := 0x810000 } : Warp).stack := by decide


/-- A warp whose paths come and go: paths beside the one in focus, the identifiers that are not resident. -/
def tabledPaths (ps : List Path) (o : List Nat) : State := { others world ps with me := { (others world ps).me with overflow := o } }
def stuck (i : Nat) : Path := { id := i, mask := 2, st := .held .trapBusy }
/-- With the scoreboard showing path 0 ready. -/
def boarded : State := { world with me := { world.me with board := [0] } }

theorem test_meets_WhatIssues_a :
    world.me.gid ≠ 0 ∧ world.gang.gid = world.me.gid ∧ (world.allWarps.map fun y => (y.gid, y.w)).Nodup ∧ (∀ y ∈ world.allWarps, y.stops = []) := by decide
theorem test_meets_WhatIssues_b :
    boarded.coreNo = 0 ∧ boarded.me.track = 0 ∧ boarded.gang.st = .resident ∧ boarded.me.exited = false ∧ (boarded.ctx boarded.gang.asid).ending = none ∧ boarded.me.pre.st = .run ∧
      boarded.me.overflow = [] ∧ (∀ q ∈ boarded.me.streams, q.2.st = .closed) ∧ boarded.gang.seq.lead = false ∧ boarded.me.cur ∈ boarded.me.live := by decide
theorem test_meets_WhatIssues_c :
    boarded.me.cur.st = .ready ∧ boarded.me.cur.step = 0 ∧ (∀ q ∈ boarded.me.live, q.hmode ≠ .pre) ∧ boarded.me.cur.id ∈ boarded.me.board := by decide
theorem test_meets_WhatIssues_d :
    ∃ y ∈ boarded.allWarps, ∃ g, boarded.gangOf? y.gid = some g := ⟨boarded.me, by decide, _, rfl⟩
theorem test_meets_WhatIssues_e :
    ∃ k ∈ boarded.cands 0 0, boarded.overTrack 0 0 k.g.alm = false := by decide
theorem test_meets_WhatIssues_f :
    world.cands 0 63 = [] := by decide
theorem test_meets_WhatIssues_g :
    world.me.cur.mask ≠ 0 ∧ world.me.cur.id ≠ 0xFE ∧ world.me.exited = false ∧ world.me.pre.st ≠ .saved ∧ world.gang.st = .resident ∧ world.me.cur.st = .ready ∧
      (heldBy .trapBusy).me.cur.st ≠ .ready := by decide
theorem test_meets_WhatIssues_h :
    let f : State := { cached world with issue := .lane, here := { pc := 0x6000, npc := 0x6000 } }
    f.translate .fetch 0x6000 = (f, .ok 0x206000) ∧ 0x6000 % 2 ^ 16 + 12 ≤ 2 ^ 16 ∧ world.sys.mclkEnd = none := by decide
theorem test_meets_WhatIssues_i :
    let o : ILine := { pc := 0x6000, at_ := 1 }
    (∀ o ∈ ((cached world).core 0).icache, ¬ (o.pc = world.me.cur.pc)) ∧
      o ∈ (({ world with cores := [(0, { icache := [o] })] } : State).core 0).icache ∧ o.asid = world.gang.asid ∧ o.pc = world.me.cur.pc ∧ world.me.cur.fenced < o.at_ := by decide
theorem test_meets_WhatIssues_j :
    let f : State := { world with issue := .lane, here := { pc := 0x6000, npc := 0x6000 } }
    (f.translate .fetch 0x6000).1 = f ∧ (f.translate .fetch 0x6000).2 = .error 1 := by decide
theorem test_meets_WhatIssues_k :
    (tabledPaths [stuck 1] [1]).me.overflow = 1 :: [] ∧ ((tabledPaths [stuck 1] [1]).me.live.filter fun p => decide (p.id ∉ (tabledPaths [stuck 1] [1]).me.overflow)).length < 8 := by decide
theorem test_meets_WhatIssues_l :
    let s := tabledPaths ((List.range 8).map fun i => stuck (1 + i)) [0]
    8 ≤ (s.me.live.filter fun p => decide (p.id ∉ s.me.overflow)).length ∧ (∀ p ∈ s.me.live, p.id ∉ s.me.overflow → p.st ≠ .ready) ∧ (∃ p ∈ s.me.live, p.id ∉ s.me.overflow ∧ p.st ≠ .ready) ∧
      s.me.overflow = [] ++ 0 :: [] ∧ ∃ p ∈ s.me.live, p.st = .ready ∧ p.id = 0 ∧ p.hmode = .none := by decide
theorem test_meets_WhatIssues_m :
    let s := tabledPaths ((List.range 8).map fun i => { stuck (1 + i) with st := .ready }) [0]
    8 ≤ (s.me.live.filter fun p => decide (p.id ∉ s.me.overflow)).length ∧ ∀ p ∈ s.me.live, p.id ∉ s.me.overflow → p.st = .ready := by decide
theorem test_meets_WhatIssues_n :
    let s : State := { world with me := { world.me with top := false } }
    world.me.top = true ∧ s.me.top = false ∧ ((s.coreWarps 0).filter fun y => y.top && !(y.gid == 1 && y.w == 0)).length ≤ 128 := by decide


/-- The context is ending, with an operation or without one. -/
def ending (os : List EngOp) (fr : BitVec 64) (i : List Inst) : State :=
  { world with ops := os, insts := i, gang := {}, me := {}, ctxs := [(0, { st := .bound, ctxfr := fr, ending := some { cls := 1, code := 0x0401 } })] }

theorem test_meets_ContextEnd_a :
    (world.ctx 0).ending = none ∧ ((ending [] 0 []).ctx 0).ending = some { cls := 1, code := 0x0401 } := by decide
theorem test_meets_ContextEnd_b :
    ∃ o ∈ (ending [anOp] 0 []).ops, o.asid = 0 ∧ (o.phase = .registered ∨ o.phase = .started) := by decide
theorem test_meets_ContextEnd_c :
    let s := ending [] (BitVec.ofNat 64 (gddrTop - 64)) []
    (∀ a ∈ s.accs, a.gid ≠ 1) ∧ (∀ o ∈ s.ops, o.asid ≠ 0) ∧ (∀ g ∈ s.gang :: s.gangs, ¬ (g.gid ≠ 0 ∧ g.asid = 0)) ∧ (s.insts.map Inst.id).Nodup ∧ (∀ i ∈ s.insts, i.asid ≠ 0) ∧
      (s.ctx 0).ctxfr.toNat ≠ 0 ∧ (s.ctx 0).ctxfr.toNat % 64 = 0 ∧ (s.ctx 0).ctxfr.toNat + 64 ≤ gddrTop := by decide
theorem test_meets_ContextEnd_d :
    ((ending [] 0 []).ctx 0).ctxfr.toNat = 0 ∧ ((ending [] 32 []).ctx 0).ctxfr.toNat % 64 ≠ 0 ∧ (([theInst] : List Inst).map Inst.id).Nodup := by decide
theorem test_meets_ContextEnd_e :
    let s : State := { world with insts := [theInst], ctxs := [(0, { st := .bound, root := 0x10000, ttbase := 0x10000, ctxfr := 0x3000, ending := some {} })] }
    (∃ r, (s.ctx 0).ending = some r) ∧ s.sys.mclkEnd = none ∧ (s.insts.map Inst.id).Nodup ∧ s.accs = [] ∧ s.ops = [] ∧ (∀ g ∈ s.gang :: s.gangs, g.array = none) ∧
      (∀ g ∈ s.gang :: s.gangs, ∃ i ∈ s.insts.filter (fun i => decide (i.asid = 0)), g.inst = i.id) ∧ (s.gang.gid ≠ 0 ∧ s.gang.asid = 0) := ⟨⟨_, rfl⟩, by decide⟩
theorem test_meets_ContextEnd_f :
    let s := (({ mapped world with insts := [theInst] } : State).wr 0x20003E 2 2)
    s.q3Walk 0 .write (0 + 64 * theInst.task) = (s, .ok (0x200000 + 64 * theInst.task)) ∧ (theInst.task = 0 → s.rd (0x200000 + 62) 2 % 4 = 2) := by decide
theorem test_meets_ContextEnd_g :
    ∃ u c, world.q3Walk 0 .write 0x10000 = (u, .error c) := ⟨_, _, rfl⟩


theorem test_meets_DecodeEncode_a :
    (Instr.iadd 127 0 127).wf = true ∧ encode (Instr.iadd 127 0 127) ≠ [] ∧ (Instr.mm 15 62 0 .i8 true .k512).wf = true ∧ encode (Instr.mm 15 62 0 .i8 true .k512) ≠ [] := by decide
theorem test_meets_DecodeEncode_b :
    decodeWord .lane false 0x0C102050 none = .ok (.iadd 4 4 5) := by rfl


/-- A nop in the instruction cache at the place of the path in focus, and of the sequencer. -/
def fetched (w : BitVec 32) : State :=
  { world with cores := [(0, { icache := [{ pc := 0x6000, w0 := w, w1 := 0x06000005, w2 := 0x06000005, at_ := 1 }] })]
               gang := { world.gang with seq := { world.gang.seq with pc := 0x6000 } } }

theorem test_meets_StepRuns_a :
    let l : ILine := { pc := 0x6000, w0 := 0x06000005, w1 := 0x06000005, w2 := 0x06000005, at_ := 1 }
    let s := fetched 0x06000005
    s.issue = .lane ∧ s.me.cur.mask ≠ 0 ∧ s.me.cur.st = .ready ∧ s.lineFor s.gang.asid s.me.cur.pc s.me.cur.fenced = some l ∧
      (match l.check .lane s.priv s.gang.regsN with | .ok ws => (groupAt ws s.me.cur.wpos).map (fun w => (w.pos, w.i)) | .error _ => []) = [(0, .nop)] := by decide
theorem test_meets_StepRuns_b :
    let l : ILine := { pc := 0x6000, w0 := 0x5C018002, w1 := 0x5C018002, w2 := 0x5C018002 }
    (match l.check .matrix true 128 with | .ok ws => (ws.find? fun x => decide (2 ≤ x.pos)).map fun w => (w.pos, w.i) | .error _ => none) = some (2, .seqBarMatrix 0 12) := by decide
theorem test_meets_StepRuns_c :
    world.gang.seq.st = .running ∧ (sequenced world).issue = .seq ∧ (sequenced world).lineFor 0 0 0 = none := by decide
theorem test_meets_StepRuns_d :
    let s : State := { world with issue := .none, agenda := [.powerUp] }
    s.issue = .none ∧ s.sys.effs = [] ∧ s.agenda = .powerUp :: [] ∧ encodeOwner .powerUp = none ∧ s.windowMiss = false := by decide
theorem test_meets_StepRuns_e :
    -- a word that goes on, and two that wait: for room, and for an earlier load of its path
    (match exec .nop world with | .next u => u.here.retry == false && u.here.trapped == false && (u.core u.coreNo).wps == [] && u.me.stops == [] | _ => false) = true ∧
      (match exec (.tlbInv 4 6) { world with sys := { world.sys with shoots := List.replicate 32 aShoot } } with | .next u => u.here.retry | _ => false) = true := by decide
theorem test_meets_StepRuns_f :
    (match exec (.trap 0 7) (flying anAcc) with | .next u => u.here.trapped | _ => false) = true ∧ (flying anAcc).unretired (flying anAcc).me (flying anAcc).me.cur = true := by decide


theorem test_meets_MemoryKept : State.reset.MemOk ∧ ∃ t, step { State.reset with agenda := [.powerUp] } = .next t := ⟨by unfold State.MemOk; decide, _, rfl⟩

end Sys2Proof.Tests

/-! ### Single steps

Expected results are worked from the rules named, or are the spec's own examples. -/

namespace Sys2Proof.Tests

/-- The state after an instruction. -/
def run (i : Instr) (s : State) : State :=
  match exec i s with
  | .next t => t
  | _ => s
/-- The code by which a context ended, with its class. -/
def endOf (s : State) : Option (Nat × Nat) := (s.ctx 0).ending.map fun r => (r.cls, r.code)
/-- v1, v2 and v3 in lane 0. -/
def abc (a b : Word) (c : Word := 0) : State := regs world [(32, a), (64, b), (96, c)] []
/-- v3 of lane 0 after an instruction, and its flags. -/
def res (i : Instr) (s : State) : Word × Flags := ((run i s).v 3 0, (run i s).me.regs.getF 0)

-- the Morton code of 06_integer
theorem test_bilv : (run (.bilv 3 1 2) (abc 5 0x202)).v 3 0 = 0x104 ∧ (run (.bilv 3 1 2) (abc 3 0x102)).v 3 0 = 0x12 := by decide
theorem test_bdlv : (run (.bdlv 3 1 2) (abc 0x15E 0x202)).v 3 0 = 5 ∧ (run (.bilv 3 1 2) (abc 6 2)).v 3 0 = 0x48 := by decide
-- the scan of 06_integer
def scanned : State :=
  regs (path world fun p => { p with mask := 0xFF }) ([3, 1, 4, 1, 5, 9, 2, 6].zipIdx.map fun x => (128 + x.2, x.1)) [] [(2, 0x11)]
theorem test_lscanAdd : (List.range 8).map ((run (.lscanAdd 5 4 false 2) scanned).v 5) = [3, 4, 8, 9, 5, 14, 16, 22] := by decide
theorem test_lredAdd : (run (.lredAdd 6 4) scanned).v 6 7 = 31 ∧ (run (.lredAdd 6 4) scanned).v 6 8 = 0 ∧ (run (.voteBall 7 2) scanned).v 7 0 = 0x11 := by decide
-- wraps, signs and counts (R141, R143, R146, R148)
theorem test_iadd_wraps : (run (.iadd 1 1 2) (abc 0xFFFFFFFF 2)).v 1 0 = 1 := by decide
theorem test_imulh_signs : (run (.imulhI32 3 1 2) (abc 0xFFFFFFFF 1)).v 3 0 = 0xFFFFFFFF ∧ (run (.imulhN32 3 1 2) (abc 0xFFFFFFFF 1)).v 3 0 = 0 := by decide
theorem test_sar_wide_count : (run (.sar 3 1 2) (abc 0x80000000 40)).v 3 0 = 0xFFFFFFFF ∧ (run (.shl 3 1 2) (abc 1 32)).v 3 0 = 0 := by decide
theorem test_rot_by_33 : (run (.rot 3 1 2) (abc 0x80000001 33)).v 3 0 = 3 ∧ (run (.clz 3 1) (abc 0 0)).v 3 0 = 32 := by decide
theorem test_bfe_sign : (run (.bfeI32 3 1 2) (abc 0xF0 0x404)).v 3 0 = 0xFFFFFFFF ∧ (run (.bfeN32 3 1 2) (abc 0xF0 0x404)).v 3 0 = 15 := by decide
theorem test_iadd64_carry : (run (.iadd64U 8 4 6) (regs world [] [(4, 0xFFFFFFFF), (6, 1)])).un 9 = 1 := by decide
theorem test_uniform_zero : (run (.moviU 0 (.short 5)) world).un 0 = 0 := by decide
theorem test_icmp_leaves_p7 : (run (.icmp .ne 7 1 2) (abc 1 1)).p 7 0 = true ∧ (run (.icmp .ltI 1 1 2) (abc 0xFFFFFFFF 1)).p 1 0 = true := by decide
-- rounding, flags, saturation (07_numbers R169 to R185)
theorem test_fadd_tie : res (.fadd 3 1 2 .ne) (abc 0x3F800000 0x33800000) = (0x3F800000, flagNX) := by decide
theorem test_fadd_up : res (.fadd 3 1 2 .u) (abc 0x3F800000 0x33800000) = (0x3F800001, flagNX) := by decide
theorem test_fmul_underflow : res (.fmul 3 1 2 .z) (abc 0x00800000 0x3EAAAAAB) = (0x002AAAAA, flagUF ||| flagNX) := by decide
theorem test_frnd : (run (.frndRd 3 1) (abc 0xBE99999A 0)).v 3 0 = 0xBF800000 ∧ (run (.frndRz 3 1) (abc 0xBE99999A 0)).v 3 0 = 0x80000000 := by decide
theorem test_rcp_zero : res (.rcp 3 1) (abc 0x80000000 0) = (0xFF800000, flagDZ) := by decide
theorem test_cvt_e4m3 : res (.cvt 3 1 .e4m3 .f32 .ne false) (abc 0x43F00000 0) = (0x7E, flagST ||| flagNX) := by decide
theorem test_cvt_e4m3_near : res (.cvt 3 1 .e4m3 .f32 .ne false) (abc 0x43E60000 0) = (0x7E, flagNX) := by decide
theorem test_cvt_nan : res (.cvt 3 1 .i32 .f32 .z false) (abc 0x7FC00000 0) = (0, flagNV) := by decide
theorem test_fmin_zeros : (run (.fmin 3 1 2) (abc 0 0x80000000)).v 3 0 = 0x80000000 := by decide
-- the split of 04_control: lanes 12 to 31 leave
def splitting : State := regs (path world fun p => { p with mask := 0xFFFFFFFF }) [] [] [(1, 0xFFF)]
theorem test_bra_splits :
    (((run (.bra 1 true 2) splitting).me.cur :: (run (.bra 1 true 2) splitting).me.paths).map fun p => (p.mask, p.pc)) =
      [(0xFFF, 0x600C), (0xFFFFF000, 0x6018)] := by decide
theorem test_call_at_depth_64 : endOf (run (.call 7 false 2) (depths 0 64)) = some (1, 0x0401) := by decide
theorem test_ret_at_depth_0 : endOf (run .ret (depths 1 0)) = some (1, 0x0402) := by decide
theorem test_trap_without_handler : endOf (run (.trap 0 7) world) = some (4, 7) := by decide
-- memory (08_memory)
theorem test_atomAdd_lane_order :
    let t := run (.atomAdd 5 2 4) (regs world [(96, 0xFFF00000), (127, 0xFFF00000), (128, 3), (159, 4)] [])
    t.v 5 0 = 0 ∧ t.v 5 31 = 3 ∧ t.rd (localKey 0 0) 4 = 7 := by decide
theorem test_ld_sign : (run (.ld 5 2 (.short 0) .i8) ((single (regs world [(96, 0xFFF00000)] [])).wr (localKey 0 0) 1 0x80)).v 5 0 = 0xFFFFFF80 := by decide
theorem test_st_highest_lane : (run (.st 4 2 (.short 0) .b32) (regs world [(96, 0xFFF00000), (127, 0xFFF00000), (128, 3), (159, 4)] [])).rd (localKey 0 0) 4 = 4 := by decide
theorem test_misaligned_lane_off :
    (run (.ld 5 2 (.short 0) .b32) (regs world [(64, 2), (95, 4), (96, 0xFFF00000), (127, 0xFFF00000)] [])).me.cur.mask = 0x80000000 := by decide
/-- The sum of 08_memory: 16777216 + 1 − 16777216 in an exact cell. -/
def summed : State :=
  let add (x : Word) (s : State) : State := run (.atomXacc 2 4) (single (regs s [(64, 0x1000), (96, 0xFFF30000), (128, x)] []))
  add 0xCB800000 (add 0x3F800000 (add 0x4B800000 world))
set_option exponentiation.threshold 1000 in
theorem test_xacc_exact : (run (.xaccRd 5 2) summed).v 5 0 = 0x3F800000 := by decide
-- mailboxes, buffers and barriers (05_events R125, 03_tasks R64, 11_copy R271)
theorem test_mboxSend_then_full : (run (.mboxSend 3 8) (sends 0)).v 3 0 = 0 ∧ (run (.mboxSend 3 8) (run (.mboxSend 3 8) (sends 0))).v 3 0 = 1 := by decide
theorem test_tbufFull_generation : (run (.tbufFull 6 4) (posting 5)).rd 0x208028 8 = 0x100000001 ∧ (run (.tbufFull 6 4) (posting 5)).un 6 = 0 := by decide
theorem test_tbrArrive_last : (run (.tbrArrive 8 4) (slotted (slotOf 9 1 1 0 1) 0)).rd32 (localKey 0 0xFFF0) = 10 := by decide
-- power (15_power R341, R332)
theorem test_dline_saturates : (run (.dline 8 4) { regs world [] [(4, 0xFFFFFFFF), (5, 0xFFFFFFFF)] with pkg := { world.pkg with time := 9 } }).uu 8 = 0xFFFFFFFFFFFFFFFF := by
  decide
theorem test_plvl_9 : endOf (run (.plvl 5 4) (sysWorld 9 0)) = some (1, 0x0F01) := by decide
-- the first step of a placed word, and the events of reset
theorem test_step_runs_placed_word : (match step (State.reset.withFetchWord 32 0x100C0732) with | .next t => t.me.regs.getV 3 31 | _ => 0) = 50 := by decide
theorem test_power_up : (match step { State.reset with agenda := [.powerUp] } with | .next t => t.pkg.stage | _ => .aon) = .verify := by decide

end Sys2Proof.Tests
end

/-! Decoding and encoding agree (02_encoding R25 to R48). The fields of an encoded word are read back (R28, R30); so the candidate of a word is the
instruction that the word was made of, shown major by major (R43); and the checks of R41 let the candidate of a well-formed instruction pass. -/

namespace Sys2Proof

/-! ### Codes and operands in their fields -/

@[simp] theorem opcode_mod {b m c : Nat} (h : c < m) : (b * m + c) % m = c := by
  rw [Nat.mul_add_mod', Nat.mod_eq_of_lt h]

@[simp] theorem opcode_div {b m c : Nat} (h : c < m) : (b * m + c) / m = b := by
  rw [Nat.mul_comm, Nat.mul_add_div (Nat.zero_lt_of_lt h), Nat.div_eq_of_lt h, Nat.add_zero]

@[simp] theorem bit_toNat (b : Bool) : bit b.toNat = b := by cases b <;> rfl

@[simp] theorem bit_mod_two (n : Nat) : bit (n % 2) = bit n := by simp [bit]

/-- The flag above a predicate in the field of a scan (06_integer R160). -/
@[simp] theorem bit_scan_flag {n : Bool} {p : BitVec 3} {c : Nat} (h : c < 16) : bit (((n.toNat * 8 + p.toNat) * 16 + c) / 128) = n := by
  have : ((n.toNat * 8 + p.toNat) * 16 + c) / 128 = n.toNat := by omega
  rw [this, bit_toNat]

/-- An operand under a code or a flag of its field is cut out by the operand's width. -/
@[simp] theorem ofNat_mul_add_toNat {n : Nat} (c : Nat) (x : BitVec n) : BitVec.ofNat n (c * 2 ^ n + x.toNat) = x :=
  BitVec.eq_of_toNat_eq (by rw [BitVec.toNat_ofNat, opcode_mod x.isLt])

@[simp] theorem ofNat_mul_eight_add_toNat (c : Nat) (x : BitVec 3) : BitVec.ofNat 3 (c * 8 + x.toNat) = x := ofNat_mul_add_toNat c x

@[simp] theorem pick_some {α : Type} (e : Cause) (x : α) (f : α → Except Cause Instr) : pick e (some x) f = f x := rfl

/-! ### The fields of a word (02_encoding R28, R30) -/

theorem toNat_laneWord {m d a k : Nat} (hm : m < 64) (hd : d < 128) (ha : a < 128) (hk : k < 2048) :
    (laneWord m d a k).toNat = m * 2 ^ 25 + d * 2 ^ 18 + a * 2 ^ 11 + k := by
  rw [laneWord, BitVec.toNat_ofNat, Nat.mod_eq_of_lt (by omega)]

theorem fields_laneWord {m d a k : Nat} (hm : m < 64) (hd : d < 128) (ha : a < 128) (hk : k < 2048) :
    let w := (laneWord m d a k).toNat
    w < 2 ^ 31 ∧ fld w 25 6 = m ∧ fld w 18 7 = d ∧ fld w 11 7 = a ∧ fld w 0 11 = k := by
  simp only [toNat_laneWord hm hd ha hk, fld]
  omega

theorem toNat_uniWord {m d a k : Nat} (hm : m < 64) (hd : d < 64) (ha : a < 64) (hk : k < 8192) :
    (uniWord m d a k).toNat = m * 2 ^ 25 + d * 2 ^ 19 + a * 2 ^ 13 + k := by
  rw [uniWord, BitVec.toNat_ofNat, Nat.mod_eq_of_lt (by omega)]

theorem fields_uniWord {m d a k : Nat} (hm : m < 64) (hd : d < 64) (ha : a < 64) (hk : k < 8192) :
    let w := (uniWord m d a k).toNat
    w < 2 ^ 31 ∧ fld w 25 6 = m ∧ fld w 19 6 = d ∧ fld w 13 6 = a ∧ fld w 0 13 = k := by
  simp only [toNat_uniWord hm hd ha hk, fld]
  omega

theorem toNat_branchWord {m p n k t : Nat} (hm : m < 64) (hp : p < 8) (hn : n < 2) (hk : k < 2) (ht : t < 2 ^ 20) :
    (branchWord m p n k t).toNat = m * 2 ^ 25 + p * 2 ^ 22 + n * 2 ^ 21 + k * 2 ^ 20 + t := by
  rw [branchWord, BitVec.toNat_ofNat, Nat.mod_eq_of_lt (by omega)]

theorem fields_branchWord {m p n k t : Nat} (hm : m < 64) (hp : p < 8) (hn : n < 2) (hk : k < 2) (ht : t < 2 ^ 20) :
    let w := (branchWord m p n k t).toNat
    w < 2 ^ 31 ∧ fld w 25 6 = m ∧ fld w 22 3 = p ∧ fld w 21 1 = n ∧ fld w 20 1 = k ∧ fld w 0 20 = t := by
  simp only [toNat_branchWord hm hp hn hk ht, fld]
  omega

/-! ### Immediates and their extension words (02_encoding R32) -/

/-- The payload of the extension word of an immediate whose owner holds `m` values. -/
def Imm.payload {n : Nat} (m : Nat) (i : Imm n) : Option Nat := (i.extWord m).map fun e => e.toNat % 2 ^ 25

theorem Imm.low_lt {n : Nat} (i : Imm n) : i.low < 2 ^ n := by
  cases i with
  | short v => exact v.isLt
  | long v => exact Nat.mod_lt _ (Nat.two_pow_pos n)

/-- The extension word of a long immediate has the major and the payload that it was made of, and the payload's reserved bits are 0. -/
theorem Imm.fields_extWord {n : Nat} (hn : 7 ≤ n) {i : Imm n} {e : BitVec 32} (h : i.extWord (2 ^ n) = some e) :
    ∃ v : BitVec 32, i = .long v ∧ e.toNat / 2 ^ 25 = 0x3F ∧ e.toNat % 2 ^ 25 = v.toNat / 2 ^ n := by
  cases i with
  | short v => cases h
  | long v =>
    obtain rfl : BitVec.ofNat 32 (0x3F * 2 ^ 25 + v.toNat / 2 ^ n) = e := Option.some.inj h
    have hv : v.toNat / 2 ^ n < 2 ^ 25 := calc
      v.toNat / 2 ^ n ≤ v.toNat / 2 ^ 7 := Nat.div_le_div_left (Nat.pow_le_pow_right (by decide) hn) (by decide)
      _ < 2 ^ 25 := by omega
    have he : (BitVec.ofNat 32 (0x3F * 2 ^ 25 + v.toNat / 2 ^ n)).toNat = 0x3F * 2 ^ 25 + v.toNat / 2 ^ n := by
      rw [BitVec.toNat_ofNat, Nat.mod_eq_of_lt (by omega)]
    exact ⟨v, rfl, by rw [he]; exact opcode_div hv, by rw [he]; exact opcode_mod hv⟩

/-- An immediate is read back from its owner's field and its extension word. -/
theorem Imm.join_low_payload {n : Nat} (hn : 7 ≤ n) (i : Imm n) : Imm.join (2 ^ n) i.low (i.payload (2 ^ n)) = i := by
  cases h : i.extWord (2 ^ n) with
  | none =>
    cases i with
    | short v => simp [Imm.payload, Imm.extWord, Imm.join, Imm.low]
    | long v => cases h
  | some e =>
    obtain ⟨v, rfl, -, hx⟩ := Imm.fields_extWord hn h
    have hv : v.toNat / 2 ^ n * 2 ^ n + v.toNat % 2 ^ n = v.toNat := Nat.div_add_mod' _ _
    simp only [Imm.payload, h, Option.map_some, Imm.join, Imm.low, hx, hv, BitVec.ofNat_toNat, BitVec.setWidth_eq]

@[simp] theorem Imm.join_256 (i : Imm 8) : Imm.join 256 i.low (i.payload 256) = i := i.join_low_payload (by decide)
@[simp] theorem Imm.join_1024 (i : Imm 10) : Imm.join 1024 i.low (i.payload 1024) = i := i.join_low_payload (by decide)

/-! ### The candidate of a word, by its format -/

/-- The candidate of a word of the formats V3, VU, VI and M, from its fields. -/
@[simp] noncomputable def laneCandidate (m d a k : Nat) (x : Option Nat) : Except Cause Instr :=
  match m with
  | 3 => cand03 d a k
  | 4 => cand04 d a k
  | 6 => cand06 d a k
  | 7 => cand07 d a k
  | 8 => cand08 d a k x
  | 9 => cand09 d a k
  | 10 => cand0A d a k
  | 11 => cand0B d a k
  | 16 => cand10 d a k
  | 17 => cand11 d a k
  | 18 => cand12 d a k
  | 19 => cand13 d a k
  | 20 => cand14 d a k
  | 24 => cand18 d a k x
  | 25 => cand19 d a k x
  | 26 => cand1A d a k
  | 27 => cand1B d a k
  | 28 => cand1C d a k
  | 34 => cand22 d a k
  | 47 => cand2F d a k
  | 48 => cand30 d a k
  | 49 => cand31 d a k
  | 50 => cand32 d a k
  | 51 => cand33 d a k
  | _ => .error .func

/-- The candidate of a word of the formats S3 and SI, from its fields. -/
@[simp] noncomputable def uniCandidate (st : Stream) (m d a k : Nat) (x : Option Nat) : Except Cause Instr :=
  match m with
  | 5 => cand05 d a k
  | 12 => cand0C d a k
  | 13 => cand0D d a k x
  | 29 => cand1D d a k
  | 32 => cand20 d a k
  | 36 => cand24 d a k
  | 37 => cand25 d a k
  | 40 => cand28 d a k
  | 41 => cand29 d a k
  | 42 => cand2A d a k
  | 43 => cand2B d a k
  | 46 => cand2E st d a k
  | 52 => cand34 d a k
  | 53 => cand35 d a k
  | 54 => cand36 d a k
  | 55 => cand37 d a k
  | _ => .error .func

/-- The candidate of a word of format B, from its fields. -/
@[simp] def branchCandidate (m p n k t : Nat) : Except Cause Instr :=
  match m with
  | 1 => cand01 p n k t
  | 2 => cand02 p n k t
  | _ => .error .func

theorem candidate_of_laneCandidate {st : Stream} {w : Nat} {x : Option Nat} {i : Instr}
    (h : laneCandidate (fld w 25 6) (fld w 18 7) (fld w 11 7) (fld w 0 11) x = .ok i) : candidate st w x = .ok i := by
  unfold laneCandidate at h
  split at h <;> simp_all only [candidate, reduceCtorEq]

theorem candidate_of_uniCandidate {st : Stream} {w : Nat} {x : Option Nat} {i : Instr}
    (h : uniCandidate st (fld w 25 6) (fld w 19 6) (fld w 13 6) (fld w 0 13) x = .ok i) : candidate st w x = .ok i := by
  unfold uniCandidate at h
  split at h <;> simp_all only [candidate, reduceCtorEq]

theorem candidate_of_branchCandidate {st : Stream} {w : Nat} {x : Option Nat} {i : Instr}
    (h : branchCandidate (fld w 25 6) (fld w 22 3) (fld w 21 1) (fld w 20 1) (fld w 0 20) = .ok i) : candidate st w x = .ok i := by
  unfold branchCandidate at h
  split at h <;> simp_all only [candidate, reduceCtorEq]

end Sys2Proof

/-! ### Instructions whose word is read back -/

namespace Sys2Proof

/-- The payload of the extension word of an instruction's immediate. -/
def payload (i : Instr) : Option Nat := (encodeExt i).map fun e => e.toNat % 2 ^ 25

/-- The word of an instruction has chain bit 0 and a major of its stream, and its candidate is the instruction. -/
def ReadsBack (i : Instr) : Prop := ∀ w, encodeOwner i = some w →
  w.toNat < 2 ^ 31 ∧ reservedMajor (fld w.toNat 25 6) = false ∧ majorAllowed (streamOf i) (fld w.toNat 25 6) = true ∧
    candidate (streamOf i) w.toNat (payload i) = .ok i

/-- A major that is not reserved and that the stream accepts. -/
def majorOk (st : Stream) (m : Nat) : Bool := !reservedMajor m && majorAllowed st m && decide (m < 64)

theorem majorOk_iff {st : Stream} {m : Nat} : majorOk st m = true ↔ reservedMajor m = false ∧ majorAllowed st m = true ∧ m < 64 := by
  simp [majorOk, and_assoc]

section
variable {i : Instr} {st : Stream} {m d a k : Nat} {x : Option Nat}

theorem readsBack_of_laneWord (hw : encodeOwner i = some (laneWord m d a k)) (hx : payload i = x) (hs : streamOf i = st) (hm : majorOk st m = true)
    (hf : d < 128 ∧ a < 128 ∧ k < 2048) (hc : laneCandidate m d a k x = .ok i) : ReadsBack i := by
  subst hs hx
  rintro w h
  obtain rfl : laneWord m d a k = w := Option.some.inj (hw.symm.trans h)
  obtain ⟨hr, hs, hm⟩ := majorOk_iff.mp hm
  obtain ⟨hd, ha, hk⟩ := hf
  obtain ⟨hlt, fm, fd, fa, fk⟩ := fields_laneWord hm hd ha hk
  exact ⟨hlt, fm.symm ▸ hr, fm.symm ▸ hs, candidate_of_laneCandidate (by rw [fm, fd, fa, fk, hc])⟩

theorem readsBack_of_uniWord (hw : encodeOwner i = some (uniWord m d a k)) (hx : payload i = x) (hs : streamOf i = st) (hm : majorOk st m = true)
    (hf : d < 64 ∧ a < 64 ∧ k < 8192) (hc : uniCandidate st m d a k x = .ok i) : ReadsBack i := by
  subst hs hx
  rintro w h
  obtain rfl : uniWord m d a k = w := Option.some.inj (hw.symm.trans h)
  obtain ⟨hr, hs, hm⟩ := majorOk_iff.mp hm
  obtain ⟨hd, ha, hk⟩ := hf
  obtain ⟨hlt, fm, fd, fa, fk⟩ := fields_uniWord hm hd ha hk
  exact ⟨hlt, fm.symm ▸ hr, fm.symm ▸ hs, candidate_of_uniCandidate (by rw [fm, fd, fa, fk, hc])⟩

theorem readsBack_of_branchWord {p n k t : Nat} (hw : encodeOwner i = some (branchWord m p n k t)) (hs : streamOf i = st) (hm : majorOk st m = true)
    (hf : p < 8 ∧ n < 2 ∧ k < 2 ∧ t < 2 ^ 20) (hc : branchCandidate m p n k t = .ok i) : ReadsBack i := by
  subst hs
  rintro w h
  obtain rfl : branchWord m p n k t = w := Option.some.inj (hw.symm.trans h)
  obtain ⟨hr, hs, hm⟩ := majorOk_iff.mp hm
  obtain ⟨hp, hn, hk, ht⟩ := hf
  obtain ⟨hlt, fm, fp, fn, fk, ft⟩ := fields_branchWord hm hp hn hk ht
  exact ⟨hlt, fm.symm ▸ hr, fm.symm ▸ hs, candidate_of_branchCandidate (by rw [fm, fp, fn, fk, ft, hc])⟩

end

/-- Major 0x01: lane branches and calls. -/
theorem readsBack_bra_call (p : BitVec 3) (n : Bool) (t : BitVec 20) : ReadsBack (.bra p n t) ∧ ReadsBack (.call p n t) := by
  have := n.toNat_lt
  and_intros <;> exact readsBack_of_branchWord rfl rfl rfl (by omega) (by simp [cand01])

/-- Major 0x02: path branches. -/
theorem readsBack_brp (p : BitVec 3) (n : Bool) (t : BitVec 20) : ReadsBack (.brp p n t) := by
  have := n.toNat_lt
  exact readsBack_of_branchWord rfl rfl rfl (by omega) (by simp [cand02])

/-- Major 0x03: indirect branches and the other control words. -/
theorem readsBack_control :
    (∀ a s, ReadsBack (.brx a s)) ∧ (∀ a s, ReadsBack (.callx a s)) ∧ ReadsBack .ret ∧ ReadsBack .join ∧ ReadsBack .exit ∧ ReadsBack .nop ∧
    ReadsBack .pyield := by
  and_intros <;> intros <;> exact readsBack_of_laneWord rfl rfl rfl rfl (by omega) (by simp [cand03])

/-- Major 0x04: the event kind above the event register. -/
theorem readsBack_evArm (k : EvKind) (n : BitVec 3) (s : BitVec 6) : ReadsBack (.evArm k n s) := by
  have := k.code_lt
  exact readsBack_of_laneWord rfl rfl rfl rfl (by omega) (by simp (disch := omega) [cand04, ↓opcode_mod, ↓opcode_div])

/-- Major 0x04: event registers and mailboxes. -/
theorem readsBack_events :
    (∀ n, ReadsBack (.evDisarm n)) ∧ (∀ s, ReadsBack (.waitAny s)) ∧ (∀ d a, ReadsBack (.evPend d a)) ∧ (∀ d s, ReadsBack (.mboxSend d s)) ∧
    ∀ d s, ReadsBack (.mboxRecv d s) := by
  and_intros <;> intros <;> exact readsBack_of_laneWord rfl rfl rfl rfl (by omega) (by simp [cand04])

/-- Major 0x05: returns from handlers. -/
theorem readsBack_trapRet (k : TrapRet) : ReadsBack (.trapRet k) := by
  have := k.code_lt
  exact readsBack_of_uniWord rfl rfl rfl rfl (by omega) (by simp (disch := omega) [cand05, ↓opcode_mod, ↓opcode_div])

/-- Major 0x05: the pre-emption mask. -/
theorem readsBack_preMask (k : Bool) : ReadsBack (.preMask k) := by
  have := k.toNat_lt
  exact readsBack_of_uniWord rfl rfl rfl rfl (by omega) (by simp (disch := omega) [cand05, ↓opcode_mod, ↓opcode_div])

/-- Major 0x05: traps and pre-emption. -/
theorem readsBack_traps : (∀ a i, ReadsBack (.trap a i)) ∧ ∀ a, ReadsBack (.preDone a) := by
  and_intros <;> intros <;> exact readsBack_of_uniWord rfl rfl rfl rfl (by omega) (by simp (disch := omega) [cand05, ↓opcode_mod, ↓opcode_div])

/-- Major 0x06: lane arithmetic. -/
theorem readsBack_laneArithmetic :
    (∀ d a b, ReadsBack (.iadd d a b)) ∧ (∀ d a b, ReadsBack (.isub d a b)) ∧ (∀ d a b, ReadsBack (.imul d a b)) ∧
    (∀ d a b, ReadsBack (.imulhI32 d a b)) ∧ (∀ d a b, ReadsBack (.imulhN32 d a b)) ∧ (∀ d a b, ReadsBack (.imad d a b)) ∧
    (∀ d a b, ReadsBack (.iminI32 d a b)) ∧ (∀ d a b, ReadsBack (.iminN32 d a b)) ∧ (∀ d a b, ReadsBack (.imaxI32 d a b)) ∧
    (∀ d a b, ReadsBack (.imaxN32 d a b)) ∧ (∀ d a, ReadsBack (.iabs d a)) ∧ (∀ d a, ReadsBack (.ineg d a)) ∧ (∀ d a b, ReadsBack (.lea d a b)) ∧
    ∀ d a b, ReadsBack (.iadd64 d a b) := by
  and_intros <;> intros <;> exact readsBack_of_laneWord rfl rfl rfl rfl (by omega) (by simp [cand06])

/-- Major 0x07: lane logic, shifts and fields. -/
theorem readsBack_laneLogic :
    (∀ d a b, ReadsBack (.and d a b)) ∧ (∀ d a b, ReadsBack (.or d a b)) ∧ (∀ d a b, ReadsBack (.xor d a b)) ∧ (∀ d a b, ReadsBack (.andn d a b)) ∧
    (∀ d a b, ReadsBack (.shl d a b)) ∧ (∀ d a b, ReadsBack (.shr d a b)) ∧ (∀ d a b, ReadsBack (.sar d a b)) ∧ (∀ d a b, ReadsBack (.rot d a b)) ∧
    (∀ d a, ReadsBack (.clz d a)) ∧ (∀ d a, ReadsBack (.popc d a)) ∧ (∀ d a, ReadsBack (.brev d a)) ∧ (∀ d a b, ReadsBack (.bfeN32 d a b)) ∧
    (∀ d a b, ReadsBack (.bfeI32 d a b)) ∧ (∀ d a b, ReadsBack (.bfi d a b)) ∧ (∀ d a b, ReadsBack (.bilv d a b)) ∧
    ∀ d a b, ReadsBack (.bdlv d a b) := by
  and_intros <;> intros <;> exact readsBack_of_laneWord rfl rfl rfl rfl (by omega) (by simp [cand07])

/-- Major 0x08: lane immediates. -/
theorem readsBack_laneImmediates (d a : BitVec 7) (i : Imm 8) :
    ReadsBack (.iaddImm d a i) ∧ ReadsBack (.andImm d a i) ∧ ReadsBack (.orImm d a i) ∧ ReadsBack (.xorImm d a i) ∧ ReadsBack (.shlImm d a i) ∧
    ReadsBack (.shrImm d a i) ∧ ReadsBack (.sarImm d a i) := by
  have := i.low_lt
  and_intros <;> exact readsBack_of_laneWord (x := i.payload 256) rfl rfl rfl rfl (by omega) (by simp (disch := omega) [cand08, ↓opcode_mod, ↓opcode_div])

/-- Major 0x08: moves of an immediate. -/
theorem readsBack_movi (d : BitVec 7) (i : Imm 8) : ReadsBack (.movi d i) := by
  have := i.low_lt
  exact readsBack_of_laneWord (x := i.payload 256) rfl rfl rfl rfl (by omega) (by simp (disch := omega) [cand08, ↓opcode_mod, ↓opcode_div])

/-- Major 0x09: lane comparisons. -/
theorem readsBack_icmp (k : ICond) (p : BitVec 3) (a b : BitVec 7) : ReadsBack (.icmp k p a b) := by
  have := k.code_lt
  exact readsBack_of_laneWord rfl rfl rfl rfl (by omega) (by simp (disch := omega) [cand09, ↓opcode_mod, ↓opcode_div])

/-- Major 0x09: lane scans. -/
theorem readsBack_lscan (d a : BitVec 7) (n : Bool) (p : BitVec 3) :
    ReadsBack (.lscanAdd d a n p) ∧ ReadsBack (.lscanAnd d a n p) ∧ ReadsBack (.lscanOr d a n p) ∧ ReadsBack (.lscanXor d a n p) ∧
    ReadsBack (.lscanMinI32 d a n p) ∧ ReadsBack (.lscanMaxI32 d a n p) := by
  have := n.toNat_lt
  and_intros <;> exact readsBack_of_laneWord rfl rfl rfl rfl (by omega) (by simp (disch := omega) [cand09, ↓opcode_mod, ↓opcode_div])

/-- Major 0x09: lane comparisons, shuffles and scans. -/
theorem readsBack_laneScans :
    (∀ d a b, ReadsBack (.mix32 d a b)) ∧ (∀ d a b, ReadsBack (.shfl d a b)) ∧ ∀ d a b, ReadsBack (.regroup d a b) := by
  and_intros <;> intros <;> exact readsBack_of_laneWord rfl rfl rfl rfl (by omega) (by simp [cand09])

/-- Major 0x0A: selections, whose code is the predicate. -/
theorem readsBack_sel (d a b : BitVec 7) (p : BitVec 3) : ReadsBack (.sel d a b p) := by
  have hp := p.isLt
  refine readsBack_of_laneWord rfl rfl rfl rfl (by omega) ?_
  simp (disch := omega) only [laneCandidate, cand0A, opcode_mod, opcode_div, BitVec.ofNat_toNat, BitVec.setWidth_eq]
  interval_cases p.toNat <;> rfl

/-- Major 0x0A: special registers. -/
theorem readsBack_movs (d : BitVec 7) (x : Special) : ReadsBack (.movs d x) := by
  have := x.code_lt
  exact readsBack_of_laneWord rfl rfl rfl rfl (by omega) (by simp [cand0A])

/-- Major 0x0A: selections and moves. -/
theorem readsBack_laneMoves : ∀ d a, ReadsBack (.mov d a) := by
  intros
  exact readsBack_of_laneWord rfl rfl rfl rfl (by omega) (by simp [cand0A])

/-- Major 0x0B: votes, copies and reductions. -/
theorem readsBack_laneVotes :
    (∀ d a, ReadsBack (.voteAny d a)) ∧ (∀ d a, ReadsBack (.voteAll d a)) ∧ (∀ d a, ReadsBack (.voteBall d a)) ∧ (∀ a s, ReadsBack (.v2s a s)) ∧
    (∀ d s, ReadsBack (.s2v d s)) ∧ (∀ d a s, ReadsBack (.lbcast d a s)) ∧ (∀ d a, ReadsBack (.lredAdd d a)) ∧ (∀ d a, ReadsBack (.lredAnd d a)) ∧
    (∀ d a, ReadsBack (.lredOr d a)) ∧ (∀ d a, ReadsBack (.lredXor d a)) ∧ (∀ d a, ReadsBack (.lredMinI32 d a)) ∧
    ∀ d a, ReadsBack (.lredMaxI32 d a) := by
  and_intros <;> intros <;> exact readsBack_of_laneWord rfl rfl rfl rfl (by omega) (by simp [cand0B])

/-- Major 0x0C: comparisons, whose code holds the condition. -/
theorem readsBack_icmpU (d a b : BitVec 6) (k : ICond) : ReadsBack (.icmpU d a b k) := by
  have hk := k.code_lt
  have hc : (b.toNat * 128 + (32 + k.code)) % 16 = k.code := by omega
  refine readsBack_of_uniWord rfl rfl rfl rfl (by omega) ?_
  simp (disch := omega) only [uniCandidate, cand0C, opcode_mod, opcode_div, hc, ICond.ofCode?_code, pick_some, BitVec.ofNat_toNat, BitVec.setWidth_eq]
  cases k <;> rfl

/-- Major 0x0C: special registers. -/
theorem readsBack_movsU (d : BitVec 6) (x : Special) : ReadsBack (.movsU d x) := by
  have := x.code_lt
  exact readsBack_of_uniWord rfl rfl rfl rfl (by omega) (by simp [cand0C])

/-- Major 0x0C: the uniform ALU. -/
theorem readsBack_uniformAlu :
    (∀ d a b, ReadsBack (.iaddU d a b)) ∧ (∀ d a b, ReadsBack (.isubU d a b)) ∧ (∀ d a b, ReadsBack (.imulU d a b)) ∧
    (∀ d a b, ReadsBack (.imulhI32U d a b)) ∧ (∀ d a b, ReadsBack (.imulhN32U d a b)) ∧ (∀ d a b, ReadsBack (.imadU d a b)) ∧
    (∀ d a b, ReadsBack (.iminI32U d a b)) ∧ (∀ d a b, ReadsBack (.iminN32U d a b)) ∧ (∀ d a b, ReadsBack (.imaxI32U d a b)) ∧
    (∀ d a b, ReadsBack (.imaxN32U d a b)) ∧ (∀ d a, ReadsBack (.iabsU d a)) ∧ (∀ d a, ReadsBack (.inegU d a)) ∧ (∀ d a b, ReadsBack (.leaU d a b)) ∧
    (∀ d a b, ReadsBack (.iadd64U d a b)) ∧ (∀ d a b, ReadsBack (.andU d a b)) ∧ (∀ d a b, ReadsBack (.orU d a b)) ∧
    (∀ d a b, ReadsBack (.xorU d a b)) ∧ (∀ d a b, ReadsBack (.andnU d a b)) ∧ (∀ d a b, ReadsBack (.shlU d a b)) ∧
    (∀ d a b, ReadsBack (.shrU d a b)) ∧ (∀ d a b, ReadsBack (.sarU d a b)) ∧ (∀ d a b, ReadsBack (.rotU d a b)) ∧ (∀ d a, ReadsBack (.clzU d a)) ∧
    (∀ d a, ReadsBack (.popcU d a)) ∧ (∀ d a, ReadsBack (.brevU d a)) ∧ (∀ d a b, ReadsBack (.bfeN32U d a b)) ∧
    (∀ d a b, ReadsBack (.bfeI32U d a b)) ∧ (∀ d a b, ReadsBack (.bfiU d a b)) ∧ (∀ d a b, ReadsBack (.bilvU d a b)) ∧
    (∀ d a b, ReadsBack (.bdlvU d a b)) ∧ (∀ d a, ReadsBack (.movU d a)) ∧ ∀ d a b, ReadsBack (.mix32U d a b) := by
  and_intros <;> intros <;> exact readsBack_of_uniWord rfl rfl rfl rfl (by omega) (by simp [cand0C])

/-- Major 0x0D: uniform immediates. -/
theorem readsBack_uniformImmediates (d a : BitVec 6) (i : Imm 10) :
    ReadsBack (.iaddUimm d a i) ∧ ReadsBack (.andUimm d a i) ∧ ReadsBack (.orUimm d a i) ∧ ReadsBack (.xorUimm d a i) ∧ ReadsBack (.shlUimm d a i) ∧
    ReadsBack (.shrUimm d a i) ∧ ReadsBack (.sarUimm d a i) := by
  have := i.low_lt
  and_intros <;> exact readsBack_of_uniWord (x := i.payload 1024) rfl rfl rfl rfl (by omega) (by simp (disch := omega) [cand0D, ↓opcode_mod, ↓opcode_div])

/-- Major 0x0D: moves of an immediate. -/
theorem readsBack_moviU (d : BitVec 6) (i : Imm 10) : ReadsBack (.moviU d i) := by
  have := i.low_lt
  exact readsBack_of_uniWord (x := i.payload 1024) rfl rfl rfl rfl (by omega) (by simp (disch := omega) [cand0D, ↓opcode_mod, ↓opcode_div])

/-- Major 0x10: floating-point arithmetic whose code holds the rounding mode. -/
theorem readsBack_rounded (d a b : BitVec 7) (r : RoundMode) :
    ReadsBack (.fadd d a b r) ∧ ReadsBack (.fmul d a b r) ∧ ReadsBack (.ffma d a b r) := by
  have hr := r.code_lt
  have hc : ∀ c, c % 4 = 0 → (b.toNat * 16 + (c + r.code)) % 4 = r.code := by omega
  and_intros
  all_goals
    refine readsBack_of_laneWord rfl rfl rfl rfl (by omega) ?_
    simp (disch := omega) only [laneCandidate, cand10, opcode_mod, opcode_div, hc, RoundMode.ofCode_code, BitVec.ofNat_toNat, BitVec.setWidth_eq]
    cases r <;> rfl

/-- Major 0x10: floating-point arithmetic. -/
theorem readsBack_floatArithmetic :
    (∀ d a b, ReadsBack (.fsub d a b)) ∧ (∀ d a b, ReadsBack (.fmin d a b)) ∧ ∀ d a b, ReadsBack (.fmax d a b) := by
  and_intros <;> intros <;> exact readsBack_of_laneWord rfl rfl rfl rfl (by omega) (by simp [cand10])

/-- Major 0x11: floating-point comparisons. -/
theorem readsBack_fcmp (k : FCond) (p : BitVec 3) (a b : BitVec 7) : ReadsBack (.fcmp k p a b) := by
  have := k.code_lt
  exact readsBack_of_laneWord rfl rfl rfl rfl (by omega) (by simp (disch := omega) [cand11, ↓opcode_mod, ↓opcode_div])

/-- Major 0x11: floating-point comparison, class and packed pairs. -/
theorem readsBack_floatPairs :
    (∀ d a, ReadsBack (.fclass d a)) ∧ (∀ d, ReadsBack (.fclassFlg d)) ∧ (∀ d, ReadsBack (.fclassFlgclr d)) ∧ (∀ d a, ReadsBack (.frnd d a)) ∧
    (∀ d a, ReadsBack (.frndRz d a)) ∧ (∀ d a, ReadsBack (.frndRd d a)) ∧ (∀ d a, ReadsBack (.frndRu d a)) ∧ (∀ d a b, ReadsBack (.hadd2F16 d a b)) ∧
    (∀ d a b, ReadsBack (.hadd2Bf16 d a b)) ∧ (∀ d a b, ReadsBack (.hmul2F16 d a b)) ∧ (∀ d a b, ReadsBack (.hmul2Bf16 d a b)) ∧
    (∀ d a b, ReadsBack (.hfma2F16 d a b)) ∧ ∀ d a b, ReadsBack (.hfma2Bf16 d a b) := by
  and_intros <;> intros <;> exact readsBack_of_laneWord rfl rfl rfl rfl (by omega) (by simp (disch := omega) [cand11, ↓opcode_mod, ↓opcode_div])

/-- Major 0x12: special functions. -/
theorem readsBack_specialFunctions :
    (∀ d a, ReadsBack (.rcp d a)) ∧ (∀ d a, ReadsBack (.rsq d a)) ∧ (∀ d a, ReadsBack (.sqrt d a)) ∧ (∀ d a, ReadsBack (.exp2 d a)) ∧
    (∀ d a, ReadsBack (.log2 d a)) ∧ (∀ d a, ReadsBack (.sin d a)) ∧ ∀ d a, ReadsBack (.cos d a) := by
  and_intros <;> intros <;> exact readsBack_of_laneWord rfl rfl rfl rfl (by omega) (by simp [cand12])

/-- Major 0x13: conversion. -/
theorem readsBack_cvt (d a : BitVec 7) (dty sty : CvtTy) (r : RoundMode) (ns : Bool) : ReadsBack (.cvt d a dty sty r ns) := by
  have hd := dty.code_lt
  have hs := sty.code_lt
  have hr := r.code_lt
  have hn := ns.toNat_lt
  let k := dty.code * 128 + sty.code * 8 + r.code * 2 + ns.toNat
  have kd : k / 128 = dty.code := by omega
  have ks : k / 8 % 16 = sty.code := by omega
  have kr : k / 2 % 4 = r.code := by omega
  have kn : k % 2 = ns.toNat := by omega
  exact readsBack_of_laneWord (k := k) rfl rfl rfl rfl (by omega) (by simp [cand13, kd, ks, kr, kn])

/-- Major 0x14: quantisation. -/
theorem readsBack_quantisation :
    (∀ d a b, ReadsBack (.qhist d a b)) ∧ (∀ d a b, ReadsBack (.qscale d a b)) ∧ ∀ d a b, ReadsBack (.qpack d a b) := by
  and_intros <;> intros <;> exact readsBack_of_laneWord rfl rfl rfl rfl (by omega) (by simp [cand14])

/-- Major 0x18: loads. -/
theorem readsBack_ld (d a : BitVec 7) (o : Imm 8) (z : MemSize) : ReadsBack (.ld d a o z) := by
  have := o.low_lt
  have := z.code_lt
  exact readsBack_of_laneWord (x := o.payload 256) rfl rfl rfl rfl (by omega) (by simp (disch := omega) [cand18, ↓opcode_mod, ↓opcode_div])

/-- Major 0x19: stores. -/
theorem readsBack_st (d a : BitVec 7) (o : Imm 8) (z : MemSize) : ReadsBack (.st d a o z) := by
  have := o.low_lt
  have := z.code_lt
  exact readsBack_of_laneWord (x := o.payload 256) rfl rfl rfl rfl (by omega) (by simp (disch := omega) [cand19, ↓opcode_mod, ↓opcode_div])

/-- Major 0x1A: atomics and prefetch. -/
theorem readsBack_atomics :
    (∀ d a b, ReadsBack (.atomAdd d a b)) ∧ (∀ d a b, ReadsBack (.atomAnd d a b)) ∧ (∀ d a b, ReadsBack (.atomOr d a b)) ∧
    (∀ d a b, ReadsBack (.atomXor d a b)) ∧ (∀ d a b, ReadsBack (.atomMinI32 d a b)) ∧ (∀ d a b, ReadsBack (.atomMaxI32 d a b)) ∧
    (∀ d a b, ReadsBack (.atomMinN32 d a b)) ∧ (∀ d a b, ReadsBack (.atomMaxN32 d a b)) ∧ (∀ d a b, ReadsBack (.atomXchg d a b)) ∧
    (∀ d a b, ReadsBack (.atomCas d a b)) ∧ (∀ d a b, ReadsBack (.atomFadd d a b)) ∧ (∀ a b, ReadsBack (.atomXacc a b)) ∧
    (∀ d a, ReadsBack (.xaccRd d a)) ∧ (∀ d a, ReadsBack (.xaccRdClr d a)) ∧ (∀ a, ReadsBack (.pref a)) ∧ (∀ a, ReadsBack (.prefSc a)) ∧
    (∀ d a b, ReadsBack (.atomAddN64 d a b)) ∧ ∀ d a b, ReadsBack (.atomCasB64 d a b) := by
  and_intros <;> intros <;> exact readsBack_of_laneWord rfl rfl rfl rfl (by omega) (by simp [cand1A])

/-- Major 0x1B: the commons. -/
theorem readsBack_commons :
    (∀ d a b, ReadsBack (.ldSB32 d a b)) ∧ (∀ d a b, ReadsBack (.ldSB64 d a b)) ∧ (∀ d a b, ReadsBack (.stSB32 d a b)) ∧
    (∀ d a b, ReadsBack (.stSB64 d a b)) ∧ (∀ a b, ReadsBack (.cmnEwAddI32 a b)) ∧ (∀ a b, ReadsBack (.cmnEwAddF32 a b)) ∧
    (∀ a b, ReadsBack (.cmnEwMaxF32 a b)) ∧ (∀ d a b, ReadsBack (.cmnRedAddI32 d a b)) ∧ (∀ d a b, ReadsBack (.cmnRedAddF32 d a b)) ∧
    ∀ d a b, ReadsBack (.cmnRedMaxF32 d a b) := by
  and_intros <;> intros <;> exact readsBack_of_laneWord rfl rfl rfl rfl (by omega) (by simp [cand1B])

/-- Major 0x1C: mwait. -/
theorem readsBack_mwait (g : Bool) (k : MCond) (a b : BitVec 7) : ReadsBack (.mwait g k a b) := by
  have := g.toNat_lt
  have := k.code_lt
  exact readsBack_of_laneWord rfl rfl rfl rfl (by omega) (by simp (disch := omega) [cand1C, ↓opcode_mod, ↓opcode_div])

/-- Major 0x1C: fence.e and mwait. -/
theorem readsBack_fences : ∀ m, ReadsBack (.fenceE m) := by
  intros
  exact readsBack_of_laneWord rfl rfl rfl rfl (by omega) (by simp [cand1C])

/-- Major 0x1D: translation. -/
theorem readsBack_translation :
    ReadsBack .fenceT ∧ (∀ a b, ReadsBack (.tlbInv a b)) ∧ ReadsBack .tlbSync ∧ (∀ d a b, ReadsBack (.asidBind d a b)) ∧
    (∀ d a, ReadsBack (.asidFree d a)) ∧ (∀ d a, ReadsBack (.asidStat d a)) ∧ (∀ d a b, ReadsBack (.pgMig d a b)) ∧
    (∀ d a b, ReadsBack (.pfResume d a b)) ∧ ∀ d a b, ReadsBack (.bbMove d a b) := by
  and_intros <;> intros <;> exact readsBack_of_uniWord rfl rfl rfl rfl (by omega) (by simp [cand1D])

/-- Major 0x20: bulk copies and transaction barriers. -/
theorem readsBack_copies :
    (∀ a b, ReadsBack (.cpy a b)) ∧ (∀ a b, ReadsBack (.cpyFill a b)) ∧ (∀ a b, ReadsBack (.tbrInit a b)) ∧ (∀ d a, ReadsBack (.tbrArrive d a)) ∧
    (∀ a b, ReadsBack (.tbrOwe a b)) ∧ ∀ a, ReadsBack (.tbrRetire a) := by
  and_intros <;> intros <;> exact readsBack_of_uniWord rfl rfl rfl rfl (by omega) (by simp [cand20])

/-- Major 0x22: streams, fibres and expert routing. -/
theorem readsBack_streams :
    (∀ n s, ReadsBack (.strOpen n s)) ∧ (∀ n s, ReadsBack (.strOpeni n s)) ∧ (∀ n s, ReadsBack (.strAdv n s)) ∧ (∀ d n, ReadsBack (.strPop d n)) ∧
    (∀ n a, ReadsBack (.strPush n a)) ∧ (∀ p n, ReadsBack (.strTend p n)) ∧ (∀ n, ReadsBack (.strClose n)) ∧ (∀ n s, ReadsBack (.fibOpen n s)) ∧
    (∀ d a n, ReadsBack (.fibAdv d a n)) ∧ (∀ p n, ReadsBack (.fibTend p n)) ∧ (∀ n, ReadsBack (.fibClose n)) ∧ (∀ s, ReadsBack (.xrCap s)) ∧
    ∀ d a s, ReadsBack (.xrRoute d a s) := by
  and_intros <;> intros <;> exact readsBack_of_laneWord rfl rfl rfl rfl (by omega) (by simp [cand22])

/-- Major 0x24: tasks and buffers. -/
theorem readsBack_tasks :
    (∀ d a, ReadsBack (.taskPost d a)) ∧ (∀ d a b, ReadsBack (.taskSpawn d a b)) ∧ (∀ d a, ReadsBack (.tbufFull d a)) ∧
    (∀ d a, ReadsBack (.tbufEmpty d a)) ∧ ∀ d a, ReadsBack (.tbufStat d a) := by
  and_intros <;> intros <;> exact readsBack_of_uniWord rfl rfl rfl rfl (by omega) (by simp [cand24])

/-- Major 0x25: group barriers. -/
theorem readsBack_groupBarriers : (∀ g, ReadsBack (.grpMeet g)) ∧ (∀ g, ReadsBack (.grpMark g)) ∧ ∀ g, ReadsBack (.grpHold g) := by
  and_intros <;> intros <;> exact readsBack_of_uniWord rfl rfl rfl rfl (by omega) (by simp (disch := omega) [cand25, ↓opcode_mod, ↓opcode_div])

/-- The fields of the low bits of mm and mm.sp (02_encoding R46). -/
theorem fields_mm {b f g k : Nat} (hf : f < 8) (hg : g < 2) (hk : k < 4) :
    let n := f * 16 + g * 8 + k * 2
    (b * 128 + n) % 128 = n ∧ n / 16 = f ∧ (b * 128 + n) / 128 = b ∧ (b * 128 + n) / 8 % 2 = g ∧ (b * 128 + n) / 2 % 4 = k := by
  omega

/-- Major 0x28: mm. -/
theorem readsBack_mm (t : BitVec 4) (a b : BitVec 6) (f : MmFmt) (g : Bool) (k : Kb) : ReadsBack (.mm t a b f g k) := by
  have hf := f.code_lt
  have hg := g.toNat_lt
  have hk := k.code_lt
  obtain ⟨nn, nf, nb, ng, nk⟩ := @fields_mm b.toNat _ _ _ hf hg hk
  exact readsBack_of_uniWord rfl rfl rfl rfl (by omega) (by simp [cand28, nn, nb, nf, ng, nk])

/-- Major 0x29: mm.sp. -/
theorem readsBack_mmSp (t : BitVec 4) (a b : BitVec 6) (f : MmFmt) (g : Bool) (k : Keep) : ReadsBack (.mmSp t a b f g k) := by
  have hf := f.code_lt
  have hg := g.toNat_lt
  have hk := k.code_lt
  obtain ⟨nn, nf, nb, ng, nk⟩ := @fields_mm b.toNat _ _ _ hf hg hk
  exact readsBack_of_uniWord rfl rfl rfl rfl (by omega) (by simp [cand29, nn, nb, nf, ng, nk])

/-- Major 0x2A: the other matrix words. -/
theorem readsBack_matrixMoves :
    (∀ t u, ReadsBack (.mmXpose t u)) ∧ (∀ t u b, ReadsBack (.mmPerm t u b)) ∧ (∀ t u, ReadsBack (.mmRsumF32 t u)) ∧
    (∀ t u, ReadsBack (.mmRsumI32 t u)) ∧ (∀ t, ReadsBack (.mmZero t)) ∧ (∀ t u b, ReadsBack (.mmScacc t u b)) ∧
    (∀ t u, ReadsBack (.mmCvtF32I32 t u)) ∧ ∀ t u, ReadsBack (.mmCvtI32F32 t u) := by
  and_intros <;> intros <;> exact readsBack_of_uniWord rfl rfl rfl rfl (by omega) (by simp [cand2A])

/-- Major 0x2B: sequencer loops. -/
theorem readsBack_loops : (∀ d a, ReadsBack (.seqLoop d a)) ∧ ReadsBack .seqEnd := by
  and_intros <;> intros <;> exact readsBack_of_uniWord rfl rfl rfl rfl (by omega) (by simp [cand2B])

/-- Major 0x2E: tokens and sequencer barriers, of which each stream has its own form. -/
theorem readsBack_tokens :
    (∀ t a, ReadsBack (.tokGive t a)) ∧ (∀ t, ReadsBack (.tokTake t)) ∧ (∀ b, ReadsBack (.seqBar b)) ∧ ∀ b a, ReadsBack (.seqBarMatrix b a) := by
  and_intros <;> intros
  · exact readsBack_of_uniWord rfl rfl rfl rfl (by omega) (by simp [cand2E])
  · exact readsBack_of_uniWord rfl rfl rfl rfl (by omega) (by simp [cand2E])
  · exact readsBack_of_uniWord (st := .lane) rfl rfl rfl rfl (by omega) (by simp [cand2E])
  · exact readsBack_of_uniWord (st := .matrix) rfl rfl rfl rfl (by omega) (by simp [cand2E])

/-- Major 0x2F: tile access and planes. -/
theorem readsBack_tiles :
    (∀ d t b, ReadsBack (.accLd d t b)) ∧ (∀ d t b, ReadsBack (.accSt d t b)) ∧ (∀ d a b, ReadsBack (.planePack d a b)) ∧
    ∀ d a b, ReadsBack (.planeUnpack d a b) := by
  and_intros <;> intros <;> exact readsBack_of_laneWord rfl rfl rfl rfl (by omega) (by simp [cand2F])

/-- Major 0x30: beams. -/
theorem readsBack_beams :
    ReadsBack .bpoolInit ∧ (∀ d a, ReadsBack (.beamMake d a)) ∧ (∀ d a s, ReadsBack (.beamCast d a s)) ∧ (∀ d a s, ReadsBack (.beamNext d a s)) ∧
    (∀ d a, ReadsBack (.beamFree d a)) ∧ ∀ d a, ReadsBack (.beamStat d a) := by
  and_intros <;> intros <;> exact readsBack_of_laneWord rfl rfl rfl rfl (by omega) (by simp [cand30])

/-- Major 0x31: rays. -/
theorem readsBack_rays :
    (∀ d a s, ReadsBack (.rayCast d a s)) ∧ (∀ d a s, ReadsBack (.rayNext d a s)) ∧ ∀ d a s, ReadsBack (.rayResume d a s) := by
  and_intros <;> intros <;> exact readsBack_of_laneWord rfl rfl rfl rfl (by omega) (by simp [cand31])

/-- Major 0x32: textures. -/
theorem readsBack_textures :
    (∀ d a b, ReadsBack (.texSamp d a b)) ∧ (∀ d a b, ReadsBack (.texFoot d a b)) ∧ ∀ d a b, ReadsBack (.texLod d a b) := by
  and_intros <;> intros <;> exact readsBack_of_laneWord rfl rfl rfl rfl (by omega) (by simp [cand32])

/-- Major 0x33: raster. -/
theorem readsBack_raster : (∀ d a s, ReadsBack (.rastTri d a s)) ∧ ∀ d a s, ReadsBack (.rastNext d a s) := by
  and_intros <;> intros <;> exact readsBack_of_laneWord rfl rfl rfl rfl (by omega) (by simp [cand33])

/-- Major 0x34: levels, time and counters. -/
theorem readsBack_levels :
    (∀ d a, ReadsBack (.plvl d a)) ∧ (∀ d, ReadsBack (.plvlRd d)) ∧ (∀ d, ReadsBack (.time d)) ∧ (∀ d, ReadsBack (.cyc d)) ∧
    (∀ d a, ReadsBack (.dline d a)) ∧ ∀ d a, ReadsBack (.cntRd d a) := by
  and_intros <;> intros <;> exact readsBack_of_uniWord rfl rfl rfl rfl (by omega) (by simp [cand34])

/-- Major 0x35: system registers. -/
theorem readsBack_systemRegisters :
    (∀ d a n, ReadsBack (.sysRd d a n)) ∧ (∀ d a n, ReadsBack (.sysWr d a n)) ∧ ∀ d a e, ReadsBack (.almSet d a e) := by
  and_intros <;> intros <;> exact readsBack_of_uniWord rfl rfl rfl rfl (by omega) (by simp (disch := omega) [cand35, ↓opcode_mod, ↓opcode_div])

/-- Major 0x36: the package. -/
theorem readsBack_package :
    (∀ d a, ReadsBack (.yoke d a)) ∧ (∀ d a, ReadsBack (.modeStacks d a)) ∧ (∀ d a, ReadsBack (.mclkSw d a)) ∧ ∀ d a, ReadsBack (.repStat d a) := by
  and_intros <;> intros <;> exact readsBack_of_uniWord rfl rfl rfl rfl (by omega) (by simp [cand36])

/-- Major 0x37: debug. -/
theorem readsBack_debug :
    (∀ d a n, ReadsBack (.wpSet d a n)) ∧ (∀ d a n, ReadsBack (.wpClr d a n)) ∧ (∀ d a, ReadsBack (.dbgHalt d a)) ∧
    (∀ d a, ReadsBack (.dbgRes d a)) ∧ (∀ d a, ReadsBack (.dbgStep d a)) ∧ (∀ d a, ReadsBack (.dbgRdv d a)) ∧ (∀ d a, ReadsBack (.dbgWrv d a)) ∧
    (∀ d a, ReadsBack (.dbgPaths d a)) ∧ (∀ d a, ReadsBack (.trcOn d a)) ∧ (∀ d a, ReadsBack (.trcOff d a)) ∧ ∀ a, ReadsBack (.trcMark a) := by
  and_intros <;> intros <;> exact readsBack_of_uniWord rfl rfl rfl rfl (by omega) (by simp [cand37])

/-! ### Every instruction is read back -/

theorem readsBack_of_no_word {i : Instr} (h : encodeOwner i = none) : ReadsBack i := fun _ hw => nomatch h.symm.trans hw

/-- Every instruction's word is read back; an event has none. -/
theorem readsBack (i : Instr) : ReadsBack i := by
  cases i
  all_goals try exact readsBack_of_no_word rfl
  all_goals simp only [readsBack_bra_call, readsBack_brp, readsBack_control, readsBack_evArm, readsBack_events, readsBack_trapRet, readsBack_preMask,
    readsBack_traps, readsBack_laneArithmetic, readsBack_laneLogic, readsBack_laneImmediates, readsBack_movi, readsBack_icmp, readsBack_lscan,
    readsBack_laneScans, readsBack_sel, readsBack_movs, readsBack_laneMoves, readsBack_laneVotes, readsBack_icmpU, readsBack_movsU,
    readsBack_uniformAlu, readsBack_uniformImmediates, readsBack_moviU, readsBack_rounded, readsBack_floatArithmetic, readsBack_fcmp,
    readsBack_floatPairs, readsBack_specialFunctions, readsBack_cvt, readsBack_quantisation, readsBack_ld, readsBack_st, readsBack_atomics,
    readsBack_commons, readsBack_mwait, readsBack_fences, readsBack_translation, readsBack_copies, readsBack_streams, readsBack_tasks,
    readsBack_groupBarriers, readsBack_mm, readsBack_mmSp, readsBack_matrixMoves, readsBack_loops, readsBack_tokens, readsBack_tiles, readsBack_beams,
    readsBack_rays, readsBack_textures, readsBack_raster, readsBack_levels, readsBack_systemRegisters, readsBack_package, readsBack_debug]

/-! ### The checks of a word (02_encoding R41) -/

theorem matrixBranchOk_streamOf (i : Instr) : matrixBranchOk (streamOf i) i = true := by cases i <;> rfl

/-- The word of a well-formed instruction passes the checks. -/
theorem decodeWord_encodeOwner {i : Instr} {w : BitVec 32} (hwf : i.wf = true) (hw : encodeOwner i = some w) :
    decodeWord (streamOf i) true w (payload i) = .ok i := by
  obtain ⟨hlt, hr, hs, hc⟩ := readsBack i w hw
  have h0 : w ≠ 0 := by
    rintro rfl
    exact absurd hr (by decide)
  have hn : w.toNat % 2 ^ 31 = w.toNat := Nat.mod_eq_of_lt hlt
  have hb : w.toNat / 2 ^ 31 = 0 := Nat.div_eq_of_lt hlt
  simp only [decodeWord, hn, hb, h0, hr, hs, hc, hwf, hw, matrixBranchOk_streamOf]
  simp

/-- What decodes is well-formed, and its own word is the decoded one but for the chain bit. -/
theorem wf_and_encodeOwner_of_decodeWord {st : Stream} {priv : Bool} {w : BitVec 32} {x : Option Nat} {i : Instr} (h : decodeWord st priv w x = .ok i) :
    i.wf = true ∧ encodeOwner i = some (.ofNat 32 (w.toNat % 2 ^ 31)) := by
  simp only [decodeWord] at h
  iterate 6
    split at h
    · cases h
  split at h
  · rename_i hok
    obtain rfl := Except.ok.inj h
    simp only [Bool.and_eq_true, beq_iff_eq] at hok
    obtain ⟨⟨hwf, -⟩, hw⟩ := hok
    exact ⟨hwf, hw⟩
  · cases h

/-! ### Extension words (02_encoding R32) -/

theorem major_laneWord {m d a k : Nat} (h : m < 64 ∧ d < 128 ∧ a < 128 ∧ k < 2048) : fld (laneWord m d a k).toNat 25 6 = m := by
  obtain ⟨hm, hd, ha, hk⟩ := h
  exact (fields_laneWord hm hd ha hk).2.1

theorem major_uniWord {m d a k : Nat} (h : m < 64 ∧ d < 64 ∧ a < 64 ∧ k < 8192) : fld (uniWord m d a k).toNat 25 6 = m := by
  obtain ⟨hm, hd, ha, hk⟩ := h
  exact (fields_uniWord hm hd ha hk).2.1

/-- An instruction with an extension word has an immediate that the payload completes, and a major that owns such words. -/
theorem owner_of_encodeExt {i : Instr} {w e : BitVec 32} (hw : encodeOwner i = some w) (he : encodeExt i = some e) :
    (∃ v : Imm 8, v.extWord (2 ^ 8) = some e ∧ fld w.toNat 25 6 ∈ [8, 24, 25]) ∨
      ∃ v : Imm 10, v.extWord (2 ^ 10) = some e ∧ fld w.toNat 25 6 = 13 := by
  cases i
  case iaddImm d a v | andImm d a v | orImm d a v | xorImm d a v | shlImm d a v | shrImm d a v | sarImm d a v | movi d v =>
    have := v.low_lt
    obtain rfl := Option.some.inj hw
    exact .inl ⟨v, he, by rw [major_laneWord (by omega)]; decide⟩
  case iaddUimm d a v | andUimm d a v | orUimm d a v | xorUimm d a v | shlUimm d a v | shrUimm d a v | sarUimm d a v | moviU d v =>
    have := v.low_lt
    obtain rfl := Option.some.inj hw
    exact .inr ⟨v, he, major_uniWord (by omega)⟩
  case ld d a v z | st d a v z =>
    have := v.low_lt
    have := z.code_lt
    obtain rfl := Option.some.inj hw
    exact .inl ⟨v, he, by rw [major_laneWord (by omega)]; decide⟩
  all_goals cases he

theorem not_extReserved {m x : Nat} (h : x < 2 ^ 22 ∨ m ≠ 13 ∧ x < 2 ^ 24) : extReserved m x = false := by
  unfold extReserved
  split
  · simp_all
  · simp
    omega

/-- The extension word of an instruction is one that its owner can own, and its payload has no reserved bit. -/
theorem encodeExt_owned {i : Instr} {w e : BitVec 32} (hw : encodeOwner i = some w) (he : encodeExt i = some e) :
    canOwnExt (fld w.toNat 25 6) = true ∧ e.toNat / 2 ^ 25 = 0x3F ∧ extReserved (fld w.toNat 25 6) (e.toNat % 2 ^ 25) = false := by
  obtain ⟨v, hv, hm⟩ | ⟨v, hv, hm⟩ := owner_of_encodeExt hw he
  · obtain ⟨x, -, hmaj, hx⟩ := Imm.fields_extWord (by decide) hv
    simp only [List.mem_cons, List.not_mem_nil, or_false] at hm
    refine ⟨?_, hmaj, not_extReserved (by omega)⟩
    obtain hm | hm | hm := hm <;> rw [hm] <;> rfl
  · obtain ⟨x, -, hmaj, hx⟩ := Imm.fields_extWord (by decide) hv
    exact ⟨by rw [hm]; rfl, hmaj, not_extReserved (by omega)⟩

/-- Decoding reads back what encoding wrote. -/
theorem decodeWords_encode {i : Instr} (hwf : i.wf = true) (hne : encode i ≠ []) : decodeWords (streamOf i) (encode i) = .ok i := by
  cases hw : encodeOwner i with
  | none => simp [encode, hw] at hne
  | some w =>
    have hd := decodeWord_encodeOwner hwf hw
    cases he : encodeExt i with
    | none => simpa [encode, hw, he, decodeWords, payload] using hd
    | some e =>
      obtain ⟨hown, hmaj, hres⟩ := encodeExt_owned hw he
      simp only [payload, he, Option.map_some] at hd
      simp only [encode, hw, he, Option.toList_some, decodeWords, hown, hmaj, hres, hd, beq_self_eq_true, Bool.and_self, Bool.not_false, if_true]

/-- Settles O57: encoding is read back major by major (`readsBack`), and the checks of a word ask that the encoder gives it back. -/
theorem decodeEncode : Obligations.DecodeEncode := by
  unfold Obligations.DecodeEncode
  refine ⟨fun i => decodeWords_encode, fun st priv w x i h => ?_⟩
  obtain ⟨hwf, hw⟩ := wf_and_encodeOwner_of_decodeWord h
  refine ⟨hwf, _, hw, ?_⟩
  rw [BitVec.toNat_ofNat, Nat.mod_eq_of_lt (by omega)]

end Sys2Proof

/-! ## Words of the spec -/

namespace Sys2Proof

/-- Settles O56: each word is a closed one, read by evaluating the decoder's table on it. -/
theorem sampleWords : Obligations.SampleWords := by
  unfold Obligations.SampleWords
  refine ⟨by decide, rfl, rfl, rfl, rfl, rfl, rfl⟩

end Sys2Proof

/-! One step (02_encoding R36 to R41; 05_events R126; 13_matrix R289; 16_stack R360). -/

namespace Sys2Proof.Machine

/-! ### Every meaning answers a next state (log 10) -/

theorem exec_next (i : Instr) (s : State) : ∃ t, exec i s = .next t := by
  cases i <;> exact ⟨_, rfl⟩

@[simp] theorem mapNext_next (f : State → State) (s : State) : mapNext f (.next s) = .next (f s) := rfl

theorem mapNext_goes {f : State → State} {o : Out} (h : ∃ t, o = .next t) : ∃ t, mapNext f o = .next t := by
  obtain ⟨t, rfl⟩ := h
  exact ⟨f t, rfl⟩

/-- A group issues to a next state. -/
theorem issueGroup_next (ws : List PWord) (s : State) : ∃ t, s.issueGroup exec ws = .next t := by
  unfold State.issueGroup
  dsimp only
  split
  · exact ⟨_, rfl⟩
  · exact mapNext_goes (mapNext_goes (exec_next _ _))
  · exact ⟨_, rfl⟩

/-- A path issues to a next state, or it has no lane or is not READY. -/
theorem issueLane_next_or_fault (s : State) : (∃ t, s.issueLane exec = .next t) ∨ s.issueLane exec = .fault .noIssuer := by
  unfold State.issueLane
  split
  · exact .inr rfl
  · refine .inl ?_
    split
    · exact ⟨_, rfl⟩
    · split
      · exact ⟨_, rfl⟩
      · exact issueGroup_next _ _

theorem issueWord_next (ws : List PWord) (s : State) : ∃ t, s.issueWord exec ws = .next t := by
  unfold State.issueWord
  dsimp only
  split
  · exact ⟨_, rfl⟩
  · exact mapNext_goes (exec_next _ _)

/-- A sequencer issues to a next state, or it is not running. -/
theorem issueSeq_next_or_fault (s : State) : (∃ t, s.issueSeq exec = .next t) ∨ s.issueSeq exec = .fault .noIssuer := by
  unfold State.issueSeq
  dsimp only
  split
  · exact .inr rfl
  · refine .inl ?_
    split
    · exact ⟨_, rfl⟩
    · split
      · exact ⟨_, rfl⟩
      · exact issueWord_next _ _

theorem act1_next (s : State) (c : Choice) : ∃ t, s.act1 exec c = .next t := by
  cases c with
  | event i => exact exec_next i s
  | word gid => exact ⟨_, rfl⟩
  | host h ks => exact ⟨_, rfl⟩

theorem auto_next (s : State) : ∃ t, s.auto exec = .next t := by
  unfold State.auto
  dsimp only
  split
  · exact act1_next _ _
  · exact ⟨_, rfl⟩

theorem orHeld_next {s h : State} {o : Out} (ho : ∃ t, o = .next t) : ∃ t, s.orHeld h o = .next t := mapNext_goes ho

/-- What is due by itself, or comes in, leads to a next state. -/
theorem advance1_next_of_idle {s : State} (h : s.issue = .none) : ∃ t, s.advance1 exec = .next t := by
  unfold State.advance1
  rw [h]
  dsimp only
  split
  · exact orHeld_next (exec_next _ _)
  · split
    · split
      · exact orHeld_next (exec_next _ _)
      · exact ⟨_, rfl⟩
    · exact orHeld_next (auto_next _)

/-- A step stops only where something that issues nothing is in focus. -/
theorem step_next_or_fault (s : State) : (∃ t, step s = .next t) ∨ (step s = .fault .noIssuer ∧ s.issue ≠ .none) := by
  cases hi : s.issue with
  | none => exact .inl (mapNext_goes (advance1_next_of_idle hi))
  | lane =>
    have hs : step s = mapNext State.advance (s.aged.issueLane exec) := by rw [step, State.advance1, hi]
    rw [hs]
    obtain h | h := issueLane_next_or_fault s.aged
    · exact .inl (mapNext_goes h)
    · exact .inr ⟨by rw [h]; rfl, by simp⟩
  | seq =>
    have hs : step s = mapNext State.advance (s.aged.issueSeq exec) := by rw [step, State.advance1, hi]
    rw [hs]
    obtain h | h := issueSeq_next_or_fault s.aged
    · exact .inl (mapNext_goes h)
    · exact .inr ⟨by rw [h]; rfl, by simp⟩

/-! ### The words of a checked packet (R41) -/

/-- A word of a packet is what decodes at its position. -/
def Decodes (st : Stream) (priv : Bool) (packet : List (BitVec 32)) (w : PWord) : Prop :=
  ∃ v x, packet[w.pos]? = some v ∧ decodeWord st priv v x = .ok w.i

/-- The check gives words that decode at their positions, where those before position `k` do. -/
theorem decodes_of_checkWords {st : Stream} {priv : Bool} {n : Nat} {packet : List (BitVec 32)} (rest : List (BitVec 32)) :
    ∀ {k : Nat} {acc ws : List PWord}, packet.drop k = rest → (∀ w ∈ acc, Decodes st priv packet w) →
      checkWords st priv n k acc rest = .ok ws → ∀ w ∈ ws, Decodes st priv packet w := by
  induction rest with
  | nil =>
    intro k acc ws _ hacc h
    obtain rfl := Except.ok.inj h
    simpa using hacc
  | cons v rest ih =>
    intro k acc ws hk hacc h
    have hrest : packet.drop (k + 1) = rest := by rw [← List.tail_drop, hk, List.tail_cons]
    have hv : packet[k]? = some v := by rw [← List.head?_drop, hk, List.head?_cons]
    unfold checkWords at h
    split at h
    · -- an extension word: its owner's position and instruction stand
      split at h
      · cases h
      split at h
      case h_2 => cases h
      case h_1 o before =>
        split at h
        case isFalse => split at h <;> cases h
        split at h
        · cases h
        split at h
        · cases h
        refine ih hrest (fun w hw => ?_) h
        obtain rfl | hw := List.mem_cons.mp hw
        · exact hacc o List.mem_cons_self
        · exact hacc w (List.mem_cons_of_mem _ hw)
    · split at h
      · cases h
      next i hi =>
        dsimp only at h
        split at h
        · cases h
        split at h
        · cases h
        refine ih hrest (fun w hw => ?_) h
        obtain rfl | hw := List.mem_cons.mp hw
        · exact ⟨v, _, hv, hi⟩
        · exact hacc w hw

/-- The words of a checked packet stand at its three positions and decode there. -/
theorem decodes_of_check {l : ILine} {st : Stream} {priv : Bool} {n : Nat} {ws : List PWord} (h : l.check st priv n = .ok ws) {w : PWord} (hw : w ∈ ws) :
    w.pos < 3 ∧ Decodes st priv [l.w0, l.w1, l.w2] w := by
  have hd := decodes_of_checkWords [l.w0, l.w1, l.w2] (packet := [l.w0, l.w1, l.w2]) rfl (by simp) h w hw
  obtain ⟨v, x, hv, hi⟩ := hd
  exact ⟨(List.getElem?_eq_some_iff.mp hv).1, v, x, hv, hi⟩

/-! ### Changes to the cores of the gang in focus -/

/-- What is changed on the cores of the gang in focus changes nothing else. -/
theorem onCores_eq (s : State) (f : Core → Core) : s.onCores f = { s with cores := (s.onCores f).cores } := by
  unfold State.onCores coresFor
  cases s.gang.yoked <;> rfl

/-- The cores that change are the gang's own and, where it is yoked, the other of its pair. -/
theorem onCores_core (s : State) (f : Core → Core) (c : Nat) :
    (s.onCores f).core c = if c = s.coreNo ∨ (s.gang.yoked = true ∧ c = s.coreNo + 16) then f (s.core c) else s.core c := by
  unfold State.onCores coresFor
  cases hy : s.gang.yoked with
  | false =>
    suffices (if c = s.coreNo then f (s.core s.coreNo) else s.core c) = if c = s.coreNo then f (s.core c) else s.core c by simpa
    split
    · next h => rw [h]
    · rfl
  | true =>
    suffices (if c = s.coreNo + 16 then f (s.core (s.coreNo + 16)) else if c = s.coreNo then f (s.core s.coreNo) else s.core c) =
        if c = s.coreNo ∨ c = s.coreNo + 16 then f (s.core c) else s.core c by simpa
    by_cases h16 : c = s.coreNo + 16
    · simp [h16]
    · by_cases h : c = s.coreNo <;> simp [h16, h]

/-- The note of an issue stands on the cores of the gang in focus (15_power R342). -/
theorem noteMade_spec (s : State) (m : Made) :
    s.noteMade m = { s with cores := (s.noteMade m).cores } ∧ ∀ c, (s.noteMade m).core c =
      if c = s.coreNo ∨ (s.gang.yoked = true ∧ c = s.coreNo + 16) then { s.core c with made := (s.core c).made ++ [{ m with cyc := (s.core c).cyc.toNat }] } else s.core c :=
  ⟨onCores_eq _ _, onCores_core _ _⟩

/-- The note of an issue looks at no path. -/
theorem noteMade_setCur (s : State) (m : Made) (p : Path) : (s.setCur p).noteMade m = (s.noteMade m).setCur p := by
  have h : ∀ u : State, u.noteMade m = { u with cores := (u.noteMade m).cores } := fun u => (noteMade_spec u m).1
  have hc : ((s.setCur p).noteMade m).cores = (s.noteMade m).cores := by
    unfold State.noteMade State.onCores coresFor
    cases hy : s.gang.yoked <;> simp [State.setCur, hy] <;> rfl
  rw [h (s.setCur p), h s, hc]
  rfl

/-! ### Ageing (03_tasks R81) -/

/-- Where a path issues, its own warp does not age: the ages of the other warps are all that changes. -/
theorem aged_of_lane {s : State} (h : s.issue = .lane) : s.aged = { s with warps := s.aged.warps } := by
  unfold State.aged State.mapWarps
  dsimp only
  congr 1
  split
  · rfl
  · simp [h]

/-- Ageing changes nothing but warps. -/
theorem aged_eq (s : State) : s.aged = { s with me := s.aged.me, warps := s.aged.warps } := rfl

/-! ### A group of one word, run in the lanes of a path -/

/-- The path that a word leaves which was alone in the group of path `p`: after a trap it keeps its replay unless a handler took it, a parked one stays as it is,
and any other has nothing of a replay left. -/
def leftPath (p : Path) (trapped : Bool) (q : Path) : Path :=
  if trapped = true then (if q.hmode = p.hmode then { q with replay := p.replay, snap := p.snap, whole := p.whole, phase := p.phase, after := p.after } else q)
  else match q.st with
    | .parked _ => q
    | _ => { q with replay := none, snap := none, phase := 0, after := none }

theorem leftPath_id (p : Path) (trapped : Bool) (q : Path) : (leftPath p trapped q).id = q.id := by
  unfold leftPath
  split <;> split <;> rfl

theorem leftPath_hmode (p : Path) (trapped : Bool) (q : Path) : (leftPath p trapped q).hmode = q.hmode := by
  unfold leftPath
  split <;> split <;> rfl

theorem leftPath_st (p : Path) (trapped : Bool) (q : Path) : (leftPath p trapped q).st = q.st := by
  unfold leftPath
  split <;> split <;> rfl

theorem takeStops_of_nil {s : State} (h : s.me.stops = []) : s.takeStops = s := by
  have hs : ({ s with me := { s.me with stops := [] } } : State) = s := by rw [← h]
  rw [State.takeStops, h]
  exact hs

theorem wordHits_of_unwatched {s : State} (h : (s.core s.coreNo).wps = []) (w : PWord) (active m : BitVec 32) : s.wordHits w active m = [] := by
  rw [State.wordHits, State.matches, if_pos h, List.filter_nil]

/-- Without watch predicates and stops, only the path in focus changes after a word that is alone in its group. -/
theorem afterSingle_eq {s u : State} {w : PWord} (hw : (u.core u.coreNo).wps = []) (hs : u.me.stops = []) :
    s.afterSingle w u = u.setCur (leftPath s.me.cur u.here.trapped u.me.cur) := by
  have unwatched : u.wordHits w s.me.cur.mask allLanes = [] := wordHits_of_unwatched hw _ _ _
  have unwatched' : u.unreplay.wordHits w s.me.cur.mask allLanes = [] := wordHits_of_unwatched (s := u.unreplay) hw _ _ _
  have looked : ∀ q : Path, ((u.setCur q).watched s.me.cur.id s.here.pc s.here.wpos []).takeStops = u.setCur q := fun q => takeStops_of_nil hs
  unfold State.afterSingle leftPath
  cases ht : u.here.trapped with
  | true =>
    unfold State.afterTrap
    by_cases hm : u.me.cur.hmode = s.me.cur.hmode
    · simp [hm]
    · simp [hm]; rfl
  | false =>
    cases hq : u.me.cur.st with
    | parked k =>
      simp only [unwatched]
      exact looked u.me.cur
    | ready | join | held | stopped =>
      simp only [unwatched']
      rw [← hq]
      exact looked { u.me.cur with replay := none, snap := none, phase := 0, after := none }

/-- The state in which the word `w` runs that is alone in its group: the path is at the place after it, and its issue is charged. -/
def State.wordRun (s : State) (ws : List PWord) (w : PWord) : State :=
  (((s.at_ (placeAfter s.me.cur.pc ws [w])).beginGroup [w]).wordHere w).stepOver

/-- The path in focus when its word runs alone. -/
def runPath (s : State) (n : Place) : Path :=
  let p := s.me.cur
  { p with pc := n.1, wpos := n.2, issued := s.point, groups := p.groups + if p.phase = 0 then 1 else 0
           whole := if p.replay = none then p.mask else p.whole, rpos := if p.replay = none then none else p.rpos
           step := if p.step = 1 then 2 else p.step }

theorem wordRun_eq (s : State) (ws : List PWord) (w : PWord) :
    s.wordRun ws w = { s with
      here := { pc := s.me.cur.pc, wpos := s.me.cur.wpos, word := w.pos, npc := (placeAfter s.me.cur.pc ws [w]).1, nwpos := (placeAfter s.me.cur.pc ws [w]).2
                gid := s.me.gid, w := s.me.w }
      cores := (s.wordRun ws w).cores
      me := { s.me with obs := {}, issued := s.point, age := 0, cur := runPath s (placeAfter s.me.cur.pc ws [w]) } } := by
  unfold State.wordRun State.beginGroup runPath
  dsimp only
  rw [onCores_eq]
  simp only [Option.isNone_iff_eq_none]
  rfl

/-- Of the path that a word was issued from, the word leaves what `leftPath` keeps, but for the lanes of the whole group. -/
theorem leftPath_wordRun (s : State) (ws : List PWord) (w : PWord) (trapped : Bool) (q : Path) :
    leftPath (s.wordRun ws w).me.cur trapped q = leftPath { s.me.cur with whole := (s.wordRun ws w).me.cur.whole } trapped q := by
  rw [wordRun_eq]
  rfl

/-- What the issue of a group charges a core (R80). -/
def chargedCore (s : State) (g : List PWord) (x : Core) : Core :=
  let k := trackUse s.me.track s.gang.alm
  if s.me.halted then x else { x with used := smPut 0 x.used k (smGet 0 x.used k + (groupCycles g).1) }

theorem chargedCore_eq (s : State) (g : List PWord) (x : Core) : chargedCore s g x = { x with used := (chargedCore s g x).used } := by
  unfold chargedCore
  split <;> rfl

theorem wordRun_cores (s : State) (ws : List PWord) (w : PWord) : (s.wordRun ws w).cores = (s.onCores (chargedCore s [w])).cores := by
  unfold State.onCores coresFor
  cases hy : s.gang.yoked <;> simp [State.wordRun, State.at_, State.beginGroup, State.onCores, coresFor, hy] <;> rfl

/-- The issue of a word changes the charges of cores alone. -/
theorem wordRun_core (s : State) (ws : List PWord) (w : PWord) (c : Nat) :
    (s.wordRun ws w).core c = { s.core c with used := ((s.wordRun ws w).core c).used } := by
  have hcore : (s.wordRun ws w).core c = (s.onCores (chargedCore s [w])).core c := by rw [State.core, wordRun_cores]; rfl
  rw [hcore, onCores_core]
  split
  · exact chargedCore_eq _ _ _
  · rfl

/-- A group of one word runs it, where no predicate watches and nothing is to be stopped. -/
theorem issueGroup_of_single {s u : State} {ws : List PWord} {w : PWord} (hg : groupAt ws s.me.cur.wpos = [w]) (hx : exec w.i (s.wordRun ws w) = .next u)
    (hw : (u.core u.coreNo).wps = []) (hs : u.me.stops = []) :
    s.issueGroup exec ws = .next (s.settled [w] (u.setCur (leftPath (s.wordRun ws w).me.cur u.here.trapped u.me.cur))) := by
  have hrun : ((s.at_ (placeAfter s.me.cur.pc ws [w])).beginGroup [w]).runSingle exec w =
      .next (u.setCur (leftPath (s.wordRun ws w).me.cur u.here.trapped u.me.cur)) := by
    rw [← afterSingle_eq hw hs]
    exact congrArg (mapNext _) hx
  rw [State.issueGroup, hg]
  dsimp only
  rw [hrun, mapNext_next]

theorem issueLane_of_line {s : State} {l : ILine} {ws : List PWord} (hm : s.me.cur.mask ≠ 0) (hst : s.me.cur.st = .ready)
    (hl : s.lineFor s.gang.asid s.me.cur.pc s.me.cur.fenced = some l) (hc : l.check .lane s.priv s.gang.regsN = .ok ws) :
    s.issueLane exec = s.issueGroup exec ws := by
  rw [State.issueLane, if_neg (by simpa [hst] using hm), hl]
  dsimp only
  rw [hc]

/-! ### What the issue of a word leaves -/

/-- A path whose group did not issue after all: the group does not count, nor does a debugger's step (17_debug R379). -/
def recountedPath (p : Path) (trapped parked : Bool) (q : Path) : Path :=
  if q.id = p.id ∧ (trapped = true ∨ parked = true) then
    { q with groups := if q.phase = 0 then q.groups - 1 else q.groups, step := if trapped = true ∧ q.hmode = p.hmode then p.step else q.step } else q

theorem recount_eq (s : State) (p : Path) : s.recount p = s.setCur (recountedPath p s.here.trapped s.isParked s.me.cur) := by
  simp only [State.recount, recountedPath, Bool.and_eq_true, Bool.or_eq_true, decide_eq_true_eq, beq_iff_eq]
  split <;> rfl

theorem isParked_setCur (s : State) {p : Path} (h : p.st = s.me.cur.st) : (s.setCur p).isParked = s.isParked := by
  show (match p.st with | .parked _ => true | _ => false) = _
  rw [h]
  rfl

/-- The group does not issue yet: it is to be tried again, or traps before an earlier group has retired, or the window of the memory clock holds it. -/
def Waits (s u : State) : Prop :=
  u.here.retry = true ∨ (u.here.trapped = true ∧ s.unretired s.me s.me.cur = true) ∨ s.windowStops u = true ∨ (s.windowMiss = true ∧ u.isParked = true)

theorem settled_of_waits {s u : State} (g : List PWord) (h : Waits s u) : s.settled g u = s.retired := by
  refine if_pos ?_
  simpa [Waits, or_assoc] using h

theorem settled_of_not_waits {s u : State} (g : List PWord) (h : ¬ Waits s u) :
    s.settled g u = ((u.noteMade (s.madeBy g u.here.trapped)).recount s.me.cur).retired := by
  refine if_neg ?_
  simpa [Waits, or_assoc] using h

/-- A path left in the same state waits, or does not, as before. -/
theorem waits_setCur {s u : State} {q : Path} (h : q.st = u.me.cur.st) : Waits s (u.setCur q) ↔ Waits s u := by
  unfold Waits
  rw [isParked_setCur u h]
  rfl

theorem recountedPath_leftPath (p P : Path) (trapped parked : Bool) (q : Path) :
    recountedPath p trapped parked (leftPath P trapped q) =
      if q.id = p.id ∧ (trapped = true ∨ parked = true) then
        { leftPath P trapped q with
          groups := if (leftPath P trapped q).phase = 0 then (leftPath P trapped q).groups - 1 else (leftPath P trapped q).groups
          step := if trapped = true ∧ q.hmode = p.hmode then p.step else (leftPath P trapped q).step }
      else leftPath P trapped q := by
  simp only [recountedPath, leftPath_id, leftPath_hmode]

theorem madeBy_single (s : State) (w : PWord) (trapped : Bool) :
    s.madeBy [w] trapped = { slow := (groupCycles [w]).2 / 32, mask := if trapped = true then 0 else s.memMask, uni := !trapped && w.pipe == .uniform } := by
  simp [State.madeBy]

/-- What a group of one word leaves where it issues. -/
theorem settled_left {s u : State} (p : Path) (w : PWord) (h : ¬ Waits s u) :
    s.settled [w] (u.setCur (leftPath p u.here.trapped u.me.cur)) =
      ((u.noteMade (s.madeBy [w] u.here.trapped)).setCur (recountedPath s.me.cur u.here.trapped u.isParked (leftPath p u.here.trapped u.me.cur))).retired := by
  have hst := leftPath_st p u.here.trapped u.me.cur
  have hn := (noteMade_spec u (s.madeBy [w] u.here.trapped)).1
  have hu : (u.setCur (leftPath p u.here.trapped u.me.cur)).here = u.here := rfl
  rw [settled_of_not_waits [w] (mt (waits_setCur hst).mp h), recount_eq, noteMade_setCur, hu, isParked_setCur _ (by rw [hst, hn]), hn]
  rfl

/-- A step that issues from a path with one word in its group. -/
theorem step_of_single {s u : State} {l : ILine} {ws : List PWord} {w : PWord} (hi : s.issue = .lane) (hm : s.me.cur.mask ≠ 0) (hst : s.me.cur.st = .ready)
    (hl : s.lineFor s.gang.asid s.me.cur.pc s.me.cur.fenced = some l) (hc : l.check .lane s.priv s.gang.regsN = .ok ws) (hg : groupAt ws s.me.cur.wpos = [w])
    (hx : exec w.i (s.aged.wordRun ws w) = .next u) (hw : (u.core u.coreNo).wps = []) (hs : u.me.stops = []) :
    step s = .next (s.aged.settled [w] (u.setCur (leftPath (s.aged.wordRun ws w).me.cur u.here.trapped u.me.cur))).advance := by
  have ha : s.aged.issueLane exec = s.aged.issueGroup exec ws := by
    rw [aged_of_lane hi]
    exact issueLane_of_line hm hst hl hc
  have hg' : groupAt ws s.aged.me.cur.wpos = [w] := by rwa [aged_of_lane hi]
  rw [step, State.advance1, hi]
  dsimp only
  rw [ha, issueGroup_of_single hg' hx hw hs, mapNext_next]

/-! ### A word of a sequencer (13_matrix R289) -/

/-- The state in which a sequencer's word runs. -/
def State.seqRun (s : State) (ws : List PWord) (w : PWord) : State :=
  let q := s.gang.seq
  let n := placeAfter q.pc ws [w]
  { s with here := { pc := q.pc, wpos := q.wpos, word := w.pos, npc := n.1, nwpos := n.2 }
           gang := { s.gang with seq := { q with pc := n.1, wpos := n.2, lead := false } } }

theorem issueSeq_of_word {s u : State} {l : ILine} {ws : List PWord} {w : PWord} (hst : s.gang.seq.st = .running)
    (hl : s.lineFor s.gang.asid s.gang.seq.pc 0 = some l) (hc : l.check .matrix s.priv s.gang.regsN = .ok ws)
    (hw : ws.find? (fun x => decide (s.gang.seq.wpos ≤ x.pos)) = some w) (hx : exec w.i (s.seqRun ws w) = .next u) :
    s.issueSeq exec = .next (if s.windowStops u = true then s.retired else (u.noteMade { uni := w.pipe == .uniform }).retired) := by
  rw [State.issueSeq, if_neg (not_not.mpr hst), hl]
  dsimp only
  rw [hc]
  dsimp only
  rw [State.issueWord, hw]
  exact congrArg (mapNext _) hx

/-- A step that issues from a sequencer. -/
theorem step_of_seq_word {s u : State} {l : ILine} {ws : List PWord} {w : PWord} (hi : s.issue = .seq) (hst : s.gang.seq.st = .running)
    (hl : s.lineFor s.gang.asid s.gang.seq.pc 0 = some l) (hc : l.check .matrix s.priv s.gang.regsN = .ok ws)
    (hw : ws.find? (fun x => decide (s.gang.seq.wpos ≤ x.pos)) = some w) (hx : exec w.i (s.aged.seqRun ws w) = .next u) :
    step s = .next (if s.windowStops u = true then s.aged else u.noteMade { uni := w.pipe == .uniform }).retired.advance := by
  have ha := issueSeq_of_word (s := s.aged) hst hl hc hw hx
  rw [step, State.advance1, hi]
  dsimp only
  rw [ha, mapNext_next, ← apply_ite State.retired]
  rfl

/-! ### The first event of the agenda (log 4) -/

theorem step_of_agenda {s u : State} {i : Instr} {is : List Instr} (hi : s.issue = .none) (he : s.sys.effs = []) (ha : s.agenda = i :: is)
    (hn : encodeOwner i = none) (hx : exec i { s.scored.aged with agenda := is } = .next u) :
    step s = .next (if s.windowStops u = true then s.scored.aged else u).advance := by
  have he' : s.scored.aged.sys.effs = [] := he
  have ha' : s.scored.aged.agenda = i :: is := ha
  have hev : isEvent i = true := by rw [isEvent, hn, Option.isNone_none]
  rw [step, State.advance1, hi]
  dsimp only
  rw [he', ha']
  dsimp only
  rw [if_pos hev, hx]
  rfl

end Sys2Proof.Machine

/-! ### The obligation -/

namespace Sys2Proof

open Machine in
/-- Settles O58, clause by clause: the rules for a word of a path, a word of a sequencer and an event of the agenda say how each is run. -/
theorem stepRuns : Obligations.StepRuns := by
  unfold Obligations.StepRuns
  refine ⟨exec_next, step_next_or_fault, fun l st priv n ws h w hw => decodes_of_check h hw, ?_, ?_, noteMade_spec, ?_⟩
  case refine_1 =>
    intro s p hi hm hst l ws w hl hc hg n
    have ha := aged_of_lane hi
    refine ⟨s.aged.wordRun ws w, ?_, fun c => ?_, fun u hx hw hs => ?_⟩
    · rw [wordRun_eq s.aged, ha]
      rfl
    · have hcore : s.aged.core c = s.core c := by rw [ha]; rfl
      rw [← hcore]
      exact wordRun_core s.aged ws w c
    · intro q trapped kept done parked left cur waits made
      have hstep := step_of_single hi hm hst hl hc hg hx hw hs
      have hwaits : waits ↔ Waits s.aged u := by rw [ha]; rfl
      refine ⟨fun h => ?_, fun h => ?_⟩
      · rw [hstep, settled_of_waits _ ((waits_setCur (leftPath_st _ _ _)).mpr (hwaits.mp h)), ha]
        rfl
      · have hmade : made = s.aged.madeBy [w] u.here.trapped := by rw [madeBy_single, ha]; rfl
        have hp : s.aged.me.cur = p := by rw [ha]
        rw [hstep, settled_left _ _ (mt hwaits.mpr h), recountedPath_leftPath, leftPath_wordRun, hp, ← hmade, (noteMade_spec u made).1]
        rfl
  case refine_2 =>
    intro s q hi hst l ws w hl hc hw n t ends u hx
    exact step_of_seq_word hi hst hl hc hw hx
  case refine_3 =>
    intro s hi he i is ha hn v u hx
    exact step_of_agenda hi he ha hn hx

end Sys2Proof

/-! Runs of bytes that one event writes, and the words of a context's tables (03_tasks R60, R63). -/

namespace Sys2Proof.Machine

/-! ### Several runs of bytes in one event -/

theorem byte_putAll_ne (s : State) (ws : List (Nat × BitVec 8)) (a : Nat) (h : ∀ w ∈ ws, w.1 ≠ a) : (s.putAll ws).byte a = s.byte a := by
  show smGet unwritten (ws.foldl (fun m w => smPut unwritten m w.1 w.2) s.mem) a = smGet unwritten s.mem a
  generalize s.mem = m
  induction ws generalizing m with
  | nil => rfl
  | cons w ws ih =>
    rw [List.foldl_cons, ih (fun x hx => h x (List.mem_cons_of_mem _ hx)), smGet_smPut, if_neg (h w List.mem_cons_self).symm]

/-- A byte whose every write in the event is of one value. -/
theorem byte_putAll_of_mem (s : State) (ws : List (Nat × BitVec 8)) (a : Nat) (b : BitVec 8) (hb : (a, b) ∈ ws) (h : ∀ w ∈ ws, w.1 = a → w.2 = b) :
    (s.putAll ws).byte a = b := by
  show smGet unwritten (ws.foldl (fun m w => smPut unwritten m w.1 w.2) s.mem) a = b
  have key : ∀ m : List Host.Cell, (smGet unwritten m a = b ∨ (a, b) ∈ ws) →
      smGet unwritten (ws.foldl (fun m w => smPut unwritten m w.1 w.2) m) a = b := by
    clear hb
    induction ws with
    | nil => rintro m (hm | hm); exacts [hm, absurd hm List.not_mem_nil]
    | cons w ws ih =>
      intro m hm
      refine ih (fun x hx => h x (List.mem_cons_of_mem _ hx)) _ ?_
      by_cases hw : w.1 = a
      · exact .inl (by rw [smGet_smPut, if_pos hw.symm, h w List.mem_cons_self hw])
      · refine hm.imp (fun hm => by rw [smGet_smPut, if_neg (Ne.symm hw), hm]) fun hm => ?_
        exact (List.mem_cons.mp hm).resolve_left fun e => hw (congrArg Prod.fst e).symm
  exact key _ (.inr hb)

theorem mem_runAt {k : Nat} {bs : List (BitVec 8)} {x : Nat × BitVec 8} : x ∈ runAt k bs ↔ ∃ (i : Nat) (h : i < bs.length), x = (k + i, bs[i]) := by
  unfold runAt
  simp only [List.mem_iff_getElem, List.getElem_zipWith, List.length_zipWith, List.length_range, Nat.min_self, List.getElem_range, eq_comm (a := x)]

/-- A run of bytes that an event writes: its first key, and the bytes. -/
abbrev Run := Nat × List (BitVec 8)

/-- The byte at a key is one of the run's. -/
def Run.has (r : Run) (a : Nat) : Prop := r.1 ≤ a ∧ a < r.1 + r.2.length

/-- Two runs have no byte in common. -/
def Run.apart (r q : Run) : Prop := r.1 + r.2.length ≤ q.1 ∨ q.1 + q.2.length ≤ r.1

/-- The writes of a list of runs. -/
def runWrites (rs : List Run) : List (Nat × BitVec 8) := rs.flatMap fun r => runAt r.1 r.2

theorem byte_putAll_runs_ne (s : State) (rs : List Run) (a : Nat) (h : ∀ r ∈ rs, ¬ r.has a) : (s.putAll (runWrites rs)).byte a = s.byte a := by
  refine byte_putAll_ne s _ a fun w hw hwa => ?_
  obtain ⟨r, hr, hw⟩ := List.mem_flatMap.mp hw
  obtain ⟨i, hi, rfl⟩ := mem_runAt.mp hw
  exact h r hr ⟨by omega, by omega⟩

/-- Runs apart from each other each read back. -/
theorem rd_putAll_runs (s : State) {rs : List Run} (hd : rs.Pairwise Run.apart) {r : Run} (hr : r ∈ rs) :
    (s.putAll (runWrites rs)).rd r.1 r.2.length = leNat r.2 := by
  have : Std.Symm Run.apart := ⟨fun _ _ h => h.symm⟩
  have hbyte : ∀ (i : Nat) (hi : i < r.2.length), (s.putAll (runWrites rs)).byte (r.1 + i) = r.2[i] := by
    intro i hi
    refine byte_putAll_of_mem s _ _ _ (List.mem_flatMap.mpr ⟨r, hr, mem_runAt.mpr ⟨i, hi, rfl⟩⟩) fun w hw hwi => ?_
    obtain ⟨q, hq, hw⟩ := List.mem_flatMap.mp hw
    obtain ⟨j, hj, rfl⟩ := mem_runAt.mp hw
    by_cases hqr : q = r
    · subst hqr
      obtain rfl : j = i := by simpa using hwi
      rfl
    · have : q.apart r := hd.forall hq hr hqr
      simp only [Run.apart] at this
      omega
  unfold State.rd State.bytes smGets
  congr 1
  apply List.ext_getElem (by simp)
  intro i h1 h2
  rw [List.getElem_map, List.getElem_range]
  exact hbyte i h2

theorem rd_putAll_runs_ne (s : State) {rs : List Run} {a n : Nat} (h : ∀ r ∈ rs, a + n ≤ r.1 ∨ r.1 + r.2.length ≤ a) :
    (s.putAll (runWrites rs)).rd a n = s.rd a n :=
  rd_congr fun x _ _ => byte_putAll_runs_ne s rs x fun r hr hx => by have := h r hr; simp only [Run.has] at hx; omega

theorem runWrites_append (rs qs : List Run) : runWrites (rs ++ qs) = runWrites rs ++ runWrites qs := List.flatMap_append

theorem runWrites_singleton (r : Run) : runWrites [r] = runAt r.1 r.2 := by simp [runWrites]

end Sys2Proof.Machine

/-! Task, tile-buffer and group instructions (03_tasks R63, R64, R75, R76, R81, R89, R90). -/

namespace Sys2Proof.Machine

/-! ### The atomic word of a task or tile-buffer instruction -/

theorem ttOk_iff {b : BitVec 64} : ttOk b = true ↔ b ≠ 0 ∧ b.toNat % 65536 = 0 := by simp [ttOk]

theorem tbOk_iff {b : BitVec 64} : tbOk b = true ↔ b ≠ 0 ∧ b.toNat % 32768 = 0 := by simp [tbOk]

theorem ttOk_eq_false {b : BitVec 64} (h : b = 0 ∨ b.toNat % 65536 ≠ 0) : ttOk b = false :=
  Bool.eq_false_iff.mpr fun hb => h.elim (ttOk_iff.mp hb).1 fun hm => hm (ttOk_iff.mp hb).2

theorem tbOk_eq_false {b : BitVec 64} (h : b = 0 ∨ b.toNat % 32768 ≠ 0) : tbOk b = false :=
  Bool.eq_false_iff.mpr fun hb => h.elim (tbOk_iff.mp hb).1 fun hm => hm (tbOk_iff.mp hb).2

theorem tbClean_iff {w : Nat} : tbClean w = true ↔ w / 4 % 2 ^ 10 = 0 ∧ w / 2 ^ 22 % 2 ^ 10 = 0 := by simp [tbClean]

/-- The word of a full buffer of the next generation. -/
theorem tbWord_full (w : Nat) : tbWord (w / 2 ^ 32 + 1) 0 1 = (w / 2 ^ 32 + 1) % 2 ^ 32 * 2 ^ 32 + 1 ∧ (w / 2 ^ 32 + 1) % 2 ^ 32 * 2 ^ 32 + 1 < 256 ^ 8 := by
  simp only [tbWord]
  omega

/-- The word of an empty buffer of the same generation. -/
theorem tbWord_empty {w : Nat} (h : w < 256 ^ 8) : tbWord (w / 2 ^ 32) 0 0 = w / 2 ^ 32 * 2 ^ 32 ∧ w / 2 ^ 32 * 2 ^ 32 < 256 ^ 8 := by
  simp only [tbWord]
  omega

theorem conflicts_of_unlocked {s : State} (h : s.locks = []) (k n : Nat) (w : Bool) : s.conflicts k n w = [] := by simp [State.conflicts, h]

section
variable {s : State} {va : BitVec 64} (w : Bool) (parts : List (Nat × Nat)) (f : State → Nat → State)

/-- The translation that a task word's access wants. -/
def taskWant (w : Bool) : Want := if w then .write else .read

/-- A table base with bits 63:48 set names no global address (log 48). -/
theorem taskWord_of_beyond (h : 2 ^ 48 ≤ va.toNat) : s.taskWord w va parts f = s.park 1 1 va (if w then 2 else 0) s.me.cur.mask := by
  have : va.toNat / 2 ^ 48 ≠ 0 := by omega
  simp only [State.taskWord, if_pos this]

theorem taskWord_of_fault {u : State} {c : Nat} (h : va.toNat < 2 ^ 48) (ht : s.translate (taskWant w) va.toNat = (u, .error c)) :
    s.taskWord w va parts f = s.park 1 c va (if w then 2 else 0) s.me.cur.mask := by
  have : ¬ va.toNat / 2 ^ 48 ≠ 0 := by omega
  rw [taskWant] at ht
  simp only [State.taskWord, if_neg this, ht]

theorem taskWord_of_translated {k : Nat} (h : va.toNat < 2 ^ 48) (ht : s.translate (taskWant w) va.toNat = (s, .ok k)) (hl : s.locks = []) :
    s.taskWord w va parts f = if s.windowHolds k then s.retry else f s k := by
  have hn : ¬ va.toNat / 2 ^ 48 ≠ 0 := by omega
  have hc : (parts.flatMap fun p => s.conflicts (k + p.1) p.2 w) = [] := by simp [conflicts_of_unlocked hl]
  rw [taskWant] at ht
  simp only [State.taskWord, if_neg hn, ht, hc]

end

theorem windowHolds_of_calm {s : State} (h : s.windowMiss = false) (k : Nat) : s.windowHolds k = false := by simp [State.windowHolds, h]

/-! ### task.post and task.spawn -/

/-- The runs that task.post writes into an entry whose CTL reads `ctl`. -/
def postRuns (k ctl : Nat) (arg : Option (BitVec 64)) : List Run :=
  (k + 62, leBytes 2 (ctl + 1)) :: arg.toList.map fun x => (k + 16, leBytes 8 x.toNat)

/-- The entry goes from IDLE to ARMED. -/
def State.armed (s : State) (k : Nat) (arg : Option (BitVec 64)) : State := s.putAll (runWrites (postRuns k (s.rd (k + 62) 2) arg))

theorem postRuns_apart (k ctl : Nat) (arg : Option (BitVec 64)) : (postRuns k ctl arg).Pairwise Run.apart := by
  cases arg <;> simp [postRuns, Run.apart]

theorem armed_ctl {s : State} {k : Nat} (arg : Option (BitVec 64)) (h : s.rd (k + 62) 2 % 4 = 0) : (s.armed k arg).rd (k + 62) 2 = s.rd (k + 62) 2 + 1 := by
  have hr := rd_putAll_runs s (postRuns_apart k (s.rd (k + 62) 2) arg) List.mem_cons_self
  have hlt := rd_lt s (k + 62) 2
  simp only [length_leBytes, leNat_leBytes] at hr
  rw [State.armed, hr]
  omega

theorem armed_arg (s : State) (k : Nat) (x : BitVec 64) : (s.armed k (some x)).rd64 (k + 16) = x := by
  have hr := rd_putAll_runs s (postRuns_apart k (s.rd (k + 62) 2) (some x)) (List.mem_cons_of_mem _ (List.mem_singleton.mpr rfl))
  simp only [length_leBytes, leNat_leBytes] at hr
  have hx := x.isLt
  rw [State.rd64, State.armed, hr, Nat.mod_eq_of_lt (by omega), BitVec.ofNat_toNat, BitVec.setWidth_eq]

theorem armed_byte {s : State} {k j : Nat} {arg : Option (BitVec 64)} (h1 : ¬ (k + 62 ≤ j ∧ j < k + 64))
    (h2 : ¬ (arg.isSome = true ∧ k + 16 ≤ j ∧ j < k + 24)) : (s.armed k arg).byte j = s.byte j := by
  refine byte_putAll_runs_ne s _ j fun r hr => ?_
  cases arg <;> simp [postRuns] at hr h2
  · subst hr; simp [Run.has]; omega
  · obtain rfl | rfl := hr <;> simp [Run.has] <;> omega

section
variable {s : State} {d a : BitVec 6} {arg : Option (BitVec 64)}

/-- The address of the task entry that a register names. -/
def State.entryVa (s : State) (a : BitVec 6) : BitVec 64 := (s.ctx s.gang.asid).ttbase + BitVec.ofNat 64 (64 * (s.u a).toNat)

theorem post_of_outside (h : 1023 < (s.u a).toNat) : s.post d a arg = s.setU d 3 := by simp only [State.post, if_pos h]

theorem post_of_no_table (h : (s.u a).toNat ≤ 1023) (hb : ttOk (s.ctx s.gang.asid).ttbase = false) : s.post d a arg = s.setU d 2 := by
  simp only [State.post, if_neg (Nat.not_lt.mpr h), hb, Bool.not_false, if_true]

/-- The bytes of an entry that task.post takes, with ARG where one is given. -/
def postParts (arg : Option (BitVec 64)) : List (Nat × Nat) := (62, 2) :: if arg.isSome then [(16, 8)] else []

theorem post_of_table (h : (s.u a).toNat ≤ 1023) (hb : ttOk (s.ctx s.gang.asid).ttbase = true) : s.post d a arg =
    s.taskWord true (s.entryVa a) (postParts arg) fun t k => if t.rd (k + 62) 2 % 4 = 0 then (t.armed k arg).setU d 0 else t.setU d 1 := by
  simp only [State.post, if_neg (Nat.not_lt.mpr h), hb, Bool.not_true, Bool.false_eq_true, if_false, ctlState, State.entryVa, postParts]
  congr 1
  funext t k
  have hw : t.putAll (runAt (k + 62) (leBytes 2 (t.rd (k + 62) 2 + 1)) ++ (match arg with | some x => runAt (k + 16) (leBytes 8 x.toNat) | none => [])) = t.armed k arg := by
    cases arg <;> simp [State.armed, runWrites, postRuns]
  exact congrArg (fun u : State => if t.rd (k + 62) 2 % 4 = 0 then u.setU d 0 else t.setU d 1) hw

end

/-! ### tbuf.full, tbuf.empty and tbuf.stat -/

section
variable {s : State} {d a : BitVec 6} {want : Nat} {new : Nat → Nat}

/-- The address of the tile-buffer word that a register names. -/
def State.tbufVa (s : State) (a : BitVec 6) : BitVec 64 := (s.ctx s.gang.asid).tbbase + BitVec.ofNat 64 (8 * (s.u a).toNat)

theorem tbuf_of_outside (h : 4095 < (s.u a).toNat) : s.tbuf d a want new = s.setU d 3 := by simp only [State.tbuf, if_pos h]

theorem tbuf_of_no_table (h : (s.u a).toNat ≤ 4095) (hb : tbOk (s.ctx s.gang.asid).tbbase = false) : s.tbuf d a want new = s.setU d 2 := by
  simp only [State.tbuf, if_neg (Nat.not_lt.mpr h), hb, Bool.not_false, if_true]

theorem tbuf_of_table (h : (s.u a).toNat ≤ 4095) (hb : tbOk (s.ctx s.gang.asid).tbbase = true) : s.tbuf d a want new =
    s.taskWord true (s.tbufVa a) [(0, 8)] fun t k => if !tbClean (t.rd k 8) then t.setU d 4
      else if tbSt (t.rd k 8) = want then (t.wr k 8 (new (t.rd k 8))).setU d 0 else t.setU d 1 := by
  simp only [State.tbuf, if_neg (Nat.not_lt.mpr h), hb, Bool.not_true, Bool.false_eq_true, if_false, State.tbufVa]

/-- A tile-buffer word whose translation is cached. -/
theorem tbuf_of_translated {k : Nat} (h : (s.u a).toNat ≤ 4095) (hb : tbOk (s.ctx s.gang.asid).tbbase = true) (hv : (s.tbufVa a).toNat < 2 ^ 48)
    (ht : s.translate .write (s.tbufVa a).toNat = (s, .ok k)) (hl : s.locks = []) (hw : s.windowMiss = false) : s.tbuf d a want new =
    if !tbClean (s.rd k 8) then s.setU d 4 else if tbSt (s.rd k 8) = want then (s.wr k 8 (new (s.rd k 8))).setU d 0 else s.setU d 1 := by
  rw [tbuf_of_table h hb, taskWord_of_translated true _ _ hv ht hl, windowHolds_of_calm hw, if_neg Bool.false_ne_true]

end

/-! ### Group barriers -/

section
variable {s : State} {i : Inst} {g : BitVec 8}

theorem inst?_id {id : Nat} (h : s.inst? id = some i) : i.id = id := by simpa using List.find?_some h

theorem inst?_setInst {id : Nat} {j : Inst} (h : s.inst? id = some i) (hj : j.id = id) : (s.setInst j).inst? id = some j := by
  show (s.insts.map fun x => if x.id == j.id then j else x).find? (fun x => x.id == id) = some j
  have hp : ((fun x : Inst => x.id == id) ∘ fun x : Inst => if x.id == j.id then j else x) = fun x => x.id == id := by
    funext x
    by_cases hx : x.id = id <;> simp [hx, hj]
  rw [List.find?_map, hp]
  rw [State.inst?] at h
  simp [h, hj, inst?_id (s := s) h]

theorem groupOf_of_no_inst (h : s.inst? s.gang.inst = none) : s.groupOf g = none := by simp only [State.groupOf, h]

theorem groupOf_eq (h : s.inst? s.gang.inst = some i) : s.groupOf g =
    if g.toNat < i.entry.ngroups ∧ memberNo s.gang.index s.me.w ∈ (i.group g.toNat).members
    then some (i.group g.toNat, memberNo s.gang.index s.me.w) else none := by
  simp only [State.groupOf, h, Bool.and_eq_true, decide_eq_true_eq, List.contains_iff_mem]

theorem grp_of_member {G : Group} {m : Nat} (f : State → Nat → State) (h : s.groupOf g = some (G, m)) : s.grp g f = f s m := by
  simp only [State.grp, h]

/-- A grp instruction of a warp that is no member is a program error. -/
theorem grp_of_none (f : State → Nat → State) (h : s.groupOf g = none) : s.grp g f = s.progErr 0x0301 (g.setWidth 64) := by
  simp only [State.grp, h]

theorem groupWait_eq {G : Group} {m : Nat} (h : s.groupOf g = some (G, m)) :
    s.groupWait g = if G.phase ≠ smGet 0 G.aphase m then s else s.hold (.grp g.toNat) := by simp only [State.groupWait, h]

end

/-- The member number of the warp in focus. -/
def State.member (s : State) : Nat := memberNo s.gang.index s.me.w

/-- An `Inst` with one of its groups changed. -/
def Inst.setGroup (i : Inst) (g : Nat) (G : Group) : Inst := { i with groups := smPut {} i.groups g G }

@[simp] theorem setGroup_group (i : Inst) (g k : Nat) (G : Group) : (i.setGroup g G).group k = if k = g then G else i.group k := smGet_smPut _ _ _ _

/-- A group after an arrival that is not the last one. -/
def Group.joined (G : Group) (m : Nat) : Group := { G with arrived := G.arrived ++ [m], aphase := smPut 0 G.aphase m G.phase }

/-- A group after its last arrival: the members that left are gone, and the next phase begins (R76, R77). -/
def Group.opened (G : Group) (m : Nat) : Group :=
  { members := G.members.filter fun x => !G.gone.contains x, arrived := [], gone := [], phase := G.phase + 1, aphase := smPut 0 G.aphase m G.phase }

section
variable {s : State} {id g m : Nat} {i : Inst}

/-- What the groups of an `Inst` are once one of them is written. -/
theorem inst?_setGroup (hi : s.inst? id = some i) (G : Group) :
    ∃ j, (s.setInst (i.setGroup g G)).inst? id = some j ∧ ∀ k, j.group k = if k = g then G else i.group k :=
  ⟨i.setGroup g G, inst?_setInst hi (inst?_id (i := i) hi), fun k => setGroup_group i g k G⟩

theorem arrive_of_arrived (hi : s.inst? id = some i) (hm : m ∈ (i.group g).arrived) : s.arrive id g m false = s.setInst (i.setGroup g (i.group g)) := by
  have hm' : (i.group g).arrived.contains m = true := List.contains_iff_mem.mpr hm
  simp only [State.arrive, hi, hm', if_true, Bool.false_eq_true, if_false]
  rfl

theorem arrive_of_more (hi : s.inst? id = some i) (hm : m ∉ (i.group g).arrived) (hn : (i.group g).arrived.length + 1 ≠ (i.group g).members.length) :
    s.arrive id g m false = s.setInst (i.setGroup g ((i.group g).joined m)) := by
  have hm' : ¬ (i.group g).arrived.contains m = true := mt List.contains_iff_mem.mp hm
  simp only [State.arrive, hi, if_neg hm', Bool.false_eq_true, if_false, List.length_append, List.length_singleton, if_neg hn]
  rfl

theorem arrive_of_last (hi : s.inst? id = some i) (hm : m ∉ (i.group g).arrived) (hn : (i.group g).arrived.length + 1 = (i.group g).members.length) :
    s.arrive id g m false =
      ((s.setInst (i.setGroup g ((i.group g).opened m))).note (grpNote id g) ((i.group g).phase.setWidth 64)).releaseGroup id g := by
  have hm' : ¬ (i.group g).arrived.contains m = true := mt List.contains_iff_mem.mp hm
  simp only [State.arrive, hi, if_neg hm', Bool.false_eq_true, if_false, List.length_append, List.length_singleton, if_pos hn]
  rfl

/-- What the release of a group makes of a warp (R76). -/
def State.releasedWarp (s : State) (id g : Nat) (G : Group) (x : Warp) : Warp :=
  match s.gangOf? x.gid with
  | none => x
  | some k =>
    if k.inst == id && G.phase != smGet 0 G.aphase (memberNo k.index x.w) then
      x.mapPaths fun p => if p.st = .held (.grp g) then { p with st := x.woken } else p
    else x

theorem releaseGroup_eq (hi : s.inst? id = some i) : s.releaseGroup id g = s.mapWarps (s.releasedWarp id g (i.group g)) := by
  simp only [State.releaseGroup, hi]
  rfl

theorem woken_ne_held (x : Warp) (w : Wait) : x.woken ≠ .held w := by
  unfold Warp.woken
  split <;> exact PState.noConfusion

/-- The release touches no path in another state. -/
theorem releasedWarp_cur_of_ne {G : Group} {x : Warp} (h : x.cur.st ≠ .held (.grp g)) : (s.releasedWarp id g G x).cur = x.cur := by
  unfold State.releasedWarp
  split
  · rfl
  · split
    · exact if_neg h
    · rfl

theorem releasedWarp_gid (G : Group) (x : Warp) : (s.releasedWarp id g G x).gid = x.gid ∧ (s.releasedWarp id g G x).w = x.w := by
  unfold State.releasedWarp
  split
  · exact ⟨rfl, rfl⟩
  · split <;> exact ⟨rfl, rfl⟩

/-- A member whose arrival is in another phase waits no more. -/
theorem releasedWarp_free {G : Group} {x : Warp} {k : Gang} (hk : s.gangOf? x.gid = some k) (hi : k.inst = id)
    (hp : G.phase ≠ smGet 0 G.aphase (memberNo k.index x.w)) : ∀ p ∈ (s.releasedWarp id g G x).cur :: (s.releasedWarp id g G x).paths, p.st ≠ .held (.grp g) := by
  have hx : s.releasedWarp id g G x = x.mapPaths fun p => if p.st = .held (.grp g) then { p with st := x.woken } else p := by
    simp only [State.releasedWarp, hk, hi, beq_self_eq_true, bne_iff_ne, Bool.true_and, if_pos hp]
  have hfree : ∀ p : Path, (if p.st = .held (.grp g) then { p with st := x.woken } else p).st ≠ .held (.grp g) := by
    intro p
    split
    · exact woken_ne_held x _
    · assumption
  rw [hx]
  intro p hp
  obtain rfl | hp := List.mem_cons.mp hp
  · exact hfree _
  · obtain ⟨q, _, rfl⟩ := List.mem_map.mp hp
    exact hfree q

/-- The state in which a group has been opened, before its waits are released. -/
def State.openGroup (s : State) (i : Inst) (id g m : Nat) : State :=
  (s.setInst (i.setGroup g ((i.group g).opened m))).note (grpNote id g) ((i.group g).phase.setWidth 64)

theorem inst?_openGroup (hi : s.inst? id = some i) : (s.openGroup i id g m).inst? id = some (i.setGroup g ((i.group g).opened m)) :=
  inst?_setInst hi (inst?_id (i := i) hi)

theorem setGroup_group_self (i : Inst) (g : Nat) (G : Group) : (i.setGroup g G).group g = G := by rw [setGroup_group, if_pos rfl]

/-- The last arrival opens the group and releases its waits. -/
theorem arrive_eq_released (hi : s.inst? id = some i) (hm : m ∉ (i.group g).arrived) (hn : (i.group g).arrived.length + 1 = (i.group g).members.length) :
    s.arrive id g m false = (s.openGroup i id g m).mapWarps ((s.openGroup i id g m).releasedWarp id g ((i.group g).opened m)) := by
  rw [arrive_of_last hi hm hn, ← State.openGroup, releaseGroup_eq (inst?_openGroup hi), setGroup_group_self]

/-- The last arrival: the group is in its next phase, and no member's path waits at it any more (R76). -/
theorem opened_spec (hi : s.inst? id = some i) (hm : m ∉ (i.group g).arrived) (hn : (i.group g).arrived.length + 1 = (i.group g).members.length)
    (hst : s.me.cur.st = .ready) (hall : ∀ x ∈ (i.group g).members, x = m ∨ x ∈ (i.group g).arrived)
    (hap : ∀ x ∈ (i.group g).arrived, smGet 0 (i.group g).aphase x = (i.group g).phase) :
    let t := s.arrive id g m false
    t = { s with me := t.me, warps := t.warps, insts := t.insts, journal := t.journal } ∧
    (∃ j, t.inst? id = some j ∧ ∀ k, j.group k = if k = g then (i.group g).opened m else i.group k) ∧ t.me.cur.st = s.me.cur.st ∧
    ∀ x ∈ t.me :: t.warps, ∀ k, s.gangOf? x.gid = some k → k.inst = id → memberNo k.index x.w ∈ (i.group g).members →
      ∀ p ∈ x.cur :: x.paths, p.st ≠ .held (.grp g) := by
  intro t
  let u := s.openGroup i id g m
  have ht : t = u.mapWarps (u.releasedWarp id g ((i.group g).opened m)) := arrive_eq_released hi hm hn
  refine ⟨by rw [ht]; rfl, ?_, ?_, ?_⟩
  · rw [ht]
    exact inst?_setGroup hi _
  · rw [ht]
    exact congrArg Path.st (releasedWarp_cur_of_ne (s := u) (by rw [show u.me.cur.st = .ready from hst]; exact PState.noConfusion))
  · rw [ht]
    rintro x hx k hk hki hmem
    obtain ⟨y, rfl⟩ : ∃ y, x = u.releasedWarp id g ((i.group g).opened m) y := by
      obtain rfl | hx := List.mem_cons.mp hx
      · exact ⟨_, rfl⟩
      · obtain ⟨y, _, rfl⟩ := List.mem_map.mp hx
        exact ⟨y, rfl⟩
    obtain ⟨hgid, hw⟩ := releasedWarp_gid (s := u) (id := id) (g := g) ((i.group g).opened m) y
    rw [hgid] at hk
    rw [hw] at hmem
    refine releasedWarp_free (s := u) hk hki ?_
    have hphase : smGet 0 (smPut 0 (i.group g).aphase m (i.group g).phase) (memberNo k.index y.w) = (i.group g).phase := by
      rw [smGet_smPut]
      split
      · rfl
      · exact hap _ ((hall _ hmem).resolve_left ‹_›)
    show (i.group g).phase + 1 ≠ _
    rw [show ((i.group g).opened m).aphase = smPut 0 (i.group g).aphase m (i.group g).phase from rfl, hphase]
    bv_omega

/-- The one that arrives last does not wait. -/
theorem groupWait_of_opened {g : BitVec 8} {G : Group} {t : State} {j : Inst} {m : Nat} (hj : t.inst? t.gang.inst = some j) (hG : j.group g.toNat = G.opened m)
    (hm : t.member = m) : t.groupWait g = t := by
  have hne : (G.opened m).phase ≠ smGet 0 (G.opened m).aphase m := by
    show G.phase + 1 ≠ smGet 0 (smPut 0 G.aphase m G.phase) m
    rw [smGet_smPut, if_pos rfl]
    bv_omega
  have hgo := groupOf_eq (g := g) hj
  rw [hG, ← State.member, hm] at hgo
  split at hgo
  · rw [groupWait_eq hgo, if_pos hne]
  · simp only [State.groupWait, hgo]

theorem groupWait_arrive_last {g : BitVec 8} (hi : s.inst? s.gang.inst = some i) (hm : s.member ∉ (i.group g.toNat).arrived)
    (hn : (i.group g.toNat).arrived.length + 1 = (i.group g.toNat).members.length) :
    (s.arrive s.gang.inst g.toNat s.member false).groupWait g = s.arrive s.gang.inst g.toNat s.member false := by
  rw [arrive_eq_released hi hm hn]
  exact groupWait_of_opened (inst?_openGroup hi) (setGroup_group_self i _ _) (congrArg (memberNo s.gang.index) (releasedWarp_gid _ _).2)

end

/-! ### The obligation -/

section
variable {i : Instr} {s : State} {d a : BitVec 6} {k : Nat}

theorem post_of_beyond {arg : Option (BitVec 64)} (h : (s.u a).toNat ≤ 1023) (hb : ttOk (s.ctx s.gang.asid).ttbase = true)
    (hv : 2 ^ 48 ≤ (s.entryVa a).toNat) : s.post d a arg = s.park 1 1 (s.entryVa a) 2 s.me.cur.mask := by
  rw [post_of_table h hb, taskWord_of_beyond _ _ _ hv, if_pos rfl]

theorem post_of_fault {arg : Option (BitVec 64)} {u : State} {c : Nat} (h : (s.u a).toNat ≤ 1023) (hb : ttOk (s.ctx s.gang.asid).ttbase = true)
    (hv : (s.entryVa a).toNat < 2 ^ 48) (ht : s.translate .write (s.entryVa a).toNat = (u, .error c)) :
    s.post d a arg = s.park 1 c (s.entryVa a) 2 s.me.cur.mask := by
  rw [post_of_table h hb, taskWord_of_fault true _ _ hv ht, if_pos rfl]

/-- What task.post and task.spawn do with an entry whose translation is cached. -/
theorem post_of_translated {arg : Option (BitVec 64)} (h : (s.u a).toNat ≤ 1023) (hb : ttOk (s.ctx s.gang.asid).ttbase = true)
    (hv : (s.entryVa a).toNat < 2 ^ 48) (ht : s.translate .write (s.entryVa a).toNat = (s, .ok k)) (hl : s.locks = []) : s.post d a arg =
    if s.windowHolds k then s.retry else if s.rd (k + 62) 2 % 4 = 0 then (s.armed k arg).setU d 0 else s.setU d 1 := by
  rw [post_of_table h hb, taskWord_of_translated true _ _ hv ht hl]

theorem tbufStat_of_none (h : 4095 < (s.u a).toNat ∨ tbOk (s.ctx s.gang.asid).tbbase = false) :
    exec (.tbufStat d a) s = .next (s.setUU d 0xFFFFFFFFFFFFFFFF) := by
  have : (decide (4095 < (s.u a).toNat) || !tbOk (s.ctx s.gang.asid).tbbase) = true := by simpa using h
  exact congrArg Host.Outcome.next (if_pos this)

theorem tbufStat_of_translated (h : (s.u a).toNat ≤ 4095) (hb : tbOk (s.ctx s.gang.asid).tbbase = true) (hv : (s.tbufVa a).toNat < 2 ^ 48)
    (ht : s.translate .read (s.tbufVa a).toNat = (s, .ok k)) (hl : s.locks = []) (hw : s.windowMiss = false) :
    exec (.tbufStat d a) s = .next (s.setUU d (s.rd64 k)) := by
  have : ¬ (decide (4095 < (s.u a).toNat) || !tbOk (s.ctx s.gang.asid).tbbase) = true := by simpa [hb] using h
  refine congrArg Host.Outcome.next ((if_neg this).trans ?_)
  rw [show (s.ctx s.gang.asid).tbbase + BitVec.ofNat 64 (8 * (s.u a).toNat) = s.tbufVa a from rfl, taskWord_of_translated false _ _ hv ht hl,
    windowHolds_of_calm hw, if_neg Bool.false_ne_true]

end

theorem ite_hold (s : State) (a b : BitVec 32) (w : Wait) : (if a ≠ b then s else s.hold w) =
    { s with me := { s.me with cur := if a = b then { s.me.cur with st := .held w } else s.me.cur } } := by
  by_cases h : a = b
  · rw [if_neg (not_not.mpr h), if_pos h]; rfl
  · rw [if_pos h, if_neg h]

section
variable {s : State} {g : BitVec 8} {i : Inst}

/-- A grp instruction of a warp that is no member of the group is a program error. -/
theorem exec_group_of_none (h : s.groupOf g = none) : exec (.grpMeet g) s = .next (s.progErr 0x0301 (g.setWidth 64)) ∧
    exec (.grpMark g) s = .next (s.progErr 0x0301 (g.setWidth 64)) ∧ exec (.grpHold g) s = .next (s.progErr 0x0301 (g.setWidth 64)) :=
  ⟨congrArg Host.Outcome.next (grp_of_none _ h), congrArg Host.Outcome.next (grp_of_none _ h), congrArg Host.Outcome.next (grp_of_none _ h)⟩

variable (hi : s.inst? s.gang.inst = some i) (hg : g.toNat < i.entry.ngroups) (hm : s.member ∈ (i.group g.toNat).members)
include hi hg hm

theorem groupOf_of_member : s.groupOf g = some (i.group g.toNat, s.member) := (groupOf_eq hi).trans (if_pos ⟨hg, hm⟩)

theorem exec_grpMark : exec (.grpMark g) s = .next (s.arrive s.gang.inst g.toNat s.member false) :=
  congrArg Host.Outcome.next (grp_of_member _ (groupOf_of_member hi hg hm))

theorem exec_grpMeet : exec (.grpMeet g) s = .next ((s.arrive s.gang.inst g.toNat s.member false).groupWait g) :=
  congrArg Host.Outcome.next (grp_of_member _ (groupOf_of_member hi hg hm))

theorem exec_grpHold : exec (.grpHold g) s =
    .next (if (i.group g.toNat).phase ≠ smGet 0 (i.group g.toNat).aphase s.member then s else s.hold (.grp g.toNat)) :=
  congrArg Host.Outcome.next ((grp_of_member _ (groupOf_of_member hi hg hm)).trans (groupWait_eq (groupOf_of_member hi hg hm)))

omit hm in
/-- The wait of a member whose group was written, by what it holds now. -/
theorem groupWait_setGroup {G : Group} (hm : s.member ∈ G.members) : (s.setInst (i.setGroup g.toNat G)).groupWait g =
    if G.phase ≠ smGet 0 G.aphase s.member then s.setInst (i.setGroup g.toNat G) else (s.setInst (i.setGroup g.toNat G)).hold (.grp g.toNat) := by
  have hj : (s.setInst (i.setGroup g.toNat G)).inst? s.gang.inst = some (i.setGroup g.toNat G) := inst?_setInst hi (inst?_id (i := i) hi)
  have hG : (i.setGroup g.toNat G).group g.toNat = G := by rw [setGroup_group, if_pos rfl]
  have := groupWait_eq (groupOf_of_member (g := g) hj hg (by rw [hG]; exact hm))
  rwa [hG] at this

end

end Sys2Proof.Machine

namespace Sys2Proof

open Machine in
/-- Settles O39: the words of the tables by the rules for the access that they share, the groups by the three cases of an arrival. -/
theorem tasksAndGroups : Obligations.TasksAndGroups := by
  unfold Obligations.TasksAndGroups
  intro s c wrote others waits post tbuf
  have hpost : ∀ i d a arg, exec i s = .next (s.post d a arg) → post i d a arg := by
    intro i d a arg hx
    refine ⟨fun h => gives_setU (hx.trans (congrArg _ (post_of_outside h))) rfl, fun h hb => ?_, fun h hb hm => ?_⟩
    · exact gives_setU (hx.trans (congrArg _ (post_of_no_table h (ttOk_eq_false hb)))) rfl
    · have hb : ttOk c.ttbase = true := ttOk_iff.mpr ⟨hb, hm⟩
      refine ⟨fun hv => hx.trans (congrArg _ (post_of_beyond h hb hv)), fun u f hv ht => hx.trans (congrArg _ (post_of_fault h hb hv ht)),
        fun k hv ht hl => ?_⟩
      rw [post_of_translated h hb hv ht hl] at hx
      refine ⟨fun hk hw => ⟨_, hx.trans (congrArg _ (if_pos (by simp [State.windowHolds, hw, hk]))), rfl⟩, fun hw => ?_⟩
      rw [windowHolds_of_calm hw, if_neg Bool.false_ne_true] at hx
      refine ⟨fun hc => gives_setU (hx.trans (congrArg _ (if_neg hc))) rfl, fun hc => ?_⟩
      exact ⟨_, hx.trans (congrArg _ (if_pos hc)), s.armed k arg, rfl, setU_result _ d 0, armed_ctl arg hc, fun x hx => hx ▸ armed_arg s k x, fun j => armed_byte⟩
  have htbuf : ∀ i d a want new f, exec i s = .next (s.tbuf d a want f) → (∀ w, w < 256 ^ 8 → f w = new w ∧ new w < 256 ^ 8) → tbuf i d a want new := by
    intro i d a want new f hx hnew
    refine ⟨fun h => gives_setU (hx.trans (congrArg _ (tbuf_of_outside h))) rfl, fun h hb => ?_, fun h hb hm k hv ht hl hw => ?_⟩
    · exact gives_setU (hx.trans (congrArg _ (tbuf_of_no_table h (tbOk_eq_false hb)))) rfl
    · rw [tbuf_of_translated h (tbOk_iff.mpr ⟨hb, hm⟩) hv ht hl hw] at hx
      obtain ⟨hf, hlt⟩ := hnew _ (rd_lt s k 8)
      refine ⟨fun hc => ?_, fun hc hs => ?_, fun hc hs => ?_⟩
      · rw [if_pos (by rw [Bool.eq_false_iff.mpr (mt tbClean_iff.mp hc)]; rfl)] at hx
        exact gives_setU hx rfl
      · rw [if_neg (by rw [tbClean_iff.mpr hc]; decide)] at hx
        exact gives_setU (hx.trans (congrArg _ (if_neg hs))) rfl
      · rw [if_neg (by rw [tbClean_iff.mpr hc]; decide), hf] at hx
        refine ⟨_, hx.trans (congrArg _ (if_pos hs)), s.wr k 8 (new (s.rd k 8)), wr_frame .., setU_result _ d 0, ?_, fun j hj => byte_wr_ne _ _ _ _ _ hj⟩
        rw [rd_wr, Nat.mod_eq_of_lt hlt]
  refine ⟨fun d a => hpost _ d a none rfl, fun d a b => hpost _ d a _ rfl, fun d a => ?_, fun d a => ?_, fun d a => ?_, fun g => ?_⟩
  case refine_1 =>
    exact htbuf (.tbufFull d a) d a 0 (fun w => (w / 2 ^ 32 + 1) % 2 ^ 32 * 2 ^ 32 + 1) (fun w => tbWord (w / 2 ^ 32 + 1) 0 1) rfl fun w _ => tbWord_full w
  case refine_2 =>
    exact htbuf (.tbufEmpty d a) d a 1 (fun w => w / 2 ^ 32 * 2 ^ 32) (fun w => tbWord (w / 2 ^ 32) 0 0) rfl fun w hw => tbWord_empty hw
  case refine_3 =>
    refine ⟨fun h => ?_, fun h hb hm k hv ht hl hw => ?_⟩
    · exact gives_setUU (tbufStat_of_none (h.imp_right tbOk_eq_false)) rfl
    · exact gives_setUU (tbufStat_of_translated h (tbOk_iff.mpr ⟨hb, hm⟩) hv ht hl hw) rfl
  case refine_4 =>
    refine ⟨fun hi => exec_group_of_none (groupOf_of_no_inst hi), fun i hi => ⟨fun hb => ?_, fun hg hm => ?_⟩⟩
    · exact exec_group_of_none ((groupOf_eq hi).trans (if_neg fun h => hb.elim (Nat.not_le.mpr h.1) fun hm => hm h.2))
    have hwait := fun G (hG : s.member ∈ G.members) => (groupWait_setGroup (G := G) hi hg hG).trans (ite_hold _ _ _ _)
    refine ⟨⟨_, exec_grpHold hi hg hm, ite_hold _ _ _ _⟩, fun ha => ?_, fun ha hn => ?_, fun ha hn hst hall hap => ?_⟩
    · have harr := arrive_of_arrived hi ha
      have hmeet := (congrArg (·.groupWait g) harr).trans (hwait _ hm)
      exact ⟨⟨_, (exec_grpMark hi hg hm).trans (congrArg _ harr), rfl, inst?_setGroup hi _⟩,
        ⟨_, (exec_grpMeet hi hg hm).trans (congrArg _ hmeet), rfl, inst?_setGroup hi _⟩⟩
    · have harr := arrive_of_more hi ha hn
      have hmeet := (congrArg (·.groupWait g) harr).trans (hwait ((i.group g.toNat).joined s.member) hm)
      have hphase : ((i.group g.toNat).joined s.member).phase = smGet 0 ((i.group g.toNat).joined s.member).aphase s.member :=
        ((smGet_smPut _ _ _ _).trans (if_pos rfl)).symm
      simp only [if_pos hphase] at hmeet
      exact ⟨⟨_, (exec_grpMark hi hg hm).trans (congrArg _ harr), rfl, inst?_setGroup hi _⟩,
        ⟨_, (exec_grpMeet hi hg hm).trans (congrArg _ hmeet), rfl, inst?_setGroup hi _⟩⟩
    · have hopen := opened_spec hi ha hn hst hall hap
      exact ⟨⟨_, exec_grpMark hi hg hm, hopen⟩, ⟨_, (exec_grpMeet hi hg hm).trans (congrArg _ (groupWait_arrive_last hi ha hn)), hopen⟩⟩

end Sys2Proof

/-! What the checks of a task entry read: its fields, its group records, and the first check that fails (02_encoding R57; 03_tasks R60, R62, R72). -/

namespace Sys2Proof.Machine

/-! ### Lists without repetitions -/

theorem nodup_eraseDups {α : Type} [DecidableEq α] (l : List α) : l.eraseDups.Nodup := by
  induction h : l.length using Nat.strongRecOn generalizing l with
  | ind n ih =>
    cases l with
    | nil => simp
    | cons a l =>
      rw [List.eraseDups_cons, List.nodup_cons]
      refine ⟨by simp [List.mem_eraseDups], ih _ ?_ _ rfl⟩
      have := List.length_filter_le (fun b => !b == a) l
      simp only [List.length_cons] at h
      omega

theorem length_eraseDups {α : Type} [DecidableEq α] (l : List α) : l.eraseDups.length = l.toFinset.card := by
  rw [← List.toFinset_card_of_nodup (nodup_eraseDups l)]
  congr 1
  ext a
  simp [List.mem_eraseDups]

theorem length_eraseDups_eq_iff {α : Type} [DecidableEq α] {l : List α} : l.eraseDups.length = l.length ↔ l.Nodup := by
  rw [length_eraseDups, List.card_toFinset]
  exact Multiset.dedup_card_eq_card_iff_nodup (m := (l : Multiset α))

/-- A list has more than `n` values where some list of them without repetitions is longer than that. -/
theorem lt_length_eraseDups_iff {α : Type} [DecidableEq α] {n : Nat} {l : List α} :
    n < l.eraseDups.length ↔ ∃ gs : List α, gs.Nodup ∧ n < gs.length ∧ ∀ g ∈ gs, g ∈ l := by
  refine ⟨fun h => ⟨_, nodup_eraseDups l, h, fun g hg => List.mem_eraseDups.mp hg⟩, fun ⟨gs, hgs, hn, hl⟩ => ?_⟩
  rw [length_eraseDups]
  refine hn.trans_le ?_
  rw [← List.toFinset_card_of_nodup hgs]
  exact Finset.card_le_card fun g hg => List.mem_toFinset.mpr (hl g (List.mem_toFinset.mp hg))

/-! ### Fields of an entry and of its group records -/

theorem fieldAt_bytes (s : State) (k : Nat) {n o m : Nat} (h : o + m ≤ n) : fieldAt (s.bytes k n) o m = s.rd (k + o) m := by
  unfold fieldAt State.rd State.bytes smGets
  congr 1
  apply List.ext_getElem
  · simp; omega
  · intro i h1 h2
    simp [Nat.add_assoc]

theorem fieldAt_drop (bs : List (BitVec 8)) (k o m : Nat) : fieldAt (bs.drop k) o m = fieldAt bs (k + o) m := by
  simp only [fieldAt, List.drop_drop]

/-- The record number `j` of a list of group records (02_encoding R57). -/
def grecAt (bs : List (BitVec 8)) (j : Nat) : GRec :=
  { group := fieldAt bs (12 * j) 2, gang := fieldAt bs (12 * j + 4) 4, mask := BitVec.ofNat 32 (fieldAt bs (12 * j + 8) 4)
    resv := fieldAt bs (12 * j + 2) 2 != 0 }

theorem parseGRecs_eq (bs : List (BitVec 8)) (n : Nat) : parseGRecs bs n = (List.range n).map (grecAt bs) := by
  induction n generalizing bs with
  | zero => rfl
  | succ n ih =>
    rw [parseGRecs, ih, List.range_succ_eq_map, List.map_cons, List.map_map]
    congr 1
    refine List.map_congr_left fun j _ => ?_
    have h (o : Nat) : 12 + (12 * j + o) = 12 * (j + 1) + o := by omega
    simp only [grecAt, Function.comp, fieldAt_drop, h, Nat.succ_eq_add_one]
    rw [show 12 + 12 * j = 12 * (j + 1) by omega]

theorem exists_mem_parseGRecs {bs : List (BitVec 8)} {n : Nat} {P : GRec → Prop} : (∃ r ∈ parseGRecs bs n, P r) ↔ ∃ j, j < n ∧ P (grecAt bs j) := by
  simp [parseGRecs_eq]

/-- The warp `w` of gang `G` is a member of group `g` by the first `n` records. -/
def Lies (bs : List (BitVec 8)) (n g G w : Nat) : Prop := ∃ j, j < n ∧ (grecAt bs j).group = g ∧ (grecAt bs j).gang = G ∧ (grecAt bs j).mask.getLsbD w = true

theorem mem_lanesOf {m : BitVec 32} {w : Nat} : w ∈ lanesOf m ↔ w < 32 ∧ m.getLsbD w = true := by simp [lanesOf]

theorem mem_membersOf {bs : List (BitVec 8)} {n g m : Nat} : m ∈ membersOf (parseGRecs bs n) g ↔ ∃ G w, w < 32 ∧ m = 32 * G + w ∧ Lies bs n g G w := by
  simp only [membersOf, List.mem_eraseDups, List.mem_flatMap, List.mem_filter, List.mem_map, mem_lanesOf, memberNo, beq_iff_eq, and_assoc,
    exists_mem_parseGRecs, Lies]
  constructor
  · rintro ⟨j, hj, hg, w, hw, hmask, rfl⟩
    exact ⟨_, w, hw, rfl, j, hj, hg, rfl, hmask⟩
  · rintro ⟨G, w, hw, rfl, j, hj, hg, rfl, hmask⟩
    exact ⟨j, hj, hg, w, hw, hmask, rfl⟩

/-! ### The first check that fails -/

/-- The code of the first test of a list that holds, 0 where none does. -/
def codeOf : List (Bool × Nat) → Nat
  | [] => 0
  | (b, c) :: rest => if b then c else codeOf rest

theorem codeOf_of_first {ps : List (Prop × Nat)} {bs : List (Bool × Nat)} (h : List.Forall₂ (fun p b => (b.1 = true ↔ p.1) ∧ p.2 = b.2) ps bs)
    {before after : List (Prop × Nat)} {P : Prop} {c : Nat} (he : ps = before ++ (P, c) :: after) (hP : P) (hn : ∀ y ∈ before, ¬ y.1) : codeOf bs = c := by
  induction h generalizing before with
  | nil => simp at he
  | @cons p b ps bs hpb _ ih =>
    obtain ⟨b, d⟩ := b
    cases before with
    | nil =>
      obtain ⟨rfl, rfl⟩ := List.cons.inj he
      exact (if_pos (hpb.1.mpr hP)).trans hpb.2.symm
    | cons q before =>
      obtain ⟨rfl, rfl⟩ := List.cons.inj he
      exact (if_neg fun hb => hn p List.mem_cons_self (hpb.1.mp hb)).trans (ih rfl fun y hy => hn y (List.mem_cons_of_mem _ hy))

theorem codeOf_of_none {ps : List (Prop × Nat)} {bs : List (Bool × Nat)} (h : List.Forall₂ (fun p b => (b.1 = true ↔ p.1) ∧ p.2 = b.2) ps bs)
    (hn : ∀ y ∈ ps, ¬ y.1) : codeOf bs = 0 := by
  induction h with
  | nil => rfl
  | @cons p b ps bs hpb _ ih =>
    exact (if_neg fun hb => hn p List.mem_cons_self (hpb.1.mp hb)).trans (ih fun y hy => hn y (List.mem_cons_of_mem _ hy))

/-- The tests of R62 up to code 8, for an entry all of whose data can be read. -/
def State.entryTests (s : State) (asid : Nat) (e : Entry) (rs : List GRec) (ls : List Nat) : List (Bool × Nat) :=
  let groupsOf (m : Nat) : Nat := (((rs.filter fun r => r.gang == m / 32 && r.mask.getLsbD (m % 32)).map GRec.group).eraseDups).length
  let alm := (smGet (0 : BitVec 64) s.pkg.alm e.alm).toNat
  [(e.gangs = 0 || 65536 < e.gangs || e.warps = 0 || 32 < e.warps || e.regs < 8 || 128 < e.regs || e.regs % 8 ≠ 0 || 640 < e.localk, 1),
    (e.pool ≠ 0 && e.localk * 1024 < poolBytes e.pool, 2),
    (256 < e.ngroups || rs.any (fun r => decide (e.ngroups ≤ r.group) || decide (e.gangs ≤ r.gang) || decide (2 ^ e.warps ≤ r.mask.toNat))
      || rs.any (fun r => (lanesOf r.mask).any fun w => decide (4 < groupsOf (memberNo r.gang w))), 3),
    ((cosetsOf rs).any fun c => decide (s.capacity asid e < c.length), 4),
    (16 < e.nin || 16 < e.nout || ls.any (fun b => decide (4096 ≤ b)) || ls.eraseDups.length ≠ ls.length, 5),
    (alm % 16 ≠ 1 || alm / 2 ^ 16 % 2 ^ 12 ≠ asid, 6),
    (e.code.toNat % 12 ≠ 0 || e.mcode.toNat % 12 ≠ 0, 7),
    (e.resv || rs.any GRec.resv, 8)]

theorem entryCode_eq (s : State) (asid : Nat) (e : Entry) (rs : List GRec) (ls : List Nat) :
    s.entryCode asid e { recs := some rs, list := some ls, words := true } = codeOf (s.entryTests asid e rs ls) := by
  simp only [State.entryCode, State.entryTests, codeOf, Option.getD_some, Option.isNone_some, Bool.not_true, Bool.or_false, Bool.false_eq_true, if_false]

/-- Some warp is a member of more than four groups. -/
theorem five_groups_iff {bs : List (BitVec 8)} {n : Nat} :
    ((parseGRecs bs n).any fun r => (lanesOf r.mask).any fun w => decide (4 < ((((parseGRecs bs n).filter fun q => q.gang == memberNo r.gang w / 32 &&
      q.mask.getLsbD (memberNo r.gang w % 32)).map GRec.group).eraseDups).length)) = true ↔
    ∃ (gs : List Nat) (G w : Nat), w < 32 ∧ gs.Nodup ∧ 4 < gs.length ∧ ∀ g ∈ gs, Lies bs n g G w := by
  have hdiv : ∀ G w, w < 32 → memberNo G w / 32 = G ∧ memberNo G w % 32 = w := fun G w hw => by unfold memberNo; omega
  have hmem : ∀ g G w, w < 32 → (g ∈ ((parseGRecs bs n).filter fun q => q.gang == memberNo G w / 32 && q.mask.getLsbD (memberNo G w % 32)).map GRec.group ↔
      Lies bs n g G w) := by
    intro g G w hw
    obtain ⟨hd, hm⟩ := hdiv G w hw
    simp only [hd, hm, List.mem_map, List.mem_filter, Bool.and_eq_true, beq_iff_eq, and_assoc, exists_mem_parseGRecs, Lies]
    exact exists_congr fun j => and_congr_right fun _ => ⟨fun ⟨a, b, c⟩ => ⟨c, a, b⟩, fun ⟨c, a, b⟩ => ⟨a, b, c⟩⟩
  simp only [List.any_eq_true, decide_eq_true_eq, lt_length_eraseDups_iff]
  constructor
  · rintro ⟨r, _, w, hw, gs, hgs, hlen, hl⟩
    have hw := (mem_lanesOf.mp hw).1
    exact ⟨gs, r.gang, w, hw, hgs, hlen, fun g hg => (hmem g _ w hw).mp (hl g hg)⟩
  · rintro ⟨gs, G, w, hw, hgs, hlen, hl⟩
    obtain ⟨g, hg⟩ := List.exists_mem_of_length_pos (Nat.zero_lt_of_lt hlen)
    obtain ⟨j, hj, _, rfl, hmask⟩ := hl g hg
    exact ⟨grecAt bs j, by rw [parseGRecs_eq]; exact List.mem_map_of_mem (List.mem_range.mpr hj), w, mem_lanesOf.mpr ⟨hw, hmask⟩, gs, hgs, hlen,
      fun g hg => (hmem g _ w hw).mpr (hl g hg)⟩

end Sys2Proof.Machine

/-! Claims (03_tasks R60 to R66, R75). -/

namespace Sys2Proof.Machine

/-! ### The entry and the words of its list -/

theorem parseEntry_bytes (s : State) (k : Nat) : parseEntry (s.bytes k 64) =
    { code := BitVec.ofNat 64 (s.rd (k + 0) 8), mcode := BitVec.ofNat 64 (s.rd (k + 8) 8), arg := BitVec.ofNat 64 (s.rd (k + 16) 8)
      grec := BitVec.ofNat 64 (s.rd (k + 24) 8), tblist := BitVec.ofNat 64 (s.rd (k + 32) 8), gangs := s.rd (k + 40) 4, ngrec := s.rd (k + 44) 4
      warps := s.rd (k + 48) 1, regs := s.rd (k + 49) 1, localk := s.rd (k + 50) 2, pool := s.rd (k + 52) 2, ngroups := s.rd (k + 54) 2
      nin := s.rd (k + 56) 1, nout := s.rd (k + 57) 1, prio := s.rd (k + 58) 1 % 4, alm := s.rd (k + 59) 1 % 32, aff := s.rd (k + 60) 2
      ctl := BitVec.ofNat 16 (s.rd (k + 62) 2)
      resv := s.rd (k + 58) 1 / 4 != 0 || s.rd (k + 59) 1 / 32 != 0 || s.rd (k + 62) 2 / 16 % 16 != 0 } := by
  have h : ∀ o m, o + m ≤ 64 → fieldAt (s.bytes k 64) o m = s.rd (k + o) m := fun o m => fieldAt_bytes s k
  simp only [parseEntry, h, Nat.reduceAdd, Nat.reduceLeDiff]

theorem toNat_ofNat_rd (s : State) (k : Nat) : (BitVec.ofNat 64 (s.rd k 8)).toNat = s.rd k 8 := by
  have := rd_lt s k 8
  rw [BitVec.toNat_ofNat, Nat.mod_eq_of_lt (by omega)]

theorem toNat_ofNat_rd16 (s : State) (k : Nat) : (BitVec.ofNat 16 (s.rd k 2)).toNat = s.rd k 2 := by
  have := rd_lt s k 2
  rw [BitVec.toNat_ofNat, Nat.mod_eq_of_lt (by omega)]

/-- The word of tile buffer `b` of a context is at key `a` for a walk by the Q3 that changes nothing. -/
def State.wordAt (s : State) (asid : Nat) (want : Want) (b a : Nat) : Prop :=
  s.q3Walk asid want ((s.ctx asid).tbbase.toNat + 8 * b) = (s, .ok a)

theorem tileKeys_of_wordAt {s : State} {asid : Nat} {want : Want} {bs ks : List Nat} (h : List.Forall₂ (s.wordAt asid want) bs ks) :
    s.tileKeys asid want bs = (s, some ks) := by
  induction h with
  | nil => rfl
  | cons hb _ ih => simp only [State.tileKeys, show s.q3Walk asid want _ = _ from hb, ih]

theorem exists_tileKeys {s : State} {asid : Nat} {want : Want} {bs : List Nat} (h : ∀ b ∈ bs, ∃ a, s.wordAt asid want b a) :
    ∃ ks, s.tileKeys asid want bs = (s, some ks) := by
  induction bs with
  | nil => exact ⟨[], rfl⟩
  | cons b bs ih =>
    obtain ⟨a, ha⟩ := h b List.mem_cons_self
    obtain ⟨ks, hks⟩ := ih fun c hc => h c (List.mem_cons_of_mem _ hc)
    exact ⟨a :: ks, by simp only [State.tileKeys, show s.q3Walk asid want _ = _ from ha, hks]⟩

/-! ### What follows from the checks -/

/-- What the checks read of an entry beside it (R62): the bytes of its group records and of its list, all readable here. -/
structure State.Readable (s : State) (asid : Nat) (e : Entry) (gb lb : List (BitVec 8)) (ls : List Nat) : Prop where
  recs : (if e.ngrec = 0 then (s, some []) else s.q3Read asid e.grec.toNat (12 * e.ngrec)) = (s, some gb)
  list : (if e.nin + e.nout = 0 || 32 < e.nin + e.nout then (s, some []) else s.q3Read asid e.tblist.toNat (2 * (e.nin + e.nout))) = (s, some lb)
  eq : (List.range (if 32 < e.nin + e.nout then 0 else e.nin + e.nout)).map (fun j => fieldAt lb (2 * j) 2) = ls
  words : ∃ ks, s.tileKeys asid .read (ls.filter fun b => decide (b < 4096)) = (s, some ks)

/-- The word of a buffer that a task holds, in state `st`. -/
def State.heldWord (s : State) (task st k : Nat) : Nat := tbWord (s.rd k 8 / 2 ^ 32) task st

/-- The runs of bytes that a claim writes: input words unless they are kept, output words, CTL. -/
def State.claimRuns (s : State) (task key ctl : Nat) (keep : Bool) (ins outs : List Nat) : List Run :=
  ((if keep then [] else ins.map fun k => (k, leBytes 8 (s.heldWord task 2 k))) ++ outs.map fun k => (k, leBytes 8 (s.heldWord task 3 k))) ++
    [(key + 62, leBytes 2 (ctl / 4 * 4 + 2))]

theorem runWrites_claimRuns (s : State) (task key ctl : Nat) (keep : Bool) (ins outs : List Nat) :
    runWrites (s.claimRuns task key ctl keep ins outs) = ((if keep then [] else ins.flatMap fun k => runAt k (leBytes 8 (s.heldWord task 2 k))) ++
      outs.flatMap fun k => runAt k (leBytes 8 (s.heldWord task 3 k))) ++ runAt (key + 62) (leBytes 2 (ctl / 4 * 4 + 2)) := by
  rw [State.claimRuns, runWrites_append, runWrites_append, runWrites_singleton]
  simp only [runWrites, List.flatMap_map]
  cases keep <;> simp [List.flatMap_map]

/-- A buffer's word is clean and in a state. -/
def State.hasState (s : State) (st k : Nat) : Bool := tbClean (s.rd k 8) && tbSt (s.rd k 8) == st

section
variable {s : State} {asid task key : Nat} {e : Entry} {bs gb lb : List (BitVec 8)} {ls ins outs : List Nat}
variable (he : parseEntry bs = e) (hr : s.Readable asid e gb lb ls)
include he hr

/-- An entry that fails a check is refused with its code (R62). -/
theorem considerEntry_of_fails {c : Nat} (hc : codeOf (s.entryTests asid e (parseGRecs gb e.ngrec) ls) = c) (h0 : c ≠ 0) :
    s.considerEntry asid task key bs = s.refuseEntry key c := by
  obtain ⟨hrecs, hlist, rfl, ks, hks⟩ := hr
  rw [← entryCode_eq] at hc
  simp only [State.considerEntry, he, hrecs, hlist, Option.map_some, Option.getD_some, hks, Option.isSome_some, hc]

/-- An entry that passes is claimed where all its buffers can be had, and else left (R65). -/
theorem considerEntry_of_passes (hc : codeOf (s.entryTests asid e (parseGRecs gb e.ngrec) ls) = 0)
    (hi : s.tileKeys asid (if e.ctl.getLsbD 3 then .read else .write) (ls.take e.nin) = (s, some ins))
    (ho : s.tileKeys asid .write (ls.drop e.nin) = (s, some outs)) : s.considerEntry asid task key bs =
    if ins.all (s.hasState 1) && outs.all (s.hasState 0) then
      (s.putAll (runWrites (s.claimRuns task key e.ctl.toNat (e.ctl.getLsbD 3) ins outs))).launch asid task e (parseGRecs gb e.ngrec) ls
    else s := by
  obtain ⟨hrecs, hlist, rfl, ks, hks⟩ := hr
  rw [← entryCode_eq] at hc
  have hkeep : e.ctl.toNat / 8 % 2 = 1 ↔ e.ctl.getLsbD 3 = true := by
    rw [← BitVec.testBit_toNat, Nat.testBit_eq_decide_div_mod_eq, decide_eq_true_eq]
  simp only [State.considerEntry, he, hrecs, hlist, Option.map_some, Option.getD_some, hks, Option.isSome_some, hc, hkeep, hi, ho,
    runWrites_claimRuns]
  rfl

end

/-! ### What a claim writes -/

section
variable {s : State} {task key n : Nat} {keep : Bool} {ks : List Nat}

/-- The memory of a claim of the first `n` words of a list as inputs and the others as outputs. -/
def State.claimed (s : State) (task key : Nat) (keep : Bool) (ks : List Nat) (n : Nat) : State :=
  s.putAll (runWrites (s.claimRuns task key (s.rd (key + 62) 2) keep (ks.take n) (ks.drop n)))

theorem heldWord_lt {st a : Nat} (ht : task < 1024) (hst : st < 4) : s.heldWord task st a < 256 ^ 8 := by
  simp only [State.heldWord, tbWord]
  omega

theorem heldWord_eq {st a : Nat} : s.heldWord task st a = s.rd a 8 / 2 ^ 32 * 2 ^ 32 + task * 2 ^ 12 + st := by
  have := rd_lt s a 8
  simp only [State.heldWord, tbWord]
  omega

/-- What a run of a claim is. -/
theorem mem_claimRuns {ctl : Nat} {ins outs : List Nat} {r : Run} : r ∈ s.claimRuns task key ctl keep ins outs ↔
    (keep = false ∧ ∃ a ∈ ins, r = (a, leBytes 8 (s.heldWord task 2 a))) ∨ (∃ a ∈ outs, r = (a, leBytes 8 (s.heldWord task 3 a))) ∨
      r = (key + 62, leBytes 2 (ctl / 4 * 4 + 2)) := by
  cases keep <;> simp [State.claimRuns, eq_comm (b := r)]

variable (hks : ks.Pairwise fun a b => a + 8 ≤ b ∨ b + 8 ≤ a) (hkey : ∀ a ∈ ks, a + 8 ≤ key ∨ key + 64 ≤ a)
include hks hkey

theorem claimRuns_apart : (s.claimRuns task key (s.rd (key + 62) 2) keep (ks.take n) (ks.drop n)).Pairwise Run.apart := by
  rw [← List.take_append_drop n ks, List.pairwise_append] at hks
  obtain ⟨htake, hdrop, hcross⟩ := hks
  have hmap : ∀ st (l : List Nat), l.Pairwise (fun a b => a + 8 ≤ b ∨ b + 8 ≤ a) → (l.map fun a => ((a, leBytes 8 (s.heldWord task st a)) : Run)).Pairwise Run.apart :=
    fun st l hl => List.pairwise_map.mpr (hl.imp fun h => by simpa [Run.apart] using h)
  have hin : ∀ r ∈ (if keep then [] else (ks.take n).map fun a => ((a, leBytes 8 (s.heldWord task 2 a)) : Run)),
      ∃ a ∈ ks.take n, r = (a, leBytes 8 (s.heldWord task 2 a)) := by
    intro r hr
    split at hr
    · exact absurd hr List.not_mem_nil
    · obtain ⟨a, ha, rfl⟩ := List.mem_map.mp hr
      exact ⟨a, ha, rfl⟩
  have hlast : ∀ st a, a ∈ ks → Run.apart (a, leBytes 8 (s.heldWord task st a)) (key + 62, leBytes 2 (s.rd (key + 62) 2 / 4 * 4 + 2)) := by
    intro st a ha
    have := hkey a ha
    simp only [Run.apart, length_leBytes]
    omega
  refine List.pairwise_append.mpr ⟨List.pairwise_append.mpr ⟨?_, hmap 3 _ hdrop, fun r hr q hq => ?_⟩, List.pairwise_singleton .., fun r hr q hq => ?_⟩
  · split
    · exact .nil
    · exact hmap 2 _ htake
  · obtain ⟨a, ha, rfl⟩ := hin r hr
    obtain ⟨b, hb, rfl⟩ := List.mem_map.mp hq
    simpa [Run.apart] using hcross a ha b hb
  · obtain rfl := List.mem_singleton.mp hq
    obtain hr | hr := List.mem_append.mp hr
    · obtain ⟨a, ha, rfl⟩ := hin r hr
      exact hlast 2 a (List.mem_of_mem_take ha)
    · obtain ⟨a, ha, rfl⟩ := List.mem_map.mp hr
      exact hlast 3 a (List.mem_of_mem_drop ha)

/-- CTL reads RUNNING (R65). -/
theorem claimed_ctl : (s.claimed task key keep ks n).rd (key + 62) 2 = s.rd (key + 62) 2 / 4 * 4 + 2 := by
  have h := rd_putAll_runs s (claimRuns_apart (s := s) (task := task) (keep := keep) (n := n) hks hkey) (mem_claimRuns.mpr (.inr (.inr rfl)))
  have := rd_lt s (key + 62) 2
  simp only [length_leBytes, leNat_leBytes] at h
  rw [State.claimed, h]
  omega

/-- Each buffer's word names its task, inputs that are kept being as they were (R65). -/
theorem claimed_word (ht : task < 1024) {j a : Nat} (hj : ks[j]? = some a) : (s.claimed task key keep ks n).rd a 8 =
    if j < n then (if keep = true then s.rd a 8 else s.heldWord task 2 a) else s.heldWord task 3 a := by
  have hrun : ∀ st, st < 4 → ((a, leBytes 8 (s.heldWord task st a)) : Run) ∈ s.claimRuns task key (s.rd (key + 62) 2) keep (ks.take n) (ks.drop n) →
      (s.claimed task key keep ks n).rd a 8 = s.heldWord task st a := by
    intro st hst hr
    have h := rd_putAll_runs s (claimRuns_apart (s := s) (task := task) (keep := keep) (n := n) hks hkey) hr
    simp only [length_leBytes, leNat_leBytes, Nat.mod_eq_of_lt (heldWord_lt ht hst)] at h
    exact h
  by_cases hjn : j < n
  · have ha : a ∈ ks.take n := List.mem_of_getElem? ((List.getElem?_take_of_lt hjn).trans hj)
    rw [if_pos hjn]
    cases keep with
    | false => exact hrun 2 (by decide) (mem_claimRuns.mpr (.inl ⟨rfl, a, ha, rfl⟩))
    | true =>
      refine rd_putAll_runs_ne s fun r hr => ?_
      have hcross := (List.pairwise_append.mp ((List.take_append_drop n ks).symm ▸ hks)).2.2
      obtain ⟨h, _⟩ | ⟨b, hb, rfl⟩ | rfl := mem_claimRuns.mp hr
      · exact absurd h (by decide)
      · simpa using hcross a ha b hb
      · have := hkey a (List.mem_of_mem_take ha)
        simp only [length_leBytes]
        omega
  · have ha : a ∈ ks.drop n := List.mem_of_getElem? (i := j - n) (by rw [List.getElem?_drop, Nat.add_sub_cancel' (Nat.not_lt.mp hjn), hj])
    rw [if_neg hjn]
    exact hrun 3 (by decide) (mem_claimRuns.mpr (.inr (.inl ⟨a, ha, rfl⟩)))

omit hks hkey in
theorem claimed_byte {m : Nat} (hk : ¬ (key + 62 ≤ m ∧ m < key + 64)) (hm : ∀ a ∈ ks, ¬ (a ≤ m ∧ m < a + 8)) :
    (s.claimed task key keep ks n).byte m = s.byte m := by
  refine byte_putAll_runs_ne s _ m fun r hr => ?_
  obtain ⟨_, a, ha, rfl⟩ | ⟨a, ha, rfl⟩ | rfl := mem_claimRuns.mp hr
  · simpa [Run.has] using hm a (List.mem_of_mem_take ha)
  · simpa [Run.has] using hm a (List.mem_of_mem_drop ha)
  · simpa [Run.has, Nat.add_assoc] using hk

end

/-! ### The `Inst` that a claim makes -/

/-- What a sparse table of some values by their keys holds, where those left out read as the default. -/
theorem smGet_filterMap {α : Type} [DecidableEq α] {d : α} (p : Nat → Prop) [DecidablePred p] (f : Nat → α) (l : List Nat) (k : Nat) :
    smGet d (l.filterMap fun g => if p g then none else some (g, f g)) k = if k ∈ l ∧ ¬ p k then f k else d := by
  induction l with
  | nil => simp [smGet]
  | cons a l ih =>
    by_cases hp : p a
    · rw [List.filterMap_cons_none (by exact if_pos hp), ih]
      by_cases hk : k = a
      · subst hk; simp [hp]
      · simp [hk]
    · rw [List.filterMap_cons_some (b := (a, f a)) (by exact if_neg hp), smGet, ih]
      by_cases hk : k = a
      · subst hk; simp [hp]
      · simp [hk, Ne.symm hk]

/-- The `Inst` that a claim makes (R65, R75). -/
def State.newInst (s : State) (asid task : Nat) (e : Entry) (rs : List GRec) (ls : List Nat) : Inst :=
  { id := s.sys.claims + 1, asid := asid, task := task, entry := e, ins := ls.take e.nin, outs := ls.drop e.nin
    groups := (List.range e.ngroups).filterMap fun g => if membersOf rs g = [] then none else some (g, { members := membersOf rs g })
    order := s.point, time := s.now, period := s.pkg.periods, cosets := cosetsOf rs }

theorem newInst_group (s : State) (asid task : Nat) (e : Entry) (rs : List GRec) (ls : List Nat) (g : Nat) :
    (s.newInst asid task e rs ls).group g = if g < e.ngroups then { members := membersOf rs g } else {} := by
  rw [Inst.group, State.newInst, smGet_filterMap fun g => membersOf rs g = []]
  by_cases hg : g < e.ngroups
  · by_cases hm : membersOf rs g = [] <;> simp [hg, hm]
  · simp [hg]

theorem launch_insts (s : State) (asid task : Nat) (e : Entry) (rs : List GRec) (ls : List Nat) :
    (s.launch asid task e rs ls).insts = s.insts ++ [s.newInst asid task e rs ls] := rfl

theorem launch_gangs (s : State) (asid task : Nat) (e : Entry) (rs : List GRec) (ls : List Nat) : (s.launch asid task e rs ls).gangs =
    s.gangs ++ (List.range e.gangs).map fun k => gangOf asid task (s.sys.claims + 1) k (s.sys.nextGid + k) (s.sys.claims + 1) e s.now s.pkg.periods := rfl

/-! ### The event -/

/-- An entry that the distributor looks at is one of its table that is ARMED and can be read and written (R61). -/
theorem exec_eligibility {s : State} {asid task k : Nat} (ht : task < 1024) (hrun : s.runs asid task = false) (hm : s.windowMiss = false)
    (hst : (s.ctx asid).st = .bound) (hend : (s.ctx asid).ending = none) (htt : ttOk (s.ctx asid).ttbase = true) (htb : tbOk (s.ctx asid).tbbase = true)
    (hr : s.q3Walk asid .read ((s.ctx asid).ttbase.toNat + 64 * task) = (s, .ok k))
    (hw : s.q3Walk asid .write ((s.ctx asid).ttbase.toNat + 64 * task) = (s, .ok k)) (hc : s.rd (k + 62) 2 % 4 = 1) :
    exec (.eligibilityEvaluation asid task) s = .next (s.considerEntry asid task k (s.bytes k 64)) := by
  have hkey : s.armedKey asid task = some (s, k, true) := by
    simp [State.armedKey, Nat.not_le.mpr ht, hrun, hst, hend, htt, htb, hr, hw, ctlState, hc]
  show execEligibilityEvaluation asid task s = _
  rw [execEligibilityEvaluation, hm, hkey]
  simp only [Bool.false_eq_true, if_false, if_true]
  split
  · rename_i h
    rw [h]
  · rfl

theorem windowMiss_of_no_window {s : State} (h : s.sys.mclkEnd = none) : s.windowMiss = false := by simp [State.windowMiss, h]

end Sys2Proof.Machine

/-! Completion (03_tasks R64, R67). -/

namespace Sys2Proof.Machine

/-! ### Releases of buffers -/

/-- What a tile-buffer word becomes when a task that holds it in state `st` completes (R64). -/
def releasedValue (task st w : Nat) : Nat :=
  if w % 4 ≠ st ∨ w / 2 ^ 12 % 2 ^ 10 ≠ task then w else if st = 3 then (w / 2 ^ 32 + 1) % 2 ^ 32 * 2 ^ 32 + 1 else w / 2 ^ 32 * 2 ^ 32

theorem releasedValue_lt {task st w : Nat} (h : w < 256 ^ 8) : releasedValue task st w < 256 ^ 8 := by
  unfold releasedValue
  split_ifs <;> omega

theorem releaseWord_eq {s : State} {asid task b st a : Nat} (hst : st = 2 ∨ st = 3)
    (h : s.q3Walk asid .write ((s.ctx asid).tbbase.toNat + 8 * b) = (s, .ok a)) : s.releaseWord asid task b st =
    if releasedValue task st (s.rd a 8) = s.rd a 8 then s else s.wr a 8 (releasedValue task st (s.rd a 8)) := by
  have hw := rd_lt s a 8
  simp only [State.releaseWord, h, Bool.and_eq_true, decide_eq_true_eq]
  by_cases hc : tbSt (s.rd a 8) = st ∧ tbHolder (s.rd a 8) = task
  · have hv : releasedValue task st (s.rd a 8) = if st = 3 then (s.rd a 8 / 2 ^ 32 + 1) % 2 ^ 32 * 2 ^ 32 + 1 else s.rd a 8 / 2 ^ 32 * 2 ^ 32 :=
      if_neg (not_or.mpr ⟨not_not.mpr hc.1, not_not.mpr hc.2⟩)
    have hnew : (if st = 3 then tbWord (s.rd a 8 / 2 ^ 32 + 1) 0 1 else tbWord (s.rd a 8 / 2 ^ 32) 0 0) = releasedValue task st (s.rd a 8) := by
      rw [hv, (tbWord_full _).1, (tbWord_empty hw).1]
    have hne : releasedValue task st (s.rd a 8) ≠ s.rd a 8 := by
      have hst' : s.rd a 8 % 4 = st := hc.1
      rw [hv]
      split <;> omega
    rw [if_pos hc, hnew, if_neg hne]
  · have hv : releasedValue task st (s.rd a 8) = s.rd a 8 := if_pos (not_and_or.mp hc)
    rw [if_neg hc, hv, if_pos rfl]

/-- The state after the first `n` of a list of words have taken new values, one after another. -/
def State.released (s : State) (ks : List Nat) (after : Nat → Nat → Nat) (n : Nat) : State :=
  (List.range n).foldl (fun t j => match ks[j]? with
    | some a => if after j a = s.rd a 8 then t else t.wr a 8 (after j a)
    | none => t) s

section
variable {s : State} {ks : List Nat} {after : Nat → Nat → Nat}

theorem released_succ_of_some {n a : Nat} (h : ks[n]? = some a) : s.released ks after (n + 1) =
    if after n a = s.rd a 8 then s.released ks after n else (s.released ks after n).wr a 8 (after n a) := by
  simp only [State.released, List.range_succ, List.foldl_append, List.foldl_cons, List.foldl_nil, h]

theorem released_succ_of_none {n : Nat} (h : ks[n]? = none) : s.released ks after (n + 1) = s.released ks after n := by
  simp only [State.released, List.range_succ, List.foldl_append, List.foldl_cons, List.foldl_nil, h]

theorem released_frame (n : Nat) : s.released ks after n =
    { s with mem := (s.released ks after n).mem, journal := (s.released ks after n).journal } := by
  induction n with
  | zero => rfl
  | succ n ih =>
    cases h : ks[n]? with
    | none => rw [released_succ_of_none h]; exact ih
    | some a =>
      rw [released_succ_of_some h]
      split
      · exact ih
      · rw [wr_frame, ih]

theorem released_ctx (n asid : Nat) : (s.released ks after n).ctx asid = s.ctx asid := by rw [released_frame]; rfl

theorem released_byte {j : Nat} (n : Nat) (h : ∀ a ∈ ks, ¬ (a ≤ j ∧ j < a + 8)) : (s.released ks after n).byte j = s.byte j := by
  induction n with
  | zero => rfl
  | succ n ih =>
    cases hn : ks[n]? with
    | none => rw [released_succ_of_none hn, ih]
    | some a =>
      rw [released_succ_of_some hn]
      split
      · exact ih
      · rw [byte_wr_ne _ _ _ _ _ (h a (List.mem_of_getElem? hn)), ih]

/-- A word after `n` releases: released where it is one of the first `n`. -/
theorem released_rd (hdis : ∀ i j a b : Nat, ks[i]? = some a → ks[j]? = some b → i ≠ j → a + 8 ≤ b ∨ b + 8 ≤ a) {j a : Nat} (hj : ks[j]? = some a)
    (hlt : after j a < 256 ^ 8) (n : Nat) : (s.released ks after n).rd a 8 = if j < n then after j a else s.rd a 8 := by
  induction n with
  | zero => rfl
  | succ n ih =>
    cases hn : ks[n]? with
    | none =>
      obtain ⟨hjl, _⟩ := List.getElem?_eq_some_iff.mp hj
      have := List.getElem?_eq_none_iff.mp hn
      rw [released_succ_of_none hn, ih, if_pos (by omega), if_pos (by omega)]
    | some b =>
      rw [released_succ_of_some hn]
      by_cases hjn : j = n
      · subst hjn
        obtain rfl : a = b := Option.some.inj (hj.symm.trans hn)
        rw [if_pos (Nat.lt_succ_self _)]
        split
        · rw [ih, if_neg (Nat.lt_irrefl _), ‹after j a = _›]
        · rw [rd_wr, Nat.mod_eq_of_lt hlt]
      · have hcond : j < n + 1 ↔ j < n := by omega
        simp only [hcond]
        rw [← ih]
        split
        · rfl
        · exact rd_wr_ne _ _ _ _ _ _ (hdis j n a b hj hn hjn)

end

/-- Releases of the buffers of a list, each with the state in which its task holds it. -/
theorem foldl_releaseWord {s : State} {asid task : Nat} {bs : List (Nat × Nat)} {ks : List Nat} {st : Nat → Nat} (hlen : ks.length = bs.length)
    (hst : ∀ j x, bs[j]? = some x → x.2 = st j ∧ (x.2 = 2 ∨ x.2 = 3))
    (hdis : ∀ i j a b : Nat, ks[i]? = some a → ks[j]? = some b → i ≠ j → a + 8 ≤ b ∨ b + 8 ≤ a)
    (hwalk : ∀ j x a, bs[j]? = some x → ks[j]? = some a →
      (s.released ks (fun j a => releasedValue task (st j) (s.rd a 8)) j).q3Walk asid .write ((s.ctx asid).tbbase.toNat + 8 * x.1) =
        (s.released ks (fun j a => releasedValue task (st j) (s.rd a 8)) j, .ok a)) {n : Nat} (hn : n ≤ bs.length) :
    (bs.take n).foldl (fun t x => t.releaseWord asid task x.1 x.2) s = s.released ks (fun j a => releasedValue task (st j) (s.rd a 8)) n := by
  induction n with
  | zero => rfl
  | succ n ih =>
    have hb : bs[n]? = some bs[n] := List.getElem?_eq_getElem hn
    have hk : ks[n]? = some (ks[n]'(by omega)) := List.getElem?_eq_getElem (by omega)
    have hrd := released_rd (s := s) (after := fun j a => releasedValue task (st j) (s.rd a 8)) hdis hk (releasedValue_lt (rd_lt s _ 8)) n
    rw [if_neg (Nat.lt_irrefl n)] at hrd
    have hw := hwalk n _ _ hb hk
    rw [← released_ctx (ks := ks) (after := fun j a => releasedValue task (st j) (s.rd a 8)) n] at hw
    obtain ⟨hstn, hst23⟩ := hst n _ hb
    rw [List.take_add_one, hb, Option.toList_some, List.foldl_append, ih (by omega), List.foldl_cons, List.foldl_nil, releaseWord_eq hst23 hw,
      released_succ_of_some hk, hrd, hstn]

/-- The buffers of an `Inst` in the order of their releases, each with the state in which it is held (R67). -/
def Inst.held (i : Inst) : List (Nat × Nat) := (i.outs.map fun b => (b, 3)) ++ if i.entry.ctl.getLsbD 3 then [] else i.ins.map fun b => (b, 2)

/-- The state in which the buffer of a number is held. -/
def Inst.heldSt (i : Inst) (j : Nat) : Nat := if j < i.outs.length then 3 else 2

theorem held_map_fst (i : Inst) : i.held.map Prod.fst = i.outs ++ if i.entry.ctl.getLsbD 3 then [] else i.ins := by
  unfold Inst.held
  split <;> simp [List.map_map, Function.comp_def]

theorem held_getElem? {i : Inst} {j : Nat} {x : Nat × Nat} (h : i.held[j]? = some x) : x.2 = i.heldSt j ∧ (x.2 = 2 ∨ x.2 = 3) := by
  unfold Inst.held at h
  unfold Inst.heldSt
  by_cases hj : j < i.outs.length
  · rw [List.getElem?_append_left (by simpa using hj), List.getElem?_map, Option.map_eq_some_iff] at h
    obtain ⟨b, _, rfl⟩ := h
    simp [hj]
  · rw [List.getElem?_append_right (by simpa using hj)] at h
    split at h
    · simp at h
    · rw [List.getElem?_map, Option.map_eq_some_iff] at h
      obtain ⟨b, _, rfl⟩ := h
      simp [hj]

/-! ### The end of an `Inst` -/

section
variable {s : State} {i : Inst} {id : Nat}

/-- Nothing of an `Inst` is outstanding, nor a copy to the memory of one of its gangs (R67, 11_copy R268). -/
theorem instDone_of_idle (he : i.ended = false)
    (h : ∀ g ∈ s.gang :: s.gangs, g.gid ≠ 0 → g.inst = i.id → g.st = .exited ∧ g.queue = [] ∧ g.array = none ∧ (∀ o ∈ s.ops, o.gid ≠ g.gid) ∧
      (∀ o ∈ s.ops, ∀ r ∈ (o.ranges.map fun r => (r.base, r.len)) ++ (o.stamp.toList.map fun y => (y.1, 8)),
        localKey (32 * g.stk + g.core) g.base + g.localk * 1024 ≤ r.1 ∨ r.1 + r.2 ≤ localKey (32 * g.stk + g.core) g.base) ∧
      ∀ a ∈ s.accs, a.gid ≠ g.gid) : s.instDone i = true := by
  simp only [State.instDone, he, Bool.not_false, Bool.true_and, List.all_eq_true, List.mem_filter, Bool.and_eq_true, bne_iff_ne, beq_iff_eq]
  rintro g ⟨hg, hgid, hinst⟩
  obtain ⟨hst, hq, harr, hops, hcopies, haccs⟩ := h g hg hgid hinst
  have hno : s.targeted g = false := by
    rw [State.targeted, List.any_eq_false]
    intro o ho hc
    obtain ⟨r, hr, hc⟩ := List.any_eq_true.mp (Bool.and_eq_true_iff.mp hc).2
    have := hcopies o ho r hr
    simp only [Bool.and_eq_true, decide_eq_true_eq] at hc
    omega
  simpa [hst, hq, harr, hno] using ⟨hops, haccs⟩

/-- The entry of an `Inst` that completes: RUNNING becomes IDLE, or ARMED where REARM says so (R67). -/
def State.endEntry (s : State) (i : Inst) : State :=
  match s.q3Walk i.asid .write ((s.ctx i.asid).ttbase.toNat + 64 * i.task) with
  | (_, .error _) => s
  | (t, .ok k) =>
    let ctl := t.rd (k + 62) 2
    if ctlState ctl = 2 then t.wr (k + 62) 2 (ctl / 4 * 4 + (if ctl / 4 % 2 = 1 then 1 else 0)) else s

/-- INSTANCE_COMPLETION releases the buffers in order, ends the entry, and drops the `Inst`. -/
theorem exec_completion (hi : s.inst? id = some i) (hd : s.instDone i = true) (hw : s.windowMiss = false) : exec (.instanceCompletion id) s =
    .next (((i.held.foldl (fun t x => t.releaseWord i.asid i.task x.1 x.2) s).endEntry i).dropInst id) := by
  have hfold : i.held.foldl (fun t x => t.releaseWord i.asid i.task x.1 x.2) s =
      if i.entry.ctl.getLsbD 3 then i.outs.foldl (fun s b => s.releaseWord i.asid i.task b 3) s
      else i.ins.foldl (fun s b => s.releaseWord i.asid i.task b 2) (i.outs.foldl (fun s b => s.releaseWord i.asid i.task b 3) s) := by
    rw [Inst.held, List.foldl_append, List.foldl_map]
    split
    · rfl
    · rw [List.foldl_map]
  show execInstanceCompletion id s = _
  rw [execInstanceCompletion, hi, hfold]
  simp only [hd, hw, Bool.not_true, Bool.or_false, Bool.false_eq_true, if_false]
  rfl

theorem endEntry_of_written {k : Nat} (h : s.q3Walk i.asid .write ((s.ctx i.asid).ttbase.toNat + 64 * i.task) = (s, .ok k)) : s.endEntry i =
    if s.rd (k + 62) 2 % 4 = 2 then s.wr (k + 62) 2 (s.rd (k + 62) 2 / 4 * 4 + (if s.rd (k + 62) 2 / 4 % 2 = 1 then 1 else 0)) else s := by
  simp only [State.endEntry, h]
  rfl

theorem endEntry_ctl {k : Nat} (h : s.q3Walk i.asid .write ((s.ctx i.asid).ttbase.toNat + 64 * i.task) = (s, .ok k)) : (s.endEntry i).rd (k + 62) 2 =
    if s.rd (k + 62) 2 % 4 = 2 then s.rd (k + 62) 2 / 4 * 4 + (if s.rd (k + 62) 2 / 4 % 2 = 1 then 1 else 0) else s.rd (k + 62) 2 := by
  rw [endEntry_of_written h]
  have := rd_lt s (k + 62) 2
  split
  · rw [rd_wr, Nat.mod_eq_of_lt]
    split <;> omega
  · rfl

theorem endEntry_byte {k j : Nat} (h : s.q3Walk i.asid .write ((s.ctx i.asid).ttbase.toNat + 64 * i.task) = (s, .ok k))
    (hj : ¬ (k + 62 ≤ j ∧ j < k + 64)) : (s.endEntry i).byte j = s.byte j := by
  rw [endEntry_of_written h]
  split
  · exact byte_wr_ne _ _ _ _ _ hj
  · rfl

/-- The end of an entry changes memory and the journal alone. -/
theorem endEntry_frame {k : Nat} (h : s.q3Walk i.asid .write ((s.ctx i.asid).ttbase.toNat + 64 * i.task) = (s, .ok k)) :
    s.endEntry i = { s with mem := (s.endEntry i).mem, journal := (s.endEntry i).journal } := by
  rw [endEntry_of_written h]
  split
  · exact wr_frame ..
  · rfl

/-- The identifiers of the gangs of an `Inst`. -/
def State.gidsOf (s : State) (id : Nat) : List Nat := (s.allGangs.filter fun g => g.inst == id && g.gid != 0).map Gang.gid

theorem mem_gidsOf {g : Gang} (hg : g ∈ s.gang :: s.gangs) (hgid : g.gid ≠ 0) (hi : g.inst = id) : g.gid ∈ s.gidsOf id :=
  List.mem_map_of_mem (List.mem_filter.mpr ⟨hg, by simp [hgid, hi]⟩)

/-- With an `Inst` go its gangs. -/
theorem dropInst_gangs {g : Gang} (hg : g ∈ (s.dropInst id).gang :: (s.dropInst id).gangs) (hgid : g.gid ≠ 0) : g.inst ≠ id := by
  intro hi
  have hgone : ∀ h : Gang, h ∈ s.gang :: s.gangs → h.gid ≠ 0 → h.inst = id → (h.gid != 0 && (s.gidsOf id).contains h.gid) = true := fun h hh hgid hi => by
    simp [hgid, mem_gidsOf hh hgid hi]
  obtain rfl | hg := List.mem_cons.mp hg
  · change Gang.gid (if (s.gang.gid != 0 && (s.gidsOf id).contains s.gang.gid) = true then {} else s.gang) ≠ 0 at hgid
    change Gang.inst (if (s.gang.gid != 0 && (s.gidsOf id).contains s.gang.gid) = true then {} else s.gang) = id at hi
    split at hgid
    · exact hgid rfl
    · rw [if_neg ‹_›] at hi
      exact ‹¬ _› (hgone _ List.mem_cons_self hgid hi)
  · obtain ⟨hmem, hkeep⟩ := List.mem_filter.mp hg
    have := hgone g (List.mem_cons_of_mem _ hmem) hgid hi
    rw [Bool.not_eq_true'] at hkeep
    exact absurd (this.symm.trans hkeep) (by decide)

/-- With an `Inst` go the warps of its gangs. -/
theorem dropInst_warps {g : Gang} {x : Warp} (hg : g ∈ s.gang :: s.gangs) (hgid : g.gid ≠ 0) (hi : g.inst = id)
    (hx : x ∈ (s.dropInst id).me :: (s.dropInst id).warps) : x.gid ≠ g.gid := by
  intro hxg
  have hgone : ∀ y : Warp, y.gid = g.gid → (y.gid != 0 && (s.gidsOf id).contains y.gid) = true := fun y hy => by
    simp [hy, hgid, mem_gidsOf hg hgid hi]
  obtain rfl | hx := List.mem_cons.mp hx
  · change Warp.gid (if (s.me.gid != 0 && (s.gidsOf id).contains s.me.gid) = true then {} else s.me) = g.gid at hxg
    split at hxg
    · exact hgid hxg.symm
    · exact ‹¬ _› (hgone _ hxg)
  · have hkeep := (List.mem_filter.mp hx).2
    rw [Bool.not_eq_true'] at hkeep
    exact absurd ((hgone x hxg).symm.trans hkeep) (by decide)

end

end Sys2Proof.Machine

/-! Claims and completion: the two halves of O40 put together (03_tasks R60 to R67). -/

namespace Sys2Proof.Machine

/-- A completion changes only the memory and the journal. -/
theorem endEntry_released_frame {s : State} {i : Inst} {ks : List Nat} {after : Nat → Nat → Nat} {n k : Nat}
    (h : (s.released ks after n).q3Walk i.asid .write (((s.released ks after n).ctx i.asid).ttbase.toNat + 64 * i.task) = (s.released ks after n, .ok k)) :
    ∃ m j, (s.released ks after n).endEntry i = { s with mem := m, journal := j } :=
  ⟨_, _, (endEntry_frame h).trans (congrArg (fun u : State => { u with
    mem := ((s.released ks after n).endEntry i).mem, journal := ((s.released ks after n).endEntry i).journal }) (released_frame n))⟩

theorem readable_of {s : State} {asid : Nat} {e : Entry} {gb lb : List (BitVec 8)} {ls : List Nat}
    (hg0 : e.ngrec = 0 → gb = []) (hg : e.ngrec ≠ 0 → s.q3Read asid e.grec.toNat (12 * e.ngrec) = (s, some gb))
    (hl0 : e.nin + e.nout = 0 ∨ 32 < e.nin + e.nout → lb = [])
    (hl : 0 < e.nin + e.nout → e.nin + e.nout ≤ 32 → s.q3Read asid e.tblist.toNat (2 * (e.nin + e.nout)) = (s, some lb))
    (hls : ls = (List.range (if 32 < e.nin + e.nout then 0 else e.nin + e.nout)).map fun j => fieldAt lb (2 * j) 2)
    (hwords : ∀ b ∈ ls, b < 4096 → ∃ a, s.wordAt asid .read b a) : s.Readable asid e gb lb ls where
  recs := by
    split
    · rw [hg0 ‹_›]
    · exact hg ‹_›
  list := by
    split
    · rename_i h
      rw [hl0 (by simpa using h)]
    · rename_i h
      simp only [Bool.or_eq_true, decide_eq_true_eq, not_or] at h
      exact hl (by omega) (by omega)
  eq := hls.symm
  words := exists_tileKeys fun b hb => by
    obtain ⟨hb, hlt⟩ := List.mem_filter.mp hb
    exact hwords b hb (by simpa using hlt)

theorem forall₂_of_getElem? {α β : Type} {R : α → β → Prop} {l : List α} {m : List β} (hlen : l.length = m.length)
    (h : ∀ (j : Nat) (b : α) (a : β), l[j]? = some b → m[j]? = some a → R b a) : List.Forall₂ R l m :=
  List.forall₂_iff_get.mpr ⟨hlen, fun j hl hm => h j _ _ (List.getElem?_eq_getElem hl) (List.getElem?_eq_getElem hm)⟩

/-- The first `n` words can be had as inputs and the others as outputs (R65). -/
theorem all_hasState_iff {s : State} {ks : List Nat} {n : Nat} : ((ks.take n).all (s.hasState 1) && (ks.drop n).all (s.hasState 0)) = true ↔
    ∀ j a : Nat, ks[j]? = some a → s.hasState (if j < n then 1 else 0) a = true := by
  simp only [Bool.and_eq_true, List.all_eq_true]
  constructor
  · rintro ⟨hi, ho⟩ j a hj
    split
    · exact hi a (List.mem_of_getElem? ((List.getElem?_take_of_lt ‹_›).trans hj))
    · exact ho a (List.mem_of_getElem? (i := j - n) (by rw [List.getElem?_drop, Nat.add_sub_cancel' (Nat.not_lt.mp ‹_›), hj]))
  · refine fun h => ⟨fun a ha => ?_, fun a ha => ?_⟩
    · obtain ⟨j, hj⟩ := List.mem_iff_getElem?.mp ha
      rw [List.getElem?_take] at hj
      split at hj
      · simpa [*] using h j a hj
      · simp at hj
    · obtain ⟨j, hj⟩ := List.mem_iff_getElem?.mp ha
      rw [List.getElem?_drop] at hj
      simpa using h (n + j) a hj

theorem hasState_iff {s : State} {st a : Nat} : s.hasState st a = true ↔
    s.rd a 8 / 4 % 2 ^ 10 = 0 ∧ s.rd a 8 / 2 ^ 22 % 2 ^ 10 = 0 ∧ s.rd a 8 % 4 = st := by
  rw [State.hasState, Bool.and_eq_true, tbClean_iff, beq_iff_eq, tbSt, and_assoc]

theorem refuseEntry_ctl {s : State} {k c : Nat} (h : c < 256) : (s.refuseEntry k c).rd (k + 62) 2 = s.rd (k + 62) 2 % 256 / 4 * 4 + 3 + c * 256 := by
  rw [State.refuseEntry, rd_wr]
  omega

end Sys2Proof.Machine
namespace Sys2Proof

open Machine in
/-- Settles O40: a claim by its first failing check or by the run of claimed words, a completion by the run of released ones. -/
theorem claimsAndCompletion : Obligations.ClaimsAndCompletion := by
  unfold Obligations.ClaimsAndCompletion
  intro s
  refine ⟨?claims, ?completion⟩
  case claims =>
    intro asid task k x va ht hrun hclk hst hend htt hta htb hba hr hw hc field ctl gangs ng warps regs localk ngroups ins n keep alm e gb lb ls hg0 hg hl0 hl hls hwords
      group gang mask lies badGroup tooLarge claimed fails
    have hex := exec_eligibility ht hrun (windowMiss_of_no_window hclk) hst hend (ttOk_iff.mpr ⟨htt, hta⟩) (tbOk_iff.mpr ⟨htb, hba⟩) hr hw hc
    have he : e = _ := parseEntry_bytes s k
    have hctl : ctl.toNat = field 62 2 := toNat_ofNat_rd16 s (k + 62)
    have hread : s.Readable asid e gb lb ls := by
      rw [he]
      refine readable_of hg0 ?_ hl0 ?_ hls hwords
      · rw [toNat_ofNat_rd]; exact hg
      · rw [toNat_ofNat_rd]; exact hl
    have htests : List.Forall₂ (fun p b => (b.1 = true ↔ p.1) ∧ p.2 = b.2) fails (s.entryTests asid e (parseGRecs gb e.ngrec) ls) := by
      have hany : ∀ {P : GRec → Bool}, ((parseGRecs gb ng).any P = true ↔ ∃ j, j < ng ∧ P (grecAt gb j) = true) := List.any_eq_true.trans exists_mem_parseGRecs
      rw [he]
      refine .cons ⟨?_, rfl⟩ (.cons ⟨?_, rfl⟩ (.cons ⟨?_, rfl⟩ (.cons ⟨?_, rfl⟩ (.cons ⟨?_, rfl⟩ (.cons ⟨?_, rfl⟩ (.cons ⟨?_, rfl⟩ (.cons ⟨?_, rfl⟩ .nil)))))))
      · simp only [Bool.or_eq_true, decide_eq_true_eq, or_assoc]; exact Iff.rfl
      · simp only [Bool.and_eq_true, decide_eq_true_eq]; exact Iff.rfl
      · rw [Bool.or_eq_true, Bool.or_eq_true, or_assoc]
        refine or_congr decide_eq_true_iff (or_congr (hany.trans ?_) five_groups_iff)
        simp only [Bool.or_eq_true, decide_eq_true_eq, or_assoc]; exact Iff.rfl
      · simp only [List.any_eq_true, decide_eq_true_eq]; exact Iff.rfl
      · simp only [Bool.or_eq_true, decide_eq_true_eq, or_assoc, List.any_eq_true, ne_eq, length_eraseDups_eq_iff]; exact Iff.rfl
      · simp only [Bool.or_eq_true, decide_eq_true_eq]; exact Iff.rfl
      · simp only [Bool.or_eq_true, decide_eq_true_eq, toNat_ofNat_rd]; exact Iff.rfl
      · rw [Bool.or_eq_true, Bool.or_eq_true, Bool.or_eq_true, or_assoc, or_assoc, hany]
        simp only [bne_iff_ne, grecAt]; exact Iff.rfl
    refine ⟨fun before after c P hf hP hn => ?_, fun hpass ks hlen hks hdis hkey => ?_⟩
    · have hrange : c ∈ [1, 2, 3, 4, 5, 6, 7, 8] := List.mem_map_of_mem (f := Prod.snd) (show (P, c) ∈ fails by rw [hf]; simp)
      have hc0 : c ≠ 0 ∧ c < 256 := by simp at hrange; omega
      have hent := considerEntry_of_fails (key := k) (task := task) rfl hread (codeOf_of_first htests hf hP hn) hc0.1
      refine ⟨_, hex.trans (congrArg _ hent), ?_, fun j hj => byte_wr_ne _ _ _ _ _ hj, ?_, ?_⟩
      · rw [refuseEntry_ctl hc0.2, hctl]
      · rw [State.refuseEntry, wr_frame]
      · rw [State.refuseEntry, wr_frame]
    · have h3 : ¬ badGroup := hpass (badGroup, 3) (List.mem_of_getElem? (i := 2) rfl)
      have h5 : ¬ (16 < ins ∨ 16 < field 57 1 ∨ (∃ b ∈ ls, 4096 ≤ b) ∨ ¬ ls.Nodup) := hpass (_, 5) (List.mem_of_getElem? (i := 4) rfl)
      have hnle : ¬ 32 < n := by
        show ¬ 32 < ins + field 57 1
        omega
      have hlslen : ls.length = ks.length := by rw [hls, List.length_map, List.length_range, if_neg hnle, hlen]
      have hnin : e.nin = ins := congrArg Entry.nin he
      have hin : List.Forall₂ (s.wordAt asid (if keep then .read else .write)) (ls.take ins) (ks.take ins) := by
        refine forall₂_of_getElem? (by simp [hlslen]) fun j b a hb ha => ?_
        rw [List.getElem?_take] at hb ha
        split at hb
        · rw [if_pos ‹_›] at ha
          obtain ⟨hread, hwrite⟩ := hks j b a hb ha
          cases hk : keep
          · exact hwrite (.inl hk)
          · exact hread
        · exact absurd hb (by simp)
      have hout : List.Forall₂ (s.wordAt asid .write) (ls.drop ins) (ks.drop ins) := by
        refine forall₂_of_getElem? (by simp [hlslen]) fun j b a hb ha => ?_
        rw [List.getElem?_drop] at hb ha
        exact (hks _ b a hb ha).2 (.inr (Nat.le_add_right _ _))
      have hent := considerEntry_of_passes (task := task) (key := k) (ins := ks.take ins) (outs := ks.drop ins) rfl hread (codeOf_of_none htests hpass)
        (tileKeys_of_wordAt (hnin ▸ hin)) (tileKeys_of_wordAt (hnin ▸ hout))
      refine ⟨fun ⟨j, a, hj, hfit⟩ => ?_, fun hfit => ?_⟩
      · have hnot := fun h => hfit (hasState_iff.mp (all_hasState_iff.mp h j a hj))
        exact ⟨s, hex.trans (congrArg _ (hent.trans (if_neg hnot))), rfl⟩
      · have hall := all_hasState_iff.mpr fun j a hj => hasState_iff.mpr (hfit j a hj)
        have hdis : ks.Pairwise fun a b => a + 8 ≤ b ∨ b + 8 ≤ a := List.pairwise_iff_getElem.mpr fun i j hi hj hij =>
          hdis i j _ _ (List.getElem?_eq_getElem hi) (List.getElem?_eq_getElem hj) hij.ne
        rw [if_pos hall, show e.ctl.toNat = s.rd (k + 62) 2 from hctl] at hent
        refine ⟨(s.claimed task k keep ks ins).launch asid task e (parseGRecs gb e.ngrec) ls, hex.trans (congrArg _ hent), ?_, ⟨?_, ?_, rfl, rfl, rfl⟩,
          fun j a hj => ?_, fun m hm hks => claimed_byte hm hks⟩
        · rw [hctl]
          exact claimed_ctl hdis hkey
        · refine ⟨_, launch_insts _ _ _ _ _ _, rfl, rfl, rfl, rfl, congrArg ls.take hnin, congrArg ls.drop hnin, rfl, fun g => ?_⟩
          rw [newInst_group]
          split
          · exact ⟨rfl, rfl, rfl, rfl, nodup_eraseDups _, fun m => mem_membersOf⟩
          · rename_i hge
            rw [show e.ngroups = ngroups from congrArg Entry.ngroups he, Nat.not_lt] at hge
            refine ⟨rfl, rfl, rfl, rfl, List.nodup_nil, fun m => iff_of_false List.not_mem_nil ?_⟩
            rintro ⟨G, w, _, _, j, hj, rfl, _⟩
            exact h3 (.inr (.inl ⟨j, hj, .inl hge⟩))
        · refine ⟨_, launch_gangs _ _ _ _ _ _, by simp; exact congrArg Entry.gangs he, fun i g hg => ?_⟩
          rw [List.getElem?_map, Option.map_eq_some_iff] at hg
          obtain ⟨j, hj, rfl⟩ := hg
          obtain ⟨_, rfl⟩ := List.getElem?_eq_some_iff.mp hj
          simp only [List.getElem_range]
          exact ⟨rfl, rfl, rfl, rfl, rfl, rfl, congrArg Entry.warps he, congrArg Entry.regs he, congrArg Entry.localk he, congrArg Entry.prio he⟩
        · rw [← heldWord_eq, ← heldWord_eq]
          exact claimed_word hdis hkey ht hj
  case completion =>
    intro i hi hend hclk hidle gone bs result after ks k hlen hdis hkey m hwalk hentry
    have hex := exec_completion hi (instDone_of_idle hend hidle) (windowMiss_of_no_window hclk)
    have hbs : i.held.map Prod.fst = bs := held_map_fst i
    have hafter : after = fun j a => releasedValue i.task (i.heldSt j) (s.rd a 8) := by
      funext j a
      by_cases hj : j < i.outs.length <;> simp [after, result, releasedValue, Inst.heldSt, hj]
    have hm : ∀ n, m n = s.released ks (fun j a => releasedValue i.task (i.heldSt j) (s.rd a 8)) n := fun n => by rw [← hafter]; rfl
    have hheld : i.held.length = bs.length := by rw [← hbs, List.length_map]
    have hfold := foldl_releaseWord (s := s) (asid := i.asid) (task := i.task) (hlen.trans hheld.symm) (fun j x hx => held_getElem? hx) hdis
      (fun j x a hx ha => by
        rw [← hm]
        exact hwalk j _ a (by rw [← hbs, List.getElem?_map, hx]; rfl) ha) le_rfl
    rw [List.take_length, hheld] at hfold
    have hctx : (m bs.length).ctx i.asid = s.ctx i.asid := by rw [hm, released_ctx]
    rw [← hctx, hm] at hentry
    rw [hfold] at hex
    obtain ⟨mm, jj, hframe⟩ := endEntry_released_frame hentry
    refine ⟨_, hex, ⟨?_, fun g hg hgid => dropInst_gangs hg hgid, fun g hg hgid hgi x hx => ?_⟩, ?_, fun j a hj => ?_, fun j hjk hj => ?_⟩
    · exact congrArg (fun u : State => u.insts.filter fun x => x.id != i.id) hframe
    · rw [hframe] at hx
      exact dropInst_warps hg hgid hgi hx
    · have hctl : (s.released ks (fun j a => releasedValue i.task (i.heldSt j) (s.rd a 8)) bs.length).rd (k + 62) 2 = s.rd (k + 62) 2 :=
        rd_congr fun b _ _ => released_byte _ fun a ha => by have := hkey a ha; omega
      exact (endEntry_ctl hentry).trans (by rw [hctl])
    · have hjl : j < bs.length := hlen ▸ (List.getElem?_eq_some_iff.mp hj).1
      have hrd := released_rd (s := s) hdis hj (releasedValue_lt (rd_lt s a 8)) bs.length (after := fun j a => releasedValue i.task (i.heldSt j) (s.rd a 8))
      rw [if_pos hjl] at hrd
      rw [hafter]
      refine (rd_congr fun b _ _ => ?_).trans hrd
      exact endEntry_byte hentry (by have := hkey a (List.mem_of_getElem? hj); omega)
    · exact (endEntry_byte hentry hjk).trans (released_byte _ hj)

end Sys2Proof

/-! The best of a list, and the best core for a gang (03_tasks R68, R70; 08_memory R199). -/

namespace Sys2Proof.Machine

/-! ### The best of a list -/

/-- An order by which a fold with `pick` finds a best one: of two at most one goes before the other, and what goes before a third goes before every other
or has it go before the third. -/
structure Ranks {α : Type} (before : α → α → Bool) : Prop where
  asymm {x y : α} : before x y = true → before y x = false
  between {x y z : α} : before x z = true → before x y = true ∨ before y z = true

/-- A step of a fold that keeps the better of two: the new one where it goes before the one kept so far. -/
structure Picks {α : Type} (before : α → α → Bool) (f : Option α → α → Option α) : Prop where
  none (x : α) : f none x = some x
  some (x y : α) : f (some y) x = if before x y then some x else some y

section
variable {α : Type} {before : α → α → Bool} {f : Option α → α → Option α}

theorem foldl_picks_some (hf : Picks before f) (hb : Ranks before) (l : List α) (x : α) :
    ∃ m, l.foldl f (some x) = some m ∧ m ∈ x :: l ∧ ∀ y ∈ x :: l, before y m = false := by
  induction l generalizing x with
  | nil => exact ⟨x, rfl, by simp, by simpa using Bool.eq_false_of_not_eq_true fun h => absurd (hb.asymm h) (by simp [h])⟩
  | cons a l ih =>
    rw [List.foldl_cons, hf.some]
    split
    case isTrue h =>
      obtain ⟨m, hm, hmem, hbest⟩ := ih a
      refine ⟨m, hm, .tail _ hmem, List.forall_mem_cons.mpr ⟨?_, hbest⟩⟩
      by_contra hx
      rcases hb.between (y := a) (Bool.not_eq_false _ ▸ hx) with hxa | ham
      · simp [hb.asymm h] at hxa
      · simp [hbest a (.head _)] at ham
    case isFalse h =>
      obtain ⟨m, hm, hmem, hbest⟩ := ih x
      refine ⟨m, hm, ?_, List.forall_mem_cons.mpr ⟨hbest x (.head _), List.forall_mem_cons.mpr ⟨?_, fun y hy => hbest y (.tail _ hy)⟩⟩⟩
      · rcases List.mem_cons.mp hmem with rfl | hm
        exacts [.head _, .tail _ (.tail _ hm)]
      · by_contra ha
        rcases hb.between (y := x) (Bool.not_eq_false _ ▸ ha) with hax | hxm
        · exact h hax
        · simp [hbest x (.head _)] at hxm

/-- What a fold picks is the best of the list. -/
theorem foldl_picks_best {l : List α} {m : α} (h : l.foldl f none = some m) (hf : Picks before f) (hb : Ranks before) :
    m ∈ l ∧ ∀ y ∈ l, before y m = false := by
  cases l with
  | nil => cases h
  | cons a l =>
    obtain ⟨m', hm, hmem, hbest⟩ := foldl_picks_some hf hb l a
    rw [List.foldl_cons, hf.none, hm] at h
    cases h
    exact ⟨hmem, hbest⟩

theorem foldl_picks_eq_none {l : List α} (h : l.foldl f none = none) (hf : Picks before f) (hb : Ranks before) : l = [] := by
  cases l with
  | nil => rfl
  | cons a l =>
    obtain ⟨m, hm, _⟩ := foldl_picks_some hf hb l a
    rw [List.foldl_cons, hf.none, hm] at h
    cases h

end

/-! ### Offsets in the local memory -/

/-- An allocation of a size at an offset is apart from those there are (R199). -/
def aside (allocs : List (Nat × Nat)) (size b : Nat) : Prop := ∀ a ∈ allocs, b + size ≤ a.1 ∨ a.1 + a.2 ≤ b

/-- The offsets that the search of R199 chooses from. -/
def offsets (allocs : List (Nat × Nat)) (size limit : Nat) : List Nat :=
  (0 :: (allocs.map fun (a : Nat × Nat) => (a.1 + a.2 + 1023) / 1024 * 1024) ++ []).filter fun b =>
    decide (b + size ≤ limit) && !(allocs.any fun a => decide (a.1 < b + size) && decide (b < a.1 + a.2)) && true

theorem mem_offsets {allocs : List (Nat × Nat)} {size limit b : Nat} : b ∈ offsets allocs size limit ↔
    (b = 0 ∨ ∃ a ∈ allocs, (a.1 + a.2 + 1023) / 1024 * 1024 = b) ∧ b + size ≤ limit ∧ aside allocs size b := by
  simp only [offsets, List.mem_filter, Bool.and_true, Bool.and_eq_true, decide_eq_true_eq, Bool.not_eq_true', List.any_eq_false, not_and, not_lt,
    List.append_nil, List.mem_cons, List.mem_map, aside]
  exact and_congr_right fun _ => and_congr_right fun _ => forall₂_congr fun a _ => by omega

/-- Keeps the lower of two offsets. -/
def lower (m : Option Nat) (b : Nat) : Option Nat :=
  match m with
  | none => some b
  | some x => some (min x b)

theorem foldl_lower_mem (l : List Nat) (x : Nat) : ∃ m ∈ x :: l, l.foldl lower (some x) = some m := by
  induction l generalizing x with
  | nil => exact ⟨x, by simp, rfl⟩
  | cons a l ih =>
    obtain ⟨m, hm, hfold⟩ := ih (min x a)
    refine ⟨m, ?_, hfold⟩
    rcases List.mem_cons.mp hm with rfl | hm
    · rcases min_choice x a with h | h <;> simp [h]
    · exact .tail _ (.tail _ hm)

theorem fitBelow_eq {allocs : List (Nat × Nat)} {size limit : Nat} (h : size ≠ 0) : fitBelow allocs size limit = (offsets allocs size limit).foldl lower none := by
  rw [fitBelow, fitWhere, if_neg h]
  rfl

theorem fitBelow_mem {allocs : List (Nat × Nat)} {size limit b : Nat} (h : size ≠ 0) (hb : fitBelow allocs size limit = some b) : b ∈ offsets allocs size limit := by
  rw [fitBelow_eq h] at hb
  cases hl : offsets allocs size limit with
  | nil => simp [hl] at hb
  | cons a l =>
    obtain ⟨m, hm, hfold⟩ := foldl_lower_mem l a
    rw [hl] at hb
    cases (show l.foldl lower (some a) = some b from hb).symm.trans hfold
    exact hm

/-- What the search finds fits. -/
theorem fitBelow_fits {allocs : List (Nat × Nat)} {size limit b : Nat} (h : fitBelow allocs size limit = some b) :
    b + size ≤ limit ∧ (size = 0 ∨ aside allocs size b) := by
  by_cases hs : size = 0
  · subst hs
    cases h
    exact ⟨Nat.zero_le _, .inl rfl⟩
  · obtain ⟨_, hl, ha⟩ := mem_offsets.mp (fitBelow_mem hs h)
    exact ⟨hl, .inr ha⟩

/-- Where a size fits at a multiple of 1 KiB, it fits at the greatest end of an allocation that lies below, too, or at 0. -/
theorem exists_mem_offsets {allocs : List (Nat × Nat)} {size limit b : Nat} (hb : b % 1024 = 0) (hl : b + size ≤ limit) (ha : aside allocs size b) :
    ∃ c, c ∈ offsets allocs size limit := by
  classical
  let ends (c : Nat) : Prop := c = 0 ∨ ∃ a ∈ allocs, (a.1 + a.2 + 1023) / 1024 * 1024 = c
  have hle : Nat.findGreatest ends b ≤ b := Nat.findGreatest_le b
  refine ⟨Nat.findGreatest ends b, mem_offsets.mpr ⟨Nat.findGreatest_spec (P := ends) (Nat.zero_le b) (.inl rfl), by omega, fun a hmem => ?_⟩⟩
  rcases ha a hmem with h | h
  · omega
  · have := Nat.le_findGreatest (P := ends) (n := b) (m := (a.1 + a.2 + 1023) / 1024 * 1024) (by omega) (.inr ⟨a, hmem, rfl⟩)
    omega

theorem fitBelow_isSome {allocs : List (Nat × Nat)} {size limit b : Nat} (hb : b % 1024 = 0) (hl : b + size ≤ limit) (ha : size = 0 ∨ aside allocs size b) :
    ∃ c, fitBelow allocs size limit = some c := by
  by_cases hs : size = 0
  · exact ⟨0, by rw [hs]; rfl⟩
  · rw [fitBelow_eq hs]
    obtain ⟨c, hc⟩ := exists_mem_offsets hb hl (ha.resolve_left hs)
    cases ho : offsets allocs size limit with
    | nil => simp [ho] at hc
    | cons a l =>
      obtain ⟨m, _, hm⟩ := foldl_lower_mem l a
      exact ⟨m, hm⟩

/-! ### Cores -/

section
variable {s : State} {unit : List Nat} {g : Gang} {c : Nat} {grow : Bool}

/-- Every resource of R68 but local memory suffices on a core that keeps nothing for a set. -/
theorem takes_iff {r : Room} {x : Core} (hk : r.kept = none) (hw : 0 < g.warpsN) : r.takes x g = true ↔
    r.gangs < 16 ∧ r.warps + g.warpsN ≤ min 128 (4 * x.active) ∧ (g.mx = true → r.mx < 2) := by
  simp only [Room.takes, hk, spares, Option.getD_none, Nat.zero_mul, Nat.zero_min, Bool.and_eq_true, Bool.or_eq_true, Bool.not_eq_true', decide_eq_true_eq]
  cases g.mx <;> simp <;> omega

theorem room_of_nothing_kept (h : (s.core c).kept = none) : s.room c [] unit = s.room c [] := by simp [State.room, h]

theorem room_kept (h : (s.core c).kept = none) : (s.room c []).kept = none := by simp [State.room, h]

theorem room_allocs : (s.room c []).allocs = (s.coreGangs c).map fun g => (g.base, g.localk * 1024) := by simp [State.room]

/-- The bytes of a core's local memory that a search may use: what its ways give, or, with `grow`, what they can grow to (R71). -/
def State.waysFor (s : State) (c : Nat) (grow : Bool) : Nat :=
  min (10 * 65536) (if grow then (if (s.core c).carve = .stable then 10 * 65536 else 0) else (s.core c).localLimit)

theorem fitIn_of_nothing_kept {r : Room} {size limit : Nat} (h : r.kept = none) : fitIn [r] size limit = fitBelow r.allocs size limit := by
  simp [fitIn, fitBelow, Room.sparesAt, h]

/-- A core that takes a gang alone. -/
structure State.Takes (s : State) (unit : List Nat) (g : Gang) (c : Nat) : Prop where
  lt : c < 96
  choosable : s.choosable c unit = true
  gangs : (s.room c []).gangs < 16
  warps : (s.room c []).warps + g.warpsN ≤ min 128 (4 * (s.core c).active)
  mx : g.mx = true → (s.room c []).mx < 2

theorem coresWith_eq (hy : (s.ctx g.asid).yoked = false) (hk : ∀ c, (s.core c).kept = none) : s.coresWith unit [] [] g grow = (List.range 96).filterMap fun c =>
    if !(s.choosable c unit && (s.room c []).takes (s.core c) g) then none
    else (fitBelow (s.room c []).allocs (g.localk * 1024) (s.waysFor c grow)).map fun b => (s.prefLevel c g.aff, (s.room c []).warps, c, b) := by
  have hroom (c : Nat) : s.room c [] unit = s.room c [] := room_of_nothing_kept (hk c)
  simp [State.coresWith, hy, hroom, coresFor, State.binds, fitIn_of_nothing_kept (room_kept (hk _)), State.waysFor]

theorem mem_coresWith (hy : (s.ctx g.asid).yoked = false) (hk : ∀ c, (s.core c).kept = none) (hw : 0 < g.warpsN) {x : Nat × Nat × Nat × Nat} :
    x ∈ s.coresWith unit [] [] g grow ↔ ∃ c b, s.Takes unit g c ∧ fitBelow (s.room c []).allocs (g.localk * 1024) (s.waysFor c grow) = some b ∧
      (s.prefLevel c g.aff, (s.room c []).warps, c, b) = x := by
  have htakes (c : Nat) : s.Takes unit g c ↔ c < 96 ∧ (s.choosable c unit && (s.room c []).takes (s.core c) g) = true := by
    rw [Bool.and_eq_true, takes_iff (room_kept (hk c)) hw]
    exact ⟨fun h => ⟨h.lt, h.choosable, h.gangs, h.warps, h.mx⟩, fun ⟨h, hc, hg, hw, hm⟩ => ⟨h, hc, hg, hw, hm⟩⟩
  rw [coresWith_eq hy hk, List.mem_filterMap]
  refine exists_congr fun c => ?_
  rw [List.mem_range]
  cases h : s.choosable c unit && (s.room c []).takes (s.core c) g <;> simp [htakes, h, ← exists_and_left]

/-- R70 on what is listed of the cores: the level of preference, then the warps, then the core. -/
def coreBefore (x y : Nat × Nat × Nat × Nat) : Bool :=
  x.1 < y.1 || (x.1 == y.1 && (decide (x.2.1 < y.2.1) || (x.2.1 == y.2.1 && decide (x.2.2.1 < y.2.2.1))))

theorem coreBefore_iff {x y : Nat × Nat × Nat × Nat} : coreBefore x y = true ↔ x.1 < y.1 ∨ x.1 = y.1 ∧ (x.2.1 < y.2.1 ∨ x.2.1 = y.2.1 ∧ x.2.2.1 < y.2.2.1) := by
  simp [coreBefore]

theorem ranks_coreBefore : Ranks coreBefore where
  asymm h := by
    rw [← Bool.not_eq_true, coreBefore_iff]
    rw [coreBefore_iff] at h
    omega
  between {x y z} h := by
    rw [coreBefore_iff] at h ⊢
    rw [coreBefore_iff]
    omega

/-- The core chosen is the best of those with room in the ways there are, or, where none has it, of those with ways to be added (R70, R71). -/
theorem bestCore_mem {pins : List (Nat × Nat)} {rooms : List (Nat × Room)} {p : Spotting} (h : s.bestCore unit pins rooms g = some p) :
    ∃ grow x, x ∈ s.coresWith unit pins rooms g grow ∧
    p = { gid := g.gid, core := x.2.2.1, base := x.2.2.2, lw := (x.2.2.2 + g.localk * 1024 + 65535) / 65536 } ∧
    (grow = true → s.coresWith unit pins rooms g false = []) ∧ ∀ y ∈ s.coresWith unit pins rooms g grow, coreBefore y x = false := by
  unfold State.bestCore at h
  dsimp only at h
  split at h
  case h_1 => cases h
  case h_2 x hx =>
  cases h
  rcases (Option.orElse_eq_some _ _ _).mp hx with hx | ⟨hnone, hx⟩
  · obtain ⟨hmem, hbest⟩ := foldl_picks_best hx ⟨fun _ => rfl, fun _ _ => rfl⟩ ranks_coreBefore
    exact ⟨false, x, hmem, rfl, nofun, hbest⟩
  · obtain ⟨hmem, hbest⟩ := foldl_picks_best hx ⟨fun _ => rfl, fun _ _ => rfl⟩ ranks_coreBefore
    exact ⟨true, x, hmem, rfl, fun _ => foldl_picks_eq_none hnone ⟨fun _ => rfl, fun _ _ => rfl⟩ ranks_coreBefore, hbest⟩

/-- Only a core that can be chosen is listed, and so planned for. -/
theorem choosable_of_bestCore {pins : List (Nat × Nat)} {rooms : List (Nat × Room)} {p : Spotting} (hy : (s.ctx g.asid).yoked = false)
    (h : s.bestCore unit pins rooms g = some p) : s.choosable p.core unit = true := by
  obtain ⟨grow, x, hx, rfl, _⟩ := bestCore_mem h
  simp only [State.coresWith, hy, coresFor, Bool.false_eq_true, if_false, List.mem_filterMap] at hx
  obtain ⟨c, _, hc⟩ := hx
  split at hc
  case isTrue => cases hc
  case isFalse hnot =>
    obtain ⟨b, _, rfl⟩ := Option.map_eq_some_iff.mp hc
    simp only [List.all_cons, Bool.or_eq_true, not_or, Bool.not_eq_true', Bool.not_eq_false, Bool.and_eq_true] at hnot
    exact hnot.1.2.1.1

/-- Free local memory of a core at an offset, as R199 has it. -/
theorem aside_iff {b size : Nat} : size = 0 ∨ aside (s.room c []).allocs size b ↔
    ∀ h ∈ s.coreGangs c, b + size ≤ h.base ∨ h.base + h.localk * 1024 ≤ b ∨ size = 0 := by
  rw [room_allocs, aside, List.forall_mem_map]
  by_cases h : size = 0 <;> simp [h]

theorem le_ways (n : Nat) : n ≤ (n + 65535) / 65536 * 65536 := by omega

theorem bestCore_best {p : Spotting} (hy : (s.ctx g.asid).yoked = false) (hk : ∀ c, (s.core c).kept = none) (hw : 0 < g.warpsN)
    (h : s.bestCore unit [] [] g = some p) :
    p.gid = g.gid ∧ s.Takes unit g p.core ∧ (p.base + g.localk * 1024 ≤ 10 * 65536 ∧ (g.localk * 1024 = 0 ∨ aside (s.room p.core []).allocs (g.localk * 1024) p.base)) ∧
    p.base + g.localk * 1024 ≤ p.lw * 65536 ∧
    ∀ c b, s.Takes unit g c → b % 1024 = 0 → b + g.localk * 1024 ≤ s.waysFor c false → (g.localk * 1024 = 0 ∨ aside (s.room c []).allocs (g.localk * 1024) b) →
      p.base + g.localk * 1024 ≤ (s.core p.core).localLimit ∧
      (s.prefLevel p.core g.aff < s.prefLevel c g.aff ∨ (s.prefLevel p.core g.aff = s.prefLevel c g.aff ∧
        ((s.room p.core []).warps < (s.room c []).warps ∨ ((s.room p.core []).warps = (s.room c []).warps ∧ p.core ≤ c)))) := by
  obtain ⟨grow, x, hx, rfl, hgrow, hbest⟩ := bestCore_mem h
  obtain ⟨k, b, htakes, hfit, rfl⟩ := (mem_coresWith hy hk hw).mp hx
  obtain ⟨hlim, haside⟩ := fitBelow_fits hfit
  have hmin := hlim.trans (min_le_left _ _)
  refine ⟨rfl, htakes, ⟨hmin, haside⟩, le_ways _, fun c b' htakes' hb' hlim' haside' => ?_⟩
  obtain ⟨a, ha⟩ := fitBelow_isSome hb' hlim' haside'
  have hmem := (mem_coresWith (unit := unit) (grow := false) hy hk hw).mpr ⟨c, a, htakes', ha, rfl⟩
  cases grow with
  | true => simp [hgrow rfl] at hmem
  | false =>
    refine ⟨hlim.trans (min_le_right _ _), ?_⟩
    have := hbest _ hmem
    rw [← Bool.not_eq_true, coreBefore_iff] at this
    dsimp only at this ⊢
    omega

end

end Sys2Proof.Machine

/-! Placement of one gang, and carve-outs (03_tasks R66, R69 to R71, R79; 08_memory R202). -/

namespace Sys2Proof.Machine

theorem byte_clear (s : State) (k n j : Nat) : (s.clear k n).byte j = if k ≤ j ∧ j < k + n then 0 else s.byte j := smGet_smClear s.mem k n j

/-! ### Reservations and ways of cores -/

/-- A core without what it holds for a unit. -/
def Core.freed (x : Core) (unit : List Nat) : Core :=
  { x with reserved := x.reserved.filter fun g => !unit.contains g, evicting := x.evicting.filter fun g => !unit.contains g
           kept := x.kept.filter fun k => !unit.contains k.gid }

theorem smGet_map_filter {α : Type} [DecidableEq α] {d : α} (f : α → α) (m : List (Nat × α)) (k : Nat) (h : f (smGet d m k) ≠ d) (hd : f d = d) :
    smGet d ((m.map fun c => (c.1, f c.2)).filter fun c => c.2 != d) k = f (smGet d m k) := by
  induction m with
  | nil => exact absurd hd h
  | cons a m ih =>
    obtain ⟨j, v⟩ := a
    rw [List.map_cons]
    by_cases hj : j = k
    · subst hj
      have hv : f v ≠ d := by simpa [smGet] using h
      simp [smGet, hv]
    · have hm : smGet d ((j, v) :: m) k = smGet d m k := if_neg hj
      rw [hm] at h ⊢
      rw [List.filter_cons]
      split
      · exact (if_neg hj).trans (ih h)
      · exact ih h

section
variable {s : State} {unit : List Nat} {c : Nat}

theorem unreserve_core (h : (s.core c).lsarea ≠ 0) : (s.unreserve unit).core c = (s.core c).freed unit :=
  smGet_map_filter (fun x : Core => x.freed unit) s.cores c (fun hd => h (congrArg Core.lsarea hd)) rfl

theorem shrinkWays_frame : s.shrinkWays c = { s with cores := (s.shrinkWays c).cores } := by
  unfold State.shrinkWays
  dsimp only
  split <;> rfl

theorem shrinkWays_core (k : Nat) : ∃ v, (s.shrinkWays c).core k = { s.core k with carve := v } := by
  unfold State.shrinkWays
  dsimp only
  split
  · rw [setCore_core]
    split
    · subst k; exact ⟨_, rfl⟩
    · exact ⟨_, rfl⟩
  · exact ⟨_, rfl⟩

end

/-! ### The gang and its warps on the core -/

/-- A gang that was claimed and waits for its first placement, in a context that is not yoked: no warp of it is there yet. -/
structure State.Starts (s : State) (g : Gang) (i : Inst) : Prop where
  gid : g.gid ≠ 0
  queued : g.st = .queued
  saves : g.saves = false
  yoked : (s.ctx g.asid).yoked = false
  warpsN : g.warpsN ≤ 32
  mem : g ∈ s.gangs
  only : ∀ h ∈ s.gangs, h.gid = g.gid → h = g
  focus : s.gang.gid ≠ g.gid
  inst : s.inst? g.inst = some i
  fresh : ∀ x ∈ s.me :: s.warps, x.gid ≠ g.gid

section
variable {s : State} {g : Gang} {i : Inst} {p : Spotting}

theorem State.Starts.of_cores (h : s.Starts g i) (cs : List (Nat × Core)) : ({ s with cores := cs } : State).Starts g i := { h with }

theorem State.Starts.gangOf? (h : s.Starts g i) : s.gangOf? g.gid = some g := by
  rw [State.gangOf?, State.allGangs, List.find?_cons_of_neg (by simp [h.focus])]
  cases hf : s.gangs.find? fun k => k.gid == g.gid && g.gid != 0 with
  | none => exact absurd (List.find?_eq_none.mp hf g h.mem) (by simp [h.gid])
  | some k =>
    have hk := List.find?_some hf
    simp only [Bool.and_eq_true, beq_iff_eq] at hk
    rw [h.only k (List.mem_of_find?_eq_some hf) hk.1]

theorem setGang_gangOf? {x : Gang} (h : (s.gangOf? x.gid).isSome) : (s.setGang x).gangOf? x.gid = some x := by
  let f (y : Gang) : Gang := if y.gid == x.gid then x else y
  have hf (y : Gang) : (f y).gid = x.gid ↔ y.gid = x.gid := by
    simp only [f, beq_iff_eq]
    split <;> simp [*]
  have hp : (fun y : Gang => y.gid == x.gid && x.gid != 0) ∘ f = fun y => y.gid == x.gid && x.gid != 0 := by
    funext y
    rw [Function.comp_apply, Bool.eq_iff_iff]
    simp [hf]
  obtain ⟨y, hy⟩ := Option.isSome_iff_exists.mp h
  have hgid := List.find?_some (show s.allGangs.find? (fun y => y.gid == x.gid && x.gid != 0) = some y from hy)
  simp only [Bool.and_eq_true, beq_iff_eq] at hgid
  calc (s.setGang x).gangOf? x.gid = (s.allGangs.map f).find? fun y => y.gid == x.gid && x.gid != 0 := rfl
    _ = (s.gangOf? x.gid).map f := by rw [List.find?_map, hp]; rfl
    _ = some x := by rw [hy]; simp [f, hgid.1]

/-- A warp of a gang is bound to a place on its core (R79). -/
def boundTo (gid w t k stack : Nat) (x : Warp) : Warp := if x.gid == gid && x.w == w then { x with track := t, slot := k, stack := stack, issued := 0 } else x

theorem boundTo_id (gid w t k stack : Nat) (x : Warp) : (boundTo gid w t k stack x).gid = x.gid ∧ (boundTo gid w t k stack x).w = x.w := by
  unfold boundTo
  split <;> exact ⟨rfl, rfl⟩

/-- What binding warps of a gang to a core does with every warp (R79): only its place changes, and a warp named is at its slot. -/
structure Binds (gid : Nat) (ids : List Nat) (area : BitVec 64) (f : Warp → Warp) : Prop where
  id (x : Warp) : (f x).gid = x.gid ∧ (f x).w = x.w
  others (x : Warp) : x.gid ≠ gid → f x = x
  frame (x : Warp) : x.issued = 0 → f x = { x with track := (f x).track, slot := (f x).slot, stack := (f x).stack }
  stack (x : Warp) : x.gid = gid → x.w ∈ ids → (f x).stack = slotStack area (f x).slot

theorem Binds.concat {gid k t n : Nat} {ids : List Nat} {area : BitVec 64} {f : Warp → Warp} (h : Binds gid ids area f) :
    Binds gid (ids ++ [k]) area (boundTo gid k t n (slotStack area n) ∘ f) where
  id x := (h.id x).1 ▸ (h.id x).2 ▸ boundTo_id ..
  others x hx := by
    rw [Function.comp_apply, h.others x hx]
    simp [boundTo, hx]
  frame x hx := by
    rw [Function.comp_apply, boundTo]
    split
    · rw [h.frame x hx, ← hx]
    · exact h.frame x hx
  stack x hx hw := by
    rw [Function.comp_apply, boundTo]
    split
    case isTrue => rfl
    case isFalse hne =>
      simp only [h.id x, hx, BEq.rfl, Bool.true_and, beq_iff_eq] at hne
      exact h.stack x hx (by simpa [hne] using hw)

theorem mapWarps_mapWarps (s : State) (f h : Warp → Warp) : (s.mapWarps f).mapWarps h = s.mapWarps (h ∘ f) := by simp [State.mapWarps]

theorem bindWarp_eq (s : State) (gid k c : Nat) :
    s.bindWarp gid k [c] = s.mapWarps (boundTo gid k (s.freeTrack [c]) (s.freeSlot [c]) (slotStack (s.core c).lsarea (s.freeSlot [c]))) := rfl

theorem foldl_bindWarp (gid asid c : Nat) (ids : List Nat) (s : State) (hy : (s.ctx asid).yoked = false) :
    ∃ f, ids.foldl (fun s k => s.bindWarp gid k (coresFor (s.ctx asid).yoked c)) s = s.mapWarps f ∧ Binds gid ids (s.core c).lsarea f := by
  induction ids using List.reverseRecOn with
  | nil => exact ⟨id, by simp [State.mapWarps], fun _ => ⟨rfl, rfl⟩, fun _ _ => rfl, fun _ _ => rfl, fun _ _ h => absurd h List.not_mem_nil⟩
  | append_singleton ids k ih =>
    obtain ⟨f, hfold, hf⟩ := ih
    have hc : coresFor ((s.mapWarps f).ctx asid).yoked c = [c] := by
      rw [show (s.mapWarps f).ctx asid = s.ctx asid from rfl, hy]
      rfl
    rw [List.foldl_concat, hfold, hc, bindWarp_eq]
    exact ⟨_, mapWarps_mapWarps .., hf.concat⟩

/-- The stacks of warps of a gang are cleared (R66). -/
theorem foldl_clear_stacks (gid : Nat) (ids : List Nat) (s : State) :
    ∃ m, ids.foldl (fun s k => match s.warpOf? gid k with | some w => s.clear w.stack stackBytes | none => s) s = { s with mem := m } ∧
      ∀ j, ({ s with mem := m } : State).byte j = if ∃ k ∈ ids, ∃ w, s.warpOf? gid k = some w ∧ w.stack ≤ j ∧ j < w.stack + stackBytes then 0 else s.byte j := by
  induction ids using List.reverseRecOn with
  | nil => exact ⟨s.mem, rfl, by simp⟩
  | append_singleton ids k ih =>
    obtain ⟨m, hfold, hm⟩ := ih
    rw [List.foldl_concat, hfold]
    have hw : ({ s with mem := m } : State).warpOf? gid k = s.warpOf? gid k := rfl
    rw [hw]
    cases hk : s.warpOf? gid k with
    | none => exact ⟨m, rfl, by simp [hm, hk]⟩
    | some w =>
      refine ⟨smClear m w.stack stackBytes, rfl, fun j => (byte_clear { s with mem := m } w.stack stackBytes j).trans ?_⟩
      simp only [hm j, List.mem_append, List.mem_singleton, or_and_right, exists_or, exists_eq_left, hk, Option.some.injEq, exists_eq_left']
      by_cases h : w.stack ≤ j ∧ j < w.stack + stackBytes <;> simp [h]

/-- The gang as it is on its core. -/
def State.residentGang (s : State) (g : Gang) (i : Inst) (p : Spotting) : Gang :=
  { g with st := .resident, stk := p.core / 32, core := p.core % 32, base := p.base
           half := if (s.coreGangs p.core).any fun h => h.mx && h.half == 0 then 1 else 0, yoked := false, seq := seqPlaced g i.entry }

/-- A warp of the gang before it is bound. -/
def unboundWarp (g : Gang) (i : Inst) (k : Nat) : Warp := { startWarp g.gid k i.entry with track := 999, slot := 999 }

/-- The cores once the gang is on one of them. -/
def State.coresPlaced (s : State) (g : Gang) (i : Inst) (c : Nat) : State :=
  let t := s.setCore c { s.core c with icache := (s.core c).icache.filter fun l => l.asid != g.asid || decide (i.order ≤ l.at_) }
  t.setCore c { t.core c with kept := (t.core c).kept.map fun y => y.less g }

/-- The numbers of the warps of the gang. -/
def warpNos (g : Gang) : List Nat := (List.range 32).filter fun k => (List.range g.warpsN).contains k

/-- The state in which the warps of the gang, new but for their places, are bound. -/
def State.started (s : State) (g : Gang) (i : Inst) (p : Spotting) : State :=
  { s.setGang (s.residentGang g i p) with
    cores := (s.coresPlaced g i p.core).cores, mem := smClear s.mem (localKey p.core p.base) (g.localk * 1024)
    warps := s.warps ++ (List.range g.warpsN).map (unboundWarp g i) }

theorem placeGang_eq (h : s.Starts g i) (hp : p.gid = g.gid) : s.placeGang p =
    (warpNos g).foldl (fun s k => match s.warpOf? g.gid k with | some w => s.clear w.stack stackBytes | none => s)
      ((warpNos g).foldl (fun s k => s.bindWarp g.gid k (coresFor (s.ctx g.asid).yoked p.core)) (s.started g i p)) := by
  unfold State.placeGang
  rw [hp, h.gangOf?]
  dsimp only
  rw [h.inst]
  have hy : (smGet {} s.ctxs g.asid).yoked = false := h.yoked
  have hs : ¬ g.saves = true := by simp [h.saves]
  simp only [if_neg hs, State.ctx, setCore_ctxs, hy, coresFor, List.foldl_cons, List.foldl_nil, Bool.false_eq_true, if_false]
  split
  · split <;> rfl
  · rfl

theorem mem_warpNos (h : s.Starts g i) {k : Nat} : k ∈ warpNos g ↔ k < g.warpsN := by
  have := h.warpsN
  simp [warpNos]
  omega

theorem coresPlaced_core (c k : Nat) : ∃ v w, (s.coresPlaced g i c).core k = { s.core k with icache := v, kept := w } := by
  simp only [State.coresPlaced, setCore_core]
  split
  · subst k; exact ⟨_, _, rfl⟩
  · exact ⟨_, _, rfl⟩

theorem started_core (k : Nat) : (s.started g i p).core k = (s.coresPlaced g i p.core).core k := rfl

theorem of_warpOf? {gid w : Nat} {x : Warp} (h : s.warpOf? gid w = some x) : x ∈ s.allWarps ∧ x.gid = gid ∧ x.w = w := by
  have hx := List.find?_some (show s.allWarps.find? (fun x => x.gid == gid && gid != 0 && x.w == w) = some x from h)
  simp only [Bool.and_eq_true, beq_iff_eq] at hx
  exact ⟨List.mem_of_find?_eq_some h, hx.1.1, hx.2⟩

theorem warpOf?_of_unique {x : Warp} (hx : x ∈ s.allWarps) (h0 : x.gid ≠ 0) (hu : ∀ y ∈ s.allWarps, y.gid = x.gid → y.w = x.w → y = x) :
    s.warpOf? x.gid x.w = some x := by
  cases hf : s.warpOf? x.gid x.w with
  | none => exact absurd (List.find?_eq_none.mp hf x hx) (by simp [h0])
  | some y =>
    obtain ⟨hy, hgid, hw⟩ := of_warpOf? hf
    rw [hu y hy hgid hw]

/-- What placing a gang for the first time leaves (R66, R79). -/
structure State.Placed (s : State) (g : Gang) (i : Inst) (p : Spotting) (f : Warp → Warp) (t : State) : Prop where
  binds : Binds g.gid (warpNos g) (s.core p.core).lsarea f
  eq : t = { s.setGang (s.residentGang g i p) with
    cores := t.cores, warps := s.warps ++ (List.range g.warpsN).map fun k => f (unboundWarp g i k), mem := t.mem }
  byte (j : Nat) : t.byte j = if (localKey p.core p.base ≤ j ∧ j < localKey p.core p.base + g.localk * 1024) ∨
    ∃ x ∈ t.warps, x.gid = g.gid ∧ x.stack ≤ j ∧ j < x.stack + 65536 then 0 else s.byte j

theorem placeGang_placed (h : s.Starts g i) (hp : p.gid = g.gid) : ∃ f, s.Placed g i p f (s.placeGang p) ∧
    (s.placeGang p).cores = (s.coresPlaced g i p.core).cores := by
  rw [placeGang_eq h hp]
  obtain ⟨f, hfold, hf⟩ := foldl_bindWarp g.gid g.asid p.core (warpNos g) (s.started g i p) h.yoked
  rw [hfold]
  obtain ⟨m, hclear, hm⟩ := foldl_clear_stacks g.gid (warpNos g) ((s.started g i p).mapWarps f)
  rw [hclear]
  obtain ⟨v, w, hcore⟩ := coresPlaced_core (s := s) (g := g) (i := i) p.core p.core
  rw [started_core, hcore] at hf
  have hme : f s.me = s.me := hf.others _ (h.fresh _ (.head _))
  have hold : s.warps.map f = s.warps := (List.map_congr_left fun x hx => hf.others x (h.fresh x (.tail _ hx))).trans (List.map_id _)
  have hwarps : (s.started g i p).warps.map f = s.warps ++ (List.range g.warpsN).map fun k => f (unboundWarp g i k) := by
    rw [State.started, List.map_append, hold, List.map_map]
    rfl
  have hmem : ∀ x ∈ ((s.started g i p).mapWarps f).allWarps, x.gid = g.gid → ∃ k < g.warpsN, x = f (unboundWarp g i k) := by
    intro x hx hgid
    simp only [State.allWarps, State.mapWarps, hwarps, List.mem_cons, List.mem_append, List.mem_map, List.mem_range] at hx
    rcases hx with rfl | hx | ⟨k, hk, rfl⟩
    · exact absurd (hgid.symm.trans (congrArg Warp.gid hme)).symm (h.fresh _ (.head _))
    · exact absurd hgid (h.fresh x (.tail _ hx))
    · exact ⟨k, hk, rfl⟩
  refine ⟨f, ⟨hf, ?_, fun j => (hm j).trans ?_⟩, rfl⟩
  · simp only [State.mapWarps, hwarps]
    rw [show (s.started g i p).me = s.me from rfl, hme]
    rfl
  · have hbyte : ((s.started g i p).mapWarps f).byte j = if localKey p.core p.base ≤ j ∧ j < localKey p.core p.base + g.localk * 1024 then 0 else s.byte j :=
      byte_clear s ..
    have hiff : (∃ k ∈ warpNos g, ∃ w, ((s.started g i p).mapWarps f).warpOf? g.gid k = some w ∧ w.stack ≤ j ∧ j < w.stack + stackBytes) ↔
        ∃ x ∈ ((s.started g i p).mapWarps f).warps, x.gid = g.gid ∧ x.stack ≤ j ∧ j < x.stack + 65536 := by
      have hin {k : Nat} (hk : k < g.warpsN) : f (unboundWarp g i k) ∈ ((s.started g i p).mapWarps f).warps := by
        rw [mapWarps_warps, hwarps]
        exact List.mem_append_right _ (List.mem_map_of_mem (List.mem_range.mpr hk))
      constructor
      · rintro ⟨k, -, w, hw, hb⟩
        obtain ⟨hmemw, hgid, -⟩ := of_warpOf? hw
        obtain ⟨k', hk', rfl⟩ := hmem w hmemw hgid
        exact ⟨_, hin hk', hgid, hb⟩
      · rintro ⟨x, hx, hgid, hb⟩
        obtain ⟨k, hk, rfl⟩ := hmem x (.tail _ hx) hgid
        have hfind := warpOf?_of_unique (s := (s.started g i p).mapWarps f) (.tail _ hx) (hgid ▸ h.gid) fun y hy hyg hyw => by
          obtain ⟨k', -, rfl⟩ := hmem y hy (hyg.trans hgid)
          rw [show k' = k from (hf.id _).2.symm.trans (hyw.trans (hf.id _).2)]
        rw [hgid, show (f (unboundWarp g i k)).w = k from (hf.id _).2] at hfind
        exact ⟨k, (mem_warpNos h).mpr hk, _, hfind, hb⟩
    rw [hbyte, if_congr hiff rfl rfl, ← ite_or]
    exact if_congr or_comm rfl rfl

end

end Sys2Proof.Machine

/-! The first gang of the queue is placed (03_tasks R66, R69 to R71), and the statement on placement. -/

namespace Sys2Proof.Machine

section
variable {s t : State} {g : Gang} {i : Inst} {p : Spotting} {f : Warp → Warp} {pins : List (Nat × Nat)} {unit : List Nat}

theorem State.Placed.with_cores (h : s.Placed g i p f t) (cs : List (Nat × Core)) : s.Placed g i p f { t with cores := cs } where
  binds := h.binds
  eq := congrArg (fun u : State => { u with cores := cs }) h.eq
  byte := h.byte

theorem State.Placed.of_with_cores {cs : List (Nat × Core)} (h : ({ s with cores := cs } : State).Placed g i p f t)
    (hl : (({ s with cores := cs } : State).core p.core).lsarea = (s.core p.core).lsarea) : s.Placed g i p f t where
  binds := hl ▸ h.binds
  eq := h.eq
  byte := h.byte

theorem commit_eq (h : s.Starts g i) (hp : p.gid = g.gid) (hw : p.lw * 65536 ≤ (s.core p.core).localLimit ∨ p.lw ≤ (s.core p.core).lw) :
    s.commit [g.gid] [p] = ((s.unreserve [g.gid]).placeGang p).shrinkWays p.core := by
  have hone : [p.core].eraseDups = [p.core] := rfl
  have hgrow : ¬ ((s.core p.core).localLimit < p.lw * 65536 ∧ (s.core p.core).lw < p.lw) := by omega
  simp [State.commit, hp, h.gangOf?, h.yoked, coresFor, hgrow, hone]

theorem commit_placed (h : s.Starts g i) (hp : p.gid = g.gid) (hw : p.lw * 65536 ≤ (s.core p.core).localLimit ∨ p.lw ≤ (s.core p.core).lw)
    (hl : (s.core p.core).lsarea ≠ 0) : ∃ f, s.Placed g i p f (s.commit [g.gid] [p]) ∧ ((s.commit [g.gid] [p]).core p.core).lw = (s.core p.core).lw ∧
      ((s.commit [g.gid] [p]).core p.core).reserved = (s.core p.core).reserved.filter fun k => !([g.gid].contains k) := by
  have hcore := unreserve_core (unit := [g.gid]) hl
  obtain ⟨f, hf, hcores⟩ := placeGang_placed (State.Starts.of_cores h (s.unreserve [g.gid]).cores) hp
  obtain ⟨v, hv⟩ := shrinkWays_core (s := (s.unreserve [g.gid]).placeGang p) (c := p.core) p.core
  obtain ⟨a, b, hplaced⟩ := coresPlaced_core (s := s.unreserve [g.gid]) (g := g) (i := i) p.core p.core
  have hc : ((s.unreserve [g.gid]).placeGang p).core p.core = ((s.unreserve [g.gid]).coresPlaced g i p.core).core p.core :=
    congrArg (fun cs => smGet ({} : Core) cs p.core) hcores
  rw [commit_eq h hp hw, hv, hc, hplaced, hcore]
  refine ⟨f, ?_, rfl, rfl⟩
  rw [shrinkWays_frame]
  exact (hf.of_with_cores ((congrArg Core.lsarea hcore).trans rfl)).with_cores _

theorem State.Placed.gangOf? (h : s.Placed g i p f t) (hs : s.Starts g i) : t.gangOf? g.gid = some (s.residentGang g i p) := by
  rw [h.eq]
  exact setGang_gangOf? (x := s.residentGang g i p) (by rw [show (s.residentGang g i p).gid = g.gid from rfl, hs.gangOf?]; rfl)

theorem State.Placed.ne (h : s.Placed g i p f t) (hs : s.Starts g i) : t ≠ s := by
  rintro rfl
  have := (h.gangOf? hs).symm.trans hs.gangOf?
  simpa [hs.queued, State.residentGang] using congrArg Gang.st (Option.some.inj this)

theorem bestCore_of_plan (h : s.plan unit pins [] [g] = some [p]) : s.bestCore unit pins [] g = some p := by
  unfold State.plan at h
  split at h
  · cases h
  · simpa [State.plan, *] using h

theorem gid_of_bestCore (h : s.bestCore unit pins [] g = some p) : p.gid = g.gid := by
  obtain ⟨_, _, _, rfl, _⟩ := bestCore_mem h
  rfl

theorem lsarea_of_choosable {c : Nat} (h : s.choosable c unit = true) : (s.core c).lsarea ≠ 0 := by
  simp only [State.choosable, State.placeableCore, lsOk, Bool.and_eq_true, bne_iff_ne] at h
  obtain ⟨⟨⟨_, ⟨hne, _⟩, _⟩, _⟩, _⟩ := h
  exact hne

/-- The first gang of a queue is placed by its plan. -/
theorem placeNext_placed (h : s.Starts g i) {rest : List Gang} (hu : s.unitOf g = some [g]) (hg : s.growsFor [g.gid] = false) (hh : s.gangHeld g = false)
    (hov : pins = [] → s.overEverywhere [g.gid] g = false) (hplan : s.plan [g.gid] pins [] [g] = some [p])
    (hw : p.lw * 65536 ≤ (s.core p.core).localLimit ∨ p.lw ≤ (s.core p.core).lw) :
    ∃ f, s.placeNext pins (g :: rest) = some (s.commit [g.gid] [p]) ∧ s.Placed g i p f (s.commit [g.gid] [p]) ∧
      ((s.commit [g.gid] [p]).core p.core).lw = (s.core p.core).lw ∧
      ((s.commit [g.gid] [p]).core p.core).reserved = (s.core p.core).reserved.filter fun k => !([g.gid].contains k) := by
  have hbest := bestCore_of_plan hplan
  obtain ⟨f, hf, hlw, hres⟩ := commit_placed h (gid_of_bestCore hbest) hw (lsarea_of_choosable (choosable_of_bestCore h.yoked hbest))
  refine ⟨f, ?_, hf, hlw, hres⟩
  have hover : ¬ (decide (pins = []) && s.overEverywhere [g.gid] g) = true := by
    by_cases hpins : pins = [] <;> simp [hpins, hov]
  simp only [State.placeNext, hu, List.map_cons, List.map_nil, hg, List.any_cons, List.any_nil, hh, Bool.or_false, Bool.false_eq_true, if_false, if_neg hover, hplan,
    if_neg (hf.ne h)]

/-! ### Carve-outs -/

/-- A core with so many local ways and no carve-out under way (R202). -/
def State.ways (s : State) (c n : Nat) : State := s.setCore c { s.core c with lw := n, carve := .stable }

theorem ways_core (c n k : Nat) : (s.ways c n).core k = if k = c then { s.core c with lw := n, carve := .stable } else s.core k := setCore_core ..

theorem exec_carveOutGrowDone_of_none {c n : Nat} (hc : (s.core c).carve = .growing n) (hr : (s.core c).reserved = none) :
    exec (.carveOutGrowDone c) s = .next ((s.ways c n).setCore c { (s.ways c n).core c with reserved := none }) := by
  show execCarveOutGrowDone c s = _
  have hbind (x : Core) : (s.core c).reserved.bind (s.setCore c x).gangOf? = none := by rw [hr]; rfl
  simp only [execCarveOutGrowDone, hc, hbind]
  rfl

theorem exec_carveOutGrowDone_of_some {c n : Nat} (hc : (s.core c).carve = .growing n) (hr : (s.core c).reserved = some g.gid) (hg : s.gangOf? g.gid = some g) :
    exec (.carveOutGrowDone c) s = .next (((s.ways c n).placeNext [(g.gid, c)] [g]).getD (s.ways c n)) := by
  show execCarveOutGrowDone c s = _
  have hbind (x : Core) : (s.core c).reserved.bind (s.setCore c x).gangOf? = some g := by rw [hr]; exact hg
  simp only [execCarveOutGrowDone, hc, hbind]
  rfl

theorem exec_carveOutShrinkDone {c n : Nat} (hc : (s.core c).carve = .shrinking n) : exec (.carveOutShrinkDone c) s =
    .next (if (s.coreGangs c).all fun g => decide (g.base + g.localk * 1024 ≤ n * 65536) then s.ways c n else s) := by
  show execCarveOutShrinkDone c s = _
  simp only [execCarveOutShrinkDone, hc]
  rfl

/-! ### What a placed gang finds -/

/-- The uniform registers at the start (R66). -/
theorem uniGet_startWarp (gid w : Nat) (e : Entry) (n : Nat) : uniGet (startWarp gid w e).regs.u n =
    if n = 2 then e.arg.setWidth 32 else if n = 3 then (e.arg >>> 32).setWidth 32 else if n = 4 then BitVec.ofNat 32 e.gangs else 0 := by
  by_cases hn : n = 0
  · subst hn; rfl
  · simp only [startWarp, uniGet, uniPut, OfNat.ofNat_ne_zero, if_false, smGet_smPut, if_neg hn, smGet]
    split_ifs <;> simp_all

theorem exists_unboundWarp (h : s.Placed g i p f t) {w : Nat} (hw : w < g.warpsN) (hs : s.Starts g i) : ∃ tr sl,
    { unboundWarp g i w with track := tr, slot := sl, stack := slotStack (s.core p.core).lsarea sl } ∈ t.warps := by
  have hmem : f (unboundWarp g i w) ∈ t.warps := by
    rw [congrArg State.warps h.eq]
    exact List.mem_append_right _ (List.mem_map_of_mem (List.mem_range.mpr hw))
  rw [h.binds.frame _ rfl, h.binds.stack _ rfl ((mem_warpNos hs).mpr hw)] at hmem
  exact ⟨_, _, hmem⟩

end

end Sys2Proof.Machine
namespace Sys2Proof

open Machine in
/-- Settles O41: the best of the cores listed, the one way a gang is placed, and the carve-outs case by case. -/
theorem placement : Obligations.Placement := by
  unfold Obligations.Placement
  intro s
  refine ⟨?best, ?placed, ?carve⟩
  case best =>
    intro unit g p hy hk hw h size free level takes
    obtain ⟨hgid, htakes, ⟨hlim, haside⟩, hlw, hmin⟩ := bestCore_best hy hk hw h
    have htk (c : Nat) : takes c ↔ s.Takes unit g c := ⟨fun ⟨h, hc, hg, hw, hm⟩ => ⟨h, hc, hg, hw, hm⟩, fun h => ⟨h.lt, h.choosable, h.gangs, h.warps, h.mx⟩⟩
    have hlev (c : Nat) : level c = s.prefLevel c g.aff := if_congr Iff.rfl rfl (if_congr ne_comm rfl rfl)
    refine ⟨hgid, (htk _).mpr htakes, ⟨hlim, aside_iff.mp haside⟩, hlw, fun c b ht hb hl hfree hsize => ?_⟩
    rw [hlev, hlev]
    exact hmin c b ((htk c).mp ht) hb (le_min hl hfree.1) (aside_iff.mpr hfree.2)
  case placed =>
    intro g i p h0 hq hsv hpg hy hwn hheld hmem honly hfocus hinst hfresh hunit placed
    have hs : s.Starts g i := ⟨h0, hq, hsv, hy, hwn, hmem, honly, hfocus, hinst, hfresh⟩
    have hplaced {f : Warp → Warp} {t : State} (h : s.Placed g i p f t) : placed s t := by
      refine ⟨⟨s.residentGang g i p, h.gangOf? hs, rfl, Nat.div_add_mod _ _, rfl, rfl, fun hmx => ?_⟩,
        fun j => ⟨fun hc => (h.byte j).trans (if_pos hc), fun hc => (h.byte j).trans (if_neg hc)⟩, fun w hw => ?_,
        (congrArg State.me h.eq :), fun x hx => congrArg State.warps h.eq ▸ List.mem_append_left _ hx⟩
      · simp [State.residentGang, seqPlaced, hmx, hsv]
      · obtain ⟨tr, sl, hx⟩ := exists_unboundWarp h hw hs
        exact ⟨_, hx, rfl, rfl, rfl, rfl, rfl, rfl, rfl, rfl, rfl, rfl, rfl, rfl, rfl, rfl, rfl, uniGet_startWarp g.gid w i.entry⟩
    refine ⟨fun rest hqueue hover hgrows hplan hways => ?_, fun n => ?_⟩
    · obtain ⟨f, hnext, hf, _, _⟩ := placeNext_placed hs (rest := rest) (pins := []) hunit hgrows hheld (fun _ => hover) hplan (.inl hways)
      refine ⟨s.commit [g.gid] [p], ?_, hplaced hf⟩
      rw [← hqueue] at hnext
      exact congrArg (fun o : Option State => Host.Outcome.next (o.getD s)) hnext
    · intro s' hcarve hres hunit' hgrows hplan hlw
      have hcore : s'.core p.core = { s.core p.core with lw := n, carve := .stable } := (ways_core _ _ _).trans (if_pos rfl)
      obtain ⟨f, hnext, hf, hlw', hres'⟩ := placeNext_placed (hs.of_cores s'.cores) (rest := []) (pins := [(g.gid, p.core)]) hunit' hgrows hheld nofun hplan
        (.inr (hlw.trans_eq (congrArg Core.lw hcore).symm))
      refine ⟨_, (exec_carveOutGrowDone_of_some hcarve hres hs.gangOf?).trans (congrArg (fun o : Option State => Host.Outcome.next (o.getD (s.ways p.core n))) hnext),
        hplaced (hf.of_with_cores (congrArg Core.lsarea hcore :)), hlw'.trans (congrArg Core.lw hcore), hres'.trans ?_⟩
      rw [show (({ s with cores := s'.cores } : State).core p.core).reserved = some g.gid from (congrArg Core.reserved hcore).trans hres]
      simp
  case carve =>
    intro c n x
    refine ⟨fun hc hr => ?_, fun hc hfit => ?_, fun hc hfit => ?_⟩
    · refine ⟨_, exec_carveOutGrowDone_of_none hc hr, rfl, fun k => ?_⟩
      rw [setCore_core, ways_core, ways_core, if_pos rfl]
      split
      · rw [← hr]
      · rfl
    · refine ⟨s.ways c n, (exec_carveOutShrinkDone hc).trans (congrArg _ (if_pos ?_)), rfl, fun k => ways_core c n k⟩
      simpa using hfit
    · refine ⟨s, (exec_carveOutShrinkDone hc).trans (congrArg _ (if_neg ?_)), rfl⟩
      simpa using hfit

end Sys2Proof

/-! The choice of a path and of a warp (03_tasks R81, 04_control R94). -/

namespace Sys2Proof.Machine

/-- Lists by an order of their own: what goes before has the lower key. -/
theorem Ranks.of_key {α β : Type} [LinearOrder β] {before : α → α → Bool} (key : α → β) (h : ∀ x y, before x y = true ↔ key x < key y) : Ranks before where
  asymm {x y} hxy := by
    rw [← Bool.not_eq_true, h]
    exact not_lt.mpr ((h x y).mp hxy).le
  between {x y z} hxz := by
    rw [h, h]
    exact or_iff_not_imp_left.mpr fun hxy => (not_lt.mp hxy).trans_lt ((h x z).mp hxz)

/-! ### The path of a warp -/

/-- R94: the path that issued less recently, then the lower identifier. -/
def pathBefore (p q : Path) : Bool := p.issued < q.issued || (p.issued == q.issued && decide (p.id < q.id))

theorem pathBefore_iff {p q : Path} : pathBefore p q = true ↔ toLex (p.issued, p.id) < toLex (q.issued, q.id) := by
  simp [pathBefore, Prod.Lex.toLex_lt_toLex]

theorem ranks_pathBefore : Ranks pathBefore := .of_key (fun p => toLex (p.issued, p.id)) fun _ _ => pathBefore_iff

theorem pathBefore_eq_false {p q : Path} : pathBefore q p = false ↔ p.issued < q.issued ∨ p.issued = q.issued ∧ p.id ≤ q.id := by
  rw [← Bool.not_eq_true, pathBefore_iff, not_lt, Prod.Lex.toLex_le_toLex]

section
variable {s : State} {g : Gang} {x : Warp} {p : Path}

/-- A path of a warp from which it may issue, as the scoreboard says. -/
structure Warp.Offers (x : Warp) (p : Path) : Prop where
  live : p ∈ x.live
  isOpen : x.open p = true
  board : p.id ∈ x.board

theorem mem_offered : p ∈ x.live.filter (fun p => x.open p && x.board.contains p.id) ↔ x.Offers p := by
  simp only [List.mem_filter, Bool.and_eq_true, List.contains_iff_mem]
  exact ⟨fun ⟨hl, ho, hb⟩ => ⟨hl, ho, hb⟩, fun h => ⟨h.live, h.isOpen, h.board⟩⟩

theorem of_choosePath (h : s.choosePath g x = some p) :
    s.warpRuns g x = true ∧ x.Offers p ∧ ∀ q, x.Offers q → p.issued < q.issued ∨ p.issued = q.issued ∧ p.id ≤ q.id := by
  unfold State.choosePath at h
  split at h
  case isFalse => cases h
  case isTrue hr =>
    obtain ⟨hmem, hbest⟩ := foldl_picks_best h ⟨fun _ => rfl, fun _ _ => rfl⟩ ranks_pathBefore
    exact ⟨hr, mem_offered.mp hmem, fun q hq => pathBefore_eq_false.mp (hbest q (mem_offered.mpr hq))⟩

theorem exists_choosePath (hr : s.warpRuns g x = true) (hp : x.Offers p) : ∃ q, s.choosePath g x = some q := by
  cases h : s.choosePath g x with
  | some q => exact ⟨q, rfl⟩
  | none =>
    rw [State.choosePath, if_pos hr] at h
    have hnil := foldl_picks_eq_none h ⟨fun _ => rfl, fun _ _ => rfl⟩ ranks_pathBefore
    exact absurd (mem_offered.mpr hp) (hnil ▸ List.not_mem_nil)

/-! ### The candidates of a track -/

theorem mem_cands {c track : Nat} {k : Cand} : k ∈ s.cands c track ↔ k.x ∈ s.allWarps ∧ s.gangOf? k.x.gid = some k.g ∧ k.x.track = track ∧
    32 * k.g.stk + k.g.core = c ∧ s.choosePath k.g k.x = some k.p := by
  obtain ⟨x, g, p⟩ := k
  rw [State.cands, List.mem_filterMap]
  constructor
  · rintro ⟨y, hy, hk⟩
    split at hk
    case h_1 => cases hk
    case h_2 g' hg' =>
      split at hk
      case isFalse => cases hk
      case isTrue hc =>
        obtain ⟨q, hq, heq⟩ := Option.map_eq_some_iff.mp hk
        cases heq
        simp only [Bool.and_eq_true, beq_iff_eq] at hc
        exact ⟨hy, hg', hc.1, hc.2, hq⟩
  · rintro ⟨hx, hg, ht, hc, hp⟩
    refine ⟨x, hx, ?_⟩
    dsimp only at *
    rw [hg]
    simp [ht, hc, hp]

/-- A warp is a candidate of its track exactly where it has a path to issue from. -/
theorem exists_cand_iff (hx : x ∈ s.allWarps) (hg : s.gangOf? x.gid = some g) :
    (∃ k ∈ s.cands (32 * g.stk + g.core) x.track, k.x = x) ↔ (s.choosePath g x).isSome = true := by
  constructor
  · rintro ⟨⟨y, h, p⟩, hk, rfl⟩
    obtain ⟨-, hh, -, -, hp⟩ := mem_cands.mp hk
    cases hg.symm.trans hh
    rw [hp]
    rfl
  · intro h
    obtain ⟨p, hp⟩ := Option.isSome_iff_exists.mp h
    exact ⟨⟨x, g, p⟩, mem_cands.mpr ⟨hx, hg, rfl, rfl, hp⟩, rfl⟩

/-! ### The order of R81 -/

/-- The key of R81: handlers first, then what is under its issue floor, then by priority and by the latest issue. -/
def candKey (s : State) (k : Cand) : Nat ×ₗ Nat ×ₗ Nat ×ₗ Nat :=
  toLex ((!k.handles).toNat, toLex ((!s.underTrack (32 * k.g.stk + k.g.core) k.x.track k.g.alm).toNat, toLex (3 - k.prio, k.x.issued)))

theorem toLex_not_toNat_lt {α : Type} [LinearOrder α] (a b : Bool) (r q : α) :
    toLex ((!a).toNat, r) < toLex ((!b).toNat, q) ↔ if a != b then a = true else r < q := by
  cases a <;> cases b <;> simp [Prod.Lex.toLex_lt_toLex]

theorem candBefore_iff {a b : Cand} : s.candBefore a b = true ↔ candKey s a < candKey s b := by
  have ha : a.prio ≤ 3 := min_le_left ..
  have hb : b.prio ≤ 3 := min_le_left ..
  rw [candKey, candKey, toLex_not_toNat_lt, toLex_not_toNat_lt, Prod.Lex.toLex_lt_toLex]
  unfold State.candBefore
  dsimp only
  split
  · exact Iff.rfl
  split
  · exact Iff.rfl
  split
  · simp; omega
  · simp; omega

theorem ranks_candBefore : Ranks s.candBefore := .of_key (candKey s) fun _ _ => candBefore_iff

theorem toLex_not_toNat_le {α : Type} [LinearOrder α] (a b : Bool) (r q : α) :
    toLex ((!a).toNat, r) ≤ toLex ((!b).toNat, q) → (b = true → a = true) ∧ ((a = true ↔ b = true) → r ≤ q) := by
  cases a <;> cases b <;> simp [Prod.Lex.toLex_le_toLex]

/-- What the one chosen has before another candidate (R81), by the rules in turn. -/
theorem of_not_candBefore {k j : Cand} (h : s.candBefore j k = false) :
    let under (k : Cand) : Bool := s.underTrack (32 * k.g.stk + k.g.core) k.x.track k.g.alm
    (j.handles = true → k.handles = true) ∧ ((k.handles = true ↔ j.handles = true) → (under j = true → under k = true) ∧
      ((under k = true ↔ under j = true) → j.prio ≤ k.prio ∧ (j.prio = k.prio → k.x.issued ≤ j.x.issued))) := by
  have ha : j.prio ≤ 3 := min_le_left ..
  have hb : k.prio ≤ 3 := min_le_left ..
  rw [← Bool.not_eq_true, candBefore_iff, not_lt] at h
  obtain ⟨hh, h⟩ := toLex_not_toNat_le _ _ _ _ h
  refine ⟨hh, fun heq => ?_⟩
  obtain ⟨hu, h⟩ := toLex_not_toNat_le _ _ _ _ (h heq)
  refine ⟨hu, fun heq => ?_⟩
  have := Prod.Lex.toLex_le_toLex.mp (h heq)
  dsimp only at this
  omega

/-! ### What a track issues -/

/-- The candidates that a track may issue from: those in a handler or within their budget (R80, R81). -/
def State.eligible (s : State) (c track : Nat) : List Cand := (s.cands c track).filter fun k => k.handles || !s.overTrack c track k.g.alm

theorem mem_eligible {c track : Nat} {k : Cand} : k ∈ s.eligible c track ↔ k ∈ s.cands c track ∧ (k.handles = true ∨ s.overTrack c track k.g.alm = false) := by
  simp [State.eligible]

theorem stopsOf_of_none {c track : Nat} (h : ∀ y ∈ s.allWarps, y.stops = []) : s.stopsOf c track = s := by
  rw [State.stopsOf, List.filter_eq_nil_iff.mpr]
  · rfl
  · intro y hy
    simp [h y hy]

theorem exec_warpSchedule_of_none {c track : Nat} (h : ∀ y ∈ s.allWarps, y.stops = []) (hnone : ∀ k, k ∉ s.eligible c track) :
    exec (.warpSchedule c track) s = .next s := by
  show execWarpSchedule c track s = _
  have hnil : ((s.cands c track).filter fun k => k.handles || !s.overTrack c track k.g.alm) = [] := List.eq_nil_iff_forall_not_mem.mpr hnone
  simp only [execWarpSchedule, stopsOf_of_none h, hnil, List.foldl_nil]

theorem exec_warpSchedule_of_some {c track : Nat} {k : Cand} (h : ∀ y ∈ s.allWarps, y.stops = []) (hk : k ∈ s.eligible c track) :
    ∃ j ∈ s.eligible c track, exec (.warpSchedule c track) s = .next (s.chosen j) ∧ ∀ i ∈ s.eligible c track, s.candBefore i j = false := by
  have hex : exec (.warpSchedule c track) s = execWarpSchedule c track s := rfl
  simp only [execWarpSchedule, stopsOf_of_none h] at hex
  split at hex
  case h_1 hf =>
    have hnil := foldl_picks_eq_none hf ⟨fun _ => rfl, fun _ _ => rfl⟩ ranks_candBefore
    exact absurd hk (by rw [State.eligible, hnil]; exact List.not_mem_nil)
  case h_2 j hf =>
    obtain ⟨hmem, hbest⟩ := foldl_picks_best hf ⟨fun _ => rfl, fun _ _ => rfl⟩ ranks_candBefore
    exact ⟨j, hmem, hex, hbest⟩

/-! ### Warps and paths in focus -/

/-- No two warps have the same gang and number. -/
def State.WarpsApart (s : State) : Prop := (s.allWarps.map fun y => (y.gid, y.w)).Nodup

theorem State.WarpsApart.eq (h : s.WarpsApart) {x y : Warp} (hx : x ∈ s.allWarps) (hy : y ∈ s.allWarps) (hg : x.gid = y.gid) (hw : x.w = y.w) : x = y :=
  List.inj_on_of_nodup_map h hx hy (Prod.ext hg hw)

theorem gangOf?_ne_zero {gid : Nat} (h : s.gangOf? gid = some g) : gid ≠ 0 := by
  have := List.find?_some (show s.allGangs.find? (fun g => g.gid == gid && gid != 0) = some g from h)
  simp only [Bool.and_eq_true, bne_iff_ne] at this
  exact this.2

/-- The warp put in focus is the one asked for. -/
theorem focus_of_mem (h : s.WarpsApart) (hx : x ∈ s.allWarps) (hg : s.gangOf? x.gid = some g) : (s.focus x.gid x.w).me = x ∧ (s.focus x.gid x.w).mem = s.mem := by
  unfold State.focus
  split
  case isTrue hme =>
    simp only [Bool.and_eq_true, beq_iff_eq] at hme
    exact ⟨h.eq (.head _) hx hme.1.1 hme.1.2, rfl⟩
  case isFalse =>
    rw [warpOf?_of_unique hx (gangOf?_ne_zero hg) fun y hy hyg hyw => h.eq hy hx hyg hyw, hg]
    exact ⟨rfl, rfl⟩

theorem select_of_live (hp : p ∈ x.live) : (x.select p.id).cur.id = p.id ∧ (x.select p.id).gid = x.gid ∧ (x.select p.id).w = x.w ∧ (x.select p.id).regs = x.regs := by
  unfold Warp.select
  split
  case isTrue hc =>
    simp only [Bool.and_eq_true, beq_iff_eq] at hc
    exact ⟨hc.1, rfl, rfl, rfl⟩
  case isFalse =>
    cases hf : x.path? p.id with
    | none => exact absurd (List.find?_eq_none.mp hf p hp) (by simp)
    | some q => exact ⟨beq_iff_eq.mp (List.find?_some (p := fun q : Path => q.id == p.id) hf), rfl, rfl, rfl⟩

theorem chosen_spec (h : s.WarpsApart) {c track : Nat} {k : Cand} (hk : k ∈ s.cands c track) : (s.chosen k).issue = .lane ∧ (s.chosen k).me.gid = k.x.gid ∧
    (s.chosen k).me.w = k.x.w ∧ (s.chosen k).me.cur.id = k.p.id ∧ (s.chosen k).mem = s.mem ∧ (s.chosen k).me.regs = k.x.regs := by
  obtain ⟨hx, hg, -, -, hp⟩ := mem_cands.mp hk
  obtain ⟨hme, hmem⟩ := focus_of_mem h hx hg
  obtain ⟨hid, hgid, hw, hregs⟩ := select_of_live (of_choosePath hp).2.1.live
  rw [← hme] at hid hgid hw hregs
  rw [← hme]
  exact ⟨rfl, hgid, hw, hid, hmem, hregs⟩

theorem handles_iff {k : Cand} : k.handles = true ↔ ∃ p ∈ k.x.live, p.hmode ≠ .none := by
  simp [Cand.handles]

end

end Sys2Proof.Machine

/-! Aging (03_tasks R81) and the fetch of a packet (09_ordering R230, 10_translation R244). -/

namespace Sys2Proof.Machine

section
variable {s : State} {g : Gang} {x : Warp} {p : Path}

/-! ### Aging -/

theorem mapWarps_allWarps (f : Warp → Warp) : (s.mapWarps f).allWarps = s.allWarps.map f := rfl

theorem exists_aged (hx : x ∈ s.allWarps) (hg : s.gangOf? x.gid = some g) : ∃ z ∈ s.aged.allWarps,
    z = if (s.issue = Issue.lane ∧ x.gid = s.me.gid ∧ x.w = s.me.w) ∨ (s.choosePath g x).isNone then x else { x with age := x.age + s.stepCycles (32 * g.stk + g.core) } := by
  rw [State.aged, mapWarps_allWarps]
  refine ⟨_, List.mem_map_of_mem hx, ?_⟩
  rw [hg]
  simp only [Bool.or_eq_true, Bool.and_eq_true, beq_iff_eq, and_assoc]

/-! ### The warp in focus among the candidates -/

theorem gangOf?_me (h0 : s.me.gid ≠ 0) (hg : s.gang.gid = s.me.gid) : s.gangOf? s.me.gid = some s.gang := by
  simp [State.gangOf?, State.allGangs, hg, h0]

theorem warpOf?_me (h0 : s.me.gid ≠ 0) : s.warpOf? s.me.gid s.me.w = some s.me := by
  simp [State.warpOf?, State.allWarps, h0]

theorem onCore_iff (hg : s.gangOf? x.gid = some g) : s.onCore x = true ↔ x.exited = false ∧ x.pre.st ≠ .saved ∧ g.st = .resident := by
  simp [State.onCore, hg, and_assoc]

theorem bringsIn_of_nil (h : x.overflow = []) : x.bringsIn = false := by
  simp [Warp.bringsIn, Warp.broughtIn, h]

theorem streamShut_of_closed (h : ∀ q ∈ x.streams, q.2.st = .closed) : x.streamShut = false := by
  rw [Warp.streamShut, List.any_eq_false]
  intro q hq
  simp [StreamReg.shut, StreamReg.isOpen, h q hq]

theorem warpRuns_of (hg : s.gangOf? x.gid = some g) (hst : g.st = .resident) (hex : x.exited = false) (hend : (s.ctx g.asid).ending = none)
    (hsaved : x.pre.st ≠ .saved) (hhard : x.pre.st ≠ .hard) (hdrain : x.pre.st ≠ .drain) (hov : x.overflow = []) (hstr : ∀ q ∈ x.streams, q.2.st = .closed)
    (hlead : g.seq.lead = false) : s.warpRuns g x = true := by
  simp [State.warpRuns, (onCore_iff hg).mpr ⟨hex, hsaved, hst⟩, hend, hhard, hdrain, bringsIn_of_nil hov, streamShut_of_closed hstr, hlead]

/-- A path of a warp that has READY lanes and no pre-emption handler before it (R134). -/
theorem mayIssue_iff (hp : p ∈ x.live) : x.mayIssue p = true ↔ p.st = .ready ∧ (p.hmode = .pre ∨ ∀ q ∈ x.live, q.hmode ≠ .pre) := by
  have hm : ¬ p.mask = 0#32 := bne_iff_ne.mp (List.mem_filter.mp hp).2
  simp [Warp.mayIssue, hm]

theorem open_of_ready (hp : p ∈ x.live) (hst : p.st = .ready) (hstep : p.step = 0) (hpre : p.hmode = .pre ∨ ∀ q ∈ x.live, q.hmode ≠ .pre)
    (hov : x.overflow = []) : x.open p = true := by
  simp [Warp.open, (mayIssue_iff hp).mpr ⟨hst, hpre⟩, hov, hstep]

/-! ### Something done with the path in focus -/

theorem path?_cur (hm : x.cur.mask ≠ 0) : x.path? x.cur.id = some x.cur := by
  have hm : ¬ x.cur.mask = 0#32 := hm
  simp [Warp.path?, Warp.live, hm]

theorem select_cur (hm : x.cur.mask ≠ 0) : x.select x.cur.id = x := by
  have hm : ¬ x.cur.mask = 0#32 := hm
  simp [Warp.select, hm]

theorem focus_me {gid w : Nat} (hg : s.me.gid = gid) (hw : s.me.w = w) (hgang : s.gang.gid = gid) : s.focus gid w = s := by
  simp [State.focus, hg, hw, hgang]

/-- Where the path in focus is the one meant and what is done leaves it in focus, nothing else moves. -/
theorem withPath_cur {h : Here} {f : State → State} {t : State} (h0 : s.me.gid ≠ 0) (hg : s.gang.gid = s.me.gid) (hm : s.me.cur.mask ≠ 0)
    (hf : f { s with here := h, issue := .lane } = t) (hgid : t.me.gid = s.me.gid) (hw : t.me.w = s.me.w) (hgang : t.gang = s.gang)
    (hid : t.me.cur.id = s.me.cur.id) (hmask : t.me.cur.mask ≠ 0) :
    s.withPath s.me.gid s.me.w s.me.cur.id h f = { t with here := s.here, issue := s.issue } := by
  have hfoc : s.focus s.me.gid s.me.w = s := focus_me rfl rfl hg
  have href : t.refocus s.gang s.me = t := by
    rw [State.refocus, if_pos (by simpa using h0)]
    exact focus_me (hgid.trans hg.symm) hw (congrArg Gang.gid hgang)
  have hsel : t.me.select s.me.cur.id = t.me := hid ▸ select_cur hmask
  simp only [State.withPath, hfoc, select_cur hm, hf, href, hsel]

/-! ### Fetches -/

theorem cutVa_of_within {va len fuel : Nat} (h0 : len ≠ 0) (h : va % 2 ^ 16 + len ≤ 2 ^ 16) : cutVa va (fuel + 2) len = [(va, len)] := by
  have hmin : min len (2 ^ 16 - va % 2 ^ 16) = len := min_eq_left (by omega)
  simp only [cutVa, if_neg h0, hmin, Nat.sub_self, if_true]

theorem cutVa_head {va len fuel : Nat} (h0 : len ≠ 0) : ∃ n rest, cutVa va (fuel + 1) len = (va, n) :: rest := ⟨_, _, by rw [cutVa, if_neg h0]⟩

theorem exec_icacheFill_cur (h0 : s.me.gid ≠ 0) (hg : s.gang.gid = s.me.gid) (hm : s.me.cur.mask ≠ 0) (hid : s.me.cur.id ≠ 0xFE) (hex : s.me.exited = false)
    (hsaved : s.me.pre.st ≠ .saved) (hst : s.gang.st = .resident) (hclk : s.sys.mclkEnd = none) :
    exec (.icacheFill s.me.gid s.me.w s.me.cur.id) s = .next (if s.me.cur.st = .ready then
      s.withPath s.me.gid s.me.w s.me.cur.id { pc := s.me.cur.pc, wpos := s.me.cur.wpos, npc := s.me.cur.pc, nwpos := s.me.cur.wpos } fun t => t.fetchPath s.me.cur.pc
    else s) := by
  show execIcacheFill _ _ _ s = _
  have hcore := (onCore_iff (gangOf?_me h0 hg)).mpr ⟨hex, hsaved, hst⟩
  have hmiss : s.windowMiss = false := by simp [State.windowMiss, hclk]
  simp only [execIcacheFill, if_neg hid, warpOf?_me h0, path?_cur hm, hcore, hmiss]
  by_cases h : s.me.cur.st = .ready <;> simp [h]

theorem fetchPath_of_ok {pc : BitVec 48} {k : Nat} (h : pc.toNat % 2 ^ 16 + 12 ≤ 2 ^ 16) (ht : s.translate .fetch pc.toNat = (s, .ok k)) :
    s.fetchPath pc = s.fillLine pc (s.bytes k 12) := by
  have hpc : pc.toNat % 2 ^ 48 = pc.toNat := Nat.mod_eq_of_lt pc.isLt
  simp only [State.fetchPath, cutVa_of_within (fuel := 1) (len := 12) (by omega) h, State.fetchParts, hpc, ht, List.append_nil]

theorem fetchPath_of_error {pc : BitVec 48} {c : Nat} (ht : s.translate .fetch pc.toNat = (s, .error c)) :
    s.fetchPath pc = (let t := s.park 2 c (BitVec.ofNat 64 pc.toNat) 3 s.me.cur.mask; t.setCur { t.me.cur with replay := s.me.cur.replay }) := by
  have hpc : pc.toNat % 2 ^ 48 = pc.toNat := Nat.mod_eq_of_lt pc.isLt
  obtain ⟨n, rest, hcut⟩ := cutVa_head (va := pc.toNat) (len := 12) (fuel := 2) (by omega)
  simp only [State.fetchPath, hcut, State.fetchParts, hpc, ht]

/-- A cached packet that a path may use (R230). -/
def State.usable (s : State) (asid : Nat) (pc : BitVec 48) (fenced : Nat) (o : ILine) : Prop :=
  o ∈ (s.core s.coreNo).icache ∧ o.asid = asid ∧ o.pc = pc ∧ fenced < o.at_

theorem of_lineFor {asid fenced : Nat} {pc : BitVec 48} {o : ILine} (h : s.lineFor asid pc fenced = some o) : s.usable asid pc fenced o := by
  have hp := List.find?_some (p := fun l : ILine => l.asid == asid && l.pc == pc && decide (fenced < l.at_)) h
  simp only [Bool.and_eq_true, beq_iff_eq, decide_eq_true_eq] at hp
  exact ⟨List.mem_of_find?_eq_some h, hp.1.1, hp.1.2, hp.2⟩

theorem lineFor_eq_none {asid fenced : Nat} {pc : BitVec 48} (h : s.lineFor asid pc fenced = none) (o : ILine) : ¬ s.usable asid pc fenced o := fun ho => by
  obtain ⟨hmem, ha, hp, hf⟩ := ho
  exact absurd (List.find?_eq_none.mp h o hmem) (by simp [ha, hp, hf])

theorem ite_eq_or {α : Type} (b : Bool) (x y : α) : (if b then x else y) = y ∨ (if b then x else y) = x := by cases b <;> simp

theorem mem_replaced (ls : List ILine) (l : ILine) {asid : Nat} {pc : BitVec 48} (ha : l.asid = asid) (hp : l.pc = pc) :
    l ∈ ls.filter (fun y => !(y.asid == asid && y.pc == pc)) ++ [l] ∧
    ∀ o ∈ ls.filter (fun y => !(y.asid == asid && y.pc == pc)) ++ [l], o.asid = l.asid → o.pc = l.pc → o = l := by
  refine ⟨by simp, fun o ho hoa hop => ?_⟩
  rcases List.mem_append.mp ho with ho | ho
  · have := (List.mem_filter.mp ho).2
    simp [hoa, hop, ha, hp] at this
  · exact List.mem_singleton.mp ho

/-- The packet that a fetch caches: as the memory holds it, or, word by word, as an older copy did (R230). -/
theorem fillLine_spec (pc : BitVec 48) (bs : List (BitVec 8)) : ∃ (l : ILine) (ls : List ILine),
    s.fillLine pc bs = s.setCore s.coreNo { s.core s.coreNo with icache := ls } ∧
    (l ∈ ls ∧ ∀ o ∈ ls, o.asid = l.asid → o.pc = l.pc → o = l) ∧
    l.asid = s.gang.asid ∧ l.pc = pc ∧
    (s.lineFor s.gang.asid pc s.me.cur.fenced = none → l.at_ = s.point ∧ l.w0 = BitVec.ofNat 32 (fieldAt bs 0 4) ∧ l.w1 = BitVec.ofNat 32 (fieldAt bs 4 4) ∧
      l.w2 = BitVec.ofNat 32 (fieldAt bs 8 4)) ∧
    ∀ o, s.lineFor s.gang.asid pc s.me.cur.fenced = some o → (l.w0 = BitVec.ofNat 32 (fieldAt bs 0 4) ∨ l.w0 = o.w0) ∧
      (l.w1 = BitVec.ofNat 32 (fieldAt bs 4 4) ∨ l.w1 = o.w1) ∧ (l.w2 = BitVec.ofNat 32 (fieldAt bs 8 4) ∨ l.w2 = o.w2) := by
  unfold State.fillLine
  cases h : s.lineFor s.gang.asid pc s.me.cur.fenced with
  | none => exact ⟨_, _, rfl, mem_replaced _ _ rfl rfl, rfl, rfl, fun _ => ⟨rfl, rfl, rfl, rfl⟩, nofun⟩
  | some o =>
    refine ⟨_, _, rfl, mem_replaced _ _ rfl rfl, rfl, rfl, nofun, fun o' ho => ?_⟩
    cases ho
    dsimp only
    exact ⟨ite_eq_or _ _ _, ite_eq_or _ _ _, ite_eq_or _ _ _⟩

theorem toNat_fieldAt_bytes (k : Nat) {o : Nat} (h : o + 4 ≤ 12) : (BitVec.ofNat 32 (fieldAt (s.bytes k 12) o 4)).toNat = s.rd (k + o) 4 := by
  rw [fieldAt_bytes s k h, BitVec.toNat_ofNat]
  exact Nat.mod_eq_of_lt (rd_lt s (k + o) 4)

end

end Sys2Proof.Machine

/-! The path table and the register tiers (04_control R109, 08_memory R204). -/

namespace Sys2Proof.Machine

section
variable {s : State} {g : Gang} {x : Warp} {p : Path}

/-! ### Paths that come in -/

theorem mem_resident : p ∈ x.resident ↔ p ∈ x.live ∧ p.id ∉ x.overflow := by
  simp [Warp.resident]

theorem resident_eq : x.resident = x.live.filter fun p => decide (p.id ∉ x.overflow) := by
  rw [Warp.resident]
  congr 1
  funext p
  simp

theorem broughtIn_of_nil (h : x.overflow = []) : x.broughtIn = x := by
  simp [Warp.broughtIn, h]

/-- There is room for the head of the list (R109). -/
theorem broughtIn_of_room {i : Nat} {rest : List Nat} (h : x.overflow = i :: rest) (hn : x.resident.length < 8) : x.broughtIn = { x with overflow := rest } := by
  simp only [Warp.broughtIn, h, if_pos hn]

theorem broughtIn_of_issues (hn : 8 ≤ x.resident.length) (h : ∃ p ∈ x.resident, x.mayIssue p = true) : x.broughtIn = x := by
  have hany : x.resident.any x.mayIssue = true := List.any_eq_true.mpr h
  rw [Warp.broughtIn]
  split
  · rfl
  · rw [if_neg (Nat.not_lt.mpr hn), if_pos hany]

/-- The first path of the list that can issue. -/
def Warp.firstIn (x : Warp) : Option Nat := x.overflow.find? fun i => x.live.any fun p => p.id == i && x.mayIssue p

theorem broughtIn_of_full (hn : 8 ≤ x.resident.length) (hno : ∀ p ∈ x.resident, ¬ x.mayIssue p = true) : x.broughtIn =
    match x.firstIn, x.movedOut with
    | some i, some q => { x with overflow := (x.overflow.filter fun j => j != i) ++ [q.id] }
    | _, _ => x := by
  have hany : ¬ x.resident.any x.mayIssue = true := fun h => by
    obtain ⟨p, hp, hi⟩ := List.any_eq_true.mp h
    exact hno p hp hi
  rw [Warp.broughtIn]
  split
  case h_1 h =>
    have : x.firstIn = none := by rw [Warp.firstIn, h]; rfl
    rw [this]
  case h_2 =>
    rw [if_neg (Nat.not_lt.mpr hn), if_neg hany]
    rfl

theorem broughtIn_of_none (hn : 8 ≤ x.resident.length) (h : x.firstIn = none ∨ x.movedOut = none) : x.broughtIn = x := by
  by_cases hi : ∃ p ∈ x.resident, x.mayIssue p = true
  · exact broughtIn_of_issues hn hi
  · rw [broughtIn_of_full hn (by simpa using hi)]
    rcases h with h | h
    · rw [h]
    · rw [h]; cases x.firstIn <;> rfl

theorem firstIn_eq_none (h : ∀ p ∈ x.live, p.id ∈ x.overflow → ¬ x.mayIssue p = true) : x.firstIn = none := by
  refine List.find?_eq_none.mpr fun i hi hany => ?_
  obtain ⟨p, hp, hid⟩ := List.any_eq_true.mp hany
  simp only [Bool.and_eq_true, beq_iff_eq] at hid
  exact h p hp (hid.1 ▸ hi) hid.2

theorem firstIn_eq_some {as bs : List Nat} {i : Nat} (h : x.overflow = as ++ i :: bs) (hi : ∃ p ∈ x.live, p.id = i ∧ x.mayIssue p = true)
    (has : ∀ j ∈ as, ∀ p ∈ x.live, x.mayIssue p = true → p.id ≠ j) : x.firstIn = some i := by
  obtain ⟨p, hp, hid, hm⟩ := hi
  rw [Warp.firstIn, h, List.find?_append, List.find?_eq_none.mpr, Option.none_or, List.find?_cons_of_pos]
  · exact List.any_eq_true.mpr ⟨p, hp, by simp [hid, hm]⟩
  · intro j hj hany
    obtain ⟨q, hq, hqj⟩ := List.any_eq_true.mp hany
    simp only [Bool.and_eq_true, beq_iff_eq] at hqj
    exact has j hj q hq hqj.2 hqj.1

/-- R109: the path with the higher PC, then the higher identifier, leaves. -/
def leavesBefore (p q : Path) : Bool := q.pc < p.pc || (q.pc == p.pc && decide (q.id < p.id))

theorem leavesBefore_iff {p q : Path} : leavesBefore p q = true ↔ OrderDual.toDual (toLex (p.pc.toNat, p.id)) < OrderDual.toDual (toLex (q.pc.toNat, q.id)) := by
  rw [OrderDual.toDual_lt_toDual]
  simp [leavesBefore, Prod.Lex.toLex_lt_toLex, BitVec.lt_def, BitVec.toNat_inj]

theorem ranks_leavesBefore : Ranks leavesBefore := .of_key (fun p => OrderDual.toDual (toLex (p.pc.toNat, p.id))) fun _ _ => leavesBefore_iff

theorem leavesBefore_eq_false {p q : Path} : leavesBefore p q = false ↔ p.pc < q.pc ∨ p.pc = q.pc ∧ p.id ≤ q.id := by
  rw [← Bool.not_eq_true, leavesBefore_iff, OrderDual.toDual_lt_toDual, not_lt, Prod.Lex.toLex_le_toLex]
  simp [BitVec.lt_def, BitVec.toNat_inj]

theorem mem_waiting : p ∈ x.resident.filter (fun p => p.st != .ready) ↔ p ∈ x.resident ∧ p.st ≠ .ready := by simp

theorem of_movedOut {q : Path} (h : x.movedOut = some q) :
    (q ∈ x.resident ∧ q.st ≠ .ready) ∧ ∀ r ∈ x.resident, r.st ≠ .ready → r.pc < q.pc ∨ r.pc = q.pc ∧ r.id ≤ q.id := by
  obtain ⟨hmem, hbest⟩ := foldl_picks_best h ⟨fun _ => rfl, fun _ _ => rfl⟩ ranks_leavesBefore
  exact ⟨mem_waiting.mp hmem, fun r hr hst => leavesBefore_eq_false.mp (hbest r (mem_waiting.mpr ⟨hr, hst⟩))⟩

theorem movedOut_eq_none_iff : x.movedOut = none ↔ ∀ r ∈ x.resident, r.st = .ready := by
  constructor
  · intro h r hr
    have hnil := foldl_picks_eq_none h ⟨fun _ => rfl, fun _ _ => rfl⟩ ranks_leavesBefore
    by_contra hst
    exact absurd (mem_waiting.mpr ⟨hr, hst⟩) (hnil ▸ List.not_mem_nil)
  · intro h
    rw [Warp.movedOut, List.filter_eq_nil_iff.mpr]
    · rfl
    · intro r hr
      simp [h r hr]

/-- The first path of the list that can issue comes in for the one that leaves (R109). -/
theorem broughtIn_of_swap {as bs : List Nat} {i : Nat} {q : Path} (hn : 8 ≤ x.resident.length) (hno : ∀ p ∈ x.resident, ¬ x.mayIssue p = true)
    (h : x.overflow = as ++ i :: bs) (ha : i ∉ as) (hb : i ∉ bs) (hi : x.firstIn = some i) (hq : x.movedOut = some q) :
    x.broughtIn = { x with overflow := as ++ bs ++ [q.id] } := by
  have hne (l : List Nat) (hl : i ∉ l) : l.filter (fun j => j != i) = l :=
    List.filter_eq_self.mpr fun j hj => bne_iff_ne.mpr fun hji => hl (hji ▸ hj)
  rw [broughtIn_of_full hn hno, hi, hq]
  simp [h, hne as ha, hne bs hb]

theorem State.WarpsApart.ne_me (h : s.WarpsApart) {y : Warp} (hy : y ∈ s.warps) : ¬ (y.gid = s.me.gid ∧ y.w = s.me.w) := fun ⟨hg, hw⟩ =>
  (List.nodup_cons.mp h).1 (List.mem_map.mpr ⟨y, hy, Prod.ext hg hw⟩)

theorem mapWarps_of_others {f : Warp → Warp} (h : ∀ y ∈ s.warps, f y = y) : s.mapWarps f = { s with me := f s.me } := by
  rw [State.mapWarps, List.map_congr_left h, List.map_id']

/-- Only the warp in focus is asked. -/
theorem exec_pathBringIn_me (hw : s.WarpsApart) (h0 : s.me.gid ≠ 0) (hex : s.me.exited = false) :
    exec (.pathBringIn s.me.gid s.me.w) s = .next { s with me := s.me.broughtIn } := by
  show execPathBringIn _ _ s = _
  rw [execPathBringIn, mapWarps_of_others]
  · simp [h0, hex]
  · intro y hy
    have := hw.ne_me hy
    rw [if_neg]
    simp
    tauto

/-! ### Warps that leave the top tier -/

/-- A warp as the choice of R204 sees it: gang, number, registers and latest issue. -/
abbrev Tier := Nat × Nat × Nat × Nat

/-- The gang and the number of a warp. -/
def Tier.key (y : Tier) : Nat × Nat := (y.1, y.2.1)

def issuedBefore (x y : Tier) : Bool := x.2.2.2 < y.2.2.2

theorem ranks_issuedBefore : Ranks issuedBefore := .of_key (fun x => x.2.2.2) fun _ _ => decide_eq_true_iff

/-- The ones that leave a tier with so much room: no more than need to, and those that issued least recently. -/
structure Leaves (room : Nat) (xs : List Tier) (ids : List (Nat × Nat)) : Prop where
  mem : ∀ k ∈ ids, ∃ x ∈ xs, x.key = k
  fits : ((xs.filter fun x => decide (x.key ∉ ids)).map fun x => x.2.2.1).sum ≤ room
  none : (xs.map fun x => x.2.2.1).sum ≤ room → ids = []
  least : ∀ x ∈ xs, x.key ∈ ids → ∀ z ∈ xs, z.key ∉ ids → x.2.2.2 ≤ z.2.2.2

theorem Leaves.of_fits {room : Nat} {xs : List Tier} (h : (xs.map fun x => x.2.2.1).sum ≤ room) : Leaves room xs [] where
  mem := nofun
  fits := by simpa using h
  none _ := rfl
  least := nofun

/-- The one that issued least recently leaves, and of the others those that leave them. -/
theorem Leaves.cons {room : Nat} {xs : List Tier} {ids : List (Nat × Nat)} {y : Tier} (hinj : ∀ a ∈ xs, ∀ b ∈ xs, a.key = b.key → a = b)
    (hfull : ¬ (xs.map fun x => x.2.2.1).sum ≤ room) (hy : y ∈ xs) (hmin : ∀ z ∈ xs, y.2.2.2 ≤ z.2.2.2)
    (h : Leaves room (xs.filter fun x => x.key != y.key) ids) : Leaves room xs (y.key :: ids) where
  mem := by
    refine List.forall_mem_cons.mpr ⟨⟨y, hy, rfl⟩, fun k hk => ?_⟩
    obtain ⟨x, hx, hkey⟩ := h.mem k hk
    exact ⟨x, (List.mem_filter.mp hx).1, hkey⟩
  fits := by
    have hf := h.fits
    rw [List.filter_filter] at hf
    convert hf using 5 with x
    rw [Bool.eq_iff_iff]
    simp [and_comm]
  none hle := absurd hle hfull
  least x hx hxk z hz hzk := by
    rw [List.mem_cons, not_or] at hzk
    rcases List.mem_cons.mp hxk with hxy | hxk
    · rw [hinj x hx y hy hxy]
      exact hmin z hz
    · by_cases hxy : x.key = y.key
      · rw [hinj x hx y hy hxy]
        exact hmin z hz
      · exact h.least x (List.mem_filter.mpr ⟨hx, bne_iff_ne.mpr hxy⟩) hxk z (List.mem_filter.mpr ⟨hz, bne_iff_ne.mpr hzk.1⟩) hzk.2

theorem tooMany_leaves (room : Nat) (xs : List Tier) (n : Nat) (hn : xs.length ≤ n) (hinj : ∀ a ∈ xs, ∀ b ∈ xs, a.key = b.key → a = b) :
    Leaves room xs (tooMany room xs n) := by
  induction n generalizing xs with
  | zero =>
    rw [List.length_eq_zero_iff.mp (Nat.le_zero.mp hn)]
    exact .of_fits (Nat.zero_le _)
  | succ n ih =>
    rw [tooMany]
    split
    case isTrue h => exact .of_fits h
    case isFalse h =>
      split
      case h_1 hf =>
        rw [foldl_picks_eq_none (before := issuedBefore) hf ⟨fun _ => rfl, fun _ _ => by simp [issuedBefore]⟩ ranks_issuedBefore] at h
        exact absurd (Nat.zero_le _) h
      case h_2 y hf =>
        obtain ⟨hy, hbest⟩ := foldl_picks_best (before := issuedBefore) hf ⟨fun _ => rfl, fun _ _ => by simp [issuedBefore]⟩ ranks_issuedBefore
        have hrest : (xs.filter fun x => !(x.1 == y.1 && x.2.1 == y.2.1)) = xs.filter fun x => Tier.key x != Tier.key y := rfl
        rw [hrest]
        refine .cons hinj h hy (fun z hz => by simpa [issuedBefore] using hbest z hz) (ih _ ?_ fun a ha b hb => hinj a (List.mem_filter.mp ha).1 b (List.mem_filter.mp hb).1)
        have : (xs.filter fun x => Tier.key x != Tier.key y).length < xs.length := List.length_filter_lt_length_iff_exists.mpr ⟨y, hy, by simp⟩
        omega

/-! ### A warp that comes to the top tier -/

/-- The other warps that the top tier of the core in focus holds. -/
def State.topOthers (s : State) : List Warp := (s.coreWarps s.coreNo).filter fun y => y.top && !(y.gid == s.me.gid && y.w == s.me.w)

def State.tierOf (s : State) (y : Warp) : Tier := (y.gid, y.w, s.regsOf y, y.issued)

/-- The warps that leave for the warp in focus, by their gangs and numbers, and as they are. -/
def State.leaverIds (s : State) : List (Nat × Nat) := tooMany (topRoom - s.gang.regsN) (s.topOthers.map s.tierOf) 128
def State.leavers (s : State) : List Warp := s.topOthers.filter fun y => decide ((s.tierOf y).key ∈ s.leaverIds)

theorem mem_allWarps_of_topOthers {y : Warp} (h : y ∈ s.topOthers) : y ∈ s.allWarps :=
  (List.mem_filter.mp (List.mem_filter.mp h).1).1

theorem leaves_topOthers (hw : s.WarpsApart) (hn : s.topOthers.length ≤ 128) : Leaves (topRoom - s.gang.regsN) (s.topOthers.map s.tierOf) s.leaverIds := by
  refine tooMany_leaves _ _ _ (by simpa using hn) fun a ha b hb hab => ?_
  obtain ⟨y, hy, rfl⟩ := List.mem_map.mp ha
  obtain ⟨z, hz, rfl⟩ := List.mem_map.mp hb
  obtain ⟨hgid, hnum⟩ := Prod.ext_iff.mp hab
  rw [hw.eq (mem_allWarps_of_topOthers hy) (mem_allWarps_of_topOthers hz) hgid hnum]

theorem mem_leavers {y : Warp} : y ∈ s.leavers ↔ y ∈ s.topOthers ∧ (s.tierOf y).key ∈ s.leaverIds := by
  simp [State.leavers]

theorem key_mem_leaverIds_iff (hw : s.WarpsApart) (hn : s.topOthers.length ≤ 128) {y : Warp} (hy : y ∈ s.allWarps) :
    (y.gid, y.w) ∈ s.leaverIds ↔ y ∈ s.leavers := by
  refine ⟨fun h => ?_, fun h => (mem_leavers.mp h).2⟩
  obtain ⟨x, hx, hkey⟩ := (leaves_topOthers hw hn).mem _ h
  obtain ⟨z, hz, rfl⟩ := List.mem_map.mp hx
  obtain ⟨hgid, hnum⟩ := Prod.ext_iff.mp hkey
  rw [hw.eq hy (mem_allWarps_of_topOthers hz) hgid.symm hnum.symm]
  exact mem_leavers.mpr ⟨hz, hkey ▸ h⟩

theorem exec_registerBringIn_of_top (h0 : s.me.gid ≠ 0) (hg : s.gang.gid = s.me.gid) (ht : s.me.top = true) :
    exec (.registerBringIn s.me.gid s.me.w) s = .next s := by
  show execRegisterBringIn _ _ s = _
  simp only [execRegisterBringIn, warpOf?_me h0, gangOf?_me h0 hg, ht, Bool.true_or, if_true]

theorem exec_registerBringIn_me (hw : s.WarpsApart) (h0 : s.me.gid ≠ 0) (hg : s.gang.gid = s.me.gid) (ht : s.me.top = false) (hc : s.onCore s.me = true)
    (hn : s.topOthers.length ≤ 128) : exec (.registerBringIn s.me.gid s.me.w) s =
    .next { s with me := { s.me with top := true }, warps := s.warps.map fun y => if y ∈ s.leavers then { y with top := false } else y } := by
  have hex : exec (.registerBringIn s.me.gid s.me.w) s = .next (s.mapWarps fun y => if y.gid == s.me.gid && y.w == s.me.w then { y with top := true }
      else if s.leaverIds.contains (y.gid, y.w) then { y with top := false } else y) := by
    show execRegisterBringIn _ _ s = _
    simp only [execRegisterBringIn, warpOf?_me h0, gangOf?_me h0 hg, ht, hc, Bool.not_true, Bool.or_false, Bool.false_eq_true, if_false]
    rfl
  rw [hex, State.mapWarps]
  simp only [BEq.rfl, Bool.and_self, if_true]
  congr 2
  refine List.map_congr_left fun y hy => ?_
  rw [if_neg (by simpa using hw.ne_me hy)]
  exact if_congr (List.contains_iff_mem.trans (key_mem_leaverIds_iff hw hn (.tail _ hy))) rfl rfl

theorem leavers_fit (hw : s.WarpsApart) (hn : s.topOthers.length ≤ 128) :
    ((s.topOthers.filter fun y => decide (y ∉ s.leavers)).map s.regsOf).sum ≤ topRoom - s.gang.regsN := by
  have hfit := (leaves_topOthers hw hn).fits
  rw [List.filter_map, List.map_map] at hfit
  have hfilter : (s.topOthers.filter fun y => decide (y ∉ s.leavers)) = s.topOthers.filter ((fun x : Tier => decide (x.key ∉ s.leaverIds)) ∘ s.tierOf) :=
    List.filter_congr fun y hy => by simp [mem_leavers, hy]
  rw [hfilter]
  exact hfit

theorem leavers_eq_nil (hw : s.WarpsApart) (hn : s.topOthers.length ≤ 128) (h : (s.topOthers.map s.regsOf).sum ≤ topRoom - s.gang.regsN) : s.leavers = [] := by
  have hnil := (leaves_topOthers hw hn).none (by rw [List.map_map]; exact h)
  simp [State.leavers, hnil]

theorem leavers_least (hw : s.WarpsApart) (hn : s.topOthers.length ≤ 128) {y z : Warp} (hy : y ∈ s.leavers) (hz : z ∈ s.topOthers) (hzl : z ∉ s.leavers) :
    y.issued ≤ z.issued := by
  obtain ⟨hy, hky⟩ := mem_leavers.mp hy
  exact (leaves_topOthers hw hn).least _ (List.mem_map_of_mem hy) hky _ (List.mem_map_of_mem hz) fun hkz => hzl (mem_leavers.mpr ⟨hz, hkz⟩)

end

end Sys2Proof.Machine

/-! What comes to issue: the parts of O54 put together (03_tasks R81; 04_control R94, R109; 08_memory R204; 09_ordering R230). -/

namespace Sys2Proof

open Machine in
/-- Settles O54: the choices as the best of a list each, the fetch, the path table and the top tier as they change the warp in focus. -/
theorem whatIssues : Obligations.WhatIssues := by
  unfold Obligations.WhatIssues
  intro s h0 hg hapart gid w c
  replace hapart : s.WarpsApart := hapart
  refine ⟨?choice, ?fetch, ?paths, ?registers⟩
  case choice =>
    intro core track ok handles under prio
    refine ⟨fun k hk => ?_, ?_, fun y hy g hyg => ?_, fun hstops => ⟨fun hnone => ?_, fun hsome => ?_⟩⟩
    · obtain ⟨-, -, -, -, hp⟩ := mem_cands.mp hk
      obtain ⟨-, hoff, hbest⟩ := of_choosePath hp
      exact ⟨hoff.live, hoff.isOpen, hoff.board, fun q hl ho hb => hbest q ⟨hl, ho, hb⟩⟩
    · intro hc ht hst hex hend hsaved hhard hdrain hov hstr hlead p hp hready hstep hpre hb
      have hruns := warpRuns_of (gangOf?_me h0 hg) hst hex hend hsaved hhard hdrain hov hstr hlead
      have hoff : s.me.Offers p := ⟨hp, open_of_ready hp hready hstep hpre hov, hb⟩
      obtain ⟨q, hq⟩ := exists_choosePath hruns hoff
      exact ⟨⟨s.me, s.gang, q⟩, mem_cands.mpr ⟨.head _, gangOf?_me h0 hg, ht, hc, hq⟩, rfl, rfl, (of_choosePath hq).2.2 p hoff⟩
    · obtain ⟨z, hz, hage⟩ := exists_aged hy hyg
      have hnone : (s.choosePath g y).isNone = true ↔ ¬ ∃ k ∈ s.cands (32 * g.stk + g.core) y.track, k.x = y := by
        rw [exists_cand_iff hy hyg]
        cases s.choosePath g y <;> simp
      refine ⟨z, hz, ?_, fun hready hnot => ?_, fun h => ?_⟩
      · rw [hage]
        split <;> rfl
      · rw [hage, if_neg (not_or.mpr ⟨hnot, fun hn => hnone.mp hn hready⟩)]
      · rw [hage, if_pos (h.symm.imp_right hnone.mpr)]
    · exact ⟨s, exec_warpSchedule_of_none hstops fun k hk => hnone k (mem_eligible.mp hk), rfl⟩
    · obtain ⟨k, hk⟩ := hsome
      obtain ⟨j, hj, hex, hbest⟩ := exec_warpSchedule_of_some hstops (mem_eligible.mpr hk)
      have hunder {k : Cand} (hk : ok k) : under k ↔ s.underTrack (32 * k.g.stk + k.g.core) k.x.track k.g.alm = true := by
        obtain ⟨-, -, ht, hc, -⟩ := mem_cands.mp hk.1
        rw [ht, hc]
      have hjok := mem_eligible.mp hj
      obtain ⟨hissue, hjgid, hjw, hjid, hjmem, hjregs⟩ := chosen_spec hapart hjok.1
      refine ⟨_, hex, j, hjok, hissue, hjgid, hjw, hjid, hjmem, hjregs, fun i hi => ?_⟩
      have hhandles (k : Cand) : handles k ↔ k.handles = true := handles_iff.symm
      rw [hhandles, hhandles, hunder hi, hunder hjok]
      exact of_not_candBefore (hbest i (mem_eligible.mpr hi))
  case fetch =>
    rintro p rfl hm hid hex hsaved hst hclk
    have hfill := exec_icacheFill_cur h0 hg hm hid hex hsaved hst hclk
    refine ⟨fun hready => ⟨s, hfill.trans (congrArg _ (if_neg hready)), rfl⟩, fun hready => ?_⟩
    rw [if_pos hready] at hfill
    intro f
    refine ⟨fun k hpage htr => ?_, fun code htr => ?_⟩
    · obtain ⟨l, ls, hl, ⟨hmem, huniq⟩, hasid, hpc, hnew, hold⟩ := fillLine_spec (s := f) s.me.cur.pc (f.bytes k 12)
      have hwith := withPath_cur (f := fun t => t.fetchPath s.me.cur.pc) h0 hg hm ((fetchPath_of_ok hpage htr).trans hl) rfl rfl rfl rfl hm
      have hcore : (f.setCore c { s.core c with icache := ls }).core c = { s.core c with icache := ls } := (setCore_core ..).trans (if_pos rfl)
      have hls (o : ILine) : o ∈ ((f.setCore c { s.core c with icache := ls }).core c).icache ↔ o ∈ ls := by rw [hcore]
      refine ⟨_, hfill.trans (congrArg _ hwith), rfl, hcore.trans ?_, l, (hls l).mpr hmem, hasid, hpc, fun o ho => huniq o ((hls o).mp ho), fun hno => ?_, fun ⟨o, ho⟩ => ?_⟩
      · exact (congrArg (fun x : Core => { s.core c with icache := x.icache }) hcore).symm
      · cases hline : f.lineFor f.gang.asid s.me.cur.pc f.me.cur.fenced with
        | some o => exact absurd (of_lineFor hline) (hno o)
        | none =>
          obtain ⟨hat, hw0, hw1, hw2⟩ := hnew hline
          rw [hw0, hw1, hw2]
          exact ⟨toNat_fieldAt_bytes k (o := 0) (by omega), toNat_fieldAt_bytes k (by omega), toNat_fieldAt_bytes k (by omega), hat⟩
      · cases hline : f.lineFor f.gang.asid s.me.cur.pc f.me.cur.fenced with
        | none => exact absurd ho (lineFor_eq_none hline o)
        | some o' =>
          obtain ⟨hw0, hw1, hw2⟩ := hold o' hline
          refine ⟨o', of_lineFor hline, hw0.imp_left fun h => ?_, hw1.imp_left fun h => ?_, hw2.imp_left fun h => ?_⟩
          · rw [h]; exact toNat_fieldAt_bytes k (o := 0) (by omega)
          · rw [h]; exact toNat_fieldAt_bytes k (by omega)
          · rw [h]; exact toNat_fieldAt_bytes k (by omega)
    · have hwith := withPath_cur (f := fun t => t.fetchPath s.me.cur.pc) h0 hg hm (fetchPath_of_error htr) rfl rfl rfl rfl hm
      exact ⟨_, hfill.trans (congrArg _ hwith), rfl, _, rfl, rfl, rfl, rfl, rfl, rfl⟩
  case paths =>
    intro hex resident n issues
    have hin := exec_pathBringIn_me hapart h0 hex
    have hn : n = s.me.resident.length := by rw [resident_eq]
    have hres {p : Path} : p ∈ s.me.resident ↔ resident p := mem_resident
    have hmay {p : Path} (hp : p ∈ s.me.live) : s.me.mayIssue p = true ↔ issues p := (mayIssue_iff hp).trans (and_iff_right hp).symm
    have hstay (h : s.me.broughtIn = s.me) : Gives (.pathBringIn gid w) s (· = s) := ⟨_, hin, by rw [h]⟩
    rw [hn]
    refine ⟨fun h => hstay ?_, fun i rest hov hroom => ⟨_, hin, ?_⟩, fun hfull hready => hstay ?_, fun hfull hno ⟨r, hr, hrst⟩ as i bs hov ha hb hi has => ?_⟩
    · rcases h with hov | ⟨hfull, p, hp, hi⟩ | ⟨hfull, hno⟩
      · exact broughtIn_of_nil hov
      · exact broughtIn_of_issues hfull ⟨p, hres.mpr hp, (hmay hp.1).mpr hi⟩
      · exact broughtIn_of_none hfull (.inl (firstIn_eq_none fun p hp hid hm => hno p hid ((hmay hp).mp hm)))
    · rw [broughtIn_of_room hov hroom]
    · exact broughtIn_of_none hfull (.inr (movedOut_eq_none_iff.mpr fun r hr => hready r (hres.mp hr)))
    · obtain ⟨p, hp, hpi⟩ := hi
      have hfirst := firstIn_eq_some hov ⟨p, hp.1, hpi, (hmay hp.1).mpr hp⟩ fun j hj q hq hm => has j hj q ((hmay hq).mp hm)
      cases hout : s.me.movedOut with
      | none => exact absurd (movedOut_eq_none_iff.mp hout r (hres.mpr hr)) hrst
      | some q =>
        obtain ⟨⟨hq, hqst⟩, hmost⟩ := of_movedOut hout
        refine ⟨_, hin, q, hres.mp hq, hqst, fun r hr => hmost r (hres.mpr hr), ?_⟩
        rw [broughtIn_of_swap hfull (fun p hp hm => hno p (hres.mp hp) ((hmay (mem_resident.mp hp).1).mp hm)) hov ha hb hfirst hout]
  case registers =>
    intro hex hsaved hst others regs room
    have hcore := (onCore_iff (gangOf?_me h0 hg)).mpr ⟨hex, hsaved, hst⟩
    have hregs : regs = s.regsOf := by
      funext y
      simp only [regs, State.regsOf]
      cases s.gangOf? y.gid <;> rfl
    refine ⟨fun ht => ⟨s, exec_registerBringIn_of_top h0 hg ht, rfl⟩, fun ht hn => ⟨_, exec_registerBringIn_me hapart h0 hg ht hcore hn, s.leavers, ?_⟩⟩
    rw [hregs]
    exact ⟨fun y hy => (mem_leavers.mp hy).1, rfl, leavers_fit hapart hn, leavers_eq_nil hapart hn, fun y hy z hz hzl => leavers_least hapart hn hy hz hzl⟩

end Sys2Proof

/-! Branches (04_control R97, R99, R100, R102, R103; 02_encoding R30, R42). -/

namespace Sys2Proof.Machine

/-! ### Targets -/

/-- The target of a format B word as an integer (02_encoding R30), wrapped to 48 bits (log 45). -/
theorem branchTarget_eq (s : State) (t : BitVec 20) : s.branchTarget t = BitVec.ofInt 48 (s.here.pc.toNat + 12 * t.toInt) := by
  rw [BitVec.ofInt_add, BitVec.ofInt_mul, BitVec.ofInt_natCast, BitVec.ofNat_toNat, BitVec.setWidth_eq]
  rfl

theorem takes_iff_eq {s : State} {p : BitVec 3} {n : Bool} {l : Nat} : s.takes p n l = true ↔ s.p p l = !n := by
  unfold State.takes
  cases s.p p l <;> cases n <;> simp

theorem toNat_indexed (s : State) (a : BitVec 7) (b : BitVec 6) (l : Nat) :
    (s.indexed a b l).toNat = ((s.uu b).toNat + 12 * (s.v a l).toNat) % 2 ^ 64 := by
  unfold State.indexed
  generalize s.uu b = x
  generalize s.v a l = y
  bv_omega

theorem setWidth_of_toNat {x : BitVec 64} {n : Nat} (h : x.toNat = n) : x.setWidth 48 = BitVec.ofNat 48 n := by
  rw [← h, BitVec.ofNat_toNat]

/-! ### The checks of targets (R103) -/

section
variable {s : State} {tgt : Nat → BitVec 64}

theorem badTarget_of_misplaced (h : ∃ l, l < 32 ∧ s.act l = true ∧ (tgt l).toNat % 12 ≠ 0) :
    s.badTarget tgt s.lanes = some (s.trap 0 9 (BitVec.ofNat 64 s.here.word)) := by
  obtain ⟨l, hl, ha, ht⟩ := h
  exact if_pos (List.any_eq_true.mpr ⟨l, (mem_lanes s l).mpr ⟨hl, ha⟩, decide_eq_true ht⟩)

/-- Where every target is a packet's address, the second check decides. -/
theorem badTarget_of_placed (h : ∀ l, l < 32 → s.act l = true → (tgt l).toNat % 12 = 0) : s.badTarget tgt s.lanes =
    (s.lanes.find? fun l => decide ((tgt l).toNat / 2 ^ 48 ≠ 0)).map fun l => s.progErr 0x0403 (tgt l) := by
  have hno : ¬ (s.lanes.any fun l => decide ((tgt l).toNat % 12 ≠ 0)) = true := fun hany => by
    obtain ⟨l, hl, ht⟩ := List.any_eq_true.mp hany
    obtain ⟨hl, ha⟩ := (mem_lanes s l).mp hl
    exact of_decide_eq_true ht (h l hl ha)
  unfold State.badTarget
  rw [if_neg hno]
  cases s.lanes.find? fun l => decide ((tgt l).toNat / 2 ^ 48 ≠ 0) <;> rfl

/-- The error is that of the lowest lane whose target is beyond the 48 bits of an address. -/
theorem badTarget_of_beyond (h : ∀ l, l < 32 → s.act l = true → (tgt l).toNat % 12 = 0) {l : Nat} (hl : l < 32) (ha : s.act l = true)
    (ht : 2 ^ 48 ≤ (tgt l).toNat) (hfirst : ∀ m, m < l → s.act m = true → (tgt m).toNat < 2 ^ 48) :
    s.badTarget tgt s.lanes = some (s.progErr 0x0403 (tgt l)) := by
  have hfind : (s.lanes.find? fun l => decide ((tgt l).toNat / 2 ^ 48 ≠ 0)) = some l := by
    rw [State.lanes, lanesOf, List.find?_filter, List.find?_range_eq_some]
    refine ⟨?_, List.mem_range.mpr hl, fun m hm => ?_⟩
    · have hdiv : (tgt l).toNat / 2 ^ 48 ≠ 0 := by omega
      exact decide_eq_true ⟨ha, decide_eq_true hdiv⟩
    · rw [Bool.not_eq_true', decide_eq_false_iff_not]
      exact fun ⟨hma, hd⟩ => of_decide_eq_true hd (Nat.div_eq_of_lt (hfirst m hm hma))
  rw [badTarget_of_placed h, hfind]
  rfl

theorem badTarget_eq_none (h : ∀ l, l < 32 → s.act l = true → (tgt l).toNat % 12 = 0 ∧ (tgt l).toNat < 2 ^ 48) : s.badTarget tgt s.lanes = none := by
  rw [badTarget_of_placed fun l hl ha => (h l hl ha).1, Option.map_eq_none_iff, List.find?_eq_none]
  intro l hl hd
  obtain ⟨hl, ha⟩ := (mem_lanes s l).mp hl
  exact of_decide_eq_true hd (Nat.div_eq_of_lt (h l hl ha).2)

end

/-! ### Whole paths -/

/-- In a warp that is not traced a jump is a move of the path (R99). -/
theorem jump_of_untraced {s : State} (h : s.me.trc.on = false) (t : BitVec 48) : s.jump t = s.goto t 0 := by
  rw [State.jump, traceBranch_off _ _ _ h]

theorem any_lanes_iff {s : State} {f : Nat → Bool} : s.lanes.any f = true ↔ ∃ l, l < 32 ∧ s.act l = true ∧ f l = true := by
  simp only [List.any_eq_true, mem_lanes, and_assoc]

/-- Where the lanes of bra, call and their like go (R99). -/
def State.branchPlace (s : State) (p : BitVec 3) (n : Bool) (t : BitVec 20) (l : Nat) : Place :=
  if s.takes p n l then (s.branchTarget t, 0) else s.fall

theorem branchPlace_of_takes {s : State} {p : BitVec 3} {n : Bool} {t : BitVec 20} {l : Nat} (h : s.takes p n l = true) :
    (s.branchPlace p n t l).2 = 0 := by rw [State.branchPlace, if_pos h]

end Sys2Proof.Machine

namespace Sys2Proof

open Machine in
/-- Settles O12, by the rule for moves of lanes and the outcomes of the two checks of targets. -/
theorem branches : Obligations.Branches := by
  unfold Obligations.Branches
  intro s target next
  have htarget (t : BitVec 20) : s.branchTarget t = target t := branchTarget_eq s t
  refine ⟨fun hi hst htr => ⟨fun p n t => ?bra, fun p n t => ?brp, fun a b => ?brx⟩, fun hi p n t => ?seq⟩
  case bra =>
    have hplace : s.branchPlace p n t = fun l => if s.p p l = (!n) then (target t, 0) else next := by
      funext l
      simp only [State.branchPlace, takes_iff_eq, htarget]
      rfl
    have hgo := moveLanes_spec s (s.branchPlace p n t) (s.takes p n) htr hst fun _ => branchPlace_of_takes
    refine ⟨s.moveLanes (s.branchPlace p n t) (s.takes p n), ?_, hplace ▸ hgo⟩
    show execBra p n t s = _
    rw [execBra, hi]
    rfl
  case brp =>
    intro taken
    have htaken : s.lanes.any (s.takes p n) = true ↔ taken := by simp only [any_lanes_iff, takes_iff_eq, taken]
    by_cases h : taken
    · refine ⟨s.goto (target t) 0, ?_, rfl, fun _ => rfl, fun hn => absurd h hn⟩
      show execBrp p n t s = _
      rw [execBrp, if_pos (htaken.mpr h), jump_of_untraced htr, htarget]
    · refine ⟨s.goto next.1 next.2, ?_, rfl, fun ht => absurd ht h, fun _ => rfl⟩
      show execBrp p n t s = _
      rw [execBrp, if_neg (mt htaken.mp h)]
      rfl
  case brx =>
    intro tgt
    have htgt (l : Nat) : (s.indexed a b l).toNat = tgt l := toNat_indexed s a b l
    refine ⟨fun h => ?_, fun ⟨l, hl, ha, ht⟩ => ?_, fun h l hl ha ht hfirst => ?_⟩
    · have hnone : s.badTarget (s.indexed a b) s.lanes = none := badTarget_eq_none fun l hl ha => by rw [htgt]; exact h l hl ha
      have hplace : (fun l => (BitVec.ofNat 48 (tgt l), 0)) = fun l => ((s.indexed a b l).setWidth 48, 0) := by
        funext l
        rw [setWidth_of_toNat (htgt l)]
      rw [hplace]
      refine ⟨_, ?_, moveLanes_spec s _ (fun _ => true) htr hst fun _ _ => rfl⟩
      show execBrx a b s = _
      simp only [execBrx, hnone]
    · show execBrx a b s = _
      simp only [execBrx, badTarget_of_misplaced ⟨l, hl, ha, (htgt l).symm ▸ ht⟩]
    · have hsome : s.badTarget (s.indexed a b) s.lanes = some (s.progErr 0x0403 (s.indexed a b l)) := by
        refine badTarget_of_beyond (fun l hl ha => ?_) hl ha ?_ fun m hm hma => ?_ <;> rw [htgt]
        exacts [h l hl ha, ht, hfirst m hm hma]
      have hinfo : s.indexed a b l = BitVec.ofNat 64 (tgt l) := by rw [← htgt, BitVec.ofNat_toNat, BitVec.setWidth_eq]
      show execBrx a b s = _
      simp only [execBrx, hsome, hinfo]
  case seq =>
    refine ⟨_, ?_, rfl⟩
    show execBra p n t s = _
    rw [execBra, hi, htarget]

end Sys2Proof

/-! Calls and returns (04_control R103 to R106). -/

namespace Sys2Proof.Machine

/-! ### Return depths -/

@[simp] theorem getD_putD (r : Regs) (l d m : Nat) : (r.putD l d).getD m = if m = l then d % 128 else r.getD m := by
  unfold Regs.getD Regs.putD
  rw [smGet_smPut]
  split <;> simp

theorem getD_lt (r : Regs) (l : Nat) : r.getD l < 128 := (smGet 0 r.rdep l).isLt

/-- A return lowers the depth of each of its lanes (R106). -/
def Regs.lowered (r : Regs) (ls : List Nat) : Regs := ls.foldl (fun r l => r.putD l (r.getD l - 1)) r

theorem lowered_frame (ls : List Nat) (r : Regs) : r.lowered ls = { r with rdep := (r.lowered ls).rdep } := by
  induction ls generalizing r with
  | nil => rfl
  | cons l ls ih => exact ih (r.putD l (r.getD l - 1))

theorem getD_lowered {ls : List Nat} (hls : ls.Nodup) (r : Regs) (m : Nat) : (r.lowered ls).getD m = if m ∈ ls then r.getD m - 1 else r.getD m := by
  induction ls generalizing r with
  | nil => rfl
  | cons l ls ih =>
    obtain ⟨hl, hls⟩ := List.nodup_cons.mp hls
    have hlt := getD_lt r l
    rw [Regs.lowered, List.foldl_cons, ← Regs.lowered, ih hls, getD_putD]
    by_cases hm : m = l
    · subst hm
      simp only [hl, if_false, if_true, List.mem_cons_self]
      omega
    · simp [hm]

/-! ### Return slots (R104) -/

section
variable (s : State) (l : Nat) (ls : List Nat)

/-- The slot that the next call of a lane fills. -/
def State.topSlot : Nat := s.slotKey l (s.me.regs.getD l)

/-- One lane's call: its slot takes the address of the next packet, and its depth rises (R105). -/
def State.pushLane : State := (s.wr (s.topSlot l) 8 (s.here.pc.toNat + 12)).setRegs (s.me.regs.putD l (s.me.regs.getD l + 1))

/-- Whether a byte lies in the slot that a lane's next call fills. -/
def State.inTopSlot (k : Nat) : Prop := s.topSlot l ≤ k ∧ k < s.topSlot l + 8

theorem pushReturn_cons : s.pushReturn (l :: ls) = (s.pushLane l).pushReturn ls := rfl

theorem pushLane_frame : s.pushLane l = { s with
    me := { s.me with regs := { s.me.regs with rdep := (s.pushLane l).me.regs.rdep } }
    mem := (s.pushLane l).mem, journal := (s.pushLane l).journal } := by
  show State.setRegs _ _ = _
  rw [wr_frame]
  rfl

theorem pushLane_byte (k : Nat) : (s.pushLane l).byte k = (s.wr (s.topSlot l) 8 (s.here.pc.toNat + 12)).byte k := rfl

theorem getD_pushLane (h : s.me.regs.getD l < 64) (m : Nat) :
    (s.pushLane l).me.regs.getD m = if m = l then s.me.regs.getD l + 1 else s.me.regs.getD m := by
  show (s.me.regs.putD l (s.me.regs.getD l + 1)).getD m = _
  rw [getD_putD, Nat.mod_eq_of_lt (by omega)]

theorem topSlot_pushLane {m : Nat} (hm : m ≠ l) (h : s.me.regs.getD l < 64) : (s.pushLane l).topSlot m = s.topSlot m := by
  have hdepth : (s.pushLane l).me.regs.getD m = s.me.regs.getD m := by rw [getD_pushLane s l h, if_neg hm]
  rw [State.topSlot, hdepth, pushLane_frame]
  rfl

end

section
variable {s : State} {ls : List Nat}

/-- Slots of two lanes lie apart, as each is in its own lane's stack. -/
theorem topSlot_apart {l m : Nat} (hlm : l ≠ m) (hl : s.me.regs.getD l < 64) (hm : s.me.regs.getD m < 64) {k : Nat} (hk : s.inTopSlot l k) :
    ¬ s.inTopSlot m k := by
  simp only [State.inTopSlot, State.topSlot, State.slotKey, Warp.stackAt] at hk ⊢
  omega

/-- Lanes push their return addresses: nothing but return depths, memory and its journal differs. -/
theorem pushReturn_frame : s.pushReturn ls = { s with
    me := { s.me with regs := { s.me.regs with rdep := (s.pushReturn ls).me.regs.rdep } }
    mem := (s.pushReturn ls).mem, journal := (s.pushReturn ls).journal } := by
  induction ls generalizing s with
  | nil => rfl
  | cons l ls ih =>
    rw [pushReturn_cons]
    refine ih.trans ?_
    rw [pushLane_frame]

theorem getD_pushReturn (hls : ls.Nodup) (hd : ∀ l ∈ ls, s.me.regs.getD l < 64) (m : Nat) :
    (s.pushReturn ls).me.regs.getD m = if m ∈ ls then s.me.regs.getD m + 1 else s.me.regs.getD m := by
  induction ls generalizing s with
  | nil => rfl
  | cons l ls ih =>
    obtain ⟨hl, hls⟩ := List.nodup_cons.mp hls
    obtain ⟨hdl, hd⟩ := List.forall_mem_cons.mp hd
    have hother (m : Nat) (hm : m ∈ ls) : (s.pushLane l).me.regs.getD m = s.me.regs.getD m := by
      rw [getD_pushLane s l hdl, if_neg (ne_of_mem_of_not_mem hm hl)]
    rw [pushReturn_cons, ih hls fun m hm => by rw [hother m hm]; exact hd m hm]
    by_cases hm : m ∈ ls
    · rw [if_pos hm, if_pos (.tail _ hm), hother m hm]
    · rw [if_neg hm, getD_pushLane s l hdl]
      by_cases hml : m = l <;> simp [hml, hm]

theorem byte_pushReturn (hls : ls.Nodup) (hd : ∀ l ∈ ls, s.me.regs.getD l < 64) {k : Nat} (hk : ∀ l ∈ ls, ¬ s.inTopSlot l k) :
    (s.pushReturn ls).byte k = s.byte k := by
  induction ls generalizing s with
  | nil => rfl
  | cons l ls ih =>
    obtain ⟨hl, hls⟩ := List.nodup_cons.mp hls
    obtain ⟨hdl, hd⟩ := List.forall_mem_cons.mp hd
    obtain ⟨hkl, hk⟩ := List.forall_mem_cons.mp hk
    have hne (m : Nat) (hm : m ∈ ls) : m ≠ l := ne_of_mem_of_not_mem hm hl
    rw [pushReturn_cons, ih hls (fun m hm => ?_) fun m hm => ?_, pushLane_byte, byte_wr_ne _ _ _ _ _ hkl]
    · rw [getD_pushLane s l hdl, if_neg (hne m hm)]
      exact hd m hm
    · rw [State.inTopSlot, topSlot_pushLane s l (hne m hm) hdl]
      exact hk m hm

theorem rd_pushReturn (hls : ls.Nodup) (hd : ∀ l ∈ ls, s.me.regs.getD l < 64) {l : Nat} (hl : l ∈ ls) :
    (s.pushReturn ls).rd (s.topSlot l) 8 = (s.here.pc.toNat + 12) % 2 ^ 64 := by
  induction ls generalizing s with
  | nil => cases hl
  | cons m ls ih =>
    obtain ⟨hm, hls'⟩ := List.nodup_cons.mp hls
    obtain ⟨hdm, hds⟩ := List.forall_mem_cons.mp hd
    have hne (l : Nat) (hl : l ∈ ls) : l ≠ m := ne_of_mem_of_not_mem hl hm
    have hd' : ∀ l ∈ ls, (s.pushLane m).me.regs.getD l < 64 := fun l hl => by
      rw [getD_pushLane s m hdm, if_neg (hne l hl)]
      exact hds l hl
    rw [pushReturn_cons]
    obtain rfl | hl := List.mem_cons.mp hl
    · -- the other lanes' slots lie apart from this one
      have hkeep : ((s.pushLane l).pushReturn ls).rd (s.topSlot l) 8 = (s.wr (s.topSlot l) 8 (s.here.pc.toNat + 12)).rd (s.topSlot l) 8 := by
        refine rd_congr fun k hk hk' => byte_pushReturn hls' hd' fun j hj => ?_
        rw [State.inTopSlot, topSlot_pushLane s l (hne j hj) hdm]
        exact topSlot_apart (hne j hj).symm hdm (hds j hj) ⟨hk, hk'⟩
      rw [hkeep, rd_wr]
      rfl
    · have hhere : (s.pushLane m).here = s.here := by rw [pushLane_frame]
      rw [← topSlot_pushLane s m (hne l hl) hdm, ih hls' hd' hl, hhere]

end

/-! ### Moves after registers and memory have changed -/

/-- Where lanes go depends on the path in focus alone. -/
theorem LanesGo.of_cur {s t u : State} {place : Nat → Place} (h : LanesGo t u place) (hc : t.me.cur = s.me.cur) : LanesGo s u place := by
  unfold LanesGo State.act at h ⊢
  rwa [hc] at h

theorem nodup_lanes (s : State) : s.lanes.Nodup := List.Nodup.filter _ List.nodup_range

section
variable {s : State}

/-- What the calls of the lanes that `taking` picks have left in a state (R105): their return depths and slots, the paths, and nothing else. -/
def State.Pushed (s : State) (taking : Nat → Bool) (u : State) : Prop :=
  u = { s with
    me := { s.me with cur := u.me.cur, paths := u.me.paths, overflow := u.me.overflow, regs := { s.me.regs with rdep := u.me.regs.rdep } }
    mem := u.mem, journal := u.journal, accs := u.accs } ∧
  u.accs.map (fun a => { a with heirs := [] }) = s.accs.map (fun a => { a with heirs := [] }) ∧
  (∀ l, l < 32 → u.me.regs.getD l = if s.act l && taking l then s.me.regs.getD l + 1 else s.me.regs.getD l) ∧
  (∀ l, l < 32 → (s.act l && taking l) = true → u.rd (s.topSlot l) 8 = (s.here.pc.toNat + 12) % 2 ^ 64) ∧
  ∀ k, (∀ l, l < 32 → (s.act l && taking l) = true → ¬ s.inTopSlot l k) → u.byte k = s.byte k

/-- Lanes that push their return addresses and then move. -/
theorem pushReturn_moveLanes_spec (htr : s.me.trc.on = false) (hst : s.me.cur.st = .ready) {taking taken : Nat → Bool} {place : Nat → Place}
    (hp : ∀ l, taken l = true → (place l).2 = 0) (hd : ∀ l, l < 32 → s.act l = true → taking l = true → s.me.regs.getD l < 64) :
    let u := (s.pushReturn (s.lanes.filter taking)).moveLanes place taken
    s.Pushed taking u ∧ LanesGo s u place := by
  intro u
  have hmem {l : Nat} : l ∈ s.lanes.filter taking ↔ l < 32 ∧ (s.act l && taking l) = true := by
    rw [List.mem_filter, mem_lanes, Bool.and_eq_true, and_assoc]
  have hnodup : (s.lanes.filter taking).Nodup := (nodup_lanes s).filter _
  have hdepth : ∀ l ∈ s.lanes.filter taking, s.me.regs.getD l < 64 := fun l hl => by
    obtain ⟨hl, hat⟩ := hmem.mp hl
    obtain ⟨ha, ht⟩ := Bool.and_eq_true_iff.mp hat
    exact hd l hl ha ht
  have hframe := pushReturn_frame (s := s) (ls := s.lanes.filter taking)
  have hrdep := getD_pushReturn hnodup hdepth
  have hbyte {k : Nat} := byte_pushReturn hnodup hdepth (k := k)
  have hrd {l : Nat} := rd_pushReturn hnodup hdepth (l := l)
  generalize hv : s.pushReturn (s.lanes.filter taking) = v at hframe hrdep hbyte hrd
  obtain ⟨⟨hu, haccs⟩, hgo⟩ := moveLanes_spec v place taken (by rw [hframe]; exact htr) (by rw [hframe]; exact hst) hp
  have huv : u = v.moveLanes place taken := by simp only [u, hv]
  rw [← huv] at hu haccs hgo
  have hregs : u.me.regs = v.me.regs := by rw [hu]
  have hmemory : u.mem = v.mem := by rw [hu]
  refine ⟨⟨?_, ?_, fun l hl => ?_, fun l hl ht => ?_, fun k hk => ?_⟩, hgo.of_cur (by rw [hframe])⟩
  · rw [hu, hframe]
  · rw [haccs, hframe]
  · rw [hregs, hrdep]
    simp only [hmem, hl, true_and]
  · rw [← hrd (hmem.mpr ⟨hl, ht⟩)]
    exact rd_congr fun _ _ _ => congrArg (smGet unwritten · _) hmemory
  · exact (congrArg (smGet unwritten · k) hmemory).trans (hbyte fun l hl => hk l (hmem.mp hl).1 (hmem.mp hl).2)

/-- Active lanes that lower their return depths and then move (R106). -/
theorem lowered_moveLanes_spec (htr : s.me.trc.on = false) (hst : s.me.cur.st = .ready) {place : Nat → Place} (hp : ∀ l, (place l).2 = 0) :
    let u := (s.setRegs (s.me.regs.lowered s.lanes)).moveLanes place fun _ => true
    u = { s with
        me := { s.me with cur := u.me.cur, paths := u.me.paths, overflow := u.me.overflow, regs := { s.me.regs with rdep := u.me.regs.rdep } }
        accs := u.accs } ∧
      u.accs.map (fun a => { a with heirs := [] }) = s.accs.map (fun a => { a with heirs := [] }) ∧
      (∀ l, l < 32 → u.me.regs.getD l = if s.act l = true then s.me.regs.getD l - 1 else s.me.regs.getD l) ∧ LanesGo s u place := by
  intro u
  obtain ⟨⟨hu, haccs⟩, hgo⟩ := moveLanes_spec (s.setRegs (s.me.regs.lowered s.lanes)) place (fun _ => true) htr hst fun l _ => hp l
  have hregs : u.me.regs = s.me.regs.lowered s.lanes := congrArg (·.me.regs) hu
  refine ⟨?_, haccs, fun l hl => ?_, hgo.of_cur rfl⟩
  · rw [hregs, ← lowered_frame]
    exact hu
  · rw [hregs, getD_lowered (nodup_lanes s)]
    simp only [mem_lanes, hl, true_and]

/-- A lane at the limit of return depth stops a call (R105). -/
theorem any_full_iff {taking : Nat → Bool} : ((s.lanes.filter taking).any fun l => decide (s.me.regs.getD l = 64)) = true ↔
    ∃ l, l < 32 ∧ s.act l = true ∧ taking l = true ∧ s.me.regs.getD l = 64 := by
  simp only [List.any_eq_true, List.mem_filter, mem_lanes, decide_eq_true_eq, and_assoc]

theorem not_any_full {taking : Nat → Bool} (h : ∀ l, l < 32 → s.act l = true → taking l = true → s.me.regs.getD l < 64) :
    ¬ ((s.lanes.filter taking).any fun l => decide (s.me.regs.getD l = 64)) = true := fun hany => by
  obtain ⟨l, hl, ha, ht, hd⟩ := any_full_iff.mp hany
  exact absurd hd (h l hl ha ht).ne

theorem any_depth_iff {d : Nat} : (s.lanes.any fun l => decide (s.me.regs.getD l = d)) = true ↔ ∃ l, l < 32 ∧ s.act l = true ∧ s.me.regs.getD l = d := by
  simp only [any_lanes_iff, decide_eq_true_eq]

/-! ### call, callx and ret -/

theorem exec_call_of_not_full {p : BitVec 3} {n : Bool} {t : BitVec 20} (h : ∀ l, l < 32 → s.act l = true → s.takes p n l = true → s.me.regs.getD l < 64) :
    exec (.call p n t) s = .next ((s.pushReturn (s.lanes.filter (s.takes p n))).moveLanes (s.branchPlace p n t) (s.takes p n)) :=
  congrArg Host.Outcome.next (if_neg (not_any_full h))

theorem exec_callx_of_targets {a : BitVec 7} {b : BitVec 6} (h : s.badTarget (s.indexed a b) s.lanes = none) : exec (.callx a b) s =
    .next (if s.lanes.any fun l => decide (s.me.regs.getD l = 64) then s.progErr 0x0401 0
      else (s.pushReturn s.lanes).moveLanes (fun l => ((s.indexed a b l).setWidth 48, 0)) fun _ => true) := by
  show execCallx a b s = _
  simp only [execCallx, h]

/-- The address that a return of a lane takes back (R106). -/
def State.returnTarget (s : State) (l : Nat) : BitVec 64 := s.rd64 (s.slotKey l (s.me.regs.getD l - 1))

theorem toNat_returnTarget (l : Nat) : (s.returnTarget l).toNat = s.rd (s.slotKey l (s.me.regs.getD l - 1)) 8 := toNat_ofNat_rd s _

theorem exec_ret_of_empty (h : ∃ l, l < 32 ∧ s.act l = true ∧ s.me.regs.getD l = 0) : exec .ret s = .next (s.progErr 0x0402 0) :=
  congrArg Host.Outcome.next (if_pos (any_depth_iff.mpr h))

theorem exec_ret_of_depths (h : ∀ l, l < 32 → s.act l = true → 0 < s.me.regs.getD l) : exec .ret s =
    .next ((s.badTarget s.returnTarget s.lanes).getD
      ((s.setRegs (s.me.regs.lowered s.lanes)).moveLanes (fun l => ((s.returnTarget l).setWidth 48, 0)) fun _ => true)) := by
  have hno : ¬ (s.lanes.any fun l => decide (s.me.regs.getD l = 0)) = true := fun hany => by
    obtain ⟨l, hl, ha, hd⟩ := any_depth_iff.mp hany
    exact absurd hd (h l hl ha).ne'
  refine (congrArg Host.Outcome.next (if_neg hno)).trans ?_
  show Host.Outcome.next (match s.badTarget s.returnTarget s.lanes with | some t => t | none => _) = _
  cases s.badTarget s.returnTarget s.lanes <;> rfl

end

end Sys2Proof.Machine

namespace Sys2Proof

open Machine in
/-- Settles O13: the pushes of the taking lanes, or the lowered depths, before the move of the lanes. -/
theorem callsAndReturns : Obligations.CallsAndReturns := by
  unfold Obligations.CallsAndReturns
  intro s _ hst htr depth slot sameAccs pushed
  refine ⟨fun p n t => ?call, fun a b => ?callx, exec_ret_of_empty, fun hd => ?ret⟩
  case call =>
    intro taking
    refine ⟨fun ⟨l, hl, ha, ht, hd⟩ => congrArg Host.Outcome.next (if_pos (any_full_iff.mpr ⟨l, hl, ha, ht, hd⟩)), fun hd => ?_⟩
    have hplace : (fun l => if taking l = true then (BitVec.ofInt 48 (s.here.pc.toNat + 12 * t.toInt), 0) else (s.here.npc, s.here.nwpos)) =
        s.branchPlace p n t := by
      rw [← branchTarget_eq]
      rfl
    rw [hplace]
    exact ⟨_, exec_call_of_not_full hd, pushReturn_moveLanes_spec htr hst (fun _ => branchPlace_of_takes) hd⟩
  case callx =>
    intro tgt hok
    have htgt (l : Nat) : (s.indexed a b l).toNat = tgt l := toNat_indexed s a b l
    have hexec := exec_callx_of_targets (badTarget_eq_none (tgt := s.indexed a b) fun l hl ha => by rw [htgt]; exact hok l hl ha)
    have hall : s.lanes.filter (fun _ => true) = s.lanes := List.filter_true s.lanes
    have hplace : (fun l => (BitVec.ofNat 48 (tgt l), 0)) = fun l => ((s.indexed a b l).setWidth 48, 0) := by
      funext l
      rw [setWidth_of_toNat (htgt l)]
    refine ⟨fun hfull => hexec.trans (congrArg Host.Outcome.next (if_pos (any_depth_iff.mpr hfull))), fun hd => ?_⟩
    have hno := not_any_full (s := s) (taking := fun _ => true) fun l hl ha _ => hd l hl ha
    have hspec := pushReturn_moveLanes_spec htr hst (taking := fun _ => true) (taken := fun _ => true)
      (place := fun l => ((s.indexed a b l).setWidth 48, 0)) (fun _ _ => rfl) fun l hl ha _ => hd l hl ha
    rw [hall] at hno hspec
    rw [hplace]
    exact ⟨_, hexec.trans (congrArg Host.Outcome.next (if_neg hno)), hspec⟩
  case ret =>
    intro tgt
    have htgt (l : Nat) : (s.returnTarget l).toNat = tgt l := toNat_returnTarget l
    have hexec := exec_ret_of_depths fun l hl ha => (hd l hl ha).1
    refine ⟨fun ⟨l, hl, ha, ht⟩ => ?_, fun hok => ?_⟩
    · rw [hexec, badTarget_of_misplaced ⟨l, hl, ha, (htgt l).symm ▸ ht⟩, Option.getD_some]
    · have hplace : (fun l => (BitVec.ofNat 48 (tgt l), 0)) = fun l => ((s.returnTarget l).setWidth 48, 0) := by
        funext l
        rw [setWidth_of_toNat (htgt l)]
      rw [badTarget_eq_none fun l hl ha => by rw [htgt]; exact hok l hl ha, Option.getD_none] at hexec
      rw [hplace]
      exact ⟨_, hexec, lowered_moveLanes_spec htr hst fun _ => rfl⟩

end Sys2Proof

/-! What follows when a path joins or ends, in a warp with no trap, no handler and no pre-emption (04_control R107, R108). -/

namespace Sys2Proof.Machine

/-- A fold whose every step leaves what it began with. -/
theorem foldl_eq_self {α β : Type} {f : β → α → β} {l : List α} {b : β} (h : ∀ a ∈ l, f b a = b) : l.foldl f b = b :=
  List.foldlRecOn l f (motive := (· = b)) rfl fun t ht a ha => by rw [ht]; exact h a ha

/-! ### Live paths -/

section
variable {x : Warp}

theorem live_of_masks (h : ∀ p ∈ x.cur :: x.paths, p.mask ≠ 0) : x.live = x.cur :: x.paths :=
  List.filter_eq_self.mpr fun p hp => bne_iff_ne.mpr (h p hp)

theorem live_of_ended (hc : x.cur.mask = 0) (h : ∀ p ∈ x.paths, p.mask ≠ 0) : x.live = x.paths := by
  rw [Warp.live, List.filter_cons_of_neg (by simp [hc])]
  exact List.filter_eq_self.mpr fun p hp => bne_iff_ne.mpr (h p hp)

theorem mem_of_live {p : Path} (h : p ∈ x.live) : p ∈ x.cur :: x.paths := List.mem_of_mem_filter h

theorem mapPaths_of_same {f : Path → Path} (h : ∀ p ∈ x.cur :: x.paths, f p = p) : x.mapPaths f = x := by
  obtain ⟨hcur, hpaths⟩ := List.forall_mem_cons.mp h
  rw [Warp.mapPaths, hcur, List.map_congr_left hpaths, List.map_id']

/-- A warp that is not traced, has not exited, is not asked to give way, and has no path in a handler. -/
structure Warp.Plain (x : Warp) : Prop where
  untraced : x.trc.on = false
  stays : x.exited = false
  running : x.pre.st = .run
  ordinary : ∀ p ∈ x.cur :: x.paths, p.hmode = .none

theorem Warp.Plain.not_any_handler (h : x.Plain) : ¬ (x.live.any fun p => p.hmode != .none) = true := fun hany => by
  obtain ⟨p, hp, hm⟩ := List.any_eq_true.mp hany
  exact bne_iff_ne.mp hm (h.ordinary p (mem_of_live hp))

/-- The same with other paths, none of them in a handler. -/
theorem Warp.Plain.with_paths (h : x.Plain) {p : Path} {ps : List Path} (ov : List Nat) (hp : ∀ q ∈ p :: ps, q.hmode = .none) :
    ({ x with cur := p, paths := ps, overflow := ov } : Warp).Plain := { h with ordinary := hp }

end

/-- A path that keeps no trap and waits for none to be over (05_events R128). -/
def Path.Calm (p : Path) : Prop := p.st ≠ .held .trapBusy ∧ p.kept = none

theorem calm_of_ready {p : Path} (h : p.st = .ready) : p.Calm := by simp [Path.Calm, Path.kept, h]

theorem calm_of_join {p : Path} {a : BitVec 48} {b : Nat} (h : p.st = .join a b) : p.Calm := by simp [Path.Calm, Path.kept, h]

/-! ### The release test (R108) -/

/-- A path in JOIN with the place after its join. -/
def Path.join? (p : Path) : Option (Path × BitVec 48 × Nat) :=
  match p.st with
  | .join a b => some (p, a, b)
  | _ => none

theorem join?_eq_some {p : Path} {c : Path × BitVec 48 × Nat} : p.join? = some c ↔ c.1 = p ∧ p.st = .join c.2.1 c.2.2 := by
  obtain ⟨q, a, b⟩ := c
  cases hst : p.st <;> simp [Path.join?, hst, eq_comm]

theorem isSome_join? {p : Path} : p.join?.isSome = true ↔ ∃ a b, p.st = .join a b := by
  cases hst : p.st <;> simp [Path.join?, hst]

/-- R108: the lower place. -/
def joinBefore (c d : Path × BitVec 48 × Nat) : Bool := c.1.pc < d.1.pc || (c.1.pc == d.1.pc && decide (c.1.wpos < d.1.wpos))

theorem joinBefore_iff {c d : Path × BitVec 48 × Nat} : joinBefore c d = true ↔ c.1.pc < d.1.pc ∨ c.1.pc = d.1.pc ∧ c.1.wpos < d.1.wpos := by
  simp [joinBefore]

theorem ranks_joinBefore : Ranks joinBefore := .of_key (fun c => toLex (c.1.pc.toNat, c.1.wpos)) fun c d => by
  rw [joinBefore_iff, Prod.Lex.toLex_lt_toLex, BitVec.lt_def, BitVec.toNat_inj]

/-- Keeps the one at the lower place of two in JOIN. -/
def lowerJoin (best : Option (Path × BitVec 48 × Nat)) (c : Path × BitVec 48 × Nat) : Option (Path × BitVec 48 × Nat) :=
  match best with
  | none => some c
  | some b => if joinBefore c b then some c else some b

theorem picks_lowerJoin : Picks joinBefore lowerJoin := ⟨fun _ => rfl, fun _ _ => rfl⟩

/-- A path lies at the lowest place of a list, and those at the same place are the same path. -/
def Lowest (r : Path) (ps : List Path) : Prop := r ∈ ps ∧ ∀ p ∈ ps, p ≠ r → r.pc < p.pc ∨ r.pc = p.pc ∧ r.wpos < p.wpos

section
variable {x : Warp}

theorem toRelease_eq (x : Warp) (m : Hmode) :
    let ps := x.live.filter fun p => p.hmode == m
    x.toRelease m = if (ps.filterMap Path.join?).length ≠ ps.length || (m == .none && x.live.any fun p => p.hmode != .none) then none
      else (ps.filterMap Path.join?).foldl lowerJoin none := rfl

theorem toRelease_of_no_path {m : Hmode} (h : ∀ p ∈ x.live, p.hmode ≠ m) : x.toRelease m = none := by
  have hps : (x.live.filter fun p => p.hmode == m) = [] := List.filter_eq_nil_iff.mpr fun p hp => by simpa using h p hp
  rw [toRelease_eq, hps]
  exact ite_self _

variable (hx : x.Plain)
include hx

theorem filter_ordinary : (x.live.filter fun p => p.hmode == .none) = x.live :=
  List.filter_eq_self.mpr fun p hp => by simpa using hx.ordinary p (mem_of_live hp)

/-- While a live path is not in JOIN none is released. -/
theorem toRelease_of_waiting (h : ∃ p ∈ x.live, ∀ a b, p.st ≠ .join a b) : x.toRelease .none = none := by
  obtain ⟨p, hp, hst⟩ := h
  have hlen : (x.live.filterMap Path.join?).length ≠ x.live.length := fun hlen => by
    obtain ⟨a, b, hj⟩ := isSome_join?.mp (List.filterMap_length_eq_length.mp hlen p hp)
    exact hst a b hj
  rw [toRelease_eq, filter_ordinary hx]
  exact if_pos (Bool.or_eq_true_iff.mpr (.inl (decide_eq_true hlen)))

/-- Once every live path is in JOIN the one at the lowest place is released. -/
theorem toRelease_of_lowest (h : ∀ p ∈ x.live, ∃ a b, p.st = .join a b) {r : Path} (hr : Lowest r x.live) {a : BitVec 48} {b : Nat}
    (hst : r.st = .join a b) : x.toRelease .none = some (r, a, b) := by
  have hlen : (x.live.filterMap Path.join?).length = x.live.length := List.filterMap_length_eq_length.mpr fun p hp => isSome_join?.mpr (h p hp)
  have hmem : (r, a, b) ∈ x.live.filterMap Path.join? := List.mem_filterMap.mpr ⟨r, hr.1, join?_eq_some.mpr ⟨rfl, hst⟩⟩
  have hguard : ¬ (decide ((x.live.filterMap Path.join?).length ≠ x.live.length) || ((Hmode.none == .none) && x.live.any fun p => p.hmode != .none)) = true := by
    rw [Bool.or_eq_true_iff, decide_eq_true_iff]
    rintro (hne | hany)
    · exact hne hlen
    · exact hx.not_any_handler (Bool.and_eq_true_iff.mp hany).2
  rw [toRelease_eq, filter_ordinary hx]
  refine (if_neg hguard).trans ?_
  cases hf : (x.live.filterMap Path.join?).foldl lowerJoin none with
  | none =>
    rw [foldl_picks_eq_none hf picks_lowerJoin ranks_joinBefore] at hmem
    cases hmem
  | some c =>
    obtain ⟨hc, hbest⟩ := foldl_picks_best hf picks_lowerJoin ranks_joinBefore
    obtain ⟨p, hp, hpc⟩ := List.mem_filterMap.mp hc
    obtain ⟨hcp, hcst⟩ := join?_eq_some.mp hpc
    have hpr : p = r := by
      by_contra hne
      have hb : joinBefore (r, a, b) c = true := joinBefore_iff.mpr (hcp ▸ hr.2 p hp hne)
      rw [hbest _ hmem] at hb
      cases hb
    rw [hpr, hst] at hcst
    obtain ⟨ha, hb⟩ := PState.join.inj hcst
    exact congrArg some (Prod.ext (hcp.trans hpr) (Prod.ext ha.symm hb.symm))

end

/-- A path that a release lets go, or another one as it is. -/
def Path.freedAs (r : Path) (a : BitVec 48) (b : Nat) (q : Path) : Path :=
  if q.mask != 0 && q.id == r.id then { q with st := .ready, pc := a, wpos := b } else q

section
variable {s : State}

theorem release_of_none {m : Hmode} (h : s.me.toRelease m = none) : s.release m = s := by rw [State.release, h]

variable (hx : s.me.Plain)
include hx

theorem release_of_some {r : Path} {a : BitVec 48} {b : Nat} (h : s.me.toRelease .none = some (r, a, b)) :
    s.release .none = { s with me := s.me.mapPaths (r.freedAs a b) } := by
  have hloss := traceLoss_off { s with me := s.me.mapPaths (r.freedAs a b) } r.id hx.untraced
  rw [State.release, h]
  show State.trace (State.traceLoss { s with me := s.me.mapPaths (r.freedAs a b) } r.id) _ _ _ _ = _
  rw [hloss]
  exact trace_off _ _ _ _ _ hx.untraced

theorem releaseJoins_eq : s.releaseJoins = s.release .none := by
  have hno (m : Hmode) (hm : m ≠ .none) : s.release m = s :=
    release_of_none (toRelease_of_no_path fun p hp => (hx.ordinary p (mem_of_live hp)).symm ▸ hm.symm)
  rw [State.releaseJoins, hno .pre nofun, hno .trap nofun]

theorem retrap_of_calm (h : ∀ p ∈ s.me.cur :: s.me.paths, p.Calm) : s.retrap = s := by
  have hmap : s.me.mapPaths (fun p => if p.st = .held .trapBusy then { p with st := s.me.woken } else p) = s.me :=
    mapPaths_of_same fun p hp => if_neg (h p hp).1
  have hkept : (s.me.live.findSome? fun p => p.kept.map fun k => (p, k)) = none :=
    List.findSome?_eq_none_iff.mpr fun p hp => by rw [(h p (mem_of_live hp)).2]; rfl
  rw [State.retrap, if_neg hx.not_any_handler, hmap]
  dsimp only
  rw [hkept]

/-- Nothing but the release of a path in JOIN follows here (05_events R128, R133). -/
theorem settle_eq (hl : s.me.live ≠ []) (h : ∀ p ∈ s.me.cur :: s.me.paths, p.Calm) : s.settle = s.release .none := by
  have hpre : s.tryPre = s := if_pos (by rw [hx.running]; rfl)
  have hcheck : s.preCheck = s := if_neg (by rw [hx.running]; exact Bool.false_ne_true)
  rw [State.settle, if_neg (by rw [hx.stays]; exact Bool.false_ne_true), if_neg hl, retrap_of_calm hx h, hpre, hcheck, releaseJoins_eq hx]

theorem settle_of_waiting (hc : ∀ p ∈ s.me.cur :: s.me.paths, p.Calm) (h : ∃ p ∈ s.me.live, ∀ a b, p.st ≠ .join a b) : s.settle = s := by
  obtain ⟨p, hp, hst⟩ := h
  rw [settle_eq hx (List.ne_nil_of_mem hp) hc, release_of_none (toRelease_of_waiting hx ⟨p, hp, hst⟩)]

theorem settle_of_lowest (hc : ∀ p ∈ s.me.cur :: s.me.paths, p.Calm) (h : ∀ p ∈ s.me.live, ∃ a b, p.st = .join a b) {r : Path} (hr : Lowest r s.me.live)
    {a : BitVec 48} {b : Nat} (hst : r.st = .join a b) : s.settle = { s with me := s.me.mapPaths (r.freedAs a b) } := by
  rw [settle_eq hx (List.ne_nil_of_mem hr.1) hc, release_of_some hx (toRelease_of_lowest hx h hr hst)]

end

/-! ### join (R107) -/

section
variable {s : State}

/-- The path in focus in JOIN at its chain group. -/
def State.joined (s : State) : Path := { s.me.cur with pc := s.here.pc, wpos := s.here.wpos, st := .join s.here.npc s.here.nwpos }

def PState.isJoin : PState → Bool
  | .join _ _ => true
  | _ => false

theorem isJoin_iff {st : PState} : st.isJoin = true ↔ ∃ a b, st = .join a b := by cases st <;> simp [PState.isJoin]

/-- Whether a path is in JOIN at the place of the chain group being executed. -/
def State.joinsHere (s : State) (p : Path) : Bool := decide (p.pc = s.here.pc ∧ p.wpos = s.here.wpos) && p.st.isJoin

theorem joinsHere_iff {p : Path} : s.joinsHere p = true ↔ (p.pc = s.here.pc ∧ p.wpos = s.here.wpos) ∧ ∃ a b, p.st = .join a b := by
  rw [State.joinsHere, Bool.and_eq_true, decide_eq_true_iff, isJoin_iff]

/-- Whether the path in focus merges with another one as it joins: a live one of its class in JOIN at its place. -/
def State.mergesWith (s : State) (q : Path) : Bool :=
  q.mask != 0 && q.hmode == s.me.cur.hmode && q.pc == s.here.pc && q.wpos == s.here.wpos && q.st.isJoin

/-- Of ordinary live paths a join merges with those in JOIN at its place. -/
theorem find?_mergesWith (hx : s.me.Plain) (hm : ∀ p ∈ s.me.paths, p.mask ≠ 0) : s.me.paths.find? s.mergesWith = s.me.paths.find? s.joinsHere := by
  refine List.find?_congr fun q hq => ?_
  have hmask : (q.mask != 0) = true := bne_iff_ne.mpr (hm q hq)
  have hmode : (q.hmode == s.me.cur.hmode) = true := beq_iff_eq.mpr ((hx.ordinary q (.tail _ hq)).trans (hx.ordinary s.me.cur (.head _)).symm)
  rw [State.mergesWith, hmask, hmode, State.joinsHere, Bool.decide_and, Bool.true_and, Bool.true_and]
  rfl

/-- Two paths in JOIN as one (R107; log 48). -/
def Path.mergedWith (p q : Path) : Path :=
  { (if p.id < q.id then p else q) with
    mask := p.mask ||| q.mask, fenced := max p.fenced q.fenced, issued := max p.issued q.issued
    step := max p.step q.step, spc := if p.step = 0 then q.spc else p.spc, swpos := if p.step = 0 then q.swpos else p.swpos }

theorem mergedWith_id (p q : Path) : (p.mergedWith q).id = min p.id q.id := by
  unfold Path.mergedWith
  split <;> simp only [] <;> omega

theorem mergedWith_pc (p q : Path) (h : q.pc = p.pc) : (p.mergedWith q).pc = p.pc := by
  unfold Path.mergedWith
  split
  · rfl
  · exact h

/-- A merged path is in the state and the class of one of the two. -/
theorem mergedWith_of_both {P : PState → Hmode → Prop} {p q : Path} (hp : P p.st p.hmode) (hq : P q.st q.hmode) :
    P (p.mergedWith q).st (p.mergedWith q).hmode := by
  unfold Path.mergedWith
  split <;> assumption

/-- The state with the path in focus merged with another one in JOIN. -/
def State.merged (s : State) (q : Path) (gone : Nat) : State :=
  { s with me := { s.me with
    cur := s.joined.mergedWith q, paths := s.me.paths.filter fun r => r.id != q.id
    overflow := s.me.overflow.filter fun i => i != gone } }

variable (hx : s.me.Plain) (hm : ∀ p ∈ s.me.cur :: s.me.paths, p.mask ≠ 0)
include hx hm

theorem joinHere_of_apart (h : s.me.paths.find? s.joinsHere = none) : s.joinHere = (s.setCur s.joined).settle := by
  rw [← find?_mergesWith hx (List.forall_mem_cons.mp hm).2] at h
  show (match s.me.paths.find? s.mergesWith with | none => (s.setCur s.joined).settle | some _ => _) = _
  rw [h]

theorem joinHere_of_beside {q : Path} (h : s.me.paths.find? s.joinsHere = some q) : s.joinHere = (s.merged q (max s.me.cur.id q.id)).settle := by
  rw [← find?_mergesWith hx (List.forall_mem_cons.mp hm).2] at h
  show (match s.me.paths.find? s.mergesWith with
    | none => _
    | some q =>
      match if s.me.cur.id < q.id then (s.me.cur.id, q.id) else (q.id, s.me.cur.id) with
      | (keep, gone) => ((s.merged q gone).trace 6 keep (s.joined.mergedWith q).mask (BitVec.ofNat 64 gone)).settle) = _
  have htr (keep gone : Nat) : (s.merged q gone).trace 6 keep (s.joined.mergedWith q).mask (BitVec.ofNat 64 gone) = s.merged q gone :=
    trace_off _ _ _ _ _ hx.untraced
  rw [h]
  dsimp only
  split
  case isTrue hlt => rw [htr, max_eq_right hlt.le]
  case isFalse hle => rw [htr, max_eq_left (not_lt.mp hle)]

end

end Sys2Proof.Machine

/-! The end of a path, of a warp and of a gang (04_control R110, 03_tasks R76, R77). -/

namespace Sys2Proof.Machine

/-! ### The lanes of a path end (R110) -/

theorem and_not_eq_self {a m : BitVec 32} (h : a &&& m = 0) : a &&& ~~~m = a := by
  apply BitVec.eq_of_getLsbD_eq
  intro i hi
  have hbit := congrArg (BitVec.getLsbD · i) h
  simp only [BitVec.getLsbD_and] at hbit
  cases ha : a.getLsbD i <;> simp_all

section
variable {s : State}

/-- The state with the path in focus ended. -/
def State.ended (s : State) (ov : List Nat) : State := { s with me := { s.me with cur := { s.me.cur with mask := 0 }, overflow := ov } }

theorem any_stopped_live {x : Warp} (h : x.cur.st.isStopped = false) :
    (x.live.any fun p => p.st.isStopped) = (x.paths.filter fun p => p.mask != 0).any fun p => p.st.isStopped := by
  rw [Warp.live, List.filter_cons]
  split <;> simp [h]

/-- A warp in which as many paths are STOPPED as before stays halted or not. -/
theorem unhaltedFrom_eq {x y : Warp} (h : (y.live.any fun p => p.st.isStopped) = x.live.any fun p => p.st.isStopped) : y.unhaltedFrom x = y := by
  rw [Warp.unhaltedFrom, h, Bool.not_or_self, Bool.and_true]

theorem trace_fold_off (htr : s.me.trc.on = false) (ps : List Path) : ps.foldl (fun s p => s.trace 13 p.id p.mask 0) s = s :=
  foldl_eq_self fun _ _ => trace_off _ _ _ _ _ htr

/-- A warp without the lanes of a mask; paths left with no lane have ended. -/
def Warp.without (x : Warp) (m : BitVec 32) : Warp :=
  let dead := x.live.filter fun p => (p.mask &&& ~~~m) == 0
  let y := x.mapPaths fun p => { p with mask := p.mask &&& ~~~m }
  ({ y with overflow := y.overflow.filter fun i => !(dead.any fun p => p.id == i) } : Warp).unhaltedFrom x

theorem dropLanes_of_untraced (htr : s.me.trc.on = false) (m : BitVec 32) : s.dropLanes m = { s with me := s.me.without m } := by
  unfold State.dropLanes
  dsimp only
  rw [trace_fold_off htr]
  rfl

/-- Where a READY path ends and every other one has lanes of its own, nothing else changes but the overflow list. -/
theorem dropLanes_cur (htr : s.me.trc.on = false) (hst : s.me.cur.st = .ready) (h : ∀ p ∈ s.me.paths, p.mask &&& s.me.cur.mask = 0) :
    ∃ ov, s.dropLanes s.me.cur.mask = s.ended ov := by
  have hpaths : s.me.paths.map (fun p => { p with mask := p.mask &&& ~~~s.me.cur.mask }) = s.me.paths := by
    refine (List.map_congr_left fun p hp => ?_).trans (List.map_id' _)
    rw [and_not_eq_self (h p hp)]
  have hnot : s.me.cur.st.isStopped = false := by rw [hst]; rfl
  have hhalt (ov : List Nat) : (s.ended ov).me.unhaltedFrom s.me = (s.ended ov).me :=
    unhaltedFrom_eq (by rw [any_stopped_live hnot, any_stopped_live (x := (s.ended ov).me) hnot]; rfl)
  refine ⟨(s.me.without s.me.cur.mask).overflow, ?_⟩
  rw [dropLanes_of_untraced htr, Warp.without, Warp.mapPaths, hpaths, BitVec.and_not_self]
  exact congrArg (fun x : Warp => ({ s with me := x } : State)) (hhalt _)

end

/-! ### A warp leaves its groups (03_tasks R77) -/

/-- A group with a member that is to leave it when its phase is over. -/
def Group.leftBy (G : Group) (m : Nat) : Group := { G with gone := G.gone ++ [m] }

section
variable {s : State} {id g m : Nat} {i : Inst}

/-- The last arrival of a group by a member that leaves it. -/
theorem arrive_leaving_last (hi : s.inst? id = some i) (hm : m ∉ (i.group g).arrived) (hn : (i.group g).arrived.length + 1 = (i.group g).members.length) :
    let u := (s.setInst (i.setGroup g (((i.group g).leftBy m).opened m))).note (grpNote id g) ((i.group g).phase.setWidth 64)
    s.arrive id g m true = u.mapWarps (u.releasedWarp id g (((i.group g).leftBy m).opened m)) := by
  intro u
  have hm' : ¬ (i.group g).arrived.contains m = true := mt List.contains_iff_mem.mp hm
  have hu : u.inst? id = some (i.setGroup g (((i.group g).leftBy m).opened m)) := inst?_setInst hi (inst?_id (i := i) hi)
  have harrive : s.arrive id g m true = u.releaseGroup id g := by
    simp only [State.arrive, hi, if_neg hm', if_true, List.length_append, List.length_singleton, if_pos hn]
    rfl
  rw [harrive, releaseGroup_eq hu, setGroup_group_self]

/-- An arrival before the last by a member that leaves. -/
theorem arrive_leaving_more (hi : s.inst? id = some i) (hm : m ∉ (i.group g).arrived) (hn : (i.group g).arrived.length + 1 ≠ (i.group g).members.length) :
    s.arrive id g m true = s.setInst (i.setGroup g (((i.group g).leftBy m).joined m)) := by
  have hm' : ¬ (i.group g).arrived.contains m = true := mt List.contains_iff_mem.mp hm
  simp only [State.arrive, hi, if_neg hm', if_true, List.length_append, List.length_singleton, if_neg hn]
  rfl

/-- What arrivals at groups do to warps: paths that waited go on, and no path ends or waits anew. -/
structure Wakes (f : Warp → Warp) : Prop where
  live (x : Warp) : x.live = [] → (f x).live = []
  held (x : Warp) : ∀ p ∈ (f x).cur :: (f x).paths, ∀ w, p.st = .held w → ∃ q ∈ x.cur :: x.paths, q.st = .held w

theorem wakes_same : Wakes fun x => x := ⟨fun _ h => h, fun _ p hp _ hw => ⟨p, hp, hw⟩⟩

theorem mapPaths_live {x : Warp} {f : Path → Path} (hf : ∀ p, (f p).mask = p.mask) (h : x.live = []) : (x.mapPaths f).live = [] := by
  rw [Warp.live, List.filter_eq_nil_iff] at h ⊢
  rw [show (x.mapPaths f).cur :: (x.mapPaths f).paths = (x.cur :: x.paths).map f from rfl, List.forall_mem_map]
  intro p hp
  rw [hf]
  exact h p hp

theorem wakes_releasedWarp (s : State) (id g : Nat) (G : Group) : Wakes (s.releasedWarp id g G) := by
  have hcases (x : Warp) : s.releasedWarp id g G x = x ∨
      s.releasedWarp id g G x = x.mapPaths fun p => if p.st = .held (.grp g) then { p with st := x.woken } else p := by
    unfold State.releasedWarp
    split
    · exact .inl rfl
    · split
      · exact .inr rfl
      · exact .inl rfl
  refine ⟨fun x hl => ?_, fun x p hp w hw => ?_⟩ <;> obtain hx | hx := hcases x
  · rw [hx]; exact hl
  · rw [hx]; exact mapPaths_live (fun p => by split <;> rfl) hl
  · rw [hx] at hp; exact ⟨p, hp, hw⟩
  · rw [hx, show (x.mapPaths _).cur :: (x.mapPaths _).paths = (x.cur :: x.paths).map _ from rfl, List.mem_map] at hp
    obtain ⟨q, hq, rfl⟩ := hp
    split at hw
    · exact absurd hw (woken_ne_held x w)
    · exact ⟨q, hq, hw⟩

/-- Whatever the groups are, a leave changes warps by such a function alone. -/
theorem arrive_wakes (s : State) (id g m : Nat) (leaving : Bool) : ∃ f, Wakes f ∧ (s.arrive id g m leaving).me = f s.me ∧
    (s.arrive id g m leaving).warps = s.warps.map f := by
  have hsame {t : State} (hme : t.me = s.me) (hw : t.warps = s.warps) : ∃ f, Wakes f ∧ t.me = f s.me ∧ t.warps = s.warps.map f :=
    ⟨_, wakes_same, hme, hw.trans (List.map_id' _).symm⟩
  unfold State.arrive
  split
  · exact hsame rfl rfl
  · dsimp only
    split
    · exact hsame rfl rfl
    · split
      · unfold State.releaseGroup
        split
        · exact hsame rfl rfl
        · exact ⟨_, wakes_releasedWarp _ _ _ _, rfl, rfl⟩
      · exact hsame rfl rfl

/-- A warp that is alone with no live path stays so as it leaves its groups. -/
theorem leaveGroups_alone (hw : s.warps = []) (hl : s.me.live = []) : s.leaveGroups.warps = [] ∧ s.leaveGroups.me.live = [] := by
  unfold State.leaveGroups
  split
  · exact ⟨hw, hl⟩
  · refine List.foldlRecOn (motive := fun t : State => t.warps = [] ∧ t.me.live = []) _ _ ⟨hw, hl⟩ fun t ⟨htw, htl⟩ a _ => ?_
    obtain ⟨f, hf, hme, hws⟩ := arrive_wakes t t.gang.inst a.1 (memberNo s.gang.index s.me.w) true
    rw [hme, hws, htw]
    exact ⟨rfl, hf.live _ htl⟩

/-- The one group of an `Inst` after a member has left it (R77). -/
def Group.after (G : Group) (m : Nat) : Group :=
  if G.arrived.length + 1 = G.members.length then (G.leftBy m).opened m else (G.leftBy m).joined m

/-- A warp that leaves the one group of its `Inst` arrives at it a last time. -/
theorem leaveGroups_of_one {G : Group} (hi : s.inst? s.gang.inst = some i) (hg : i.groups = [(g, G)]) (hm : s.member ∈ G.members) (ha : s.member ∉ G.arrived)
    (hgone : s.member ∉ G.gone) : ∃ j f, Wakes f ∧ s.leaveGroups.inst? s.gang.inst = some j ∧ j.group g = G.after s.member ∧
      s.leaveGroups.warps = s.warps.map f := by
  have hG : i.group g = G := by rw [Inst.group, hg, smGet, if_pos rfl]
  have hleave : s.leaveGroups = s.arrive s.gang.inst g s.member true := by
    have hfilter : ([(g, G)].filter fun x => x.2.members.contains s.member && !x.2.gone.contains s.member) = [(g, G)] := by
      simp [hm, hgone]
    simp only [State.leaveGroups, hi, hg]
    exact congrArg (List.foldl (fun (s' : State) x => s'.arrive s'.gang.inst x.1 s.member true) s) hfilter
  obtain ⟨f, hf, -, hws⟩ := arrive_wakes s s.gang.inst g s.member true
  rw [hleave]
  rw [← hG] at ha
  refine ⟨i.setGroup g (G.after s.member), f, hf, ?_, setGroup_group_self .., hws⟩
  by_cases hn : G.arrived.length + 1 = G.members.length
  · rw [Group.after, if_pos hn, ← hG, arrive_leaving_last hi ha (by rw [hG]; exact hn)]
    exact inst?_setInst hi (inst?_id (i := i) hi)
  · rw [Group.after, if_neg hn, ← hG, arrive_leaving_more hi ha (by rw [hG]; exact hn)]
    exact inst?_setInst hi (inst?_id (i := i) hi)

end

/-! ### The exit of a warp (R110) -/

section
variable {s : State}

/-- Program errors of held waits reach no path where no live warp of the gang holds such a wait. -/
theorem failHeld_of_none {code : Nat} {f : Wait → Option Place}
    (h : ∀ x ∈ s.allWarps, x.exited = false → ∀ p ∈ x.cur :: x.paths, ∀ w, p.st = .held w → f w = none) : s.failHeld code f = s := by
  refine foldl_eq_self fun x hx => foldl_eq_self fun p hp => ?_
  obtain ⟨hx, hlive⟩ := List.mem_filter.mp hx
  have hex : x.exited = false := by simpa using (Bool.and_eq_true_iff.mp hlive).2
  split
  next w hw =>
    rw [h x hx hex p (mem_of_live hp) w hw]
  next => rfl

/-- Tokens that reach a mailbox or the queue change memory, the package's queue and its registers alone. -/
theorem sendToken_frame (s : State) (t : BitVec 64) : s.sendToken t =
    { s with mem := (s.sendToken t).mem, journal := (s.sendToken t).journal, sys := (s.sendToken t).sys, pkg := (s.sendToken t).pkg } := by
  unfold State.sendToken
  dsimp only
  split
  · split
    · rw [wr_frame]
    · rfl
  · split <;> rfl

/-- The fault mask record of a warp changes memory, the package's queue and its registers alone (08_memory R197). -/
theorem faultRecord_frame (s : State) (x : Warp) : s.faultRecord x =
    { s with mem := (s.faultRecord x).mem, journal := (s.faultRecord x).journal, sys := (s.faultRecord x).sys, pkg := (s.faultRecord x).pkg } := by
  unfold State.faultRecord
  dsimp only
  split
  · rfl
  · rw [sendToken_frame, put_frame, wr_frame]

/-- The records of a gang's warps, in the order of their numbers (R197). -/
def State.withRecords (s : State) (ws : Nat → List Warp) : State := (List.range 32).foldl (fun s w => (ws w).foldl State.faultRecord s) s

theorem withRecords_keeps (s : State) (ws : Nat → List Warp) : (s.withRecords ws).me = s.me ∧ (s.withRecords ws).insts = s.insts := by
  have hone (xs : List Warp) (t : State) : (xs.foldl State.faultRecord t).me = t.me ∧ (xs.foldl State.faultRecord t).insts = t.insts :=
    List.foldlRecOn (motive := fun u : State => u.me = t.me ∧ u.insts = t.insts) xs _ ⟨rfl, rfl⟩ fun u hu x _ => by rw [faultRecord_frame]; exact hu
  refine List.foldlRecOn (motive := fun u : State => u.me = s.me ∧ u.insts = s.insts) _ _ ⟨rfl, rfl⟩ fun u hu w _ => ?_
  rw [(hone (ws w) u).1, (hone (ws w) u).2]
  exact hu

/-- A gang with its resources given back and its sequencer ended (13_matrix R291). -/
def State.gangEnded (s : State) : State :=
  { s with gang := { s.gang with st := .exited, poolHeld := false, seq := if s.gang.mx then { s.gang.seq with st := .ended } else s.gang.seq } }

theorem gangExit_eq (s : State) : ∃ ws, s.gangExit = (s.withRecords ws).gangEnded :=
  ⟨fun w => (s.allWarps.filter fun x => x.gid == s.gang.gid).filter fun x => x.w == w, by unfold State.gangExit State.withRecords; rfl⟩

theorem gangExit_spec (s : State) : s.gangExit.me = s.me ∧ s.gangExit.insts = s.insts ∧ s.gangExit.gang.st = .exited := by
  obtain ⟨ws, h⟩ := gangExit_eq s
  obtain ⟨hme, hinsts⟩ := withRecords_keeps s ws
  rw [h]
  exact ⟨hme, hinsts, rfl⟩

theorem retargetFrom_frame (s : State) (cl : Nat) (before : List Nat) : s.retargetFrom cl before = { s with clus := (s.retargetFrom cl before).clus } := by
  unfold State.retargetFrom
  split <;> rfl

/-- The warp in focus once it has left its groups, or is to leave them when its events have performed (R77). -/
def State.groupsLeft (s : State) : State := if s.outstanding s.me.gid s.me.w then { s with me := { s.me with leaves := true } } else s.leaveGroups

theorem groupsLeft_of_performed (h : s.outstanding s.me.gid s.me.w = false) : s.groupsLeft = s.leaveGroups := if_neg (Bool.eq_false_iff.mp h)

/-- The warp in focus exited, its streams closed and its tokens on their way to the matrix side (R110). -/
def State.warpGone (l : State) : State :=
  let s := l.closeStreams
  let mine := (List.range 16).filter fun t => smGet 0 s.gang.tokens t == s.me.w + 1 && !s.gang.passing.any fun p => p.1 == t
  { s with me := { s.me with exited := true, halted := false }, gang := { s.gang with passing := s.gang.passing ++ mine.map fun t => (t, 0) } }

/-- The place after its regroup of a path that waits for a warp there. -/
def regroupPlace (k : Nat) (w : Wait) : Option Place :=
  match w with
  | .regroup m _ _ a b => if m.getLsbD k then some (a, b) else none
  | _ => none

theorem regroupPlace_eq_none {k : Nat} {w : Wait} (h : ∀ a b c d e, w ≠ .regroup a b c d e) : regroupPlace k w = none := by
  unfold regroupPlace
  split
  · exact absurd rfl (h _ _ _ _ _)
  · rfl

/-- What follows once a warp has exited: the last one takes its gang with it, and the target of its cluster is computed again where an activity left it. -/
def State.lastTakesGang (u : State) (acts : List Nat) : State :=
  (if u.warps.any fun x => x.gid == u.gang.gid && !x.exited then u else u.gangExit).retargetFrom (clusterOf u.coreNo) acts

theorem lastTakesGang_spec (u : State) (acts : List Nat) :
    (u.lastTakesGang acts).me = u.me ∧ (u.lastTakesGang acts).insts = u.insts ∧ (u.warps = [] → (u.lastTakesGang acts).gang.st = .exited) := by
  obtain ⟨hme, hinsts, hgang⟩ := gangExit_spec u
  rw [State.lastTakesGang, retargetFrom_frame]
  dsimp only
  split
  case isTrue hany =>
    refine ⟨rfl, rfl, fun hw => ?_⟩
    rw [hw] at hany
    cases hany
  case isFalse => exact ⟨hme, hinsts, fun _ => hgang⟩

/-- A warp that exits is exited, and the last one of the package takes its gang with it; groups are as its leave made them. -/
theorem warpExit_spec (h : ∀ x ∈ s.groupsLeft.warps, ∀ p ∈ x.cur :: x.paths, ∀ a b c d e, p.st ≠ .held (.regroup a b c d e)) :
    s.warpExit.me.exited = true ∧ s.warpExit.insts = s.groupsLeft.insts ∧ s.warpExit.me.live = s.groupsLeft.me.live ∧
      (s.groupsLeft.warps = [] → s.warpExit.gang.st = .exited) := by
  let l := s.groupsLeft.closeStreams
  let v := s.groupsLeft.warpGone
  have hfail : v.failHeld 0x0604 (regroupPlace v.me.w) = v := by
    refine failHeld_of_none fun x hx hex p hp w hw => regroupPlace_eq_none fun a b c d e hr => ?_
    obtain rfl | hx := List.mem_cons.mp hx
    · cases hex
    · exact h x hx p hp a b c d e (hr ▸ hw)
  have hexit : s.warpExit = (v.failHeld 0x0604 (regroupPlace v.me.w)).lastTakesGang (l.clusterActs (clusterOf l.coreNo)) := rfl
  obtain ⟨hme, hinsts, hgang⟩ := lastTakesGang_spec v (l.clusterActs (clusterOf l.coreNo))
  rw [hexit, hfail, hme, hinsts]
  exact ⟨rfl, rfl, rfl, hgang⟩

end

end Sys2Proof.Machine

/-! join and exit of a warp's paths (04_control R107, R108, R110): the cases of O14. -/

namespace Sys2Proof.Machine

section
variable {s : State}

/-! ### The warp with its path in focus in JOIN, or ended -/

theorem joined_plain (hx : s.me.Plain) : (s.setCur s.joined).me.Plain :=
  hx.with_paths s.me.overflow (List.forall_mem_cons.mpr ⟨hx.ordinary s.me.cur (.head _), (List.forall_mem_cons.mp hx.ordinary).2⟩)

theorem joined_live (hm : ∀ p ∈ s.me.cur :: s.me.paths, p.mask ≠ 0) : (s.setCur s.joined).me.live = s.joined :: s.me.paths :=
  live_of_masks (x := (s.setCur s.joined).me) (List.forall_mem_cons.mpr ⟨hm s.me.cur (.head _), (List.forall_mem_cons.mp hm).2⟩)

theorem ended_plain (hx : s.me.Plain) (ov : List Nat) : (s.ended ov).me.Plain :=
  hx.with_paths ov (List.forall_mem_cons.mpr ⟨hx.ordinary s.me.cur (.head _), (List.forall_mem_cons.mp hx.ordinary).2⟩)

theorem ended_live (hm : ∀ p ∈ s.me.cur :: s.me.paths, p.mask ≠ 0) (ov : List Nat) : (s.ended ov).me.live = s.me.paths :=
  live_of_ended rfl (List.forall_mem_cons.mp hm).2

variable (hx : s.me.Plain) (hm : ∀ p ∈ s.me.cur :: s.me.paths, p.mask ≠ 0)
include hx hm

/-! ### join -/

/-- Beside a path that is not in JOIN the path in focus stays there. -/
theorem joinHere_of_waiting (hc : ∀ p ∈ s.me.paths, p.Calm) (hw : ∃ p ∈ s.me.paths, ∀ a b, p.st ≠ .join a b)
    (hf : s.me.paths.find? s.joinsHere = none) : s.joinHere = s.setCur s.joined := by
  obtain ⟨p, hp, hst⟩ := hw
  rw [joinHere_of_apart hx hm hf]
  refine settle_of_waiting (joined_plain hx) (List.forall_mem_cons.mpr ⟨calm_of_join rfl, hc⟩) ⟨p, ?_, hst⟩
  rw [joined_live hm]
  exact .tail _ hp

/-- Where every path is in JOIN, at places of their own, the one at the lowest goes on. -/
theorem joinHere_of_lowest (hj : ∀ p ∈ s.me.paths, ∃ a b, p.st = .join a b) (hf : s.me.paths.find? s.joinsHere = none) {r : Path}
    (hr : Lowest r (s.joined :: s.me.paths)) {a : BitVec 48} {b : Nat} (hst : r.st = .join a b) :
    s.joinHere = { s with me := (s.setCur s.joined).me.mapPaths (r.freedAs a b) } := by
  have hall : ∀ p ∈ s.joined :: s.me.paths, ∃ a b, p.st = .join a b := List.forall_mem_cons.mpr ⟨⟨_, _, rfl⟩, hj⟩
  have hcalm : ∀ p ∈ s.joined :: s.me.paths, p.Calm := fun p hp => (hall p hp).elim fun _ ⟨_, h⟩ => calm_of_join h
  rw [joinHere_of_apart hx hm hf]
  exact settle_of_lowest (joined_plain hx) hcalm (by rwa [joined_live hm]) (by rwa [joined_live hm]) hst

/-- A path in JOIN at the same place merges with the path in focus, which stays in JOIN beside one that is not. -/
theorem joinHere_of_merge {q : Path} (hc : ∀ p ∈ s.me.paths, p.Calm) (hw : ∃ p ∈ s.me.paths, p.id ≠ q.id ∧ ∀ a b, p.st ≠ .join a b)
    (hf : s.me.paths.find? s.joinsHere = some q) : s.joinHere = s.merged q (max s.me.cur.id q.id) := by
  obtain ⟨p, hp, hid, hst⟩ := hw
  have hq : q ∈ s.me.paths := List.mem_of_find?_eq_some hf
  obtain ⟨-, a, b, hqst⟩ := joinsHere_iff.mp (List.find?_some hf)
  have hkept {r : Path} (hr : r ∈ s.me.paths.filter fun r => r.id != q.id) : r ∈ s.me.paths := List.mem_of_mem_filter hr
  have hmode : (s.joined.mergedWith q).hmode = .none :=
    mergedWith_of_both (P := fun _ m => m = .none) (hx.ordinary s.me.cur (.head _)) (hx.ordinary q (.tail _ hq))
  have hjoin : ∃ a b, (s.joined.mergedWith q).st = .join a b := mergedWith_of_both (P := fun st _ => ∃ a b, st = .join a b) ⟨_, _, rfl⟩ ⟨a, b, hqst⟩
  have hplain : (s.merged q (max s.me.cur.id q.id)).me.Plain :=
    hx.with_paths _ (List.forall_mem_cons.mpr ⟨hmode, fun r hr => hx.ordinary r (.tail _ (hkept hr))⟩)
  rw [joinHere_of_beside hx hm hf]
  refine settle_of_waiting hplain (List.forall_mem_cons.mpr ⟨?_, fun r hr => hc r (hkept hr)⟩) ⟨p, List.mem_filter.mpr ⟨.tail _ ?_, ?_⟩, hst⟩
  · obtain ⟨a, b, h⟩ := hjoin
    exact calm_of_join h
  · exact List.mem_filter.mpr ⟨hp, bne_iff_ne.mpr hid⟩
  · exact bne_iff_ne.mpr (hm p (.tail _ hp))

/-! ### exit -/

variable (hready : s.me.cur.st = .ready) (hd : ∀ p ∈ s.me.paths, p.mask &&& s.me.cur.mask = 0)
include hready hd

theorem exitLanes_of_waiting (hc : ∀ p ∈ s.me.paths, p.Calm) (hw : ∃ p ∈ s.me.paths, ∀ a b, p.st ≠ .join a b) : ∃ ov, s.exitLanes = s.ended ov := by
  obtain ⟨ov, h⟩ := dropLanes_cur hx.untraced hready hd
  refine ⟨ov, ?_⟩
  rw [State.exitLanes, h]
  exact settle_of_waiting (ended_plain hx ov) (List.forall_mem_cons.mpr ⟨calm_of_ready hready, hc⟩) (by rwa [ended_live hm])

theorem exitLanes_of_lowest (hj : ∀ p ∈ s.me.paths, ∃ a b, p.st = .join a b) {r : Path} (hr : Lowest r s.me.paths) {a : BitVec 48} {b : Nat}
    (hst : r.st = .join a b) : ∃ ov, s.exitLanes = { s with me := (s.ended ov).me.mapPaths (r.freedAs a b) } := by
  obtain ⟨ov, h⟩ := dropLanes_cur hx.untraced hready hd
  have hcalm : ∀ p ∈ s.me.paths, p.Calm := fun p hp => (hj p hp).elim fun _ ⟨_, h⟩ => calm_of_join h
  refine ⟨ov, ?_⟩
  rw [State.exitLanes, h]
  exact settle_of_lowest (ended_plain hx ov) (List.forall_mem_cons.mpr ⟨calm_of_ready hready, hcalm⟩) (by rwa [ended_live hm])
    (by rwa [ended_live hm]) hst

/-- With its last path a warp exits. -/
theorem exitLanes_of_last (hp : s.me.paths = []) : ∃ ov, s.exitLanes = (s.ended ov).warpExit ∧ (s.ended ov).me.live = [] := by
  obtain ⟨ov, h⟩ := dropLanes_cur hx.untraced hready hd
  have hl : (s.ended ov).me.live = [] := (ended_live hm ov).trans hp
  refine ⟨ov, ?_, hl⟩
  rw [State.exitLanes, h, State.settle, if_neg (by rw [(ended_plain hx ov).stays]; exact Bool.false_ne_true), if_pos hl]

end

/-! ### Where paths go on -/

theorem mapPaths_eq {x : Warp} {f : Path → Path} {p : Path} {ps : List Path} (hp : f x.cur = p) (hps : x.paths.map f = ps) :
    x.mapPaths f = { x with cur := p, paths := ps } := by rw [Warp.mapPaths, hp, hps]

/-- A live path goes on where it has the identifier of the released one. -/
theorem freedAs_eq {r p : Path} {a : BitVec 48} {b : Nat} (h : p.mask ≠ 0) :
    r.freedAs a b p = if p.id = r.id then { p with st := .ready, pc := a, wpos := b } else p := by
  rw [Path.freedAs, bne_iff_ne.mpr h, Bool.true_and]
  simp only [beq_iff_eq]

theorem freedAs_of_ended {r p : Path} {a : BitVec 48} {b : Nat} (h : p.mask = 0) : r.freedAs a b p = p := by
  simp [Path.freedAs, h]

theorem map_freedAs {r : Path} {a : BitVec 48} {b : Nat} {ps : List Path} (h : ∀ p ∈ ps, p.mask ≠ 0) :
    ps.map (r.freedAs a b) = ps.map fun p => if p.id = r.id then { p with st := .ready, pc := a, wpos := b } else p :=
  List.map_congr_left fun p hp => freedAs_eq (h p hp)

theorem lowest_singleton (r : Path) : Lowest r [r] := ⟨List.mem_singleton_self r, fun _ hp hne => absurd (List.mem_singleton.mp hp) hne⟩

/-- The group of a member that left it, written out (R77). -/
theorem after_eq (G : Group) (m : Nat) : G.after m =
    if G.arrived.length + 1 = G.members.length then
      { members := G.members.filter fun x => x ≠ m ∧ x ∉ G.gone, arrived := [], gone := [], phase := G.phase + 1, aphase := smPut 0 G.aphase m G.phase }
    else { G with arrived := G.arrived ++ [m], aphase := smPut 0 G.aphase m G.phase, gone := G.gone ++ [m] } := by
  have hstay : ((G.leftBy m).members.filter fun x => !(G.leftBy m).gone.contains x) = G.members.filter fun x => x ≠ m ∧ x ∉ G.gone :=
    List.filter_congr fun x _ => by simp [Group.leftBy, Bool.and_comm]
  rw [Group.after, Group.opened, hstay]
  rfl

theorem ne_join_of_waits {st : PState} (h : st = .ready ∨ (∃ k, st = .parked k) ∨ (∃ j, st = .stopped j) ∨ ∃ w, st = .held w) (a : BitVec 48) (b : Nat) :
    st ≠ .join a b := by
  rcases h with rfl | ⟨k, rfl⟩ | ⟨j, rfl⟩ | ⟨w, rfl⟩ <;> exact PState.noConfusion

end Sys2Proof.Machine

namespace Sys2Proof

open Machine in
/-- Settles O14: joins and exits beside a waiting path, with every path in JOIN, and with no other path. -/
theorem joinAndExit : Obligations.JoinAndExit := by
  unfold Obligations.JoinAndExit
  intro s
  refine ⟨⟨s, rfl, rfl⟩, ⟨_, rfl, rfl⟩, fun htr hex hpre hmask hst hall => ?_⟩
  have hx : s.me.Plain := ⟨htr, hex, hpre, fun p hp => (hall p hp).2⟩
  have hm : ∀ p ∈ s.me.cur :: s.me.paths, p.mask ≠ 0 := fun p hp => (hall p hp).1
  have hmp : ∀ p ∈ s.me.paths, p.mask ≠ 0 := (List.forall_mem_cons.mp hm).2
  intro waits calm joined below lowest go
  have hlow {r : Path} {ps : List Path} (h : lowest r ps) : Lowest r ps := ⟨h.1, fun p hp hne => (h.2 p hp hne).1⟩
  have hapart (h : ∀ p ∈ s.me.paths, ∀ a b, p.st = .join a b → (p.pc, p.wpos) ≠ (s.here.pc, s.here.wpos)) : s.me.paths.find? s.joinsHere = none := by
    refine List.find?_eq_none.mpr fun p hp hj => ?_
    obtain ⟨⟨hpc, hwpos⟩, a, b, hjoin⟩ := joinsHere_iff.mp hj
    exact h p hp a b hjoin (Prod.ext hpc hwpos)
  refine ⟨fun hp => ?alone, fun hc ⟨p, hp, hw⟩ hne => ?beside, fun q _ _ hc ⟨p, hp, hid, hw⟩ hf => ?merge, fun hj r a b hr hrst => ?last,
    fun hdc ⟨p, hp, hw⟩ => ?exitBeside, fun hdj r a b hr hrst => ?exitLast, fun hp hno i g G hi hg => ?group, fun hp hw => ?gang⟩
  case alone =>
    have hjoin := joinHere_of_lowest hx hm (by simp [hp]) (by rw [hp]; rfl) (r := s.joined) (by rw [hp]; exact lowest_singleton _) rfl
    have hcur : s.joined.freedAs s.here.npc s.here.nwpos s.joined = { s.me.cur with pc := s.here.npc, wpos := s.here.nwpos, st := .ready } :=
      (freedAs_eq (p := s.joined) hmask).trans (if_pos rfl)
    have hpaths : s.me.paths.map (s.joined.freedAs s.here.npc s.here.nwpos) = s.me.paths := by rw [hp]; rfl
    exact ⟨_, congrArg Host.Outcome.next hjoin, congrArg (fun x : Warp => ({ s with me := x } : State)) (mapPaths_eq (x := (s.setCur s.joined).me) hcur hpaths)⟩
  case beside =>
    exact ⟨_, congrArg Host.Outcome.next (joinHere_of_waiting hx hm hc ⟨p, hp, ne_join_of_waits hw⟩ (hapart hne)), rfl⟩
  case merge =>
    have hfind : s.me.paths.find? s.joinsHere = some q := (List.find?_congr fun _ _ => rfl).trans hf
    obtain ⟨⟨hpc, -⟩, a, b, hqst⟩ := joinsHere_iff.mp (List.find?_some hfind)
    refine ⟨_, congrArg Host.Outcome.next (joinHere_of_merge hx hm hc ⟨p, hp, hid, ne_join_of_waits hw⟩ hfind), ⟨rfl, rfl⟩, mergedWith_id _ _, rfl, ?_, ?_, ?_⟩
    · exact mergedWith_of_both (P := fun st _ => ∃ a b, st = .join a b) ⟨_, _, rfl⟩ ⟨a, b, hqst⟩
    · exact mergedWith_pc _ _ hpc
    · exact List.filter_congr fun r _ => by simp [bne, Bool.beq_eq_decide_eq]
  case last =>
    have hjoin := joinHere_of_lowest hx hm (fun p hp => (hj p hp).imp fun _ ⟨b, h⟩ => ⟨b, h.1⟩)
      (hapart fun p hp _ _ _ => (hj p hp).elim fun _ ⟨_, h⟩ => h.2) (hlow hr) hrst
    have hcur : r.freedAs a b s.joined = go r a b joined := freedAs_eq (p := s.joined) hmask
    have hpaths : s.me.paths.map (r.freedAs a b) = s.me.paths.map (go r a b) := map_freedAs hmp
    exact ⟨_, congrArg Host.Outcome.next hjoin, congrArg (fun x : Warp => ({ s with me := x } : State)) (mapPaths_eq (x := (s.setCur s.joined).me) hcur hpaths)⟩
  case exitBeside =>
    obtain ⟨ov, hexit⟩ := exitLanes_of_waiting hx hm hst (fun p hp => (hdc p hp).1) (fun p hp => (hdc p hp).2) ⟨p, hp, ne_join_of_waits hw⟩
    exact ⟨_, congrArg Host.Outcome.next hexit, ⟨rfl, rfl⟩, rfl, rfl⟩
  case exitLast =>
    obtain ⟨ov, hexit⟩ := exitLanes_of_lowest hx hm hst (fun p hp => (hdj p hp).1) (fun p hp => (hdj p hp).2) (hlow hr) hrst
    refine ⟨_, congrArg Host.Outcome.next hexit, ⟨rfl, rfl⟩, ?_, map_freedAs hmp⟩
    exact congrArg Path.mask (freedAs_of_ended rfl)
  case group =>
    intro m aphase hmem harr hgone hout
    obtain ⟨ov, hexit, -⟩ := exitLanes_of_last hx hm hst (by simp [hp]) hp
    have hleft := groupsLeft_of_performed (s := s.ended ov) hout
    obtain ⟨j, f, hf, hj, hG, hws⟩ := leaveGroups_of_one (s := s.ended ov) hi hg hmem harr hgone
    obtain ⟨hexited, hinsts, -, -⟩ := warpExit_spec (s := s.ended ov) (by
      rw [hleft, hws]
      intro x hx p hp a b c d e hheld
      obtain ⟨y, hy, rfl⟩ := List.mem_map.mp hx
      obtain ⟨q, hq, hqst⟩ := hf.held y p hp _ hheld
      exact hno y hy q hq a b c d e hqst)
    refine ⟨_, congrArg Host.Outcome.next hexit, hexited, j, ?_, ?_⟩
    · rw [State.inst?, hinsts, hleft]
      exact hj
    · exact hG.trans (after_eq G m)
  case gang =>
    obtain ⟨ov, hexit, hl⟩ := exitLanes_of_last hx hm hst (by simp [hp]) hp
    have halone : (s.ended ov).groupsLeft.warps = [] ∧ (s.ended ov).groupsLeft.me.live = [] := by
      unfold State.groupsLeft
      split
      · exact ⟨hw, hl⟩
      · exact leaveGroups_alone hw hl
    obtain ⟨hexited, -, hlive, hgang⟩ := warpExit_spec (s := s.ended ov) (by rw [halone.1]; simp)
    exact ⟨_, congrArg Host.Outcome.next hexit, hexited, hlive.trans halone.2, hgang halone.1⟩

end Sys2Proof

/-! Event registers (05_events R114 to R119). -/

namespace Sys2Proof.Machine

section
variable {s : State}

/-! ### Writes and reads of event registers -/

/-- Event register `n` is `e` in `t`; every other one, and all else of the state, is as before. -/
def OnlyEvent (s : State) (n : Nat) (e : EvReg) (t : State) : Prop :=
  t = { s with me := { s.me with ev := t.me.ev } } ∧ ∀ k, t.evReg k = if k = n then e else s.evReg k

theorem evReg_setEv (n k : Nat) (e : EvReg) : (s.setEv n e).evReg k = if k = n then e else s.evReg k := smGet_smPut ..

theorem onlyEvent_setEv (n : Nat) (e : EvReg) : OnlyEvent s n e (s.setEv n e) := ⟨rfl, fun k => evReg_setEv n k e⟩

theorem evBits_getLsbD (f : EvReg → Bool) {k : Nat} (hk : k < 8) : (s.evBits f).getLsbD k = f (s.evReg k) := by
  rw [State.evBits, BitVec.getLsbD_ofNat, maskNat_testBit]
  simp [hk]

/-- The pair that ev.pend reads: PEND of each register, ARMED of each, and VAL of one (R119). -/
theorem evPend_getLsbD (v : BitVec 32) {k : Nat} (hk : k < 64) :
    (v ++ (s.evBits EvReg.armed ++ s.evBits EvReg.pend).setWidth 32 : BitVec 64).getLsbD k =
      if k < 8 then (s.evReg k).pend else if k < 16 then (s.evReg (k - 8)).armed else if k < 32 then false else v.getLsbD (k - 32) := by
  rw [BitVec.getLsbD_append]
  by_cases h32 : k < 32
  · rw [if_pos h32, BitVec.getLsbD_setWidth, BitVec.getLsbD_append, decide_eq_true h32, Bool.true_and]
    by_cases h8 : k < 8
    · rw [if_pos h8, if_pos h8, evBits_getLsbD _ h8]
    · rw [if_neg h8, if_neg h8]
      by_cases h16 : k < 16
      · rw [if_pos h16, evBits_getLsbD _ (by omega)]
      · rw [if_neg h16, if_pos h32, BitVec.getLsbD_of_ge _ _ (by omega)]
  · rw [if_neg h32, if_neg (by omega), if_neg (by omega), if_neg h32]

/-! ### What ev.arm checks (R119) -/

variable {kind : EvKind} {n : BitVec 3} {u : BitVec 6} {t : State} {c : ObjCheck}

theorem exec_evArm_of_bad_handler (h : 2 ^ 48 ≤ (s.uuAt u 4).toNat ∨ (s.uuAt u 4).toNat % 12 ≠ 0) :
    exec (.evArm kind n u) s = .next (s.progErr 0x0501 (s.uuAt u 4)) := by
  have hbad : (decide ((s.uuAt u 4).toNat / 2 ^ 48 ≠ 0) || decide ((s.uuAt u 4).toNat % 12 ≠ 0)) = true := by
    rw [Bool.or_eq_true, decide_eq_true_iff, decide_eq_true_iff]
    exact h.imp_left fun h => (Nat.div_pos h (by omega)).ne'
  show execEvArm kind n u s = _
  rw [execEvArm]
  exact congrArg _ (if_pos hbad)

variable (hlt : (s.uuAt u 4).toNat < 2 ^ 48) (hpl : (s.uuAt u 4).toNat % 12 = 0)
include hlt hpl

theorem not_bad_handler : ¬ (decide ((s.uuAt u 4).toNat / 2 ^ 48 ≠ 0) || decide ((s.uuAt u 4).toNat % 12 ≠ 0)) = true := by
  rw [Bool.or_eq_true, decide_eq_true_iff, decide_eq_true_iff]
  exact fun h => h.elim (fun h => h (Nat.div_eq_of_lt hlt)) fun h => h hpl

theorem exec_evArm_of_bad_object (hv : s.validObj kind (s.uuAt u 0) = (s, .bad)) :
    exec (.evArm kind n u) s = .next (s.progErr 0x0501 (s.uuAt u 0)) := by
  show execEvArm kind n u s = _
  rw [execEvArm]
  refine congrArg _ ((if_neg (not_bad_handler hlt hpl)).trans ?_)
  rw [hv]

/-- The record that ev.arm leaves, with what the condition gives as it stands (R116). -/
def State.armedReg (s : State) (kind : EvKind) (u : BitVec 6) (x : Option Word) : EvReg :=
  { kind := kind, armed := true, pend := x.isSome, val := x.getD 0, obj := s.uuAt u 0, arg := s.uuAt u 2, handler := s.uuAt u 4, since := s.journal.length }

/-- An object that is none in global memory is armed with its condition evaluated (R116). -/
theorem gives_evArm (hv : s.validObj kind (s.uuAt u 0) = (s, .good)) {x : Option Word}
    (hx : s.evCond s.gang s.me { kind := kind, armed := true, obj := s.uuAt u 0, arg := s.uuAt u 2, handler := s.uuAt u 4, since := s.journal.length } true = x) :
    Gives (.evArm kind n u) s (OnlyEvent s n.toNat (s.armedReg kind u x)) := by
  refine ⟨s.setEv n.toNat (s.armedReg kind u x), ?_, onlyEvent_setEv ..⟩
  show execEvArm kind n u s = _
  rw [execEvArm]
  refine congrArg _ ((if_neg (not_bad_handler hlt hpl)).trans ?_)
  rw [hv]
  dsimp only
  rw [State.arm, hx]
  cases x <;> rfl

end

/-! ### The condition as it stands at the arm (R115, R116) -/

section
variable {s : State} {e : EvReg}

theorem valuesSince_now (k : Nat) : s.valuesSince k s.journal.length = [] := by simp [State.valuesSince]

/-- Bytes of the own local memory that a gang names by a generic address: aligned, within its allocation, none of them in a held beam pool. -/
structure State.OwnLocal (s : State) (obj : BitVec 64) (n : Nat) : Prop where
  aperture : obj.toNat / 2 ^ 48 = 0xFFF0
  aligned : obj.toNat % n = 0
  within : obj.toNat % 2 ^ 48 + n ≤ s.gang.localk * 1024
  small : s.gang.localk ≤ 1024
  unheld : s.gang.poolHeld = false

section
variable {obj : BitVec 64} {n : Nat} (h : s.OwnLocal obj n)
include h

theorem State.OwnLocal.ne_selfAddr : obj ≠ selfAddr := fun hobj => by
  have hself : selfAddr.toNat % 2 ^ 48 = 0xFFFFFFFFFFF8 := rfl
  have hwithin := h.within
  have hsmall := h.small
  rw [hobj, hself] at hwithin
  omega

theorem State.OwnLocal.steer (l : Nat) (ld8 : Bool) : s.steer l .plain n n ld8 obj = .ok (.mem (localKey s.coreNo (s.gang.base + obj.toNat % 2 ^ 48))) := by
  simp only [State.steer, h.aperture]
  simpa [h.aligned, h.ne_selfAddr, h.unheld] using h.within

omit h in
theorem State.OwnLocal.validObj_stamp (h : s.OwnLocal obj 8) : s.validObj .stamp obj = (s, .good) := by
  simp only [State.validObj, h.aperture, h.steer]
  rfl

omit h in
theorem State.OwnLocal.validObj_tbr (h : s.OwnLocal obj 16) : s.validObj .tbr obj = (s, .good) := by
  simp only [State.validObj, h.aperture, h.steer]
  rfl

variable (hn : 8 ∣ n) (h0 : n ≠ 0) (hbase : s.gang.base % 8 = 0) (hst : s.gang.st ≠ .saved)
include hn h0 hbase hst

/-- At the arm the values of an aligned location of the own local memory are the one that it holds. -/
theorem State.OwnLocal.valuesOf (hobj : e.obj = obj) (hsince : e.since = s.journal.length) (hpast : e.past = []) :
    s.valuesOf s.gang e true = [s.rd64 (localKey s.coreNo (s.gang.base + obj.toNat % 2 ^ 48))] := by
  have hwithin := h.within
  have hoff : obj.toNat % 2 ^ 48 < s.gang.localk * 1024 := by omega
  have hkey : s.watchKey s.gang obj e.frame = some (localKey s.coreNo (s.gang.base + obj.toNat % 2 ^ 48)) := by
    simp only [State.watchKey, h.aperture, hoff, hst, if_true, if_false, State.coreNo]
    rfl
  have hal : obj.toNat % 8 = 0 := Nat.mod_eq_zero_of_dvd (hn.trans (Nat.dvd_of_mod_eq_zero h.aligned))
  have hround : localKey s.coreNo (s.gang.base + obj.toNat % 2 ^ 48) / 8 * 8 = localKey s.coreNo (s.gang.base + obj.toNat % 2 ^ 48) := by
    unfold localKey
    omega
  rw [State.valuesOf, hobj, if_neg h.ne_selfAddr, hkey]
  dsimp only
  rw [hsince, valuesSince_now, hpast, hround]
  rfl

variable (hobj : e.obj = obj) (hsince : e.since = s.journal.length) (hpast : e.past = [])
include hobj hsince hpast

theorem State.OwnLocal.evCond_stamp (x : Warp) (hk : e.kind = .stamp) :
    let word := s.rd64 (localKey s.coreNo (s.gang.base + obj.toNat % 2 ^ 48))
    s.evCond s.gang x e true = if e.arg ≤ word then some (word.setWidth 32) else none := by
  intro word
  have hval : s.evCond s.gang x e true = ([word].find? fun v => e.arg ≤ v).map (BitVec.setWidth 32) := by
    rw [State.evCond, hk, ← h.valuesOf hn h0 hbase hst hobj hsince hpast]
  rw [hval, List.find?_singleton, apply_ite (Option.map _)]
  simp only [decide_eq_true_iff]
  rfl

theorem State.OwnLocal.evCond_tbr (x : Warp) (hk : e.kind = .tbr) :
    let word := s.rd64 (localKey s.coreNo (s.gang.base + obj.toNat % 2 ^ 48))
    s.evCond s.gang x e true = if word.setWidth 32 = e.arg.setWidth 32 then none else some (word.setWidth 32) := by
  intro word
  have hval : s.evCond s.gang x e true = ([word].find? fun v => v.setWidth 32 ≠ e.arg.setWidth 32).map (BitVec.setWidth 32) := by
    rw [State.evCond, hk, ← h.valuesOf hn h0 hbase hst hobj hsince hpast]
  rw [hval, List.find?_singleton, apply_ite (Option.map _)]
  simp only [decide_eq_true_iff]
  exact ite_not ..

end

theorem evCond_mbox {k : Nat} (x : Warp) (hk : e.kind = .mbox) (hm : s.mboxKey (e.obj.setWidth 32) = some k) (hsince : e.since = s.journal.length) :
    s.evCond s.gang x e true = if s.rd64 k = 0 then none else some ((s.rd64 k).setWidth 32) := by
  have hval : s.evCond s.gang x e true = ([s.rd64 k].find? fun v => v ≠ 0).map (BitVec.setWidth 32) := by
    rw [State.evCond, hk]
    dsimp only
    rw [hm, hsince]
    dsimp only
    rw [valuesSince_now]
    rfl
  rw [hval, List.find?_singleton, apply_ite (Option.map _)]
  simp only [decide_eq_true_iff]
  exact ite_not ..

end

end Sys2Proof.Machine

namespace Sys2Proof

open Machine in
/-- Settles O15: the writes of a record and the reads of all, then ev.arm by its checks and by the condition of each kind. -/
theorem eventRegisters : Obligations.EventRegisters := by
  unfold Obligations.EventRegisters
  intro s only
  refine ⟨fun n => ⟨_, rfl, onlyEvent_setEv ..⟩, fun d a => ⟨_, rfl, _, setVV_result .., fun l k _ hk => evPend_getLsbD _ hk⟩, fun n u => ?arm⟩
  case arm =>
    intro obj arg h armed inLocal word
    refine ⟨fun hbad k => exec_evArm_of_bad_handler hbad, fun hlt hpl => ⟨?zero, ?badTok, ?dline, ?beam, ?tok, ?stamp, ?tbr, ?mbox, ?bar⟩⟩
    case zero =>
      rintro hobj k (rfl | rfl) <;> refine exec_evArm_of_bad_object hlt hpl (congrArg (Prod.mk s) ?_) <;> simpa [objOf] using hobj
    case badTok =>
      intro hbad
      have hno : (decide (obj.toNat ≤ 15) && s.gang.mx) = false := by
        rw [Bool.and_eq_false_iff, decide_eq_false_iff_not, not_le]
        exact hbad
      refine exec_evArm_of_bad_object hlt hpl ?_
      show (s, objOf (decide (obj.toNat ≤ 15) && s.gang.mx)) = _
      rw [hno]
      rfl
    case dline => exact fun hobj => gives_evArm hlt hpl (congrArg (Prod.mk s) (by simp [objOf, show s.uuAt u 0 = 0 from hobj])) rfl
    case beam => exact fun hobj => gives_evArm hlt hpl (congrArg (Prod.mk s) (by simp [objOf, show s.uuAt u 0 = 0 from hobj])) rfl
    case tok =>
      intro hobj hmx
      exact gives_evArm hlt hpl (congrArg (Prod.mk s) (by simp [objOf, hmx, show (s.uuAt u 0).toNat ≤ 15 from hobj])) rfl
    case stamp =>
      rintro ⟨hap, hal, hin, hsmall, hpool, hbase, hst⟩
      have hown : s.OwnLocal obj 8 := ⟨hap, hal, hin, hsmall, hpool⟩
      exact gives_evArm hlt hpl hown.validObj_stamp (hown.evCond_stamp (dvd_refl 8) (by decide) hbase hst rfl rfl rfl s.me rfl)
    case tbr =>
      rintro ⟨hap, hal, hin, hsmall, hpool, hbase, hst⟩
      have hown : s.OwnLocal obj 16 := ⟨hap, hal, hin, hsmall, hpool⟩
      exact gives_evArm hlt hpl hown.validObj_tbr (hown.evCond_tbr (by decide) (by decide) hbase hst rfl rfl rfl s.me rfl)
    case mbox =>
      intro k hobj hk
      refine gives_evArm hlt hpl ?_ (evCond_mbox s.me rfl hk rfl)
      show (s, objOf (decide (obj.toNat < 2 ^ 32) && (s.mboxKey (obj.setWidth 32)).isSome)) = _
      rw [decide_eq_true hobj, hk]
      rfl
    case bar =>
      intro i hi hg hm G
      refine gives_evArm hlt hpl ?_ ?_
      · show s.validObj .bar obj = _
        simp only [State.validObj, hi]
        rw [decide_eq_true hg, hm]
        rfl
      · simp only [State.evCond, hi]
        rfl

end Sys2Proof

/-! Waits for events and their deliveries (05_events R115, R116, R120, R121). -/

namespace Sys2Proof.Machine

/-! ### wait.any (R120) -/

section
variable {s : State} {u : BitVec 6} {m : BitVec 8}

theorem waited_eq_zero_iff : m &&& s.evBits EvReg.armed = 0 ↔ ∀ k, k < 8 → (m.getLsbD k && (s.evReg k).armed) = false := by
  refine ⟨fun h k hk => ?_, fun h => BitVec.eq_of_getLsbD_eq fun k hk => ?_⟩
  · rw [← evBits_getLsbD EvReg.armed hk, ← BitVec.getLsbD_and, h]
    exact BitVec.getLsbD_zero
  · rw [BitVec.getLsbD_and, evBits_getLsbD _ hk, h k hk]
    exact BitVec.getLsbD_zero.symm

theorem exec_waitAny_of_none (h : ∀ k, k < 8 → (((s.u u).setWidth 8 : BitVec 8).getLsbD k && (s.evReg k).armed) = false) :
    exec (.waitAny u) s = .next (s.progErr 0x0502 (((s.u u).setWidth 8 : BitVec 8).setWidth 64)) := by
  show execWaitAny u s = _
  rw [execWaitAny]
  exact congrArg _ (if_pos (waited_eq_zero_iff.mpr h))

theorem exec_waitAny_of_armed {k : Nat} (hk : k < 8) (hm : ((s.u u).setWidth 8 : BitVec 8).getLsbD k = true) (ha : (s.evReg k).armed = true) :
    exec (.waitAny u) s = .next (s.holdHere (.events ((s.u u).setWidth 8) s.point)) := by
  show execWaitAny u s = _
  rw [execWaitAny]
  refine congrArg _ (if_neg fun h => ?_)
  have := waited_eq_zero_iff.mp h k hk
  rw [hm, ha] at this
  cases this

end

/-! ### PEND (R115, R116) -/

section
variable {s : State} {e : BitVec 3} {d : Bool} {v : Word}

/-- PEND and VAL of a register of the warp in focus are set, and nothing else of that warp differs. -/
def Pended (s : State) (n : Nat) (v : Word) (t : State) : Prop :=
  t.me.ev = smPut {} s.me.ev n { s.evReg n with pend := true, val := v } ∧ t = { s with me := { s.me with ev := t.me.ev }, warps := t.warps }

theorem pend_of_evCond (h0 : s.me.gid ≠ 0) (hg : s.gang.gid = s.me.gid) (hex : s.me.exited = false) {n : Nat} (ha : (s.evReg n).armed = true)
    (hp : (s.evReg n).pend = false) (hk : ((s.evReg n).kind == .dline) = d) (hv : s.evCond s.gang s.me (s.evReg n) false = some v) :
    Pended s n v (s.pend s.me.gid s.me.w n d) := by
  have hguard : ¬ (s.me.exited || !(s.evReg n).armed || (s.evReg n).pend || ((s.evReg n).kind == .dline) != d) = true := by
    rw [hex, ha, hp, hk]
    simp
  have hpend : s.pend s.me.gid s.me.w n d = s.mapWarps fun y => if y.gid == s.me.gid && y.w == s.me.w then
      { y with ev := smPut {} y.ev n { s.evReg n with pend := true, val := v } } else y := by
    rw [State.pend, warpOf?_me h0, gangOf?_me h0 hg]
    refine (if_neg hguard).trans ?_
    rw [show s.evCond s.gang s.me (smGet {} s.me.ev n) false = some v from hv]
    rfl
  rw [hpend]
  constructor <;> simp only [mapWarps_me, beq_self_eq_true, Bool.and_self, if_true]
  rw [State.mapWarps]
  simp only [beq_self_eq_true, Bool.and_self, if_true]

theorem evCond_dline {x : Warp} {r : EvReg} {fresh : Bool} (hk : r.kind = .dline) (h : r.arg ≤ s.now) : s.evCond s.gang x r fresh = some (s.now.setWidth 32) := by
  rw [State.evCond, hk]
  exact if_pos h

theorem evCond_beam {x : Warp} {r : EvReg} {fresh : Bool} (hk : r.kind = .beam) (h : r.arg ≤ x.beams) : s.evCond s.gang x r fresh = some (x.beams.setWidth 32) := by
  rw [State.evCond, hk]
  exact if_pos h

theorem exists_evCond_stamp {x : Warp} {r : EvReg} (hk : r.kind = .stamp) (h : ∃ v ∈ s.valuesOf s.gang r false, r.arg ≤ v) :
    ∃ v ∈ s.valuesOf s.gang r false, r.arg ≤ v ∧ s.evCond s.gang x r false = some (v.setWidth 32) := by
  obtain ⟨w, hw, hle⟩ := h
  cases hf : (s.valuesOf s.gang r false).find? fun v => r.arg ≤ v with
  | none => exact absurd (decide_eq_true hle) (List.find?_eq_none.mp hf w hw)
  | some v =>
    refine ⟨v, List.mem_of_find?_eq_some hf, of_decide_eq_true (List.find?_some (p := fun v => decide (r.arg ≤ v)) hf), ?_⟩
    rw [State.evCond, hk]
    exact congrArg (Option.map _) hf

end

/-! ### Deliveries (R120, R121) -/

section
variable {x : Warp} {p : Path} {a : BitVec 8} {b n : Nat}

theorem readyFor_of_first (hst : p.st = .held (.events a b)) (hn : n < 8) (ha : a.getLsbD n = true) (hp : (smGet {} x.ev n).pend = true)
    (hfirst : ∀ k, k < n → (a.getLsbD k && (smGet {} x.ev k).pend) = false) : ∃ ns, x.readyFor p = some (b, n :: ns) := by
  have hsplit : List.range 8 = List.range n ++ n :: (List.range (7 - n)).map fun k => n + 1 + k := by
    interval_cases n <;> rfl
  have hnone : ((List.range n).filter fun k => a.getLsbD k && (smGet {} x.ev k).pend) = [] :=
    List.filter_eq_nil_iff.mpr fun k hk => by rw [hfirst k (List.mem_range.mp hk)]; exact Bool.false_ne_true
  refine ⟨((List.range (7 - n)).map fun k => n + 1 + k).filter fun k => a.getLsbD k && (smGet {} x.ev k).pend, ?_⟩
  rw [Warp.readyFor, hst]
  dsimp only
  rw [hsplit, List.filter_append, hnone, List.nil_append, List.filter_cons_of_pos (by rw [ha, hp]; rfl)]

theorem readyFor_of_not_waiting (h : ∀ a b, p.st ≠ .held (.events a b)) : x.readyFor p = none := by
  rw [Warp.readyFor]
  split
  case h_1 m start hst => exact absurd hst (h m start)
  case h_2 => rfl

/-- The path in focus takes the delivery where no other path waits. -/
theorem delivery_cur (hm : x.cur.mask ≠ 0) (hno : ∀ p ∈ x.paths, ∀ a b, p.st ≠ .held (.events a b)) {ns : List Nat}
    (hr : x.readyFor x.cur = some (b, n :: ns)) : x.delivery = some (x.cur, n) := by
  have hlive : x.live = x.cur :: x.paths.filter fun p => p.mask != 0 := List.filter_cons_of_pos (by simpa using hm)
  rw [Warp.delivery, hlive, List.foldl_cons, hr]
  dsimp only
  rw [foldl_eq_self]
  · rfl
  · intro p hp
    rw [readyFor_of_not_waiting (hno p (List.mem_of_mem_filter hp))]

end

section
variable {s : State}

/-- The path in focus at the handler of the event register that it is delivered (R120). -/
def State.delivered (s : State) (n : Nat) : State :=
  { s with me := { s.me with
      ev := smPut {} s.me.ev n { s.evReg n with pend := false, armed := false }
      cur := { s.me.cur with pc := (s.evReg n).handler.setWidth 48, wpos := 0, st := .ready } } }

/-- What a delivery does with the path in focus (R120): the register is disarmed, and the path goes to its handler. -/
def State.deliver (s : State) (id n : Nat) : State :=
  let e := s.evReg n
  let t := (s.setEv n { e with pend := false, armed := false }).traceEv 8 id (BitVec.ofNat 32 (n + e.kind.code * 16)) e.handler
  (t.jump (e.handler.setWidth 48)).setSt t.me.woken

theorem traceEv_off (htr : s.me.trc.on = false) (ty path : Nat) (a : BitVec 32) (b : BitVec 64) : s.traceEv ty path a b = s := by
  rw [State.traceEv, trace_off _ _ _ _ _ htr, ite_self]

theorem woken_of_not_halted {x : Warp} (h : x.halted = false) : x.woken = .ready := by rw [Warp.woken, h]; rfl

theorem deliver_eq (hh : s.me.halted = false) (htr : s.me.trc.on = false) (id n : Nat) : s.deliver id n = s.delivered n := by
  have htr' : (s.setEv n { s.evReg n with pend := false, armed := false }).me.trc.on = false := htr
  have hwoken : (s.setEv n { s.evReg n with pend := false, armed := false }).me.woken = .ready := woken_of_not_halted hh
  rw [State.deliver, traceEv_off htr', jump_of_untraced htr', hwoken]
  rfl

theorem exec_eventDelivery_cur (h0 : s.me.gid ≠ 0) (hg : s.gang.gid = s.me.gid) (hon : s.onCore s.me = true) (hm : s.me.cur.mask ≠ 0)
    (hh : s.me.halted = false) (htr : s.me.trc.on = false) {n : Nat} (hd : s.me.delivery = some (s.me.cur, n)) :
    exec (.eventDelivery s.me.gid s.me.w) s = .next (s.delivered n) := by
  let h : Here := { pc := s.me.cur.pc, wpos := s.me.cur.wpos, npc := s.me.cur.pc, nwpos := s.me.cur.wpos }
  have hf := deliver_eq (s := { s with here := h, issue := .lane }) hh htr s.me.cur.id n
  have hwith := withPath_cur (f := fun t => t.deliver s.me.cur.id n) h0 hg hm hf rfl rfl rfl rfl hm
  have hexec : exec (.eventDelivery s.me.gid s.me.w) s =
      .next (if !s.onCore s.me then s else s.withPath s.me.gid s.me.w s.me.cur.id h fun t => t.deliver s.me.cur.id n) := by
    show execEventDelivery _ _ s = _
    rw [execEventDelivery, warpOf?_me h0]
    dsimp only
    rw [hd]
    rfl
  rw [hexec, hon, hwith]
  rfl

end

end Sys2Proof.Machine

namespace Sys2Proof

open Machine in
/-- Settles O16: wait.any by whether a register of its mask is armed, PEND by each kind's condition, the delivery to the one path that waits. -/
theorem waitsAndDeliveries : Obligations.WaitsAndDeliveries := by
  unfold Obligations.WaitsAndDeliveries
  intro s m pended
  refine ⟨fun u h => exec_waitAny_of_none h, fun u k hk hm ha => ⟨_, exec_waitAny_of_armed hk hm ha, rfl⟩, fun h0 hg hex => ⟨?dline, ?beam, ?stamp, ?delivery⟩⟩
  case dline =>
    intro e ha hp hk harg
    exact ⟨_, rfl, pend_of_evCond h0 hg hex ha hp (by rw [hk]; rfl) (evCond_dline hk harg)⟩
  case beam =>
    intro e ha hp hk harg
    exact ⟨_, rfl, pend_of_evCond h0 hg hex ha hp (by rw [hk]; rfl) (evCond_beam hk harg)⟩
  case stamp =>
    intro e ha hp hk hv
    obtain ⟨v, hmem, hle, hcond⟩ := exists_evCond_stamp (x := s.me) hk hv
    exact ⟨v, hmem, hle, _, rfl, pend_of_evCond h0 hg hex ha hp (by rw [hk]; rfl) hcond⟩
  case delivery =>
    intro hst hsaved hm hh htr hno a b n hwait hn han hp hfirst
    obtain ⟨ns, hready⟩ := readyFor_of_first (x := s.me) hwait hn han hp hfirst
    have hon := (onCore_iff (gangOf?_me h0 hg)).mpr ⟨hex, hsaved, hst⟩
    exact ⟨_, exec_eventDelivery_cur h0 hg hon hm hh htr (delivery_cur hm hno hready), rfl⟩

end Sys2Proof

/-! Mailboxes (05_events R123 to R125, R132). -/

namespace Sys2Proof.Machine

section
variable {s : State} {k : Nat}

theorem mboxLocked_of_unlocked (h : s.locks = []) (k : Nat) : s.mboxLocked k = none := by
  rw [State.mboxLocked, conflicts_of_unlocked h]

theorem rd64_wr_zero (s : State) (k : Nat) : (s.wr k 8 0).rd64 k = 0 := rd64_wr s k 0

/-! ### mbox.send (R125) -/

variable {d : BitVec 7} {u : BitVec 6}

theorem exec_mboxSend_of_no_mailbox (hk : s.mboxKey (s.un (u.toNat + 2)) = none) : exec (.mboxSend d u) s = .next (s.setV d fun _ => 3) := by
  show execMboxSend d u s = _
  rw [execMboxSend, hk]

theorem exec_mboxSend_of_zero (hk : s.mboxKey (s.un (u.toNat + 2)) = some k) (hz : s.uu u = 0) : exec (.mboxSend d u) s = .next (s.setV d fun _ => 2) := by
  show execMboxSend d u s = _
  rw [execMboxSend, hk]
  exact congrArg _ (if_pos hz)

/-- A token that is not zero, sent to a mailbox over which no range is locked, goes in where the mailbox is empty. -/
theorem exec_mboxSend_of_token (hl : s.locks = []) (hk : s.mboxKey (s.un (u.toNat + 2)) = some k) (hz : s.uu u ≠ 0) :
    exec (.mboxSend d u) s = .next (if s.rd k 8 = 0 then (s.wr k 8 (s.uu u).toNat).setV d fun _ => 0 else s.setV d fun _ => 1) := by
  show execMboxSend d u s = _
  rw [execMboxSend, hk]
  refine congrArg _ ((if_neg hz).trans ?_)
  rw [mboxLocked_of_unlocked hl]
  rfl

/-! ### mbox.recv (R125) -/

theorem exec_mboxRecv_of_no_mailbox (hk : s.mboxKey (s.u u) = none) : exec (.mboxRecv d u) s = .next (s.setVV d fun _ => 0) := by
  show execMboxRecv d u s = _
  rw [execMboxRecv, hk]

theorem exec_mboxRecv_of_mailbox (hl : s.locks = []) (hk : s.mboxKey (s.u u) = some k) :
    exec (.mboxRecv d u) s = .next ((s.wr k 8 0).setVV d fun _ => s.rd64 k) := by
  show execMboxRecv d u s = _
  rw [execMboxRecv, hk]
  dsimp only
  rw [mboxLocked_of_unlocked hl]

/-! ### The package's own tokens (R132) -/

theorem exec_supmbxTokenSend_of_empty {x : BitVec 64} {xs : List (BitVec 64)} (hq : s.sys.toks = x :: xs) (hs : s.pkg.supmbx.toNat < 2 ^ 32)
    (hk : s.mboxKey (s.pkg.supmbx.setWidth 32) = some k) (h0 : s.rd k 8 = 0) :
    exec .supmbxTokenSend s = .next ((s.wr k 8 x.toNat).setSys { s.sys with toks := xs }) := by
  show execSupmbxTokenSend s = _
  rw [execSupmbxTokenSend, hq]
  dsimp only
  rw [if_pos hs, hk]
  exact congrArg _ (if_pos h0)

end

end Sys2Proof.Machine

namespace Sys2Proof

open Machine in
/-- Settles O17: a send by its target, its token and what the mailbox holds, a receive by its target, and the package's queue. -/
theorem mailboxes : Obligations.Mailboxes := by
  unfold Obligations.Mailboxes
  intro s hl
  refine ⟨fun d u k hk hz h0 => ?sent, fun d u => ?unsent, fun d u hk => ?noMailbox, fun d u k hk => ?taken, fun k x xs hq hs hk h0 => ?queued⟩
  case sent =>
    refine ⟨_, (exec_mboxSend_of_token hl hk hz).trans (congrArg _ (if_pos h0)), _, wr_frame .., setV_result .., rd64_wr s k _, fun a ha => ?_⟩
    exact byte_wr_ne s k 8 _ a ha
  case unsent =>
    cases hk : s.mboxKey (s.un (u.toNat + 2)) with
    | none => exact ⟨_, exec_mboxSend_of_no_mailbox hk, fun _ => setV_result .., nofun, nofun⟩
    | some k =>
      by_cases hz : s.uu u = 0
      · exact ⟨_, exec_mboxSend_of_zero hk hz, nofun, fun _ _ _ => setV_result .., fun _ _ hne => absurd hz hne⟩
      · refine ⟨_, exec_mboxSend_of_token hl hk hz, nofun, fun _ _ h => absurd h hz, fun j hj _ h0 => ?_⟩
        obtain rfl := Option.some.inj hj
        rw [if_neg h0]
        exact setV_result ..
  case noMailbox => exact ⟨_, exec_mboxRecv_of_no_mailbox hk, setVV_result ..⟩
  case taken => exact ⟨_, exec_mboxRecv_of_mailbox hl hk, _, wr_frame .., setVV_result .., rd64_wr_zero s k, fun a ha => byte_wr_ne s k 8 0 a ha⟩
  case queued =>
    refine ⟨_, exec_supmbxTokenSend_of_empty hq hs hk h0, ?_, rd64_wr s k x, fun a ha => byte_wr_ne s k 8 _ a ha⟩
    rw [wr_frame]
    rfl

end Sys2Proof

/-! Traps and the entry of their handlers (05_events R126 to R132). -/

namespace Sys2Proof.Machine

/-! ### Records of fields -/

/-- The little-endian bytes of fields, each by its number of bytes and its value. -/
def fieldBytes (fs : List (Nat × Nat)) : List (BitVec 8) := fs.flatMap fun f => leBytes f.1 f.2

/-- The bytes from `k` on are those of the fields, each by its number of bytes and its value. -/
def State.HasFields (s : State) : Nat → List (Nat × Nat) → Prop
  | _, [] => True
  | k, (n, v) :: fs => s.rd k n = v % 256 ^ n ∧ s.HasFields (k + n) fs

theorem length_fieldBytes (fs : List (Nat × Nat)) : (fieldBytes fs).length = (fs.map Prod.fst).sum := by
  simp [fieldBytes, List.length_flatMap]

theorem State.HasFields.congr {s t : State} {fs : List (Nat × Nat)} {k : Nat} (h : s.HasFields k fs)
    (hb : ∀ a, k ≤ a → a < k + (fieldBytes fs).length → t.byte a = s.byte a) : t.HasFields k fs := by
  induction fs generalizing k with
  | nil => trivial
  | cons f fs ih =>
    obtain ⟨hf, hfs⟩ := h
    have hlen : (fieldBytes (f :: fs)).length = f.1 + (fieldBytes fs).length := by simp [length_fieldBytes]
    rw [hlen] at hb
    exact ⟨(rd_congr fun a ha hlt => hb a ha (by omega)).trans hf, ih hfs fun a ha hlt => hb a (by omega) (by omega)⟩

theorem put_hasFields_after (s : State) (k : Nat) (bs : List (BitVec 8)) (fs : List (Nat × Nat)) :
    (s.put k (bs ++ fieldBytes fs)).HasFields (k + bs.length) fs := by
  induction fs generalizing bs with
  | nil => trivial
  | cons f fs ih =>
    have hcons : fieldBytes (f :: fs) = leBytes f.1 f.2 ++ fieldBytes fs := List.flatMap_cons
    refine ⟨?_, ?_⟩
    · rw [rd_put _ _ _ _ _ (by simp [hcons]), hcons, List.drop_left, List.take_left' (length_leBytes ..), leNat_leBytes]
    · have h := ih (bs ++ leBytes f.1 f.2)
      rwa [List.append_assoc, ← hcons, List.length_append, length_leBytes, ← Nat.add_assoc] at h

/-- A record just written reads back field by field. -/
theorem put_hasFields (s : State) (k : Nat) (fs : List (Nat × Nat)) : (s.put k (fieldBytes fs)).HasFields k fs := put_hasFields_after s k [] fs

/-! ### Frames (R129) -/

section
variable {s : State} {bs : List (BitVec 8)} {l : Nat}

theorem put_me (s : State) (k : Nat) (bs : List (BitVec 8)) : (s.put k bs).me = s.me := by rw [put_frame]

/-- Bytes are written at offset 512 of the stack of each lane of a list. -/
def State.framed (s : State) (ls : List Nat) (bs : List (BitVec 8)) : State := ls.foldl (fun s l => s.put (s.me.stackAt l 512) bs) s

theorem framed_frame (ls : List Nat) (s : State) : s.framed ls bs = { s with mem := (s.framed ls bs).mem, journal := (s.framed ls bs).journal } := by
  induction ls generalizing s with
  | nil => rfl
  | cons l ls ih =>
    have hcons : s.framed (l :: ls) bs = (s.put (s.me.stackAt l 512) bs).framed ls bs := rfl
    rw [hcons, ih, put_frame]

theorem framed_me (ls : List Nat) : (s.framed ls bs).me = s.me := by rw [framed_frame]

theorem byte_framed_ne {ls : List Nat} {k : Nat} (h : ∀ l ∈ ls, ¬ (s.me.stackAt l 512 ≤ k ∧ k < s.me.stackAt l 512 + bs.length)) :
    (s.framed ls bs).byte k = s.byte k := by
  induction ls generalizing s with
  | nil => rfl
  | cons l ls ih =>
    obtain ⟨hl, hls⟩ := List.forall_mem_cons.mp h
    exact (ih (s := s.put (s.me.stackAt l 512) bs) (by rw [put_me]; exact hls)).trans (byte_put_ne s _ _ _ hl)

/-- The frames of different lanes lie apart, so each lane's frame is as if it alone had been written. -/
theorem byte_framed {ls : List Nat} (hls : ls.Nodup) (hl : l ∈ ls) (hlen : bs.length ≤ 2048) {a : Nat} (ha : s.me.stackAt l 512 ≤ a)
    (hb : a < s.me.stackAt l 512 + bs.length) : (s.framed ls bs).byte a = (s.put (s.me.stackAt l 512) bs).byte a := by
  induction ls generalizing s with
  | nil => cases hl
  | cons m ls ih =>
    obtain ⟨hm, hls⟩ := List.nodup_cons.mp hls
    show ((s.put (s.me.stackAt m 512) bs).framed ls bs).byte _ = _
    rcases List.mem_cons.mp hl with rfl | hl
    · refine byte_framed_ne fun i hi hin => ?_
      have hne : i ≠ l := fun h => hm (h ▸ hi)
      rw [put_me] at hin
      simp only [Warp.stackAt] at ha hb hin
      omega
    · have h := ih (s := s.put (s.me.stackAt m 512) bs) hls hl
      rw [put_me] at h
      rw [h ha hb, byte_put, dif_pos ⟨ha, hb⟩, byte_put, dif_pos ⟨ha, hb⟩]

theorem writeFrames_eq (m : BitVec 32) : s.writeFrames m bs = s.framed (lanesOf m) bs := rfl

/-- The fields of a frame (R129). -/
def frameFields (tpc : BitVec 48) (twpos hmode path : Nat) (tmask : BitVec 32) (cls code : Nat) (info time hard : BitVec 64) : List (Nat × Nat) :=
  [(8, tpc.toNat), (1, twpos), (1, hmode), (1, path), (1, 0), (4, tmask.toNat), (2, cls), (2, code), (4, 0), (8, info.toNat), (8, time.toNat), (8, hard.toNat), (16, 0)]

section
variable (tpc : BitVec 48) (twpos hmode path : Nat) (tmask : BitVec 32) (cls code : Nat) (info time hard : BitVec 64)

theorem frameBytes_eq : frameBytes tpc twpos hmode path tmask cls code info time hard =
    fieldBytes (frameFields tpc twpos hmode path tmask cls code info time hard) := by
  simp only [frameBytes, fieldBytes, frameFields, List.flatMap_cons, List.flatMap_nil, List.append_nil, List.append_assoc]

theorem length_frameBytes : (frameBytes tpc twpos hmode path tmask cls code info time hard).length = 64 := by
  rw [frameBytes_eq, length_fieldBytes]
  rfl

theorem rd_frameFields {k : Nat} (h : s.HasFields k (frameFields tpc twpos hmode path tmask cls code info time hard)) :
    s.rd k 8 = tpc.toNat ∧ s.rd (k + 8) 1 = twpos % 256 ∧ s.rd (k + 9) 1 = hmode % 256 ∧ s.rd (k + 10) 1 = path % 256 ∧ s.rd (k + 11) 1 = 0 ∧
    s.rd (k + 12) 4 = tmask.toNat ∧ s.rd (k + 16) 2 = cls % 256 ^ 2 ∧ s.rd (k + 18) 2 = code % 256 ^ 2 ∧ s.rd (k + 20) 4 = 0 ∧
    s.rd (k + 24) 8 = info.toNat ∧ s.rd (k + 32) 8 = time.toNat ∧ s.rd (k + 40) 8 = hard.toNat ∧ s.rd (k + 48) 16 = 0 := by
  have htpc : tpc.toNat % 256 ^ 8 = tpc.toNat := Nat.mod_eq_of_lt (tpc.isLt.trans (by norm_num))
  have h64 (x : BitVec 64) : x.toNat % 256 ^ 8 = x.toNat := Nat.mod_eq_of_lt x.isLt
  have h32 : tmask.toNat % 256 ^ 4 = tmask.toNat := Nat.mod_eq_of_lt tmask.isLt
  simpa only [frameFields, State.HasFields, htpc, h64, h32, Nat.zero_mod, Nat.pow_one, and_true, Nat.add_assoc, Nat.reduceAdd] using h

/-- Each lane of the mask finds the frame on its stack. -/
theorem writeFrames_hasFields {m : BitVec 32} (hl : l < 32) (hm : m.getLsbD l = true) :
    (s.writeFrames m (frameBytes tpc twpos hmode path tmask cls code info time hard)).HasFields (s.me.stackAt l 512)
      (frameFields tpc twpos hmode path tmask cls code info time hard) := by
  have hlen := length_frameBytes tpc twpos hmode path tmask cls code info time hard
  rw [writeFrames_eq]
  refine (put_hasFields s _ _).congr fun a ha hlt => ?_
  rw [← frameBytes_eq] at hlt ⊢
  exact byte_framed (lanesOf_nodup m) ((lanesOf_mem m l).mpr ⟨hl, hm⟩) (by omega) ha hlt

end

theorem byte_writeFrames_ne {m : BitVec 32} (hlen : bs.length = 64) {k : Nat}
    (h : ∀ l, l < 32 → m.getLsbD l = true → ¬ (s.me.stackAt l 512 ≤ k ∧ k < s.me.stackAt l 512 + 64)) : (s.writeFrames m bs).byte k = s.byte k := by
  refine byte_framed_ne fun l hl => ?_
  obtain ⟨hl, hm⟩ := (lanesOf_mem m l).mp hl
  rw [hlen]
  exact h l hl hm

end

/-! ### Vectors (R127) -/

section
variable {s u : State} {cls : Nat}

theorem vector_of_no_table (h : (s.ctx s.gang.asid).tvbase = 0 ∨ (s.ctx s.gang.asid).tvbase.toNat % 64 ≠ 0) : s.vector cls = (s, .ok 0) := by
  rw [State.vector]
  exact if_pos (by simpa using h)

theorem vector_of_translated {pa : Nat} (h0 : (s.ctx s.gang.asid).tvbase ≠ 0) (hal : (s.ctx s.gang.asid).tvbase.toNat % 64 = 0)
    (hlt : (s.ctx s.gang.asid).tvbase.toNat + 8 * cls < 2 ^ 48) (ht : s.translate .read ((s.ctx s.gang.asid).tvbase.toNat + 8 * cls) = (u, .ok pa))
    (hpl : (u.rd64 pa).toNat % 12 = 0) (hin : (u.rd64 pa).toNat < 2 ^ 48) : s.vector cls = (u, .ok (u.rd64 pa)) := by
  have ha : ((s.ctx s.gang.asid).tvbase + BitVec.ofNat 64 (8 * cls)).toNat = (s.ctx s.gang.asid).tvbase.toNat + 8 * cls := by
    rw [BitVec.toNat_add, BitVec.toNat_ofNat]
    omega
  rw [State.vector]
  refine (if_neg (by simpa using ⟨h0, hal⟩)).trans ((if_neg (by rw [ha]; omega)).trans ?_)
  rw [ha, ht]
  dsimp only
  rw [if_neg]
  rw [Bool.or_eq_true, decide_eq_true_iff, decide_eq_true_iff]
  omega

end

/-! ### The trap (R128, R132) -/

section
variable {s : State} {cls code : Nat} {info : BitVec 64}

/-- What the record of a context's first end holds of a path that ends it (R132), and what else differs. -/
def Ended (s : State) (cls code : Nat) (info : BitVec 64) (t : State) : Prop :=
  (s.ctx s.gang.asid).ending = none → ∃ r, t.ctx s.gang.asid = { s.ctx s.gang.asid with ending := some r } ∧ r.cls = cls ∧ r.code = code ∧
    r.info = info ∧ r.path = s.me.cur.id ∧ r.tmask = s.me.cur.mask ∧ r.tpc = s.here.pc.setWidth 64 ∧ r.time = s.now ∧
    r.task = s.gang.task ∧ r.gang = s.gang.index ∧ r.warp = BitVec.ofNat 32 s.me.w ∧
    t = { s with me := { s.me with cur := { s.me.cur with pc := s.here.pc, wpos := s.here.wpos } }, here := t.here, ctxs := t.ctxs }

/-- The record of an end by the path in focus (R132). -/
def State.endRec (s : State) (cls code : Nat) (info : BitVec 64) : EndRec :=
  { cls := cls, code := code, hmode := match s.me.cur.hmode with | .none => 0 | .trap => 1 | .pre => 2
    path := s.me.cur.id, task := s.gang.task, gang := s.gang.index, warp := BitVec.ofNat 32 s.me.w, tmask := s.me.cur.mask
    tpc := s.here.pc.setWidth 64, info := info, time := s.now }

theorem endContext_of_lane (hi : s.issue = .lane) : s.endContext cls code info =
    (s.setCtx s.gang.asid { s.ctx s.gang.asid with ending := some ((s.ctx s.gang.asid).ending.getD (s.endRec cls code info)) }).again.trapped := by
  have hseq : (s.issue == .seq) = false := by rw [hi]; rfl
  rw [State.endContext, hseq]
  rfl

theorem ended_endContext (hi : s.issue = .lane) : Ended s cls code info (s.endContext cls code info) := fun hnone => by
  have hrec : (s.ctx s.gang.asid).ending.getD (s.endRec cls code info) = s.endRec cls code info := by rw [hnone]; rfl
  rw [endContext_of_lane hi, hrec]
  exact ⟨_, (setCtx_ctx ..).trans (if_pos rfl), rfl, rfl, rfl, rfl, rfl, rfl, rfl, rfl, rfl, rfl, rfl⟩

theorem trap_of_handler (h : s.me.cur.hmode ≠ .none) : s.trap cls code info = s.endContext cls code info :=
  if_pos (Bool.or_eq_true_iff.mpr (.inr (bne_iff_ne.mpr h)))

variable (hi : s.issue = .lane) (hh : s.me.cur.hmode = .none)
include hi hh

theorem trap_of_ordinary : s.trap cls code info =
    if s.me.live.any fun p => p.hmode != .none then (s.holdHere .trapBusy).trapped
    else match s.vector cls with
      | (_, .error (c, a)) => (s.park 1 c a 0 s.me.cur.mask).trapped
      | (t, .ok h) => if h ≠ 0 then (t.enterHandler h cls code info).trapped else if cls = 2 then (t.holdHere (.range [])).trapped else t.endContext cls code info := by
  rw [State.trap, State.trapOn, hi, hh]
  rfl

theorem trap_of_busy (h : ∃ q ∈ s.me.live, q.hmode ≠ .none) : s.trap cls code info = (s.holdHere .trapBusy).trapped := by
  rw [trap_of_ordinary hi hh, if_pos]
  simpa using h

variable (hno : ∀ q ∈ s.me.live, q.hmode = .none)
include hno

theorem trap_of_vector {t : State} {h : BitVec 64} (hv : s.vector cls = (t, .ok h)) (h0 : h ≠ 0) : s.trap cls code info = (t.enterHandler h cls code info).trapped := by
  rw [trap_of_ordinary hi hh, if_neg (by simpa using hno), hv]
  exact if_pos h0

theorem trap_of_no_vector {t : State} (hv : s.vector cls = (t, .ok 0)) (hc : cls ≠ 2) : s.trap cls code info = t.endContext cls code info := by
  rw [trap_of_ordinary hi hh, if_neg (by simpa using hno), hv]
  exact (if_neg fun h => h rfl).trans (if_neg hc)

end

section
variable {s : State} {cls code : Nat} {info h : BitVec 64}

/-- The path in focus at its trap handler (R128): nothing of a replay or of a group done in part is left with it. -/
def State.handling (s : State) (h : BitVec 64) : Path :=
  let p := s.me.cur
  { p with hmode := .trap, pc := h.setWidth 48, wpos := 0, st := .ready, replay := none, snap := none, rpos := none, phase := 0, after := none
           tpc := s.here.pc, twpos := s.here.wpos
           tnpc := (p.after.getD (s.here.npc, s.here.nwpos)).1, tnwpos := (p.after.getD (s.here.npc, s.here.nwpos)).2 }

theorem enterHandler_eq (htr : s.me.trc.on = false) : s.enterHandler h cls code info =
    (s.writeFrames s.me.cur.mask (frameBytes s.here.pc s.here.wpos 1 s.me.cur.id s.me.cur.mask cls code info s.now 0)).setCur (s.handling h) := by
  have hw (bs : List (BitVec 8)) : (s.writeFrames s.me.cur.mask bs).me.trc.on = false := by rw [writeFrames_eq, framed_me]; exact htr
  rw [State.enterHandler, traceEv_off (by exact hw _), writeFrames_eq, framed_frame]
  rfl

end

end Sys2Proof.Machine

namespace Sys2Proof

open Machine in
/-- Settles O18: the trap by its path's mode, by the other paths' modes, and by the vector. -/
theorem trapEntry : Obligations.TrapEntry := by
  unfold Obligations.TrapEntry
  intro s a i hi htr info base p ended
  have hended (t : State) (h : Ended s 4 i.toNat info t) : ended t := h
  refine ⟨fun hm => ⟨_, rfl, hended _ ?inHandler⟩, fun hm => ⟨fun hbusy => ⟨_, rfl, ?busy⟩, fun hno => ⟨fun hbase => ⟨_, rfl, hended _ ?noTable⟩, ?entry⟩⟩⟩
  case inHandler => exact trap_of_handler hm ▸ ended_endContext hi
  case busy =>
    rw [trap_of_busy hi hm hbusy]
    rfl
  case noTable => exact trap_of_no_vector (cls := 4) hi hm hno (vector_of_no_table hbase) (by decide) ▸ ended_endContext hi
  case entry =>
    intro u pa h0 hal hlt ht h hne hpl hin hume hugang huhere hupkg
    have hnow : u.now = s.now := congrArg Pkg.time hupkg
    have hframes := writeFrames_eq (s := u) (bs := frameBytes s.here.pc s.here.wpos 1 p.id p.mask 4 i.toNat info s.now 0) p.mask
    have htrap : exec (.trap a i) s = .next
        (((u.writeFrames p.mask (frameBytes s.here.pc s.here.wpos 1 p.id p.mask 4 i.toNat info s.now 0)).setCur (s.handling h)).trapped) := by
      have hvec := vector_of_translated (cls := 4) h0 hal hlt ht hpl hin
      have henter := enterHandler_eq (s := u) (h := h) (cls := 4) (code := i.toNat) (info := info) (hume ▸ htr)
      show Host.Outcome.next (s.trap 4 i.toNat info) = _
      rw [trap_of_vector hi hm hno hvec hne, henter, State.handling, hnow, hume, huhere]
      rfl
    refine ⟨_, htrap, ?_, fun l hl hact => ?_, fun k hk => ?_⟩
    · rw [hframes, framed_frame]
      rw [← hume]
      rfl
    · have hf := writeFrames_hasFields (s := u) s.here.pc s.here.wpos 1 p.id p.mask 4 i.toNat info s.now 0 hl hact
      rw [hume] at hf
      obtain ⟨htpc, htwpos, hhm, hpath, h11, htmask, hcls, hcode, h20, hinfo, htime, hhard, h48⟩ := rd_frameFields _ _ _ _ _ _ _ _ _ _ hf
      have hi16 : i.toNat % 256 ^ 2 = i.toNat := Nat.mod_eq_of_lt (i.isLt.trans (by norm_num))
      exact ⟨htpc, htwpos, hhm, hpath, h11, htmask, hcls, hcode.trans hi16, h20, hinfo, htime, hhard, h48⟩
    · exact byte_writeFrames_ne (length_frameBytes ..) (by rw [hume]; exact hk)

end Sys2Proof

/-! Returns from handlers and the pre-emption machine of a warp (05_events R131, R133, R135). -/

namespace Sys2Proof.Machine

/-! ### A pending request (R133) -/

section
variable {s t : State} {h : BitVec 64}

/-- A path of the warp is STOPPED (17_debug R368). -/
def Warp.Stopped (x : Warp) : Prop := ∃ q ∈ x.live, ∃ k, q.st = .stopped k

theorem any_stopped_iff {x : Warp} : (x.live.any fun p => match p.st with | .stopped _ => true | _ => false) = true ↔ x.Stopped := by
  rw [List.any_eq_true]
  refine exists_congr fun p => and_congr_right fun _ => ?_
  cases p.st <;> simp

theorem tryPre_of_not_pending (hp : s.me.pre.st ≠ .pending) : s.tryPre = s := if_pos (bne_iff_ne.mpr hp)

variable (hp : s.me.pre.st = .pending)
include hp

theorem tryPre_of_pending : s.tryPre =
    if s.me.live.any fun p => match p.st with | .stopped _ => true | _ => false then s.setPre { s.me.pre with st := .hard }
    else match s.vector 7 with
      | (_, .error _) => s.setPre { s.me.pre with st := .hard }
      | (t, .ok h) =>
        if h = 0 then t.setPre { t.me.pre with st := .hard } else if t.me.pre.mask || t.me.live.any fun p => p.hmode == .trap then t else t.enterPre h :=
  if_neg (by rw [hp]; exact Bool.false_ne_true)

/-- The hard save comes at once where a path is STOPPED or there is no handler, masked or not. -/
theorem tryPre_of_hard (hh : (s.ctx s.gang.asid).tvbase = 0 ∨ s.me.Stopped) : s.tryPre = s.setPre { s.me.pre with st := .hard } := by
  rw [tryPre_of_pending hp]
  by_cases hst : s.me.Stopped
  · exact if_pos (any_stopped_iff.mpr hst)
  · rw [if_neg (mt any_stopped_iff.mp hst), vector_of_no_table (.inl (hh.resolve_right hst))]
    exact if_pos rfl

theorem tryPre_of_vector (hst : ¬ s.me.Stopped) (hv : s.vector 7 = (t, .ok h)) (h0 : h ≠ 0) :
    s.tryPre = if t.me.pre.mask || t.me.live.any fun p => p.hmode == .trap then t else t.enterPre h := by
  rw [tryPre_of_pending hp, if_neg (mt any_stopped_iff.mp hst), hv]
  exact if_neg h0

/-- A request with a handler waits while the warp is masked or one of its paths handles a trap. -/
theorem tryPre_of_waiting (hst : ¬ s.me.Stopped) (hv : s.vector 7 = (t, .ok h)) (h0 : h ≠ 0)
    (hw : t.me.pre.mask = true ∨ ∃ p ∈ t.me.live, p.hmode = .trap) : s.tryPre = t := by
  rw [tryPre_of_vector hp hst hv h0, if_pos]
  simpa using hw

end

/-! ### What follows in a warp with a handler path, or with a path that goes on (R108, R128, R135) -/

section
variable {s : State} {m : Hmode}

theorem toRelease_of_waiting_class {x : Warp} (h : ∃ p ∈ x.live, p.hmode = m ∧ ∀ a b, p.st ≠ .join a b) : x.toRelease m = none := by
  obtain ⟨p, hp, hm, hst⟩ := h
  have hmem : p ∈ x.live.filter fun p => p.hmode == m := List.mem_filter.mpr ⟨hp, beq_iff_eq.mpr hm⟩
  rw [toRelease_eq]
  have hlen : ((x.live.filter fun p => p.hmode == m).filterMap Path.join?).length ≠ (x.live.filter fun p => p.hmode == m).length := fun hlen => ?_
  · exact if_pos (Bool.or_eq_true_iff.mpr (.inl (decide_eq_true hlen)))
  obtain ⟨a, b, hj⟩ := isSome_join?.mp (List.filterMap_length_eq_length.mp hlen p hmem)
  exact hst a b hj

theorem toRelease_of_handler {x : Warp} (h : ∃ p ∈ x.live, p.hmode ≠ .none) : x.toRelease .none = none := by
  rw [toRelease_eq]
  exact if_pos (Bool.or_eq_true_iff.mpr (.inr (by simpa using h)))

/-- No path is released where each class has none in JOIN alone. -/
theorem releaseJoins_of_none (h : ∀ m, s.me.toRelease m = none) : s.releaseJoins = s := by
  rw [State.releaseJoins, release_of_none (h .pre), release_of_none (h .trap), release_of_none (h .none)]

theorem preCheck_of_not_hnd (h : s.me.pre.st ≠ .hnd) : s.preCheck = s := if_neg (by simp [h])

theorem retrap_of_handler (h : ∃ p ∈ s.me.live, p.hmode ≠ .none) : s.retrap = s := if_pos (by simpa using h)

theorem retrap_of_ordinary (h : ∀ p ∈ s.me.live, p.hmode = .none) (hc : ∀ p ∈ s.me.cur :: s.me.paths, p.Calm) : s.retrap = s := by
  have hmap : s.me.mapPaths (fun p => if p.st = .held .trapBusy then { p with st := s.me.woken } else p) = s.me :=
    mapPaths_of_same fun p hp => if_neg (hc p hp).1
  have hkept : (s.me.live.findSome? fun p => p.kept.map fun k => (p, k)) = none :=
    List.findSome?_eq_none_iff.mpr fun p hp => by rw [(hc p (mem_of_live hp)).2]; rfl
  rw [State.retrap, if_neg (by simpa using h), hmap]
  show (match s.me.live.findSome? fun p => p.kept.map fun k => (p, k) with | none => s | some (p, a, n) => _) = s
  rw [hkept]

theorem settle_of_live (hex : s.me.exited = false) (hl : s.me.live ≠ []) : s.settle = s.retrap.tryPre.preCheck.releaseJoins := by
  rw [State.settle, if_neg (by rw [hex]; exact Bool.false_ne_true), if_neg hl]

/-- With only ordinary paths, one of which goes on or waits for other things than a join, what follows is up to the pending request alone. -/
theorem settle_of_ordinary (hex : s.me.exited = false) (hord : ∀ p ∈ s.me.live, p.hmode = .none) (hc : ∀ p ∈ s.me.cur :: s.me.paths, p.Calm)
    (hw : ∃ p ∈ s.me.live, ∀ a b, p.st ≠ .join a b) {q : Preempt} (ht : s.tryPre = s.setPre q) (hq : q.st ≠ .hnd) : s.settle = s.setPre q := by
  obtain ⟨p, hp, hst⟩ := hw
  rw [settle_of_live hex (List.ne_nil_of_mem hp), retrap_of_ordinary hord hc, ht, preCheck_of_not_hnd hq]
  refine releaseJoins_of_none fun m => ?_
  cases m with
  | none => exact toRelease_of_waiting_class ⟨p, hp, hord p hp, hst⟩
  | trap => exact toRelease_of_no_path fun p hp => (hord p hp).symm ▸ nofun
  | pre => exact toRelease_of_no_path fun p hp => (hord p hp).symm ▸ nofun

end

/-! ### trap.ret (R131) -/

section
variable {s : State}

theorem exec_trapRet_replay (hm : s.me.cur.hmode = .trap) : exec (.trapRet .replay) s = .next (s.leaveHandler (s.me.cur.tpc, s.me.cur.twpos)) := by
  show execTrapRet .replay s = _
  simp only [execTrapRet, hm]

theorem exec_trapRet_next (hm : s.me.cur.hmode = .trap) : exec (.trapRet .next) s = .next (s.leaveHandler (s.me.cur.tnpc, s.me.cur.tnwpos)) := by
  show execTrapRet .next s = _
  simp only [execTrapRet, hm]

theorem exec_trapRet_resume (hm : s.me.cur.hmode = .pre) :
    exec (.trapRet .resume) s = .next (if s.me.pre.st = .resumed then s.endPrePath else s.progErr 0x0503 0) := by
  show execTrapRet .resume s = _
  simp only [execTrapRet, hm]

/-- The mode of the handlers that a trap.ret returns from. -/
def returnMode : TrapRet → Hmode
  | .resume => .pre
  | _ => .trap

theorem exec_trapRet_of_other {k : TrapRet} (hm : s.me.cur.hmode ≠ returnMode k) : exec (.trapRet k) s = .next (s.progErr 0x0503 0) := by
  show execTrapRet k s = _
  cases h : s.me.cur.hmode with
  | none => simp only [execTrapRet, h]
  | trap =>
    obtain rfl : k = .resume := by
      cases k with
      | resume => rfl
      | _ => exact absurd h hm
    simp only [execTrapRet, h]
  | pre =>
    cases k with
    | resume => exact absurd h hm
    | _ => simp only [execTrapRet, h]

/-- In an untraced warp whose other paths are ordinary, the path leaves its trap handler for a place, where the warp is asked for nothing. -/
theorem leaveHandler_eq (htr : s.me.trc.on = false) (hex : s.me.exited = false) (hmask : s.me.cur.mask ≠ 0) (hst : s.me.cur.st = .ready)
    (hrun : s.me.pre.st = .run) (hothers : ∀ q ∈ s.me.paths, q.hmode = .none ∧ q.Calm) (pl : Place) :
    s.leaveHandler pl = s.setCur { s.me.cur with pc := pl.1, wpos := pl.2, hmode := .none } := by
  have hplain : (s.setCur { s.me.cur with pc := pl.1, wpos := pl.2, hmode := .none }).me.Plain :=
    ⟨htr, hex, hrun, List.forall_mem_cons.mpr ⟨rfl, fun q hq => (hothers q hq).1⟩⟩
  have hcalm : ∀ q ∈ { s.me.cur with pc := pl.1, wpos := pl.2, hmode := .none } :: s.me.paths, q.Calm :=
    List.forall_mem_cons.mpr ⟨calm_of_ready hst, fun q hq => (hothers q hq).2⟩
  rw [State.leaveHandler, traceBranch_off _ _ _ htr]
  exact settle_of_waiting hplain hcalm ⟨_, List.mem_filter.mpr ⟨.head _, bne_iff_ne.mpr hmask⟩, fun a b => hst.trans_ne nofun⟩

/-- The state of a warp's pre-emption machine after its last handler path: RUN, or a request that waited for it (R131, R133). -/
def Preempt.afterHandler (q : Preempt) : Preempt :=
  match q.second with
  | some (r, hard) => { q with st := .pending, reason := r, hard := hard, second := none, hnd := false, byDone := false }
  | none => { q with st := .run, hnd := false, byDone := false }

theorem afterHandler_of_none {q : Preempt} (h : q.second = none) : q.afterHandler = { q with st := .run, hnd := false, byDone := false } := by
  cases q
  cases h
  rfl

theorem afterHandler_of_some {q : Preempt} {r : PreReason} {hard : BitVec 64} (h : q.second = some (r, hard)) :
    q.afterHandler = { q with st := .pending, reason := r, hard := hard, second := none, hnd := false, byDone := false } := by
  cases q
  cases h
  rfl

/-- The warp in focus without the handler path in focus, which was its last. -/
def State.handlerEnded (s : State) : State :=
  { s with me := { s.me with cur := { s.me.cur with mask := 0 }, overflow := s.me.overflow.filter (fun i => i != s.me.cur.id), pre := s.me.pre.afterHandler } }

theorem handlerEnded_live : s.handlerEnded.me.live = s.me.paths.filter fun p => p.mask != 0 := rfl

theorem endPrePath_of_last (htr : s.me.trc.on = false) (hothers : ∀ q ∈ s.me.paths, q.hmode = .none) : s.endPrePath = s.handlerEnded.settle := by
  have hno : ¬ ((s.me.paths.filter fun p => p.mask != 0).any fun q => q.hmode == .pre) = true := fun h => by
    obtain ⟨q, hq, hm⟩ := List.any_eq_true.mp h
    rw [hothers q (List.mem_of_mem_filter hq)] at hm
    cases hm
  rw [State.endPrePath, trace_off _ _ _ _ _ htr]
  refine (if_neg hno).trans ?_
  dsimp only
  rw [State.handlerEnded, Preempt.afterHandler]
  cases s.me.pre.second <;> rfl

/-- Where an interrupted path goes on, the end of the last handler path is followed by what a request that waited does. -/
theorem endPrePath_eq (htr : s.me.trc.on = false) (hex : s.me.exited = false) (hst : s.me.cur.st = .ready) (hothers : ∀ q ∈ s.me.paths, q.hmode = .none ∧ q.Calm)
    (hgoes : ∃ q ∈ s.me.paths, q.mask ≠ 0 ∧ q.st = .ready) {q : Preempt} (ht : s.handlerEnded.tryPre = s.handlerEnded.setPre q) (hq : q.st ≠ .hnd) :
    s.endPrePath = s.handlerEnded.setPre q := by
  obtain ⟨r, hr, hm, hrst⟩ := hgoes
  rw [endPrePath_of_last htr fun q hq => (hothers q hq).1]
  refine settle_of_ordinary (s := s.handlerEnded) hex (fun p hp => ?_) ?_ ⟨r, ?_, fun a b => hrst.trans_ne nofun⟩ ht hq
  · exact (hothers p (List.mem_of_mem_filter (handlerEnded_live ▸ hp))).1
  · exact List.forall_mem_cons.mpr ⟨calm_of_ready hst, fun q hq => (hothers q hq).2⟩
  · exact handlerEnded_live ▸ List.mem_filter.mpr ⟨hr, bne_iff_ne.mpr hm⟩

end

/-! ### pre.done (R135) -/

section
variable {s : State} {a : BitVec 6}

theorem exec_preDone_of_other (hm : s.me.cur.hmode ≠ .pre) : exec (.preDone a) s = .next (s.progErr 0x0504 0) := congrArg _ (if_pos hm)

theorem exec_preDone_of_pre (hm : s.me.cur.hmode = .pre) :
    exec (.preDone a) s = .next (if s.me.pre.st = .resumed then s.jump ((s.uu a).setWidth 48) else (s.hold (.preDone (s.uu a))).settle) :=
  congrArg _ (if_neg (not_not.mpr hm))

theorem preCheck_of_done (hst : s.me.pre.st = .hnd) (hne : ∃ p ∈ s.me.live, p.hmode = .pre)
    (hall : ∀ p ∈ s.me.live, p.hmode = .pre → ∃ r, p.st = .held (.preDone r)) : s.preCheck = s.setPre { s.me.pre with st := .drain } := by
  refine if_pos ?_
  rw [hst, Bool.and_eq_true, Bool.and_eq_true, bne_iff_ne, List.all_eq_true]
  refine ⟨⟨rfl, ?_⟩, fun p hp => ?_⟩
  · obtain ⟨p, hp, hm⟩ := hne
    exact List.ne_nil_of_mem (List.mem_filter.mpr ⟨hp, beq_iff_eq.mpr hm⟩)
  · obtain ⟨hp, hm⟩ := List.mem_filter.mp hp
    obtain ⟨r, hr⟩ := hall p hp (beq_iff_eq.mp hm)
    rw [hr]

/-- The only handler path of a warp is at pre.done: the warp drains. -/
theorem settle_of_done {r : BitVec 64} (hex : s.me.exited = false) (hmask : s.me.cur.mask ≠ 0) (hm : s.me.cur.hmode = .pre) (hst : s.me.pre.st = .hnd)
    (hd : s.me.cur.st = .held (.preDone r)) (hothers : ∀ q ∈ s.me.paths, q.hmode = .none) : s.settle = s.setPre { s.me.pre with st := .drain } := by
  have hcur : s.me.cur ∈ s.me.live := List.mem_filter.mpr ⟨.head _, bne_iff_ne.mpr hmask⟩
  have hhandler : ∃ p ∈ s.me.live, p.hmode ≠ .none := ⟨_, hcur, hm.trans_ne nofun⟩
  have hcheck := preCheck_of_done hst ⟨_, hcur, hm⟩ fun p hp hpm => by
    rcases List.mem_cons.mp (mem_of_live hp) with rfl | hp
    · exact ⟨r, hd⟩
    · cases (hothers p hp).symm.trans hpm
  rw [settle_of_live hex (List.ne_nil_of_mem hcur), retrap_of_handler hhandler, tryPre_of_not_pending (hst.trans_ne nofun), hcheck]
  refine releaseJoins_of_none fun m => ?_
  cases m with
  | none => exact toRelease_of_handler hhandler
  | trap =>
    refine toRelease_of_no_path fun p hp hpm => ?_
    rcases List.mem_cons.mp (mem_of_live hp) with rfl | hp
    · cases hm.symm.trans hpm
    · cases (hothers p hp).symm.trans hpm
  | pre => exact toRelease_of_waiting_class ⟨_, hcur, hm, fun a b => hd.trans_ne nofun⟩

end

end Sys2Proof.Machine

namespace Sys2Proof

open Machine in
/-- Settles O19: each return by the mode of its path, with what follows it in the warp; and pre.mask by what a pending request does. -/
theorem handlerReturns : Obligations.HandlerReturns := by
  unfold Obligations.HandlerReturns
  intro s htr hex hmask hothers p hard goes
  refine ⟨fun hm hst hrun => ?leave, fun hm hst hres hsec hgoes => ?resume, fun hm => ⟨exec_trapRet_of_other hm, exec_trapRet_of_other hm⟩, fun h => ?resumeErr,
    fun a hm => exec_preDone_of_other hm, fun a hm hres => ?jumps, fun a hm hst => ?drains, fun hm hst hres hgoes hb r h hsec => ?second,
    fun k hp => ⟨_, rfl, tryPre_of_not_pending hp⟩, fun hp hst => ?masked, fun k hp hb => ⟨_, rfl, tryPre_of_hard hp (.inl hb)⟩⟩
  case leave =>
    have hleave := leaveHandler_eq htr hex hmask hst hrun hothers
    exact ⟨⟨_, exec_trapRet_replay hm, hleave _⟩, _, exec_trapRet_next hm, hleave _⟩
  case resume =>
    have hpre := afterHandler_of_none hsec
    have htry : s.handlerEnded.tryPre = s.handlerEnded.setPre s.me.pre.afterHandler :=
      tryPre_of_not_pending ((congrArg Preempt.st hpre).trans_ne nofun)
    refine ⟨_, (exec_trapRet_resume hm).trans (congrArg _ (if_pos hres)), ?_⟩
    rw [endPrePath_eq htr hex hst hothers hgoes htry ((congrArg Preempt.st hpre).trans_ne nofun), hpre]
    rfl
  case resumeErr =>
    by_cases hm : s.me.cur.hmode = .pre
    · rw [exec_trapRet_resume hm, if_neg (h.resolve_left (not_not.mpr hm))]
    · exact exec_trapRet_of_other hm
  case jumps => exact ⟨_, (exec_preDone_of_pre hm).trans (congrArg _ (if_pos hres)), jump_of_untraced htr _⟩
  case drains =>
    have hne : s.me.pre.st ≠ .resumed := hst.trans_ne nofun
    refine ⟨_, (exec_preDone_of_pre hm).trans (congrArg _ (if_neg hne)), ?_⟩
    exact settle_of_done (s := s.hold (.preDone (s.uu a))) hex hmask hm hst rfl fun q hq => (hothers q hq).1
  case second =>
    have hpre := afterHandler_of_some hsec
    refine ⟨_, (exec_trapRet_resume hm).trans (congrArg _ (if_pos hres)), ?_⟩
    have htry : s.handlerEnded.tryPre = s.handlerEnded.setPre { s.me.pre.afterHandler with st := .hard } := tryPre_of_hard (congrArg Preempt.st hpre) (.inl hb)
    rw [endPrePath_eq htr hex hst hothers hgoes htry nofun, hpre]
    rfl
  case masked =>
    intro m u h hv h0 hu
    have hno : ¬ m.me.Stopped := fun ⟨q, hq, k, hk⟩ => hst q hq k hk
    refine ⟨_, rfl, tryPre_of_waiting (s := m) hp hno hv h0 (.inl (congrArg (fun x : Warp => x.pre.mask) hu))⟩

end Sys2Proof

/-! The end of a context (05_events R132), refuted by two gangs of one number. -/

namespace Sys2Proof.Machine

/-- A context that has ended and began nothing, beside another context's gang of the same number whose array is at work. -/
def twoGangsOfOneNumber : State :=
  { gang := { gid := 1 }, gangs := [{ gid := 1, asid := 1, array := some {} }], ctxs := [(0, { ending := some {} })] }

/-- The model waits for the other context's array, since it knows a context's gangs by their numbers alone. -/
theorem contextFaultRecord_waits : exec (.contextFaultRecord 0) twoGangsOfOneNumber = .next (twoGangsOfOneNumber.wind 0) := by
  have hwinding : ((twoGangsOfOneNumber.wind 0).winding 0 || (twoGangsOfOneNumber.wind 0).windowMiss) = true := by decide
  calc exec (.contextFaultRecord 0) twoGangsOfOneNumber
    _ = .next (if (twoGangsOfOneNumber.wind 0).winding 0 || (twoGangsOfOneNumber.wind 0).windowMiss then twoGangsOfOneNumber.wind 0
          else (twoGangsOfOneNumber.wind 0).endRecord 0 {}) := rfl
    _ = .next (twoGangsOfOneNumber.wind 0) := by rw [if_pos hwinding]

/-- Nothing that context 0 began is still to perform: the one gang of it has an idle array. -/
theorem twoGangsOfOneNumber_idle : ∀ g, g ∈ twoGangsOfOneNumber.gang :: twoGangsOfOneNumber.gangs → g.asid = 0 → g.array = none := by
  intro g hg hasid
  rcases List.mem_pair.mp hg with rfl | rfl
  · rfl
  · exact absurd hasid (by decide)

end Sys2Proof.Machine

namespace Sys2Proof

open Machine in
/-- Refutes O55: what a context began is read from the numbers of its gangs alone. In `twoGangsOfOneNumber` nothing that context 0 began is still to perform,
but the array at work of context 1's gang, which has the same number, keeps the model waiting and the end is not recorded. -/
theorem not_contextEnd : ¬ Obligations.ContextEnd := by
  intro h
  obtain ⟨-, hend⟩ := h twoGangsOfOneNumber 0 rfl
  obtain ⟨-, hover⟩ := hend {} rfl
  obtain ⟨t, ht, hctx, -⟩ := hover (by
    rintro (⟨a, ha, -⟩ | ⟨o, ho, -⟩ | ⟨g, ⟨hg, -, hasid⟩, harray⟩)
    · exact List.not_mem_nil ha
    · exact List.not_mem_nil ho
    · exact harray (twoGangsOfOneNumber_idle g hg hasid)) (by decide)
  obtain rfl : twoGangsOfOneNumber.wind 0 = t := Host.Outcome.next.inj (contextFaultRecord_waits.symm.trans ht)
  have hnone : ((twoGangsOfOneNumber.wind 0).ctx 0).ending = none := congrArg Ctx.ending hctx
  exact absurd hnone (by decide)

end Sys2Proof

/-! Pre-emption and saves (05_events R138), refuted by a wait on a path without lanes. -/

namespace Sys2Proof.Machine

/-- A resident gang of 1 KiB whose one warp is SAVED: its path in focus is READY, and another, which has no lane left, stands held at an mwait on the gang's
local memory. -/
def savedBesideEndedWait : State :=
  { me := { gid := 1, cur := { mask := 1 }, paths := [{ id := 1, st := .held (.mwait .eq false 0xFFF0000000000000 0 0 0 []) }], pre := { st := .saved } }
    gang := { gid := 1, st := .resident, localk := 1 } }

/-- The save makes the wait note that its location moves (`rewatchLocal`), on the path without lanes as on any other. -/
theorem rewatchLocal_savedBesideEndedWait :
    (savedBesideEndedWait.rewatchLocal savedBesideEndedWait.gang).me.paths =
      [{ id := 1, st := .held (.mwait .eq false 0xFFF0000000000000 0 0 0 [(localKey 0 0, 0, 0)]) }] := by
  decide

/-- The save of the gang: its local memory and the warp's stack move, and the gang is saved. -/
theorem gangSave_savedBesideEndedWait :
    exec (.gangSave 1) savedBesideEndedWait = .next ((((savedBesideEndedWait.rewatchLocal savedBesideEndedWait.gang).move (localKey 0 0) (savedKey 1 0) 1024).move 0
      (savedStack 1 0) stackBytes).setGang { savedBesideEndedWait.gang with st := .saved, saves := true }) := rfl

end Sys2Proof.Machine

namespace Sys2Proof

open Machine in
/-- What O42 says of a gang's save, for a gang of one warp with nothing under way: the warp in focus is left as it was. -/
theorem me_of_gangSave_of_preemptionAndSaves (h : Obligations.PreemptionAndSaves) {s : State} (hid : s.me.gid ≠ 0) (hgid : s.gang.gid = s.me.gid)
    (hres : s.gang.st = .resident) (hwarps : s.warps = []) (hex : s.me.exited = false) (htr : s.me.trc.on = false) (hw : s.me.w < 32)
    (hsaved : s.me.pre.st = .saved) (hops : s.ops = []) (haccs : s.accs = []) (hqueue : s.gang.queue = []) (harray : s.gang.array = none)
    (hcore : s.coreNo < 96) (hlocal : s.gang.base + s.gang.localk * 1024 ≤ 2 ^ 20) (hev : s.me.ev = [])
    (hlive : ∀ q ∈ s.me.live, q.st = .ready) (hstack : s.me.stack + 65536 ≤ gddrTop) :
    Gives (.gangSave s.me.gid) s fun t => t.me = s.me := by
  obtain ⟨hall, -⟩ := h
  obtain ⟨-, -, -, -, -, -, hsave, -, -⟩ := hall s hid hgid hres (by simp [hwarps]) hex htr hw
  obtain ⟨t, ht, -, hme, -⟩ := hsave hsaved (by simp [hops]) (by simp [haccs]) hqueue harray hcore hlocal
    ⟨by simp [hev], fun q hq c wide a v since frame past hst => nomatch (hlive q hq).symm.trans hst⟩ hstack (by simp [hops]) (by simp [hops])
  exact ⟨t, ht, hme⟩

open Machine in
/-- Refutes O42: the gang's save is said to leave the warp in focus as it was where no live path watches the gang's local memory, but the model makes
every listed path's wait note the move, and in `savedBesideEndedWait` a path without lanes stands at one. -/
theorem not_preemptionAndSaves : ¬ Obligations.PreemptionAndSaves := by
  intro h
  have hlive : ∀ q ∈ savedBesideEndedWait.me.live, q.st = .ready := by decide
  obtain ⟨t, ht, hme⟩ := me_of_gangSave_of_preemptionAndSaves h (s := savedBesideEndedWait) (by decide) rfl rfl rfl rfl rfl (by decide) rfl rfl rfl rfl rfl
    (by decide) (by decide) rfl hlive (by decide)
  obtain rfl := Host.Outcome.next.inj (gangSave_savedBesideEndedWait.symm.trans ht)
  have hpaths := rewatchLocal_savedBesideEndedWait.symm.trans (congrArg Warp.paths hme)
  exact absurd hpaths (by decide)

end Sys2Proof

/-! Integer instructions of one word (06_integer R140 to R156): what one lane computes is what the uniform form computes once. -/

namespace Sys2Proof.Machine

/-! ### The two register forms of an operation (R140, R155), and its immediate forms (R151, R156) -/

section
variable {s : State}

/-- An operation of one source that counts or weighs bits, on lanes and on uniform registers. -/
theorem gives_count {i : BitVec 7 → BitVec 7 → Instr} {j : BitVec 6 → BitVec 6 → Instr} {f : Word → Word} {g : Word → Nat}
    (hi : ∀ d a, exec (i d a) s = .next (s.map1 d a f)) (hj : ∀ d a, exec (j d a) s = .next (s.setU d (f (s.u a))))
    (h : ∀ a, f a = BitVec.ofNat 32 (g a)) :
    (∀ d a, Gives (i d a) s fun t => LaneResult s t d fun l => BitVec.ofNat 32 (g (s.v a l))) ∧
    ∀ d a, Gives (j d a) s fun t => UniformResult s t (one d (BitVec.ofNat 32 (g (s.u a)))) :=
  ⟨fun d a => gives_setV (hi d a) fun l => h (s.v a l), fun d a => gives_setU (hj d a) (h (s.u a))⟩

/-- An operation of two sources on lanes and on uniform registers. -/
theorem gives_binary {i : BitVec 7 → BitVec 7 → BitVec 7 → Instr} {j : BitVec 6 → BitVec 6 → BitVec 6 → Instr} {f g : Word → Word → Word}
    (hi : ∀ d a b, exec (i d a b) s = .next (s.map2 d a b f)) (hj : ∀ d a b, exec (j d a b) s = .next (s.setU d (f (s.u a) (s.u b))))
    (h : ∀ a b, f a b = g a b) :
    (∀ d a b, Gives (i d a b) s fun t => LaneResult s t d fun l => g (s.v a l) (s.v b l)) ∧
    ∀ d a b, Gives (j d a b) s fun t => UniformResult s t (one d (g (s.u a) (s.u b))) :=
  ⟨fun d a b => gives_setV (hi d a b) fun l => h (s.v a l) (s.v b l), fun d a b => gives_setU (hj d a b) (h (s.u a) (s.u b))⟩

/-- The same bit by bit. -/
theorem gives_binary_bits {i : BitVec 7 → BitVec 7 → BitVec 7 → Instr} {j : BitVec 6 → BitVec 6 → BitVec 6 → Instr} {f : Word → Word → Word}
    {g : Word → Word → Nat → Bool} (hi : ∀ d a b, exec (i d a b) s = .next (s.map2 d a b f))
    (hj : ∀ d a b, exec (j d a b) s = .next (s.setU d (f (s.u a) (s.u b)))) (h : ∀ a b k, k < 32 → (f a b).getLsbD k = g a b k) :
    (∀ d a b, Gives (i d a b) s fun t => ∃ f, LaneResult s t d f ∧ ∀ l k, l < 32 → k < 32 → (f l).getLsbD k = g (s.v a l) (s.v b l) k) ∧
    ∀ d a b, Gives (j d a b) s fun t => ∃ r, UniformResult s t (one d r) ∧ ∀ k, k < 32 → r.getLsbD k = g (s.u a) (s.u b) k :=
  ⟨fun d a b => gives_setV_bits (hi d a b) fun l => h (s.v a l) (s.v b l), fun d a b => gives_setU_bits (hj d a b) (h (s.u a) (s.u b))⟩

/-- The same with a zero-extended immediate for the second source. -/
theorem gives_immediate_bits {m n : Nat} {i : BitVec 7 → BitVec 7 → Imm m → Instr} {j : BitVec 6 → BitVec 6 → Imm n → Instr} {f : Word → Word → Word}
    {g : Word → Word → Nat → Bool} (hi : ∀ d a v, exec (i d a v) s = .next (s.map1 d a fun a => f a (immZ v)))
    (hj : ∀ d a v, exec (j d a v) s = .next (s.setU d (f (s.u a) (immZ v)))) (h : ∀ a b k, k < 32 → (f a b).getLsbD k = g a b k) :
    (∀ d a v, Gives (i d a v) s fun t => ∃ f, LaneResult s t d f ∧ ∀ l k, l < 32 → k < 32 → (f l).getLsbD k = g (s.v a l) (immZ v) k) ∧
    ∀ d a v, Gives (j d a v) s fun t => ∃ r, UniformResult s t (one d r) ∧ ∀ k, k < 32 → r.getLsbD k = g (s.u a) (immZ v) k :=
  ⟨fun d a v => gives_setV_bits (hi d a v) fun l => h (s.v a l) (immZ v), fun d a v => gives_setU_bits (hj d a v) (h (s.u a) (immZ v))⟩

end

/-! ### Bits of andn (R148) -/

theorem andn_bit (a b : Word) {i : Nat} (hi : i < 32) : (a &&& ~~~b).getLsbD i = (a.getLsbD i && !b.getLsbD i) := by
  rw [BitVec.getLsbD_and, BitVec.getLsbD_not, decide_eq_true hi, Bool.true_and]

/-! ### Immediates (02_encoding R29, R32) -/

theorem immS_eq {n : Nat} (i : Imm n) : immS i = match i with | .short v => BitVec.ofInt 32 v.toInt | .long v => v := by cases i <;> rfl

theorem immZ_eq {n : Nat} (i : Imm n) : immZ i = match i with | .short v => BitVec.ofNat 32 v.toNat | .long v => v := by
  cases i with
  | short v => exact (BitVec.ofNat_toNat ..).symm
  | long v => rfl

end Sys2Proof.Machine

namespace Sys2Proof

open Machine

/-- Settles O1: each form by the rule for operations on both files, with what the helper of its operation computes. -/
theorem integerArithmetic : Obligations.IntegerArithmetic := by
  unfold Obligations.IntegerArithmetic
  intro s
  refine ⟨?_, fun d a b => gives_setV rfl fun l => mad_ofNat _ _ _, fun d a b => gives_setU rfl (mad_ofNat _ _ _),
    fun d a => gives_setV rfl fun l => absW_eq _, fun d a => gives_setU rfl (absW_eq _),
    fun d a => gives_setV rfl fun l => neg_ofInt _, fun d a => gives_setU rfl (neg_ofInt _),
    fun d a b => gives_setVV rfl fun l => lea_eq _ _, fun d a b => gives_setUU rfl (lea_eq _ _),
    fun d a b => gives_setVV rfl fun l => add64_ofNat _ _, fun d a b => gives_setUU rfl (add64_ofNat _ _)⟩
  simp only [List.forall_mem_cons]
  exact ⟨gives_binary (fun _ _ _ => rfl) (fun _ _ _ => rfl) add_ofNat, gives_binary (fun _ _ _ => rfl) (fun _ _ _ => rfl) sub_ofInt,
    gives_binary (fun _ _ _ => rfl) (fun _ _ _ => rfl) mul_ofNat, gives_binary (fun _ _ _ => rfl) (fun _ _ _ => rfl) mulhI_eq,
    gives_binary (fun _ _ _ => rfl) (fun _ _ _ => rfl) mulhN_eq, gives_binary (fun _ _ _ => rfl) (fun _ _ _ => rfl) minI_eq,
    gives_binary (fun _ _ _ => rfl) (fun _ _ _ => rfl) minN_eq, gives_binary (fun _ _ _ => rfl) (fun _ _ _ => rfl) maxI_eq,
    gives_binary (fun _ _ _ => rfl) (fun _ _ _ => rfl) maxN_eq, nofun⟩

/-- Settles O2: each form by the rule for operations on both files, with the bits that the helper of its operation gives. -/
theorem logicShiftsAndFields : Obligations.LogicShiftsAndFields := by
  unfold Obligations.LogicShiftsAndFields
  refine ⟨fun s => ⟨fun x hx => ?_, fun x hx => ?_⟩, fun s => ⟨fun x hx => ?_, ?_, ?_⟩⟩
  · simp only [List.mem_cons, List.not_mem_nil, or_false] at hx
    rcases hx with rfl | rfl | rfl | rfl | rfl | rfl | rfl | rfl
    · exact gives_binary_bits (fun _ _ _ => rfl) (fun _ _ _ => rfl) fun a b _ _ => BitVec.getLsbD_and (x := a) (y := b)
    · exact gives_binary_bits (fun _ _ _ => rfl) (fun _ _ _ => rfl) fun a b _ _ => BitVec.getLsbD_or (x := a) (y := b)
    · exact gives_binary_bits (fun _ _ _ => rfl) (fun _ _ _ => rfl) fun a b _ _ => BitVec.getLsbD_xor (x := a) (y := b)
    · exact gives_binary_bits (fun _ _ _ => rfl) (fun _ _ _ => rfl) fun a b _ => andn_bit a b
    · exact gives_binary_bits (fun _ _ _ => rfl) (fun _ _ _ => rfl) shl_bit
    · exact gives_binary_bits (fun _ _ _ => rfl) (fun _ _ _ => rfl) fun a c i _ => shr_bit a c i
    · exact gives_binary_bits (fun _ _ _ => rfl) (fun _ _ _ => rfl) sarW_bit
    · exact gives_binary_bits (fun _ _ _ => rfl) (fun _ _ _ => rfl) rotW_getLsbD
  · simp only [List.mem_cons, List.not_mem_nil, or_false] at hx
    rcases hx with rfl | rfl | rfl
    · exact gives_count (fun _ _ => rfl) (fun _ _ => rfl) clzW_eq
    · exact gives_count (fun _ _ => rfl) (fun _ _ => rfl) popW_eq
    · exact gives_count (fun _ _ => rfl) (fun _ _ => rfl) brevW_eq
  · simp only [List.mem_cons, List.not_mem_nil, or_false] at hx
    rcases hx with rfl | rfl | rfl | rfl
    · exact gives_binary_bits (fun _ _ _ => rfl) (fun _ _ _ => rfl) fun a b i _ => bfeN_bit a b i
    · exact gives_binary_bits (fun _ _ _ => rfl) (fun _ _ _ => rfl) bfeI_bit
    · exact gives_binary_bits (fun _ _ _ => rfl) (fun _ _ _ => rfl) bilvW_bit
    · exact gives_binary_bits (fun _ _ _ => rfl) (fun _ _ _ => rfl) bdlvW_bit
  · exact fun d a b => gives_setV_bits rfl fun l => bfiW_bit _ _ _
  · exact fun d a b => gives_setU_bits rfl (bfiW_bit _ _ _)

/-- Settles O3: an immediate form computes what its register form does, with the immediate's value for the second source. -/
theorem immediates : Obligations.Immediates := by
  unfold Obligations.Immediates
  intro s signed unsigned
  have hu {n : Nat} (v : Imm n) : unsigned v = immZ v := (immZ_eq v).symm
  simp only [List.forall_mem_cons, hu]
  refine ⟨fun d i => gives_setV rfl fun _ => immS_eq i, fun d i => gives_setU rfl (immS_eq i),
    fun d a i => gives_setV rfl fun l => immS_eq i ▸ add_ofNat _ _, fun d a i => gives_setU rfl (immS_eq i ▸ add_ofNat _ _), ?_, ?_, ?_, ?_, ?_, ?_, nofun⟩
  · exact gives_immediate_bits (fun _ _ _ => rfl) (fun _ _ _ => rfl) fun a b _ _ => BitVec.getLsbD_and (x := a) (y := b)
  · exact gives_immediate_bits (fun _ _ _ => rfl) (fun _ _ _ => rfl) fun a b _ _ => BitVec.getLsbD_or (x := a) (y := b)
  · exact gives_immediate_bits (fun _ _ _ => rfl) (fun _ _ _ => rfl) fun a b _ _ => BitVec.getLsbD_xor (x := a) (y := b)
  · exact gives_immediate_bits (fun _ _ _ => rfl) (fun _ _ _ => rfl) shl_bit
  · exact gives_immediate_bits (fun _ _ _ => rfl) (fun _ _ _ => rfl) fun a c i _ => shr_bit a c i
  · exact gives_immediate_bits (fun _ _ _ => rfl) (fun _ _ _ => rfl) sarW_bit

end Sys2Proof

/-! Comparisons and moves (06_integer R152 to R155; 01_machine R15; 02_encoding R44). -/

namespace Sys2Proof.Machine

theorem icond_eq (k : ICond) (a b : Word) : icond k a b = match k with
    | .eq => decide (a = b)
    | .ne => decide (a ≠ b)
    | .ltI => decide (a.toInt < b.toInt)
    | .leI => decide (a.toInt ≤ b.toInt)
    | .gtI => decide (a.toInt > b.toInt)
    | .geI => decide (a.toInt ≥ b.toInt)
    | .ltN => decide (a.toNat < b.toNat)
    | .leN => decide (a.toNat ≤ b.toNat)
    | .gtN => decide (a.toNat > b.toNat)
    | .geN => decide (a.toNat ≥ b.toNat) := by
  cases k with
  | ne => exact Bool.eq_iff_iff.mpr (by simp [icond])
  | _ => rfl

section
variable {s : State}

/-- A special register of 32 bits in every lane. -/
theorem gives_movs {d : BitVec 7} {x : Special} (hx : x ≠ .time ∧ x ≠ .cyc) : Gives (.movs d x) s fun t => LaneResult s t d fun l => s.special x l := by
  refine gives_setV ?_ fun l => rfl
  cases x with
  | time => exact absurd rfl hx.1
  | cyc => exact absurd rfl hx.2
  | _ => rfl

theorem gives_movsU {d : BitVec 6} {x : Special} (hx : x ≠ .time ∧ x ≠ .cyc) : Gives (.movsU d x) s fun t => UniformResult s t (one d (s.special x 0)) := by
  refine gives_setU ?_ rfl
  cases x with
  | time => exact absurd rfl hx.1
  | cyc => exact absurd rfl hx.2
  | _ => rfl

end

end Sys2Proof.Machine

namespace Sys2Proof

open Machine

/-- Settles O4: comparisons by their conditions on values, special registers one by one, the hash by its steps over natural numbers. -/
theorem compareSelectMove : Obligations.CompareSelectMove := by
  unfold Obligations.CompareSelectMove
  refine ⟨fun s => ?_, fun s => ?_⟩
  · intro holds
    have hk (k : ICond) (a b : Word) : icond k a b = holds k a b := by
      cases k with | _ => exact icond_eq _ a b
    exact ⟨fun k p a b => gives_setP rfl fun l => hk k _ _, fun d a b k => gives_setU rfl (by rw [hk])⟩
  · intro c cluster wide narrow mix
    have hnarrow (x : Special) (hx : x ≠ .time ∧ x ≠ .cyc) (l : Nat) : narrow x l (s.special x l) := by
      obtain ⟨ht, hc⟩ := hx
      cases x with
      | time => exact absurd rfl ht
      | cyc => exact absurd rfl hc
      | lane => exact .inl ⟨rfl, rfl⟩
      | warp => exact .inr (.inl ⟨rfl, rfl⟩)
      | gang => exact .inr (.inr (.inl ⟨rfl, rfl⟩))
      | task => exact .inr (.inr (.inr (.inl ⟨rfl, rfl⟩)))
      | core => exact .inr (.inr (.inr (.inr (.inl ⟨rfl, rfl⟩))))
      | stack => exact .inr (.inr (.inr (.inr (.inr (.inl ⟨rfl, rfl⟩)))))
      | cluster => exact .inr (.inr (.inr (.inr (.inr (.inr (.inl ⟨rfl, rfl⟩))))))
      | plvl => exact .inr (.inr (.inr (.inr (.inr (.inr (.inr ⟨rfl, rfl⟩))))))
    refine ⟨fun d a b p => gives_setV rfl fun l => rfl, fun d a => gives_setV rfl fun l => rfl, fun d a => gives_setU rfl rfl, fun d x => ?_,
      fun d x _ => ?_, fun d a b => gives_setV rfl fun l => mix32_eq _ _, fun d a b => gives_setU rfl (mix32_eq _ _)⟩
    · by_cases hx : x ≠ .time ∧ x ≠ .cyc
      · obtain ⟨t, ht, hr⟩ := gives_movs (s := s) (d := d) hx
        exact ⟨t, ht, .inl ⟨_, hr, hnarrow x hx⟩⟩
      · rcases or_iff_not_and_not.mpr hx with rfl | rfl
        · exact ⟨_, rfl, .inr ⟨s.now, .inl ⟨rfl, rfl⟩, setVV_result s d _⟩⟩
        · exact ⟨_, rfl, .inr ⟨s.cycNow, .inr ⟨rfl, rfl⟩, setVV_result s d _⟩⟩
    · by_cases hx : x ≠ .time ∧ x ≠ .cyc
      · obtain ⟨t, ht, hr⟩ := gives_movsU (s := s) (d := d) hx
        exact ⟨t, ht, .inl ⟨_, hnarrow x hx 0, hr⟩⟩
      · rcases or_iff_not_and_not.mpr hx with rfl | rfl
        · exact ⟨_, rfl, .inr ⟨s.now, .inl ⟨rfl, rfl⟩, setUU_result s d _⟩⟩
        · exact ⟨_, rfl, .inr ⟨s.cycNow, .inr ⟨rfl, rfl⟩, setUU_result s d _⟩⟩

end Sys2Proof

/-! Instructions that work across the lanes of a path (06_integer R157, R160). -/

namespace Sys2Proof.Machine

/-! ### Active lanes -/

section
variable {s : State}

/-- Only what is said of the active lanes counts. -/
theorem LaneResult.congr {t : State} {d : BitVec 7} {f g : Nat → Word} (h : LaneResult s t d f) (hfg : ∀ l, l < 32 → s.act l = true → f l = g l) :
    LaneResult s t d g := by
  obtain ⟨honly, hregs, hv⟩ := h
  refine ⟨honly, hregs, fun n l hl => (hv n l hl).trans ?_⟩
  split
  case isTrue hn => exact hfg l hl hn.2
  case isFalse => rfl

/-- The lowest lane of a mask. -/
theorem firstOf_eq {m : BitVec 32} {l : Nat} (hl : l < 32) (hm : m.getLsbD l = true) (hlow : ∀ k, k < l → m.getLsbD k = false) : firstOf m = l := by
  have hmem : l ∈ lanesOf m := (lanesOf_mem m l).mpr ⟨hl, hm⟩
  have hsort := lanesOf_sorted m
  unfold firstOf
  cases hc : lanesOf m with
  | nil => rw [hc] at hmem; cases hmem
  | cons k ks =>
    rw [hc] at hmem hsort
    rcases List.mem_cons.mp hmem with rfl | hks
    · rfl
    · have hk := ((lanesOf_mem m k).mp (hc ▸ List.mem_cons_self)).2
      exact absurd ((hlow k ((List.pairwise_cons.mp hsort).1 l hks)).symm.trans hk) Bool.false_ne_true

end

/-! ### Scans (R160) -/

section
variable {op : Word → Word → Word} {f : Nat → Word} {head : Nat → Bool} {l : Nat}

/-- A reduction over one lane more. -/
theorem lred_concat {ls : List Nat} (h : ls ≠ []) (m : Nat) : lred op f (ls ++ [m]) = op (lred op f ls) (f m) := by
  cases ls with
  | nil => exact absurd rfl h
  | cons k ks => simp [lred]

/-- The running value of a scan at its next lane. -/
def scanStep (op : Word → Word → Word) (f : Nat → Word) (head : Nat → Bool) (acc : Option Word) (m : Nat) : Word :=
  match acc with
  | none => f m
  | some r => if head m then f m else op r (f m)

theorem lscan_cons (acc : Option Word) (m : Nat) (ms : List Nat) : lscan op f head l acc (m :: ms) =
    if m = l then scanStep op f head acc m else lscan op f head l (some (scanStep op f head acc m)) ms := rfl

/-- The segment that a scan has run over once it is at lane `l`, from the one that it has run over before the lanes of a list. -/
def scanned (head : Nat → Bool) (l : Nat) (seg : List Nat) : List Nat → List Nat
  | [] => seg
  | m :: ms =>
    let seg := if head m then [m] else seg ++ [m]
    if m = l then seg else scanned head l seg ms

/-- A scan reduces its segment. -/
theorem lscan_eq_lred_scanned (seg ms : List Nat) :
    lscan op f head l (if seg = [] then none else some (lred op f seg)) ms = lred op f (scanned head l seg ms) := by
  induction ms generalizing seg with
  | nil => cases seg <;> rfl
  | cons m ms ih =>
    have hstep : scanStep op f head (if seg = [] then none else some (lred op f seg)) m = lred op f (if head m then [m] else seg ++ [m]) := by
      by_cases hs : seg = []
      · by_cases hm : head m = true <;> simp [scanStep, hs, hm, lred]
      · by_cases hm : head m = true
        · simp [scanStep, hs, hm, lred]
        · simp [scanStep, hs, hm, lred_concat hs]
    have hne : (if head m then [m] else seg ++ [m]) ≠ [] := by split <;> simp
    rw [lscan_cons, scanned, hstep]
    by_cases hl : m = l
    · rw [if_pos hl, if_pos hl]
    · have h := ih (if head m then [m] else seg ++ [m])
      rw [if_neg hne] at h
      rw [if_neg hl, if_neg hl, h]

/-- The lanes of a list from the last head among them on. -/
def openSegment (head : Nat → Bool) (ls : List Nat) : List Nat := ls.filter fun m => decide (∀ k ∈ ls, m < k → head k = false)

theorem openSegment_concat {ls : List Nat} {m : Nat} (h : ∀ k ∈ ls, k < m) :
    openSegment head (ls ++ [m]) = if head m then [m] else openSegment head ls ++ [m] := by
  have hlast : (∀ k ∈ ls ++ [m], m < k → head k = false) := fun k hk hlt => by
    rcases List.mem_append.mp hk with hk | hk
    · exact absurd (h k hk) hlt.asymm
    · exact absurd (List.mem_singleton.mp hk ▸ hlt) (lt_irrefl m)
  unfold openSegment
  rw [List.filter_append, List.filter_singleton, decide_eq_true hlast]
  by_cases hm : head m = true
  · have hnil : (ls.filter fun k => decide (∀ j ∈ ls ++ [m], k < j → head j = false)) = [] := List.filter_eq_nil_iff.mpr fun k hk hall =>
      Bool.false_ne_true ((of_decide_eq_true hall m (by simp) (h k hk)).symm.trans hm)
    simp [hnil, hm]
  · have hsame : (ls.filter fun k => decide (∀ j ∈ ls ++ [m], k < j → head j = false)) = ls.filter fun k => decide (∀ j ∈ ls, k < j → head j = false) :=
      List.filter_congr fun k _ => by simp [or_imp, forall_and, hm]
    simp [hsame, hm]

/-- In lanes that rise, a scan at lane `l` runs over the lanes up to it that no head up to it lies above. -/
theorem scanned_eq {seen ms : List Nat} (hsort : (seen ++ ms).Pairwise (· < ·)) (hl : l ∈ ms) :
    scanned head l (openSegment head seen) ms =
      (seen ++ ms).filter fun m => decide (m ≤ l ∧ ∀ k ∈ seen ++ ms, m < k → k ≤ l → head k = false) := by
  induction ms generalizing seen with
  | nil => cases hl
  | cons m ms ih =>
    obtain ⟨-, hms, hseen⟩ := List.pairwise_append.mp hsort
    have hbelow : ∀ k ∈ seen, k < m := fun k hk => hseen k hk m List.mem_cons_self
    have habove : ∀ k ∈ ms, m < k := (List.pairwise_cons.mp hms).1
    have happ : seen ++ m :: ms = (seen ++ [m]) ++ ms := by simp
    rw [scanned, ← openSegment_concat hbelow]
    by_cases hml : m = l
    · subst hml
      rw [if_pos rfl, happ, List.filter_append]
      have hnil : (ms.filter fun k => decide (k ≤ m ∧ ∀ j ∈ (seen ++ [m]) ++ ms, k < j → j ≤ m → head j = false)) = [] :=
        List.filter_eq_nil_iff.mpr fun k hk hall => absurd (habove k hk) (not_lt.mpr (of_decide_eq_true hall).1)
      rw [hnil, List.append_nil]
      refine List.filter_congr fun k hk => decide_eq_decide.mpr ?_
      have hle : ∀ j ∈ seen ++ [m], j ≤ m := fun j hj => by
        rcases List.mem_append.mp hj with hj | hj
        · exact (hbelow j hj).le
        · exact (List.mem_singleton.mp hj).le
      refine ⟨fun h => ⟨hle k hk, fun j hj hkj hjm => ?_⟩, fun h j hj hkj => h.2 j (List.mem_append_left _ hj) hkj (hle j hj)⟩
      rcases List.mem_append.mp hj with hj | hj
      · exact h j hj hkj
      · exact absurd (habove j hj) (not_lt.mpr hjm)
    · rw [if_neg hml, ih (happ ▸ hsort) ((List.mem_cons.mp hl).resolve_left (Ne.symm hml)), happ]

/-- A scan over the lanes of a mask. -/
theorem lscan_lanesOf {m : BitVec 32} (hl : l ∈ lanesOf m) : lscan op f head l none (lanesOf m) =
    lred op f ((lanesOf m).filter fun k => decide (k ≤ l ∧ ∀ j ∈ lanesOf m, k < j → j ≤ l → head j = false)) := by
  have h := lscan_eq_lred_scanned (op := op) (f := f) (head := head) (l := l) [] (lanesOf m)
  rw [if_pos rfl] at h
  exact h.trans (congrArg (lred op f) (scanned_eq (seen := []) (lanesOf_sorted m) hl))

/-- A reduction as the fold of its lanes' values. -/
theorem lred_eq_foldl (ls : List Nat) : lred op f ls = match ls.map f with
    | [] => 0
    | x :: xs => xs.foldl op x := by
  cases ls with
  | nil => rfl
  | cons l ls => exact (List.foldl_map ..).symm

end

section
variable {s : State}

/-- A reduction and its scan, by their operation. -/
theorem gives_reduction {i : BitVec 7 → BitVec 7 → Instr} {j : BitVec 7 → BitVec 7 → Bool → BitVec 3 → Instr} {f g : Word → Word → Word}
    (hi : ∀ d a, exec (i d a) s = .next (s.setV d fun _ => lred f (s.v a) s.lanes))
    (hj : ∀ d a n p, exec (j d a n p) s = .next (s.setV d fun l => lscan f (s.v a) (fun m => s.p p m != n) l none s.lanes)) (h : ∀ a b, f a b = g a b) :
    (∀ d a, Gives (i d a) s fun t => LaneResult s t d fun _ => lred g (s.v a) s.lanes) ∧
    ∀ d a n p, Gives (j d a n p) s fun t => LaneResult s t d fun l =>
      lred g (s.v a) (s.lanes.filter fun m => decide (m ≤ l ∧ ∀ k ∈ s.lanes, m < k → k ≤ l → s.p p k = n)) := by
  obtain rfl : f = g := funext₂ h
  refine ⟨fun d a => gives_setV (hi d a) fun _ => rfl, fun d a n p => ⟨_, hj d a n p, (setV_result s d _).congr fun l hl hact => ?_⟩⟩
  have hhead (k : Nat) : (s.p p k != n) = false ↔ s.p p k = n := bne_eq_false_iff_eq
  have hscan := lscan_lanesOf (op := f) (f := s.v a) (head := fun m => s.p p m != n) ((mem_lanes s l).mpr ⟨hl, hact⟩)
  simp only [hhead] at hscan
  exact hscan

end

end Sys2Proof.Machine

namespace Sys2Proof

open Machine

/-- Settles O5: votes over the list of active lanes, and copies from the lane named or the lane's own. -/
theorem crossLane : Obligations.CrossLane := by
  unfold Obligations.CrossLane
  intro s from_
  refine ⟨fun d a => ⟨_, rfl, s.lanes.any (s.p a), setP_result s d _, ?_⟩, fun d a => ⟨_, rfl, s.lanes.all (s.p a), setP_result s d _, ?_⟩,
    fun d a => ⟨_, rfl, s.me.regs.getP a.toNat &&& s.me.cur.mask, setV_result s d _, fun l _ => ?_⟩, fun d a b => gives_setV rfl fun l => rfl,
    fun d a u => gives_setV rfl fun l => rfl, fun d u => gives_setV rfl fun l => rfl, fun a u l hl hact hlow => gives_setU rfl ?_⟩
  · simp only [List.any_eq_true, mem_lanes, and_assoc]
  · simp only [List.all_eq_true, mem_lanes, and_imp]
  · rw [BitVec.getLsbD_and, Bool.and_comm]
    rfl
  · exact congrArg (s.v a) (firstOf_eq hl hact hlow)

/-- Settles O6: a reduction folds the active lanes, a scan those of its segment. -/
theorem reduceAndScan : Obligations.ReduceAndScan := by
  unfold Obligations.ReduceAndScan
  intro s signed fold active segment x hx
  have hfold (op : Word → Word → Word) (a : BitVec 7) (ls : List Nat) : fold op a ls = lred op (s.v a) ls := (lred_eq_foldl ls).symm
  simp only [hfold]
  simp only [List.mem_cons, List.not_mem_nil, or_false] at hx
  rcases hx with rfl | rfl | rfl | rfl | rfl | rfl
  · exact gives_reduction (fun _ _ => rfl) (fun _ _ _ _ => rfl) add_ofNat
  · exact gives_reduction (fun _ _ => rfl) (fun _ _ _ _ => rfl) fun _ _ => rfl
  · exact gives_reduction (fun _ _ => rfl) (fun _ _ _ _ => rfl) fun _ _ => rfl
  · exact gives_reduction (fun _ _ => rfl) (fun _ _ _ _ => rfl) fun _ _ => rfl
  · exact gives_reduction (fun _ _ => rfl) (fun _ _ _ _ => rfl) fun a b => by simp [signed, minI_eq]
  · exact gives_reduction (fun _ _ => rfl) (fun _ _ _ _ => rfl) fun a b => by simp [signed, maxI_eq]

end Sys2Proof

/-! The order in which a regroup moves lanes (06_integer R162). -/

namespace Sys2Proof.Machine

/-! ### The order of lane slots -/

/-- What the order compares: a lane before a slot without one, lanes by their keys, and equal ones by warp and lane. -/
def Slot.rank (a : Slot) : Nat ×ₗ Nat ×ₗ Nat ×ₗ Nat := toLex ((!a.live).toNat, toLex (if a.live then a.key else 0, toLex (a.w, a.l)))

theorem Slot.before_iff_rank {a b : Slot} : a.before b = true ↔ a.rank < b.rank := by
  obtain ⟨aw, al, alive, akey⟩ := a
  obtain ⟨bw, bl, blive, bkey⟩ := b
  cases alive <;> cases blive
  case true.true =>
    by_cases hk : akey = bkey <;> by_cases hw : aw = bw <;> simp [Slot.before, Slot.rank, Prod.Lex.toLex_lt_toLex, hk, hw]
  case false.false =>
    by_cases hw : aw = bw <;> simp [Slot.before, Slot.rank, Prod.Lex.toLex_lt_toLex, hw]
  case true.false => simp [Slot.before, Slot.rank, Prod.Lex.toLex_lt_toLex]
  case false.true => simp [Slot.before, Slot.rank, Prod.Lex.toLex_lt_toLex]

/-- One slot lies before another by warp and lane. -/
def Slot.placedBefore (a b : Slot) : Prop := a.w < b.w ∨ (a.w = b.w ∧ a.l < b.l)

theorem Slot.before_iff {a b : Slot} : a.before b = true ↔ (a.live = true ∧ b.live = false) ∨
    (a.live = true ∧ b.live = true ∧ (a.key < b.key ∨ (a.key = b.key ∧ a.placedBefore b))) ∨ (a.live = false ∧ b.live = false ∧ a.placedBefore b) := by
  obtain ⟨aw, al, alive, akey⟩ := a
  obtain ⟨bw, bl, blive, bkey⟩ := b
  rw [Slot.before_iff_rank]
  cases alive <;> cases blive <;> simp [Slot.rank, Slot.placedBefore, Prod.Lex.toLex_lt_toLex]

theorem Slot.before_trans {a b c : Slot} (hab : a.before b = true) (hbc : b.before c = true) : a.before c = true :=
  before_iff_rank.mpr ((before_iff_rank.mp hab).trans (before_iff_rank.mp hbc))

/-- Of two different slots one goes before the other. -/
theorem Slot.before_or_before {a b : Slot} (h : a.placedBefore b) : a.before b = true ∨ b.before a = true := by
  rw [before_iff_rank, before_iff_rank]
  refine lt_or_gt_of_ne fun he => ?_
  have hwl : toLex (a.w, a.l) = toLex (b.w, b.l) := congrArg (fun r => (ofLex (ofLex r).2).2) he
  simp only [EmbeddingLike.apply_eq_iff_eq, Prod.mk.injEq] at hwl
  unfold Slot.placedBefore at h
  omega

/-! ### Sorting by insertion -/

theorem insSlot_perm (a : Slot) (q : List Slot) : (insSlot a q).Perm (a :: q) := by
  induction q with
  | nil => exact .refl _
  | cons b q ih =>
    rw [insSlot]
    split
    · exact .refl _
    · exact (ih.cons b).trans (.swap a b q)

/-- Slots in the order of R162. -/
def InOrder (q : List Slot) : Prop := q.Pairwise fun a b => a.before b = true

theorem inOrder_insSlot {a : Slot} {q : List Slot} (hq : InOrder q) (ha : ∀ b ∈ q, a.before b = true ∨ b.before a = true) : InOrder (insSlot a q) := by
  induction q with
  | nil => exact List.pairwise_singleton _ _
  | cons b q ih =>
    obtain ⟨hb, hq⟩ := List.pairwise_cons.mp hq
    obtain ⟨hab, ha⟩ := List.forall_mem_cons.mp ha
    rw [insSlot]
    by_cases h : a.before b = true
    · rw [if_pos h]
      exact .cons (List.forall_mem_cons.mpr ⟨h, fun c hc => Slot.before_trans h (hb c hc)⟩) (.cons hb hq)
    · rw [if_neg h]
      refine .cons (fun c hc => ?_) (ih hq ha)
      rcases List.mem_cons.mp ((insSlot_perm a q).mem_iff.mp hc) with rfl | hc
      · exact hab.resolve_left h
      · exact hb c hc

theorem foldl_insSlot {q ls : List Slot} (hq : InOrder q) (hls : ls.Pairwise Slot.placedBefore) (h : ∀ a ∈ ls, ∀ b ∈ q, a.before b = true ∨ b.before a = true) :
    InOrder (ls.foldl (fun q a => insSlot a q) q) ∧ (ls.foldl (fun q a => insSlot a q) q).Perm (ls ++ q) := by
  induction ls generalizing q with
  | nil => exact ⟨hq, .refl _⟩
  | cons a ls ih =>
    obtain ⟨ha, hls⟩ := List.pairwise_cons.mp hls
    obtain ⟨haq, hlsq⟩ := List.forall_mem_cons.mp h
    have hnew : ∀ c ∈ ls, ∀ b ∈ insSlot a q, c.before b = true ∨ b.before c = true := fun c hc b hb => by
      rcases List.mem_cons.mp ((insSlot_perm a q).mem_iff.mp hb) with rfl | hb
      · exact (Slot.before_or_before (ha c hc)).symm
      · exact hlsq c hc b hb
    obtain ⟨hord, hperm⟩ := ih (inOrder_insSlot hq haq) hls hnew
    exact ⟨hord, hperm.trans (((insSlot_perm a q).append_left ls).trans List.perm_middle)⟩

/-! ### Lanes come first -/

/-- In order, the slots with a lane stand at the head. -/
theorem InOrder.live_of_lt {q : List Slot} (h : InOrder q) {i : Nat} (hi : i < q.length) (hc : i < q.countP Slot.live) : q[i].live = true := by
  by_contra hdead
  have hsplit := h
  rw [InOrder, ← List.take_append_drop i q, List.pairwise_append] at hsplit
  obtain ⟨-, htail, -⟩ := hsplit
  rw [List.drop_eq_getElem_cons hi, List.pairwise_cons] at htail
  have hrest : (q.drop i).countP Slot.live = 0 := List.countP_eq_zero.mpr fun a ha => by
    rw [List.drop_eq_getElem_cons hi] at ha
    rcases List.mem_cons.mp ha with rfl | ha
    · exact hdead
    · intro hlive
      rcases Slot.before_iff.mp (htail.1 a ha) with ⟨hl, -⟩ | ⟨hl, -⟩ | ⟨-, hl, -⟩
      · exact hdead hl
      · exact hdead hl
      · exact Bool.false_ne_true (hl.symm.trans hlive)
  have hcount : q.countP Slot.live = (q.take i).countP Slot.live + (q.drop i).countP Slot.live := by
    rw [← List.countP_append, List.take_append_drop]
  have htake := (List.countP_le_length (p := Slot.live) (l := q.take i)).trans (List.length_take_le i q)
  omega

/-! ### The slots of the participants -/

/-- The slots of warps whose lanes and keys are given. -/
def slotsOf (lane : Nat → BitVec 32) (keys : Nat → List Word) (ws : List Nat) : List Slot :=
  ws.flatMap fun w => (List.range 32).map fun l => { w := w, l := l, live := (lane w).getLsbD l, key := ((keys w).getD l 0).toNat }

section
variable {lane : Nat → BitVec 32} {keys : Nat → List Word} {ws : List Nat}

theorem mem_slotsOf {a : Slot} : a ∈ slotsOf lane keys ws ↔
    a.w ∈ ws ∧ a.l < 32 ∧ a.live = (lane a.w).getLsbD a.l ∧ a.key = ((keys a.w).getD a.l 0).toNat := by
  obtain ⟨w, l, live, key⟩ := a
  simp only [slotsOf, List.mem_flatMap, List.mem_map, List.mem_range, Slot.mk.injEq]
  constructor
  · rintro ⟨_, hw, _, hl, rfl, rfl, rfl, rfl⟩
    exact ⟨hw, hl, rfl, rfl⟩
  · rintro ⟨hw, hl, rfl, rfl⟩
    exact ⟨w, hw, l, hl, rfl, rfl, rfl, rfl⟩

theorem pairwise_slotsOf (h : ws.Pairwise (· < ·)) : (slotsOf lane keys ws).Pairwise Slot.placedBefore := by
  refine List.pairwise_flatMap.mpr ⟨fun w _ => List.pairwise_map.mpr (List.pairwise_lt_range.imp fun hl => .inr ⟨rfl, hl⟩), h.imp fun {w v} hlt a ha b hb => ?_⟩
  obtain ⟨l, -, rfl⟩ := List.mem_map.mp ha
  obtain ⟨k, -, rfl⟩ := List.mem_map.mp hb
  exact .inl hlt

theorem length_slotsOf : (slotsOf lane keys ws).length = 32 * ws.length := by
  simp [slotsOf, List.length_flatMap, Nat.mul_comm]

theorem countP_slotsOf : (slotsOf lane keys ws).countP Slot.live = (ws.map fun w => ((List.range 32).filter fun l => (lane w).getLsbD l).length).sum := by
  rw [slotsOf, List.countP_flatMap]
  refine congrArg List.sum (List.map_congr_left fun w _ => ?_)
  rw [Function.comp_apply, List.countP_map, List.countP_eq_length_filter]
  rfl

end

/-- The participants' slots in order, which the move takes from the head. -/
structure Sequence (lane : Nat → BitVec 32) (keys : Nat → List Word) (ws : List Nat) (q : List Slot) : Prop where
  inOrder : InOrder q
  perm : q.Perm (slotsOf lane keys ws)

theorem sequence_of_foldl {lane : Nat → BitVec 32} {keys : Nat → List Word} {ws : List Nat} (h : ws.Pairwise (· < ·)) :
    Sequence lane keys ws ((slotsOf lane keys ws).foldl (fun q a => insSlot a q) []) := by
  obtain ⟨hord, hperm⟩ := foldl_insSlot (q := []) .nil (pairwise_slotsOf (lane := lane) (keys := keys) h) fun _ _ _ hb => nomatch hb
  exact ⟨hord, by simpa using hperm⟩

namespace Sequence

variable {lane : Nat → BitVec 32} {keys : Nat → List Word} {ws : List Nat} {q : List Slot} (h : Sequence lane keys ws q)
include h

theorem length_eq : q.length = 32 * ws.length := h.perm.length_eq.trans length_slotsOf

/-- The slot at a place of the sequence. -/
theorem getD_mem {i : Nat} (hi : i < 32 * ws.length) (e : Slot) : q.getD i e ∈ slotsOf lane keys ws := by
  rw [List.getD_eq_getElem _ _ (h.length_eq ▸ hi)]
  exact h.perm.mem_iff.mp (List.getElem_mem _)

theorem getD_before {i j : Nat} (hij : i < j) (hj : j < 32 * ws.length) (e : Slot) : (q.getD i e).before (q.getD j e) = true := by
  have hlen := h.length_eq
  rw [List.getD_eq_getElem _ _ (by omega), List.getD_eq_getElem _ _ (by omega)]
  exact List.pairwise_iff_getElem.mp h.inOrder i j (by omega) (by omega) hij

/-- Where lanes enough are live, the first slot of each warp gets one. -/
theorem getD_live {i : Nat} (hi : i < ws.length)
    (hc : 32 * ws.length < (ws.map fun w => ((List.range 32).filter fun l => (lane w).getLsbD l).length).sum + 32) (e : Slot) :
    (q.getD (32 * i) e).live = true := by
  have hlen := h.length_eq
  rw [List.getD_eq_getElem _ _ (by omega)]
  refine h.inOrder.live_of_lt _ ?_
  rw [h.perm.countP_eq, countP_slotsOf]
  omega

end Sequence

end Sys2Proof.Machine

/-! Warps in focus by turns (03_tasks R81): what is done with each leaves the others. -/

namespace Sys2Proof.Machine

section
variable {s t : State} {gid w : Nat} {x y : Warp} {g : Gang}

/-! ### The table of warps -/

/-- What is looked for is kept by a filter. -/
theorem find?_filter_of_imp {α : Type} {p q : α → Bool} (l : List α) (h : ∀ a, q a = true → p a = true) : (l.filter p).find? q = l.find? q := by
  rw [List.find?_filter]
  refine congrArg (List.find? · l) (funext fun a => Bool.eq_iff_iff.mpr ?_)
  rw [decide_eq_true_eq]
  exact ⟨And.right, fun hq => ⟨h a hq, hq⟩⟩

/-- The warp of a gang with a number is meant. -/
def Warp.isNo (i v : Nat) (x : Warp) : Bool := x.gid == i && i != 0 && x.w == v

theorem Warp.isNo_iff {i v : Nat} : x.isNo i v = true ↔ x.gid = i ∧ i ≠ 0 ∧ x.w = v := by simp [Warp.isNo, and_assoc]

theorem warpOf?_eq (s : State) (i v : Nat) : s.warpOf? i v = (s.me :: s.warps).find? (Warp.isNo i v) := rfl

/-- The gang with a number is meant. -/
def Gang.isNo (i : Nat) (g : Gang) : Bool := g.gid == i && i != 0

theorem Gang.isNo_iff {i : Nat} : g.isNo i = true ↔ g.gid = i ∧ i ≠ 0 := by simp [Gang.isNo]

theorem gangOf?_eq (s : State) (i : Nat) : s.gangOf? i = (s.gang :: s.gangs).find? (Gang.isNo i) := rfl

theorem gid_of_gangOf? (h : s.gangOf? gid = some g) : g.gid = gid := (Gang.isNo_iff.mp (List.find?_some (gangOf?_eq s gid ▸ h))).1

/-- A change that leaves every warp its gang and number. -/
theorem warpOf?_mapWarps {f : Warp → Warp} (hf : ∀ x, (f x).gid = x.gid ∧ (f x).w = x.w) : (s.mapWarps f).warpOf? gid w = (s.warpOf? gid w).map f := by
  have hsame : Warp.isNo gid w ∘ f = Warp.isNo gid w := funext fun x => by simp only [Function.comp_apply, Warp.isNo, hf x]
  show ((s.mapWarps f).allWarps.find? (Warp.isNo gid w)) = _
  rw [mapWarps_allWarps, List.find?_map, hsame]
  rfl

theorem State.WarpsApart.mapWarps {f : Warp → Warp} (h : s.WarpsApart) (hf : ∀ x, (f x).gid = x.gid ∧ (f x).w = x.w) : (s.mapWarps f).WarpsApart := by
  have hsame : (fun y : Warp => (y.gid, y.w)) ∘ f = fun y => (y.gid, y.w) := funext fun y => Prod.ext (hf y).1 (hf y).2
  rw [State.WarpsApart, mapWarps_allWarps, List.map_map, hsame]
  exact h

/-! ### Focus -/

/-- Two states have the same warps and gangs by their numbers, and the same memory. -/
structure SameTables (s t : State) : Prop where
  warps : ∀ i v, t.warpOf? i v = s.warpOf? i v
  gangs : ∀ i, t.gangOf? i = s.gangOf? i
  mem : t.mem = s.mem

/-- A warp in focus already, or one of the others. -/
theorem focus_cases (hx : s.warpOf? gid w = some x) (hg : s.gangOf? gid = some g) : (s.focus gid w = s ∧ s.gang.gid = gid) ∨
    s.focus gid w = { s with me := x, warps := s.allWarps.filter fun y => y.gid != 0 && !(y.gid == gid && y.w == w),
                             gang := g, gangs := s.allGangs.filter fun y => y.gid != 0 && y.gid != gid } := by
  by_cases hin : (s.me.gid == gid && s.me.w == w && s.gang.gid == gid) = true
  · refine .inl ⟨if_pos hin, ?_⟩
    simp only [Bool.and_eq_true, beq_iff_eq] at hin
    exact hin.2
  · exact .inr (by rw [State.focus, if_neg hin, hx, hg])

theorem focus_sameTables (hx : s.warpOf? gid w = some x) (hg : s.gangOf? gid = some g) : SameTables s (s.focus gid w) := by
  obtain ⟨-, hxg, hxw⟩ := of_warpOf? hx
  have hgid := gid_of_gangOf? hg
  have h0 := gangOf?_ne_zero hg
  rcases focus_cases hx hg with ⟨he, -⟩ | he <;> rw [he]
  · exact ⟨fun _ _ => rfl, fun _ => rfl, rfl⟩
  · refine ⟨fun i v => ?_, fun i => ?_, rfl⟩
    · by_cases hiv : i = gid ∧ v = w
      · obtain ⟨rfl, rfl⟩ := hiv
        rw [warpOf?_eq, List.find?_cons_of_pos (Warp.isNo_iff.mpr ⟨hxg, h0, hxw⟩), hx]
      · have hno : ¬ x.isNo i v = true := fun hi => by
          obtain ⟨hi, -, hv⟩ := Warp.isNo_iff.mp hi
          exact hiv ⟨hi.symm.trans hxg, hv.symm.trans hxw⟩
        rw [warpOf?_eq, List.find?_cons_of_neg hno]
        dsimp only
        refine find?_filter_of_imp s.allWarps fun y hy => ?_
        obtain ⟨rfl, hi, rfl⟩ := Warp.isNo_iff.mp hy
        simpa [hi, imp_iff_not_or] using hiv
    · by_cases hi : i = gid
      · subst hi
        rw [gangOf?_eq, List.find?_cons_of_pos (Gang.isNo_iff.mpr ⟨hgid, h0⟩), hg]
      · have hno : ¬ g.isNo i = true := fun h => hi ((Gang.isNo_iff.mp h).1.symm.trans hgid)
        rw [gangOf?_eq, List.find?_cons_of_neg hno]
        dsimp only
        refine find?_filter_of_imp s.allGangs fun y hy => ?_
        obtain ⟨rfl, hi0⟩ := Gang.isNo_iff.mp hy
        simp [hi, hi0]

theorem State.WarpsApart.focus (h : s.WarpsApart) (hx : s.warpOf? gid w = some x) (hg : s.gangOf? gid = some g) : (s.focus gid w).WarpsApart := by
  obtain ⟨-, hxg, hxw⟩ := of_warpOf? hx
  rcases focus_cases hx hg with ⟨he, -⟩ | he <;> rw [he]
  · exact h
  · refine List.nodup_cons.mpr ⟨fun hmem => ?_, h.sublist (List.filter_sublist.map _)⟩
    obtain ⟨y, hy, he⟩ := List.mem_map.mp hmem
    obtain ⟨hyg, hyw⟩ := Prod.mk.inj he
    have hne := (List.mem_filter.mp hy).2
    simp [hyg, hyw, hxg, hxw] at hne

/-- The gang in focus is that of the warp in focus, which is some warp. -/
structure State.Issuing (s : State) : Prop where
  apart : s.WarpsApart
  warp : s.me.gid ≠ 0
  gang : s.gang.gid = s.me.gid

theorem focus_gang_gid (hx : s.warpOf? gid w = some x) (hg : s.gangOf? gid = some g) : (s.focus gid w).gang.gid = gid := by
  rcases focus_cases hx hg with ⟨he, hgid⟩ | he <;> rw [he]
  · exact hgid
  · exact gid_of_gangOf? hg

theorem State.Issuing.focus (h : s.Issuing) (hx : s.warpOf? gid w = some x) (hg : s.gangOf? gid = some g) : (s.focus gid w).Issuing ∧ (s.focus gid w).me = x := by
  obtain ⟨hmem, hxg, hxw⟩ := of_warpOf? hx
  have hme : (s.focus gid w).me = x := by
    subst hxg hxw
    exact (focus_of_mem h.apart hmem hg).1
  have hid : (s.focus gid w).me.gid = gid := hme ▸ hxg
  exact ⟨⟨h.apart.focus hx hg, fun h0 => gangOf?_ne_zero hg (hid.symm.trans h0), (focus_gang_gid hx hg).trans hid.symm⟩, hme⟩

/-- A change of the warp in focus that leaves it its gang and number. -/
theorem State.Issuing.with_me (h : s.Issuing) (hg : y.gid = s.me.gid) (hw : y.w = s.me.w) : ({ s with me := y } : State).Issuing where
  apart := by
    have he : (({ s with me := y } : State).allWarps.map fun z => (z.gid, z.w)) = s.allWarps.map fun z => (z.gid, z.w) := by
      simp only [State.allWarps, List.map_cons, hg, hw]
    rw [State.WarpsApart, he]
    exact h.apart
  warp := hg ▸ h.warp
  gang := h.gang.trans hg.symm

theorem warpOf?_with_me (h0 : s.me.gid ≠ 0) (hg : y.gid = s.me.gid) (hw : y.w = s.me.w) (i v : Nat) :
    ({ s with me := y } : State).warpOf? i v = if i = s.me.gid ∧ v = s.me.w then some y else s.warpOf? i v := by
  rw [warpOf?_eq, warpOf?_eq]
  by_cases hiv : i = s.me.gid ∧ v = s.me.w
  · obtain ⟨rfl, rfl⟩ := hiv
    rw [if_pos ⟨rfl, rfl⟩, List.find?_cons_of_pos (Warp.isNo_iff.mpr ⟨hg, h0, hw⟩)]
  · have hno (z : Warp) (hzg : z.gid = s.me.gid) (hzw : z.w = s.me.w) : ¬ z.isNo i v = true := fun hz => by
      obtain ⟨hi, -, hv⟩ := Warp.isNo_iff.mp hz
      exact hiv ⟨hi.symm.trans hzg, hv.symm.trans hzw⟩
    rw [if_neg hiv, List.find?_cons_of_neg (hno y hg hw), List.find?_cons_of_neg (hno s.me rfl rfl)]

/-! ### Something done with a warp -/

/-- What is done with one warp alone changes that warp's entry, and the focus goes back. -/
theorem within_spec {f : State → State} (h : s.Issuing) (hx : s.warpOf? gid w = some x) (hg : s.gangOf? gid = some g)
    (hf : f (s.focus gid w) = { s.focus gid w with me := y }) (hyg : y.gid = x.gid) (hyw : y.w = x.w) :
    (s.within gid w f).Issuing ∧ (s.within gid w f).mem = s.mem ∧ (s.within gid w f).gangOf? gid = some g ∧
      ∀ i v, (s.within gid w f).warpOf? i v = if i = gid ∧ v = w then some y else s.warpOf? i v := by
  obtain ⟨-, hxg, hxw⟩ := of_warpOf? hx
  obtain ⟨hfoc, hme⟩ := h.focus hx hg
  have htab := focus_sameTables hx hg
  have hnew := hfoc.with_me (y := y) (hme ▸ hyg) (hme ▸ hyw)
  have hwarps (i v : Nat) : ({ s.focus gid w with me := y } : State).warpOf? i v = if i = gid ∧ v = w then some y else s.warpOf? i v := by
    rw [warpOf?_with_me hfoc.warp (hme ▸ hyg) (hme ▸ hyw), hme, hxg, hxw, htab.warps]
  have hback : s.within gid w f = ({ s.focus gid w with me := y } : State).focus s.me.gid s.me.w := by
    rw [State.within, hx]
    show (f (s.focus gid w)).refocus s.gang s.me = _
    rw [hf, State.refocus, if_pos (by simpa using h.warp), h.gang]
  obtain ⟨z, hz⟩ : ∃ z, ({ s.focus gid w with me := y } : State).warpOf? s.me.gid s.me.w = some z := by
    rw [hwarps]
    split
    · exact ⟨y, rfl⟩
    · exact ⟨s.me, warpOf?_me h.warp⟩
  have hz' : ({ s.focus gid w with me := y } : State).gangOf? s.me.gid = some s.gang := (htab.gangs _).trans (gangOf?_me h.warp h.gang)
  have hend := focus_sameTables hz hz'
  rw [hback]
  exact ⟨(hnew.focus hz hz').1, hend.mem.trans htab.mem, (hend.gangs gid).trans ((htab.gangs gid).trans hg), fun i v => (hend.warps i v).trans (hwarps i v)⟩

/-- The same with one warp of a gang after the other, each of them changed in its own way. -/
theorem foldl_within {f : Nat → State → State} {ws : List Nat} {z : Nat → Warp} {R : Warp → Warp → Prop} (h : s.Issuing) (hg : s.gangOf? gid = some g)
    (hws : ws.Nodup) (hz : ∀ w ∈ ws, s.warpOf? gid w = some (z w)) (hR : ∀ x y, R x y → y.gid = x.gid ∧ y.w = x.w)
    (hf : ∀ w ∈ ws, ∀ u : State, u.me = z w → ∃ y, f w u = { u with me := y } ∧ R (z w) y) :
    (ws.foldl (fun s w => s.within gid w (f w)) s).mem = s.mem ∧
      (∀ w ∈ ws, ∃ y, (ws.foldl (fun s w => s.within gid w (f w)) s).warpOf? gid w = some y ∧ R (z w) y) ∧
      ∀ v, v ∉ ws → (ws.foldl (fun s w => s.within gid w (f w)) s).warpOf? gid v = s.warpOf? gid v := by
  induction ws generalizing s with
  | nil => exact ⟨rfl, nofun, fun _ _ => rfl⟩
  | cons w ws ih =>
    obtain ⟨hw, hws⟩ := List.nodup_cons.mp hws
    obtain ⟨hzw, hz⟩ := List.forall_mem_cons.mp hz
    obtain ⟨hfw, hf⟩ := List.forall_mem_cons.mp hf
    obtain ⟨y, hy, hRy⟩ := hfw _ (h.focus hzw hg).2
    obtain ⟨hissue, hmem, hgang, hwarps⟩ := within_spec h hzw hg hy (hR _ _ hRy).1 (hR _ _ hRy).2
    have hrest (v : Nat) (hv : v ≠ w) : (s.within gid w (f w)).warpOf? gid v = s.warpOf? gid v := by rw [hwarps, if_neg fun he => hv he.2]
    obtain ⟨ihmem, ihall, ihother⟩ := ih hissue hgang hws (fun v hv => (hrest v fun he => hw (he ▸ hv)).trans (hz v hv)) hf
    refine ⟨ihmem.trans hmem, List.forall_mem_cons.mpr ⟨⟨y, ?_, hRy⟩, ihall⟩, fun v hv => ?_⟩
    · exact (ihother w hw).trans ((hwarps gid w).trans (if_pos ⟨rfl, rfl⟩))
    · obtain ⟨hvw, hvs⟩ := not_or.mp (mt List.mem_cons.mpr hv)
      exact (ihother v hvs).trans (hrest v hvw)

end

end Sys2Proof.Machine

/-! What a warp is given by the move of a regroup (06_integer R162, R163). -/

namespace Sys2Proof.Machine

/-! ### Registers -/

section
variable {r : Regs} {l : Nat}

theorem allLanes_getLsbD (hl : l < 32) : (0xFFFFFFFF : BitVec 32).getLsbD l = true := by
  rw [show (0xFFFFFFFF : BitVec 32) = BitVec.allOnes 32 from rfl, BitVec.getLsbD_allOnes, decide_eq_true hl]

/-- Registers written one after the other in every lane. -/
def putAllV (n : Nat) (f : Nat → Nat → Word) (r : Regs) : Regs := (List.range n).foldl (fun r k => r.putV k 0xFFFFFFFF (f k)) r

theorem putAllV_succ (n : Nat) (f : Nat → Nat → Word) : putAllV (n + 1) f r = (putAllV n f r).putV n 0xFFFFFFFF (f n) := by
  rw [putAllV, List.range_succ, List.foldl_append]
  rfl

theorem putAllV_eq (n : Nat) (f : Nat → Nat → Word) : putAllV n f r = { r with v := (putAllV n f r).v } := by
  induction n with
  | zero => rfl
  | succ n ih => rw [putAllV_succ, ih]; rfl

theorem getV_putAllV {n k : Nat} (f : Nat → Nat → Word) (hk : k < n) (hl : l < 32) : (putAllV n f r).getV k l = f k l := by
  induction n with
  | zero => cases hk
  | succ n ih =>
    rw [putAllV_succ, Regs.getV_putV _ _ _ _ _ _ hl, allLanes_getLsbD hl]
    by_cases hkn : k = n
    · rw [if_pos ⟨hkn, rfl⟩, hkn]
    · rw [if_neg fun h => hkn h.1, ih (by omega)]

/-- Predicates written one after the other in every lane. -/
def putAllP (n : Nat) (f : Nat → BitVec 32) (r : Regs) : Regs := (List.range n).foldl (fun r k => r.putP k 0xFFFFFFFF (f k)) r

theorem putAllP_succ (n : Nat) (f : Nat → BitVec 32) : putAllP (n + 1) f r = (putAllP n f r).putP n 0xFFFFFFFF (f n) := by
  rw [putAllP, List.range_succ, List.foldl_append]
  rfl

theorem putP_eq (n : Nat) (m x : BitVec 32) : r.putP n m x = { r with p := (r.putP n m x).p } := by
  unfold Regs.putP
  split <;> rfl

theorem putAllP_eq (n : Nat) (f : Nat → BitVec 32) : putAllP n f r = { r with p := (putAllP n f r).p } := by
  induction n with
  | zero => rfl
  | succ n ih => rw [putAllP_succ, putP_eq, ih]

theorem getP_putAllP {n k : Nat} (f : Nat → BitVec 32) (hn : n ≤ 7) (hk : k < n) (hl : l < 32) : ((putAllP n f r).getP k).getLsbD l = (f k).getLsbD l := by
  induction n with
  | zero => cases hk
  | succ n ih =>
    rw [putAllP_succ, Regs.getP_putP _ _ _ _ _ _ hl, allLanes_getLsbD hl, if_neg (by omega)]
    by_cases hkn : k = n
    · rw [if_pos ⟨hkn, rfl⟩, hkn]
    · rw [if_neg fun h => hkn h.1, ih (by omega) (by omega)]

/-- A read after a write of all of a table's 32 lanes. -/
theorem smGet_smPuts_lanes {α : Type} [DecidableEq α] {d : α} (m : List (Nat × α)) (f : Nat → α) (hl : l < 32) :
    smGet d (smPuts d m 0 ((List.range 32).map f)) l = f l := by
  rw [smGet_smPuts, dif_pos ⟨Nat.zero_le l, by simpa using hl⟩]
  simp

end

/-- The slot that none is given from. -/
def noSlot : Slot := ⟨0, 0, false, 0⟩

section
variable {regs : Nat → Regs} {n l : Nat} {seq : List Slot} {r : Regs}

/-- What a warp's registers take from other warps' slots. -/
structure Moves (regs : Nat → Regs) (n : Nat) (seq : List Slot) (r t : Regs) : Prop where
  v : ∀ k l, k < n → l < 32 → t.getV k l = (regs (seq.getD l noSlot).w).getV k (seq.getD l noSlot).l
  u : t.u = r.u
  p : ∀ k l, k < 7 → l < 32 → (t.getP k).getLsbD l = ((regs (seq.getD l noSlot).w).getP k).getLsbD (seq.getD l noSlot).l
  flags : ∀ l, l < 32 → t.getF l = (regs (seq.getD l noSlot).w).getF (seq.getD l noSlot).l
  depth : ∀ l, l < 32 → t.getD l = (regs (seq.getD l noSlot).w).getD (seq.getD l noSlot).l

theorem movedRegs_moves : Moves regs n seq r (movedRegs regs n seq r) := by
  obtain ⟨a, ha⟩ : ∃ a, a = putAllV n (fun k l => (regs (seq.getD l noSlot).w).getV k (seq.getD l noSlot).l) r := ⟨_, rfl⟩
  obtain ⟨b, hb⟩ : ∃ b, b = putAllP 7 (fun k => maskOf fun l => ((regs (seq.getD l noSlot).w).getP k).getLsbD (seq.getD l noSlot).l) a := ⟨_, rfl⟩
  have hmoved : movedRegs regs n seq r = { b with
      flags := smPuts 0 b.flags 0 ((List.range 32).map fun l => (regs (seq.getD l noSlot).w).getF (seq.getD l noSlot).l)
      rdep := smPuts 0 b.rdep 0 ((List.range 32).map fun l => BitVec.ofNat 7 ((regs (seq.getD l noSlot).w).getD (seq.getD l noSlot).l)) } := by
    subst hb ha
    rfl
  have hbv : b.v = a.v := by rw [hb, putAllP_eq]
  rw [hmoved]
  refine ⟨fun k l hk hl => ?_, ?_, fun k l hk hl => ?_, fun l hl => smGet_smPuts_lanes _ _ hl, fun l hl => ?_⟩
  · show smGet 0 b.v (32 * k + l) = _
    rw [hbv, ha]
    exact getV_putAllV _ hk hl
  · show b.u = r.u
    rw [hb, putAllP_eq, ha, putAllV_eq]
  · show (b.getP k).getLsbD l = _
    rw [hb, getP_putAllP _ le_rfl hk hl, maskOf_getLsbD _ _ hl]
  · show (smGet 0 (smPuts 0 b.rdep 0 _) l).toNat = _
    rw [smGet_smPuts_lanes _ _ hl, BitVec.toNat_ofNat]
    exact Nat.mod_eq_of_lt (BitVec.isLt _)

end

/-! ### Paths -/

section
variable {x : Warp} {p : Path} {f : Path → Path}

/-- A change that ends no path and revives none. -/
theorem live_mapPaths (h : ∀ q ∈ x.cur :: x.paths, ((f q).mask != 0) = (q.mask != 0)) : (x.mapPaths f).live = x.live.map f := by
  show ((x.cur :: x.paths).map f).filter (fun p => p.mask != 0) = ((x.cur :: x.paths).filter fun p => p.mask != 0).map f
  rw [List.filter_map]
  exact congrArg (List.map f) (List.filter_congr h)

theorem eq_of_mask_ne_zero (h : x.live = [p]) {q : Path} (hq : q ∈ x.cur :: x.paths) (hm : (q.mask != 0) = true) : q = p :=
  List.mem_singleton.mp (h ▸ List.mem_filter.mpr ⟨hq, hm⟩)

theorem mask_of_live (h : x.live = [p]) : (p.mask != 0) = true := by
  have hp : p ∈ x.live := h ▸ List.mem_singleton_self p
  exact (List.mem_filter.mp hp).2

/-! ### A warp that goes on alone (04_control R108, 05_events R128, R133) -/

/-- What the settling of a warp with one READY path may change: paths without lanes. -/
def PathsOnly (x y : Warp) : Prop := y = { x with cur := y.cur, paths := y.paths } ∧ y.live = x.live

/-- A path that waited to trap issues again. -/
def Warp.trapWoken (x : Warp) (q : Path) : Path := if q.st = .held .trapBusy then { q with st := x.woken } else q

theorem trapWoken_mask (q : Path) : (x.trapWoken q).mask = q.mask := by
  unfold Warp.trapWoken
  split <;> rfl

theorem settle_of_lone_ready {s : State} (hex : s.me.exited = false) (hpre : s.me.pre.st = .run) (hl : s.me.live = [p]) (hst : p.st = .ready) :
    ∃ y, s.settle = { s with me := y } ∧ PathsOnly s.me y := by
  have hjoin (a : BitVec 48) (b : Nat) : p.st ≠ .join a b := by rw [hst]; nofun
  have hrest {u : State} (hu : u.me.pre.st = .run) (hul : u.me.live = [p]) : u.tryPre.preCheck.releaseJoins = u := by
    rw [tryPre_of_not_pending (by rw [hu]; nofun), preCheck_of_not_hnd (by rw [hu]; nofun)]
    refine releaseJoins_of_none fun m => ?_
    by_cases hm : p.hmode = m
    · exact toRelease_of_waiting_class ⟨p, hul ▸ List.mem_singleton_self p, hm, hjoin⟩
    · exact toRelease_of_no_path fun q hq => (List.mem_singleton.mp (hul ▸ hq)) ▸ hm
  rw [settle_of_live hex (hl ▸ List.cons_ne_nil p [])]
  by_cases hord : p.hmode = .none
  · have hlive : (s.me.mapPaths s.me.trapWoken).live = [p] := by
      rw [live_mapPaths fun q _ => by rw [trapWoken_mask], hl]
      simp [Warp.trapWoken, hst]
    have hretrap : s.retrap = { s with me := s.me.mapPaths s.me.trapWoken } := by
      have hkept : ((s.me.mapPaths s.me.trapWoken).live.findSome? fun p => p.kept.map fun k => (p, k)) = none := by
        rw [hlive]
        simp [Path.kept, hst]
      rw [State.retrap, if_neg (by simp [hl, hord])]
      show (match (s.me.mapPaths s.me.trapWoken).live.findSome? fun p => p.kept.map fun k => (p, k) with
        | none => ({ s with me := s.me.mapPaths s.me.trapWoken } : State)
        | some (p, a, n) => _) = _
      rw [hkept]
    rw [hretrap, hrest (u := { s with me := s.me.mapPaths s.me.trapWoken }) hpre hlive]
    exact ⟨_, rfl, rfl, hlive.trans hl.symm⟩
  · rw [retrap_of_handler ⟨p, hl ▸ List.mem_singleton_self p, hord⟩, hrest hpre hl]
    exact ⟨s.me, rfl, rfl, rfl⟩

end

/-! ### A participant after the move -/

section
variable {x : Warp} {p : Path} {d : BitVec 7} {keys : List Word} {m : BitVec 32} {c : BitVec 48} {k n : Nat} {xs : List Warp} {seq : List Slot}

theorem regroupPath_of_alone (hl : x.live = [p]) (hst : p.st = .held (.regroup m d keys c k)) : x.regroupPath m = some (p, d, keys, c, k) := by
  simp [Warp.regroupPath, hl, hst]

/-- The lanes that come to a warp. -/
def comers (seq : List Slot) : BitVec 32 := maskOf fun l => (seq.getD l noSlot).live

theorem comers_getLsbD {l : Nat} (hl : l < 32) : (comers seq).getLsbD l = (seq.getD l noSlot).live := maskOf_getLsbD _ l hl

theorem comers_ne_zero (h : (seq.getD 0 noSlot).live = true) : comers seq ≠ 0 := fun h0 => by
  have hb := comers_getLsbD (seq := seq) (l := 0) (by decide)
  rw [h0, h] at hb
  exact absurd hb (by decide)

/-- The code of a slot in the fault mask records of warps. -/
def slotCode (xs : List Warp) (q : Slot) : BitVec 8 := ((xs.find? fun y => y.w == q.w).map fun y => smGet (0 : BitVec 8) y.fm.codes q.l).getD 0

/-- What happens to a participant's paths. -/
def regroupGo (xs : List Warp) (n : Nat) (m : BitVec 32) (seq : List Slot) (p : Path) (c : BitVec 48) (k : Nat) (q : Path) : Path :=
  if q.id == p.id && q.mask != 0 then
    { q with mask := comers seq, st := .ready, pc := c, wpos := k
             snap := q.snap.map fun r => movedRegs (fun w => ((xs.find? fun y => y.w == w).map fun y => y.before m).getD {}) n seq r } else q

theorem regrouped_eq (hl : x.live = [p]) (hst : p.st = .held (.regroup m d keys c k)) : x.regrouped xs n m seq =
    { x.mapPaths (regroupGo xs n m seq p c k) with
      regs := regroupRegs xs n d seq x.regs, fm := { x.fm with codes := smPuts 0 [] 0 (seq.map (slotCode xs)) } } := by
  rw [Warp.regrouped, regroupPath_of_alone hl hst]
  rfl

/-- Its one path goes on after its regroup, with the lanes that come. -/
theorem live_regrouped (hl : x.live = [p]) (hst : p.st = .held (.regroup m d keys c k)) (hsnap : p.snap = none) (h0 : comers seq ≠ 0) :
    (x.regrouped xs n m seq).live = [{ p with mask := comers seq, st := .ready, pc := c, wpos := k }] := by
  have hgo : regroupGo xs n m seq p c k p = { p with mask := comers seq, st := .ready, pc := c, wpos := k } := by
    rw [regroupGo, mask_of_live hl, beq_self_eq_true, Bool.and_self, if_pos rfl, hsnap]
    rfl
  have hkeep : ∀ q ∈ x.cur :: x.paths, ((regroupGo xs n m seq p c k q).mask != 0) = (q.mask != 0) := fun q hq => by
    by_cases hm : (q.mask != 0) = true
    · rw [eq_of_mask_ne_zero hl hq hm, hgo, mask_of_live hl]
      exact bne_iff_ne.mpr h0
    · rw [regroupGo, if_neg (by rw [Bool.and_eq_true]; exact fun h => hm h.2)]
  rw [regrouped_eq hl hst]
  show (x.mapPaths (regroupGo xs n m seq p c k)).live = _
  rw [live_mapPaths hkeep, hl, List.map_singleton, hgo]

/-- The registers that its lanes get: those of the slots that come, and vD with their numbers where they have lanes. -/
theorem regrouped_regs (hl : x.live = [p]) (hst : p.st = .held (.regroup m d keys c k)) {src : Nat → Warp}
    (hsrc : ∀ l, l < 32 → xs.find? (fun y => y.w == (seq.getD l noSlot).w) = some (src l)) (hlen : seq.length = 32) :
    (x.regrouped xs n m seq).regs.u = x.regs.u ∧ ∀ l, l < 32 →
      (∀ j, j < n → (x.regrouped xs n m seq).regs.getV j l = if j = d.toNat ∧ (seq.getD l noSlot).live = true then
        BitVec.ofNat 32 ((seq.getD l noSlot).w * 32 + (seq.getD l noSlot).l) else (src l).regs.getV j (seq.getD l noSlot).l) ∧
      (∀ j, j < 7 → ((x.regrouped xs n m seq).regs.getP j).getLsbD l = ((src l).regs.getP j).getLsbD (seq.getD l noSlot).l) ∧
      (x.regrouped xs n m seq).regs.getF l = (src l).regs.getF (seq.getD l noSlot).l ∧
      (x.regrouped xs n m seq).regs.getD l = (src l).regs.getD (seq.getD l noSlot).l ∧
      smGet (0 : BitVec 8) (x.regrouped xs n m seq).fm.codes l = smGet 0 (src l).fm.codes (seq.getD l noSlot).l := by
  obtain ⟨r, hr⟩ : ∃ r : Nat → Regs, r = fun v => ((xs.find? fun y => y.w == v).map Warp.regs).getD {} := ⟨_, rfl⟩
  obtain ⟨a, ha, hmoves⟩ : ∃ a, a = movedRegs r n seq x.regs ∧ Moves r n seq x.regs a := ⟨_, rfl, movedRegs_moves⟩
  have hregs : (x.regrouped xs n m seq).regs =
      a.putV d.toNat (comers seq) fun l => BitVec.ofNat 32 ((seq.getD l noSlot).w * 32 + (seq.getD l noSlot).l) := by
    rw [regrouped_eq hl hst, ha, hr]
    rfl
  have hcodes : (x.regrouped xs n m seq).fm.codes = smPuts 0 [] 0 (seq.map (slotCode xs)) := by rw [regrouped_eq hl hst]
  have hrsrc (l : Nat) (hl : l < 32) : r (seq.getD l noSlot).w = (src l).regs := by
    rw [hr]
    dsimp only
    rw [hsrc l hl]
    rfl
  rw [hregs, hcodes]
  refine ⟨hmoves.u, fun l hl => ⟨fun j hj => ?_, fun j hj => ?_, ?_, ?_, ?_⟩⟩
  · rw [Regs.getV_putV _ _ _ _ j l hl, comers_getLsbD hl, hmoves.v j l hj hl, hrsrc l hl]
  · exact (hmoves.p j l hj hl).trans (by rw [hrsrc l hl])
  · exact (hmoves.flags l hl).trans (by rw [hrsrc l hl])
  · exact (hmoves.depth l hl).trans (by rw [hrsrc l hl])
  · have hseq : seq = (List.range 32).map fun l => seq.getD l noSlot :=
      List.ext_getElem (by simp [hlen]) fun i hi _ => by rw [List.getElem_map, List.getElem_range, List.getD_eq_getElem _ _ hi]
    rw [hseq, List.map_map, smGet_smPuts_lanes _ _ hl, ← hseq, Function.comp_apply, slotCode, hsrc l hl]
    rfl

end

end Sys2Proof.Machine

/-! Stacks that move (06_integer R162). -/

namespace Sys2Proof.Machine

/-- Memory after several runs of bytes, one after the other. -/
def putRuns (rs : List Run) (m : List Host.Cell) : List Host.Cell := rs.foldl (fun m r => smPuts unwritten m r.1 r.2) m

theorem smGet_putRuns_ne {rs : List Run} {a : Nat} (h : ∀ r ∈ rs, ¬ r.has a) (m : List Host.Cell) :
    smGet unwritten (putRuns rs m) a = smGet unwritten m a := by
  induction rs generalizing m with
  | nil => rfl
  | cons r rs ih =>
    obtain ⟨hr, hrs⟩ := List.forall_mem_cons.mp h
    exact (ih hrs _).trans ((smGet_smPuts m r.1 a r.2).trans (dif_neg hr))

theorem smGet_putRuns {rs : List Run} (hd : rs.Pairwise Run.apart) {r : Run} (hr : r ∈ rs) {j : Nat} (hj : j < r.2.length) (m : List Host.Cell) :
    smGet unwritten (putRuns rs m) (r.1 + j) = r.2[j] := by
  induction rs generalizing m with
  | nil => cases hr
  | cons q rs ih =>
    obtain ⟨hq, hrs⟩ := List.pairwise_cons.mp hd
    rcases List.mem_cons.mp hr with rfl | hr
    · have hother : ∀ q ∈ rs, ¬ q.has (r.1 + j) := fun q hqr hin => by
        have hapart := hq q hqr
        simp only [Run.has, Run.apart] at hapart hin
        omega
      refine (smGet_putRuns_ne hother _).trans ((smGet_smPuts m r.1 _ r.2).trans ((dif_pos ⟨by omega, by omega⟩).trans ?_))
      simp only [Nat.add_sub_cancel_left]
    · exact ih hrs hr _

/-- The bytes of each lane's stack, for several warps. -/
def stackRuns (n : Nat) (base : Nat → Nat) (bs : Nat → Nat → List (BitVec 8)) : List Run :=
  (List.range n).flatMap fun i => (List.range 32).map fun l => (base i + l * 2048, bs i l)

section
variable {n : Nat} {base : Nat → Nat} {bs : Nat → Nat → List (BitVec 8)} (hlen : ∀ i l, (bs i l).length = 2048)
include hlen

theorem pairwise_stackRuns (h : ∀ i j, i < j → j < n → base i + 65536 ≤ base j ∨ base j + 65536 ≤ base i) : (stackRuns n base bs).Pairwise Run.apart := by
  refine List.pairwise_flatMap.mpr ⟨fun i _ => List.pairwise_map.mpr (List.pairwise_lt_range.imp fun {l k} hlk => ?_), ?_⟩
  · simp only [Run.apart, hlen]
    omega
  · refine List.pairwise_lt_range.imp_of_mem fun {i j} _ hj hij r hr q hq => ?_
    obtain ⟨l, hl, rfl⟩ := List.mem_map.mp hr
    obtain ⟨k, hk, rfl⟩ := List.mem_map.mp hq
    have hap := h i j hij (List.mem_range.mp hj)
    rw [List.mem_range] at hl hk
    simp only [Run.apart, hlen]
    omega

theorem smGet_stackRuns (h : ∀ i j, i < j → j < n → base i + 65536 ≤ base j ∨ base j + 65536 ≤ base i) {i l j : Nat} (hi : i < n) (hl : l < 32)
    (hj : j < 2048) (m : List Host.Cell) : smGet unwritten (putRuns (stackRuns n base bs) m) (base i + l * 2048 + j) = (bs i l)[j]'((hlen i l).symm ▸ hj) :=
  smGet_putRuns (pairwise_stackRuns hlen h) (r := (base i + l * 2048, bs i l))
    (List.mem_flatMap.mpr ⟨i, List.mem_range.mpr hi, List.mem_map.mpr ⟨l, List.mem_range.mpr hl, rfl⟩⟩) _ m

theorem smGet_stackRuns_ne {a : Nat} (h : ∀ i, i < n → ¬ (base i ≤ a ∧ a < base i + 65536)) (m : List Host.Cell) :
    smGet unwritten (putRuns (stackRuns n base bs) m) a = smGet unwritten m a := by
  refine smGet_putRuns_ne (fun r hr hin => ?_) m
  obtain ⟨i, hi, hr⟩ := List.mem_flatMap.mp hr
  obtain ⟨l, hl, rfl⟩ := List.mem_map.mp hr
  have hout := h i (List.mem_range.mp hi)
  rw [List.mem_range] at hl
  simp only [Run.has, hlen] at hin
  omega

end

end Sys2Proof.Machine

/-! The checks of a regroup, and its move (06_integer R161 to R163). -/

namespace Sys2Proof.Machine

/-! ### The checks (R161) -/

section
variable {s : State} {d a b : BitVec 7} {l : Nat}

/-- The first active lane that a test holds of. -/
theorem find?_lanes {f : Nat → Bool} (hl : l < 32) (hact : s.act l = true) (hf : f l = true) (hlow : ∀ k, k < l → s.act k = true → f k = false) :
    s.lanes.find? f = some l := by
  rw [State.lanes, lanesOf, List.find?_filter, List.find?_range_eq_some]
  have hact' : s.me.cur.mask.getLsbD l = true := hact
  refine ⟨by simp [hact', hf], List.mem_range.mpr hl, fun k hk => ?_⟩
  have hno : ¬ (s.me.cur.mask.getLsbD k = true ∧ f k = true) := fun h => Bool.false_ne_true ((hlow k hk h.1).symm.trans h.2)
  simp only [hno, decide_false, Bool.not_false]

theorem find?_lanes_eq_none {f : Nat → Bool} (h : ∀ l, l < 32 → s.act l = true → f l = false) : s.lanes.find? f = none :=
  List.find?_eq_none.mpr fun l hl => Bool.eq_false_iff.mp (h l ((mem_lanes s l).mp hl).1 ((mem_lanes s l).mp hl).2)

/-- A warp that a mask names has exited, or there is none. -/
def State.lacks (s : State) (w : Nat) : Bool := match s.warpNo w with
  | none => true
  | some x => x.exited

theorem any_lacks_iff {m : Word} : (lanesOf m).any s.lacks = true ↔
    ∃ w, (w < 32 ∧ m.getLsbD w = true) ∧ ∀ y, ¬ (s.warpNo w = some y ∧ y.exited = false) := by
  rw [List.any_eq_true]
  refine exists_congr fun w => and_congr mem_lanesOf ?_
  unfold State.lacks
  cases hw : s.warpNo w <;> simp

/-- A warp that a mask names waits at a regroup of another. -/
def State.elsewhere (s : State) (m : Word) (w : Nat) : Bool := match s.warpNo w with
  | none => false
  | some x => x.atRegroup fun n => n != m

theorem atRegroup_iff {x : Warp} {f : Word → Bool} : x.atRegroup f = true ↔ ∃ p ∈ x.live, ∃ n e g c k, p.st = .held (.regroup n e g c k) ∧ f n = true := by
  rw [Warp.atRegroup, List.any_eq_true]
  refine exists_congr fun p => and_congr_right fun _ => ?_
  split
  next n e g c k hst =>
    rw [hst]
    refine ⟨fun hf => ⟨n, e, g, c, k, rfl, hf⟩, ?_⟩
    rintro ⟨n, e, g, c, k, he, hf⟩
    injection he with he
    injection he with hn
    exact hn ▸ hf
  next hst =>
    refine ⟨fun hf => absurd hf Bool.false_ne_true, ?_⟩
    rintro ⟨n, e, g, c, k, he, -⟩
    exact absurd he (hst n e g c k)

theorem any_elsewhere_iff {m : Word} : (lanesOf m).any (s.elsewhere m) = true ↔ ∃ w y, (w < 32 ∧ m.getLsbD w = true) ∧ s.warpNo w = some y ∧
    ∃ p ∈ y.live, ∃ n e f c k, p.st = .held (.regroup n e f c k) ∧ n ≠ m := by
  rw [List.any_eq_true]
  refine exists_congr fun w => ?_
  rw [exists_and_left]
  refine and_congr mem_lanesOf ?_
  unfold State.elsewhere
  cases hw : s.warpNo w with
  | none => simp
  | some y => simp [atRegroup_iff]

/-- The whole warp comes to a regroup, in no handler of a pre-emption. -/
def State.WholeWarp (s : State) : Prop := s.me.cur.hmode ≠ .pre ∧ s.me.cur.mask = s.me.lanes

theorem exec_regroup_of_not_whole (h : ¬ s.WholeWarp) : exec (.regroup d a b) s = .next (s.progErr 0x0601 0) := by
  refine congrArg Host.Outcome.next (if_pos ?_)
  rw [Bool.or_eq_true, decide_eq_true_eq, decide_eq_true_eq]
  exact (not_and_or.mp h).imp_left not_not.mp

theorem exec_regroup_of_whole (h : s.WholeWarp) {l0 : Nat} (hfirst : s.first = l0) : exec (.regroup d a b) s = .next (
    if (s.lanes.find? fun l => s.v b l != s.v b l0).isSome || !(s.v b l0).getLsbD s.me.w || (lanesOf (s.v b l0)).any s.lacks then
      s.progErr 0x0602 ((s.v b ((s.lanes.find? fun l => s.v b l != s.v b l0).getD l0)).setWidth 64)
    else if (lanesOf (s.v b l0)).any (s.elsewhere (s.v b l0)) then s.progErr 0x0603 ((s.v b l0).setWidth 64)
    else s.holdHere (.regroup (s.v b l0) d ((List.range 32).map (s.v a)) s.here.npc s.here.nwpos)) := by
  subst hfirst
  refine congrArg Host.Outcome.next (if_neg ?_)
  rw [Bool.or_eq_true, decide_eq_true_eq, decide_eq_true_eq]
  exact not_or.mpr ⟨h.1, not_not.mpr h.2⟩

/-- A lane with a mask of its own. -/
theorem exec_regroup_of_unlike (h : s.WholeWarp) {l0 l1 : Nat} (hfirst : s.first = l0) (hl1 : l1 < 32) (hact : s.act l1 = true) (hne : s.v b l1 ≠ s.v b l0)
    (hbelow : ∀ l, l < l1 → s.act l = true → s.v b l = s.v b l0) : exec (.regroup d a b) s = .next (s.progErr 0x0602 ((s.v b l1).setWidth 64)) := by
  have hfind : s.lanes.find? (fun l => s.v b l != s.v b l0) = some l1 :=
    find?_lanes hl1 hact (bne_iff_ne.mpr hne) fun l hl hal => bne_eq_false_iff_eq.mpr (hbelow l hl hal)
  rw [exec_regroup_of_whole h hfirst, hfind]
  rfl

/-- Lanes with one mask. -/
theorem exec_regroup_of_like (h : s.WholeWarp) {l0 : Nat} (hfirst : s.first = l0) (hlike : ∀ l, l < 32 → s.act l = true → s.v b l = s.v b l0) :
    exec (.regroup d a b) s = .next (
      if !(s.v b l0).getLsbD s.me.w || (lanesOf (s.v b l0)).any s.lacks then s.progErr 0x0602 ((s.v b l0).setWidth 64)
      else if (lanesOf (s.v b l0)).any (s.elsewhere (s.v b l0)) then s.progErr 0x0603 ((s.v b l0).setWidth 64)
      else s.holdHere (.regroup (s.v b l0) d ((List.range 32).map (s.v a)) s.here.npc s.here.nwpos)) := by
  rw [exec_regroup_of_whole h hfirst, find?_lanes_eq_none fun l hl hact => bne_eq_false_iff_eq.mpr (hlike l hl hact)]
  rfl

end

/-! ### The participants (R162) -/

/-- The slots of the sequence that a warp gets, by its place among the participants. -/
def slotsAt (seq : List Slot) (i : Nat) : List Slot := (seq.drop (32 * i)).take 32

theorem getD_slotsAt {seq : List Slot} {i l : Nat} (hl : l < 32) (e : Slot) : (slotsAt seq i).getD l e = seq.getD (32 * i + l) e := by
  simp [slotsAt, List.getD_eq_getElem?_getD, hl]

theorem length_slotsAt {seq : List Slot} {i : Nat} (h : 32 * i + 32 ≤ seq.length) : (slotsAt seq i).length = 32 := by
  simp [slotsAt]
  omega

/-- The stacks after the move: lane `l` of the warp at place `i` has that of its slot. -/
def State.stacksMoved (s : State) (ws : List Nat) (xs : List Warp) (seq : List Slot) : List Host.Cell :=
  (List.range ws.length).foldl (fun mem i => (List.range 32).foldl (fun mem l =>
    smPuts unwritten mem (((xs.find? fun x => x.w == ws.getD i 0).getD {}).stackAt l 0)
      (s.bytes (((xs.find? fun x => x.w == ((slotsAt seq i).getD l noSlot).w).getD {}).stackAt ((slotsAt seq i).getD l noSlot).l 0) 2048)) mem) s.mem

/-- The state once registers and stacks have moved. -/
def State.lanesMoved (s : State) (gid : Nat) (m : Word) (ws : List Nat) (xs : List Warp) (n : Nat) (seq : List Slot) : State :=
  ({ s with mem := s.stacksMoved ws xs seq } : State).mapWarps fun x =>
    if x.gid == gid && ws.contains x.w then x.regrouped xs n m (slotsAt seq (ws.idxOf x.w)) else x

/-- The paths that wait at a regroup, by warp and identifier. -/
def waiters (xs : List Warp) (m : Word) : List (Nat × Nat) := xs.filterMap fun x => match x.regroupPath m with
  | some c => some (x.w, c.1.id)
  | none => none

/-- What then follows in a participant. -/
def State.afterRegroup (ended : List (Nat × Nat)) (w : Nat) (t : State) : State :=
  let t := t.me.live.foldl (fun t p => t.trace 5 p.id p.mask 2) t
  (ended.foldl (fun t e => if e.1 = w && (t.me.path? e.2).isNone then t.trace 13 e.2 0 0 else t) t).settle

theorem afterRegroup_untraced {t : State} (h : t.me.trc.on = false) (ended : List (Nat × Nat)) (w : Nat) : t.afterRegroup ended w = t.settle := by
  have hlanes : t.me.live.foldl (fun t p => t.trace 5 p.id p.mask 2) t = t := foldl_eq_self fun p _ => trace_off t _ _ _ _ h
  have hends : ended.foldl (fun t e => if e.1 = w && (t.me.path? e.2).isNone then t.trace 13 e.2 0 0 else t) t = t := foldl_eq_self fun e _ => by
    rw [trace_off t _ _ _ _ h, ite_self]
  rw [State.afterRegroup, hlanes]
  exact congrArg State.settle hends

theorem exec_regroupMove_of_unmet {s : State} {gid : Nat} {m : Word}
    (h : s.gangOf? gid = none ∨ m = 0 ∨ ∃ w, w < 32 ∧ m.getLsbD w = true ∧ s.atRendezvous gid w m = false) : exec (.regroupMove gid m) s = .next s := by
  refine congrArg Host.Outcome.next ?_
  cases hg : s.gangOf? gid with
  | none => rfl
  | some g =>
    refine if_pos ?_
    rw [Bool.or_eq_true, decide_eq_true_eq, Bool.not_eq_true', List.all_eq_false]
    rcases h with h | h | ⟨w, hw, hm, hat⟩
    · exact nomatch hg.symm.trans h
    · exact .inl h
    · exact .inr ⟨w, mem_lanesOf.mpr ⟨hw, hm⟩, Bool.eq_false_iff.mp hat⟩

theorem exec_regroupMove_of_met {s : State} {gid : Nat} {m : Word} {g : Gang} {x : Nat → Warp} (hg : s.gangOf? gid = some g) (h0 : m ≠ 0)
    (hat : ∀ w ∈ lanesOf m, s.atRendezvous gid w m = true) (hx : ∀ w ∈ lanesOf m, s.warpOf? gid w = some (x w)) :
    exec (.regroupMove gid m) s = .next ((lanesOf m).foldl (fun t w => t.within gid w (State.afterRegroup (waiters ((lanesOf m).map x) m) w))
      (s.lanesMoved gid m (lanesOf m) ((lanesOf m).map x) g.regsN (regroupSeq ((lanesOf m).map x) m))) := by
  have hxs : (lanesOf m).filterMap (fun w => s.warpOf? gid w) = (lanesOf m).map x := by
    rw [List.filterMap_congr hx]
    exact congrFun List.filterMap_eq_map (lanesOf m)
  have hgo : ¬ (decide (m = 0) || !((lanesOf m).all fun w => s.atRendezvous gid w m)) = true := by
    rw [List.all_eq_true.mpr hat, decide_eq_false h0]
    exact Bool.false_ne_true
  rw [← hxs]
  refine congrArg Host.Outcome.next ?_
  rw [hg]
  exact if_neg hgo

end Sys2Proof.Machine

/-! The participants of a regroup: which slot comes to each of their lanes, and what the move leaves in it (06_integer R162, R163). -/

namespace Sys2Proof.Machine

theorem stacksMoved_eq (s : State) (ws : List Nat) (xs : List Warp) (seq : List Slot) : s.stacksMoved ws xs seq =
    putRuns (stackRuns ws.length (fun i => ((xs.find? fun x => x.w == ws.getD i 0).getD {}).stack) fun i l =>
      s.bytes (((xs.find? fun x => x.w == ((slotsAt seq i).getD l noSlot).w).getD {}).stackAt ((slotsAt seq i).getD l noSlot).l 0) 2048) s.mem := by
  rw [putRuns, stackRuns, List.foldl_flatMap]
  simp only [List.foldl_map]
  rfl

theorem length_bytes (s : State) (a n : Nat) : (s.bytes a n).length = n := by simp [State.bytes, smGets]

theorem getElem_bytes (s : State) {a n j : Nat} (h : j < (s.bytes a n).length) : (s.bytes a n)[j] = s.byte (a + j) := by
  simp [State.bytes, smGets, State.byte]

/-- The move gives a warp paths, registers and codes, and leaves it all else. -/
theorem regrouped_frame (x : Warp) (xs : List Warp) (n : Nat) (m : Word) (seq : List Slot) : x.regrouped xs n m seq =
    { x with cur := (x.regrouped xs n m seq).cur, paths := (x.regrouped xs n m seq).paths, regs := (x.regrouped xs n m seq).regs,
             fm := { x.fm with codes := (x.regrouped xs n m seq).fm.codes } } := by
  unfold Warp.regrouped
  split <;> rfl

theorem getD_slotsAt_idxOf {m : Word} (seq : List Slot) {i w l : Nat} (hi : (lanesOf m)[i]? = some w) (hl : l < 32) :
    (slotsAt seq ((lanesOf m).idxOf w)).getD l noSlot = seq.getD (32 * i + l) noSlot := by
  obtain ⟨hlt, rfl⟩ := List.getElem?_eq_some_iff.mp hi
  rw [(lanesOf_nodup m).idxOf_getElem i hlt, getD_slotsAt hl]

/-- A warp waits at a regroup of a mask, with one path alone, and nothing else goes on in it. -/
structure Participant (s : State) (gid : Nat) (m : Word) (w : Nat) (x : Warp) (p : Path) (d : BitVec 7) (ks : List Word) (c : BitVec 48) (k : Nat) : Prop where
  met : s.atRendezvous gid w m = true
  warp : s.warpOf? gid w = some x
  alone : x.live = [p]
  held : p.st = .held (.regroup m d ks c k)
  snap : p.snap = none
  running : x.pre.st = .run
  untraced : x.trc.on = false

/-- Every warp that a mask names does. -/
def Rendezvous (s : State) (gid : Nat) (m : Word) (x : Nat → Warp) (p : Nat → Path) (d : Nat → BitVec 7) (ks : Nat → List Word) (c : Nat → BitVec 48)
    (k : Nat → Nat) : Prop := ∀ w ∈ lanesOf m, Participant s gid m w (x w) (p w) (d w) (ks w) (c w) (k w)

/-- The slots of the participants as they are to go. -/
abbrev regroupOrder (m : Word) (x : Nat → Warp) : List Slot := regroupSeq ((lanesOf m).map x) m

/-- A participant with the registers and lanes that come to it. -/
abbrev regroupWarp (m : Word) (x : Nat → Warp) (n w : Nat) : Warp :=
  (x w).regrouped ((lanesOf m).map x) n m (slotsAt (regroupOrder m x) ((lanesOf m).idxOf w))

namespace Rendezvous

variable {s : State} {gid : Nat} {m : Word} {x : Nat → Warp} {p : Nat → Path} {d : Nat → BitVec 7} {ks : Nat → List Word} {c : Nat → BitVec 48} {k : Nat → Nat}
  (h : Rendezvous s gid m x p d ks c k)
include h

theorem no {w : Nat} (hw : w ∈ lanesOf m) : (x w).gid = gid ∧ (x w).w = w := (of_warpOf? (h w hw).warp).2

theorem stays {w : Nat} (hw : w ∈ lanesOf m) : (x w).exited = false := by
  have hmet := (h w hw).met
  simp only [State.atRendezvous, (h w hw).warp, Bool.and_eq_true, State.onCore, Bool.not_eq_true'] at hmet
  tauto

theorem find?_participant {w : Nat} (hw : w ∈ lanesOf m) : ((lanesOf m).map x).find? (fun y => y.w == w) = some (x w) := by
  rw [List.find?_map]
  cases hf : (lanesOf m).find? ((fun y : Warp => y.w == w) ∘ x) with
  | none => exact absurd (List.find?_eq_none.mp hf w hw) (by simp [h.no hw])
  | some v =>
    have hv : (x v).w = w := by simpa using List.find?_some hf
    rw [Option.map_some, ← hv, (h.no (List.mem_of_find?_eq_some hf)).2]

theorem sequence : Sequence (fun w => (p w).mask) ks (lanesOf m) (regroupOrder m x) := by
  have hslots : slotsOf (fun w => (p w).mask) ks (lanesOf m) = ((lanesOf m).map x).flatMap fun y => match y.regroupPath m with
      | none => []
      | some (p, _, keys, _, _) => (List.range 32).map fun l =>
        ({ w := y.w, l := l, live := p.mask.getLsbD l, key := (keys.getD l 0).toNat } : Slot) := by
    rw [slotsOf, List.flatMap_map]
    refine List.flatMap_congr fun w hw => ?_
    rw [regroupPath_of_alone (h w hw).alone (h w hw).held, (h.no hw).2]
  have hseq := sequence_of_foldl (lane := fun w => (p w).mask) (keys := ks) (lanesOf_sorted m)
  rw [hslots] at hseq
  exact hseq

/-- The slot that goes to a lane of a participant. -/
theorem slot_mem {i w l : Nat} (hi : (lanesOf m)[i]? = some w) (hl : l < 32) :
    (regroupOrder m x).getD (32 * i + l) noSlot ∈ slotsOf (fun w => (p w).mask) ks (lanesOf m) := by
  obtain ⟨hlt, -⟩ := List.getElem?_eq_some_iff.mp hi
  exact h.sequence.getD_mem (by omega) noSlot

/-! ### What the move leaves -/

/-- Registers and stacks move at once. -/
theorem lanesMoved_spec {g : Gang} (hs : s.Issuing) (hg : s.gangOf? gid = some g) {t : State}
    (ht : t = s.lanesMoved gid m (lanesOf m) ((lanesOf m).map x) g.regsN (regroupOrder m x)) :
    t.Issuing ∧ t.gangOf? gid = some g ∧ t.mem = s.stacksMoved (lanesOf m) ((lanesOf m).map x) (regroupOrder m x) ∧
      ∀ w ∈ lanesOf m, t.warpOf? gid w = some (regroupWarp m x g.regsN w) := by
  obtain ⟨f, hf⟩ : ∃ f : Warp → Warp, f = fun y => if y.gid == gid && (lanesOf m).contains y.w then
      y.regrouped ((lanesOf m).map x) g.regsN m (slotsAt (regroupOrder m x) ((lanesOf m).idxOf y.w)) else y := ⟨_, rfl⟩
  have hsame (y : Warp) : (f y).gid = y.gid ∧ (f y).w = y.w := by
    rw [hf]
    dsimp only
    split
    · rw [regrouped_frame]
      exact ⟨rfl, rfl⟩
    · exact ⟨rfl, rfl⟩
  obtain ⟨u, hu⟩ : ∃ u : State, u = { s with mem := s.stacksMoved (lanesOf m) ((lanesOf m).map x) (regroupOrder m x) } := ⟨_, rfl⟩
  have htu : t = u.mapWarps f := by rw [ht, hu, hf]; rfl
  have hui : u.Issuing := by rw [hu]; exact ⟨hs.apart, hs.warp, hs.gang⟩
  rw [htu]
  refine ⟨⟨hui.apart.mapWarps hsame, ?_, ?_⟩, by rw [hu]; exact hg, by rw [hu]; rfl, fun w hw => ?_⟩
  · rw [mapWarps_me, (hsame _).1]
    exact hui.warp
  · rw [mapWarps_me, mapWarps_gang, (hsame _).1]
    exact hui.gang
  · have hx : u.warpOf? gid w = some (x w) := by rw [hu]; exact (h w hw).warp
    obtain ⟨hgid, hno⟩ := h.no hw
    rw [warpOf?_mapWarps hsame, hx, Option.map_some, hf]
    dsimp only
    rw [hno, if_pos (by simp [hgid, hw])]

/-- A participant to which lanes have come goes on. -/
theorem afterRegroup_spec {w n : Nat} (hw : w ∈ lanesOf m) (hlive : comers (slotsAt (regroupOrder m x) ((lanesOf m).idxOf w)) ≠ 0) {u : State}
    (hu : u.me = regroupWarp m x n w) (ended : List (Nat × Nat)) : ∃ y, u.afterRegroup ended w = { u with me := y } ∧ PathsOnly (regroupWarp m x n w) y := by
  have hsame := hu.trans (regrouped_frame ..)
  have htrc : u.me.trc.on = false := by rw [hsame]; exact (h w hw).untraced
  have hex : u.me.exited = false := by rw [hsame]; exact h.stays hw
  have hrun : u.me.pre.st = .run := by rw [hsame]; exact (h w hw).running
  have hlone := (congrArg Warp.live hu).trans (live_regrouped (h w hw).alone (h w hw).held (h w hw).snap hlive)
  rw [← hu, afterRegroup_untraced htrc]
  exact settle_of_lone_ready hex hrun hlone rfl

/-- Registers and stacks move, and each participant goes on. -/
theorem exists_moved {g : Gang} (hs : s.Issuing) (hg : s.gangOf? gid = some g) (h0 : m ≠ 0)
    (hlive : ∀ w ∈ lanesOf m, comers (slotsAt (regroupOrder m x) ((lanesOf m).idxOf w)) ≠ 0) :
    ∃ t, exec (.regroupMove gid m) s = .next t ∧ t.mem = s.stacksMoved (lanesOf m) ((lanesOf m).map x) (regroupOrder m x) ∧
      ∀ w ∈ lanesOf m, ∃ y, t.warpOf? gid w = some y ∧ PathsOnly (regroupWarp m x g.regsN w) y := by
  obtain ⟨hissue, hgang, hmem, hwarp⟩ := h.lanesMoved_spec hs hg rfl
  obtain ⟨hmem', hall, -⟩ := foldl_within (f := State.afterRegroup (waiters ((lanesOf m).map x) m)) hissue hgang (lanesOf_nodup m) hwarp
    (fun y z hyz => by rw [hyz.1]; exact ⟨rfl, rfl⟩) fun w hw u hu => h.afterRegroup_spec hw (hlive w hw) hu _
  exact ⟨_, exec_regroupMove_of_met hg h0 (fun w hw => (h w hw).met) fun w hw => (h w hw).warp, hmem'.trans hmem, hall⟩

/-- A byte on no participant's stack. -/
theorem stacksMoved_byte_ne {a : Nat} (ha : ∀ w ∈ lanesOf m, ¬ ((x w).stack ≤ a ∧ a < (x w).stack + 65536)) :
    smGet unwritten (s.stacksMoved (lanesOf m) ((lanesOf m).map x) (regroupOrder m x)) a = s.byte a := by
  rw [stacksMoved_eq]
  refine smGet_stackRuns_ne (fun i l => length_bytes _ _ _) (fun i hi => ?_) s.mem
  have hw : (lanesOf m).getD i 0 ∈ lanesOf m := by
    rw [List.getD_eq_getElem _ _ hi]
    exact List.getElem_mem hi
  rw [h.find?_participant hw]
  exact ha _ hw

/-- A byte of the stack of a lane of a participant. -/
theorem stacksMoved_byte (hap : ∀ w ∈ lanesOf m, ∀ v ∈ lanesOf m, w ≠ v → (x w).stack + 65536 ≤ (x v).stack ∨ (x v).stack + 65536 ≤ (x w).stack)
    {i w l j : Nat} (hi : (lanesOf m)[i]? = some w) (hl : l < 32) (hj : j < 2048) :
    smGet unwritten (s.stacksMoved (lanesOf m) ((lanesOf m).map x) (regroupOrder m x)) ((x w).stack + l * 2048 + j) =
      s.byte ((x ((regroupOrder m x).getD (32 * i + l) noSlot).w).stack + ((regroupOrder m x).getD (32 * i + l) noSlot).l * 2048 + j) := by
  obtain ⟨hlt, hwi⟩ := List.getElem?_eq_some_iff.mp hi
  have hget {i : Nat} (hi : i < (lanesOf m).length) :
      (((lanesOf m).map x).find? fun y => y.w == (lanesOf m).getD i 0).getD {} = x (lanesOf m)[i] := by
    rw [List.getD_eq_getElem _ _ hi, h.find?_participant (List.getElem_mem hi), Option.getD_some]
  have hbase : ((((lanesOf m).map x).find? fun y => y.w == (lanesOf m).getD i 0).getD {}).stack = (x w).stack := by rw [hget hlt, hwi]
  have hsrc := (mem_slotsOf.mp (h.slot_mem hi hl)).1
  rw [stacksMoved_eq, ← hbase]
  refine (smGet_stackRuns (fun i l => length_bytes _ _ _) (fun i j hij hj => ?_) hlt hl hj s.mem).trans ?_
  · rw [hget (hij.trans hj), hget hj]
    exact hap _ (List.getElem_mem _) _ (List.getElem_mem _) fun he => hij.ne ((lanesOf_nodup m).getElem_inj_iff.mp he)
  · rw [getElem_bytes, getD_slotsAt hl, h.find?_participant hsrc]
    rfl

/-- The registers of a participant: those of the slots that come, and vD with their numbers in the lanes. -/
theorem regroupWarp_regs {n i w : Nat} (hi : (lanesOf m)[i]? = some w) :
    let src (l : Nat) : Slot := (regroupOrder m x).getD (32 * i + l) noSlot
    let y := regroupWarp m x n w
    y.regs.u = (x w).regs.u ∧ ∀ l, l < 32 →
      (∀ k, k < n → y.regs.getV k l =
        if k = (d w).toNat ∧ (src l).live = true then BitVec.ofNat 32 ((src l).w * 32 + (src l).l) else (x (src l).w).regs.getV k (src l).l) ∧
      (∀ k, k < 7 → (y.regs.getP k).getLsbD l = ((x (src l).w).regs.getP k).getLsbD (src l).l) ∧
      y.regs.getF l = (x (src l).w).regs.getF (src l).l ∧ y.regs.getD l = (x (src l).w).regs.getD (src l).l ∧
      smGet (0 : BitVec 8) y.fm.codes l = smGet 0 (x (src l).w).fm.codes (src l).l := by
  intro src y
  have hw : w ∈ lanesOf m := List.mem_of_getElem? hi
  have hlen : (slotsAt (regroupOrder m x) ((lanesOf m).idxOf w)).length = 32 := length_slotsAt (by
    have hlt := List.idxOf_lt_length_of_mem hw
    have hseq := h.sequence.length_eq
    omega)
  have hsrc (l : Nat) (hl : l < 32) := getD_slotsAt_idxOf (regroupOrder m x) hi hl
  obtain ⟨hu, hregs⟩ := regrouped_regs (n := n) (xs := (lanesOf m).map x) (src := fun l => x (src l).w) (h w hw).alone (h w hw).held
    (fun l hl => by rw [hsrc l hl]; exact h.find?_participant (mem_slotsOf.mp (h.slot_mem hi hl)).1) hlen
  refine ⟨hu, fun l hl => ?_⟩
  have hl' := hregs l hl
  rw [hsrc l hl] at hl'
  exact hl'

end Rendezvous

end Sys2Proof.Machine

namespace Sys2Proof

open Machine

/-- Settles O53: the checks one by one; then the move, by the sequence of the slots and by what the participants are given from it. -/
theorem regroup : Obligations.Regroup := by
  unfold Obligations.Regroup
  intro s
  refine ⟨fun d a b => ?_, fun gid m => ⟨fun h => ⟨s, exec_regroupMove_of_unmet h, rfl⟩, ?_⟩⟩
  · intro ms lanesSame names there whole
    refine ⟨exec_regroup_of_not_whole, fun l0 hwhole hact hl0 hlow => ?_⟩
    have hfirst : s.first = l0 := firstOf_eq hl0 hact hlow
    refine ⟨fun hlike hbad => ?_, fun l1 hact1 hl1 hne hbelow => exec_regroup_of_unlike hwhole hfirst hl1 hact1 hne hbelow, fun hlike hme hthere => ?_⟩
    · rw [exec_regroup_of_like hwhole hfirst hlike, if_pos]
      rw [Bool.or_eq_true, Bool.not_eq_true', any_lacks_iff]
      exact hbad
    · have hpass : ¬ (!(s.v b l0).getLsbD s.me.w || (lanesOf (s.v b l0)).any s.lacks) = true := by
        rw [Bool.or_eq_true, Bool.not_eq_true', any_lacks_iff, hme]
        rintro (hno | ⟨w, hw, hno⟩)
        · cases hno
        · obtain ⟨y, hy⟩ := hthere w hw
          exact hno y hy
      rw [exec_regroup_of_like hwhole hfirst hlike, if_neg hpass]
      intro other
      exact ⟨fun ho => congrArg Host.Outcome.next (if_pos (any_elsewhere_iff.mpr ho)), fun ho => congrArg Host.Outcome.next (if_neg (mt any_elsewhere_iff.mp ho))⟩
  · intro g x p d ks c k ws live key place before count hg h0 hgang hapart hm hcount hws hstacks
    have h : Rendezvous s gid m x p d ks c k := fun w hw => by
      obtain ⟨hmet, hwarp, halone, hheld, hsnap, -, hrun, htrc⟩ := hws w hw
      exact ⟨hmet, hwarp, halone, hheld, hsnap, hrun, htrc⟩
    have hsrc {i : Nat} (hi : i < 32 * (lanesOf m).length) := mem_slotsOf.mp (h.sequence.getD_mem hi noSlot)
    have hcomers (w : Nat) (hw : w ∈ lanesOf m) : comers (slotsAt (regroupOrder m x) ((lanesOf m).idxOf w)) ≠ 0 := by
      refine comers_ne_zero ?_
      rw [getD_slotsAt (by decide)]
      exact h.sequence.getD_live (List.idxOf_lt_length_of_mem hw) hcount noSlot
    obtain ⟨t, ht, hmem, hwarps⟩ := h.exists_moved ⟨hapart, h0, hgang⟩ hg hm hcomers
    refine ⟨t, ht, fun i => (((regroupOrder m x).getD i noSlot).w, ((regroupOrder m x).getD i noSlot).l), fun i hi => ⟨(hsrc hi).1, (hsrc hi).2.1⟩,
      fun i j hij hj => ?_, fun j hj => ?_, fun i w hi => ?_⟩
    · obtain ⟨-, -, hlive, hkey⟩ := hsrc (hij.trans hj)
      obtain ⟨-, -, hlive', hkey'⟩ := hsrc hj
      have hbefore := Slot.before_iff.mp (h.sequence.getD_before hij hj noSlot)
      rw [hlive, hlive', hkey, hkey'] at hbefore
      exact hbefore
    · show smGet unwritten t.mem j = _
      rw [hmem]
      exact h.stacksMoved_byte_ne hj
    · have hw : w ∈ lanesOf m := List.mem_of_getElem? hi
      have hlt : i < (lanesOf m).length := (List.getElem?_eq_some_iff.mp hi).1
      intro src from_
      obtain ⟨y, hy, hpaths, hl⟩ := hwarps w hw
      have hlive (l : Nat) (hl : l < 32) : ((regroupOrder m x).getD (32 * i + l) noSlot).live = live (src l) := by
        obtain ⟨-, -, hlive, -⟩ := hsrc (i := 32 * i + l) (by omega)
        exact hlive
      obtain ⟨hu, hregs⟩ := h.regroupWarp_regs (n := g.regsN) hi
      have hyr : y.regs = (regroupWarp m x g.regsN w).regs := by rw [hpaths]
      have hyc : y.fm.codes = (regroupWarp m x g.regsN w).fm.codes := by rw [hpaths]
      refine ⟨y, hy, ?_, hyr ▸ hu, ⟨_, hl.trans (live_regrouped (h w hw).alone (h w hw).held (h w hw).snap (hcomers w hw)), fun l hl => ?_⟩, fun l hl => ?_⟩
      · rw [hpaths, regroupWarp, regrouped_frame]
      · rw [comers_getLsbD hl, getD_slotsAt_idxOf _ hi hl]
        exact hlive l hl
      · obtain ⟨hv, hp, hf, hd, hcodes⟩ := hregs l hl
        rw [hyr, hyc]
        refine ⟨fun n hn => ?_, hp, hf, hd, hcodes, fun j hj => ?_⟩
        · rw [hv n hn, hlive l hl]
        · show smGet unwritten t.mem _ = _
          rw [hmem]
          exact h.stacksMoved_byte hstacks hi hl hj

end Sys2Proof

/-! Arithmetic of floating point: each result is the one rounding of the exact one (07_numbers R169 to R176, R181). -/

namespace Sys2Proof.Machine

section
variable {s : State}

/-- An instruction that writes results with flags gives results of which a predicate holds, lane by lane. -/
theorem gives_setF_of {i : Instr} {d : BitVec 7} {f : Nat → FRes} {P : Nat → FRes → Prop} (h : exec i s = .next (s.setF d f))
    (hf : ∀ l, l < 32 → P l (f l)) : Gives i s fun t => ∃ g, FloatResult s t d g ∧ ∀ l, l < 32 → P l (g l) := ⟨_, h, f, setF_result s d f, hf⟩

end

section
variable {f : Fmt} (hf : f.Ieee)
include hf

theorem sumOf_addBits (mode : RoundMode) (a b : Nat) : SumOf f mode (f.decode a) (f.decode b) (f.addBits mode a b) :=
  addBits_eq f mode a b ▸ sum_spec f hf mode _ _ _ rfl

theorem sumOf_subBits (a b : Nat) : SumOf f .ne (f.decode a) (f.decode b).neg (f.subBits a b) := subBits_eq f a b ▸ sum_spec f hf .ne _ _ _ rfl

theorem productOf_mulBits (mode : RoundMode) (a b : Nat) : ProductOf f mode (f.decode a) (f.decode b) (f.mulBits mode a b) :=
  mulBits_eq f mode a b ▸ prod_spec f hf mode _ _ _ rfl

theorem fusedOf_fmaBits (mode : RoundMode) (a b c : Nat) : FusedOf f mode (f.decode a) (f.decode b) (f.decode c) (f.fmaBits mode a b c) :=
  fmaBits_eq f mode a b c ▸ fused_spec f hf mode _ _ _ _ rfl

end

/-- The 16-bit elements of a word (R168). -/
def wordHalf (x : Word) (i : Nat) : Nat := x.toNat / 2 ^ (16 * i) % 2 ^ 16

/-- A packed operation works on each element alone (R181). -/
theorem packed2_of_halves {f : Nat → Nat → Nat → FRes} {a b c : Word} {P : Nat → FRes → Prop} (h : ∀ i, P i (f (wordHalf a i) (wordHalf b i) (wordHalf c i))) :
    ∃ lo hi, P 0 lo ∧ P 1 hi ∧ packed2 f a.toNat b.toNat c.toNat = ⟨lo.bits + 2 ^ 16 * hi.bits, lo.fl ||| hi.fl⟩ :=
  ⟨_, _, h 0, h 1, by simp [packed2, wordHalf]⟩

end Sys2Proof.Machine

namespace Sys2Proof

open Machine

/-- Settles O7: each form by the rule for its helper, for both elements of a packed one. -/
theorem floatArithmetic : Obligations.FloatArithmetic := by
  unfold Obligations.FloatArithmetic
  intro s val half both
  refine ⟨fun d a b r => gives_setF_of rfl fun l _ => sumOf_addBits fmtF32_ieee r _ _, fun d a b => gives_setF_of rfl fun l _ => sumOf_subBits fmtF32_ieee _ _,
    fun d a b r => gives_setF_of rfl fun l _ => productOf_mulBits fmtF32_ieee r _ _,
    fun d a b r => gives_setF_of rfl fun l _ => fusedOf_fmaBits fmtF32_ieee r _ _ _, ?_⟩
  simp only [List.forall_mem_cons]
  refine ⟨⟨fun d a b => gives_setF_of rfl fun l _ => ?_, fun d a b => gives_setF_of rfl fun l _ => ?_, fun d a b => gives_setF_of rfl fun l _ => ?_⟩,
    ⟨fun d a b => gives_setF_of rfl fun l _ => ?_, fun d a b => gives_setF_of rfl fun l _ => ?_, fun d a b => gives_setF_of rfl fun l _ => ?_⟩, nofun⟩
  · exact packed2_of_halves (f := fun a b _ => fmtF16.addBits .ne a b) (c := 0) fun i => sumOf_addBits fmtF16_ieee .ne _ _
  · exact packed2_of_halves (f := fun a b _ => fmtF16.mulBits .ne a b) (c := 0) fun i => productOf_mulBits fmtF16_ieee .ne _ _
  · exact packed2_of_halves fun i => fusedOf_fmaBits fmtF16_ieee .ne _ _ _
  · exact packed2_of_halves (f := fun a b _ => fmtBf16.addBits .ne a b) (c := 0) fun i => sumOf_addBits fmtBf16_ieee .ne _ _
  · exact packed2_of_halves (f := fun a b _ => fmtBf16.mulBits .ne a b) (c := 0) fun i => productOf_mulBits fmtBf16_ieee .ne _ _
  · exact packed2_of_halves fun i => fusedOf_fmaBits fmtBf16_ieee .ne _ _ _

end Sys2Proof

/-! FP32 words: their classes and their order (07_numbers R165, R171, R175, R178). -/

namespace Sys2Proof.Machine

/-! ### What an FP32 word stands for -/

section
variable (x : Word)

/-- The magnitude of a word: all but its sign. -/
def magF32 : Nat := x.toNat % 2 ^ 31

/-- The sign of a word. -/
def signF32 : Bool := x.getLsbD 31

/-- Magnitudes above that of an infinity are NaNs. -/
def nanF32 : Bool := decide (0x7F800000 < magF32 x)

/-- A NaN signals where its quiet bit is 0. -/
def snanF32 : Bool := nanF32 x && !x.getLsbD 22

/-- The significand of a finite word. -/
def sigF32 : Nat := if magF32 x / 2 ^ 23 = 0 then magF32 x % 2 ^ 23 else 2 ^ 23 + magF32 x % 2 ^ 23

/-- The weight of a finite word's last significand bit, as a power of two. -/
def expF32 : Int := -149 + (magF32 x / 2 ^ 23 - 1 : Nat)

theorem magF32_lt : magF32 x < 2 ^ 31 := Nat.mod_lt _ (by norm_num)

theorem signF32_eq : (x.toNat / 2 ^ 31 % 2 == 1) = signF32 x := by
  rw [signF32, BitVec.getLsbD, Nat.testBit_eq_decide_div_mod_eq]
  rfl

theorem toNat_eq_sign_add_mag : x.toNat = (if signF32 x then 2 ^ 31 else 0) + magF32 x := by
  have hx := x.isLt
  have h := signF32_eq x
  unfold magF32
  cases hs : signF32 x <;> simp only [hs, beq_iff_eq, beq_eq_false_iff_ne, if_true, Bool.false_eq_true, if_false] at h ⊢ <;> omega

/-- Words with the same sign and magnitude are the same. -/
theorem eq_iff_sign_mag {x y : Word} : x = y ↔ signF32 x = signF32 y ∧ magF32 x = magF32 y := by
  refine ⟨fun h => h ▸ ⟨rfl, rfl⟩, fun ⟨hs, hm⟩ => BitVec.eq_of_toNat_eq ?_⟩
  rw [toNat_eq_sign_add_mag x, toNat_eq_sign_add_mag y, hs, hm]

theorem decode_f32 : fmtF32.decode x.toNat = if nanF32 x then .nan (!x.getLsbD 22) else if magF32 x = 0x7F800000 then .inf (signF32 x)
    else .fin (signF32 x) (sigF32 x) (expF32 x) := by
  have hlt := magF32_lt x
  have hq : (magF32 x % 2 ^ 23 / 2 ^ 22 % 2 == 0) = !x.getLsbD 22 := by
    have hbit : magF32 x % 2 ^ 23 / 2 ^ 22 % 2 = x.toNat / 2 ^ 22 % 2 := by unfold magF32; omega
    rw [hbit, BitVec.getLsbD, Nat.testBit_eq_decide_div_mod_eq]
    rcases Nat.mod_two_eq_zero_or_one (x.toNat / 2 ^ 22) with h | h <;> rw [h] <;> rfl
  have hdec : fmtF32.decode x.toNat = if magF32 x / 2 ^ 23 = 255 then (if magF32 x % 2 ^ 23 = 0 then .inf (signF32 x) else .nan (!x.getLsbD 22))
      else if magF32 x / 2 ^ 23 = 0 then .fin (signF32 x) (magF32 x % 2 ^ 23) (-149)
      else .fin (signF32 x) (2 ^ 23 + magF32 x % 2 ^ 23) (-149 + (magF32 x / 2 ^ 23 - 1 : Nat)) := by
    rw [← hq, ← signF32_eq]
    simp [Fmt.decode, fmtF32, magF32]
  rw [hdec]
  unfold nanF32 sigF32 expF32
  simp only [decide_eq_true_eq]
  by_cases hn : 0x7F800000 < magF32 x
  · rw [if_pos hn, if_pos (by omega), if_neg (by omega)]
  · rw [if_neg hn]
    by_cases hi : magF32 x = 0x7F800000
    · rw [if_pos hi, hi]
      rfl
    · rw [if_neg hi, if_neg (by omega)]
      by_cases h0 : magF32 x / 2 ^ 23 = 0
      · rw [if_pos h0, if_pos h0, h0]
        rfl
      · rw [if_neg h0, if_neg h0]

variable {x}

theorem decode_f32_of_nan (h : nanF32 x = true) : fmtF32.decode x.toNat = .nan (!x.getLsbD 22) := by rw [decode_f32, if_pos h]

theorem decode_f32_of_inf (h : magF32 x = 0x7F800000) : fmtF32.decode x.toNat = .inf (signF32 x) := by
  rw [decode_f32, if_neg (by simp [nanF32, h]), if_pos h]

theorem decode_f32_of_finite (h : magF32 x < 0x7F800000) : fmtF32.decode x.toNat = .fin (signF32 x) (sigF32 x) (expF32 x) := by
  rw [decode_f32, if_neg (by simp [nanF32, h.le]), if_neg h.ne]

theorem sigF32_eq_zero : sigF32 x = 0 ↔ magF32 x = 0 := by unfold sigF32; split <;> omega
theorem sigF32_lt : sigF32 x < 2 ^ 24 := by unfold sigF32; split <;> omega
theorem sigF32_lt_iff : sigF32 x < 2 ^ 23 ↔ magF32 x < 2 ^ 23 := by unfold sigF32; split <;> omega
theorem le_expF32 : -149 ≤ expF32 x := by unfold expF32; omega
theorem expF32_le (h : magF32 x < 0x7F800000) : expF32 x ≤ 104 := by unfold expF32; omega

/-- NaN, an infinity, or finite. -/
theorem class_f32 (x : Word) : nanF32 x = true ∨ (nanF32 x = false ∧ magF32 x = 0x7F800000) ∨ (nanF32 x = false ∧ magF32 x < 0x7F800000) := by
  unfold nanF32
  rw [decide_eq_true_eq, decide_eq_false_iff_not]
  omega

end

theorem isNan_decode_f32 (x : Word) : (fmtF32.decode x.toNat).isNan = nanF32 x := by
  rcases class_f32 x with h | ⟨h, hi⟩ | ⟨h, hf⟩
  · rw [decode_f32_of_nan h, h]; rfl
  · rw [decode_f32_of_inf hi, h]; rfl
  · rw [decode_f32_of_finite hf, h]; rfl

/-- NV of an operand (R171). -/
theorem nv_decode_f32 (x : Word) : (fmtF32.decode x.toNat).nv = nvIf (snanF32 x) := by
  rw [signals_nv, snanF32]
  rcases class_f32 x with h | ⟨h, hi⟩ | ⟨h, hf⟩
  · rw [decode_f32_of_nan h, h]; rfl
  · rw [decode_f32_of_inf hi, h]; rfl
  · rw [decode_f32_of_finite hf, h]; rfl

theorem nvIf_or (a b : Bool) : nvIf a ||| nvIf b = nvIf (a || b) := nv_or a b

/-! ### The order of FP32 words (R175, R178) -/

/-- The place of a word in the order of values. -/
def valF32 (x : Word) : Int := if signF32 x then -(magF32 x : Int) else magF32 x

theorem f32Val_toNat (x : Word) : f32Val x.toNat = valF32 x := by
  simp only [f32Val, valF32, ← signF32_eq, beq_iff_eq]
  rfl

/-- The order of fmin and fmax: by value, −0 below +0. -/
theorem f32Key_le_iff (x y : Word) : f32Key x.toNat ≤ f32Key y.toNat ↔ valF32 x < valF32 y ∨ (valF32 x = valF32 y ∧ (x = y ∨ signF32 x = true)) := by
  have hkey (x : Word) : f32Key x.toNat = if signF32 x then -(magF32 x : Int) - 1 else magF32 x := by
    simp only [f32Key, ← signF32_eq, beq_iff_eq]
    rfl
  rw [hkey, hkey, eq_iff_sign_mag]
  unfold valF32
  cases signF32 x <;> cases signF32 y <;> simp <;> omega

/-- What the lesser or the greater of two words is, by the order that puts it first (R175). -/
def ExtremeOf (first : Word → Word → Prop) (x y : Word) (r : FRes) : Prop :=
  r.fl = nvIf (snanF32 x || snanF32 y) ∧ (nanF32 x = true → nanF32 y = true → r.bits = 0x7FC00000) ∧
    (nanF32 x = true → nanF32 y = false → r.bits = y.toNat) ∧ (nanF32 x = false → nanF32 y = true → r.bits = x.toNat) ∧
    (nanF32 x = false → nanF32 y = false → r.bits = x.toNat ∧ first x y ∨ r.bits = y.toNat ∧ first y x)

theorem extremeOf_fminmax (max : Bool) {first : Word → Word → Prop}
    (hfirst : ∀ x y, first x y ↔ if max then f32Key y.toNat ≤ f32Key x.toNat else f32Key x.toNat ≤ f32Key y.toNat) (x y : Word) :
    ExtremeOf first x y (fminmax max x.toNat y.toNat) := by
  have hfl : (fminmax max x.toNat y.toNat).fl = nvIf (snanF32 x || snanF32 y) := by
    rw [← nvIf_or, ← nv_decode_f32, ← nv_decode_f32]
    unfold fminmax
    cases isNanF32 x.toNat <;> cases isNanF32 y.toNat <;> rfl
  have hbits : (fminmax max x.toNat y.toNat).bits = match nanF32 x, nanF32 y with
      | true, true => 0x7FC00000
      | true, false => y.toNat
      | false, true => x.toNat
      | false, false => if max then (if f32Key x.toNat < f32Key y.toNat then y.toNat else x.toNat)
        else if f32Key y.toNat < f32Key x.toNat then y.toNat else x.toNat := by
    rw [← isNan_decode_f32, ← isNan_decode_f32]
    unfold fminmax isNanF32
    cases (fmtF32.decode x.toNat).isNan <;> cases (fmtF32.decode y.toNat).isNan <;> rfl
  refine ⟨hfl, fun hx hy => ?_, fun hx hy => ?_, fun hx hy => ?_, fun hx hy => ?_⟩ <;> simp only [hx, hy] at hbits
  · exact hbits
  · exact hbits
  · exact hbits
  · rw [hbits, hfirst, hfirst]
    cases max with
    | false =>
      by_cases h : f32Key y.toNat < f32Key x.toNat
      · exact .inr ⟨if_pos h, h.le⟩
      · exact .inl ⟨if_neg h, not_lt.mp h⟩
    | true =>
      by_cases h : f32Key x.toNat < f32Key y.toNat
      · exact .inr ⟨if_pos h, h.le⟩
      · exact .inl ⟨if_neg h, not_lt.mp h⟩

/-- fcmp (R178): the condition, and the flags. -/
theorem fcmpBits_eq (k : FCond) (x y : Word) : fcmpBits k x.toNat y.toNat = (match k with
    | .eq => !(nanF32 x || nanF32 y) && decide (valF32 x = valF32 y)
    | .ne => nanF32 x || nanF32 y || decide (valF32 x ≠ valF32 y)
    | .lt => !(nanF32 x || nanF32 y) && decide (valF32 x < valF32 y)
    | .le => !(nanF32 x || nanF32 y) && decide (valF32 x ≤ valF32 y)
    | .gt => !(nanF32 x || nanF32 y) && decide (valF32 x > valF32 y)
    | .ge => !(nanF32 x || nanF32 y) && decide (valF32 x ≥ valF32 y)
    | .un => nanF32 x || nanF32 y
    | .ord => !(nanF32 x || nanF32 y),
    nvIf (if k = .lt ∨ k = .le ∨ k = .gt ∨ k = .ge then nanF32 x || nanF32 y else snanF32 x || snanF32 y)) := by
  simp only [fcmpBits, isNan_decode_f32, nv_decode_f32, nvIf_or, f32Val_toNat]
  cases k with
  | ne => simp [bne, Bool.beq_eq_decide_eq]
  | _ => simp [Bool.beq_eq_decide_eq]

/-- fclass (R179). -/
theorem fclassBits_eq (x : Word) : fclassBits x.toNat = 2 ^ (if snanF32 x then 0 else if nanF32 x then 1 else
    if signF32 x then (if magF32 x = 0x7F800000 then 2 else if 0x800000 ≤ magF32 x then 3 else if magF32 x ≠ 0 then 4 else 5)
    else 11 - (if magF32 x = 0x7F800000 then 2 else if 0x800000 ≤ magF32 x then 3 else if magF32 x ≠ 0 then 4 else 5)) := by
  unfold fclassBits
  rcases class_f32 x with h | ⟨h, hi⟩ | ⟨h, hf⟩
  · rw [decode_f32_of_nan h, snanF32, h]
    cases x.getLsbD 22 <;> rfl
  · rw [decode_f32_of_inf hi, snanF32, h, hi]
    cases signF32 x <;> rfl
  · rw [decode_f32_of_finite hf, snanF32, h]
    simp only [sigF32_eq_zero, sigF32_lt_iff, if_neg hf.ne]
    by_cases h0 : magF32 x = 0
    · rw [if_pos h0, h0]
      cases signF32 x <;> rfl
    · by_cases hn : magF32 x < 2 ^ 23
      · rw [if_neg h0, if_pos hn, if_neg (show ¬ 0x800000 ≤ magF32 x by omega), if_pos h0]
        cases signF32 x <;> rfl
      · rw [if_neg h0, if_neg hn, if_pos (show 0x800000 ≤ magF32 x by omega)]
        cases signF32 x <;> rfl

/-! ### Values that a format holds exactly (R169) -/

section
variable {K : Type} [Field K] [LinearOrder K] [IsStrictOrderedRing K] [FloorRing K] {f : Fmt} {mode : RoundMode} {x : K} {ovf r : FRes}

/-- Where the value is a whole number of last significand bits, rounding leaves it, and sets no flag. -/
theorem RoundsTo.of_whole (h : RoundsTo f mode x ovf r) {z : Int} (hz : x = z * 2 ^ (max (Int.log 2 |x|) f.emin - (f.p - 1 : Nat)))
    (hmax : |x| ≤ valueOf K false f.maxN f.maxQ) : r.fl = 0 ∧ ∃ m e, f.decode r.bits = .fin (decide (x < 0)) m e ∧ valueOf K (decide (x < 0)) m e = x := by
  unfold RoundsTo at h
  have hdiv : x / 2 ^ (max (Int.log 2 |x|) f.emin - (f.p - 1 : Nat)) = z := (div_eq_iff (two_zpow_pos _).ne').mpr hz
  simp only [hdiv, roundInt_intCast, ← hz, if_neg hmax.not_gt] at h
  exact ⟨h.1.trans (by simp), h.2⟩

/-- A value whose significand fits the format is held exactly. -/
theorem RoundsTo.of_fits (h : RoundsTo f mode x ovf r) {neg : Bool} {m : Nat} {e : Int} (hx : x = valueOf K neg m e) (h0 : m ≠ 0) (hm : m < 2 ^ f.p)
    (he : f.emin - (f.p - 1 : Nat) ≤ e) (hmax : (m : K) * 2 ^ e ≤ valueOf K false f.maxN f.maxQ) :
    r.fl = 0 ∧ ∃ i k, f.decode r.bits = .fin neg i k ∧ valueOf K neg i k = x := by
  have hneg : decide (x < 0) = neg := by
    rw [hx, Bool.eq_iff_iff, decide_eq_true_eq, valueOf_neg_iff neg m e h0]
  have hlog : Nat.log2 m < f.p := (Nat.log2_lt h0).mpr hm
  have hq : max (Int.log 2 |x|) f.emin - (f.p - 1 : Nat) ≤ e := by
    rw [hx, abs_valueOf, int_log_value m e h0]
    omega
  have h' := h.of_whole (z := (if neg then -1 else 1) * m * 2 ^ (e - (max (Int.log 2 |x|) f.emin - (f.p - 1 : Nat))).toNat) ?_ ?_
  · rwa [hneg] at h'
  · have hpow : (2 : K) ^ e = 2 ^ (e - (max (Int.log 2 |x|) f.emin - (f.p - 1 : Nat))).toNat * 2 ^ (max (Int.log 2 |x|) f.emin - (f.p - 1 : Nat)) := by
      rw [← zpow_natCast, Int.toNat_of_nonneg (by omega), ← zpow_add₀ two_ne_zero, sub_add_cancel]
    push_cast
    rw [mul_assoc _ ((2 : K) ^ (e - _).toNat), ← hpow, hx]
    unfold valueOf
    cases neg <;> simp
  · rw [hx, abs_valueOf]
    exact hmax

end

/-- What lies within FP32. -/
theorem le_maxF32 {m : Nat} {e : Int} (hm : m < 2 ^ 24) (he : e ≤ 104) : (m : ℚ) * 2 ^ e ≤ valueOf ℚ false fmtF32.maxN fmtF32.maxQ := by
  have hsig : (m : ℚ) ≤ (0xFFFFFF : Nat) := Nat.cast_le.mpr (Nat.le_of_lt_succ hm)
  have hmul := mul_le_mul hsig (zpow_le_zpow_right₀ one_le_two he) (two_zpow_pos e).le (Nat.cast_nonneg _)
  rw [valueOf, if_neg Bool.false_ne_true, one_mul]
  exact hmul

/-- Rounding to an integer goes to one of the two next to the value. -/
theorem roundNat_negSucc (mode : RoundMode) (neg : Bool) (m k : Nat) :
    m / 2 ^ (k + 1) ≤ (roundNat mode neg m (.negSucc k)).1 ∧ (roundNat mode neg m (.negSucc k)).1 ≤ m / 2 ^ (k + 1) + 1 := by
  obtain ⟨up, hup⟩ : ∃ up : Bool, (roundNat mode neg m (.negSucc k)).1 = if up then m / 2 ^ (k + 1) + 1 else m / 2 ^ (k + 1) := ⟨_, rfl⟩
  rw [hup]
  cases up <;> simp

/-- Rounding a value with fractional bits to an integer leaves no more than half its significand. -/
theorem roundNat_le_of_neg (mode : RoundMode) (neg : Bool) (m : Nat) {e : Int} (he : e < 0) : (roundNat mode neg m e).1 ≤ m / 2 + 1 := by
  obtain ⟨k, rfl⟩ := Int.eq_negSucc_of_lt_zero he
  obtain ⟨-, hup⟩ := roundNat_negSucc mode neg m k
  have hle : m / 2 ^ (k + 1) ≤ m / 2 := Nat.div_le_div_left (Nat.le_self_pow k.succ_ne_zero 2) two_pos
  omega

/-- frnd (R180) gives the integer that rounding a finite value gives, with its sign and without a flag. -/
theorem frndBits_of_finite (mode : RoundMode) {x : Word} (h : magF32 x < 0x7F800000) (h0 : magF32 x ≠ 0) : (frndBits mode x.toNat).fl = 0 ∧
    ∃ i k, fmtF32.decode (frndBits mode x.toNat).bits = .fin (signF32 x) i k ∧
      ratOf (signF32 x) i k = roundInt mode (ratOf (signF32 x) (sigF32 x) (expF32 x)) := by
  have hsig : sigF32 x ≠ 0 := mt sigF32_eq_zero.mp h0
  obtain ⟨hround, -⟩ := roundNat_spec (K := ℚ) mode (signF32 x) (sigF32 x) (expF32 x)
  have hbits : frndBits mode x.toNat = ⟨(fmtF32.put .z (.fin (signF32 x) (roundNat mode (signF32 x) (sigF32 x) (expF32 x)).1 0)).bits, 0⟩ := by
    simp only [frndBits, decode_f32_of_finite h, if_neg hsig]
  rw [hbits, hround]
  refine ⟨rfl, ?_⟩
  have hvalue (n : Nat) : valueOf ℚ (signF32 x) n 0 = (((if signF32 x then -1 else 1) * (n : Int) : Int) : ℚ) := by
    unfold valueOf
    cases signF32 x <;> simp
  rw [← hvalue]
  generalize hn : (roundNat mode (signF32 x) (sigF32 x) (expF32 x)).1 = n
  by_cases hn0 : n = 0
  · refine ⟨0, -149, ?_, by simp [hn0, valueOf]⟩
    rw [hn0, put_zero]
    cases signF32 x <;> rfl
  · have hput := put_rounds (K := ℚ) fmtF32 fmtF32_ieee .z (signF32 x) n 0 hn0
    by_cases he : expF32 x < 0
    · have hle := roundNat_le_of_neg mode (signF32 x) (sigF32 x) he
      have hlt : n < 2 ^ 24 := by have := @sigF32_lt x; omega
      exact (RoundsTo.of_fits hput rfl hn0 hlt (by decide) (le_maxF32 hlt (by decide))).2
    · obtain ⟨k, hk⟩ := Int.eq_ofNat_of_zero_le (not_lt.mp he)
      have hval : valueOf ℚ (signF32 x) n 0 = valueOf ℚ (signF32 x) (sigF32 x) (expF32 x) := by
        rw [← hn, hk]
        simp [valueOf, roundNat]
      exact (RoundsTo.of_fits hput hval hsig sigF32_lt le_expF32 (le_maxF32 sigF32_lt (expF32_le h))).2

/-- What rounding a word to an integral value gives (R180). -/
def IntegralOf (mode : RoundMode) (x : Word) (r : FRes) : Prop :=
  if nanF32 x = true then r = ⟨0x7FC00000, nvIf (snanF32 x)⟩
  else if magF32 x = 0 ∨ magF32 x = 0x7F800000 then r = ⟨x.toNat, 0⟩
  else ∃ n m e i k, fmtF32.decode x.toNat = .fin n m e ∧ r.fl = 0 ∧ fmtF32.decode r.bits = .fin n i k ∧ ratOf n i k = roundInt mode (ratOf n m e)

theorem integralOf_frndBits (mode : RoundMode) (x : Word) : IntegralOf mode x (frndBits mode x.toNat) := by
  unfold IntegralOf
  rcases class_f32 x with h | ⟨h, hi⟩ | ⟨h, hf⟩
  · rw [if_pos h, frndBits, decode_f32_of_nan h, snanF32, h, Bool.true_and]
  · rw [h, if_neg Bool.false_ne_true, if_pos (.inr hi), frndBits, decode_f32_of_inf hi]
  · rw [h, if_neg Bool.false_ne_true]
    by_cases h0 : magF32 x = 0
    · rw [if_pos (.inl h0)]
      simp only [frndBits, decode_f32_of_finite hf, if_pos (sigF32_eq_zero.mpr h0)]
    · obtain ⟨hfl, i, k, hdec, hval⟩ := frndBits_of_finite mode hf h0
      rw [if_neg (not_or.mpr ⟨h0, hf.ne⟩)]
      exact ⟨_, _, _, i, k, decode_f32_of_finite hf, hfl, hdec, hval⟩

/-! ### Flags (R173) -/

section
variable {s : State}

/-- The flags of a lane once some are set. -/
theorem flag_getF (g : Nat → Flags) {l : Nat} (hl : l < 32) :
    (s.flag g).me.regs.getF l = if s.act l = true then s.me.regs.getF l ||| g l else s.me.regs.getF l := Regs.getF_putF s.me.regs _ l hl

/-- A write of a predicate leaves the flags. -/
theorem setP_getF (p : BitVec 3) (f : Nat → Bool) (l : Nat) : (s.setP p f).me.regs.getF l = s.me.regs.getF l := by
  simp only [State.setP, State.setRegs, Regs.putP]
  split <;> rfl

/-- Flags as a word. -/
theorem setWidth_eq_ofNat (x : Flags) : x.setWidth 32 = BitVec.ofNat 32 x.toNat := (BitVec.ofNat_toNat 32 x).symm

/-- The flags of a lane once those of the active lanes are cleared. -/
theorem clearFlags_getF {l : Nat} (hl : l < 32) : s.clearFlags.me.regs.getF l = if s.act l = true then 0 else s.me.regs.getF l :=
  Regs.getF_putF s.me.regs _ l hl

end

end Sys2Proof.Machine

namespace Sys2Proof

open Machine

/-- Settles O8: the class of an operand decides each form, its value or its order the rest. -/
theorem floatCompare : Obligations.FloatCompare := by
  unfold Obligations.FloatCompare
  intro s mag nan snan value below nv
  have hbelow (x y : Word) : below x y ↔ f32Key x.toNat ≤ f32Key y.toNat := (f32Key_le_iff x y).symm
  refine ⟨?_, fun k p a b => ⟨_, rfl, fun n => ?_, fun l hl => ?_, rfl, ?_⟩, fun d a => gives_setV rfl fun l => congrArg _ (fclassBits_eq (s.v a l)),
    fun d => gives_setV rfl fun l => setWidth_eq_ofNat _, fun d => ⟨_, rfl, rfl, rfl, fun n l hl => ?_, fun l hl => clearFlags_getF hl⟩, ?_⟩
  · simp only [List.forall_mem_cons]
    exact ⟨fun d a b => ⟨_, rfl, _, setF_result s d _, fun l _ => extremeOf_fminmax false (fun x y => hbelow x y) _ _⟩,
      fun d a b => ⟨_, rfl, _, setF_result s d _, fun l _ => extremeOf_fminmax true (fun x y => hbelow y x) _ _⟩, nofun⟩
  · exact congrArg (fun f => (s.setP p f).me.regs.getP n) (funext fun l => (congrArg Prod.fst (fcmpBits_eq k (s.v a l) (s.v b l))).trans (by cases k <;> rfl))
  · rw [flag_getF _ hl, setP_getF, congrArg Prod.snd (fcmpBits_eq k (s.v a l) (s.v b l))]
    rfl
  · simp only [State.flag, State.setP, State.setRegs, Regs.putP]
    split <;> rfl
  · exact (Regs.getV_putV s.me.regs d.toNat s.me.cur.mask _ n l hl).trans (by rw [setWidth_eq_ofNat]; rfl)
  · simp only [List.forall_mem_cons]
    exact ⟨fun d a => gives_setF_of rfl fun l _ => integralOf_frndBits .ne (s.v a l), fun d a => gives_setF_of rfl fun l _ => integralOf_frndBits .z (s.v a l),
      fun d a => gives_setF_of rfl fun l _ => integralOf_frndBits .d (s.v a l), fun d a => gives_setF_of rfl fun l _ => integralOf_frndBits .u (s.v a l), nofun⟩

end Sys2Proof

/-! Rounding a value that is known by its place on a grid alone: one more bit, set where the value is not exact, rounds as the value does (07_numbers
R169, R183). -/

namespace Sys2Proof.Machine

/-! ### Values alike on a grid -/

section
variable {K : Type} [Field K]

/-- A multiple of a power of two is one of each lower power. -/
theorem mul_zpow_eq [CharZero K] {w q : Int} (h : w ≤ q) (z : Int) : (z : K) * 2 ^ q = ((z * 2 ^ (q - w).toNat : Int) : K) * 2 ^ w := by
  push_cast
  rw [mul_assoc, ← zpow_natCast, Int.toNat_of_nonneg (by omega), ← zpow_add₀ two_ne_zero, sub_add_cancel]

variable [LinearOrder K] {w q : Int} {x v : K}

/-- Two values lie alike among the multiples of a power of two. -/
def SameGrid (w : Int) (x v : K) : Prop := ∀ z : Int, ((z : K) * 2 ^ w ≤ x ↔ z * 2 ^ w ≤ v) ∧ (x ≤ z * 2 ^ w ↔ v ≤ z * 2 ^ w)

namespace SameGrid

theorem refl (w : Int) (x : K) : SameGrid w x x := fun _ => ⟨Iff.rfl, Iff.rfl⟩

theorem mono [CharZero K] (h : SameGrid w x v) (hq : w ≤ q) : SameGrid q x v := fun z => by
  rw [mul_zpow_eq hq]
  exact h _

theorem lt_iff (h : SameGrid w x v) (z : Int) : x < z * 2 ^ w ↔ v < z * 2 ^ w := by
  rw [← not_le, ← not_le, (h z).1]

theorem eq_iff (h : SameGrid w x v) (z : Int) : z * 2 ^ w = x ↔ z * 2 ^ w = v := by
  rw [le_antisymm_iff, le_antisymm_iff, (h z).1, (h z).2]

theorem nonneg_iff (h : SameGrid w x v) : 0 ≤ x ↔ 0 ≤ v := by simpa using (h 0).1

theorem neg_iff (h : SameGrid w x v) : x < 0 ↔ v < 0 := by simpa using h.lt_iff 0

end SameGrid

end

section
variable {K : Type} [Field K] [LinearOrder K] [IsStrictOrderedRing K] [FloorRing K] {w : Int} {x v : K}

namespace SameGrid

theorem div (h : SameGrid w x v) (q : Int) : SameGrid (w - q) (x / 2 ^ q) (v / 2 ^ q) := fun z => by
  have hmul : (z : K) * 2 ^ (w - q) * 2 ^ q = z * 2 ^ w := by rw [mul_assoc, ← zpow_add₀ two_ne_zero, sub_add_cancel]
  rw [le_div_iff₀ (two_zpow_pos q), le_div_iff₀ (two_zpow_pos q), div_le_iff₀ (two_zpow_pos q), div_le_iff₀ (two_zpow_pos q), hmul]
  exact h z

omit [FloorRing K] in
theorem neg (h : SameGrid w x v) : SameGrid w (-x) (-v) := fun z => by
  have hz := h (-z)
  rw [Int.cast_neg, neg_mul] at hz
  exact ⟨le_neg.trans (hz.2.trans le_neg.symm), neg_le.trans (hz.1.trans neg_le.symm)⟩

omit [FloorRing K] in
theorem abs (h : SameGrid w x v) : SameGrid w |x| |v| := by
  rcases lt_or_ge v 0 with hv | hv
  · rw [abs_of_neg hv, abs_of_neg (h.neg_iff.mpr hv)]
    exact h.neg
  · rw [abs_of_nonneg hv, abs_of_nonneg (h.nonneg_iff.mpr hv)]
    exact h

/-- Values alike on a grid have the same exponent where that is no finer than the grid. -/
theorem log_eq (h : SameGrid w x v) (hv : 0 < v) (hw : w ≤ Int.log 2 v) : Int.log 2 x = Int.log 2 v := by
  have hlo : (2 : K) ^ Int.log 2 v ≤ v := Int.zpow_log_le_self one_lt_two hv
  have hhi : v < (2 : K) ^ (Int.log 2 v + 1) := Int.lt_zpow_succ_log_self one_lt_two v
  have hlo' := ((h.mono hw 1).1.trans (by rw [Int.cast_one, one_mul])).mpr hlo
  have hhi' := ((h.mono (hw.trans (Int.le_add_one le_rfl))).lt_iff 1).mpr (by rwa [Int.cast_one, one_mul])
  rw [Int.cast_one, one_mul] at hlo' hhi'
  have hx : 0 < x := (two_zpow_pos _).trans_le hlo'
  exact le_antisymm (Int.lt_add_one_iff.mp ((Int.lt_zpow_iff_log_lt one_lt_two hx).mp hhi')) ((Int.zpow_le_iff_le_log one_lt_two hx).mp hlo')

/-- Values alike among the multiples of a half round to the same integer. -/
theorem roundInt_eq (h : SameGrid (-1) x v) (mode : RoundMode) : roundInt mode x = roundInt mode v := by
  have h0 := h.mono (show (-1 : Int) ≤ 0 by decide)
  have hfloor : ⌊x⌋ = ⌊v⌋ := eq_of_forall_le_iff fun z => by
    rw [Int.le_floor, Int.le_floor]
    simpa using (h0 z).1
  have hceil : ⌈x⌉ = ⌈v⌉ := eq_of_forall_ge_iff fun z => by
    rw [Int.ceil_le, Int.ceil_le]
    simpa using (h0 z).2
  have hhalf : (((2 * ⌊v⌋ + 1 : Int) : K)) * 2 ^ (-1 : Int) = ⌊v⌋ + 1 / 2 := by
    push_cast
    rw [zpow_neg_one]
    ring
  have hlt := h.lt_iff (2 * ⌊v⌋ + 1)
  have heq := h.eq_iff (2 * ⌊v⌋ + 1)
  rw [hhalf] at hlt heq
  cases mode with
  | ne =>
    simp only [roundInt, hfloor, sub_lt_iff_lt_add', sub_eq_iff_eq_add', hlt, eq_comm (a := x), eq_comm (a := v), heq]
  | z => simp only [roundInt, hfloor, hceil, h.nonneg_iff]
  | d => exact hfloor
  | u => exact hceil

/-- Values alike on a grid finer than half a last significand bit round alike. -/
theorem roundsTo (h : SameGrid w x v) {f : Fmt} (hp : 0 < f.p) (hv : v ≠ 0) (hw : w + f.p ≤ Int.log 2 |v|) {mode : RoundMode} {ovf r : FRes}
    (hr : RoundsTo f mode v ovf r) : RoundsTo f mode x ovf r := by
  have hlog := h.abs.log_eq (abs_pos.mpr hv) (by omega)
  have hround {k : Int} (hk : w < k) : roundInt mode (x / 2 ^ k) = roundInt mode (v / 2 ^ k) := ((h.div k).mono (by omega)).roundInt_eq mode
  have hq : w < max (Int.log 2 |v|) f.emin - (f.p - 1 : Nat) := by omega
  have hqt : w < Int.log 2 |v| - (f.p - 1 : Nat) := by omega
  unfold RoundsTo at hr ⊢
  simp only [hlog, hround hq, hround hqt, (h.mono hq.le).eq_iff, ne_eq, h.neg_iff] at hr ⊢
  exact hr

end SameGrid

/-- Values strictly between the same two neighbours of a grid. -/
theorem sameGrid_of_between {n : Int} (hx : (n : K) * 2 ^ w < x ∧ x < (n + 1) * 2 ^ w) (hv : (n : K) * 2 ^ w < v ∧ v < (n + 1) * 2 ^ w) : SameGrid w x v := by
  have hpos := two_zpow_pos (K := K) w
  have hle {y : K} (hy : (n : K) * 2 ^ w < y ∧ y < (n + 1) * 2 ^ w) (z : Int) : (z : K) * 2 ^ w ≤ y ↔ z ≤ n := by
    refine ⟨fun h => ?_, fun h => (mul_le_mul_of_nonneg_right (Int.cast_le.mpr h) hpos.le).trans hy.1.le⟩
    have hlt := lt_of_mul_lt_mul_right (h.trans_lt hy.2) hpos.le
    exact Int.lt_add_one_iff.mp (by exact_mod_cast hlt)
  have hge {y : K} (hy : (n : K) * 2 ^ w < y ∧ y < (n + 1) * 2 ^ w) (z : Int) : y ≤ z * 2 ^ w ↔ n + 1 ≤ z := by
    refine ⟨fun h => ?_, fun h => hy.2.le.trans (mul_le_mul_of_nonneg_right (by exact_mod_cast h) hpos.le)⟩
    have hlt := lt_of_mul_lt_mul_right (hy.1.trans_le h) hpos.le
    exact Int.add_one_le_iff.mpr (by exact_mod_cast hlt)
  exact fun z => ⟨(hle hx z).trans (hle hv z).symm, (hge hx z).trans (hge hv z).symm⟩

/-! ### The bit that marks an inexact value (R183; log 7) -/

/-- A magnitude cut to a whole number of units of 2^w, with whether that is exact. -/
def CutTo (y : K) (r : Nat) (w : Int) (exact : Prop) : Prop := (exact → y = r * 2 ^ w) ∧ (¬ exact → r * 2 ^ w < y ∧ y < (r + 1) * 2 ^ w)

/-- A magnitude that is cut far below the format's precision, and marked where that was inexact, rounds as the value does. -/
theorem rounds_of_cutTo {f : Fmt} (hf : f.Ieee) {mode : RoundMode} {neg : Bool} {y : K} {r : Nat} {w : Int} {exact : Prop} [Decidable exact]
    (h : CutTo y r w exact) (hr : 2 ^ f.p ≤ r) :
    Rounds f mode ((if neg then -1 else 1) * y) (f.put mode (.fin neg (2 * r + if exact then 0 else 1) (w - 1))) := by
  have hpos := two_zpow_pos (K := K) w
  have hm : 2 * r + (if exact then 0 else 1) ≠ 0 := by
    have := (Nat.two_pow_pos f.p).trans_le hr
    omega
  have hval : valueOf K neg (2 * r + if exact then 0 else 1) (w - 1) = (if neg then -1 else 1) * ((r + if exact then 0 else 1 / 2) * 2 ^ w) := by
    unfold valueOf
    rw [zpow_sub_one₀ two_ne_zero]
    split <;> push_cast <;> split <;> ring
  have hput := put_rounds (K := K) f hf mode neg _ (w - 1) hm
  have hgrid : SameGrid w ((if neg then -1 else 1) * y) (valueOf K neg (2 * r + if exact then 0 else 1) (w - 1)) := by
    have habs : SameGrid w y ((r + if exact then 0 else 1 / 2) * 2 ^ w) := by
      by_cases he : exact
      · rw [h.1 he, if_pos he, add_zero]
        exact SameGrid.refl w _
      · refine sameGrid_of_between (n := r) (by simpa using h.2 he) ?_
        rw [if_neg he, Int.cast_natCast]
        have hlo : (r : K) < r + 1 / 2 := by norm_num
        have hhi : (r : K) + 1 / 2 < r + 1 := by norm_num
        exact ⟨mul_lt_mul_of_pos_right hlo hpos, mul_lt_mul_of_pos_right hhi hpos⟩
    rw [hval]
    cases neg with
    | false => simpa using habs
    | true => simpa using habs.neg
  have hlog : w + f.p ≤ Int.log 2 |valueOf K neg (2 * r + if exact then 0 else 1) (w - 1)| := by
    have hlarge : f.p + 1 ≤ Nat.log2 (2 * r + if exact then 0 else 1) := (Nat.le_log2 hm).mpr (by rw [pow_succ]; omega)
    rw [abs_valueOf, int_log_value _ _ hm]
    omega
  have hne := (valueOf_eq_zero (K := K) neg _ (w - 1)).not.mpr hm
  have hp := hf.p2
  unfold Rounds at hput ⊢
  have hto := hgrid.roundsTo (by omega) hne hlog hput
  simpa only [hgrid.neg_iff] using hto

end

end Sys2Proof.Machine

/-! Special functions (07_numbers R182, R183; log 7). -/

namespace Sys2Proof.Machine

/-! ### The table of special operands -/

/-- What a special function gives: the table's results at −∞, −0, +0 and +∞, NaNs, an invalid operand below 0 where there is one, and else the
procedure's. -/
def TableOf (mInf mZero zero inf : FRes) (neg : Bool) (P : Bool → Nat → Int → FRes → Prop) (x : Word) (r : FRes) : Prop :=
  if nanF32 x = true then r = fmtF32.nanRes (!x.getLsbD 22)
  else if x = 0xFF800000 then r = mInf else if x = 0x80000000 then r = mZero else if x = 0 then r = zero
  else if x = 0x7F800000 then r = inf
  else if neg = true ∧ signF32 x = true then r = fmtF32.nanRes true
  else ∃ n m e, m ≠ 0 ∧ fmtF32.decode x.toNat = .fin n m e ∧ P n m e r

/-- What a special function's procedure gives for the finite FP32 values that are not 0. -/
def ProcedureOf (f : Bool → Nat → Int → Option FVal) (neg : Bool) (P : Bool → Nat → Int → FRes → Prop) : Prop :=
  ∀ n m e, m ≠ 0 → m < 2 ^ 24 → -149 ≤ e →
    if neg = true ∧ n = true then f n m e = none else ∃ v, f n m e = some v ∧ P n m e (fmtF32.put .ne v)

theorem tableOf_specialBits {inf zero : Bool → FRes} {f : Bool → Nat → Int → Option FVal} {neg : Bool} {P : Bool → Nat → Int → FRes → Prop}
    (hf : ProcedureOf f neg P) (x : Word) :
    TableOf (inf true) (zero true) (zero false) (inf false) neg P x (specialBits nanRes inf zero f x.toNat) := by
  have hmInf : x = 0xFF800000 ↔ signF32 x = true ∧ magF32 x = 0x7F800000 := eq_iff_sign_mag
  have hmZero : x = 0x80000000 ↔ signF32 x = true ∧ magF32 x = 0 := eq_iff_sign_mag
  have hzero : x = 0 ↔ signF32 x = false ∧ magF32 x = 0 := eq_iff_sign_mag
  have hinf : x = 0x7F800000 ↔ signF32 x = false ∧ magF32 x = 0x7F800000 := eq_iff_sign_mag
  unfold TableOf specialBits
  simp only [hmInf, hmZero, hzero, hinf]
  rcases class_f32 x with h | ⟨h, hi⟩ | ⟨h, hfin⟩
  · rw [if_pos h, decode_f32_of_nan h]
    rfl
  · rw [decode_f32_of_inf hi, h, hi]
    cases signF32 x <;> simp
  · rw [decode_f32_of_finite hfin, h]
    simp only [sigF32_eq_zero]
    by_cases h0 : magF32 x = 0
    · rw [h0]
      cases signF32 x <;> simp
    · have hp := hf (signF32 x) (sigF32 x) (expF32 x) (mt sigF32_eq_zero.mp h0) sigF32_lt le_expF32
      simp only [h0, hfin.ne, and_false, if_false, Bool.false_eq_true]
      split at hp
      case isTrue hn =>
        rw [if_pos hn, hp]
        rfl
      case isFalse hn =>
        obtain ⟨v, hv, hP⟩ := hp
        rw [if_neg hn, hv]
        exact ⟨_, _, _, mt sigF32_eq_zero.mp h0, rfl, hP⟩

section
variable {inf zero : Bool → FRes} {P : Bool → Nat → Int → FRes → Prop}

/-- The table of a function of every finite value. -/
theorem tableOf_total {g : Bool → Nat → Int → FVal} (hg : ∀ n m e, m ≠ 0 → m < 2 ^ 24 → -149 ≤ e → P n m e (fmtF32.put .ne (g n m e))) (x : Word) :
    TableOf (inf true) (zero true) (zero false) (inf false) false P x (specialBits nanRes inf zero (fun n m e => some (g n m e)) x.toNat) :=
  tableOf_specialBits (fun n m e hm hlt he => by
    rw [if_neg (by simp)]
    exact ⟨_, rfl, hg n m e hm hlt he⟩) x

/-- The table of a function of no value below 0. -/
theorem tableOf_nonneg {g : Nat → Int → FVal} (hg : ∀ m e, m ≠ 0 → m < 2 ^ 24 → -149 ≤ e → P false m e (fmtF32.put .ne (g m e))) (x : Word) :
    TableOf (inf true) (zero true) (zero false) (inf false) true P x
      (specialBits nanRes inf zero (fun n m e => if n then none else some (g m e)) x.toNat) :=
  tableOf_specialBits (fun n m e hm hlt he => by
    cases n with
    | false => exact ⟨_, rfl, hg m e hm hlt he⟩
    | true => rfl) x

end

/-! ### Quotients -/

/-- A quotient of whole numbers, cut. -/
theorem cutTo_div (a : Nat) {m : Nat} (hm : m ≠ 0) (w : Int) : CutTo ((a : ℚ) / m * 2 ^ w) (a / m) w (a % m = 0) := by
  have hpos := two_zpow_pos (K := ℚ) w
  have hmQ : (0 : ℚ) < m := Nat.cast_pos.mpr (Nat.pos_of_ne_zero hm)
  have hdm : (a : ℚ) = (a / m : Nat) * m + (a % m : Nat) := by exact_mod_cast (Nat.div_add_mod' a m).symm
  have hlt : ((a % m : Nat) : ℚ) < m := by exact_mod_cast Nat.mod_lt a (Nat.pos_of_ne_zero hm)
  constructor
  · intro h0
    rw [h0, Nat.cast_zero, add_zero] at hdm
    rw [(div_eq_iff hmQ.ne').mpr hdm]
  · intro h0
    have h0' : (0 : ℚ) < (a % m : Nat) := Nat.cast_pos.mpr (Nat.pos_of_ne_zero h0)
    exact ⟨mul_lt_mul_of_pos_right ((lt_div_iff₀ hmQ).mpr (by linarith)) hpos, mul_lt_mul_of_pos_right ((div_lt_iff₀ hmQ).mpr (by linarith)) hpos⟩

/-- rcp (R183). -/
theorem rounds_rcpVal (n : Bool) {m : Nat} (e : Int) (hm : m ≠ 0) : Rounds fmtF32 .ne (1 / ratOf n m e) (fmtF32.put .ne (rcpVal n m e)) := by
  have hmQ : (m : ℚ) ≠ 0 := Nat.cast_ne_zero.mpr hm
  have hval : 1 / ratOf n m e = (if n then -1 else 1) * (((2 ^ (64 + Nat.log2 m) : Nat) : ℚ) / m * 2 ^ (-((64 + Nat.log2 m : Nat) : Int) - e)) := by
    rw [zpow_sub₀ two_ne_zero, zpow_neg, zpow_natCast]
    unfold ratOf valueOf
    push_cast
    cases n <;> field_simp <;> simp
  have hlarge : 2 ^ fmtF32.p ≤ 2 ^ (64 + Nat.log2 m) / m := by
    refine (Nat.le_div_iff_mul_le (Nat.pos_of_ne_zero hm)).mpr ?_
    calc 2 ^ 24 * m ≤ 2 ^ 24 * 2 ^ (Nat.log2 m + 1) := Nat.mul_le_mul_left _ Nat.lt_log2_self.le
      _ = 2 ^ (24 + (Nat.log2 m + 1)) := (pow_add ..).symm
      _ ≤ 2 ^ (64 + Nat.log2 m) := Nat.pow_le_pow_right two_pos (by omega)
  rw [hval]
  exact rounds_of_cutTo fmtF32_ieee (cutTo_div _ hm _) hlarge

/-! ### Roots -/

/-- The integer square root. -/
theorem isqrt_spec (x : Nat) : ∀ (i r : Nat), r * r ≤ x → x < (r + 2 ^ i) * (r + 2 ^ i) →
    isqrt x i r * isqrt x i r ≤ x ∧ x < (isqrt x i r + 1) * (isqrt x i r + 1)
  | 0, _, hle, hlt => ⟨hle, hlt⟩
  | i + 1, r, hle, hlt => by
    rw [isqrt]
    by_cases h : (r + 2 ^ i) * (r + 2 ^ i) ≤ x
    · rw [if_pos h]
      rw [pow_succ, mul_two, ← add_assoc] at hlt
      exact isqrt_spec x i _ h hlt
    · rw [if_neg h]
      exact isqrt_spec x i r hle (not_le.mp h)

/-- A square root, cut. -/
theorem cutTo_sqrt {a : ℝ} {r : Nat} {exact : Prop} (hle : (r : ℝ) ^ 2 ≤ a) (hlt : a < (r + 1) ^ 2) (hexact : exact ↔ (r : ℝ) ^ 2 = a) (w : Int) :
    CutTo (√a * 2 ^ w) r w exact := by
  have hpos := two_zpow_pos (K := ℝ) w
  have hr : (0 : ℝ) ≤ r := Nat.cast_nonneg r
  constructor
  · intro h
    rw [← hexact.mp h, Real.sqrt_sq hr]
  · intro h
    exact ⟨mul_lt_mul_of_pos_right ((Real.lt_sqrt hr).mpr (hle.lt_of_ne (mt hexact.mpr h))) hpos,
      mul_lt_mul_of_pos_right ((Real.sqrt_lt' (by linarith)).mpr hlt) hpos⟩

theorem sqrt_mul_two_zpow (a : ℝ) (h : Int) : √(a * 2 ^ (2 * h)) = √a * 2 ^ h := by
  rw [mul_comm 2 h, zpow_mul, zpow_ofNat, Real.sqrt_mul' a (sq_nonneg _), Real.sqrt_sq (two_zpow_pos h).le]

/-- The significand of a value as a multiple of an even power of two. -/
def evenSig (m : Nat) (e : Int) : Nat := if e % 2 == 1 then 2 * m else m
/-- Half of that power's exponent. -/
def halfExp (e : Int) : Int := (if e % 2 == 1 then e - 1 else e) / 2

theorem evenSig_mul (m : Nat) (e : Int) : valueOf ℝ false m e = evenSig m e * 2 ^ (2 * halfExp e) := by
  unfold valueOf evenSig halfExp
  by_cases h : e % 2 = 1
  · have he : (2 : ℝ) ^ e = 2 ^ (2 * ((e - 1) / 2)) * 2 := by
      rw [← zpow_add_one₀ two_ne_zero]
      congr 1
      omega
    simp only [h, beq_self_eq_true, if_true, Bool.false_eq_true, if_false, he]
    push_cast
    ring
  · have he : 2 * (e / 2) = e := by omega
    simp [h, he]

theorem evenSig_ne_zero {m : Nat} (hm : m ≠ 0) (e : Int) : evenSig m e ≠ 0 := by unfold evenSig; split <;> omega
theorem evenSig_lt {m : Nat} (hm : m < 2 ^ 24) (e : Int) : evenSig m e < 2 ^ 25 := by unfold evenSig; split <;> omega

/-- sqrt (R183). -/
theorem rounds_sqrtVal {m : Nat} (e : Int) (hm : m ≠ 0) (hlt : m < 2 ^ 24) : Rounds fmtF32 .ne (√(valueOf ℝ false m e)) (fmtF32.put .ne (sqrtVal m e)) := by
  have hsig := evenSig_lt hlt e
  have hsig0 := Nat.pos_of_ne_zero (evenSig_ne_zero hm e)
  obtain ⟨hle, hgt⟩ := isqrt_spec (evenSig m e * 2 ^ 80) 64 0 (Nat.zero_le _) (by omega)
  have hdef : sqrtVal m e = .fin false (2 * isqrt (evenSig m e * 2 ^ 80) 64 0 +
      if isqrt (evenSig m e * 2 ^ 80) 64 0 * isqrt (evenSig m e * 2 ^ 80) 64 0 = evenSig m e * 2 ^ 80 then 0 else 1) (halfExp e - 40 - 1) := by
    have he : ((if e % 2 == 1 then e - 1 else e) - 80) / 2 = halfExp e - 40 := by unfold halfExp; omega
    rw [← he]
    rfl
  generalize isqrt (evenSig m e * 2 ^ 80) 64 0 = r at *
  have hval : √(valueOf ℝ false m e) = (if false then -1 else 1) * (√((evenSig m e * 2 ^ 80 : Nat) : ℝ) * 2 ^ (halfExp e - 40)) := by
    rw [evenSig_mul, if_neg Bool.false_ne_true, one_mul, ← sqrt_mul_two_zpow]
    rw [Nat.cast_mul, mul_assoc, Nat.cast_pow, Nat.cast_ofNat, ← zpow_natCast, ← zpow_add₀ two_ne_zero]
    congr 4
    push_cast
    ring
  have hcut := cutTo_sqrt (a := ((evenSig m e * 2 ^ 80 : Nat) : ℝ)) (exact := r * r = evenSig m e * 2 ^ 80) (by rw [sq]; exact_mod_cast hle)
    (by rw [sq]; exact_mod_cast hgt) (by rw [sq]; exact_mod_cast Iff.rfl) (halfExp e - 40)
  rw [hval, hdef]
  refine rounds_of_cutTo fmtF32_ieee hcut (le_of_not_gt fun h => ?_)
  have hsmall := Nat.mul_le_mul (show r + 1 ≤ 2 ^ 24 from h) (show r + 1 ≤ 2 ^ 24 from h)
  omega

/-- rsq (R183). -/
theorem rounds_rsqVal {m : Nat} (e : Int) (hm : m ≠ 0) (hlt : m < 2 ^ 24) : Rounds fmtF32 .ne (1 / √(valueOf ℝ false m e)) (fmtF32.put .ne (rsqVal m e)) := by
  have hsig := evenSig_lt hlt e
  have hsig0 := Nat.pos_of_ne_zero (evenSig_ne_zero hm e)
  obtain ⟨hle, hgt⟩ := isqrt_spec (2 ^ 160 / evenSig m e) 81 0 (Nat.zero_le _) ((Nat.div_le_self ..).trans_lt (by norm_num))
  rw [Nat.le_div_iff_mul_le hsig0] at hle
  rw [Nat.div_lt_iff_lt_mul hsig0] at hgt
  have hdef : rsqVal m e = .fin false (2 * isqrt (2 ^ 160 / evenSig m e) 81 0 +
      if isqrt (2 ^ 160 / evenSig m e) 81 0 * isqrt (2 ^ 160 / evenSig m e) 81 0 * evenSig m e = 2 ^ 160 then 0 else 1) (-80 - halfExp e - 1) := rfl
  generalize isqrt (2 ^ 160 / evenSig m e) 81 0 = r at *
  have hsigR : (0 : ℝ) < evenSig m e := Nat.cast_pos.mpr hsig0
  have hval : 1 / √(valueOf ℝ false m e) = (if false then -1 else 1) * (√((2 ^ 160 : Nat) / (evenSig m e : ℝ)) * 2 ^ (-80 - halfExp e)) := by
    rw [evenSig_mul, if_neg Bool.false_ne_true, one_mul, ← sqrt_mul_two_zpow, one_div, ← Real.sqrt_inv]
    have hexp : 2 * (-80 - halfExp e) = -(2 * halfExp e) - (160 : Nat) := by
      push_cast
      ring
    rw [hexp, zpow_sub₀ two_ne_zero, zpow_neg, zpow_natCast, Nat.cast_pow, Nat.cast_ofNat]
    field_simp
  have hcut := cutTo_sqrt (a := (2 ^ 160 : Nat) / (evenSig m e : ℝ)) (exact := r * r * evenSig m e = 2 ^ 160)
    (by rw [le_div_iff₀ hsigR, sq]; exact_mod_cast hle) (by rw [div_lt_iff₀ hsigR, sq]; exact_mod_cast hgt)
    (by rw [eq_div_iff hsigR.ne', sq]; exact_mod_cast Iff.rfl) (-80 - halfExp e)
  rw [hval, hdef]
  refine rounds_of_cutTo fmtF32_ieee hcut (le_of_not_gt fun h => ?_)
  have hsmall := Nat.mul_le_mul (Nat.mul_le_mul (show r + 1 ≤ 2 ^ 24 from h) (show r + 1 ≤ 2 ^ 24 from h)) hsig.le
  omega

end Sys2Proof.Machine

/-! Special functions where their values are exact: powers, logarithms, and sines and cosines of multiples of a half (07_numbers R183). -/

namespace Sys2Proof.Machine

/-! ### Rounding beyond the range of FP32 -/

theorem floor_le_roundInt_ne (x : ℚ) : ⌊x⌋ ≤ roundInt .ne x := by
  rw [roundInt]
  split <;> omega

theorem roundInt_ne_le_floor (x : ℚ) : roundInt .ne x ≤ ⌊x⌋ + 1 := by
  rw [roundInt]
  split <;> omega

/-- A value of 2^128 or more overflows. -/
theorem rounds_huge_iff {x : ℚ} (hx : (2 : ℚ) ^ (128 : Int) ≤ x) (r : FRes) : Rounds fmtF32 .ne x r ↔ r = ⟨fmtF32.infBits false, flagOF ||| flagNX⟩ := by
  have hpos : 0 < x := (two_zpow_pos _).trans_le hx
  have hlog : 128 ≤ Int.log 2 x := (Int.zpow_le_iff_le_log one_lt_two hpos).mp hx
  have hq : max (Int.log 2 |x|) fmtF32.emin - (fmtF32.p - 1 : Nat) = Int.log 2 x - 23 := by
    rw [abs_of_pos hpos]
    show max (Int.log 2 x) (-126) - 23 = Int.log 2 x - 23
    omega
  have hfloor : (2 : Int) ^ 23 ≤ roundInt .ne (x / 2 ^ (Int.log 2 x - 23)) := by
    refine le_trans (Int.le_floor.mpr ?_) (floor_le_roundInt_ne _)
    rw [le_div_iff₀ (two_zpow_pos _)]
    calc (((2 : Int) ^ 23 : Int) : ℚ) * 2 ^ (Int.log 2 x - 23) = 2 ^ Int.log 2 x := by
          rw [zpow_sub₀ two_ne_zero]
          push_cast
          field_simp
      _ ≤ x := Int.zpow_log_le_self one_lt_two hpos
  have hy : valueOf ℚ false fmtF32.maxN fmtF32.maxQ < |(roundInt .ne (x / 2 ^ (Int.log 2 x - 23)) : ℚ) * 2 ^ (Int.log 2 x - 23)| := by
    refine lt_of_lt_of_le ?_ (le_abs_self _)
    calc valueOf ℚ false fmtF32.maxN fmtF32.maxQ < 2 ^ 23 * 2 ^ (105 : Int) := by norm_num [valueOf, fmtF32]
      _ ≤ 2 ^ 23 * 2 ^ (Int.log 2 x - 23) := mul_le_mul_of_nonneg_left (zpow_le_zpow_right₀ one_le_two (by omega)) (by norm_num)
      _ ≤ _ := mul_le_mul_of_nonneg_right (by exact_mod_cast hfloor) (two_zpow_pos _).le
  unfold Rounds RoundsTo
  simp only [hq, if_pos hy, decide_eq_false hpos.not_gt]

/-- A value below half the least subnormal rounds to 0. -/
theorem rounds_tiny_iff {x : ℚ} (hpos : 0 < x) (hx : x < (2 : ℚ) ^ (-150 : Int)) (r : FRes) : Rounds fmtF32 .ne x r ↔
    r.fl = flagNX ||| flagUF ∧ ∃ m e, fmtF32.decode r.bits = .fin false m e ∧ valueOf ℚ false m e = 0 := by
  have hlog : Int.log 2 x < -150 := (Int.lt_zpow_iff_log_lt one_lt_two hpos).mp hx
  have hq : max (Int.log 2 |x|) fmtF32.emin - (fmtF32.p - 1 : Nat) = -149 := by
    rw [abs_of_pos hpos]
    show max (Int.log 2 x) (-126) - 23 = -149
    omega
  have hhalf : x / 2 ^ (-149 : Int) < 1 / 2 := by
    rw [div_lt_iff₀ (two_zpow_pos _)]
    calc x < 2 ^ (-150 : Int) := hx
      _ = 1 / 2 * 2 ^ (-149 : Int) := by norm_num
  have hfloor : ⌊x / 2 ^ (-149 : Int)⌋ = 0 := Int.floor_eq_zero_iff.mpr ⟨(div_pos hpos (two_zpow_pos _)).le, by linarith⟩
  have hround : roundInt .ne (x / 2 ^ (-149 : Int)) = 0 := by
    rw [roundInt, hfloor, Int.cast_zero, sub_zero, if_pos (.inl hhalf)]
  have ht : |(roundInt .ne (x / 2 ^ (Int.log 2 |x| - (fmtF32.p - 1 : Nat))) : ℚ) * 2 ^ (Int.log 2 |x| - (fmtF32.p - 1 : Nat))| < 2 ^ fmtF32.emin := by
    have hunit := two_zpow_pos (K := ℚ) (Int.log 2 x - 23)
    have hlow : 0 ≤ roundInt .ne (x / 2 ^ (Int.log 2 x - 23)) := (Int.floor_nonneg.mpr (div_pos hpos hunit).le).trans (floor_le_roundInt_ne _)
    have hhigh : roundInt .ne (x / 2 ^ (Int.log 2 x - 23)) ≤ 2 ^ 24 := by
      refine (roundInt_ne_le_floor _).trans (Int.add_one_le_iff.mpr (Int.floor_lt.mpr ?_))
      rw [div_lt_iff₀ hunit]
      calc x < 2 ^ (Int.log 2 x + 1) := Int.lt_zpow_succ_log_self one_lt_two x
        _ = ((2 ^ 24 : Int) : ℚ) * 2 ^ (Int.log 2 x - 23) := by
          rw [zpow_add_one₀ two_ne_zero, zpow_sub₀ two_ne_zero]
          push_cast
          field_simp
          norm_num
    rw [abs_of_pos hpos]
    show |(roundInt .ne (x / 2 ^ (Int.log 2 x - 23)) : ℚ) * 2 ^ (Int.log 2 x - 23)| < 2 ^ (-126 : Int)
    rw [abs_of_nonneg (mul_nonneg (Int.cast_nonneg hlow) hunit.le)]
    calc (roundInt .ne (x / 2 ^ (Int.log 2 x - 23)) : ℚ) * 2 ^ (Int.log 2 x - 23) ≤ 2 ^ 24 * 2 ^ (-174 : Int) :=
          mul_le_mul (by exact_mod_cast hhigh) (zpow_le_zpow_right₀ one_le_two (by omega)) hunit.le (by norm_num)
      _ < 2 ^ (-126 : Int) := by norm_num
  have hmax : ¬ valueOf ℚ false fmtF32.maxN fmtF32.maxQ < |(0 : ℚ)| := by
    rw [abs_zero, not_lt]
    norm_num [valueOf, fmtF32]
  unfold Rounds RoundsTo
  simp only [hq, hround, Int.cast_zero, zero_mul, hmax, if_false, hpos.ne, ht, decide_eq_false hpos.not_gt, ne_eq, not_false_eq_true, and_self, if_true]

/-! ### Fixed-point values (log 7) -/

theorem pow_fxB {M : Type} [Monoid M] (x : M) : x ^ fxB = x ^ (fxB - 1) * x := (pow_sub_one_mul (by decide) x).symm

/-- A value of FP32 as a whole number of working units. -/
theorem fixed_eq (m : Nat) {e : Int} (he : -149 ≤ e) : ((m * 2 ^ (e + fxB).toNat : Nat) : ℚ) = m * 2 ^ e * (2 ^ fxB : Nat) := by
  have hB : fxB = 512 := rfl
  push_cast
  rw [mul_assoc, ← zpow_natCast, ← zpow_natCast, Int.toNat_of_nonneg (by omega), zpow_add₀ two_ne_zero]

/-- A whole number as working units. -/
theorem fixed_of_whole {m j : Nat} {e : Int} (he : -149 ≤ e) (h : (m : ℚ) * 2 ^ e = j) : m * 2 ^ (e + fxB).toNat = j * 2 ^ fxB := by
  have hfix := fixed_eq m he
  rw [h] at hfix
  exact_mod_cast hfix

/-- A whole number and a half as working units. -/
theorem fixed_of_half {m j : Nat} {e : Int} (he : -149 ≤ e) (h : (m : ℚ) * 2 ^ e = j + 1 / 2) : m * 2 ^ (e + fxB).toNat = j * 2 ^ fxB + 2 ^ (fxB - 1) := by
  have hfix := fixed_eq m he
  have hrat : ((m * 2 ^ (e + fxB).toNat : Nat) : ℚ) = ((j * 2 ^ fxB + 2 ^ (fxB - 1) : Nat) : ℚ) := by
    rw [hfix, h]
    push_cast
    rw [pow_fxB]
    ring
  exact_mod_cast hrat

/-- The magnitude of an integral value. -/
theorem natAbs_of_ratOf {n : Bool} {m : Nat} {e k : Int} (h : ratOf n m e = k) : (m : ℚ) * 2 ^ e = k.natAbs := by
  rw [← abs_valueOf n m e, Nat.cast_natAbs, Int.cast_abs]
  exact congrArg abs h

/-- The sign of an integral value. -/
theorem sign_of_ratOf {n : Bool} {m : Nat} {e k : Int} (hm : m ≠ 0) (h : ratOf n m e = k) : n = decide (k < 0) := by
  rw [Bool.eq_iff_iff, decide_eq_true_eq, ← valueOf_neg_iff (K := ℚ) n m e hm, show valueOf ℚ n m e = k from h, Int.cast_lt_zero]

/-! ### Powers of two (R183) -/

/-- What exp2 gives where its value is exact. -/
def Exp2Of (n : Bool) (m : Nat) (e : Int) (r : FRes) : Prop := ∀ k : Int, ratOf n m e = k → Rounds fmtF32 .ne ((2 : ℚ) ^ k) r

/-- exp2 of a whole number. -/
theorem exp2Of_exp2Val (n : Bool) {m : Nat} {e : Int} (hm : m ≠ 0) (he : -149 ≤ e) : Exp2Of n m e (fmtF32.put .ne (exp2Val n m e)) := by
  intro k hk
  have habs := natAbs_of_ratOf hk
  have hsign := sign_of_ratOf hm hk
  unfold exp2Val
  rw [if_neg hm]
  by_cases hbig : (7 : Int) < e + Nat.log2 m
  · rw [if_pos hbig]
    have hlarge : 256 ≤ k.natAbs := by
      have hpos : (0 : ℚ) < m * 2 ^ e := mul_pos (Nat.cast_pos.mpr (Nat.pos_of_ne_zero hm)) (two_zpow_pos e)
      have hlog : (8 : Int) ≤ Int.log 2 ((m : ℚ) * 2 ^ e) := by
        rw [int_log_value m e hm]
        omega
      have hle := (Int.zpow_le_iff_le_log one_lt_two hpos).mpr hlog
      rw [habs] at hle
      exact_mod_cast hle
    cases n with
    | false =>
      have hnonneg := of_decide_eq_false hsign.symm
      have hput := put_rounds (K := ℚ) fmtF32 fmtF32_ieee .ne false 1 400 one_ne_zero
      refine (rounds_huge_iff (zpow_le_zpow_right₀ one_le_two ?_) _).mpr ((rounds_huge_iff ?_ _).mp hput)
      · omega
      · rw [valueOf, if_neg Bool.false_ne_true, one_mul, Nat.cast_one, one_mul]
        exact zpow_le_zpow_right₀ one_le_two (by decide)
    | true =>
      have hneg := of_decide_eq_true hsign.symm
      have hput := put_rounds (K := ℚ) fmtF32 fmtF32_ieee .ne false 3 (-401) three_ne_zero
      have hval : valueOf ℚ false 3 (-401) = 3 * 2 ^ (-401 : Int) := by rw [valueOf, if_neg Bool.false_ne_true, one_mul, Nat.cast_ofNat]
      refine (rounds_tiny_iff (two_zpow_pos k) (zpow_lt_zpow_right₀ one_lt_two ?_) _).mpr ((rounds_tiny_iff ?_ ?_ _).mp hput)
      · omega
      · rw [hval]
        exact mul_pos three_pos (two_zpow_pos _)
      · calc valueOf ℚ false 3 (-401) ≤ 2 ^ (2 : Int) * 2 ^ (-401 : Int) := by
              rw [hval]
              exact mul_le_mul_of_nonneg_right (by norm_num) (two_zpow_pos _).le
          _ = 2 ^ (-399 : Int) := (zpow_add₀ two_ne_zero ..).symm
          _ < 2 ^ (-150 : Int) := zpow_lt_zpow_right₀ one_lt_two (by decide)
  · rw [if_neg hbig]
    have hsigned : (if n then -1 else 1) * ((m * 2 ^ (e + fxB).toNat : Nat) : Int) = k * (2 ^ fxB : Nat) := by
      have hk' : (if n then -1 else 1) * (k.natAbs : Int) = k := by
        rw [hsign]
        rcases lt_or_ge k 0 with h | h
        · rw [decide_eq_true h, if_pos rfl]
          omega
        · rw [decide_eq_false h.not_gt, if_neg Bool.false_ne_true]
          omega
      rw [fixed_of_whole he habs, Nat.cast_mul, ← mul_assoc, hk']
    have hpow : ((2 ^ fxB : Nat) : Int) ≠ 0 := Nat.cast_ne_zero.mpr (Nat.two_pow_pos _).ne'
    simp only [hsigned, Int.mul_emod_left, Int.toNat_zero, if_true, Int.mul_ediv_cancel _ hpow]
    have hput := put_rounds (K := ℚ) fmtF32 fmtF32_ieee .ne false 1 k one_ne_zero
    rwa [valueOf, if_neg Bool.false_ne_true, one_mul, Nat.cast_one, one_mul] at hput

/-- What log2 gives where its value is exact. -/
def Log2Of (n : Bool) (m : Nat) (e : Int) (r : FRes) : Prop :=
  ∀ k : Int, ratOf n m e = (2 : ℚ) ^ k → if k = 0 then r = fmtF32.zeroRes false else Rounds fmtF32 .ne (k : ℚ) r

/-- log2 of a power of two. -/
theorem log2Of_log2Val {m : Nat} (e : Int) (hm : m ≠ 0) : Log2Of false m e (fmtF32.put .ne (log2Val m e)) := by
  intro k hk
  have hval : (m : ℚ) * 2 ^ e = 2 ^ k := by rw [← hk, ratOf, valueOf, if_neg Bool.false_ne_true, one_mul]
  have hlog : e + Nat.log2 m = k := by
    rw [← int_log_value (K := ℚ) m e hm, hval]
    exact_mod_cast Int.log_zpow (R := ℚ) one_lt_two k
  have hpow : m = 2 ^ Nat.log2 m := by
    have hq : (m : ℚ) = 2 ^ (Nat.log2 m : Int) := by
      rw [← eq_div_iff (two_zpow_pos e).ne', ← zpow_sub₀ two_ne_zero] at hval
      rw [hval]
      congr 1
      omega
    rw [zpow_natCast] at hq
    exact_mod_cast hq
  have hdef : log2Val m e = .fin (decide (k < 0)) k.natAbs 0 := by
    unfold log2Val
    rw [if_pos hpow, hlog]
  rw [hdef]
  split
  case isTrue h0 =>
    rw [h0]
    exact put_zero ..
  case isFalse h0 =>
    have hput := put_rounds (K := ℚ) fmtF32 fmtF32_ieee .ne (decide (k < 0)) k.natAbs 0 (Int.natAbs_ne_zero.mpr h0)
    have hint : valueOf ℚ (decide (k < 0)) k.natAbs 0 = k := by
      rw [valueOf, zpow_zero, mul_one, Nat.cast_natAbs]
      rcases lt_or_ge k 0 with h | h
      · simp [h, abs_of_neg h]
      · simp [h.not_gt, abs_of_nonneg h]
    rwa [hint] at hput

/-! ### Sines and cosines of multiples of a half (R183) -/

theorem sinPi_whole (j : Nat) : sinPi (j * 2 ^ fxB) = none := by
  unfold sinPi
  simp only [Nat.mul_mod_left, if_true]

theorem sinPi_half (j : Nat) : sinPi (j * 2 ^ fxB + 2 ^ (fxB - 1)) = some (j % 2 == 1, .fin (j % 2 == 1) 1 0) := by
  have hpos : 0 < 2 ^ (fxB - 1) := Nat.two_pow_pos _
  unfold sinPi
  rw [pow_fxB]
  generalize 2 ^ (fxB - 1) = h at *
  have hmod : (j * (h * 2) + h) % (h * 2) = h := by
    rw [Nat.add_comm, Nat.add_mul_mod_self_right, Nat.mod_eq_of_lt (by omega)]
  have hdiv : (j * (h * 2) + h) / (h * 2) = j := by
    rw [Nat.add_comm, Nat.add_mul_div_right _ _ (by omega), Nat.div_eq_of_lt (by omega), Nat.zero_add]
  have hmin : 2 * min h (h * 2 - h) = h * 2 := by omega
  simp only [hmod, hdiv, hpos.ne', if_false, hmin, if_true]

/-- 1 at an even place, −1 at an odd one. -/
theorem rounds_parity (k : Int) : Rounds fmtF32 .ne (if k % 2 = 0 then (1 : ℚ) else -1) (fmtF32.put .ne (.fin (decide (k % 2 = 1)) 1 0)) := by
  have hput := put_rounds (K := ℚ) fmtF32 fmtF32_ieee .ne (decide (k % 2 = 1)) 1 0 one_ne_zero
  have hval : valueOf ℚ (decide (k % 2 = 1)) 1 0 = if k % 2 = 0 then (1 : ℚ) else -1 := by
    rcases Int.emod_two_eq_zero_or_one k with h | h <;> simp [valueOf, h]
  rwa [hval] at hput

/-- A value with a half, by its magnitude. -/
theorem natAbs_of_ratOf_half {n : Bool} {m : Nat} {e k : Int} (h : ratOf n m e = k + 1 / 2) :
    ∃ j : Nat, (m : ℚ) * 2 ^ e = j + 1 / 2 ∧ k = if n then -(j : Int) - 1 else j := by
  have hpos : (0 : ℚ) ≤ m * 2 ^ e := mul_nonneg (Nat.cast_nonneg m) (two_zpow_pos e).le
  cases n with
  | false =>
    have hval : (m : ℚ) * 2 ^ e = k + 1 / 2 := by rw [← h, ratOf, valueOf, if_neg Bool.false_ne_true, one_mul]
    have hk : 0 ≤ k := by
      by_contra hneg
      have : (k : ℚ) ≤ -1 := by exact_mod_cast (show k ≤ -1 by omega)
      linarith
    obtain ⟨j, rfl⟩ := Int.eq_ofNat_of_zero_le hk
    exact ⟨j, by simpa using hval, rfl⟩
  | true =>
    have hval : (m : ℚ) * 2 ^ e = -k - 1 / 2 := by
      have : ratOf true m e = -(m * 2 ^ e) := by simp [ratOf, valueOf]
      linarith
    have hk : k ≤ -1 := by
      by_contra hneg
      have : (0 : ℚ) ≤ k := by exact_mod_cast (show 0 ≤ k by omega)
      linarith
    obtain ⟨j, hj⟩ := Int.eq_ofNat_of_zero_le (show 0 ≤ -k - 1 by omega)
    have hjQ : (j : ℚ) = -k - 1 := by exact_mod_cast hj.symm
    exact ⟨j, by rw [hval, hjQ]; ring, by rw [if_pos rfl]; omega⟩

/-- What sin gives where its value is exact. -/
def SinOf (n : Bool) (m : Nat) (e : Int) (r : FRes) : Prop := (∀ k : Int, ratOf n m e = k → r = fmtF32.zeroRes n) ∧
  ∀ k : Int, ratOf n m e = k + 1 / 2 → Rounds fmtF32 .ne (if k % 2 = 0 then (1 : ℚ) else -1) r

/-- What cos gives where its value is exact. -/
def CosOf (n : Bool) (m : Nat) (e : Int) (r : FRes) : Prop :=
  (∀ k : Int, ratOf n m e = k → Rounds fmtF32 .ne (if k % 2 = 0 then (1 : ℚ) else -1) r) ∧ ∀ k : Int, ratOf n m e = k + 1 / 2 → r = fmtF32.zeroRes false

theorem sinOf_sinVal (n : Bool) (m : Nat) {e : Int} (he : -149 ≤ e) : SinOf n m e (fmtF32.put .ne (sinVal n m e)) := by
  constructor
  · intro k hk
    unfold sinVal
    simp only [fixed_of_whole he (natAbs_of_ratOf hk), sinPi_whole]
    exact put_zero ..
  · intro k hk
    obtain ⟨j, hj, hkj⟩ := natAbs_of_ratOf_half hk
    have hsign : (n != (j % 2 == 1)) = decide (k % 2 = 1) := by
      rw [hkj]
      cases n <;> rcases Nat.mod_two_eq_zero_or_one j with h | h <;> simp [h] <;> omega
    have hval : sinVal n m e = .fin (n != (j % 2 == 1)) 1 0 := by
      unfold sinVal
      simp only [fixed_of_half he hj, sinPi_half]
      cases n <;> simp [FVal.neg]
    rw [hval, hsign]
    exact rounds_parity k

/-- The cosine as the sine a quarter turn on. The definition is unfolded as a function, since an application of it invites an evaluation in working
units. -/
theorem cosVal_eq : cosVal = fun (m : Nat) (e : Int) => (sinPi (m * 2 ^ (e + fxB).toNat + 2 ^ (fxB - 1))).elim (.fin false 0 0) Prod.snd := by
  delta cosVal
  funext m e
  dsimp only
  generalize sinPi _ = r
  cases r <;> rfl

theorem cosVal_of_whole {m j : Nat} {e : Int} (h : m * 2 ^ (e + fxB).toNat = j * 2 ^ fxB) : cosVal m e = .fin (j % 2 == 1) 1 0 := by
  rw [cosVal_eq]
  dsimp only
  rw [h, sinPi_half]
  rfl

theorem cosVal_of_half {m j : Nat} {e : Int} (h : m * 2 ^ (e + fxB).toNat = j * 2 ^ fxB + 2 ^ (fxB - 1)) : cosVal m e = .fin false 0 0 := by
  have hnext : j * 2 ^ fxB + 2 ^ (fxB - 1) + 2 ^ (fxB - 1) = (j + 1) * 2 ^ fxB := by
    rw [pow_fxB]
    generalize 2 ^ (fxB - 1) = h
    ring
  rw [cosVal_eq]
  dsimp only
  rw [h, hnext, sinPi_whole]
  rfl

theorem cosOf_cosVal (n : Bool) (m : Nat) {e : Int} (he : -149 ≤ e) : CosOf n m e (fmtF32.put .ne (cosVal m e)) := by
  constructor
  · intro k hk
    have hsign : (k.natAbs % 2 == 1) = decide (k % 2 = 1) := by
      rw [Bool.eq_iff_iff, beq_iff_eq, decide_eq_true_eq]
      omega
    rw [cosVal_of_whole (fixed_of_whole he (natAbs_of_ratOf hk)), hsign]
    exact rounds_parity k
  · intro k hk
    obtain ⟨j, hj, -⟩ := natAbs_of_ratOf_half hk
    rw [cosVal_of_half (fixed_of_half he hj)]
    exact put_zero ..

end Sys2Proof.Machine

namespace Sys2Proof

open Machine

/-- Settles O9: the table of each function, with its procedure on the finite operands. -/
theorem specialFunctions : Obligations.SpecialFunctions := by
  unfold Obligations.SpecialFunctions
  intro s nan isNan inf zero one table
  refine ⟨fun d a => ⟨_, rfl, _, setF_result s d _, fun l _ => ?_⟩, fun d a => ⟨_, rfl, _, setF_result s d _, fun l _ => ?_⟩,
    fun d a => ⟨_, rfl, _, setF_result s d _, fun l _ => ?_⟩, fun d a => ⟨_, rfl, _, setF_result s d _, fun l _ => ?_⟩,
    fun d a => ⟨_, rfl, _, setF_result s d _, fun l _ => ?_⟩, fun d a => ⟨_, rfl, _, setF_result s d _, fun l _ => ?_⟩,
    fun d a => ⟨_, rfl, _, setF_result s d _, fun l _ => ?_⟩⟩
  · exact tableOf_total (fun n m e hm _ _ => rounds_rcpVal n e hm) (s.v a l)
  · exact tableOf_nonneg (fun m e hm hlt _ => rounds_sqrtVal e hm hlt) (s.v a l)
  · exact tableOf_nonneg (fun m e hm hlt _ => rounds_rsqVal e hm hlt) (s.v a l)
  · exact tableOf_total (P := Exp2Of) (fun n m e hm _ he => exp2Of_exp2Val n hm he) (s.v a l)
  · exact tableOf_nonneg (P := Log2Of) (fun m e hm _ _ => log2Of_log2Val e hm) (s.v a l)
  · exact tableOf_total (P := SinOf) (fun n m e _ _ he => sinOf_sinVal n m he) (s.v a l)
  · exact tableOf_total (P := CosOf) (fun n m e _ _ he => cosOf_cosVal n m he) (s.v a l)

end Sys2Proof

/-! Rounding into the formats without infinities, E4M3 and E2M1 (07_numbers R165, R169, R170). -/

namespace Sys2Proof.Machine

/-! ### Encodings -/

/-- What a format without infinities is like (R165): every magnitude up to the greatest is finite. -/
structure Fmt.Narrow (f : Fmt) : Prop where
  infs : f.infs = false
  p_pos : 0 < f.p
  le_maxN : 2 ^ (f.p - 1) ≤ f.maxN
  maxN_lt : f.maxN < 2 ^ f.p
  le_maxQ : f.emin - (f.p - 1 : Nat) ≤ f.maxQ
  maxBits_lt : f.maxBits false < 2 ^ (f.w - 1)
  nan : f.nan = 0 ∨ f.maxBits false < f.nan

theorem fmtE4m3_narrow : fmtE4m3.Narrow := ⟨rfl, by decide, by decide, by decide, by decide, by decide, by decide⟩
theorem fmtE2m1_narrow : fmtE2m1.Narrow := ⟨rfl, by decide, by decide, by decide, by decide, by decide, by decide⟩

section
variable {f : Fmt} (hf : f.Narrow)
include hf

/-- Reading back a magnitude under a sign. -/
theorem Fmt.Narrow.decode_sign_add (neg : Bool) {mag : Nat} (hmag : mag ≤ f.maxBits false) :
    f.decode ((if neg then 2 ^ (f.w - 1) else 0) + mag) = if mag / 2 ^ (f.p - 1) = 0 then .fin neg (mag % 2 ^ (f.p - 1)) (f.emin - (f.p - 1 : Nat))
      else .fin neg (2 ^ (f.p - 1) + mag % 2 ^ (f.p - 1)) (f.emin - (f.p - 1 : Nat) + (mag / 2 ^ (f.p - 1) - 1 : Nat)) := by
  have hlt := hmag.trans_lt hf.maxBits_lt
  have hsign : (((if neg then 2 ^ (f.w - 1) else 0) + mag) / 2 ^ (f.w - 1) % 2 == 1) = neg := by
    cases neg with
    | false => simp [Nat.div_eq_of_lt hlt]
    | true => simp [Nat.add_div_left _ (Nat.two_pow_pos _), Nat.div_eq_of_lt hlt]
  have hrest : ((if neg then 2 ^ (f.w - 1) else 0) + mag) % 2 ^ (f.w - 1) = mag := by
    cases neg <;> simp [Nat.mod_eq_of_lt hlt]
  have hnan : (f.nan != 0 && mag == f.nan) = false := by
    rcases hf.nan with h | h
    · simp [h]
    · simp [(hmag.trans_lt h).ne]
  unfold Fmt.decode
  simp only [hsign, hrest, hf.infs, Bool.false_and, Bool.not_false, Bool.and_true, hnan, Bool.false_eq_true, if_false]

/-- Encodings rise with their values. -/
theorem Fmt.Narrow.enc_le_maxBits {n : Nat} {q : Int} (hq : f.emin - (f.p - 1 : Nat) ≤ q) (hn : n ≤ 2 ^ f.p)
    (hlow : n < 2 ^ (f.p - 1) → q = f.emin - (f.p - 1 : Nat)) (hmax : (n : ℚ) * 2 ^ q ≤ f.maxN * 2 ^ f.maxQ) : f.enc false n q ≤ f.maxBits false := by
  have hpow : 2 ^ f.p = 2 * 2 ^ (f.p - 1) := by rw [← pow_succ', Nat.sub_add_cancel hf.p_pos]
  have hN := hf.le_maxN
  have hN' := hf.maxN_lt
  have hQ := hf.le_maxQ
  unfold Fmt.maxBits Fmt.enc
  rcases lt_trichotomy q f.maxQ with h | h | h
  · have hstep : (q - (f.emin - (f.p - 1 : Nat))).toNat + 1 ≤ (f.maxQ - (f.emin - (f.p - 1 : Nat))).toNat := by omega
    have hmul := Nat.mul_le_mul_right (2 ^ (f.p - 1)) hstep
    rw [add_mul] at hmul
    omega
  · rw [h, mul_le_mul_iff_left₀ (two_zpow_pos _), Nat.cast_le] at hmax
    rw [h]
    omega
  · exfalso
    have hbig : ¬ n < 2 ^ (f.p - 1) := fun hlt => by omega
    have hpq : (2 : ℚ) ^ (f.p : Int) * 2 ^ f.maxQ ≤ 2 ^ ((f.p - 1 : Nat) : Int) * 2 ^ q := by
      rw [← zpow_add₀ two_ne_zero, ← zpow_add₀ two_ne_zero]
      exact zpow_le_zpow_right₀ one_le_two (by have := hf.p_pos; omega)
    have hlt : (f.maxN : ℚ) * 2 ^ f.maxQ < n * 2 ^ q := by
      calc (f.maxN : ℚ) * 2 ^ f.maxQ < 2 ^ (f.p : Int) * 2 ^ f.maxQ := mul_lt_mul_of_pos_right (by exact_mod_cast hN') (two_zpow_pos _)
        _ ≤ 2 ^ ((f.p - 1 : Nat) : Int) * 2 ^ q := hpq
        _ ≤ n * 2 ^ q := mul_le_mul_of_nonneg_right (by exact_mod_cast not_lt.mp hbig) (two_zpow_pos _).le
    exact hlt.not_ge hmax

/-- Reading back an encoding (R165). -/
theorem Fmt.Narrow.decode_enc (neg : Bool) {n : Nat} {q : Int} (hq : f.emin - (f.p - 1 : Nat) ≤ q) (hn : n ≤ 2 ^ f.p)
    (hlow : n < 2 ^ (f.p - 1) → q = f.emin - (f.p - 1 : Nat)) (hmax : (n : ℚ) * 2 ^ q ≤ f.maxN * 2 ^ f.maxQ) :
    ∃ m e, f.decode (f.enc neg n q) = .fin neg m e ∧ ratOf neg m e = ratOf neg n q := by
  have hpow : 2 ^ f.p = 2 * 2 ^ (f.p - 1) := by rw [← pow_succ', Nat.sub_add_cancel hf.p_pos]
  have hpos : 0 < 2 ^ (f.p - 1) := Nat.two_pow_pos _
  have hle := hf.enc_le_maxBits hq hn hlow hmax
  unfold Fmt.enc at hle ⊢
  rw [if_neg Bool.false_ne_true, zero_add] at hle
  rw [hf.decode_sign_add neg hle, add_comm, Nat.add_mul_div_right _ _ hpos, Nat.add_mul_mod_self_right]
  obtain ⟨k, hk⟩ : ∃ k : Nat, q = f.emin - (f.p - 1 : Nat) + k := ⟨(q - (f.emin - (f.p - 1 : Nat))).toNat, by omega⟩
  have hkq : (q - (f.emin - (f.p - 1 : Nat))).toNat = k := by omega
  rw [hkq]
  by_cases h1 : n < 2 ^ (f.p - 1)
  · have hk0 : k = 0 := by have := hlow h1; omega
    rw [Nat.div_eq_of_lt h1, Nat.mod_eq_of_lt h1, hk, hk0]
    exact ⟨_, _, if_pos rfl, by simp⟩
  · by_cases h2 : n < 2 ^ f.p
    · have hd : n / 2 ^ (f.p - 1) = 1 := Nat.div_eq_of_lt_le (by omega) (by omega)
      have hm : 2 ^ (f.p - 1) + n % 2 ^ (f.p - 1) = n := by have := Nat.div_add_mod n (2 ^ (f.p - 1)); rwa [hd, mul_one] at this
      rw [hd, if_neg (by omega), hm, Nat.add_sub_cancel_left, hk]
      exact ⟨_, _, rfl, rfl⟩
    · have hn2 : n = 2 * 2 ^ (f.p - 1) := by omega
      have hk1 : ((2 + k - 1 : Nat) : Int) = k + 1 := by omega
      rw [hn2, Nat.mul_div_cancel _ hpos, Nat.mul_mod_left, if_neg (by omega), hk1, hk]
      refine ⟨_, _, rfl, ?_⟩
      unfold ratOf valueOf
      rw [← add_assoc, zpow_add_one₀ two_ne_zero]
      push_cast
      ring

end

/-! ### The rounding procedure (R169) -/

/-- The significand that rounding leaves fits the format, and fills it unless the weight is the least. -/
theorem rnd_bounds (f : Fmt) (hp : 0 < f.p) (mode : RoundMode) (neg : Bool) {m : Nat} (e : Int) (hm : m ≠ 0) :
    f.emin - (f.p - 1 : Nat) ≤ (f.rnd mode neg m e).q ∧ (f.rnd mode neg m e).n ≤ 2 ^ f.p ∧
      ((f.rnd mode neg m e).n < 2 ^ (f.p - 1) → (f.rnd mode neg m e).q = f.emin - (f.p - 1 : Nat)) := by
  have hlo : 2 ^ Nat.log2 m ≤ m := Nat.log2_self_le hm
  have hhi : m < 2 ^ (Nat.log2 m + 1) := Nat.lt_log2_self
  have hq : (f.rnd mode neg m e).q = max (e + Nat.log2 m) f.emin - (f.p - 1 : Nat) := rfl
  have hn : (f.rnd mode neg m e).n = (roundNat mode neg m (e - (f.rnd mode neg m e).q)).1 := rfl
  generalize (f.rnd mode neg m e).q = q at *
  generalize (f.rnd mode neg m e).n = n at *
  refine ⟨by omega, ?_⟩
  cases hk : e - q with
  | ofNat j =>
    have hj : e - q = j := hk
    have hnj : n = m * 2 ^ j := by rw [hn, hk]; rfl
    constructor
    · calc n ≤ 2 ^ (Nat.log2 m + 1) * 2 ^ j := hnj ▸ Nat.mul_le_mul_right _ hhi.le
        _ = 2 ^ (Nat.log2 m + 1 + j) := (pow_add ..).symm
        _ ≤ 2 ^ f.p := Nat.pow_le_pow_right two_pos (by omega)
    · intro hlt
      have hpow : 2 ^ (Nat.log2 m + j) < 2 ^ (f.p - 1) := (pow_add 2 _ j ▸ Nat.mul_le_mul_right _ hlo).trans_lt (hnj ▸ hlt)
      have := (Nat.pow_lt_pow_iff_right one_lt_two).mp hpow
      omega
  | negSucc j =>
    have hj : e - q = -(j + 1 : Nat) := hk
    obtain ⟨hge, hle⟩ := roundNat_negSucc mode neg m j
    rw [← hk, ← hn] at hge hle
    constructor
    · have hdiv : m / 2 ^ (j + 1) < 2 ^ f.p := by
        refine Nat.div_lt_of_lt_mul (hhi.trans_le ?_)
        rw [← pow_add]
        exact Nat.pow_le_pow_right two_pos (by omega)
      omega
    · intro hlt
      have hpow : 2 ^ Nat.log2 m < 2 ^ (f.p - 1 + (j + 1)) := by
        rw [pow_add]
        exact hlo.trans_lt ((Nat.div_lt_iff_lt_mul (Nat.two_pow_pos _)).mp (hge.trans_lt hlt))
      have := (Nat.pow_lt_pow_iff_right one_lt_two).mp hpow
      omega

/-- Rounding a value once gives what R169 says, with what overflow gives. -/
theorem rnd_roundsTo {f : Fmt} (hf : f.Narrow) (mode : RoundMode) (neg : Bool) {m : Nat} (e : Int) (hm : m ≠ 0) (ovf : FRes) :
    RoundsTo f mode (ratOf neg m e) ovf
      (if (f.rnd mode neg m e).ovf then ovf else ⟨f.enc neg (f.rnd mode neg m e).n (f.rnd mode neg m e).q, (f.rnd mode neg m e).fl⟩) := by
  obtain ⟨hq, hn, hlow⟩ := rnd_bounds f hf.p_pos mode neg e hm
  have hneg : decide (ratOf neg m e < 0) = neg := by
    rw [Bool.eq_iff_iff, decide_eq_true_eq, valueOf_neg_iff neg m e hm]
  have hround (k : Int) : (roundInt mode (ratOf neg m (e - k)) : ℚ) * 2 ^ k = ratOf neg (roundNat mode neg m (e - k)).1 k := by
    rw [(roundNat_spec (K := ℚ) mode neg m (e - k)).1]
    unfold ratOf valueOf
    cases neg <;> simp
  have hexact (k : Int) : (roundNat mode neg m (e - k)).2 = true ↔ ratOf neg (roundNat mode neg m (e - k)).1 k ≠ ratOf neg m e := by
    rw [← hround, ne_eq, ← eq_div_iff (two_zpow_pos k).ne', valueOf_div, (roundNat_spec (K := ℚ) mode neg m (e - k)).2,
      (roundNat_spec (K := ℚ) mode neg m (e - k)).1]
    unfold valueOf
    cases neg <;> simp
  have hrq : (f.rnd mode neg m e).q = max (e + Nat.log2 m) f.emin - (f.p - 1 : Nat) := rfl
  have hrn : (f.rnd mode neg m e).n = (roundNat mode neg m (e - (f.rnd mode neg m e).q)).1 := rfl
  have hrovf : (f.rnd mode neg m e).ovf = dyLt f.maxN f.maxQ (f.rnd mode neg m e).n (f.rnd mode neg m e).q := rfl
  have hrfl : (f.rnd mode neg m e).fl = (if (roundNat mode neg m (e - (f.rnd mode neg m e).q)).2 then flagNX else 0) |||
    (if (roundNat mode neg m (e - (f.rnd mode neg m e).q)).2 && dyLt (roundNat mode neg m (e - (e + Nat.log2 m - (f.p - 1 : Nat)))).1
      (e + Nat.log2 m - (f.p - 1 : Nat)) 1 f.emin then flagUF else 0) := rfl
  generalize f.rnd mode neg m e = r at *
  have hovf : r.ovf = true ↔ valueOf ℚ false f.maxN f.maxQ < r.n * 2 ^ r.q := by
    rw [hrovf, dyLt_spec (K := ℚ), valueOf, if_neg Bool.false_ne_true, one_mul]
  unfold RoundsTo
  simp only [abs_valueOf, int_log_value m e hm, hneg, hround, ← hrq, ← hrn, valueOf_div]
  by_cases hc : valueOf ℚ false f.maxN f.maxQ < r.n * 2 ^ r.q
  · rw [if_pos hc, if_pos (hovf.mpr hc)]
  · rw [if_neg hc, if_neg (mt hovf.mp hc)]
    refine ⟨?_, hf.decode_enc neg hq hn hlow ?_⟩
    · have hinexact := hexact r.q
      rw [← hrn] at hinexact
      rw [hrfl]
      by_cases hin : ratOf neg r.n r.q = ratOf neg m e
      · simp [hin, Bool.eq_false_iff.mpr (mt hinexact.mp (not_not.mpr hin))]
      · simp [hin, hinexact.mpr hin, dyLt_spec (K := ℚ)]
    · rw [valueOf, if_neg Bool.false_ne_true, one_mul] at hc
      exact not_lt.mp hc

end Sys2Proof.Machine

/-! Conversions (07_numbers R165, R168, R184, R185). -/

namespace Sys2Proof.Machine

/-! ### Values of integers -/

/-- The signed value of the low bits of a word. -/
theorem intOf_signed {w : Nat} (hw : 0 < w) (x : Nat) : intOf w true x = (BitVec.ofNat w (x % 2 ^ w)).toInt := by
  rw [intOf_eq w x hw, BitVec.toInt_eq_toNat_bmod, BitVec.toInt_eq_toNat_bmod, BitVec.toNat_ofNat, BitVec.toNat_ofNat, Nat.mod_mod]

/-! ### To an integer -/

/-- The least integer of a width. -/
def intMin (w : Nat) (signed : Bool) : Int := if signed then -2 ^ (w - 1) else 0
/-- The greatest integer of a width. -/
def intMax (w : Nat) (signed : Bool) : Int := if signed then 2 ^ (w - 1) - 1 else 2 ^ w - 1

theorem intMin_le_intMax (w : Nat) (signed : Bool) : intMin w signed ≤ intMax w signed := by
  have h : (0 : Int) < 2 ^ (w - 1) := by positivity
  have h' : (0 : Int) < 2 ^ w := by positivity
  unfold intMin intMax
  split <;> omega

theorem satInt_eq {lo hi : Int} (h : lo ≤ hi) (y : Int) : satInt lo hi y = (max lo (min hi y), decide (y < lo ∨ hi < y)) := by
  unfold satInt
  by_cases hlo : y < lo
  · rw [if_pos hlo, decide_eq_true (.inl hlo)]
    congr 1
    omega
  · by_cases hhi : hi < y
    · rw [if_neg hlo, if_pos hhi, decide_eq_true (.inr hhi)]
      congr 1
      omega
    · rw [if_neg hlo, if_neg hhi, decide_eq_false (not_or.mpr ⟨hlo, hhi⟩)]
      congr 1
      omega

/-- What an exact value becomes as an integer (R185). -/
def IntegerOf (w : Nat) (signed : Bool) (mode : RoundMode) (v : FVal) (r : FRes) : Prop :=
  let lo := intMin w signed
  let hi := intMax w signed
  match v with
  | .nan _ => r = ⟨0, flagNV⟩
  | .inf n => r = ⟨(BitVec.ofInt 64 (if n then lo else hi)).toNat, flagST⟩
  | .fin n m e =>
    let y := roundInt mode (ratOf n m e)
    r = ⟨(BitVec.ofInt 64 (max lo (min hi y))).toNat, (if y < lo ∨ hi < y then flagST else 0) ||| (if (y : ℚ) = ratOf n m e then 0 else flagNX)⟩

theorem integerOf_cvtConvert {t : CvtTy} (ht : cvtFmt? t = none) (mode : RoundMode) (ns : Bool) (v : FVal) :
    IntegerOf (cvtInt t).1 (cvtInt t).2 mode v (cvtConvert t mode ns v) := by
  generalize hw : (cvtInt t).1 = w
  generalize hs : (cvtInt t).2 = signed
  have hti : cvtInt t = (w, signed) := Prod.ext hw hs
  have hlo : (if signed then -(2 ^ (w - 1) : Nat) else 0 : Int) = intMin w signed := by
    unfold intMin
    push_cast
    rfl
  have hhi : (if signed then (2 ^ (w - 1) : Nat) - 1 else (2 ^ w : Nat) - 1 : Int) = intMax w signed := by
    unfold intMax
    push_cast
    rfl
  have hout (y : Int) : (y % (2 ^ 64 : Nat)).toNat = (BitVec.ofInt 64 y).toNat := (BitVec.toNat_ofInt ..).symm
  cases v with
  | nan s => simp only [IntegerOf, cvtConvert, ht]
  | inf s => simp only [IntegerOf, cvtConvert, ht, hti, hlo, hhi, hout]
  | fin s m e =>
    obtain ⟨hround, hinexact⟩ := roundNat_spec (K := ℚ) mode s m e
    have hy : (if s then -((roundNat mode s m e).1 : Int) else (roundNat mode s m e).1) = roundInt mode (ratOf s m e) := by
      rw [hround]
      cases s <;> simp
    have hnx : (roundNat mode s m e).2 = true ↔ ¬ (roundInt mode (ratOf s m e) : ℚ) = ratOf s m e := by
      rw [hinexact, hround]
      unfold ratOf valueOf
      cases s <;> simp
    simp only [IntegerOf, cvtConvert, ht, hti, hlo, hhi, hout, hy, satInt_eq (intMin_le_intMax w signed), decide_eq_true_eq, hnx, ite_not]

/-! ### To floating point -/

/-- What an exact value becomes in a format with infinities. -/
def FloatOf (f : Fmt) (mode : RoundMode) (v : FVal) (r : FRes) : Prop :=
  match v with
  | .nan sig => r = f.nanRes sig
  | .inf n => r = ⟨f.infBits n, 0⟩
  | .fin n m e => if m = 0 then r = f.zeroRes n else Rounds f mode (ratOf n m e) r

theorem floatOf_cvtConvert {t : CvtTy} {f : Fmt} (ht : cvtFmt? t = some f) (hf : f.Ieee) (mode : RoundMode) (ns : Bool) (v : FVal) :
    FloatOf f mode v (cvtConvert t mode ns v) := by
  cases v with
  | nan sig =>
    simp only [FloatOf, cvtConvert, ht, hf.infs, if_true, Fmt.put, signals_nv]
    cases sig <;> rfl
  | inf n =>
    simp [FloatOf, cvtConvert, ht, hf.infs, Fmt.put, FVal.nv]
  | fin n m e =>
    have hput : cvtConvert t mode ns (.fin n m e) = f.put mode (.fin n m e) := by simp [cvtConvert, ht, hf.infs, FVal.nv]
    rw [FloatOf, hput]
    by_cases hm : m = 0
    · rw [if_pos hm, hm, put_zero]
    · rw [if_neg hm]
      exact put_rounds f hf mode n m e hm

/-- What lies beyond E4M3 becomes, with or without saturation. -/
def beyondE4m3 (ns neg finite : Bool) : FRes :=
  if ns then ⟨0x7F, if finite then flagOF ||| flagNX else flagOF⟩ else ⟨if neg then 0xFE else 0x7E, if finite then flagST ||| flagNX else flagST⟩

/-- What an exact value becomes in E4M3. -/
def E4m3Of (mode : RoundMode) (ns : Bool) (v : FVal) (r : FRes) : Prop :=
  match v with
  | .nan sig => r = fmtE4m3.nanRes sig
  | .inf n => r = beyondE4m3 ns n false
  | .fin n m e => if m = 0 then r = fmtE4m3.zeroRes n else RoundsTo fmtE4m3 mode (ratOf n m e) (beyondE4m3 ns n true) r

theorem e4m3Of_cvtConvert (mode : RoundMode) (ns : Bool) (v : FVal) : E4m3Of mode ns v (cvtConvert .e4m3 mode ns v) := by
  cases v with
  | nan sig => rfl
  | inf n => cases ns <;> cases n <;> rfl
  | fin n m e =>
    rw [E4m3Of]
    by_cases hm : m = 0
    · rw [if_pos hm, hm]
      cases n <;> rfl
    · have hbeyond : beyondE4m3 ns n true = if ns then ⟨0x7F, flagOF ||| flagNX⟩ else ⟨fmtE4m3.maxBits n, flagST ||| flagNX⟩ := by
        cases ns <;> cases n <;> rfl
      have hround := rnd_roundsTo fmtE4m3_narrow mode n e hm (beyondE4m3 ns n true)
      rw [if_neg hm]
      convert hround using 1
      rw [hbeyond]
      simp only [cvtConvert, cvtFmt?, if_neg hm]
      rfl

/-! ### The registers that a conversion writes (R168) -/

section
variable {s : State} {d a : BitVec 7} {dty sty : CvtTy} {mode : RoundMode} {ns : Bool}

/-- What the conversion of a lane's source gives. -/
def State.converted (s : State) (a : BitVec 7) (dty sty : CvtTy) (mode : RoundMode) (ns : Bool) (l : Nat) : FRes :=
  cvtConvert dty mode ns (cvtValue sty (s.cvtSrc sty a l))

theorem setWidth_ofNat_div (x : Nat) : (BitVec.ofNat 64 x >>> 32).setWidth 32 = BitVec.ofNat 32 (x / 2 ^ 32) := by
  refine BitVec.eq_of_toNat_eq ?_
  simp only [BitVec.toNat_setWidth, BitVec.toNat_ushiftRight, BitVec.toNat_ofNat, Nat.shiftRight_eq_div_pow]
  omega

theorem gives_cvt : Gives (.cvt d a dty sty mode ns) s fun t => OnlyRegs s t ∧ t.me.regs = { s.me.regs with v := t.me.regs.v, flags := t.me.regs.flags } ∧
    (∀ n l, l < 32 → t.me.regs.getV n l =
      if n = d.toNat ∧ s.act l = true then BitVec.ofNat 32 (s.converted a dty sty mode ns l).bits
      else if (dty = .i64 ∨ dty = .n64) ∧ n = d.toNat + 1 ∧ s.act l = true then BitVec.ofNat 32 ((s.converted a dty sty mode ns l).bits / 2 ^ 32)
      else s.me.regs.getV n l) ∧
    ∀ l, l < 32 → t.me.regs.getF l = if s.act l = true then s.me.regs.getF l ||| (s.converted a dty sty mode ns l).fl else s.me.regs.getF l := by
  by_cases hwide : dty = .i64 ∨ dty = .n64
  · refine ⟨_, congrArg Host.Outcome.next (if_pos hwide), rfl, rfl, fun n l hl => ?_, fun l hl => flag_getF _ hl⟩
    obtain ⟨-, -, hv⟩ := setVV_result s d fun l => BitVec.ofNat 64 (s.converted a dty sty mode ns l).bits
    refine (hv n l hl).trans ?_
    simp only [hwide, true_and, setWidth_ofNat_div, BitVec.setWidth_ofNat_of_le (show 32 ≤ 64 by decide)]
  · obtain ⟨honly, hregs, hv, hfl⟩ := setF_result s d (s.converted a dty sty mode ns)
    refine ⟨_, congrArg Host.Outcome.next (if_neg hwide), honly, hregs, fun n l hl => (hv n l hl).trans ?_, hfl⟩
    simp only [hwide, false_and, if_false]

end

end Sys2Proof.Machine

namespace Sys2Proof

open Machine

/-- Settles O10: what a conversion gives by the type it goes to, and the registers that take it. -/
theorem conversions : Obligations.Conversions := by
  unfold Obligations.Conversions
  intro s d a dty sty mode ns width signed fmt wide source toInt toFloat
  have hsource (l : Nat) : source l = cvtValue sty (s.cvtSrc sty a l) := by
    have hint {w : Nat} (hw : 0 < w) (x : Nat) := congrArg (fun y : Int => FVal.fin (decide (y < 0)) y.natAbs 0) (intOf_signed hw x).symm
    cases sty with
    | f32 | f16 | bf16 | e4m3 | n32 | n16 | n8 | n64 => rfl
    | i32 | i16 | i8 | i4 | i2 | i64 => exact hint (by norm_num) _
  have hwide : wide dty = true ↔ dty = .i64 ∨ dty = .n64 := by cases dty <;> decide
  obtain ⟨t, ht, honly, hregs, hv, hfl⟩ := gives_cvt (s := s) (d := d) (a := a) (dty := dty) (sty := sty) (mode := mode) (ns := ns)
  refine ⟨t, ht, s.converted a dty sty mode ns, fun l _ => ?_, honly, hregs, fun n l hl => ?_, hfl⟩
  · rw [hsource]
    cases dty with
    | f32 => exact floatOf_cvtConvert rfl fmtF32_ieee mode ns _
    | f16 => exact floatOf_cvtConvert rfl fmtF16_ieee mode ns _
    | bf16 => exact floatOf_cvtConvert rfl fmtBf16_ieee mode ns _
    | e4m3 => exact e4m3Of_cvtConvert mode ns _
    | _ => exact integerOf_cvtConvert rfl mode ns _
  · simp only [hv n l hl, hwide]

end Sys2Proof

/-! Block scaling and Q4 packing (07_numbers R187 to R190). -/

namespace Sys2Proof.Machine

/-! ### The quantisation control (R187) -/

theorem qSeg_eq_testBit (c : Nat) : qSeg c = c.testBit 9 := by
  rw [Nat.testBit_eq_decide_div_mod_eq]
  rfl

theorem qBins_eq (c : Nat) : qBins c = if c.testBit 9 then 16 else 32 := by rw [qBins, qSeg_eq_testBit]

theorem qBins_pos (c : Nat) : 0 < qBins c := by
  unfold qBins
  split <;> norm_num

theorem qSegOf_eq (c l : Nat) : qSegOf c l = if c.testBit 9 then l / 16 else 0 := by rw [qSegOf, qSeg_eq_testBit]

/-! ### Histograms (R188) -/

theorem filter_lanes (s : State) (p : Nat → Bool) : s.lanes.filter p = (List.range 32).filter fun l => s.act l && p l :=
  List.filter_filter.trans (List.filter_congr fun _ _ => Bool.and_comm ..)

/-- The bin of a value that is counted. -/
theorem qBin_eq_some (c : Nat) (x : Word) (k : Nat) : qBin c x.toNat = some k ↔
    (x.toNat % 2 ^ 31 ≠ 0 ∧ x.toNat % 2 ^ 31 ≤ 0x7F800000) ∧
      (max 0 (min ((x.toNat / 2 ^ 23 % 256 : Int) - (c % 256 : Nat)) (qBins c - 1))).toNat = k := by
  have hpos := qBins_pos c
  have hnan : isNanF32 x.toNat = decide (0x7F800000 < x.toNat % 2 ^ 31) := isNan_decode_f32 x
  have hbin : min (x.toNat % 2 ^ 31 / 2 ^ 23 - c % 256) (qBins c - 1) =
      (max 0 (min ((x.toNat / 2 ^ 23 % 256 : Int) - (c % 256 : Nat)) (qBins c - 1))).toNat := by omega
  simp only [qBin, hnan, hbin]
  split
  case isTrue h =>
    rw [Bool.or_eq_true, decide_eq_true_eq, decide_eq_true_eq] at h
    simp only [reduceCtorEq, false_iff]
    omega
  case isFalse h =>
    rw [Bool.or_eq_true, decide_eq_true_eq, decide_eq_true_eq] at h
    rw [Option.some.injEq]
    exact (and_iff_right (by omega)).symm

/-! ### Scales (R189) -/

/-- The least bin with at most the allowed count above it. -/
theorem exists_least_bin {nb allow : Nat} (above : Nat → Nat) (hnb : 0 < nb) (hlast : above (nb - 1) ≤ allow) :
    ∃ j, ((List.range nb).find? fun k => decide (above k ≤ allow)) = some j ∧ j < nb ∧ above j ≤ allow ∧ ∀ k, k < j → allow < above k := by
  cases hj : (List.range nb).find? fun k => decide (above k ≤ allow) with
  | none =>
    have h := List.find?_range_eq_none.mp hj (nb - 1) (by omega)
    simp only [decide_eq_true hlast, Bool.not_true, Bool.false_eq_true] at h
  | some j =>
    obtain ⟨hle, hmem, hlow⟩ := List.find?_range_eq_some.mp hj
    exact ⟨j, rfl, List.mem_range.mp hmem, of_decide_eq_true hle, fun k hk => by simpa using hlow k hk⟩

/-- What the scale code of a segment is, from the counts of its bins. -/
def ScaleOf (c : Nat) (count : Nat → Nat) (code : Nat) : Prop :=
  let tot := ((List.range (qBins c)).map count).sum
  let allow := tot * (65535 - c / 2 ^ 16) / 65536
  let above (j : Nat) : Nat := (((List.range (qBins c)).filter fun k => decide (j < k)).map count).sum
  if tot = 0 then code = 127
  else ∃ j, j < qBins c ∧ above j ≤ allow ∧ (∀ k, k < j → allow < above k) ∧
    (code : Int) = max 0 (min 254 ((max (c % 256 + j) 1 : Nat) - (if c.testBit 8 then 2 else 8 : Int)))

theorem scaleOf_qcode (s : State) (a : BitVec 7) {c h : Nat} (hh : h < 32 / qBins c) :
    ScaleOf c (fun k => if s.act (16 * h + k) = true then (s.v a (16 * h + k)).toNat else 0) (s.qcode a c h) := by
  have hlane (k : Nat) : (if qSeg c then 16 * h + k else k) = 16 * h + k := by
    unfold qBins at hh
    split at hh <;> split <;> omega
  unfold ScaleOf State.qcode
  simp only [hlane]
  generalize (fun k => if s.act (16 * h + k) = true then (s.v a (16 * h + k)).toNat else 0) = count
  split
  case isTrue => rfl
  case isFalse =>
    have hlast : (((List.range (qBins c)).filter fun k => decide (qBins c - 1 < k)).map count).sum ≤
        ((List.range (qBins c)).map count).sum * (65535 - c / 2 ^ 16) / 65536 := by
      have hnil : ((List.range (qBins c)).filter fun k => decide (qBins c - 1 < k)) = [] := List.filter_eq_nil_iff.mpr fun k hk => by
        have := List.mem_range.mp hk
        rw [decide_eq_true_eq]
        omega
      rw [hnil]
      exact Nat.zero_le _
    obtain ⟨j, hfind, hj, hle, hlow⟩ := exists_least_bin (fun j => (((List.range (qBins c)).filter fun k => decide (j < k)).map count).sum) (qBins_pos c) hlast
    refine ⟨j, hj, hle, hlow, ?_⟩
    have hemax : (if c / 2 ^ 8 % 2 = 1 then 2 else 8 : Int) = if c.testBit 8 then 2 else 8 := by
      rw [Nat.testBit_eq_decide_div_mod_eq]
      simp only [decide_eq_true_eq]
    rw [hfind, Option.getD_some, hemax, satInt_eq (by decide), Int.toNat_of_nonneg (le_max_left ..)]
    congr 2
    omega

/-! ### Packing (R190) -/

/-- What the nibble of a lane is (R190). -/
def NibbleOf (v : FVal) (scale : Int) (r : FRes) : Prop :=
  match v with
  | .nan _ => r = ⟨0, flagNV⟩
  | .inf n => r = if scale = 255 then ⟨0, flagNV⟩ else ⟨if n then 15 else 7, flagST⟩
  | .fin n m e => if scale = 255 then r = ⟨0, flagNV⟩ else if m = 0 then r = ⟨if n then 8 else 0, 0⟩
    else RoundsTo fmtE2m1 .ne (ratOf n m (e - (scale - 127))) ⟨if n then 15 else 7, flagST ||| flagNX⟩ r

theorem nibbleOf_qNibble (x scale : Nat) : NibbleOf (fmtF32.decode x) scale (qNibble x scale) := by
  have hscale : (scale : Int) = 255 ↔ scale = 255 := by omega
  unfold qNibble
  cases fmtF32.decode x with
  | nan _ => rfl
  | inf n => simp only [NibbleOf, hscale]
  | fin n m e =>
    simp only [NibbleOf, hscale]
    split
    · rfl
    · split
      · rfl
      case isFalse hm => exact rnd_roundsTo fmtE2m1_narrow .ne n _ hm _

/-- Every nibble is a number. -/
theorem exists_decode_e2m1 (x : Nat) : ∃ n m e, fmtE2m1.decode x = .fin n m e := by
  by_cases h : x % 2 ^ (fmtE2m1.w - 1) / 2 ^ (fmtE2m1.p - 1) = 0
  · exact ⟨_, _, _, if_pos h⟩
  · exact ⟨_, _, _, if_neg h⟩

theorem qUnpack_spec (nib scale : Nat) : if (scale : Int) = 255 then qUnpack nib scale = ⟨0x7FC00000, 0⟩
    else ∃ n m e, fmtE2m1.decode nib = .fin n m e ∧
      if m = 0 then qUnpack nib scale = fmtF32.zeroRes n else Rounds fmtF32 .ne (ratOf n m (e + (scale - 127))) (qUnpack nib scale) := by
  obtain ⟨n, m, e, hdec⟩ := exists_decode_e2m1 nib
  split
  case isTrue h => exact if_pos (by omega)
  case isFalse h =>
    have hun : qUnpack nib scale = fmtF32.put .ne (.fin n m (e + (scale - 127))) := by
      rw [qUnpack, if_neg (by omega), hdec]
    refine ⟨n, m, e, hdec, ?_⟩
    rw [hun]
    split
    case isTrue hm => rw [hm, put_zero]
    case isFalse hm => exact put_rounds fmtF32 fmtF32_ieee .ne n m _ hm

/-- The lanes of a group of eight. -/
theorem filter_group {g : Nat} (hg : g < 4) : ((List.range 32).filter fun m => m / 8 == g) = (List.range 8).map fun i => g * 8 + i := by
  interval_cases g <;> rfl

/-- A packed word is the sum of its nibbles at their places. -/
theorem sum_group {s : State} (f : Nat → Nat) {l : Nat} (hl : l < 32) :
    ((s.lanes.filter fun m => m / 8 == l / 8).map fun m => f m * 16 ^ (m % 8)).sum =
      ((List.range 8).map fun i => if s.act (l / 8 * 8 + i) = true then f (l / 8 * 8 + i) * 16 ^ i else 0).sum := by
  have hlanes : s.lanes.filter (fun m => m / 8 == l / 8) = ((List.range 8).filter fun i => s.act (l / 8 * 8 + i)).map fun i => l / 8 * 8 + i := by
    rw [State.lanes, lanesOf, List.filter_comm, filter_group (by omega), List.filter_map]
    rfl
  have hplace : ∀ i ∈ (List.range 8).filter fun i => s.act (l / 8 * 8 + i), f (l / 8 * 8 + i) * 16 ^ ((l / 8 * 8 + i) % 8) = f (l / 8 * 8 + i) * 16 ^ i :=
    fun i hi => by
      have h8 := List.mem_range.mp (List.mem_filter.mp hi).1
      rw [show (l / 8 * 8 + i) % 8 = i by omega]
  rw [hlanes, List.map_map, List.sum_map_ite, List.sum_map_zero, add_zero]
  exact congrArg List.sum ((List.map_congr_left hplace).trans (by simp only [Bool.decide_eq_true]))

section
variable {s : State} (d a b : BitVec 7)

/-- The nibble of a lane. -/
def State.nibble (s : State) (a b : BitVec 7) (l : Nat) : FRes := qNibble (s.v a l).toNat ((s.v b l).toNat % 256)

theorem gives_pack (h : s.qctl b / 2 ^ 8 % 2 = 0) : Gives (.qpack d a b) s fun t =>
    OnlyRegs s t ∧ t.me.regs = { s.me.regs with v := t.me.regs.v, flags := t.me.regs.flags } ∧
    (∀ n l, l < 32 → t.me.regs.getV n l = if n = d.toNat ∧ s.act l = true then
      BitVec.ofNat 32 (((List.range 8).map fun i => if s.act (l / 8 * 8 + i) = true then (s.nibble a b (l / 8 * 8 + i)).bits * 16 ^ i else 0).sum)
      else s.me.regs.getV n l) ∧
    ∀ l, l < 32 → t.me.regs.getF l = if s.act l = true then s.me.regs.getF l ||| (s.nibble a b l).fl else s.me.regs.getF l := by
  obtain ⟨honly, hregs, hv, hfl⟩ := setF_result s d fun l =>
    ⟨((s.lanes.filter fun m => m / 8 == l / 8).map fun m => (s.nibble a b m).bits * 16 ^ (m % 8)).sum, (s.nibble a b l).fl⟩
  refine ⟨_, congrArg Host.Outcome.next (if_pos h), honly, hregs, fun n l hl => ?_, hfl⟩
  rw [← sum_group (fun m => (s.nibble a b m).bits) hl]
  exact hv n l hl

end

end Sys2Proof.Machine

namespace Sys2Proof

open Machine

/-- Settles O11: histograms lane by lane, the scale by the search for its bin, packing by the sum of a group's nibbles. -/
theorem quantisation : Obligations.Quantisation := by
  unfold Obligations.Quantisation
  intro s ctl seg bins part counted bin
  have hbins (b : BitVec 7) : bins b = qBins (s.qctl b) := (qBins_eq _).symm
  have hpart (b : BitVec 7) (l : Nat) : part b l = qSegOf (s.qctl b) l := (qSegOf_eq _ _).symm
  have hbit (b : BitVec 7) : (ctl b).testBit 8 = decide (s.qctl b / 2 ^ 8 % 2 = 1) := Nat.testBit_eq_decide_div_mod_eq
  refine ⟨fun d a b => gives_setV rfl fun j => ?_, fun d a b => ⟨_, rfl, s.qcode a (s.qctl b), ?_, fun h hh => ?_⟩, fun d a b => ⟨fun hb => ?_, fun hb => ?_⟩⟩
  · have hcounted (l : Nat) : (qSegOf (s.qctl b) l == qSegOf (s.qctl b) j && qBin (s.qctl b) (s.v a l).toNat == some (j % qBins (s.qctl b))) =
        (counted (s.v a l) && decide (part b l = part b j) && decide (bin b (s.v a l) = j % bins b)) := by
      rw [Bool.eq_iff_iff, Bool.and_eq_true, Bool.and_eq_true, Bool.and_eq_true, beq_iff_eq, beq_iff_eq, qBin_eq_some, ← hbins, ← hpart, ← hpart,
        decide_eq_true_eq, decide_eq_true_eq, decide_eq_true_eq]
      exact ⟨fun ⟨hp, hc, hk⟩ => ⟨⟨hc, hp⟩, hk⟩, fun ⟨⟨hc, hp⟩, hk⟩ => ⟨hp, hc, hk⟩⟩
    rw [BitVec.ofNat_add, BitVec.ofNat_toNat, BitVec.setWidth_eq]
    refine congrArg (fun ls : List Nat => s.v d j + BitVec.ofNat 32 ls.length) ((filter_lanes s _).trans (List.filter_congr fun l _ => ?_))
    rw [hcounted, Bool.and_assoc, Bool.and_assoc, Bool.and_assoc]
  · simp only [hpart]
    exact setV_result s d _
  · rw [hbins] at hh ⊢
    exact scaleOf_qcode s a hh
  · have hpack : s.qctl b / 2 ^ 8 % 2 = 0 := Nat.mod_two_ne_one.mp (of_decide_eq_false ((hbit b).symm.trans hb))
    obtain ⟨t, ht, honly, hregs, hv, hfl⟩ := gives_pack d a b hpack
    exact ⟨t, ht, s.nibble a b, honly, hregs, hv, hfl, fun l _ => nibbleOf_qNibble _ _⟩
  · have hunpack : ¬ s.qctl b / 2 ^ 8 % 2 = 0 := by
      rw [of_decide_eq_true ((hbit b).symm.trans hb)]
      exact one_ne_zero
    exact ⟨_, congrArg Host.Outcome.next (if_neg hunpack), _, setF_result s d _, fun l _ => qUnpack_spec _ _⟩

end Sys2Proof
